-- ==== Sys2Proof/Word.lean ====
section
/-! DEFINITION. Word.lean: the word types of the MS-2048 model and the plainest operations on them:
taking a field of a word, putting one in, bytes in little-endian order (R5). -/
namespace Sys2Proof

/-- One byte. -/
abbrev Byte := BitVec 8
/-- One 64 B sector: byte i is bits [8i+7:8i] (R5). -/
abbrev Sector := BitVec 512
/-- The 256 B of data of one batt, which is also one cache line: byte i is bits [8i+7:8i] (R44). -/
abbrev Batt := BitVec 2048
/-- A register or field of 32 bits. -/
abbrev Word32 := BitVec 32
/-- A register or field of 64 bits. -/
abbrev Word64 := BitVec 64
/-- One ring entry in its widest form, 64 B (R320). -/
abbrev RawEntry := BitVec 512

/-- The `len` bits of `x` from bit `lo` upward. -/
abbrev bitsOf {n : Nat} (x : BitVec n) (lo len : Nat) : BitVec len := x.extractLsb' lo len

/-- `x` with its bits from `lo` upward replaced by `v`. -/
def putBits {n m : Nat} (x : BitVec n) (lo : Nat) (v : BitVec m) : BitVec n :=
  (x &&& ~~~(((BitVec.allOnes m).setWidth n) <<< lo)) ||| ((v.setWidth n) <<< lo)

/-- A flag as a field of one bit. -/
def bit (b : Bool) : BitVec 1 := if b then 1#1 else 0#1

/-- Byte `i` of a word. -/
abbrev byteOf {n : Nat} (x : BitVec n) (i : Nat) : Byte := x.extractLsb' (8 * i) 8

/-- The first `k` bytes of a word, lowest first (R5). -/
def toBytes {n : Nat} (x : BitVec n) (k : Nat) : List Byte := (List.range k).map (byteOf x)

/-- The number that a little-endian byte string spells (R5). -/
def leNat (l : List Byte) : Nat := l.foldr (fun b acc => b.toNat + 256 * acc) 0

/-- The word that a little-endian byte string spells (R5). -/
def ofBytes (n : Nat) (l : List Byte) : BitVec n := BitVec.ofNat n (leNat l)

/-- Sector `i` of a line. -/
def sectorOf (b : Batt) (i : Nat) : Sector := b.extractLsb' (512 * i) 512

/-- A line with sector `i` replaced. -/
def putSector (b : Batt) (i : Nat) (v : Sector) : Batt := putBits b (512 * i) v

/-- The bit mask that a byte-enable mask of a sector stands for. -/
def byteMask (en : BitVec 64) : Sector :=
  (List.range 64).foldl (fun acc i => if en.getLsbD i then putBits acc (8 * i) (0xFF#8) else acc) 0#512

/-- `old` with the bytes that `en` enables taken from `new`. -/
def mergeBytes (old new : Sector) (en : BitVec 64) : Sector :=
  (old &&& ~~~(byteMask en)) ||| (new &&& byteMask en)

/-- Saturating addition at `top`. -/
def satAdd (top a b : Nat) : Nat := min top (a + b)

/-- The bits of a word that are set, in rising order. -/
def setBits {n : Nat} (x : BitVec n) : List Nat := (List.range n).filter (fun i => x.getLsbD i)

/-- A word with bit `i` set to `b`. -/
def putBit {n : Nat} (x : BitVec n) (i : Nat) (b : Bool) : BitVec n := putBits x i (bit b)

end Sys2Proof
end

