-- ==== Sys2Proof/Types.lean ====
section
/-! DEFINITION. Types.lean: the names that commands and the state share: ports, slot classes, message fields,
the fixed part of an admin command entry, the header of a gangline flit, ... -/
namespace Sys2Proof

/-- A host port (R23): A enters at half 0, B at half 1. -/
inductive Port where
  | a | b
  deriving DecidableEq, Repr, Inhabited

/-- The other port. -/
def Port.other : Port → Port
  | .a => .b
  | .b => .a

/-- A = 0, B = 1 (R336). -/
def Port.num : Port → Nat
  | .a => 0
  | .b => 1

/-- One value per port. -/
structure Two (α : Type) where
  a : α
  b : α
  deriving DecidableEq, Repr, Inhabited

/-- The value of one port. -/
def Two.get {α : Type} (t : Two α) : Port → α
  | .a => t.a
  | .b => t.b

/-- One port's value replaced. -/
def Two.set {α : Type} (t : Two α) (p : Port) (v : α) : Two α :=
  match p with
  | .a => { t with a := v }
  | .b => { t with b := v }

/-- Both ports' values changed. -/
def Two.map {α : Type} (t : Two α) (f : Port → α → α) : Two α := ⟨f .a t.a, f .b t.b⟩

abbrev Tile := Fin 4
abbrev Pack := Fin 8
abbrev RingNo := Fin 256
abbrev FullerNo := Fin 8

/-- The twelve slot classes with the codes of *Slot classes* (R84). -/
inductive SlotClass where
  | openSlot | cellWr | cellRd | lineFill | lineWb | metaSlot | tier | scrub | refresh | train | job | mirror
  deriving DecidableEq, Repr, Inhabited

/-- The class code (R84). -/
def SlotClass.code : SlotClass → Nat
  | .openSlot => 0 | .cellWr => 1 | .cellRd => 2 | .lineFill => 3 | .lineWb => 4 | .metaSlot => 5
  | .tier => 6 | .scrub => 7 | .refresh => 8 | .train => 9 | .job => 10 | .mirror => 11

/-- The class of a code; codes 0xC to 0xF are reserved (R84). -/
def SlotClass.ofCode (n : Nat) : Option SlotClass :=
  match n with
  | 0 => some .openSlot | 1 => some .cellWr | 2 => some .cellRd | 3 => some .lineFill
  | 4 => some .lineWb | 5 => some .metaSlot | 6 => some .tier | 7 => some .scrub
  | 8 => some .refresh | 9 => some .train | 10 => some .job | 11 => some .mirror
  | _ => none

/-- The classes that may take OPEN slots (R84). -/
def SlotClass.openEligible : SlotClass → Bool
  | .cellWr | .cellRd | .lineFill | .lineWb | .metaSlot | .tier | .job | .mirror => true
  | _ => false

/-- A source of register accesses (R542). -/
inductive Source where
  | portA | portB | sideband
  deriving DecidableEq, Repr, Inhabited

/-- The source's code in REGERR (R555). -/
def Source.code : Source → Nat
  | .portA => 0 | .portB => 1 | .sideband => 2

/-- The port whose BAR a source is, if it is one. -/
def Source.port : Source → Option Port
  | .portA => some .a | .portB => some .b | .sideband => none

/-- The MetaValue of a CXL.mem request: Any, Shared or Invalid, or no metadata operation. -/
inductive MetaValue where
  | any | shared | invalid | noOp
  deriving DecidableEq, Repr, Inhabited

/-- One M2S Req (R158): window offset W (R160), tag, MetaValue and SnpType is implied by the row of
*Grants and snoops*. -/
structure M2SReq where
  port : Port
  tag  : BitVec 16
  w    : BitVec 53
  mv   : MetaValue
  deriving DecidableEq, Repr, Inhabited

/-- One M2S RwD (R158): as `M2SReq`, with its data, byte enables and poison. -/
structure M2SRwD where
  port   : Port
  tag    : BitVec 16
  w      : BitVec 53
  mv     : MetaValue
  data   : Sector
  en     : BitVec 64
  poison : Bool
  deriving DecidableEq, Repr, Inhabited

/-- A message whose opcode a port does not use (R158). -/
inductive BadMsg where
  /-- on M2S Req, and on M2S RwD -/
  | req (r : M2SReq)
  | rwd (r : M2SReq)
  /-- on a CXL.cache channel of the host: 0 H2D Req, 1 H2D Rsp, 2 H2D Data -/
  | cache (p : Port) (chan : Fin 3)
  deriving DecidableEq, Repr, Inhabited

/-- What ends a tier move (R300): its page, and whether a self-verification failed, on the fuller that compressed it and on the
other one. -/
structure MoveEnd where
  page : Nat
  bad1 : Bool
  bad2 : Bool
  deriving DecidableEq, Repr, Inhabited

/-- The fixed part of an admin command entry (R341), with the port of its admin ring. -/
structure AdminHdr where
  port  : Port
  tag   : BitVec 64
  rbuf  : BitVec 64
  rlen  : Nat
  /-- a reserved byte or bit of the entry is not zero (code 0xE1, R515) -/
  resv  : Bool
  deriving DecidableEq, Repr, Inhabited

/-- The fields of a received gangline flit that every message carries beside its own (R430, R433). -/
structure FlitHdr where
  /-- the flit's epoch (R431) -/
  epoch : Nat
  /-- the ACK field, and whether it carries one -/
  ack   : Nat
  ackV  : Bool
  /-- request credits returned -/
  cred  : Nat
  /-- a bark (R441) -/
  bark  : Bool
  deriving DecidableEq, Repr, Inhabited

/-- A Base Address Register of an access (R179). -/
inductive Bar where
  | bar0 | bar2 | bar4
  deriving DecidableEq, Repr, Inhabited

/-- What a configuration read asks of a port's function (R154, R178, R179): a dword of its header, a Base Address Register, a capability
structure, a register block behind a BAR2 capability, the CDAT table behind the DOE, or another structure of PCI Express or CXL,
which the port does not have (R2). -/
inductive CfgItem where
  | deviceVendor | classRevision
  | bar (b : Bar)
  | endpoint | powerManagement | msix | aer | serialNumber
  /-- 0 Data Link Feature, 1 to 3 Physical Layer 16.0, 32.0 and 64.0 GT/s, 4 Lane Margining at the Receiver -/
  | linkCap (n : Fin 5)
  | doeDiscovery | cdat
  | cxlDvsec | gpfDvsec | flexBusDvsec | registerLocator
  | cxlRas | cxlLink | hdmDecoder | biDecoder
  | deviceStatus | memDeviceStatus
  | unlisted (id : Nat)
  deriving DecidableEq, Repr, Inhabited

/-- A CXL.io request of a host other than a memory write: a configuration request (R178, R179), a read of a BAR (R182), a clear of
status bits (R183), or a margining command for a receiver lane with what the eye shows at that setting (R154). -/
inductive CfgReq where
  | read (item : CfgItem)
  | setMemEnable (on : Bool)
  | setCacheEnable (on : Bool)
  | setPowerState (d3hot : Bool)
  /-- 1s written to the AER bits, and to those of the CXL RAS Capability -/
  | clearAer
  | clearRas
  /-- `voltage`: a voltage step, else a timing step; `errors`: errors counted at the step -/
  | margin (lane : Fin 16) (voltage : Bool) (step errors : Nat)
  | barRead (bar : Bar) (offset size : Nat)
  | other
  deriving DecidableEq, Repr, Inhabited

/-- The trained rate of a port's link (R154, R155); `low` is below 16 GT/s. -/
inductive LinkRate where
  | gt16 | gt32 | gt64 | low
  deriving DecidableEq, Repr, Inhabited

/-- The RATE code of PORT_STATUS (R184). -/
def LinkRate.code : LinkRate → Nat
  | .gt16 => 0 | .gt32 => 1 | .gt64 => 2 | .low => 3

/-- The trained width of a port (R156). -/
inductive LinkWidth where
  | x16 | x8lo | x8hi
  deriving DecidableEq, Repr, Inhabited

/-- The WIDTH code of PORT_STATUS (R184). -/
def LinkWidth.code : LinkWidth → Nat
  | .x16 => 0 | .x8lo => 1 | .x8hi => 2

/-- The shared pools whose entries free one at a time (R410, R413). -/
inductive PoolId where
  | dispatch (pack : Pack) (cls : SlotClass)
  | miss (tile : Tile)
  | transit (tile : Tile)
  deriving DecidableEq, Repr, Inhabited

/-- What the slice patrol finds (R211, R223): an error in a tag copy, in a data word, or in a filter copy. -/
inductive Finding where
  /-- tag entry (set, way); false primary, true shadow; `unc`: uncorrectable -/
  | tagCopy (set : Nat) (way : Fin 16) (shadow : Bool) (unc : Bool)
  /-- data word of a sector of the line in (set, way) -/
  | dataWord (set : Nat) (way : Fin 16) (sector : Fin 4) (unc : Bool)
  | filterCopy (set : Nat) (way : Fin 16) (shadow : Bool) (unc : Bool)
  /-- uncorrectable run state word (R369) and uncorrectable root entry (R284), read in the same pass -/
  | runWord (run : Nat)
  | rootEntry (index : Fin 8)
  deriving DecidableEq, Repr, Inhabited

/-- A protection block (R256): its region table, METAWAYS, sealed range (base, granules) and metadata base in granules of each
tile, and whether its signature verifies. -/
structure ProtData where
  sigOk    : Bool
  regions  : List (BitVec 128)
  metaWays : Nat
  seals    : List (Nat × Nat × Nat)
  deriving DecidableEq, Repr, Inhabited

/-- The peer's HELLO (R424). -/
structure HelloMsg where
  moduleId : Word64
  epoch    : Nat
  fresh    : Bool
  dirty    : Bool
  parity   : Bool
  digest   : Word64
  deriving DecidableEq, Repr, Inhabited

/-- The header of a gangline message about a sector (R429): tag, key id, poison and logical offset bits [41:6]. -/
structure MirrorMsg where
  tag    : Nat
  keyId  : BitVec 6
  poison : Bool
  sector : BitVec 36
  deriving DecidableEq, Repr, Inhabited

/-- A heel request (R460). -/
inductive HeelReq where
  | die | dram | cap (tile : Tile)
  deriving DecidableEq, Repr, Inhabited

end Sys2Proof
end

