-- ==== Sys2Proof/Syntax.lean ====
section
/-! DEFINITION. Syntax.lean: the commands of the MS-2048, one constructor for each row of spec/opcode_table.json, with
the row's operands. Each docstring gives the row's mnemonic and the rule that opens it. -/
namespace Sys2Proof

/-- A command: something that reaches the module from outside, or a moment at which it acts of itself. -/
inductive Instr where
  /-- VIN_RISE (R469) -/
  | vinRise (uvSel : BitVec 2) (insDly : BitVec 2)
  /-- VIN_FALL (R473) -/
  | vinFall
  /-- INPUT_WINDOW_CHANGE (R470) -/
  | inputWindowChange (uv : Bool) (inside : Bool)
  /-- EN_IN_ASSERT (R471) -/
  | enInAssert
  /-- EN_IN_DEASSERT (R471) -/
  | enInDeassert
  /-- INSERTION_DELAY_EXPIRY (R473) -/
  | insertionDelayExpiry
  /-- PRECHARGE_WINDOW_FREE (R476) -/
  | prechargeWindowFree
  /-- PRECHARGE_DONE (R475) -/
  | prechargeDone
  /-- PRECHARGE_TIMEOUT (R475) -/
  | prechargeTimeout
  /-- RAMP_DONE (R474) -/
  | rampDone
  /-- POWERGOOD (R477) -/
  | powergood (addrSel : BitVec 3) (gangEn : Bool)
  /-- OUTPUT_WINDOW_EXIT (R473) -/
  | outputWindowExit
  /-- CURRENT_LIMIT_ENTER (R478) -/
  | currentLimitEnter
  /-- CURRENT_LIMIT_EXIT (R478) -/
  | currentLimitExit
  /-- FAULT_TIMER_EXPIRY (R478) -/
  | faultTimerExpiry
  /-- SHORT_CIRCUIT (R480) -/
  | shortCircuit
  /-- FET_MODEL_UPDATE (R482) -/
  | fetModelUpdate (model : Int)
  /-- LATCH_CLEAR (R480) -/
  | latchClear
  /-- REMOVAL_HOLD_EXPIRY (R480) -/
  | removalHoldExpiry
  /-- BOOT_DONE (R508) -/
  | bootDone
  /-- FILL_END (R69) -/
  | fillEnd (tile : Tile)
  /-- THERMAL_HOLD_TICK (R466) -/
  | thermalHoldTick
  /-- OSCILLATOR_SWITCH (R36) -/
  | oscillatorSwitch (cmp : Bool)
  /-- OSCILLATOR_WARNING (R37) -/
  | oscillatorWarning (ppm : Nat)
  /-- OSCILLATOR_LOST (R38) -/
  | oscillatorLost
  /-- ISLAND_DOWN_RESPONSE (R35) -/
  | islandDownResponse (island : Fin 60)
  /-- FRAME_BOUNDARY (R105) -/
  | frameBoundary
  /-- SET_POINT_GAP_END (R106) -/
  | setPointGapEnd
  /-- DISPATCH_POINT (R87) -/
  | dispatchPoint (pack : Pack) (slot : Nat) (ahead : Bool)
  /-- SLOT_MISSED (R101) -/
  | slotMissed (pack : Pack) (slot : Nat)
  /-- DATA_PHASE_END (R89) -/
  | dataPhaseEnd (pack : Pack) (errs : List (Fin 64 × Fin 18 × Byte))
  /-- REFRESH_SLOT (R95) -/
  | refreshSlot (pack : Pack) (slot : Nat)
  /-- TRAIN_SLOT (R97) -/
  | trainSlot (pack : Pack) (slot : Nat) (fails : BitVec 9)
  /-- SCRUB_SLOT (R67) -/
  | scrubSlot (pack : Pack) (slot : Nat) (errs : List (Fin 64 × Fin 18 × Byte))
  /-- DIE_MARK (R51) -/
  | dieMark (pack : Pack) (rank : Fin 4) (pos : Fin 18)
  /-- DIAGNOSIS_VERDICT (R56) -/
  | diagnosisVerdict (pack : Pack)
  /-- CHAN_TEST (R64) -/
  | chanTest (h : AdminHdr) (tile : Nat) (rows : Nat)
  /-- CHAN_TEST_END (R63) -/
  | chanTestEnd (tile : Tile)
  /-- MISSED_SLOT_CLEAR (R104) -/
  | missedSlotClear (src : Source) (pack : Pack)
  /-- IMAGE_LOAD (R126) -/
  | imageLoad (h : AdminHdr) (w : BitVec 64) (len : Nat)
  /-- IMAGE_ACTIVATE (R129) -/
  | imageActivate (h : AdminHdr) (setId : Word64)
  /-- MEMRD (R224) -/
  | memRd (r : M2SReq)
  /-- MEMRDDATA (R224) -/
  | memRdData (r : M2SReq)
  /-- MEMINV (R224) -/
  | memInv (r : M2SReq)
  /-- MEMINVNT (R224) -/
  | memInvNt (r : M2SReq)
  /-- MEMSPECRD (R158) -/
  | memSpecRd (r : M2SReq)
  /-- MEMWR (R150) -/
  | memWr (r : M2SRwD)
  /-- MEMWRPTL (R150) -/
  | memWrPtl (r : M2SRwD)
  /-- M2S_OPCODE_UNSUPPORTED (R158) -/
  | m2sOpcodeUnsupported (x : BadMsg) (opcode : Byte)
  /-- BIRSPI (R226) -/
  | biRspI (port : Port) (tag : Nat)
  /-- BIRSPS (R226) -/
  | biRspS (port : Port) (tag : Nat)
  /-- BIRSPE (R226) -/
  | biRspE (port : Port) (tag : Nat)
  /-- BICONFLICT (R232) -/
  | biConflict (port : Port) (tag : BitVec 16) (w : BitVec 53)
  /-- RECEIVE_BUFFER_RELEASE (R170) -/
  | receiveBufferRelease (port : Port) (label : BitVec 3) (write : Bool)
  /-- SNPINV (R248) -/
  | snpInv (port : Port) (addr : Nat)
  /-- SNPDATA (R248) -/
  | snpData (port : Port) (addr : Nat)
  /-- SNPCUR (R248) -/
  | snpCur (port : Port) (addr : Nat)
  /-- RDSHARED_DATA (R329) -/
  | rdSharedData (port : Port) (addr : Nat) (data : Sector) (poison : Bool)
  /-- RDCURR_DATA (R330) -/
  | rdCurrData (port : Port) (addr : Nat) (data : Sector) (poison : Bool)
  /-- GO_WRITEPULL (R324) -/
  | goWritePull (port : Port) (addr : Nat)
  /-- GO (R324) -/
  | go (port : Port) (addr : Nat)
  /-- LINK_UP (R155) -/
  | linkUp (port : Port) (rate : LinkRate) (width : LinkWidth) (lopt : Bool)
  /-- LINK_DOWN (R183) -/
  | linkDown (port : Port)
  /-- L0P_REQUEST (R157) -/
  | l0pRequest (port : Port) (width : Fin 4)
  /-- L0P_FAIL (R183) -/
  | l0pFail (port : Port) (width : Fin 4)
  /-- VIRAL_RECEIVED (R175) -/
  | viralReceived (port : Port)
  /-- FUNDAMENTAL_RESET (R176) -/
  | fundamentalReset (port : Port)
  /-- PERST_DEASSERT (R562) -/
  | perstDeassert (port : Port)
  /-- HOT_RESET (R176) -/
  | hotReset (port : Port)
  /-- CXL_RESET (R176) -/
  | cxlReset (port : Port)
  /-- PRESENCE_SWEEP_END (R227) -/
  | presenceSweepEnd (port : Port)
  /-- HDM_DECODER_COMMIT (R159) -/
  | hdmDecoderCommit (port : Port) (base : Nat) (size : Nat) (ways : Nat) (lock : Bool)
  /-- CONFIG_REQUEST (R178) -/
  | configRequest (port : Port) (req : CfgReq)
  /-- IDENTIFY_MEMORY_DEVICE (R180) -/
  | identifyMemoryDevice (port : Port)
  /-- GET_SUPPORTED_LOGS (R180) -/
  | getSupportedLogs (port : Port)
  /-- GET_LOG (R180) -/
  | getLog (port : Port) (cel : Bool)
  /-- GET_TIMESTAMP (R180) -/
  | getTimestamp (port : Port)
  /-- SET_TIMESTAMP (R180) -/
  | setTimestamp (port : Port) (value : Word64)
  /-- MAILBOX_UNSUPPORTED (R180) -/
  | mailboxUnsupported (port : Port) (opcode : BitVec 16)
  /-- FILL_DECOMPRESS_DONE (R297) -/
  | fillDecompressDone (tile : Tile) (addr : Nat) (bad1 : Bool) (bad2 : Bool)
  /-- SLICE_PATROL (R211) -/
  | slicePatrol (tile : Tile) (found : List Finding)
  /-- WAY_DISABLE (R213) -/
  | wayDisable (tile : Tile) (way : Fin 16) (tagErr : Bool)
  /-- WAY_DRAIN_END (R213) -/
  | wayDrainEnd (tile : Tile)
  /-- INVALIDATION_SWEEP_END (R209) -/
  | invalidationSweepEnd
  /-- FLUSH_END (R210) -/
  | flushEnd
  /-- CACHE_LOCK_PREPARE (R204) -/
  | cacheLockPrepare (h : AdminHdr) (tile : Nat) (n : Nat)
  /-- CACHE_PRELOAD (R206) -/
  | cachePreload (h : AdminHdr) (tile : Nat) (w : BitVec 64) (len : Nat)
  /-- CACHE_LOCK (R205) -/
  | cacheLock (h : AdminHdr) (tile : Nat)
  /-- CACHE_UNLOCK (R207) -/
  | cacheUnlock (h : AdminHdr) (tile : Nat)
  /-- WAY_TEST (R208) -/
  | wayTest (h : AdminHdr) (tile : Nat) (way : Nat)
  /-- WAY_TEST_END (R209) -/
  | wayTestEnd (tile : Tile) (pass : Bool)
  /-- TAG_READ (R192) -/
  | tagRead (h : AdminHdr) (tile : Nat) (set : Nat) (way : Nat)
  /-- FILTER_TEST (R245) -/
  | filterTest (h : AdminHdr) (tile : Nat)
  /-- FILTER_READ (R222) -/
  | filterRead (h : AdminHdr) (tile : Nat) (set : Nat) (way : Nat)
  /-- FILTER_DRAIN_END (R243) -/
  | filterDrainEnd (tile : Tile)
  /-- FILTER_MARCH_END (R244) -/
  | filterMarchEnd (tile : Tile) (failP : Bool) (failS : Bool)
  /-- FILTER_SWEEP_END (R243) -/
  | filterSweepEnd (tile : Tile)
  /-- RESEAL_END (R282) -/
  | resealEnd (tile : Tile)
  /-- KEY_LOAD (R263) -/
  | keyLoad (h : AdminHdr) (id : Nat) (wrapped : BitVec 576)
  /-- KEY_RETIRE (R266) -/
  | keyRetire (h : AdminHdr) (id : Nat)
  /-- KEY_RETIREMENT_DONE (R266) -/
  | keyRetirementDone
  /-- KEY_ZERO (R267) -/
  | keyZero (h : AdminHdr) (id : Nat)
  /-- ZERO_FILL_SWEEP_END (R267) -/
  | zeroFillSweepEnd
  /-- PROT_RELOAD (R257) -/
  | protReload (h : AdminHdr) (block : ProtData)
  /-- PROT_RELOAD_PHASE_END (R257) -/
  | protReloadPhaseEnd
  /-- TIER_SWEEP (R299) -/
  | tierSweep (tile : Tile)
  /-- TIER_MOVE_END (R300) -/
  | tierMoveEnd (tile : Tile) (x : MoveEnd)
  /-- TIER_SET (R298) -/
  | tierSet (h : AdminHdr) (tile : Nat) (param : Nat) (value : Nat)
  /-- ELASTIC_TRIM (R305) -/
  | elasticTrim (h : AdminHdr) (w : BitVec 64) (len : Nat)
  /-- TIER_BYPASS (R317) -/
  | tierBypass (h : AdminHdr) (tile : Nat)
  /-- TIER_RESUME (R317) -/
  | tierResume (h : AdminHdr) (tile : Nat)
  /-- FULLER_OUT (R315) -/
  | fullerOut (h : AdminHdr) (fuller : Nat)
  /-- FULLER_IN (R315) -/
  | fullerIn (h : AdminHdr) (fuller : Nat)
  /-- FULLER_TEST (R315) -/
  | fullerTest (h : AdminHdr) (fuller : Nat)
  /-- JOB_DESCRIPTOR (R307) -/
  | jobDescriptor (port : Port)
  /-- JOB_COMPLETE (R313), on one of the two fullers of a tile -/
  | jobComplete (tile : Tile) (unit : Fin 2) (bad1 : Bool) (bad2 : Bool)
  /-- RING_ENABLE (R337) -/
  | ringEnable (src : Source) (q : Port) (r : RingNo) (value : Word64)
  /-- RING_DISABLE (R338) -/
  | ringDisable (src : Source) (q : Port) (r : RingNo) (value : Word64)
  /-- DOORBELL_POLL (R328) -/
  | doorbellPoll (port : Port)
  /-- SHADOW_WRITE_TIMER (R332) -/
  | shadowWriteTimer (port : Port) (r : RingNo)
  /-- FETCH_WINDOW (R333) -/
  | fetchWindow
  /-- MOD_TIME_EXPIRY (R335) -/
  | modTimeExpiry (port : Port) (r : RingNo)
  /-- GRANT_POST (R348) -/
  | grantPost (pool : Fin 64)
  /-- ENQUEUE (R356) -/
  | enqueue (port : Port)
  /-- CELL_WRITE_RESUME (R351) -/
  | cellWriteResume (tile : Tile)
  /-- SELECTION (R375) -/
  | selection
  /-- RELEASE (R363) -/
  | release (port : Port)
  /-- GRANT_HOLD_SWEEP (R365) -/
  | grantHoldSweep (pool : Fin 64)
  /-- RELEASE_HOLD_SWEEP (R365) -/
  | releaseHoldSweep (pool : Fin 64)
  /-- POOL_SET (R344) -/
  | poolSet (h : AdminHdr) (pool : Nat) (w : BitVec 64)
  /-- POOL_READ (R371) -/
  | poolRead (h : AdminHdr) (pool : Nat)
  /-- RUN_READ (R345) -/
  | runRead (h : AdminHdr) (run : Nat)
  /-- QUEUE_SET (R359) -/
  | queueSet (h : AdminHdr) (queue : Nat) (w : BitVec 64)
  /-- QUEUE_READ (R359) -/
  | queueRead (h : AdminHdr) (queue : Nat)
  /-- QUEUE_RESET (R368) -/
  | queueReset (h : AdminHdr) (queue : Nat)
  /-- REPL_SET (R357) -/
  | replSet (h : AdminHdr) (list : Nat) (w : BitVec 64)
  /-- EPORT_SET (R361) -/
  | eportSet (h : AdminHdr) (eport : Nat) (w : BitVec 64)
  /-- CREDIT_ENTRY (R386) -/
  | creditEntry (port : Port)
  /-- WHEEL_BUCKET_END (R382) -/
  | wheelBucketEnd
  /-- COARSE_WHEEL_PERIOD (R382) -/
  | coarseWheelPeriod
  /-- SCHED_COMMIT (R394) -/
  | schedCommit (h : AdminHdr) (table : Nat) (first : Nat) (count : Nat)
  /-- SCHED_READ (R394) -/
  | schedRead (h : AdminHdr) (table : Nat) (entry : Nat)
  /-- CPOOL_SET (R397) -/
  | cpoolSet (h : AdminHdr) (pool : Nat) (w : BitVec 64)
  /-- POOL_ENTRY_FREE (R413) -/
  | poolEntryFree (pool : PoolId)
  /-- GANG_TRAINING_TIMEOUT (R423) -/
  | gangTrainingTimeout
  /-- GANG_TRAINING_RETRY (R423) -/
  | gangTrainingRetry
  /-- HELLO (R424) -/
  | hello (f : FlitHdr) (m : HelloMsg)
  /-- FLIT_DISCARD (R431) -/
  | flitDiscard (flit : BitVec 1024)
  /-- IDLE (R433) -/
  | idle (f : FlitHdr)
  /-- REPLAY_MARKER (R432) -/
  | replayMarker (f : FlitHdr) (start : Fin 4096)
  /-- MWR (R445) -/
  | mwr (f : FlitHdr) (m : MirrorMsg) (data : Sector)
  /-- MWRP (R445) -/
  | mwrp (f : FlitHdr) (m : MirrorMsg) (data : Sector) (en : BitVec 64)
  /-- RSD (R449) -/
  | rsd (f : FlitHdr) (m : MirrorMsg) (data : Sector)
  /-- ZPG (R449) -/
  | zpg (f : FlitHdr) (m : MirrorMsg)
  /-- RDIG (R449) -/
  | rdig (f : FlitHdr) (gran : Nat) (digests : List Word64)
  /-- MACK (R445) -/
  | mack (f : FlitHdr) (tag : Nat) (status : Fin 5)
  /-- RACK (R449) -/
  | rack (f : FlitHdr) (gran : Nat) (differed : Bool)
  /-- SUSPEND (R451) -/
  | suspend (f : FlitHdr)
  /-- RESUME (R451) -/
  | resume (f : FlitHdr)
  /-- STOP (R451) -/
  | stop (f : FlitHdr)
  /-- CHANGE (R438) -/
  | change (f : FlitHdr) (width : Fin 3) (rate : Fin 2)
  /-- RESYNC_DONE (R449) -/
  | resyncDone (f : FlitHdr)
  /-- ACK_TIMER (R433) -/
  | ackTimer
  /-- REPLAY_TIMER (R435) -/
  | replayTimer
  /-- BARK_PERIOD (R441) -/
  | barkPeriod
  /-- BARK_TIMEOUT (R442) -/
  | barkTimeout
  /-- LANE_LOSS (R442) -/
  | laneLoss (lanes : BitVec 8)
  /-- LINK_LOGIC_FAULT (R436) -/
  | linkLogicFault (buffer : Bool)
  /-- CHANGE_COMPLETE (R438) -/
  | changeComplete
  /-- CHANGE_TIMEOUT (R438) -/
  | changeTimeout
  /-- ERROR_FREE_TIMER (R439) -/
  | errorFreeTimer
  /-- GANG_SOURCE (R448) -/
  | gangSource (h : AdminHdr) (peer : Word64) (here : Bool)
  /-- GANG_LANE_TEST (R453) -/
  | gangLaneTest (h : AdminHdr) (hi : Bool) (ms : Nat)
  /-- GANG_LANE_TEST_END (R453) -/
  | gangLaneTestEnd (fails : BitVec 8)
  /-- HK_ROUND_END (R454) -/
  | hkRoundEnd (readings : List (Fin 59 × Option Int)) (vin : Nat) (iin : Nat)
  /-- GRACE_EXPIRY (R461) -/
  | graceExpiry (req : HeelReq)
  /-- THROTTLE_STEP_DOWN (R462) -/
  | throttleStepDown
  /-- SENSOR_TEST (R467) -/
  | sensorTest (h : AdminHdr) (chan : Nat)
  /-- SENSOR_TEST_END (R467) -/
  | sensorTestEnd (pass : Bool)
  /-- IDLE_ENTRY (R488) -/
  | idleEntry
  /-- IDLE_WAKE_DONE (R489) -/
  | idleWakeDone
  /-- SLEEP (R490) -/
  | sleep (h : AdminHdr)
  /-- PM_SLEEP_REQUEST (R490) -/
  | pmSleepRequest (retain : BitVec 4)
  /-- PM_DEEP_SLEEP_REQUEST (R491) -/
  | pmDeepSleepRequest (retain : BitVec 4)
  /-- SLEEP_ENTRY_DONE (R490) -/
  | sleepEntryDone
  /-- DEEP_SLEEP_ENTRY_DONE (R491) -/
  | deepSleepEntryDone
  /-- SLEEP_EXIT_DONE (R490) -/
  | sleepExitDone
  /-- DEEP_SLEEP_EXIT_PHASE_END (R492) -/
  | deepSleepExitPhaseEnd
  /-- WAKE_N (R493) -/
  | wakeN
  /-- SRAM_TRAP (R499) -/
  | sramTrap (core1 : Bool)
  /-- WATCHDOG_EXPIRY (R501) -/
  | watchdogExpiry
  /-- WATCHDOG_KICK (R501) -/
  | watchdogKick
  /-- SP_SELF_TEST_END (R500) -/
  | spSelfTestEnd (pass : Bool)
  /-- IDENTIFY (R515) -/
  | identify (h : AdminHdr)
  /-- HEALTH_READ (R53) -/
  | healthRead (h : AdminHdr)
  /-- EVENT_COALESCED_READ (R517) -/
  | eventCoalescedRead (h : AdminHdr)
  /-- ADMIN_UNKNOWN_OPCODE (R515) -/
  | adminUnknownOpcode (h : AdminHdr) (opcode : BitVec 16)
  /-- SP_TEST (R524) -/
  | spTest (h : AdminHdr)
  /-- SP_TEST_END (R524) -/
  | spTestEnd (pass : Bool)
  /-- OSC_TEST (R525) -/
  | oscTest (h : AdminHdr) (osc : Nat)
  /-- OSC_TEST_END (R525) -/
  | oscTestEnd (pass : Bool)
  /-- PORT_LANE_TEST (R523) -/
  | portLaneTest (h : AdminHdr) (port : Nat) (half : Nat) (ms : Nat)
  /-- PORT_LANE_TEST_TICK (R523) -/
  | portLaneTestTick (port : Port) (fails : BitVec 16)
  /-- PORT_LANE_TEST_END (R523) -/
  | portLaneTestEnd (port : Port)
  /-- FLASH_UPDATE (R510) -/
  | flashUpdate (h : AdminHdr) (bank : Nat) (w : BitVec 64) (len : Nat)
  /-- FLASH_SELECT (R511) -/
  | flashSelect (h : AdminHdr) (bank : Nat)
  /-- FLASH_READ (R512) -/
  | flashRead (h : AdminHdr) (offset : Nat) (len : Nat)
  /-- SVN_RAISE (R511) -/
  | svnRaise (h : AdminHdr)
  /-- EVENT_POST (R516) -/
  | eventPost
  /-- PERF_OVERFLOW (R533) -/
  | perfOverflow (page : Fin 7)
  /-- PERF_SNAPSHOT (R535) -/
  | perfSnapshot (src : Source) (page : Fin 7) (value : Word64)
  /-- PERF_COUNTER_WRITE (R534) -/
  | perfCounterWrite (src : Source) (page : Fin 7) (ctr : Fin 8) (value : Word64)
  /-- PERF_SEL_WRITE (R534) -/
  | perfSelWrite (src : Source) (page : Fin 7) (ctr : Fin 8) (value : Word64)
  /-- BW_WINDOW_END (R539) -/
  | bwWindowEnd (half : Fin 2)
  /-- BW_CFG_WRITE (R539) -/
  | bwCfgWrite (src : Source) (half : Fin 2) (value : Word64)
  /-- SLOTRD_DATA_READ (R551) -/
  | slotrdDataRead (src : Source)
  /-- REGISTER_WRITE (R542); no value: its data arrives poisoned (R154) -/
  | registerWrite (port : Port) (bar : Bar) (offset : Nat) (size : Nat) (value : Option Word64)
  /-- SIDEBAND_WRITE (R567) -/
  | sidebandWrite (header : BitVec 32) (data : List Byte)
  /-- SIDEBAND_HEADER (R567) -/
  | sidebandHeader (header : BitVec 32)
  /-- SIDEBAND_READ (R569) -/
  | sidebandRead (n : Nat)
  /-- ENTDAA (R566) -/
  | entdaa (addr : BitVec 7)
  /-- SETDASA (R566) -/
  | setdasa (static : BitVec 7) (addr : BitVec 7)
  /-- SETNEWDA (R566) -/
  | setnewda (addr : BitVec 7)
  /-- RSTDAA (R566) -/
  | rstdaa
  /-- GETPID (R565) -/
  | getpid
  /-- GETBCR (R565) -/
  | getbcr
  /-- GETDCR (R565) -/
  | getdcr
  /-- GETSTATUS (R565) -/
  | getstatus
  /-- GETMWL (R565) -/
  | getmwl
  /-- GETMRL (R565) -/
  | getmrl
  /-- IDCODE (R570) -/
  | idcode
  /-- SAMPLE_PRELOAD (R570) -/
  | samplePreload (load : Option (BitVec 12))
  /-- EXTEST (R570) -/
  | extest
  /-- BYPASS (R570) -/
  | bypass (code : BitVec 8)
  /-- TRST_N (R560) -/
  | trstN (asserted : Bool)
  /-- BISNP_CREDIT_RETURN (R229) -/
  | bisnpCreditReturn (port : Port) (d2h : Bool) (n : Nat)
  /-- FAULT_TIMER_ZERO (R481) -/
  | faultTimerZero
  /-- FLASH_UPDATE_END (R510) -/
  | flashUpdateEnd (result : Fin 4)
  /-- FULLER_TEST_END (R315) -/
  | fullerTestEnd (fuller : FullerNo) (failing : Option Byte)
  /-- IMAGE_LOAD_END (R126), of the command with this tag -/
  | imageLoadEnd (tag : BitVec 64)
  /-- GANGLINE_LINK_UP (R424) -/
  | ganglineLinkUp (width : Fin 3) (rate : Fin 2)
  deriving DecidableEq, Repr, Inhabited

end Sys2Proof
end

