-- ==== Sys2Proof/Decode.lean ====
section
/-! DEFINITION. Decode.lean: the command that a word spells by the bits of spec/opcode_table.json. No row of the table
gives bits: a command reaches this block by its name and operands, never as a word of a program. -/
namespace Sys2Proof

/-- The command that `w` spells in `nbits` bits: none, for the table gives no row a bit (log entry 8). -/
def decodeTableWord (nbits w : Nat) : Option Instr :=
  let _ := nbits
  let _ := w
  none

end Sys2Proof
end

