-- ==== Sys2Proof/Machine/Digest.lean ====
section
/-! DEFINITION. Machine/Digest.lean: the checksums and digests that the spec names: CRC-32C, CRC-32, Adler-32, SHA-384. -/
namespace Sys2Proof.Machine

/-- One bit of a reflected CRC of 32 bits. -/
def crcBit (poly : Word32) (c : Word32) : Word32 := if c.getLsbD 0 then (c >>> 1) ^^^ poly else c >>> 1

/-- One byte of a reflected CRC of 32 bits. -/
def crcByte (poly : Word32) (c : Word32) (b : Byte) : Word32 := (List.range 8).foldl (fun c _ => crcBit poly c) (c ^^^ b.setWidth 32)

/-- A reflected CRC of 32 bits with all-ones initial value and final inversion. -/
def crc32With (poly : Word32) (l : List Byte) : Word32 := ~~~(l.foldl (crcByte poly) 0xFFFF_FFFF#32)

/-- CRC-32C: Castagnoli polynomial. -/
def crc32c (l : List Byte) : Word32 := crc32With 0x82F6_3B78 l

/-- CRC-32 of gzip: polynomial 0x04C11DB7 reflected. -/
def crc32 (l : List Byte) : Word32 := crc32With 0xEDB8_8320 l

/-- Adler-32 of zlib. -/
def adler32 (l : List Byte) : Word32 :=
  let r := l.foldl (fun (s : Nat × Nat) b =>
    let a := (s.1 + b.toNat) % 65521
    (a, (s.2 + a) % 65521)) (1, 0)
  BitVec.ofNat 32 (r.2 * 65536 + r.1)

/-! ### SHA-384 (FIPS 180-4, R3) -/

/-- The first `n` bits below `r`, from the top, of the largest number whose `k`-th power is at most `x`. -/
def rootBits (k x : Nat) : Nat → Nat → Nat
  | 0, r => r
  | n + 1, r => rootBits k x n (if (r + 2 ^ n) ^ k ≤ x then r + 2 ^ n else r)

/-- The first 64 bits of the fractional part of the `k`-th root of a number below 512. -/
def rootFrac (k p : Nat) : Word64 := BitVec.ofNat 64 (rootBits k (p * 2 ^ (64 * k)) 69 0)

/-- The prime numbers up to 409: the first eighty. -/
def firstPrimes : List Nat :=
  (List.range 410).filter (fun n => 2 ≤ n && (List.range n).all (fun d => d < 2 || n % d != 0))

/-- The round constants: fractional parts of the cube roots of the first eighty primes. -/
def shaK : List Word64 := firstPrimes.map (rootFrac 3)

/-- The initial hash value: fractional parts of the square roots of the ninth to the sixteenth prime. -/
def shaInit : List Word64 := ((firstPrimes.drop 8).take 8).map (rootFrac 2)

/-- The sum of rotations of a word, and of one shift of it. -/
def rotSum (x : Word64) (rots : List Nat) (shift : Word64) : Word64 := rots.foldl (fun acc n => acc ^^^ x.rotateRight n) shift

/-- The message schedule as it grows: the last sixteen words, oldest first, give the next one. -/
def shaExtend : Nat → List Word64 → List Word64
  | 0, w => w
  | n + 1, w =>
    let back (k : Nat) : Word64 := w.getD (w.length - k) 0
    shaExtend n (w ++ [rotSum (back 2) [19, 61] (back 2 >>> 6) + rotSum (back 15) [1, 8] (back 15 >>> 7) + back 7 + back 16])

/-- One round: `v` holds the working words a to h, and `kw` is the sum of the round's constant and schedule word. -/
def shaRound (v : List Word64) (kw : Word64) : List Word64 :=
  let x (i : Nat) : Word64 := v.getD i 0
  let choose := x 6 ^^^ (x 4 &&& (x 5 ^^^ x 6))
  let major := (x 0 &&& (x 1 ||| x 2)) ||| (x 1 &&& x 2)
  let t := kw + x 7 + choose + rotSum (x 4) [14, 18, 41] 0
  (t + major + rotSum (x 0) [28, 34, 39] 0) :: (v.take 7).modify 3 (· + t)

/-- Words of 64 bits, big-endian, of a byte string whose length is a multiple of 8. -/
def beWords : Nat → List Byte → List Word64
  | 0, _ => []
  | n + 1, l => BitVec.ofNat 64 ((l.take 8).foldl (fun a b => 256 * a + b.toNat) 0) :: beWords n (l.drop 8)

/-- The hash value after `n` blocks of a padded message. -/
def shaBlocks : Nat → List Word64 → List Byte → List Word64
  | 0, h, _ => h
  | n + 1, h, l =>
    let kws := List.zipWith (· + ·) shaK (shaExtend 64 (beWords 16 l))
    shaBlocks n (List.zipWith (· + ·) h (kws.foldl shaRound h)) (l.drop 128)

/-- SHA-384 of a byte string, as 48 bytes: a one bit, zeros and the length in bits, 16 B big-endian, fill the last block. -/
def sha384 (l : List Byte) : List Byte :=
  let bits : BitVec 128 := BitVec.ofNat 128 (8 * l.length)
  let msg := l ++ 0x80#8 :: List.replicate ((239 - l.length % 128) % 128) 0#8 ++ (toBytes bits 16).reverse
  ((shaBlocks (msg.length / 128) shaInit msg).take 6).flatMap (fun w => (toBytes w 8).reverse)

end Sys2Proof.Machine
end

