-- ==== Sys2Proof/Config.lean ====
section
/-! DEFINITION. Config.lean: what a unit fixes at manufacture and what the spec leaves open. An `opaque` constant has no
value that Lean can see, so a statement about it holds for every value. Each is named in a log entry. -/
namespace Sys2Proof.Config

/-- The 64-bit module ID (R547, Fixed). -/
opaque moduleId : Word64
/-- Kyowistra's PCI vendor ID (R547, Fixed). -/
opaque vendorId : BitVec 16
/-- Die stepping number (R547, Fixed), and the stepping letter, counted from B: R1 excludes the steppings before B0. -/
opaque stepNum : BitVec 4
opaque lettersFromB : Fin 15
/-- STEP_LTR (R547): 1 for B, 2 for C, and so on. -/
def stepLtr : BitVec 4 := BitVec.ofNat 4 (1 + lettersFromB.val)
/-- Whether the part is MS-2048-LC, and the LID of IDENT (R1, R16, R547, Fixed): 0 MS-2048-AC, 1 MS-2048-LC. -/
opaque liquidCooled : Bool
def lid : BitVec 2 := if liquidCooled then 1 else 0
/-- Kyowistra's JEP106 code (R570). -/
opaque jep106 : BitVec 11
/-- The tree key, drawn at random at each module reset (R272); the argument is the time of that reset. -/
opaque kTree : Nat → BitVec 256
/-- The SECDED check bits of a tag entry and of a filter entry over bits [43:0] (R192, R222), whose code the spec does
not give. -/
opaque tagCheck : BitVec 44 → BitVec 7
opaque filterCheck : BitVec 44 → BitVec 7
/-- What R127 leaves open of the ROM fallback set, by variant and tile: the slot at which its 64-slot period starts, the
order in which it visits the banks, and, with the slot, the commands of a command slot. -/
opaque romShift : Nat → Nat → Nat
opaque romOrder : Nat → Nat → Nat
opaque romSlotWord : Nat → Nat → Nat → Word64
/-- Manufacturer, revision and density mode registers of the dies of a channel, by 9 × pack + position (R70). -/
opaque dieRegs : Nat → Word32
/-- Whether a profile code admits the mode register values of a channel as training recorded them (check 0x06). -/
opaque profileAdmits : Word32 → Word32 → Bool
/-- The matches that a fuller finds (R308, R309), by LEVEL (0: a page), history and input: blocks of lengths and distances, a byte with
distance 0. The code lengths that it builds from symbol counts, none above a limit, and the symbols with which it spells them. -/
opaque fullerMatches : Nat → List Byte → List Byte → List (List (Nat × Nat))
opaque codeLens : Nat → List Nat → List Nat
opaque lensRuns : List Nat → List (Nat × Nat)
/-- The state part of a stream context after a job (R311), which host software treats as opaque: job input so far. -/
opaque contextState : List Byte → List Byte
/-- The stored bytes left at a device address whose data is undefined after a zero-fill sweep (R267); the second
argument counts such events. -/
opaque undefBatt : Nat → Nat → Batt
/-- Contents of a DST buffer that is undefined after a failed job (R313), and of a result buffer (R341): address and
count. -/
opaque undefSector : Nat → Nat → Sector
/-- Fields of the completion entry of a job that failed (R313), for which the spec states no value: draw and field. -/
opaque jobField : Nat → Nat → Word32
/-- Which free run of a bank list a grant takes, and which free header a copy takes (R348, R358): draw and how many there
are. -/
opaque grantPick : Nat → Nat → Nat
opaque hdrPick : Nat → Nat → Nat
/-- Which of several rings of one label reads next (R334), and which of a tile's two fullers takes a job (R307): time and how
many reads or jobs are open. -/
opaque fetchPick : Nat → Nat → Nat
opaque fullerPick : Nat → Nat → Bool
/-- Which of the key ids that a region permits the tier engine and the mirror engine use for an access of their own (R261, R449):
first granule of the region and how many key ids there are. -/
opaque engineKey : Nat → Nat → Nat
/-- Control codes of the CTL messages HELLO, SUSPEND, RESUME, STOP, CHANGE and RESYNC_DONE (0 to 5), and the bytes that such a message,
or a replay marker (6), carries beside its header, whose layouts the spec does not give (R424, R429): message and its items. -/
opaque ctlCode : Nat → Nat
opaque ctlBytes : Nat → List Nat → List Byte
/-- The bitmap that the destination of a resynchronisation after SPLIT sends to the source (R448), by a message that the spec does not give:
draw. -/
opaque peerBits : Nat → List Nat
/-- Whether a throttle step down reports the DRAM as its source (R464), which the spec does not say. -/
opaque stepSource : Nat → Bool
/-- Activations of a rank after which an RFM is required (R96). -/
opaque raaLimit : Nat
/-- What a bank image of a FLASH_UPDATE buffer spells (R505), whose layout the spec does not give: numeric field `i` of its
header and boot configuration, its protection block, its image set. -/
opaque bankNum : Nat → List Byte → Nat
opaque bankRegions : List Byte → List (BitVec 128)
opaque bankSet : List Byte → List Byte
/-- The range (offset, length) of a bank's boot configuration in the flash (R504, R505). -/
opaque bootCfg : Nat → Nat × Nat
/-- A flash byte outside the boot configurations: draw and offset. -/
opaque flashByte : Nat → Nat → Byte
/-- Bus characteristics, device characteristics, status and length limits of the I3C target (R565). -/
opaque busChars : BitVec 8
/-- The bus characteristics with the bits of what R565 excludes clear: in-band interrupt and its payload (1, 2), HDR (5), controller role
(7, 6); the places of the bits are those of I3C Basic (PRESUMED, log entry 123). -/
def bcr : Nat := (busChars &&& 0x19#8).toNat
opaque dcr : Nat
opaque i3cStatus : Nat
opaque mwl : Nat
opaque mrl : Nat
/-- The MIPI manufacturer field of the provisional ID (R565). -/
opaque mipiMfr : Nat
/-- Payloads of the mailbox commands (R180): Identify Memory Device, Supported Logs, Command Effects Log. -/
opaque mboxIdentify : Nat
opaque mboxLogs : Nat
opaque mboxCel : Nat
/-- What a read of BAR2 shows of the register blocks whose layout CXL 3.1 gives and the spec does not (R179): offset, draw. -/
opaque bar2Reg : Nat → Nat → Word64
/-- Flits received and transmitted in a bandwidth window (R539): no command of this block reports a flit. -/
opaque flits : Nat → Word32 × Word32
/-- Whether a flit of a half's event 0x01 to 0x04 occurs in a nanosecond (*Half events*): draw, page, event code. -/
opaque flitEvent : Nat → Nat → Nat → Bool
/-- Channels that fail training at start-up (R72), whose outcome no command reports: draw; bit 9 × pack + position. -/
opaque trainFails : Nat → BitVec 72
/-- The pins as the boundary register captures them (R570). -/
opaque pinCapture : Nat → BitVec 12

end Sys2Proof.Config
end

