-- ==== Sys2Proof/Machine/Parts/Out.lean ====
section
/-! DEFINITION. Parts/Out.lean: what the module sends: to a host on a port, to its gangline peer, on its pins and
on the sideband. The list of these in the state is the model's own record of the module's outputs (log entry 7); no
rule of the spec reads it back. -/
namespace Sys2Proof.Machine

/-- The grant in an S2M message (R224): Cmp with no state, Cmp-S, Cmp-E. -/
inductive Grant where
  | none | shared | excl
  deriving DecidableEq, Repr, Inhabited

/-- The three kinds of BISnp (R158). -/
inductive SnpKind where
  | cur | data | inv
  deriving DecidableEq, Repr, Inhabited

/-- The answer to an H2D snoop (R248). -/
inductive H2DAns where
  | rspIHitSE | rspSHitSE | rspIHitI
  deriving DecidableEq, Repr, Inhabited

/-- A DRAM command that a sequencer issues on all nine channels of its pack (R81, R124). -/
inductive DramCmd where
  /-- ACT-1 and ACT-2, with the row of the request dispatched to the slot that they serve -/
  | act1 (row : Nat)
  | act2 (row : Nat)
  /-- CAS-1 and CAS-2 of RD16 or WR16; CAS-2 with or without auto-precharge -/
  | cas1 (write : Bool) (col : Nat)
  | cas2 (write : Bool) (col : Nat) (autoPre : Bool)
  | pre | refPb | refAb | rfm
  /-- training: RDC, WFF, RFF -/
  | rdc | wff | rff
  /-- MRR: 0 manufacturer, revision and density, 1 MR4, 2 the WCK-to-DQ interval oscillator -/
  | mrr (what : Nat)
  | zqLatch
  /-- the switch of the channels to set point FSP0 (`false`) or FSP1 (R106) -/
  | setPoint (fsp1 : Bool)
  | selfRefreshEntry | selfRefreshExit
  deriving DecidableEq, Repr, Inhabited

/-- A gangline message that the module sends (chapter *Gangline peer link and mirroring*). -/
inductive GangOut where
  | hello (epoch : Nat) (fresh dirty parity : Bool) (digest : Word64)
  | idle (ack : Nat)
  | marker (seq : Nat)
  | bark
  | mwr (tag : Nat) (key : BitVec 6) (off : Nat) (data : Sector) (poison : Bool)
  | mwrp (tag : Nat) (key : BitVec 6) (off : Nat) (data : Sector) (en : BitVec 64) (poison : Bool)
  | rsd (key : BitVec 6) (off : Nat) (data : Sector) (poison : Bool)
  | zpg (off : Nat)
  | rdig (gran : Nat) (digests : List Word64)
  | mack (id : Nat) (status : Nat)
  | rack (gran : Nat) (differed : Bool)
  | suspend | resume | stop
  | change (width : Nat) (rate : Nat)
  | resyncDone
  deriving DecidableEq, Repr, Inhabited

/-- What a configuration read shows (R154, R178, R179, R181). -/
inductive CfgAnswer where
  /-- the port has no such structure: the read finds none -/
  | absent
  /-- a structure whose content is that of PCI Express 6.x or CXL 3.1 alone -/
  | perStandard
  | dword (value : Word32)
  /-- a Base Address Register: its size, 64-bit, prefetchable -/
  | bar (bytes : Nat) (wide prefetch : Bool)
  /-- Power Management: D0 and D3hot, and whether the function is in D3hot -/
  | power (d3hot : Bool)
  /-- MSI-X: vectors, and the BAR4 offsets of table and PBA -/
  | msix (vectors table pba : Nat)
  /-- AER: the uncorrectable errors recorded -/
  | aer (poisonedTlp surpriseDown : Bool)
  | serial (id : Word64)
  /-- DVSEC for CXL Devices: Cache, Mem, Viral, CXL Reset and Mem Clr Capable, HDM Count, Memory_Active_Timeout in seconds,
  Cache Enable, Mem Enable, Memory_Active -/
  | cxlDvsec (cache mem viral cxlReset memClr : Bool) (hdmCount timeout : Nat) (cacheEn memEn memActive : Bool)
  /-- GPF DVSEC: duration of its two phases -/
  | gpf (phase1 phase2 : Nat)
  /-- Flex Bus Port: CXL.io, CXL.cache, CXL.mem, 68B flits, 256B flits, latency-optimized flits -/
  | flexBus (io cache mem flit68 flit256 lopt : Bool)
  /-- Register Locator: BAR2 offsets of component and device registers -/
  | locator (component device : Nat)
  /-- CXL RAS: poison on CXL.mem and CXL.cache data, viral, CXL.cache protocol error -/
  | ras (memPoison cachePoison viral cacheProtocol : Bool)
  /-- HDM decoder: count; base, size and ways of a committed one; Committed, Error Not Committed, locked -/
  | hdm (count base size ways : Nat) (committed error locked : Bool)
  /-- DOE: the data objects that it serves beside Discovery -/
  | doe (cdatOnly : Bool)
  /-- CDAT: base and length of the one range; read latency in ns; bandwidth in GB/s of each direction (R181) -/
  | cdat (base length readNs rdGbs wrGbs : Nat)
  deriving DecidableEq, Repr, Inhabited

/-- One thing that the module sends. -/
inductive Out where
  /-- S2M NDR: Cmp, Cmp-S or Cmp-E -/
  | ndr (p : Port) (tag : BitVec 16) (g : Grant)
  /-- S2M MemData with its grant -/
  | memData (p : Port) (tag : BitVec 16) (data : Sector) (poison : Bool) (g : Grant)
  | biConflictAck (p : Port) (tag : BitVec 16)
  | biSnp (p : Port) (tag : Nat) (k : SnpKind) (w : BitVec 53)
  /-- link credit returned: 0 M2S Req, 1 M2S RwD, 2 M2S BIRsp -/
  | credit (p : Port) (chan : Nat)
  /-- the credits advertised at link-up, of M2S Req, M2S RwD and M2S BIRsp (R170) -/
  | credits (p : Port) (req rwd birsp : Nat)
  | rdShared (p : Port) (addr : Nat)
  | rdCurr (p : Port) (addr : Nat)
  | itoMWr (p : Port) (addr : Nat)
  | itoMWrData (p : Port) (addr : Nat) (data : Sector)
  | h2dRsp (p : Port) (addr : Nat) (a : H2DAns)
  /-- an MSI-X message: its vector, and the address and data of that vector's table entry -/
  | msix (p : Port) (vector : Nat) (addr : Word64) (data : Word32)
  | viral (p : Port)
  | cfgRetry (p : Port)
  | cfgItem (p : Port) (answer : CfgAnswer)
  /-- margining result of a receiver lane: errors counted -/
  | margin (p : Port) (lane : Nat) (errors : Nat)
  | cfgDone (p : Port)
  | unsupportedReq (p : Port)
  | mboxData (p : Port) (op : Nat) (value : Nat)
  | mboxUnsupported (p : Port)
  | linkTrain (p : Port) (width : LinkWidth)
  | l0pReq (p : Port) (width : Nat)
  | regData (p : Port) (size : Nat) (value : Word64)
  | islandDown (island : Nat)
  /-- a command of a pack: slot and command position where it stands, rank-bank that it names -/
  | dram (pack : Pack) (slot pos bank : Nat) (c : DramCmd)
  /-- a flit (R427 to R429): epoch, sequence number, its message, and its 128 bytes -/
  | gang (epoch : Nat) (seq : Nat) (m : GangOut) (flit : BitVec 1024)
  /-- the numbers of the set bits of the dirty-granule bitmap that go to the source of a resynchronisation (R448), in messages whose form
  the spec does not give -/
  | gangBitmap (bits : List Nat)
  | sideData (bytes : List Byte)
  | sideNack
  | i3c (value : Nat)
  | tdo (value : Nat)
  | pins (value : Nat)
  | uart (kind : BitVec 16)
  deriving DecidableEq, Repr, Inhabited

end Sys2Proof.Machine
end

