-- ==== Sys2Proof/Machine/Parts/Sched.lean ====
section
/-! DEFINITION. Parts/Sched.lean: image sets, the running frame and the swap that waits for a boundary
(*The frame schedule*, *Schedule images and the Quaxasan contract*), and the frame timebase (R36 to R38). -/
namespace Sys2Proof.Machine

/-- One entry of the variant table (R121). -/
structure Variant where
  bands     : BitVec 4
  throttle  : Nat
  fsp       : Bool
  refreshM  : Nat
  frame     : Nat
  bindLead  : Nat
  secOffset : Nat
  secLength : Nat
  deriving DecidableEq, Repr, Inhabited

/-- An image set in a store: its header fields, its variants, and its bytes. `rom` is the ROM fallback set (R127),
whose bytes the spec does not give: its slot words and tables come from Config. -/
structure ImageSet where
  rom        : Bool
  setId      : Word64
  dieProfile : Word32
  qxcVersion : Word32
  scrubHours : Nat
  variants   : List Variant
  bytes      : List Byte
  deriving DecidableEq, Repr, Inhabited

/-- An admin command that has started and has not yet posted its completion. -/
structure AdminTag where
  port   : Port
  tag    : Word64
  opcode : BitVec 16
  deriving DecidableEq, Repr, Inhabited

/-- A committed swap (R132, R133). -/
structure Swap where
  /-- variant index selected, in the active or the staged set -/
  variant  : Nat
  /-- the swap takes the staged set -/
  newSet   : Bool
  /-- frame ends left before it takes effect: 1 at the end of the running frame -/
  framesLeft : Nat
  /-- its variant was chosen by the substitution of R131, for this band and throttle level -/
  subst    : Bool
  band     : Nat
  level    : Nat
  deriving DecidableEq, Repr, Inhabited

/-- The running schedule. -/
structure Sched where
  active   : ImageSet
  staged   : Option ImageSet
  /-- running variant index -/
  variant  : Nat
  subst    : Bool
  swap     : Option Swap
  /-- a change that came too late for the pending swap, committed after it (R133); `true`: an activation -/
  further  : Option Bool
  /-- IMAGE_ACTIVATE commands that complete at the swap (R129) -/
  activators : List AdminTag
  /-- image load in progress: its command, buffer window offset and length (R126) -/
  load     : Option (AdminTag × Nat × Nat)
  /-- the reads of its buffer (R585) -/
  loadIds  : List Nat
  /-- the boot image permits runtime loading (check 0x0E) -/
  runtimeLoad : Bool
  frameNo  : Word32
  /-- time at which slot 0 of the running frame began -/
  frameStart : Nat
  /-- the frame runs; a stopped one has no slot (R108) -/
  running  : Bool
  /-- the set-point gap of R106 runs -/
  gap      : Bool
  /-- tiles that have filled and join the frame at its next boundary (R108) -/
  joining  : BitVec 4
  deriving DecidableEq, Repr, Inhabited

/-- The frame timebase (R36 to R38) and the time since the module's reset. -/
structure Timebase where
  /-- ns since the model began to run; never reset -/
  now      : Nat
  /-- `now` at the last module reset -/
  resetAt  : Nat
  /-- the oscillator that carries the timebase: false OSC0, true OSC1 -/
  osc1     : Bool
  /-- oscillators marked failed (R525), OSC0 and OSC1 -/
  fail0    : Bool
  fail1    : Bool
  /-- TIMEBASE_LOST (R38) -/
  lost     : Bool
  /-- OSC_TEST running: its command and the oscillator named (R525) -/
  test     : Option (AdminTag × Bool)
  deriving DecidableEq, Repr, Inhabited

end Sys2Proof.Machine
end

