-- ==== Sys2Proof/Machine/Parts/Cache.lean ====
section
/-! DEFINITION. Parts/Cache.lean: line-cache slices (*Line cache*) and snoop-filter slices with the back-invalidations
that they have open (*Coherence with the hosts*). -/
namespace Sys2Proof.Machine

/-- The CXL.mem requests that the home slice serves (R158). -/
inductive ReqKind where
  | memRd | memRdData | memInv | memInvNt | memWr | memWrPtl
  deriving DecidableEq, Repr, Inhabited

/-- Whose access a request is. -/
inductive Requester where
  /-- a port's host -/
  | host
  /-- a job, an admin command or a received mirrored write, treated as MemRd or MemWr with MetaValue Invalid (R585, R445): the
  number of its access, the slot class of its misses and writes, and the label that it carries (R408) -/
  | engine (id : Nat) (cls : SlotClass) (label : BitVec 3)
  deriving DecidableEq, Repr, Inhabited

/-- A CXL.mem request of a port inside the module: as `M2SReq` or `M2SRwD`, with what the module has done for it. -/
structure MReq where
  who    : Requester
  port   : Port
  tag    : BitVec 16
  w      : BitVec 53
  kind   : ReqKind
  mv     : MetaValue
  data   : Sector
  en     : BitVec 64
  poison : Bool
  /-- the snoops that its row asks for have been sent, and the grant of that row (R224, R225) -/
  snooped : Bool
  row     : Option Grant
  /-- it is a snoop-answer write, outside the tracker (R230) -/
  answer : Bool
  /-- its NDR Cmp has left, but its data waits for a later step (R177) -/
  done   : Bool
  /-- its opcode lies outside R158 -/
  bad    : Bool
  /-- its port has been reset since: it is carried out, and no response leaves (R177) -/
  void   : Bool
  deriving DecidableEq, Repr, Inhabited

/-- One entry of a slice: the fields of *Tag entry* (R192) but the check bits, which R192 makes a function of the
others, and the line's data. -/
structure Line where
  set    : Nat
  way    : Nat
  tag    : BitVec 20
  space  : BitVec 2
  svalid : BitVec 4
  sdirty : BitVec 4
  poison : Bool
  rrpv   : Nat
  label  : BitVec 3
  keyId  : BitVec 6
  /-- a fill or a write-back is in flight -/
  busy   : Bool
  /-- the write-back in flight (R197): 0 none; 1 the line then stays, clean; 2 its way is then free; 3 its place in a locked
  way is then kept -/
  wb     : Nat
  data   : Batt
  /-- sectors (R172), or counter fields (R406), written whole since the line was poisoned -/
  whole  : BitVec 32
  deriving DecidableEq, Repr, Inhabited

/-- A slice miss entry (R189): a line being filled and the requests that wait for it, in order. -/
structure Miss where
  space  : BitVec 2
  /-- address A of the line in its space, a multiple of 256 -/
  addr   : Nat
  keyId  : BitVec 6
  label  : BitVec 3
  /-- the slot class of its reads -/
  cls    : SlotClass
  /-- no way is taken: the line is served from a transit entry -/
  transit : Bool
  /-- the fill has been handed to the dispatcher -/
  issued : Bool
  /-- the batts that it reads: one, or the stored batts of a fulled page (R293) -/
  das    : List Nat
  waiters : List MReq
  deriving DecidableEq, Repr, Inhabited

/-- A transit entry with data (R198, R199): a merged write of an unallocated line. -/
structure Transit where
  space  : BitVec 2
  addr   : Nat
  keyId  : BitVec 6
  label  : BitVec 3
  /-- the slot class of its write, which says whose entry it is (R411, R445) -/
  cls    : SlotClass
  svalid : BitVec 4
  data   : Batt
  poison : Bool
  /-- it holds writes that its batt must carry to the write buffer -/
  dirty  : Bool
  /-- as `Line.whole` -/
  whole  : BitVec 32
  deriving DecidableEq, Repr, Inhabited

/-- A CACHE_PRELOAD in progress (R206): its command, key id and label, the lines still to take up, those being fetched, and
the count of those not preloaded. -/
structure Preload where
  cmd     : AdminTag
  keyId   : BitVec 6
  label   : BitVec 3
  todo    : List Nat
  pending : List Nat
  missed  : Nat
  deriving DecidableEq, Repr, Inhabited

/-- A fill that goes through a fuller (R293): the line of a fulled page and the key id of its fill. -/
structure Decomp where
  addr   : Nat
  keyId  : BitVec 6
  deriving DecidableEq, Repr, Inhabited

/-- One slice. -/
structure Slice where
  lines    : List Line
  misses   : List Miss
  transits : List Transit
  /-- misses that wait for a miss or transit entry (R412), oldest first -/
  missWait : List MReq
  /-- requests that wait for a tier-map batt, or for the write-back or the page move of their line (R200, R291, R300) -/
  lineWait : List MReq
  /-- labels served last of the miss and transit entries (R413) -/
  servedMiss : Nat
  servedTransit : Nat
  disabled : BitVec 16
  locked   : BitVec 16
  /-- ways reserved for preload (R207) -/
  reserved : BitVec 16
  prep     : Bool
  /-- CACHE_LOCK_PREPARE, and CACHE_LOCK, that wait for the write-backs of their ways (R204, R205) -/
  prepCmd  : Option AdminTag
  lockCmd  : Option AdminTag
  metaWays : Nat
  /-- an invalidation sweep runs (R209): of every way, or of one way that returns to service -/
  sweep    : Bool
  oneWay   : Option Nat
  /-- a flush runs (R210) -/
  flush    : Bool
  /-- disabled ways whose drain runs (R213) -/
  drain    : BitVec 16
  /-- the way test that runs: its command and way (R208) -/
  test     : Option (AdminTag × Nat)
  passthru : Bool
  preloads : List Preload
  /-- counted errors of the last 1 s: way and time (R213) -/
  wayErrs  : List (Nat × Nat)
  decomps  : List Decomp
  /-- whole-sector marks of poisoned lines that have left: space, address, marks (R172) -/
  wholes   : List (BitVec 2 × Nat × BitVec 32)
  deriving DecidableEq, Repr, Inhabited

/-- One filter entry (R222), as one copy holds it; check bits as for `Line`. -/
structure FEntry where
  set    : Nat
  way    : Nat
  tag    : BitVec 20
  presA  : Bool
  presB  : Bool
  excl   : Bool
  labelA : BitVec 3
  keyA   : BitVec 6
  labelB : BitVec 3
  keyB   : BitVec 6
  nru    : Bool
  pend   : Bool
  deriving DecidableEq, Repr, Inhabited

/-- An access of a job, an admin command or a received mirrored write to one sector (R585): its number, the window offset, and
the answer once it has come: data, and whether it is poisoned. -/
structure Access where
  id   : Nat
  w    : BitVec 53
  ans  : Option (Sector × Bool)
  deriving DecidableEq, Repr, Inhabited

/-- Why a BISnp is open. -/
inductive SnpWhy where
  /-- for a request that waits (R224, R225, R163, R242) -/
  | serve
  /-- eviction for a request that waits for a way (R233), or in the background (R234) -/
  | evict
  | background
  /-- recall by a drain, key retirement, zero-fill, trim or reload (R243, R266, R267, R305, R257) -/
  | recalls (discard : Bool)
  deriving DecidableEq, Repr, Inhabited

/-- One BISnp toward one port (R229), sent or waiting for credit and an open entry. -/
structure OpenSnp where
  tag   : Nat
  port  : Port
  /-- number of the 64 B line: logical offset / 64 -/
  line  : Nat
  kind  : SnpKind
  /-- the alias asked: bits [52:42] above the logical offset -/
  w     : BitVec 53
  why   : SnpWhy
  sent  : Bool
  deriving DecidableEq, Repr, Inhabited

/-- One filter slice. -/
structure FilterSt where
  entries : List FEntry
  /-- entries whose primary or shadow copy is uncorrectable: (set, way) -/
  badP    : List (Nat × Nat)
  badS    : List (Nat × Nat)
  broadcast : Bool
  cause   : Nat
  phase   : Nat
  copyFailP : Bool
  copyFailS : Bool
  lost    : Bool
  test    : Option AdminTag
  /-- broadcast mode stays until module reset (R244) -/
  forever : Bool
  snps    : List OpenSnp
  /-- ways kept for requests in service that have waited for one or found one free (R233): line number and way -/
  resv    : List (Nat × Nat)
  /-- requests that wait for an open BISnp of their line or of a way in their set, oldest first -/
  waiters : List MReq
  deriving DecidableEq, Repr, Inhabited

end Sys2Proof.Machine
end

