-- ==== Sys2Proof/Machine/Parts/Event.lean ====
section
/-! DEFINITION. Parts/Event.lean: the event FIFO with its coalescing counters (R516, R517), the alert registers
(R554) and REGERR (R555). -/
namespace Sys2Proof.Machine

/-- One entry of the event FIFO, in the fields of *Event entry* (R341), and the event rings that have taken it. -/
structure EvEntry where
  seq   : Word32
  kind  : BitVec 16
  sev   : Nat
  frame : Word32
  loc   : Word32
  data  : Word64
  time  : Word32
  takenA : Bool
  takenB : Bool
  deriving DecidableEq, Repr, Inhabited

/-- One coalescing counter that is not zero (R517): what its summary entry will carry. -/
structure Coalesced where
  kind  : BitVec 16
  key   : BitVec 8
  count : Nat
  sev   : Nat
  loc   : Word32
  frame : Word32
  time  : Word32
  deriving DecidableEq, Repr, Inhabited

/-- The event FIFO, oldest first, and the counters in the order in which they overflowed. -/
structure Events where
  fifo    : List EvEntry
  co      : List Coalesced
  nextSeq : Word32
  /-- ALERT_CFG.MASK, ALERT_STATUS.SEV and CRIT (R554) -/
  mask    : BitVec 4
  sev     : BitVec 4
  crit    : Bool
  /-- REGERR (R555) -/
  reOffset : BitVec 26
  reSource : BitVec 2
  reReason : BitVec 3
  reValid  : Bool
  reCount  : Nat
  deriving DecidableEq, Repr, Inhabited

end Sys2Proof.Machine
end

