-- ==== Sys2Proof/Machine/Parts/Front.lean ====
section
/-! DEFINITION. Parts/Front.lean: the state of the power front end (*Power entry and hot insertion*). It runs from
VIN alone and keeps its own latch and trip record, so it stands beside the module's state, not in it. -/
namespace Sys2Proof.Machine

/-- *Front-end states* (R473). -/
inductive FeState where
  | off | qualify | precharge | ramp | on | powergood | latched
  deriving DecidableEq, Repr, Inhabited

/-- *Trip causes* (R480), in the bit order of PWR_ERR (R484). -/
inductive TripCause where
  | timer | short | fethot | precharge | window
  deriving DecidableEq, Repr, Inhabited

/-- The front end. -/
structure FrontEnd where
  st         : FeState
  /-- VIN is above 3.0 V (R469) -/
  vin        : Bool
  /-- VIN lies above the UV threshold in force, and below the OV threshold (R470) -/
  uvOk       : Bool
  ovOk       : Bool
  /-- EN_IN after its filter (R471) -/
  enIn       : Bool
  /-- straps sampled as VIN rose (R469) -/
  uvSel      : BitVec 2
  insDly     : BitVec 2
  /-- the insertion delay has run, and the start waits for the pre-charge window (R476) -/
  waiting    : Bool
  /-- pre-charges started within the last 10 s (R476) -/
  starts     : Nat
  /-- times of the window exits under limit within the last 10 s (R479), newest first -/
  exits      : List Nat
  /-- the latch on the front end's hold-up store (R480) -/
  latch      : Bool
  /-- the fault timer counts up (R478) -/
  ftUp       : Bool
  /-- its count at `ftAt`, in 1/16 ns (R478) -/
  ftCount    : Nat
  ftAt       : Nat
  /-- FAULT_WARN_N held by the fault timer (R481), and by the FET temperature (R482) -/
  warnTimer  : Bool
  warnFet    : Bool
  /-- FET temperature acted on, in 1/16 °C (R482) -/
  fetT       : Int
  /-- cause of the last trip, on the hold-up store -/
  lastTrip   : Option TripCause
  /-- window exits since the last power-on: over-voltage, under-voltage -/
  sawOv      : Bool
  sawUv      : Bool
  /-- the module's converters have run since the main switch closed, so the die has power (R477) -/
  powered    : Bool
  deriving DecidableEq, Repr, Inhabited

end Sys2Proof.Machine
end

