-- ==== Sys2Proof/Machine/Parts/Gang.lean ====
section
/-! DEFINITION. Parts/Gang.lean: the gangline (*Gangline peer link and mirroring*), the performance counters and
bandwidth windows (*Performance counters*), and the sharing counters of *Sharing, classes and forward progress*. -/
namespace Sys2Proof.Machine

/-- The mirror state, with the codes of GANG_STATUS.MIRROR in order (R452). -/
inductive MirrorState where
  | off | mirroring | source | dest | split | suspended | mismatch | peerstop | down
  deriving DecidableEq, Repr, Inhabited

/-- Its code. -/
def MirrorState.code : MirrorState → Nat
  | .off => 0 | .mirroring => 1 | .source => 2 | .dest => 3 | .split => 4 | .suspended => 5
  | .mismatch => 6 | .peerstop => 7 | .down => 8

/-- A sequenced flit in the replay buffer (R430): its number and message. -/
structure Sent where
  seq     : Nat
  msg     : GangOut
  deriving DecidableEq, Repr, Inhabited

/-- A mirrored write that awaits its MACK (R21): the tag of its message, its logical offset, and the host write it
completes. -/
structure MirrorWait where
  tag : Nat
  off : Nat
  req : Option MReq
  deriving DecidableEq, Repr, Inhabited

/-- What a received request message has to do (R445, R449). -/
inductive RxWork where
  /-- a mirrored write: its tag and logical offset -/
  | write (tag off : Nat)
  /-- sectors of the resynchronisation: offset, and their count -/
  | sectors (off n : Nat)
  /-- a page of zeros of an elastic region, which is trimmed -/
  | page (off : Nat)
  /-- digests to compare, from a granule on -/
  | digests (gran : Nat) (l : List Word64)
  deriving DecidableEq, Repr, Inhabited

/-- A received request message that waits for its accesses. -/
structure RxWait where
  work : RxWork
  ids  : List Nat
  deriving DecidableEq, Repr, Inhabited

/-- The source reads a granule, to copy it or to compute its digest (R449): the granule, its accesses, and for digests the granules
that the message still lacks and the digests that it has. -/
structure GranRead where
  gran : Nat
  ids  : List Nat
  copy : Bool
  run  : List Nat
  digs : List Word64
  deriving DecidableEq, Repr, Inhabited

/-- The gangline. -/
structure GangSt where
  /-- link: 0 off, 1 down, 2 training or changing, 3 up -/
  link    : Nat
  primary : Bool
  /-- lane-parity mode in this epoch; needed by this module; needed by the peer (R436) -/
  parity  : Bool
  needPar : Bool
  width   : Nat
  rate    : Nat
  mirror  : MirrorState
  fresh   : Bool
  /-- numbers of the set bits of the dirty-granule bitmap (R447), rising -/
  bitmap  : List Nat
  peerId  : Word64
  epoch   : Word32
  /-- highest epoch number used -/
  topEpoch : Nat
  err     : BitVec 9
  crcFail : Nat
  replays : Nat
  replayUs : Nat
  pass    : Nat
  /-- granules still to be done in the pass, in order, and the granule being copied (R449, R450) -/
  left    : List Nat
  copying : Option Nat
  /-- granules copied or matched in this pass -/
  donePass : List Nat
  /-- sender: next sequence number, replay buffer, request flits sent and credits returned, expiries in a row -/
  nextSeq : Nat
  sent    : List Sent
  reqSent : Nat
  reqRet  : Nat
  expiries : Nat
  /-- messages that wait for room or credit, in order; `true`: request -/
  txWait  : List (GangOut × Bool)
  /-- receiver: expected number e, number of the next flit received, accepted since the last ACK, first accepted at all,
  credits returned -/
  expect  : Nat
  rxNum   : Nat
  unacked : Nat
  ackV    : Bool
  credRet : Nat
  /-- time at which the last bark was taken -/
  barkAt  : Nat
  /-- a change is under way: target width and rate (R438) -/
  change  : Option (Nat × Nat)
  /-- this module has asked for the change under way -/
  changeOwn : Bool
  /-- a request for a change that waits (R439), and whether it is this module's own -/
  changeWait : Option (Nat × Nat × Bool)
  laneTest : Option (AdminTag × Bool)
  /-- a failing lane keeps x4 until the next epoch (R453) -/
  keepX4  : Bool
  /-- protocol error of R424: no retry until module reset -/
  dead    : Bool
  nextTag : Nat
  waits   : List MirrorWait
  /-- writes to the granule being copied (R450) -/
  held    : List MReq
  /-- the peer's last HELLO -/
  peer    : Option HelloMsg
  /-- full pass: granules that differ and wait to be copied; granules whose digests await their RACK -/
  toCopy  : List Nat
  digOut  : List Nat
  /-- destination: sectors received of the granules being copied; granules reported as differing; the last granule's digest
  has come -/
  rxGran  : List (Nat × Nat)
  rxDiff  : List Nat
  rxLast  : Bool
  /-- received requests under way, in order, and the granule that the source reads -/
  rxWait  : List RxWait
  reading : Option GranRead
  /-- source: RESYNC_DONE has come -/
  rxDone  : Bool
  /-- times of the CRC failures of the last 1 ms (R438) -/
  crcAt   : List Nat
  deriving DecidableEq, Repr, Inhabited

/-- One performance counter (R531). -/
structure PerfCtr where
  event  : Nat
  qual   : Nat
  pack   : Nat
  occ    : Nat
  thresh : Nat
  chain  : Bool
  irq    : Bool
  sample : Bool
  en     : Bool
  count  : Nat
  snap   : Nat
  /-- OCC 3: occupancy was at or above the threshold -/
  high   : Bool
  deriving DecidableEq, Repr, Inhabited

/-- One counted event, as a sample records it (R536). -/
structure PerfEvt where
  event : Nat
  qual  : Nat
  keyId : Nat
  addr  : Option (Bool × Nat)
  slot  : Nat
  deriving DecidableEq, Repr, Inhabited

/-- One page of counters (R529). -/
structure PerfPage where
  ctrs     : Vector PerfCtr 8
  ovf      : BitVec 8
  freeze   : Bool
  frzOnOvf : Bool
  sample0  : Word64
  sample1  : Word64
  /-- overflows not yet acted on: counter and the event that carried it (R533) -/
  pend     : List (Nat × PerfEvt)
  /-- PERF_IRQ (R537) -/
  irqVec   : Nat
  irqPort  : Port
  irqEn    : Bool
  deriving DecidableEq, Repr, Inhabited

/-- The bandwidth window of a half (R539). -/
structure BwWindow where
  us    : Nat
  rd    : Nat
  wr    : Nat
  rx    : Nat
  tx    : Nat
  seq   : Word32
  accRd : Nat
  accWr : Nat
  deriving DecidableEq, Repr, Inhabited

/-- The counters of one class label and its settings (R409, R415). -/
structure LabelSt where
  cshare : Nat
  qshare : Nat
  rd     : Word64
  wr     : Word64
  batts  : Word64
  overs   : Word64
  deriving DecidableEq, Repr, Inhabited

end Sys2Proof.Machine
end

