-- ==== Sys2Proof/Machine/Parts/Pack.lean ====
section
/-! DEFINITION. Parts/Pack.lean: the state of a pack and of its tile's dispatcher: class queues, bound requests,
erasure marks, diagnosis, channel test, scrubber, poison list (*Packs, batts and the pack code*,
*The frame schedule*). -/
namespace Sys2Proof.Machine

/-- On whose behalf the module reads a batt that no line-cache line asks for (R84): the work whose next step uses it. -/
inductive Owner where
  /-- the fill of a line: space, tile, line address -/
  | fill (space : BitVec 2) (tile : Tile) (a : Nat)
  /-- the write-back of a line, or of a transit entry -/
  | line (space : BitVec 2) (tile : Tile) (a : Nat)
  /-- a reseal: tile, level of the node, its index (R281) -/
  | reseal (tile level idx : Nat)
  /-- a tier move of a page of a tile (R299) -/
  | page (tile : Tile) (q : Nat)
  /-- a tier-map batt of a tile, as pages / 32, for a sweep or a trim (R299, R305) -/
  | tmap (tile : Tile) (g : Nat)
  /-- a run header (R354) -/
  | header (run : Nat)
  /-- the zero-fill sweep of a tile's nodes (R267) -/
  | zero (tile : Tile)
  deriving DecidableEq, Repr, Inhabited

/-- What a dispatcher request is for, and so what its data phase does. -/
inductive Purpose where
  /-- fill of the line in slice miss entry (space, tile, line address), R189 -/
  | fill (space : BitVec 2) (tile : Tile) (a : Nat)
  /-- a write whose data is in the tile's write buffer (R90) -/
  | write
  /-- a cell read of a run (R362): run number and the read's place among the run read entries -/
  | cellRead (run : Nat)
  /-- a cell group write of a run -/
  | cellWrite (run : Nat)
  /-- a batt, or a group, that other work of the module waits for -/
  | need (own : Owner)
  /-- the write-back of a line that waits in its way for the write buffer (R197): space, tile, line address -/
  | line (space : BitVec 2) (tile : Tile) (a : Nat)
  /-- scrub write-back of a corrected batt (R67) -/
  | writeBack (data : Batt)
  /-- poison marker (R73) -/
  | marker
  /-- a patrol read (R65), or step 1 of the channel test of a batt (R61), that diagnosis holds or re-executes -/
  | patrol
  | test
  deriving DecidableEq, Repr, Inhabited

/-- One request in a dispatcher queue (R91): a batt, or a cell group of four batts in the pack. -/
structure DReq where
  cls   : SlotClass
  /-- rank-bank number 16 × rank + bank (R87) -/
  bank  : Nat
  /-- device address of the batt, or of the run's first batt in the pack -/
  da    : Nat
  write : Bool
  label : BitVec 3
  /-- kind of work in a pool without labels (R414): META 0 tier map, 1 MAC, 2 to 5 level 1 to 4; TIER 1 promotion and backing;
  MIRROR 0 received writes, 1 resynchronisation -/
  kind  : Nat
  /-- a cell group: four batts of the pack (R83) -/
  group : Bool
  why   : Purpose
  /-- its batt has been through a diagnosis: it starts no second one (R56) -/
  tried : Bool
  deriving DecidableEq, Repr, Inhabited

/-- A request sent to the sequencer for a slot (R87), until its data phase ends. -/
structure Bound where
  req  : DReq
  slot : Nat
  frame : Word32
  /-- class code of the slot -/
  slotCls : Nat
  deriving DecidableEq, Repr, Inhabited

/-- What a read of a batt from the dies gives: data, or poison with a mark whether it starts a diagnosis or was a poison
marker. -/
inductive RawRead where
  | data (b : Batt)
  /-- recorded as a poison marker: no event (R76) -/
  | marker
  /-- poison that starts no diagnosis: a Failed rank, or a batt recorded as poisoned (R54) -/
  | known
  /-- uncorrectable -/
  | bad
  deriving DecidableEq, Repr, Inhabited

/-- A read that a diagnosis holds, with what its batts gave (R55, R58). -/
structure HeldRead where
  req : DReq
  res : List RawRead
  deriving DecidableEq, Repr, Inhabited

/-- Channel diagnosis in progress (R55): the failing rank, the TRAIN slots served, the positions that failed, and the
reads whose data is held. -/
structure Diag where
  rank   : Nat
  steps  : Nat
  failed : BitVec 9
  held   : List HeldRead
  deriving DecidableEq, Repr, Inhabited

/-- A batt under channel test (R61): its address and the values decoded in step 1. It holds a SCRUB entry (R67). From
step 2 to its restore the dies hold the pattern in the tested channel's bytes. -/
structure TestBatt where
  da   : Nat
  data : Batt
  /-- steps of R61 done; from step 2 to the restore the batt is decoded in erasure mode -/
  step : Nat
  deriving DecidableEq, Repr, Inhabited

/-- One pack: its dispatcher queues and sequencer, marks and scrubber. -/
structure PackSt where
  /-- requests of every class and bank, in order of entry; a bank queue is the sublist of its class and bank -/
  queue   : List DReq
  bound   : List Bound
  /-- requests that wait for a dispatcher entry (R110, R412), in order of arrival -/
  waiting : List DReq
  /-- label served last of each class's pool, by class code (R413) -/
  served  : List (Nat × Nat)
  /-- U_c of the running frame and of the next frame, by class code (R98) -/
  used     : List (Nat × Nat)
  usedNext : List (Nat × Nat)
  /-- code of the class granted the previous OPEN slot (R99) -/
  lastOpen : Nat
  misses    : Nat
  lastClass : Nat
  sinceBand : Bool
  /-- die marks (rank, byte position) and channel marks (R50) -/
  dieMarks  : List (Nat × Nat)
  chMarks   : List Nat
  /-- per rank: batts corrected in the running and in the last complete 1 s window (R51, R53) -/
  ceNow     : List (Nat × Nat)
  ceCount   : List (Nat × Nat)
  /-- corrections of the last second: rank × 18 + position, and when (R51); start of the running window -/
  ceAt      : List (Nat × Nat)
  ceStart   : Nat
  diag      : Option Diag
  tests     : List TestBatt
  /-- patrol pointers by rank-bank: row × 64 + column (R65) -/
  patrol    : List (Nat × Nat)
  /-- patrol pacing credit, and the time of the last SCRUB slot (R67) -/
  credit    : Nat
  lastScrub : Nat
  /-- batts recorded as poisoned: as markers, as poison-list entries, and those whose marker is not yet written (R76) -/
  markers   : List Nat
  poisonList : List Nat
  poisonPend : List Nat
  plFull    : Bool
  /-- retune work due: MR4, ZQ (R97) -/
  mr4Due    : Bool
  zqDue     : Bool
  /-- when each rank's interval oscillator was last read (R71) -/
  oscAt     : List (Nat × Nat)
  /-- activations of each rank since its last refresh management (R96) -/
  raa       : List (Nat × Nat)
  /-- the pack is in self-refresh (R108) -/
  selfRefresh : Bool
  /-- mode registers of each channel as recorded at training (R70): manufacturer [7:0], revision [15:8], density [23:16] -/
  modeRegs  : Vector Word32 9
  deriving DecidableEq, Repr, Inhabited

/-- One pending write of a tile's write buffer (R90). -/
structure WEntry where
  /-- device address of the batt -/
  da     : Nat
  data   : Batt
  poison : Bool
  cls    : SlotClass
  label  : BitVec 3
  /-- as in `DReq` -/
  kind   : Nat
  deriving DecidableEq, Repr, Inhabited

/-- A batt that a data phase has brought for work that still waits for others (`Purpose.need`): it has left the read-return
buffer for the engine, or for a metadata transit entry (R203, R416). -/
structure Here where
  own    : Owner
  da     : Nat
  data   : Batt
  /-- it was uncorrectable, or a poison marker (R76) -/
  poison : Bool
  deriving DecidableEq, Repr, Inhabited

/-- A channel test of a tile (R60 to R64). -/
structure ChanTest where
  cmd     : AdminTag
  /-- device of the result buffer: window offset -/
  rbuf    : Nat
  rows    : Nat
  /-- channels done (0 to 18): tile channel index k is pack 2t + k / 9, position k % 9 -/
  done    : Nat
  /-- results so far: location code and result of each channel -/
  records : List (Word32 × Nat)
  /-- the channel under test had its mark when its test began -/
  marked  : Bool
  /-- the channel under test has failed a link test or a comparison -/
  failing : Bool
  /-- link tests of the channel served in TRAIN slots -/
  links   : Nat
  /-- batts of the channel's array test taken so far, by rank-bank -/
  next    : List (Nat × Nat)
  deriving DecidableEq, Repr, Inhabited

end Sys2Proof.Machine
end

