-- ==== Sys2Proof/Machine/Parts/Port.lean ====
section
/-! DEFINITION. Parts/Port.lean: one host port: link, configuration state, request tracker, error registers and D2H
cache (*Host ports and the address map*; *Coherence with the hosts*, *Doorbell lines*). -/
namespace Sys2Proof.Machine

/-- One entry of the request tracker (R167). -/
structure Track where
  tag   : BitVec 16
  label : BitVec 3
  write : Bool
  w     : BitVec 53
  deriving DecidableEq, Repr, Inhabited

/-- PORT_VIOL (R186). -/
structure Viol where
  addr  : BitVec 53
  kind  : BitVec 3
  write : Bool
  deriving DecidableEq, Repr, Inhabited

/-- A CXL lane test of the port (R523). -/
structure LaneTest where
  cmd   : AdminTag
  /-- the half under test: false lanes 0 to 7, true lanes 8 to 15 -/
  hi    : Bool
  fails : BitVec 16
  deriving DecidableEq, Repr, Inhabited

/-- Uncorrectable errors of AER that the module records (R183). -/
inductive AerErr where
  | poisonedTlp | surpriseDown
  deriving DecidableEq, Repr, Inhabited

/-- Conditions of the CXL RAS Capability that the module records (R183). -/
inductive RasErr where
  | memPoison | cachePoison | viral | cacheProtocol
  deriving DecidableEq, Repr, Inhabited

/-- One host port. -/
structure PortSt where
  linkUp   : Bool
  rate     : LinkRate
  width    : LinkWidth
  /-- active width code: 0 x16, 1 x8, 2 x4, 3 x2 -/
  active   : Nat
  lopt     : Bool
  /-- PERST_N of the port is asserted (R176) -/
  inReset  : Bool
  sris     : Bool
  viralRx  : Bool
  degraded : Bool
  /-- a lane test failed, so the port trains at x8 from now on (R523); false: lanes 8 to 15 survive -/
  badHalf  : Option Bool
  err      : BitVec 8
  viol     : Option Viol
  violCount : Nat
  overruns : List (Nat × Nat)
  /-- labels whose overrun event has been raised in the running frame (R171) -/
  overFrame : List Nat
  /-- labels over a lowered budget, whose overruns are not counted (R188): 2 × label, plus 1 for writes -/
  overHeld : List Nat
  tracker  : List Track
  rxBuf    : List MReq
  answerWr : Nat
  /-- HDM decoder (R159) -/
  hdmCommitted : Bool
  hdmError : Bool
  hdmLock  : Bool
  hdmBase  : Nat
  memEnable   : Bool
  cacheEnable : Bool
  memActive   : Bool
  d3hot    : Bool
  /-- sticky AER bits (R176), and the status of the CXL RAS Capability (R183) -/
  aer      : List AerErr
  ras      : List RasErr
  /-- Get and Set Timestamp (R180): the value set, and when -/
  tsBase   : Nat
  tsAt     : Nat
  /-- a width change that the module has requested (R157) -/
  l0pReq   : Option Nat
  laneTest : Option LaneTest
  /-- S2M BISnp and D2H Req credits held (R229) -/
  snpCredit : Nat
  d2hCredit : Nat
  /-- D2H Req messages that wait for credit: 0 RdShared, 1 RdCurr, 2 ItoMWr, with the address -/
  d2hWait  : List (Nat × Nat)
  /-- BIConflicts that wait for completions (R232): its tag, and the tags of the messages awaited -/
  conflicts : List (BitVec 16 × List (BitVec 16))
  /-- doorbell lines held in Shared state (R247) -/
  dbHeld   : List Nat
  /-- RdShared open, with the mark of R249 that one more follows -/
  dbOpen   : List (Nat × Bool)
  /-- MSI-X: vectors whose mask bit is clear, and pending bits (R335); a vector is masked at reset -/
  msixOn   : List Nat
  msixPend : List Nat
  /-- message address and message data of the vectors, as host software wrote them (R179) -/
  msixTab  : List (Nat × (Word64 × Word32))
  /-- presence sweep of this port running (R227) -/
  sweeping : Bool
  deriving DecidableEq, Repr, Inhabited

end Sys2Proof.Machine
end

