-- ==== Sys2Proof/Machine/Parts/Region.lean ====
section
/-! DEFINITION. Parts/Region.lean: region table, key slots, integrity and protection reload
(*Regions, keys and integrity*). -/
namespace Sys2Proof.Machine

/-- Key slot states (R264). -/
inductive KeyState where
  | empty | active | retiring | retired | zeroing | plaintext
  deriving DecidableEq, Repr, Inhabited

/-- The STATE code of KEY_SLOT (R264). -/
def KeyState.code : KeyState → Nat
  | .empty => 0 | .active => 1 | .retiring => 2 | .retired => 3 | .zeroing => 4 | .plaintext => 7

/-- One key slot (R262). -/
structure KeySlot where
  st    : KeyState
  kEnc  : BitVec 256
  kMac  : BitVec 256
  loads : Word32
  deriving DecidableEq, Repr, Inhabited

/-- A tile's sealed range and metadata area, in granules of 64 MiB (R273). -/
structure SealRange where
  base     : Nat
  gran     : Nat
  metaBase : Nat
  metaGran : Nat
  deriving DecidableEq, Repr, Inhabited

/-- INTEG_STATUS and INTEG_ADDR after a stop (R287). -/
structure Stop where
  cause : Nat
  merge : Bool
  tile  : Nat
  level : Nat
  frame : Word32
  da    : Nat
  keyId : Nat
  deriving DecidableEq, Repr, Inhabited

/-- A verified protection block: region table and METAWAYS (R256). -/
structure ProtBlock where
  regions  : List (BitVec 128)
  metaWays : Nat
  deriving DecidableEq, Repr, Inhabited

/-- A protection reload in progress (R257). -/
structure Reload where
  cmd   : AdminTag
  phase : Nat
  block : ProtBlock
  deriving DecidableEq, Repr, Inhabited

/-- A reseal in progress (R281, R282): the node's tile, level and index, the minor that would overflow and the work whose write
raises it, and the requests that wait. -/
structure Reseal where
  tile    : Nat
  level   : Nat
  index   : Nat
  child   : Nat
  own     : Owner
  waiters : List MReq
  deriving DecidableEq, Repr, Inhabited

/-- Regions, keys and integrity. -/
structure Protect where
  regions   : List (BitVec 128)
  locked    : Bool
  gen       : BitVec 16
  reload    : Option Reload
  keys      : Vector KeySlot 64
  kek       : BitVec 256
  /-- root entries, 8 per tile: tile × 8 + entry (R276) -/
  roots     : Vector Word64 32
  sealR     : Vector SealRange 4
  stop      : Option Stop
  /-- failing checks after the stop (R286) -/
  stopCount : Nat
  /-- retirement or zero-fill sweep running: key id and command (R268); `true` zero-fill -/
  keyWork   : Option (Nat × Bool × AdminTag)
  /-- key ids whose key-unavailable event has been raised in the running frame (R264) -/
  keyEvents : List Nat
  reseals   : List Reseal
  /-- batts written under other keys during the zero-fill sweep that runs (R267) -/
  zeroWritten : List Nat
  /-- level-1 nodes that the sweep has still to write: tile, first node, count -/
  zeroLeft  : List (Tile × Nat × Nat)
  /-- requests held in phases 3 to 7 of a reload, while a sweep runs, or until a power state is left, in order (R209, R257, R495) -/
  held      : List MReq
  deriving DecidableEq, Repr, Inhabited

end Sys2Proof.Machine
end

