-- ==== Sys2Proof/Machine/Parts/Tier.lean ====
section
/-! DEFINITION. Parts/Tier.lean: elastic pools, tier maps, moves, fullers and compression jobs
(*Fulled pages, elastic capacity and compression jobs*). -/
namespace Sys2Proof.Machine

/-- The moves of *Migration triggers* (R299) that take time. -/
inductive MoveKind where
  | promotion | backing | demotion | compaction
  deriving DecidableEq, Repr, Inhabited

/-- A move (R299): the page's number in the tile's window and the key id under which its batts are read and written. Of several
moves of one page the first is under way. -/
structure Move where
  page  : Nat
  kind  : MoveKind
  key   : BitVec 6
  /-- the new place: its frame (DA / 4096), and in a shared frame its first batt and their count (0: a whole frame, or none yet) -/
  frame : Nat
  start : Nat
  len   : Nat
  /-- the batts of the new place that have still to be handed to the write buffer; `none` before they are known -/
  todo  : Option (List (Nat × Batt))
  deriving DecidableEq, Repr, Inhabited

/-- Elastic set-up and state of one tile (R289, R298, R306). -/
structure TierSt where
  poolBase : Nat
  poolSize : Nat
  elBase   : Nat
  elGran   : Nat
  tmapBase : Nat
  shift    : Nat
  sweepMs  : Nat
  demoteAge : Nat
  promoteReads : Nat
  fullMax  : Nat
  /-- parameters, by number, that TIER_SET has set and that take effect with the next sweep (R298) -/
  setNext  : List (Nat × Nat)
  /-- tier-map entries that are not zero: page number in the window and entry (R292) -/
  tmap     : List (Nat × Word64)
  /-- pages with a frame reserved and not yet in use (R302): page and frame -/
  reserved : List (Nat × Nat)
  /-- the two working frames (R291) -/
  working  : List Nat
  /-- fills of each T2 page since the last sweep (R299) -/
  fills    : List (Nat × Nat)
  moves    : List Move
  /-- tier-map batts, as pages / 32, that the sweep under way has still to go through (R299) -/
  sweep    : List Nat
  heel     : Bool
  enforce  : Bool
  bypass   : Bool
  poisoned : Nat
  /-- ELASTIC_TRIM commands that wait for BISnp of their pages (R305): the command, its first page and their count -/
  trims    : List (Option AdminTag × Nat × Nat)
  deriving DecidableEq, Repr, Inhabited

/-- A piece of work of a fuller (R147, R419): the fill of a fulled page's line, a tier move of a page of a tile, or a job by its
number. -/
inductive FullWork where
  | fill (tile : Tile) (a : Nat)
  | move (tile : Tile) (page : Nat)
  | job (id : Nat)
  deriving DecidableEq, Repr, Inhabited

/-- One fuller (R314): what it runs, the tier move or job that a fill has interrupted at a 256 B boundary and that resumes after
the fills (R147, R419), and what waits for it, in order. -/
structure Fuller where
  mode     : Nat
  mismatch : Nat
  test     : Option AdminTag
  run      : Option FullWork
  paused   : Option FullWork
  queue    : List FullWork
  deriving DecidableEq, Repr, Inhabited

/-- What a job has come to (R312, R313): the fields of its completion entry, the halt code of its ring (0: it goes on), the
bytes for DST, and those for CTX with the stream's input so far. -/
structure JobEnd where
  code   : Nat
  detail : Nat
  halt   : Nat
  used   : Nat
  len    : Nat
  crc    : Word32
  adler  : Word32
  out    : List Byte
  ctx    : Option (List Byte × List Byte)
  deriving DecidableEq, Repr, Inhabited

/-- How far a job has come, with the numbers of the accesses that it waits for (R308 to R313). -/
inductive JobStage where
  /-- it waits for its fuller -/
  | waits
  /-- it runs: its reads of SRC and CTX -/
  | reads (src ctx : List Nat)
  /-- its reads of the batts that its output fills only in part -/
  | edges (e : JobEnd) (ids : List Nat)
  /-- its writes of the output, and then of the context -/
  | writes (e : JobEnd) (ids : List Nat)
  | context (e : JobEnd) (ids : List Nat)
  deriving DecidableEq, Repr, Inhabited

/-- A job descriptor (R307) taken from a job ring, under a number of the module's own. -/
structure Job where
  id     : Nat
  port   : Port
  ring   : Nat
  tag    : Word64
  src    : Nat
  dst    : Nat
  ctx    : Nat
  srcLen : Nat
  dstLen : Nat
  op     : Nat
  format : Nat
  huff   : Nat
  level  : Nat
  first  : Bool
  last   : Bool
  fuller : Nat
  stage  : JobStage
  deriving DecidableEq, Repr, Inhabited

end Sys2Proof.Machine
end

