-- ==== Sys2Proof/Machine/Parts/Proc.lean ====
section
/-! DEFINITION. Parts/Proc.lean: service processors, flash, boot and admin queue (*Service processors, boot and the
event log*), housekeeping (*Temperature and heel requests*), power states (*Power states and wake*) and the
connector's sideband and TAP (*Card edge, signals and straps*). -/
namespace Sys2Proof.Machine

/-- The state of a core in SP_STATUS (R519). -/
inductive CoreSt where
  | off | booting | active | standby | test | failed
  deriving DecidableEq, Repr, Inhabited

/-- Its code. -/
def CoreSt.code : CoreSt → Nat
  | .off => 0 | .booting => 1 | .active => 2 | .standby => 3 | .test => 4 | .failed => 5

/-- The boot configuration and image set of a flash bank's image (R505), and what verifying it finds (R506). -/
structure BankImage where
  /-- 0 verifies; 1 key digest, 2 signature, 4 format or read error (as the bank-fallback event's reason) -/
  fault    : Nat
  svn      : Nat
  fwver    : Word32
  debug    : Bool
  kek      : BitVec 256
  srisA    : Bool
  srisB    : Bool
  metaWays : Nat
  sealR    : Vector SealRange 4
  /-- POOL_BASE, POOL_SIZE, EL_BASE, EL_GRAN, TMAP_BASE, RESERVE_SHIFT of each tile (R289) -/
  elastic  : Vector (List Nat) 4
  /-- SWEEP_MS, DEMOTE_AGE, PROMOTE_READS, FULL_MAX (R298) -/
  tierPar  : List Nat
  runtimeLoad : Bool
  wdtMs    : Nat
  regions  : List (BitVec 128)
  /-- the bank's image set (R120) -/
  imageSet : List Byte
  deriving DecidableEq, Repr, Inhabited

/-- The flash (R504) and what it keeps over power (R528). -/
structure Flash where
  bank0    : Option BankImage
  bank1    : Option BankImage
  wcount0  : Nat
  wcount1  : Nat
  select   : Bool
  minSvn   : Nat
  /-- flash health record: die marks (pack, rank, position), channel marks (pack, position), disabled ways
  (tile, way), COPYFAIL (tile, copy), failed cores and oscillators, and the last trip -/
  dieMarks : List (Nat × Nat × Nat)
  chMarks  : List (Nat × Nat)
  ways     : List (Nat × Nat)
  copyFail : List (Nat × Bool)
  coreFail : List Nat
  oscFail  : List Bool
  trip     : BitVec 8
  /-- events of severity 3, appended by firmware (R504), newest first -/
  fatal    : List (BitVec 16)
  deriving DecidableEq, Repr, Inhabited

/-- A flash command in progress (R510). -/
structure FlashWork where
  cmd   : AdminTag
  bank  : Bool
  image : BankImage
  deriving DecidableEq, Repr, Inhabited

/-- Service processors and the admin queue. -/
structure ProcSt where
  sp1Active : Bool
  sp0       : CoreSt
  sp1       : CoreSt
  recovery  : Bool
  bank      : Bool
  debug     : Bool
  takeovers : Nat
  fwver     : Word32
  svn       : Nat
  wdtMs     : Nat
  /-- time of the watchdog's last restart (R501) -/
  kickAt    : Nat
  bootDone  : Bool
  /-- the set for which boot code filled in the CDAT (R181): the active set as it ran -/
  cdat      : ImageSet
  flashBusy : Option FlashWork
  spTest    : Option AdminTag
  /-- admin commands fetched and not completed (R513), oldest first; `true`: started -/
  queue     : List (AdminTag × Bool)
  /-- the port that took the last free admin queue entry (R331) -/
  lastTurn  : Port
  scratch   : Vector Word64 4
  deriving DecidableEq, Repr, Inhabited

/-- One housekeeping channel (R454, R468). -/
structure Sensor where
  temp   : Int
  broken : Bool
  fails  : Nat
  deriving DecidableEq, Repr, Inhabited

/-- A thermal heel request (R460). -/
structure Heel where
  raised   : Bool
  enforced : Bool
  /-- time at which its grace timer expires (R461) -/
  deadline : Nat
  deriving DecidableEq, Repr, Inhabited

/-- Housekeeping (R454 to R468). -/
structure ThermSt where
  dramBand : Nat
  dieBand  : Nat
  critical : Bool
  blind    : Bool
  dramT    : Int
  dieT     : Int
  rounds   : BitVec 16
  round    : Nat
  grace    : Nat
  /-- the grace time in force: a new value applies from the next round end (R468) -/
  graceIn  : Nat
  dieHeel  : Heel
  dramHeel : Heel
  capHeel  : Vector Heel 4
  throttle : Nat
  /-- time of the last throttle step up (R463) and the time from which a step down counts (R462) -/
  stepUpAt : Option Nat
  downFrom : Nat
  sensors  : List (Nat × Sensor)
  inletWarn : Bool
  /-- the DRAM or die temperature exceeded its Critical limit at the last round end (R465) -/
  dramOver : Bool
  dieOver  : Bool
  test     : Option (AdminTag × Nat)
  /-- boot code holds the packs in reset (R466) -/
  hold     : Bool
  deriving DecidableEq, Repr, Inhabited

/-- Power states (R485 to R497) and the power registers of the die (R484). -/
structure PowerSt where
  idleUs  : Nat
  retain  : BitVec 4
  state   : Nat
  last    : Nat
  cause   : Nat
  retained : BitVec 4
  ready   : BitVec 4
  entry   : Nat
  entries : Word32
  /-- entry under way: 2 Sleep, 3 Deep sleep; exits: phase of R492 -/
  target  : Nat
  phase   : Nat
  /-- SLEEP has been accepted, and its entry waits for the GO of its completion line (R490): the port -/
  sleepAfter : Option Port
  /-- a wake cause arrived after commit (R495) -/
  wakePend : Bool
  ilim    : Nat
  pwrErr  : BitVec 8
  vinMv   : Nat
  iin     : Nat
  fetT    : Int
  /-- time of the last work that R488 names -/
  workAt  : Nat
  deriving DecidableEq, Repr, Inhabited

/-- The sideband target, the TAP and the straps (R564 to R571). -/
structure ConnSt where
  addrSel  : BitVec 3
  gangEn   : Bool
  da       : BitVec 7
  daValid  : Bool
  /-- header of the read in progress (R567), and the data it has posted -/
  header   : Option (BitVec 32)
  posted   : Option (List Byte)
  /-- TAP instruction in force, by code; 0x01 at Test-Logic-Reset -/
  ir       : BitVec 8
  /-- boundary-scan register -/
  boundary : BitVec 12
  tapReset : Bool
  /-- write transfers that complete after the exit from a low-power state (R545): offset, size, value -/
  held     : List (Nat × Nat × Word64)
  deriving DecidableEq, Repr, Inhabited

/-- What an admin command that waits for its buffer, or for an earlier command of its object, has to do (R513, R585). A set command
has the place of its source buffer. -/
inductive AdminWork where
  | poolSet (pool : Nat) (w : Word64)
  | poolRead (pool : Nat) (h : AdminHdr)
  | queueSet (queue : Nat) (w : Word64)
  | queueRead (queue : Nat) (h : AdminHdr)
  | queueReset (queue : Nat)
  | replSet (list : Nat) (w : Word64)
  | eportSet (eport : Nat) (w : Word64)
  | cpoolSet (pool : Nat) (w : Word64)
  /-- a counter pool that a CPOOL_SET has disabled writes its lines back (R397) -/
  | cpoolOff (pool : Nat)
  | flashUpdate (bank : Bool) (w : Word64) (len : Nat)
  /-- table, first entry, count, and how many entries pass R164 before the first that fails -/
  | schedCommit (table first count good : Nat)
  | schedRead (table entry : Nat) (h : AdminHdr)
  /-- a completion whose result bytes go to `w` once the batts that they cover in part have been read -/
  | result (code rused : Nat) (result : BitVec 96) (w : Word64) (bytes : List Byte)
  /-- a completion whose result bytes have been handed to the home slices -/
  | posted (code rused : Nat) (result : BitVec 96)
  deriving DecidableEq, Repr, Inhabited

/-- An admin command that waits, with the accesses it waits for. -/
structure Parked where
  cmd  : AdminTag
  work : AdminWork
  ids  : List Nat
  deriving DecidableEq, Repr, Inhabited

end Sys2Proof.Machine
end

