-- ==== Sys2Proof/Machine/Parts/Queue.lean ====
section
/-! DEFINITION. Parts/Queue.lean: cell pools, runs, queues and replication lists (*Packet buffer service*), scheduler
nodes and policers (*Egress scheduling, shaping and policing*), counter pools (*Statistics counters*). -/
namespace Sys2Proof.Machine

/-- A cell pool's parameter entry (R343) and counts (R371). -/
structure CellPool where
  runBase  : Nat
  runCount : Nat
  dgran    : Nat
  hdrDgran : Nat
  hdrCount : Nat
  grantPort : Port
  grantRing : Nat
  floorG   : Nat
  floorY   : Nat
  floorR   : Nat
  grantHold : Nat
  relHold  : Nat
  enable   : Bool
  /-- run headers in use (R358), by index -/
  hdrUsed  : List Nat
  invalid  : Nat
  double   : Nat
  grantExp : Nat
  relExp   : Nat
  lost     : Nat
  stale    : Nat
  /-- rank-bank list from which the next grant is taken (R348): slot of the CELL_WR rotation -/
  grantPos : Nat
  /-- runs posted on a grant ring and not yet taken, with the ring (port × 256 + ring) and the entry count (R349) -/
  posted   : List (Nat × Nat × Word32)
  deriving DecidableEq, Repr, Inhabited

/-- Run states (R345). -/
inductive RunState where
  | free | open_ | closed
  deriving DecidableEq, Repr, Inhabited

/-- One run: its run state word (R345) and its cells (R351). A run at its reset value is not listed. -/
structure Run where
  st       : RunState
  repl     : Bool
  stored   : Bool
  nextCell : Nat
  live     : BitVec 8
  refs     : Nat
  qrefs    : Nat
  age      : Nat
  /-- taken by the host (R349) -/
  taken    : Bool
  /-- the run state word is uncorrectable, so the run is out of service (R369) -/
  dead     : Bool
  /-- assembly entry: cells 0 to 7, and the cells poisoned (R351, R172) -/
  cells    : Option (List Batt)
  poison   : BitVec 8
  /-- batts of the run's group writes still to be stored, over both packs (R353) -/
  storeLeft : Nat
  /-- label of the last cell write (R408) -/
  label    : BitVec 3
  deriving DecidableEq, Repr, Inhabited

/-- One run header (R358). -/
structure RunHdr where
  next   : Word32
  runs   : List Word32
  len    : Nat
  colour : Nat
  repl   : Bool
  /-- uncorrectable or failing its CHECK (R367): the queue halt code it gives, 0 none -/
  bad    : Nat
  deriving DecidableEq, Repr, Inhabited

/-- One queue (R359). -/
structure Queue where
  limG  : Nat
  limY  : Nat
  limR  : Nat
  head  : Word32
  tail  : Word32
  pkts  : Nat
  cells : Nat
  st    : Nat
  halt  : Nat
  enq   : Word32
  dropLimit : Nat
  dropPool  : Nat
  dropHalt  : Nat
  deriving DecidableEq, Repr, Inhabited

/-- A cell read that waits for its run (R362). -/
structure CellWait where
  run : Nat
  req : MReq
  deriving DecidableEq, Repr, Inhabited

/-- A run read entry (R362): the run's cells, which of them are poisoned, and which have come from the packs. -/
structure RunRead where
  run    : Nat
  cells  : List Batt
  poison : BitVec 8
  here   : BitVec 8
  deriving DecidableEq, Repr, Inhabited

/-- The queue service. -/
structure QueueSt where
  pools   : List (Nat × CellPool)
  runs    : List (Nat × Run)
  /-- run headers in the header caches: header reference and header -/
  hdrs    : List (Nat × RunHdr)
  /-- header blocks that stand in DRAM: header reference / 64 -/
  spilled  : List Nat
  /-- cached blocks that a link has changed since they came, and the label that its enqueue ring gave (R408) -/
  hdrDirty : List (Nat × BitVec 3)
  queues  : List (Nat × Queue)
  /-- replication list words that are not zero: list × 64 + word (R357) -/
  repl    : List (Nat × Word32)
  /-- notification words that are not zero (R361) -/
  eports  : List (Nat × Word32)
  /-- run read entries holding a run, most recently used first (R362): tile's share is by run number -/
  reads   : List RunRead
  cellWaits : List CellWait
  /-- cell writes held for want of an assembly entry (R351), oldest first -/
  writeWaits : List MReq
  deriving DecidableEq, Repr, Inhabited

/-- A scheduler node: its parameters in force (R392) and its live state. -/
structure Node where
  parent : Nat
  prio   : Nat
  ovh    : Int
  weight : Nat
  cir    : Nat
  pir    : Nat
  cbs    : Nat
  pbs    : Nat
  enable : Bool
  creditInit : Nat
  /-- buckets in 1/8,000,000 B, so that no remainder is lost (R378), and the time of their last refill -/
  comm   : Int
  peak   : Int
  at_    : Nat
  deficit : Int
  txCredit : Int
  /-- wheel entry: due time, and whether it stands on the coarse wheel (R382) -/
  wheel  : Option (Nat × Bool)
  sel    : Word64
  deriving DecidableEq, Repr, Inhabited

/-- A policer: parameters (R393) and live state. -/
structure Policer where
  mode  : Nat
  aware : Bool
  ovh   : Int
  cir   : Nat
  pir   : Nat
  cbs   : Nat
  ebs   : Nat
  tc    : Int
  te    : Int
  at_   : Nat
  green  : Word32
  yellow : Word32
  red    : Word32
  deriving DecidableEq, Repr, Inhabited

/-- The egress scheduler and the policers. Nodes are keyed level × 2^20 + number (R372). -/
structure EgressSt where
  nodes    : List (Nat × Node)
  policers : List (Nat × Policer)
  /-- rotation lists (R376): parent key × 32 + tier × 16 + priority, and its children's keys, head first -/
  rotation : List (Nat × List Nat)
  /-- the egress port served last (R375) -/
  lastPort : Nat
  tbase    : Vector Word64 5
  deriving DecidableEq, Repr, Inhabited

/-- A counter pool (R396, R407). -/
structure CounterPool where
  cbase  : Nat
  ccount : Nat
  dgran  : Nat
  mode   : Nat
  enable : Bool
  lostAdd : Nat
  badAdd : Nat
  wraps  : Word32
  sats   : Nat
  deriving DecidableEq, Repr, Inhabited

end Sys2Proof.Machine
end

