-- ==== Sys2Proof/Machine/Parts/Ring.lean ====
section
/-! DEFINITION. Parts/Ring.lean: the rings of a port (*Rings and doorbells*). -/
namespace Sys2Proof.Machine

/-- One ring (R336, R339). -/
structure Ring where
  base    : Word64
  cfg     : Word64
  db      : Word64
  shadow  : Word64
  midx    : Word32
  hidx    : Word32
  state   : Nat
  full    : Bool
  status  : Nat
  /-- module-produced: entries that wait for a line they may write (R325) -/
  wait    : List RawEntry
  /-- module-produced: content of the line in progress (R324) -/
  line    : Sector
  /-- producer count up to which a GO has made entries visible -/
  visible : Word32
  /-- entries made visible since the ring's last MSI-X message, and when the first after it was posted (R335) -/
  modCount : Nat
  modSince : Option Nat
  /-- consumer count last written to the shadow line, and when the first advance after it was (R332) -/
  shadowed : Word32
  /-- the entry line at the consumer count is being read again for a wrong phase bit (R330) -/
  reread  : Bool
  /-- first count whose entry line has not been read -/
  asked   : Word32
  /-- doorbell reads until the check of R337, this one being the next when 1; 0: done -/
  check   : Nat
  /-- positions reserved in this completion ring for commands and jobs in progress (R331) -/
  reservedPos : Nat
  deriving DecidableEq, Repr, Inhabited

/-- An ItoMWr that the module has issued (R324): its line, its ring (256 + r: the shadow line of ring r), its data, the
count that its GO reports, and whether its data has left. -/
structure OpenWrite where
  addr   : Nat
  ring   : Nat
  data   : Sector
  count  : Word32
  pulled : Bool
  deriving DecidableEq, Repr, Inhabited

/-- The rings of a port and their exchanges with its host. -/
structure RingsSt where
  rings   : List (Nat × Ring)
  /-- RdCurr open: ring, entry count it was issued for, and address -/
  reads   : List (Nat × Word32 × Nat)
  /-- ItoMWr open, oldest first -/
  writes  : List OpenWrite
  /-- entry lines returned and not yet used: ring, count read for, line -/
  held    : List (Nat × Word32 × Sector)
  /-- fetched entries that wait for their service: ring and entry, oldest first -/
  enq     : List (Nat × RawEntry)
  rel     : List (Nat × RawEntry)
  cred    : List (Nat × RawEntry)
  jobs    : List (Nat × RawEntry)
  /-- entry lines fetched per label in the running 1 µs window (R333) -/
  lines   : List (Nat × Nat)
  /-- label served last (R334) -/
  lastLabel : Nat
  deriving DecidableEq, Repr, Inhabited

end Sys2Proof.Machine
end

