-- ==== Sys2Proof/Machine/Init.lean ====
section
/-! DEFINITION. Machine/Init.lean: the value of each part of the state after a module reset. A field whose Reset
column reads Boot, and every field for which the spec states no value, stands at the value that INVENTORY.md lists for
it with its log entry; boot code loads the Boot fields (R508). -/
namespace Sys2Proof.Machine

/-- The front end of a powered module: PG_OUT is asserted (R484, PG resets to 1). -/
def initFront : FrontEnd where
  st := .powergood
  vin := true
  uvOk := true
  ovOk := true
  enIn := true
  uvSel := 0
  insDly := 0
  waiting := false
  starts := 1
  exits := []
  latch := false
  ftUp := false
  ftCount := 0
  ftAt := 0
  warnTimer := false
  warnFet := false
  fetT := 0
  lastTrip := none
  sawOv := false
  sawUv := false
  powered := true

/-- R516, R554, R555: empty FIFO, MASK 0x8. -/
def initEvents : Events where
  fifo := []
  co := []
  nextSeq := 0
  mask := 8
  sev := 0
  crit := false
  reOffset := 0
  reSource := 0
  reReason := 0
  reValid := false
  reCount := 0

/-- A variant of the ROM fallback set (R127): F = 4,096, throttle level 0, one band. -/
def romVariant (bands : BitVec 4) (fsp : Bool) (m lead i : Nat) : Variant where
  bands := bands
  throttle := 0
  fsp := fsp
  refreshM := m
  frame := 4096
  bindLead := lead
  secOffset := i
  secLength := 4 * 4096 * 8 + 512

/-- The ROM fallback set (R127, R550): one variant per band; bind leads as the section *Dispatch and binding* states them. -/
def romSet : ImageSet where
  rom := true
  setId := 0xFFFF_FFFF_FFFF_FFFF
  dieProfile := 0
  qxcVersion := 0
  scrubHours := 24
  variants := [romVariant 1 false 1 24 0, romVariant 2 false 1 24 1, romVariant 4 false 2 24 2,
    romVariant 8 true 4 22 3]
  bytes := []

/-- The schedule after a module reset: both stores are discarded (R128), so the set in ROM stands, Nominal variant. -/
def initSched : Sched where
  active := romSet
  staged := none
  variant := 1
  subst := false
  swap := none
  further := none
  activators := []
  load := none
  loadIds := []
  runtimeLoad := false
  frameNo := 0
  frameStart := 0
  running := false
  gap := false
  joining := 0

/-- The frame timebase: OSC0 carries it. -/
def initTimebase : Timebase where
  now := 0
  resetAt := 0
  osc1 := false
  fail0 := false
  fail1 := false
  lost := false
  test := none

/-- A pack after a module reset: no queue holds a request, no mark stands, pointers at row 0, column 0 (R65). -/
def initPack : PackSt where
  queue := []
  bound := []
  waiting := []
  served := []
  used := []
  usedNext := []
  lastOpen := 0
  misses := 0
  lastClass := 0
  sinceBand := false
  dieMarks := []
  chMarks := []
  ceNow := []
  ceCount := []
  ceAt := []
  ceStart := 0
  diag := none
  tests := []
  patrol := []
  credit := 0
  lastScrub := 0
  markers := []
  poisonList := []
  poisonPend := []
  plFull := false
  mr4Due := false
  zqDue := false
  oscAt := []
  raa := []
  selfRefresh := false
  modeRegs := Vector.replicate 9 0

/-- A slice at its reset values; its invalidation sweep (R209) begins at boot. -/
def initSlice : Slice where
  lines := []
  misses := []
  transits := []
  missWait := []
  lineWait := []
  servedMiss := 7
  servedTransit := 7
  disabled := 0
  locked := 0
  reserved := 0
  prep := false
  prepCmd := none
  lockCmd := none
  metaWays := 0
  sweep := false
  oneWay := none
  flush := false
  drain := 0
  test := none
  passthru := false
  preloads := []
  wayErrs := []
  decomps := []
  wholes := []

/-- A filter slice in broadcast mode, cause start-up (R241, R246). -/
def initFilter : FilterSt where
  entries := []
  badP := []
  badS := []
  broadcast := true
  cause := 0
  phase := 0
  copyFailP := false
  copyFailS := false
  lost := false
  test := none
  forever := false
  snps := []
  resv := []
  waiters := []

/-- A port after a module reset (R176, R184 to R187): link down, configuration space at its reset values. -/
def initPort : PortSt where
  linkUp := false
  rate := .gt16
  width := .x16
  active := 0
  lopt := false
  inReset := false
  sris := false
  viralRx := false
  degraded := false
  badHalf := none
  err := 0
  viol := none
  violCount := 0
  overruns := []
  overFrame := []
  overHeld := []
  tracker := []
  rxBuf := []
  answerWr := 0
  hdmCommitted := false
  hdmError := false
  hdmLock := false
  hdmBase := 0
  memEnable := false
  cacheEnable := false
  memActive := false
  d3hot := false
  aer := []
  ras := []
  tsBase := 0
  tsAt := 0
  l0pReq := none
  laneTest := none
  snpCredit := 0
  d2hCredit := 0
  d2hWait := []
  conflicts := []
  dbHeld := []
  dbOpen := []
  msixOn := []
  msixPend := []
  msixTab := []
  sweeping := false

/-- An EMPTY key slot (R264). -/
def initKey : KeySlot := { st := .empty, kEnc := 0, kMac := 0, loads := 0 }

/-- Key slots after a module reset: slot 0 PLAINTEXT, the others EMPTY (R264, R287). -/
def initKeys : Vector KeySlot 64 := (Vector.replicate 64 initKey).set 0 { initKey with st := .plaintext }

/-- No region is valid until boot code loads the table (R253). -/
def initProtect : Protect where
  regions := []
  locked := false
  gen := 0
  reload := none
  keys := initKeys
  kek := 0
  roots := Vector.replicate 32 0
  sealR := Vector.replicate 4 { base := 0, gran := 0, metaBase := 0, metaGran := 0 }
  stop := none
  stopCount := 0
  keyWork := none
  keyEvents := []
  reseals := []
  zeroWritten := []
  zeroLeft := []
  held := []

/-- A tile without an elastic pool; tier parameters at the defaults of R298. -/
def initTier : TierSt where
  poolBase := 0
  poolSize := 0
  elBase := 0
  elGran := 0
  tmapBase := 0
  shift := 4
  sweepMs := 1000
  demoteAge := 8
  promoteReads := 4
  fullMax := 12
  setNext := []
  tmap := []
  reserved := []
  working := []
  fills := []
  moves := []
  sweep := []
  heel := false
  enforce := false
  bypass := false
  poisoned := 0
  trims := []

/-- A fuller in service (R314). -/
def initFuller : Fuller := { mode := 0, mismatch := 0, test := none, run := none, paused := none, queue := [] }

/-- A ring at its reset values (R336, R339). -/
def initRing : Ring where
  base := 0
  cfg := 0
  db := 0
  shadow := 0
  midx := 0
  hidx := 0
  state := 0
  full := false
  status := 0
  wait := []
  line := 0
  visible := 0
  modCount := 0
  modSince := none
  shadowed := 0
  reread := false
  asked := 0
  check := 0
  reservedPos := 0

/-- The rings of a port: none set up. -/
def initRings : RingsSt where
  rings := []
  reads := []
  writes := []
  held := []
  enq := []
  rel := []
  cred := []
  jobs := []
  lines := []
  lastLabel := 7

/-- The queue service: no pool, no queue, no list set. -/
def initQueues : QueueSt where
  pools := []
  runs := []
  hdrs := []
  spilled := []
  hdrDirty := []
  queues := []
  repl := []
  eports := []
  reads := []
  cellWaits := []
  writeWaits := []

/-- A queue that has never been enabled: disabled, otherwise the values of R359. -/
def initQueue : Queue where
  limG := 0
  limY := 0
  limR := 0
  head := 0xFFFF_FFFF
  tail := 0xFFFF_FFFF
  pkts := 0
  cells := 0
  st := 0
  halt := 0
  enq := 0
  dropLimit := 0
  dropPool := 0
  dropHalt := 0

/-- A run at its reset value: FREE (R345). -/
def initRun : Run where
  st := .free
  repl := false
  stored := false
  nextCell := 0
  live := 0
  refs := 0
  qrefs := 0
  age := 0
  taken := false
  dead := false
  cells := none
  poison := 0
  storeLeft := 0
  label := 0

/-- A scheduler node at the Default values of R392. -/
def initNode : Node where
  parent := 0
  prio := 7
  ovh := 0
  weight := 1
  cir := 0
  pir := 0
  cbs := 16384
  pbs := 16384
  enable := false
  creditInit := 0
  comm := 16384 * 8000000
  peak := 16384 * 8000000
  at_ := 0
  deficit := 0
  txCredit := 0
  wheel := none
  sel := 0

/-- A policer that is off (R393). -/
def initPolicer : Policer where
  mode := 0
  aware := false
  ovh := 0
  cir := 0
  pir := 0
  cbs := 0
  ebs := 0
  tc := 0
  te := 0
  at_ := 0
  green := 0
  yellow := 0
  red := 0

/-- The scheduler after a module reset (R392). -/
def initEgress : EgressSt where
  nodes := []
  policers := []
  rotation := []
  lastPort := 127
  tbase := Vector.replicate 5 0

/-- The gangline: link down, or off when GANG_EN is strapped off; FRESH (R447, R452). -/
def initGang (en : Bool) : GangSt where
  link := if en then 1 else 0
  primary := false
  parity := false
  needPar := false
  width := 0
  rate := 0
  mirror := .off
  fresh := true
  bitmap := []
  peerId := 0
  epoch := 0
  topEpoch := 0
  err := 0
  crcFail := 0
  replays := 0
  replayUs := 4
  pass := 0
  left := []
  copying := none
  donePass := []
  nextSeq := 0
  sent := []
  reqSent := 0
  reqRet := 0
  expiries := 0
  txWait := []
  expect := 0
  rxNum := 0
  unacked := 0
  ackV := false
  credRet := 0
  barkAt := 0
  change := none
  changeOwn := false
  changeWait := none
  laneTest := none
  keepX4 := false
  dead := false
  nextTag := 0
  waits := []
  held := []
  peer := none
  toCopy := []
  digOut := []
  rxWait := []
  reading := none
  rxGran := []
  rxDiff := []
  rxLast := false
  rxDone := false
  crcAt := []

/-- A performance counter at its reset values (R531): QUAL 0xF, PACK 2 on a tile page. -/
def initCtr (tile : Bool) : PerfCtr where
  event := 0
  qual := 15
  pack := if tile then 2 else 0
  occ := 0
  thresh := 0
  chain := false
  irq := false
  sample := false
  en := false
  count := 0
  snap := 0
  high := false

/-- A performance page at its reset values. -/
def initPage (tile : Bool) : PerfPage where
  ctrs := Vector.replicate 8 (initCtr tile)
  ovf := 0
  freeze := false
  frzOnOvf := false
  sample0 := 0
  sample1 := 0
  pend := []
  irqVec := 0
  irqPort := .a
  irqEn := false

/-- All seven pages. -/
def initPerf : Vector PerfPage 7 :=
  #v[initPage true, initPage true, initPage true, initPage true, initPage false, initPage false, initPage false]

/-- A bandwidth window at its reset values (R539). -/
def initBw : BwWindow where
  us := 0x3E8
  rd := 0
  wr := 0
  rx := 0
  tx := 0
  seq := 0
  accRd := 0
  accWr := 0

/-- LABEL_CFG and the label counters (R409, R415). -/
def initLabel : LabelSt where
  cshare := 8
  qshare := 4
  rd := 0
  wr := 0
  batts := 0
  overs := 0

/-- A heel request that is not raised. -/
def initHeel : Heel := { raised := false, enforced := false, deadline := 0 }

/-- Housekeeping (R468): bands Nominal, ROUND 1, GRACE 10. -/
def initTherm : ThermSt where
  dramBand := 1
  dieBand := 1
  critical := false
  blind := false
  dramT := 0
  dieT := 0
  rounds := 0
  round := 1
  grace := 10
  graceIn := 10
  dieHeel := initHeel
  dramHeel := initHeel
  capHeel := Vector.replicate 4 initHeel
  throttle := 0
  stepUpAt := none
  downFrom := 0
  sensors := []
  inletWarn := false
  dramOver := false
  dieOver := false
  test := none
  hold := false

/-- Power states and the power registers (R484, R497). -/
def initPower : PowerSt where
  idleUs := 0x64
  retain := 3
  state := 0
  last := 0
  cause := 0
  retained := 0
  ready := 0
  entry := 0
  entries := 0
  target := 0
  phase := 0
  sleepAfter := none
  wakePend := false
  ilim := 0x34
  pwrErr := 0
  vinMv := 0
  iin := 0
  fetT := 0
  workAt := 0

/-- Service processors after a module reset: both booting (R519). -/
def initProc : ProcSt where
  sp1Active := false
  sp0 := .booting
  sp1 := .booting
  recovery := false
  bank := false
  debug := false
  takeovers := 0
  fwver := 0
  svn := 0
  wdtMs := 10
  kickAt := 0
  bootDone := false
  cdat := romSet
  flashBusy := none
  spTest := none
  queue := []
  lastTurn := .b
  scratch := Vector.replicate 4 0

/-- The connector: no dynamic address, IDCODE selected (R566, R570); `boundary` holds zeros. -/
def initConn (addrSel : BitVec 3) (gangEn : Bool) : ConnSt where
  addrSel := addrSel
  gangEn := gangEn
  da := 0
  daValid := false
  header := none
  posted := none
  ir := 1
  boundary := 0
  tapReset := false
  held := []

/-- A bank image as the model's reset flash holds it (log entry 3): it verifies, maps no region, and carries no image
set that passes *Load checks*. -/
def emptyBank : BankImage where
  fault := 0
  svn := 0
  fwver := 0
  debug := false
  kek := 0
  srisA := false
  srisB := false
  metaWays := 0
  sealR := Vector.replicate 4 { base := 0, gran := 0, metaBase := 0, metaGran := 0 }
  elastic := Vector.replicate 4 [0, 0, 0, 0, 0, 4]
  tierPar := [1000, 8, 4, 12]
  runtimeLoad := true
  wdtMs := 10
  regions := []
  imageSet := []

/-- The flash of a new module (log entry 3): bank 0 as `emptyBank`, bank 1 not valid, nothing recorded. -/
def initFlash : Flash where
  bank0 := some emptyBank
  bank1 := none
  wcount0 := 0
  wcount1 := 0
  select := false
  minSvn := 0
  dieMarks := []
  chMarks := []
  ways := []
  copyFail := []
  coreFail := []
  oscFail := []
  trip := 0
  fatal := []

end Sys2Proof.Machine
end

