-- ==== Sys2Proof/Machine/State.lean ====
section
/-! DEFINITION. Machine/State.lean: the state of the MS-2048: the power front end, the module behind it, and the queue
of commands that wait. Every field is plain data. -/
namespace Sys2Proof.Machine

/-- Everything behind the front end: what a module reset (R176) loads. -/
structure Mod where
  tb      : Timebase
  ev      : Events
  /-- what the module has sent, newest first (the model's record) -/
  out     : List Out
  sched   : Sched
  packs   : Vector PackSt 8
  tests   : Vector (Option ChanTest) 4
  wbuf    : Vector (List WEntry) 4
  /-- batts that wait in the stage before the write buffer (R110): engines and metadata transit entries hold them -/
  wbWait  : Vector (List WEntry) 4
  /-- batts read for work that still waits for others -/
  here    : List Here
  /-- tiles whose fill frame runs (R69) -/
  filling : BitVec 4
  /-- DRAM: stored bytes by device address, in the canonical form of `memWf`; an unlisted address reads as zero -/
  mem     : List Host.Cell
  slices  : Vector Slice 4
  insert  : BitVec 16
  filters : Vector FilterSt 4
  /-- tag of the next BISnp -/
  snpTag  : Nat
  /-- accesses of engines to sectors through the home slices (R585), and the number of the next -/
  acc     : List Access
  accId   : Nat
  /-- admin commands that wait for accesses, oldest first -/
  parked  : List Parked
  ports   : Two PortSt
  viral   : Bool
  prot    : Protect
  tiers   : Vector TierSt 4
  fullers : Vector Fuller 8
  jobs    : List Job
  /-- stream contexts that jobs have left (R311): the state part and the stream's input so far -/
  ctxs    : List (List Byte × List Byte)
  rings   : Two RingsSt
  qs      : QueueSt
  egress  : EgressSt
  cpools  : List (Nat × CounterPool)
  gang    : GangSt
  perf    : Vector PerfPage 7
  perfUser : BitVec 4
  bw      : Two BwWindow
  labels  : Vector LabelSt 8
  therm   : ThermSt
  power   : PowerSt
  proc    : ProcSt
  flash   : Flash
  conn    : ConnSt
  slotSel : BitVec 22
  slotSet : Word64
  /-- the model's own counter: how many undefined values have been drawn (log entry 5) -/
  free    : Nat
  deriving DecidableEq, Repr, Inhabited

/-- The state of the block. -/
structure State where
  fe      : FrontEnd
  m       : Mod
  pending : List Instr
  deriving DecidableEq, Repr, Inhabited

/-- Why a step stops with a fault: no command of this block does, so there is no reason. -/
inductive Fault where
  deriving DecidableEq, Repr

/-- Why a command is refused. -/
inductive Refusal where
  /-- raised by exec for a command that has no meaning yet; safe -/
  | notModelled (mnemonic : String)
  deriving DecidableEq, Repr

/-- The module right after a module reset at time `now`, with its straps (R13, R564) and the flash it keeps (R176). -/
def resetMod (now : Nat) (addrSel : BitVec 3) (gangEn : Bool) (flash : Flash) (out : List Out) (free : Nat) : Mod where
  tb := { initTimebase with now := now, resetAt := now }
  ev := initEvents
  out := out
  sched := { initSched with frameStart := now }
  packs := Vector.replicate 8 initPack
  tests := Vector.replicate 4 none
  wbuf := Vector.replicate 4 []
  wbWait := Vector.replicate 4 []
  here := []
  filling := 0
  mem := []
  slices := Vector.replicate 4 initSlice
  insert := 0xAAAA
  filters := Vector.replicate 4 initFilter
  snpTag := 0
  acc := []
  accId := 0
  parked := []
  ports := ⟨initPort, initPort⟩
  viral := false
  prot := initProtect
  tiers := Vector.replicate 4 initTier
  fullers := Vector.replicate 8 initFuller
  jobs := []
  ctxs := []
  rings := ⟨initRings, initRings⟩
  qs := initQueues
  egress := initEgress
  cpools := []
  gang := initGang gangEn
  perf := initPerf
  perfUser := 0
  bw := ⟨initBw, initBw⟩
  labels := Vector.replicate 8 initLabel
  therm := { initTherm with downFrom := now }
  power := { initPower with workAt := now }
  proc := { initProc with kickAt := now }
  flash := flash
  conn := initConn addrSel gangEn
  slotSel := 0
  slotSet := 0
  free := free

/-- The machine right after reset: PG_OUT asserted, the module at its reset values, nothing pending. -/
def State.reset : State where
  fe := initFront
  m := resetMod 0 0 false initFlash [] 0
  pending := []

end Sys2Proof.Machine
end

