-- ==== Sys2Proof/Machine/Ops.lean ====
section
/-! DEFINITION. Machine/Ops.lean: the named operations that the meanings share: sparse tables, the DRAM image, sending,
events, performance counting, wake causes. -/
namespace Sys2Proof.Machine

/-- The outcome of a command. -/
abbrev Res := Host.Outcome State Fault Refusal

/-- A command's effect on the module behind the front end. While the die has no power nothing reaches it. -/
def onMod (f : Mod → Mod) (s : State) : State := if s.fe.powered then { s with m := f s.m } else s

/-- A command with an effect on the module alone always answers a next state. -/
def modStep (f : Mod → Mod) (s : State) : Res := .next (onMod f s)

/-- A command with an effect of the fabric's engines: after a Critical shutdown they stand still (R465). -/
def engineStep (f : Mod → Mod) (s : State) : Res := modStep (fun m => if m.therm.critical then m else f m) s

/-! ### Sparse tables -/

/-- The value that a table lists for `k`, or `d`. -/
def tabGet {α : Type} (d : α) (t : List (Nat × α)) (k : Nat) : α :=
  match t.find? (fun e => e.1 == k) with
  | some e => e.2
  | none => d

/-- Whether a table lists `k`. -/
def tabHas {α : Type} (t : List (Nat × α)) (k : Nat) : Bool := t.any (fun e => e.1 == k)

/-- A table without `k`. -/
def tabDel {α : Type} (t : List (Nat × α)) (k : Nat) : List (Nat × α) := t.filter (fun e => e.1 != k)

/-- A table with `v` at `k`, keys rising. -/
def tabPut {α : Type} (t : List (Nat × α)) (k : Nat) (v : α) : List (Nat × α) :=
  t.filter (fun e => e.1 < k) ++ (k, v) :: t.filter (fun e => k < e.1)

/-- A table with the value at `k` changed by `f`. -/
def tabMod {α : Type} (d : α) (t : List (Nat × α)) (k : Nat) (f : α → α) : List (Nat × α) :=
  tabPut t k (f (tabGet d t k))

/-! ### The DRAM image: stored data bytes by device address (R44, R46) -/

/-- The canonical form: addresses strictly rising, no byte that an unlisted address reads as. -/
def memWf (m : List Host.Cell) : Bool :=
  (m.zip m.tail).all (fun p => p.1.1 < p.2.1) && m.all (fun c => c.2 != 0)

/-- One stored byte; zero where nothing is listed, as the fill frame leaves it (R69). -/
def memByte (m : List Host.Cell) (a : Nat) : Byte := tabGet 0 m a

/-- `n` stored bytes from `a` upward. -/
def memBytes (m : List Host.Cell) (a n : Nat) : List Byte := (List.range n).map (fun i => memByte m (a + i))

/-- The cells that a byte string leaves at `a` upward. -/
def memCells (a : Nat) (l : List Byte) : List Host.Cell :=
  (l.mapIdx (fun i b => (a + i, b))).filter (fun c => c.2 != 0)

/-- Store a byte string at `a` upward. -/
def memWrite (m : List Host.Cell) (a : Nat) (l : List Byte) : List Host.Cell :=
  m.filter (fun c => c.1 < a) ++ memCells a l ++ m.filter (fun c => a + l.length ≤ c.1)

/-- Zero `n` bytes from `a` upward. -/
def memZero (m : List Host.Cell) (a n : Nat) : List Host.Cell :=
  m.filter (fun c => c.1 < a) ++ m.filter (fun c => a + n ≤ c.1)

/-- The stored data of the batt at `da`. -/
def memBatt (m : List Host.Cell) (da : Nat) : Batt := ofBytes 2048 (memBytes m da 256)

/-- Store a batt. -/
def memPutBatt (m : List Host.Cell) (da : Nat) (b : Batt) : List Host.Cell := memWrite m da (toBytes b 256)

/-! ### Time, tables of the schedule -/

/-- Nanoseconds since the module reset (R415). -/
def upTime (m : Mod) : Nat := m.tb.now - m.tb.resetAt

/-- The TIME field of an event: microseconds since module reset, low 32 bits (R341). -/
def evTime (m : Mod) : Word32 := BitVec.ofNat 32 (upTime m / 1000)

/-- The running variant's table entry (R121). -/
def curVariant (m : Mod) : Variant := m.sched.active.variants.getD m.sched.variant default

/-- The slot number of the running frame: slots of 5/3 ns at 9600 MT/s and 15/8 ns at 8533 MT/s since slot 0 (R80). -/
def curSlot (m : Mod) : Nat :=
  let dt := m.tb.now - m.sched.frameStart
  let v := curVariant m
  min (if v.fsp then dt * 8 / 15 else dt * 3 / 5) (v.frame - 1)

/-! ### Sending -/

/-- Record one thing sent. -/
def send (o : Out) (m : Mod) : Mod := { m with out := o :: m.out }

/-- Change one port. -/
def onPort (p : Port) (f : PortSt → PortSt) (m : Mod) : Mod := { m with ports := m.ports.set p (f (m.ports.get p)) }

/-- Change one pack. -/
def onPack (p : Pack) (f : PackSt → PackSt) (m : Mod) : Mod := { m with packs := m.packs.set p (f m.packs[p]) }

/-- Change one slice. -/
def onSlice (t : Tile) (f : Slice → Slice) (m : Mod) : Mod := { m with slices := m.slices.set t (f m.slices[t]) }

/-- Change one filter slice. -/
def onFilter (t : Tile) (f : FilterSt → FilterSt) (m : Mod) : Mod := { m with filters := m.filters.set t (f m.filters[t]) }

/-- Change one tile's tier state. -/
def onTier (t : Tile) (f : TierSt → TierSt) (m : Mod) : Mod := { m with tiers := m.tiers.set t (f m.tiers[t]) }

/-- Change the rings of one port. -/
def onRings (p : Port) (f : RingsSt → RingsSt) (m : Mod) : Mod := { m with rings := m.rings.set p (f (m.rings.get p)) }

/-- Change one class label's settings and counters. -/
def onLabel (n : BitVec 3) (f : LabelSt → LabelSt) (m : Mod) : Mod :=
  { m with labels := m.labels.set n.toNat (f (m.labels[n.toNat]'n.isLt)) n.isLt }

/-- Send an MSI-X message (R335, R537): a masked vector sets its pending bit; a port in reset receives none. -/
def msix (p : Port) (vec : Nat) (m : Mod) : Mod :=
  if (m.ports.get p).inReset || !(m.ports.get p).linkUp then m
  else if !(m.ports.get p).msixOn.contains vec then
    onPort p (fun q => { q with msixPend := if q.msixPend.contains vec then q.msixPend else vec :: q.msixPend }) m
  else
    let e := tabGet (0, 0) (m.ports.get p).msixTab vec
    send (.msix p vec e.1 e.2) m

/-- An uncorrectable error is recorded in AER, and a condition in the CXL RAS Capability (R183). -/
def setAer (p : Port) (e : AerErr) (m : Mod) : Mod := onPort p (fun q => { q with aer := e :: q.aer.filter (· != e) }) m
def setRas (p : Port) (e : RasErr) (m : Mod) : Mod := onPort p (fun q => { q with ras := e :: q.ras.filter (· != e) }) m

/-! ### Performance counting (R531 to R538) -/

/-- Add `n` to counter `i` of a page, carrying into a chained neighbour; an overflow is acted on by PERF_OVERFLOW (R533). -/
def perfAdd (i n : Nat) (e : PerfEvt) (p : PerfPage) : PerfPage :=
  if h : i < 8 then
    let c : PerfCtr := p.ctrs[i]
    if c.count + n < 2 ^ 48 then { p with ctrs := p.ctrs.set i { c with count := c.count + n } }
    else
      let p := { p with ctrs := p.ctrs.set i { c with count := (c.count + n) % 2 ^ 48 } }
      if h' : i % 2 = 0 ∧ i + 1 < 8 then
        let d : PerfCtr := p.ctrs[i + 1]'(by omega)
        if d.chain && !d.en then p
        else if d.chain then
          if d.count + 1 < 2 ^ 48 then { p with ctrs := p.ctrs.set (i + 1) { d with count := d.count + 1 } }
          else { p with ctrs := p.ctrs.set (i + 1) { d with count := 0 }, pend := p.pend ++ [(i + 1, e)] }
        else { p with pend := p.pend ++ [(i, e)] }
      else { p with pend := p.pend ++ [(i, e)] }
  else p

/-- Whether counter `c` counts the event `e` of a pack of parity `odd` (R531, R532). -/
def perfMatch (c : PerfCtr) (e : PerfEvt) (odd : Option Bool) : Bool :=
  c.en && !c.chain && c.occ == 0 && c.event == e.event && (c.qual == 15 || e.qual == 15 || c.qual == e.qual) &&
    (match odd with
     | none => true
     | some o => c.pack == 2 || (c.pack == 1) == o)

/-- The counters hold their values in Sleep and Deep sleep (R538). -/
def perfHeld (m : Mod) : Bool := m.power.state == 2 || m.power.state == 3

/-- Count one event on a page, unless the counters hold or the page is frozen (R534). -/
def perfCount (page : Fin 7) (e : PerfEvt) (odd : Option Bool) (m : Mod) : Mod :=
  if perfHeld m || m.perf[page].freeze then m
  else
    let pg := (List.range 8).foldl (fun p i =>
      if perfMatch ((m.perf[page]).ctrs.toList.getD i default) e odd then perfAdd i 1 e p else p) m.perf[page]
    { m with perf := m.perf.set page pg }

/-- An event without an address or a slot. -/
def perfPlain (event qual : Nat) : PerfEvt := { event := event, qual := qual, keyId := 0, addr := none, slot := 0 }

/-- An event of a request (R536): its qualifier, key id and logical offset. -/
def perfReq (event qual : Nat) (key : BitVec 6) (off : Nat) : PerfEvt :=
  { event := event, qual := qual, keyId := key.toNat, addr := some (false, off), slot := 0 }

/-- An event of a slot, with the device address of its request if it has one. -/
def perfSlot (event qual slot : Nat) (da : Option Nat) : PerfEvt :=
  { event := event, qual := qual, keyId := 0, addr := da.map (fun a => (true, a)), slot := slot }

/-- The page of a tile, of a port's half, of the device (R529). -/
def tilePage (t : Tile) : Fin 7 := ⟨t.val, by omega⟩
def halfPage : Port → Fin 7
  | .a => 4
  | .b => 5
def devPage : Fin 7 := 6

/-! ### Wake causes (R493, R495) -/

/-- Record work that R488 names. -/
def touch (m : Mod) : Mod := { m with power := { m.power with workAt := m.tb.now } }

/-- A wake cause of *Wake causes* arrives. In Idle and Sleep an exit begins; during an entry it abandons the entry before
commit, and waits for its end after commit (R495). Critical shutdown outranks every wake cause. -/
def wake (code : Nat) (m : Mod) : Mod :=
  let p := m.power
  if m.therm.critical then m
  else if p.state == 1 && (code ≤ 4 || code == 8) then
    { m with power := { p with state := 5, last := 1, cause := code } }
  else if p.state == 2 && code ≤ 8 && code != 7 then
    { m with power := { p with state := 5, last := 2, cause := code } }
  else if p.state == 3 && (code == 5 || code == 6 || code == 7) then
    { m with power := { p with state := 5, last := 3, cause := code, phase := 1 } }
  else if p.state == 4 && (p.target == 2 && code != 7 || p.target == 3 && (code == 5 || code == 6 || code == 7)) then
    if p.phase == 0 then
      let m := if p.target == 3 then { m with slices := m.slices.map (fun (s : Slice) => { s with flush := false }) } else m
      { m with power := { p with state := 0, entry := 2, target := 0 } }
    else { m with power := { p with wakePend := true, cause := if p.wakePend then p.cause else code } }
  else m

/-! ### Events (R516 to R518, R554) -/

/-- The event ring that a port has enabled, if any: type 0xA with ENABLE set (R320, R342). A halted one counts. -/
def eventRing (m : Mod) (p : Port) : Option Nat :=
  ((m.rings.get p).rings.find? (fun r => r.2.cfg.getLsbD 0 && (bitsOf r.2.cfg 1 4 == 10#4))).map (·.1)

/-- Entries that occupy the part of the FIFO open to every severity (R516). -/
def evLow (l : List EvEntry) : Nat := (l.filter (fun e => e.sev < 3)).length

/-- Whether an event or a summary of a severity may take an entry: 4,096 in all, 4,080 below severity 3 (R516). -/
def evFits (l : List EvEntry) (sev : Nat) : Bool := l.length < 4096 && (sev == 3 || evLow l < 4080)

/-- The merge key of an event (R517): pack and class for slot-missed, tile for elastic-write-refused. -/
def evKey (kind : BitVec 16) (loc : Word32) (data : Word64) : BitVec 8 :=
  if kind = 0x0101#16 then (bitsOf loc 0 3).setWidth 8 <<< 4 ||| (bitsOf data 16 4).setWidth 8
  else if kind = 0x0602#16 then (bitsOf data 42 2).setWidth 8
  else 0

/-- Merge an event into the coalescing counter of its kind and key (R517). -/
def evMerge (kind : BitVec 16) (key : BitVec 8) (sev : Nat) (loc frame time : Word32) (l : List Coalesced) :
    List Coalesced :=
  if l.any (fun c => c.kind == kind && c.key == key) then
    l.map (fun c => if c.kind == kind && c.key == key then
      { c with count := satAdd 0xFFFF_FFFF c.count 1, sev := max c.sev sev } else c)
  else l ++ [{ kind := kind, key := key, count := 1, sev := sev, loc := loc, frame := frame, time := time }]

/-- An event of a kind occurs (R518), with its frame number: it sets its alert bit (R554), enters the FIFO with the next
SEQ or merges (R517), leaves a line on the UART and in the fatal log, and is a wake cause where a ring will take it. -/
def raiseAt (frame : Word32) (kind : BitVec 16) (sev : Nat) (loc : Word32) (data : Word64) (m : Mod) : Mod :=
  let ev := if m.ev.mask.getLsbD sev then { m.ev with sev := putBit m.ev.sev sev true } else m.ev
  let m := if 2 ≤ sev && (m.proc.sp0 == .active || m.proc.sp1 == .active) && m.conn.ir != 3 then send (.uart kind) m else m
  let m := if sev == 3 then { m with flash := { m.flash with fatal := (kind :: m.flash.fatal).take 1024 } } else m
  if evFits ev.fifo sev then
    let e : EvEntry := { seq := ev.nextSeq, kind := kind, sev := sev, frame := frame, loc := loc, data := data,
                         time := evTime m, takenA := false, takenB := false }
    let m := { m with ev := { ev with fifo := ev.fifo ++ [e], nextSeq := ev.nextSeq + 1 } }
    let m := perfCount devPage (perfPlain 0x0D 15) none m
    if (eventRing m .a).isSome || (eventRing m .b).isSome then wake 8 m else m
  else
    perfCount devPage (perfPlain 0x0E 15) none
      { m with ev := { ev with co := evMerge kind (evKey kind loc data) sev loc frame (evTime m) ev.co } }

/-- An event in the running frame. -/
def raise (kind : BitVec 16) (sev : Nat) (loc : Word32) (data : Word64) (m : Mod) : Mod :=
  raiseAt m.sched.frameNo kind sev loc data m

/-- The fixed severity of each kind (*Event kinds*, R518). -/
def evSeverity (kind : BitVec 16) : Nat :=
  if kind ∈ [0x0102#16, 0x0A02] then 0
  else if kind ∈ [0x0104#16, 0x0107, 0x0502, 0x0C04, 0x0D04, 0x0D06] then 3
  else if kind ∈ [0x0202#16, 0x0203, 0x0204, 0x0205, 0x0302, 0x0306, 0x0307, 0x0402, 0x0404, 0x0405, 0x0503, 0x0601,
    0x0701, 0x0807, 0x0B01, 0x0B02, 0x0B04, 0x0C05, 0x0C07, 0x0D02, 0x0D03, 0x0D05] then 2
  else 1

/-- An event of a kind in the running frame, with its location code and DATA. -/
def event (kind : BitVec 16) (loc : Word32) (data : Nat) (m : Mod) : Mod :=
  raise kind (evSeverity kind) loc (BitVec.ofNat 64 data) m

/-- The first counter whose summary may take a free entry (R517), and the counters without it. -/
def coTake (fifo : List EvEntry) (l : List Coalesced) : Option (Coalesced × List Coalesced) :=
  match l.find? (fun c => evFits fifo c.sev) with
  | none => none
  | some c => some (c, l.filter (fun d => !(d.kind == c.kind && d.key == c.key)))

/-- After an entry has left: post one summary into it when a counter may use it (R517). -/
def evRefill (ev : Events) : Events :=
  match coTake ev.fifo ev.co with
  | none => ev
  | some (c, rest) =>
    { ev with co := rest, nextSeq := ev.nextSeq + 1, fifo := ev.fifo ++
        [{ seq := ev.nextSeq, kind := 0xFFFF, sev := c.sev, frame := c.frame, loc := c.loc, time := c.time,
           data := c.kind.setWidth 64 ||| (c.key.setWidth 64 <<< 16) ||| (BitVec.ofNat 64 c.count <<< 24),
           takenA := false, takenB := false }] }

/-- Whether ALERT_N is asserted (R554). -/
def alertN (m : Mod) : Bool := m.ev.sev != 0 || m.ev.crit

/-! ### Location codes (R26) -/

/-- A location code: the pack, and each other field where it is resolved. -/
def locCode (pack : Nat) (chpos die rank bank pkg chan : Option Nat) : Word32 :=
  BitVec.ofNat 32 (pack + chpos.getD 15 * 2 ^ 3 + die.getD 3 * 2 ^ 7 + rank.getD 7 * 2 ^ 9 + bank.getD 31 * 2 ^ 12 +
    pkg.getD 63 * 2 ^ 17 + chan.getD 127 * 2 ^ 23 + 2 ^ 31)

/-- The package that carries channel position `pos` of a pack (R42). -/
def pkgOf (pack pos : Nat) : Nat := 9 * (pack / 2) + (if pack % 2 = 1 then pos else (pos + 4) % 9)

/-- A channel's location code: PACK, CHPOS, PKG and CHANNEL resolved. -/
def locChannel (pack pos : Nat) : Word32 :=
  locCode pack (some pos) none none none (some (pkgOf pack pos)) (some (9 * pack + pos))

/-- A die's location code (byte position `p` of a rank): BANK not resolved. -/
def locDie (pack rank p : Nat) : Word32 :=
  locCode pack (some (p / 2)) (some (p % 2)) (some rank) none (some (pkgOf pack (p / 2))) (some (9 * pack + p / 2))

end Sys2Proof.Machine
end

