-- ==== Sys2Proof/Machine/Images.lean ====
section
/-! DEFINITION. Machine/Images.lean: image sets: their fields, slot words, shares and port budgets (R120 to R124, R167),
*Load checks* (R126), and the choice of a variant (R131). -/
namespace Sys2Proof.Machine

/-- The little-endian number in `n` bytes from `off`. -/
def leAt (l : List Byte) (off n : Nat) : Nat := leNat ((l.drop off).take n)

/-- Variant table entry `i` (R121). -/
def parseVariant (l : List Byte) (i : Nat) : Variant :=
  let o := 0x80 + 32 * i
  { bands := BitVec.ofNat 4 (leAt l o 1), throttle := leAt l (o + 1) 1, fsp := leAt l (o + 2) 1 == 1,
    refreshM := leAt l (o + 3) 1, frame := leAt l (o + 4) 4, bindLead := leAt l (o + 8) 1,
    secOffset := leAt l (o + 12) 4, secLength := leAt l (o + 16) 4 }

/-- The image set that a file spells (R120). -/
def parseImage (l : List Byte) : ImageSet where
  rom := false
  setId := BitVec.ofNat 64 (leAt l 8 8)
  dieProfile := BitVec.ofNat 32 (leAt l 0x14 4)
  qxcVersion := BitVec.ofNat 32 (leAt l 0x10 4)
  scrubHours := leAt l 0x19 1
  variants := (List.range (leAt l 0x18 1)).map (parseVariant l)
  bytes := l

/-- The variant of an index. -/
def varAt (s : ImageSet) (vi : Nat) : Variant := s.variants.getD vi default

/-- The data slots of the ROM set's 64-slot period: position, class, and whether the slot opens a cell group (R127). -/
def romData : List (Nat × Nat × Bool) :=
  [(0, 1, true), (1, 1, false), (2, 1, false), (3, 1, false), (16, 2, true), (17, 2, false), (18, 2, false), (19, 2, false),
   (8, 3, false), (11, 4, false), (24, 5, false), (27, 6, false), (40, 7, false), (43, 10, false), (56, 11, false)]

/-- A slot of the ROM set (R127): in each of 64 periods every data-carrying class has one data slot, or one cell group, of one
bank, so that every bank comes once in a frame and the slots of a class are evenly spaced; no OPEN slot; a REFRESH slot every 16
slots takes the 32 bank pairs in turn, a TRAIN slot stands in every period. Which bank comes first, where the period starts and
what the command slots hold is open (log entry 37). -/
def romWord (vi tile slot : Nat) : Word64 :=
  let s := (slot + Config.romShift vi tile) % 4096
  let bank := (s / 64) ^^^ (Config.romOrder vi tile % 64)
  let any := Config.romSlotWord vi tile slot
  match romData.find? (fun d => d.1 == s % 64) with
  | some d => BitVec.ofNat 64 (d.2.1 + 16 + bank * 32 + (if d.2.2 then 2048 else 0))
  | none =>
    if s % 16 = 15 then BitVec.ofNat 64 (8 + 8 * 2 ^ 16 + (s / 16 % 4 * 16 + s / 64 % 8) * 2 ^ 20)
    else if s % 64 = 30 then BitVec.ofNat 64 (9 + 11 * 2 ^ 16)
    else putBits (any &&& 0x0000FFFFFFFF0000#64) 0 (BitVec.ofNat 4 ([1, 2, 3, 4, 5, 6, 7, 10, 11].getD (any.toNat % 9) 1))

/-- The word of a slot (R123). -/
def slotWordOf (s : ImageSet) (vi tile slot : Nat) : Word64 :=
  if s.rom then romWord vi tile slot
  else BitVec.ofNat 64 (leAt s.bytes ((varAt s vi).secOffset + 8 * (tile * (varAt s vi).frame + slot)) 8)

def swClass (w : Word64) : Nat := (bitsOf w 0 4).toNat
def swData (w : Word64) : Bool := w.getLsbD 4
def swBank (w : Word64) : Nat := (bitsOf w 5 6).toNat
def swFirst (w : Word64) : Bool := w.getLsbD 11
def swOp (w : Word64) (i : Nat) : Nat := (bitsOf w (16 + 16 * i) 4).toNat
def swTgt (w : Word64) (i : Nat) : Nat := (bitsOf w (20 + 16 * i) 6).toNat
def swLead (w : Word64) (i : Nat) : Nat := (bitsOf w (26 + 16 * i) 6).toNat

/-- The words of a tile's pattern. -/
def pattern (s : ImageSet) (vi tile : Nat) : List Word64 :=
  (List.range (varAt s vi).frame).map (slotWordOf s vi tile)

/-- Byte offset of a variant's share table. -/
def shareOff (s : ImageSet) (vi : Nat) : Nat := (varAt s vi).secOffset + 32 * (varAt s vi).frame

/-- The OPEN share S_c (R98); the set in ROM has no OPEN slots (R127). -/
def shareOf (s : ImageSet) (vi tile cls : Nat) : Nat :=
  if s.rom then 0 else leAt s.bytes (shareOff s vi + 32 * tile + 2 * cls) 2

/-- The declared-class mask of a tile (R122); the set in ROM gives every data-carrying class its slots. -/
def maskOf (s : ImageSet) (vi tile : Nat) : Nat :=
  if s.rom then 0x0CFE else leAt s.bytes (shareOff s vi + 128 + 2 * tile) 2

/-- READ_ENTRIES, WRITE_ENTRIES and FETCH_BUDGET of a port and label (R167). The set in ROM has the default division of
R169 and of *Rings and doorbells* (log entry 12). -/
def budgetOf (s : ImageSet) (vi : Nat) (p : Port) (label : Nat) : Nat × Nat × Nat :=
  if s.rom then (512, 128, 500)
  else
    let o := shareOff s vi + 256 + 128 * p.num + 16 * label
    (leAt s.bytes o 2, leAt s.bytes (o + 2) 2, leAt s.bytes (o + 4) 4)

/-- The budget in force. -/
def curBudget (m : Mod) (p : Port) (label : BitVec 3) : Nat × Nat × Nat :=
  budgetOf m.sched.active m.sched.variant p label.toNat

/-! ### Load checks (R126) -/

/-- A failing check: its code with the variant, tile and slot of the failure, where they apply. -/
structure LoadFail where
  code    : Nat
  variant : Nat := 0
  tile    : Nat := 0
  slot    : Nat := 0
  deriving DecidableEq, Repr, Inhabited

/-- The first element of a list for which `f` finds a failure. -/
def firstFail {α : Type} (l : List α) (f : α → Option LoadFail) : Option LoadFail := l.findSome? f

/-- Check 0x01. `buf`: the length of the command's buffer. -/
def checkFormat (l : List Byte) (buf : Nat) : Option LoadFail :=
  let total := leAt l 0x1C 4
  let n := leAt l 0x18 1
  let vs := (List.range n).map (parseVariant l)
  let inside (v : Variant) : Bool := 0x180 ≤ v.secOffset && v.secOffset + v.secLength ≤ total - 48
  let apart (i j : Nat) : Bool :=
    let a := vs.getD i default
    let b := vs.getD j default
    a.secOffset + a.secLength ≤ b.secOffset || b.secOffset + b.secLength ≤ a.secOffset
  if leAt l 0 4 ≠ 0x4D495851 ∨ leAt l 4 2 ≠ 1 ∨ total > 9 * 2 ^ 20 ∨ total > buf ∨ total < 0x180 + 48 ∨ n < 1 ∨ 8 < n then
    some { code := 1 }
  else firstFail (List.range n) (fun i =>
    let v := vs.getD i default
    if v.secOffset % 4096 ≠ 0 ∨ v.secLength ≠ 32 * v.frame + 512 ∨ !inside v ∨
        !((List.range i).all (apart i)) then some { code := 1, variant := i } else none)

/-- Check 0x02. -/
def checkSum (l : List Byte) : Option LoadFail :=
  let total := leAt l 0x1C 4
  let n := leAt l 0x18 1
  let hdr := l.take 0x98 ++ [0, 0, 0, 0] ++ ((l.take 0x180).drop 0x9C)
  let secOk (i : Nat) : Bool :=
    let v := parseVariant l i
    (crc32c ((l.drop v.secOffset).take v.secLength)).toNat == leAt l (0x80 + 32 * i + 20) 4
  if (crc32c hdr).toNat ≠ leAt l 0x98 4 then some { code := 2 }
  else match (List.range n).find? (fun i => !secOk i) with
    | some i => some { code := 2, variant := i }
    | none => if sha384 (l.take (total - 48)) = (l.take total).drop (total - 48) then none else some { code := 2 }

/-- Check 0x03 (R125). -/
def checkStore (s : ImageSet) : Option LoadFail :=
  if 262144 < (s.variants.map (·.frame)).sum then some { code := 3 } else none

/-- Whether a slot word has its fields in range and its reserved bits zero. -/
def slotOk (w : Word64) : Bool :=
  swClass w < 12 && bitsOf w 12 4 == 0#4 && bitsOf w 48 16 == 0#16 && swOp w 0 < 13 && swOp w 1 < 13

/-- Check 0x04: ranges and reserved fields (R120 to R123, R168). -/
def checkRange (l : List Byte) (s : ImageSet) : Option LoadFail :=
  let n := s.variants.length
  let hdrOk := leAt l 6 2 == 0 && s.setId != 0 && 1 ≤ s.scrubHours && s.scrubHours ≤ 168 && leAt l 0x1A 2 == 0 &&
    ((l.drop (0x80 + 32 * n)).take (32 * (8 - n))).all (· == 0)
  let varOk (i : Nat) : Bool :=
    let o := 0x80 + 32 * i
    let v := varAt s i
    leAt l o 1 < 16 && v.throttle ≤ 3 && leAt l (o + 2) 1 ≤ 1 && [1, 2, 4].contains v.refreshM && 1024 ≤ v.frame &&
      v.frame ≤ 65536 && v.frame % 64 == 0 && 8 ≤ v.bindLead && v.bindLead ≤ 48 && leAt l (o + 9) 3 == 0 &&
      leAt l (o + 28) 4 == 0 && (i == 0 || leAt l (o + 24) 4 == 0)
  let shareOk (i t : Nat) : Bool :=
    (List.range 16).all (fun c => shareOf s i t c ≤ 256 &&
      (match SlotClass.ofCode c with
       | some k => k.openEligible || shareOf s i t c == 0
       | none => shareOf s i t c == 0))
  let maskOk (i t : Nat) : Bool :=
    (maskOf s i t).testBit 7 && maskOf s i t &&& 0xF301 == 0 && maskOf s i t == maskOf s 0 t
  let tailOk (i : Nat) : Bool := ((l.drop (shareOff s i + 136)).take 120).all (· == 0)
  let budOk (i : Nat) : Bool := [Port.a, Port.b].all (fun p =>
    ((List.range 8).map (fun k => (budgetOf s i p k).1)).sum ≤ 4096 &&
    ((List.range 8).map (fun k => (budgetOf s i p k).2.1)).sum ≤ 1024 &&
    ((List.range 8).map (fun k => (budgetOf s i p k).2.2 % 8192)).sum ≤ 4000 &&
    (List.range 8).all (fun k => (budgetOf s i p k).2.2 < 8192) &&
    (List.range 8).all (fun k => leAt l (shareOff s i + 256 + 128 * p.num + 16 * k + 8) 8 == 0))
  if !hdrOk then some { code := 4 }
  else firstFail (List.range n) (fun i =>
    if !varOk i || !tailOk i || !budOk i then some { code := 4, variant := i }
    else firstFail (List.range 4) (fun t =>
      if !shareOk i t || !maskOk i t then some { code := 4, variant := i, tile := t }
      else match (pattern s i t).findIdx? (fun w => !slotOk w) with
        | some k => some { code := 4, variant := i, tile := t, slot := k }
        | none => none))

/-- The refresh multiplier that a band asks for (R80). -/
def bandM (b : Nat) : Nat := if b = 3 then 4 else if b = 2 then 2 else 1

/-- Check 0x05: coverage. -/
def checkCover (s : ImageSet) : Option LoadFail :=
  let n := s.variants.length
  let one (b : Nat) : Bool := (s.variants.filter (fun v => v.throttle == 0 && v.bands.getLsbD b)).length == 1
  if !((List.range 4).all one) then some { code := 5 }
  else firstFail (List.range n) (fun i =>
    let v := varAt s i
    let clash := (List.range i).any (fun j => (varAt s j).throttle == v.throttle && (varAt s j).bands &&& v.bands != 0)
    let hot := v.bands.getLsbD 3
    let bad := clash || (hot && (v.bands != 8 || !v.fsp)) || (!hot && v.fsp) ||
      (List.range 4).any (fun b => v.bands.getLsbD b && v.refreshM < bandM b)
    if bad then some { code := 5, variant := i } else none)

/-- Check 0x07 (R94, first rule). -/
def checkBanks (s : ImageSet) : Option LoadFail :=
  firstFail (List.range s.variants.length) (fun i => firstFail (List.range 4) (fun t =>
    let p := pattern s i t
    let missing := (List.range 12).any (fun c => (maskOf s i t).testBit c &&
      (List.range 64).any (fun b => !(p.any (fun w => swData w && swClass w == c && swBank w == b))))
    if missing then some { code := 7, variant := i, tile := t } else none))

/-- Slot time in 1/24 ns: 40 at 9600 MT/s, 45 at 8533 MT/s (R80). -/
def slot24 (v : Variant) : Nat := if v.fsp then 45 else 40

/-- The start times in 1/24 ns of the slots of a pattern that satisfy `f`. -/
def slotTimes (s : ImageSet) (vi t : Nat) (f : Word64 → Bool) : List Nat :=
  ((pattern s vi t).mapIdx (fun k w => (k, w))).filterMap (fun x => if f x.2 then some (slot24 (varAt s vi) * x.1) else none)

/-- The gap from the last of `a` in variant `i` to the first of `b` in variant `j` across a swap, with its set-point gap of
0.5 µs (R106). -/
def swapGap (s : ImageSet) (i j : Nat) (a b : List Nat) : Nat :=
  slot24 (varAt s i) * (varAt s i).frame - a.getLastD 0 + b.headD 0 +
    (if (varAt s i).fsp == (varAt s j).fsp then 0 else 12000)

/-- Whether every gap inside a list of times is at most `w`. -/
def gapsOk (w : Nat) (a : List Nat) : Bool := (a.zip a.tail).all (fun p => p.2 - p.1 ≤ w)

/-- Whether the slots that satisfy `f` are never more than a window apart in any variant of a tile, across frame boundaries
and every swap; `w i` the window of variant i in 1/24 ns. A gap that crosses a swap between variants of different windows
must fit both, so the smaller: R95 states a window per variant and does not say which holds across the swap (DESIGN CHOICE, log
entry 102). -/
def spaced (s : ImageSet) (t : Nat) (f : Word64 → Bool) (w : Nat → Nat) : Option Nat :=
  let n := s.variants.length
  (List.range n).find? (fun i =>
    let a := slotTimes s i t f
    a.isEmpty || !gapsOk (w i) a ||
      (List.range n).any (fun j => min (w i) (w j) < swapGap s i j a (slotTimes s j t f)))

/-- Check 0x08 (R95): every REFRESH slot carries one REFpb or one RFM, and every bank pair of every rank has its REFpb in a
REFRESH slot within 3.906 µs / m; the pair of a bank is the bank modulo 8 (log entry 13). -/
def checkRefresh (s : ImageSet) : Option LoadFail :=
  let one (w : Word64) : Bool := swClass w != 8 || ([0, 1].filter (fun k => swOp w k == 8 || swOp w k == 9)).length == 1
  (firstFail (List.range s.variants.length) (fun i => firstFail (List.range 4) (fun t =>
    ((pattern s i t).findIdx? (fun w => !one w)).map (fun k => { code := 8, variant := i, tile := t, slot := k })))).orElse fun _ =>
  firstFail (List.range 4) (fun t => firstFail (List.range 32) (fun pr =>
    let hit (w : Word64) : Bool := swClass w == 8 && [0, 1].any (fun k =>
      swOp w k == 8 && swTgt w k / 16 == pr / 8 && swTgt w k % 8 == pr % 8)
    (spaced s t hit (fun i => 93744 / (varAt s i).refreshM)).map (fun i => { code := 8, variant := i, tile := t })))

/-- Check 0x09 (R54): a TRAIN slot in every window of 4 µs. -/
def checkTrain (s : ImageSet) : Option LoadFail :=
  firstFail (List.range 4) (fun t =>
    (spaced s t (fun w => swClass w == 9) (fun _ => 96000)).map (fun i => { code := 9, variant := i, tile := t }))

/-- Check 0x0A (R66): a SCRUB data slot in every 1,024 consecutive slots, cyclically. -/
def checkScrub (s : ImageSet) : Option LoadFail :=
  firstFail (List.range s.variants.length) (fun i => firstFail (List.range 4) (fun t =>
    let ks := ((pattern s i t).mapIdx (fun k w => (k, w))).filterMap
      (fun x => if swData x.2 && swClass x.2 == 7 then some x.1 else none)
    let ok := !ks.isEmpty && gapsOk 1024 ks && (varAt s i).frame - ks.getLastD 0 + ks.headD 0 ≤ 1024
    if ok then none else some { code := 10, variant := i, tile := t }))

/-- The command positions that serve the data slot `k` with an opcode in `ops`: LEAD the distance (modulo F), target its
bank; each by its LEAD. -/
def serversOf (p : List Word64) (f k bank : Nat) (ops : List Nat) : List Nat :=
  (p.mapIdx (fun q w => (q, w))).flatMap (fun x => [0, 1].filterMap (fun o =>
    if ops.contains (swOp x.2 o) && swLead x.2 o != 0 && (x.1 + swLead x.2 o) % f == k % f && swTgt x.2 o == bank
    then some (swLead x.2 o) else none))

/-- Whether the data slots from index `j` of a list start with a whole group: four of one class and bank, GFIRST on the
first alone. -/
def groupAt (ds : List (Nat × Word64)) : Bool :=
  match ds with
  | a :: b :: c :: d :: _ =>
    swFirst a.2 && [b, c, d].all (fun x => !swFirst x.2 && swClass x.2 == swClass a.2 && swBank x.2 == swBank a.2)
  | _ => false

/-- The first data slot that breaks the group rule (R83, R99): cell classes come in groups of four, GFIRST starts a group of
CELL_WR, CELL_RD or OPEN and stands nowhere else. -/
def groupFault : Nat → List (Nat × Word64) → Option Nat
  | 0, _ => none
  | n + 1, ds =>
    match ds with
    | [] => none
    | x :: rest =>
      let c := swClass x.2
      if c == 1 || c == 2 || (c == 0 && swFirst x.2) then
        if groupAt ds then groupFault n (rest.drop 3) else some x.1
      else if swFirst x.2 then some x.1 else groupFault n rest

/-- Check 0x0B: placement (log entry 14). -/
def checkPlace (s : ImageSet) : Option LoadFail :=
  firstFail (List.range s.variants.length) (fun i => firstFail (List.range 4) (fun t =>
    let p := pattern s i t
    let f := (varAt s i).frame
    let l := (varAt s i).bindLead
    let ds := (p.mapIdx (fun k w => (k, w))).filter (fun x => swData x.2)
    let inner (k : Nat) : Bool := (ds.mapIdx (fun n x => (n, x))).any (fun y =>
      groupAt (ds.drop y.1) && (swClass y.2.2 ≤ 2) && ((ds.drop (y.1 + 1)).take 3).any (fun z => z.1 == k))
    let slotBad (x : Nat × Word64) : Bool :=
      let by_ (ops : List Nat) : List Nat := serversOf p f x.1 (swBank x.2) ops
      if swClass x.2 == 9 then (by_ [11]).length != 1 || !(by_ [1, 2]).isEmpty
      else (by_ [3]).length != 1 || (by_ [4, 5, 6]).length != 1 ||
        (if inner x.1 then !(by_ [1, 2]).isEmpty else by_ [1] != [l] || by_ [2] != [l])
    -- R82: a position serves its slot's own class, but for the ACT and CAS positions that REFRESH and TRAIN slots leave free
    let alien (x : Nat × Word64) : Bool := [0, 1].any (fun o =>
      swOp x.2 o != 0 && swLead x.2 o != 0 && swClass x.2 != swClass (p.getD ((x.1 + swLead x.2 o) % f) 0) &&
        !((swClass x.2 == 8 || swClass x.2 == 9) && [1, 2, 3, 4, 5, 6].contains (swOp x.2 o)))
    match groupFault (ds.length + 1) ds with
    | some k => some { code := 11, variant := i, tile := t, slot := k }
    | none => match ds.find? slotBad with
      | some x => some { code := 11, variant := i, tile := t, slot := x.1 }
      | none => match (p.mapIdx (fun k w => (k, w))).find? alien with
        | some x => some { code := 11, variant := i, tile := t, slot := x.1 }
        | none => none))

/-- Check 0x0C. -/
def checkShares (s : ImageSet) : Option LoadFail :=
  firstFail (List.range s.variants.length) (fun i => firstFail (List.range 4) (fun t =>
    if 256 < ((List.range 16).map (shareOf s i t)).sum then some { code := 12, variant := i, tile := t } else none))

/-- Check 0x06: the profile admits what training recorded of every channel (R70). -/
def checkProfile (s : ImageSet) (regs : List Word32) : Option LoadFail :=
  if regs.all (Config.profileAdmits s.dieProfile) then none else some { code := 6 }

/-- Checks 0x01 to 0x0C in the order given; the first failing one ends verification. `regs`: the mode registers recorded at
training. -/
def loadChecks (regs : List Word32) (l : List Byte) (buf : Nat) : Option LoadFail :=
  let s := parseImage l
  (checkFormat l buf).orElse fun _ => (checkSum l).orElse fun _ => (checkStore s).orElse fun _ =>
    (checkRange l s).orElse fun _ => (checkCover s).orElse fun _ => (checkProfile s regs).orElse fun _ =>
        (checkBanks s).orElse fun _ => (checkRefresh s).orElse fun _ => (checkTrain s).orElse fun _ =>
          (checkScrub s).orElse fun _ => (checkPlace s).orElse fun _ => checkShares s

/-- The mode registers of all channels as training recorded them. -/
def trainedRegs (m : Mod) : List Word32 := m.packs.toList.flatMap (fun (p : PackSt) => p.modeRegs.toList)

/-! ### The variant to run -/

/-- The band in force (R29): the hotter of the DRAM band and the die band. -/
def bandInForce (m : Mod) : Nat := max m.therm.dramBand m.therm.dieBand

/-- R131: the variant for a band and a throttle level, and whether it is a substitute. -/
def chooseVariant (s : ImageSet) (band level : Nat) : Nat × Bool :=
  let cand := ((s.variants.mapIdx (fun i v => (i, v))).filter (fun x => x.2.bands.getLsbD band))
  let best (l : List (Nat × Variant)) (le : Nat → Nat → Bool) : Option (Nat × Variant) :=
    l.foldl (fun acc x => match acc with
      | none => some x
      | some y => if le y.2.throttle x.2.throttle then some y else some x) none
  match best (cand.filter (fun x => level ≤ x.2.throttle)) (fun a b => a ≤ b) with
  | some x => (x.1, false)
  | none => match best cand (fun a b => b ≤ a) with
    | some x => (x.1, true)
    | none => (0, true)

/-! ### Service interval and the read latency in CDAT (R92, R143, R146, R181) -/

/-- The places of the data slots of a class for a bank in a variant of a tile. -/
def slotsOf (s : ImageSet) (vi tile cls bank : Nat) : List Nat :=
  ((pattern s vi tile).mapIdx (fun k w => (k, w))).filterMap (fun x =>
    if swData x.2 && swClass x.2 == cls && swBank x.2 == bank then some x.1 else none)

/-- The slots of the 0.5 µs set-point gap before a variant, where a swap from `i` to `j` changes the rate (R92, R106). -/
def gapSlots (s : ImageSet) (i j : Nat) : Nat :=
  if (varAt s i).fsp == (varAt s j).fsp then 0 else (12000 + slot24 (varAt s j) - 1) / slot24 (varAt s j)

/-- The gap between the bind points of the last slot of `a` in variant `i` and the first of `b` in variant `j`, across a frame
boundary or a swap. -/
def bindGap (s : ImageSet) (i j : Nat) (a b : List Nat) : Nat :=
  (varAt s i).frame + (varAt s i).bindLead + b.headD 0 + gapSlots s i j - a.getLastD 0 - (varAt s j).bindLead

/-- G(c,b) of a variant (R92), over the four tiles: gaps inside the frame, across its boundary, and across every swap from or to
the variant (log entry 122). -/
def maxGap (s : ImageSet) (vi cls bank : Nat) : Nat :=
  let of (t : Nat) : Nat :=
    let a := slotsOf s vi t cls bank
    let across (j : Nat) : Nat := let b := slotsOf s j t cls bank; max (bindGap s vi j a b) (bindGap s j vi b a)
    if a.isEmpty then 0 else (((a.zip a.tail).map (fun p => p.2 - p.1)) ++ (List.range s.variants.length).map across).foldl max 0
  ((List.range 4).map of).foldl max 0

/-- The service interval I_c (R92). -/
def serviceInterval (s : ImageSet) (vi cls : Nat) : Nat := ((List.range 64).map (maxGap s vi cls)).foldl max 0

/-- R181: t_miss (R146) in whole nanoseconds, rounded up, for k = 0 in the Nominal variant of a set, at x16 and 64 GT/s with
standard flits: 43.4 ns, 101 stages of 0.62 ns (a tile of the other half, R145), and the slot wait of R143 with I_c for g (log
entry 122). The sum is taken in 1/300 ns. -/
def cdatLatency (s : ImageSet) : Nat :=
  let vi := (chooseVariant s 1 0).1
  (13020 + 18786 + (serviceInterval s vi 3 + 4 + (varAt s vi).bindLead + 1) * 500 + 299) / 300

/-- The frame ends to wait for a swap committed now (R132): the end of this frame before slot F − 64, else of the next. -/
def swapWait (m : Mod) : Nat := if curSlot m + 64 < (curVariant m).frame then 1 else 2

/-- The throttle-substituted event of a variant that band and level selected (R131). -/
def substEvent (v band level : Nat) (m : Mod) : Mod :=
  event 0x0103 0 (v % 8 + band % 4 * 8 + level % 4 * 32 + (varAt m.sched.active v).throttle % 4 * 128) m

/-- The swap that the newest band and level select (R131), in the staged set or the active one. -/
def selectSwap (m : Mod) (ns : Bool) (wait : Nat) : Swap :=
  let band := bandInForce m
  let level := m.therm.throttle
  let choice := chooseVariant (if ns then m.sched.staged.getD default else m.sched.active) band level
  { variant := choice.1, newSet := ns, framesLeft := wait, subst := choice.2, band := band, level := level }

/-- Whether the pending swap takes the staged set. -/
def swapNew (m : Mod) : Bool := m.sched.swap.elim false (·.newSet)

/-- Whether an activation is committed and not yet in effect (R129): in the pending swap, or in the one that follows it. -/
def activating (m : Mod) : Bool := swapNew m || m.sched.further == some true

/-- The selection is the running variant's own: only SUBST follows the new band or level (R131). -/
def swapStays (w : Swap) (m : Mod) : Mod :=
  let m := { m with sched := { m.sched with subst := w.subst } }
  if w.subst then substEvent w.variant w.band w.level m else m

/-- A change of band, throttle level or active set commits a swap, is folded into the one that waits, or, too late for it, is
kept for a further one (R132, R133). `newSet`: an activation has just been committed. -/
def commitSwap (newSet : Bool) (m : Mod) : Mod :=
  match m.sched.swap with
  | none =>
    let w := selectSwap m newSet (swapWait m)
    if !newSet && w.variant == m.sched.variant then swapStays w m
    else { m with sched := { m.sched with swap := some w } }
  | some old =>
    if old.framesLeft == 1 && (curVariant m).frame ≤ curSlot m + 64 then
      { m with sched := { m.sched with further := some (newSet || m.sched.further == some true) } }
    else
      let w := selectSwap m (newSet || old.newSet) old.framesLeft
      if !w.newSet && w.variant == m.sched.variant then swapStays w { m with sched := { m.sched with swap := none } }
      else { m with sched := { m.sched with swap := some w } }

end Sys2Proof.Machine
end

