-- ==== Sys2Proof/Machine/RingOps.lean ====
section
/-! DEFINITION. Machine/RingOps.lean: REGERR, posting to rings, shadow lines, halts, D2H credit
(*Rings and doorbells*). -/
namespace Sys2Proof.Machine

/-! ### Ring fields -/

/-- Ring `r` of a port. -/
def ringAt (m : Mod) (p : Port) (r : Nat) : Ring := tabGet initRing (m.rings.get p).rings r

/-- Change ring `r` of a port. -/
def onRing (p : Port) (r : Nat) (f : Ring → Ring) (m : Mod) : Mod :=
  onRings p (fun s => { s with rings := tabMod initRing s.rings r f }) m

/-- Fields of RING_CFG (R336). -/
def cfgEnable (c : Word64) : Bool := c.getLsbD 0
def cfgType (c : Word64) : Nat := (bitsOf c 1 4).toNat
def cfgLog2n (c : Word64) : Nat := (bitsOf c 5 5).toNat
def cfgLabel (c : Word64) : BitVec 3 := bitsOf c 10 3
def cfgIrq (c : Word64) : Bool := c.getLsbD 13
def cfgVector (c : Word64) : Nat := (bitsOf c 14 10).toNat
def cfgPair (c : Word64) : Nat := (bitsOf c 24 8).toNat
def cfgDbSlot (c : Word64) : Nat := (bitsOf c 32 4).toNat
def cfgModCount (c : Word64) : Nat := max 1 (bitsOf c 48 8).toNat
def cfgModTime (c : Word64) : Nat := (bitsOf c 56 8).toNat * 250

/-- Entry bytes of a ring type (R320). -/
def entryBytes (ty : Nat) : Nat :=
  if ty = 1 ∨ ty = 5 then 16 else if ty = 6 ∨ ty = 8 then 64 else 32

/-- Types produced by the module (R320). -/
def moduleProduced (ty : Nat) : Bool := ty == 1 || ty == 3 || ty == 7 || ty == 9 || ty == 10

/-- The phase of an entry count (R322): 1 when count >> n is even. -/
def phaseOf (c : Word32) (n : Nat) : Bool := !(c >>> n).getLsbD 0

/-- Byte address of the entry of a count (R322). -/
def entryAddr (g : Ring) (c : Word32) : Nat :=
  g.base.toNat + entryBytes (cfgType g.cfg) * (c.toNat % 2 ^ cfgLog2n g.cfg)

/-- A raw entry with its phase bit, bit 7 of its last byte (R322). -/
def withPhase (e : RawEntry) (bytes : Nat) (ph : Bool) : RawEntry := putBit e (8 * bytes - 1) ph

/-- Whether the rings of a port run at all: a port in reset or under received viral has none (R175, R176), and in
integrity stop or a Critical shutdown only the admin and event rings keep going (R285, R342, R465). -/
def ringsRun (m : Mod) (p : Port) (ty : Nat) : Bool :=
  !(m.ports.get p).inReset && !(m.ports.get p).viralRx &&
    ((m.prot.stop.isNone && !m.therm.critical) || ty == 8 || ty == 9 || ty == 10)

/-! ### REGERR (R555) -/

/-- A register access that breaks a rule: REGERR captures the first while VALID is 0, COUNT counts it, and the event is
raised. -/
def regError (offset source reason : Nat) (m : Mod) : Mod :=
  let e := m.ev
  let m := if e.reValid then m else { m with ev := { e with reOffset := BitVec.ofNat 26 offset, reSource := BitVec.ofNat 2 source,
                                                            reReason := BitVec.ofNat 3 reason, reValid := true } }
  let m := { m with ev := { m.ev with reCount := satAdd 0xFFFF_FFFF m.ev.reCount 1 } }
  event 0x0D01 0 (offset % 2 ^ 26 + source * 2 ^ 26 + reason * 2 ^ 28) m

/-! ### D2H requests -/

/-- Whether a port carries CXL.cache traffic (R155, R184): its link runs at 16 GT/s or above, and Cache Enable is set. -/
def cacheOn (q : PortSt) : Bool := q.linkUp && !q.inReset && q.rate != .low && q.cacheEnable

/-- Whether a port is down: PERST_N asserted or no link (R176). -/
def portDown (m : Mod) (p : Port) : Bool := (m.ports.get p).inReset || !(m.ports.get p).linkUp

/-- Whether a port exchanges messages with its host: in Deep sleep the ports are off. -/
def portTalks (m : Mod) (p : Port) : Bool := !portDown m p && m.power.state != 3

/-- The wake code of a message on a port (R493). -/
def msgCode (p : Port) : Nat := if p == .a then 1 else 2

/-- An access through a port's BAR: a port without a link makes none; it is a message, so a wake cause (R493). In D3hot the function
takes no memory request (R182). -/
def portAccess (p : Port) (f : Mod → Mod) (m : Mod) : Mod :=
  if portTalks m p then
    let m := wake (msgCode p) (touch m)
    if (m.ports.get p).d3hot then m else f m
  else m

/-- Change the connector's state. -/
def onConn (f : ConnSt → ConnSt) (m : Mod) : Mod := { m with conn := f m.conn }

/-- EXTEST holds the pins, so the sideband reaches none (R570). -/
def pinsHeld (m : Mod) : Bool := m.conn.ir == 3

/-- Whether the blocks of the module answer the sideband now: it is in Run, in Idle, or before the commit of an entry. -/
def blocksUp (m : Mod) : Bool := m.power.state ≤ 1

/-- A well-formed write transfer of the sideband takes effect, or completes after the exit that it has begun or met (R545). -/
def sideAccess (off size : Nat) (v : Word64) (f : Mod → Mod) (m : Mod) : Mod :=
  if blocksUp m then f m else onConn (fun c => { c with held := c.held ++ [(off, size, v)] }) m

/-- A write of 8 B from a source: a port's BAR0, or a sideband transfer, which is a wake cause (R493). -/
def sourceAccess (src : Source) (off : Nat) (v : Word64) (f : Mod → Mod) (m : Mod) : Mod :=
  match src.port with
  | some p => portAccess p f m
  | none => if pinsHeld m then m else sideAccess off 8 v f (wake 6 m)

/-- Whether received viral contains a port (R175): its rings stand still, so no D2H request leaves. -/
def contained (m : Mod) (p : Port) : Bool := (m.ports.get p).viralRx

/-- Send a D2H Req when credit is held and the port carries CXL.cache, and otherwise keep it waiting (R582): 0 RdShared,
1 RdCurr, 2 ItoMWr. A contained port sends none (R175). -/
def d2hSend (p : Port) (kind addr : Nat) (m : Mod) : Mod :=
  if contained m p then m
  else if (m.ports.get p).d2hCredit = 0 || !cacheOn (m.ports.get p) then onPort p (fun q => { q with d2hWait := q.d2hWait ++ [(kind, addr)] }) m
  else
    let m := onPort p (fun q => { q with d2hCredit := q.d2hCredit - 1 }) m
    send (if kind = 0 then .rdShared p addr else if kind = 1 then .rdCurr p addr else .itoMWr p addr) m

/-- Issue the ItoMWr of a line. While one for the same line is open and its data has not left, that one carries the
newer content. -/
def itoMWr (p : Port) (w : OpenWrite) (m : Mod) : Mod :=
  let s := m.rings.get p
  if contained m p then m
  else if s.writes.any (fun v => v.addr == w.addr && v.ring == w.ring && !v.pulled) then
    onRings p (fun s => { s with writes := s.writes.map (fun v =>
      if v.addr == w.addr && v.ring == w.ring && !v.pulled then w else v) }) m
  else
    perfCount (halfPage p) (perfPlain 0x0A 15) none
      (d2hSend p 2 w.addr (onRings p (fun s => { s with writes := s.writes ++ [w] }) m))

/-- Write a ring's consumer count to its shadow line (R332). -/
def shadowWrite (p : Port) (r : Nat) (m : Mod) : Mod :=
  let g := ringAt m p r
  itoMWr p { addr := g.shadow.toNat, ring := 256 + r, data := g.midx.setWidth 512, count := g.midx, pulled := false }
    (onRing p r (fun g => { g with shadowed := g.midx }) m)

/-- Halt a ring (R340). -/
def ringHalt (p : Port) (r code : Nat) (m : Mod) : Mod :=
  let g := ringAt m p r
  if g.state = 1 ∨ g.state = 3 then
    let m := onRing p r (fun g => { g with state := 2, status := code }) m
    let m := if moduleProduced (cfgType g.cfg) then m else shadowWrite p r m
    raise 0x0701 2 0 (BitVec.ofNat 64 (p.num + r * 256 + code * 65536)) m
  else m

/-! ### Posting (R324, R325) -/

/-- Whether the module may write the line of count `c` (R325): C − (c0 + epl − N) ≥ 0 modulo 2^32. -/
def lineFree (g : Ring) (c : Word32) : Bool :=
  let epl := 64 / entryBytes (cfgType g.cfg)
  let c0 := c - BitVec.ofNat 32 (c.toNat % epl)
  !(g.hidx - (c0 + BitVec.ofNat 32 epl - BitVec.ofNat 32 (2 ^ cfgLog2n g.cfg))).getLsbD 31

/-- A line of which no position has been posted in this pass: zero bytes with the previous pass's phase (R324). -/
def freshLine (g : Ring) (c : Word32) : Sector :=
  let b := entryBytes (cfgType g.cfg)
  (List.range (64 / b)).foldl
    (fun l i => putBit l (8 * b * (i + 1) - 1) (!phaseOf c (cfgLog2n g.cfg))) 0

/-- Place one entry at the ring's producer count: the ring after it, and the line that carries it. -/
def ringPlace (g : Ring) (e : RawEntry) : Ring :=
  let b := entryBytes (cfgType g.cfg)
  let epl := 64 / b
  let pos := g.midx.toNat % epl
  let l := if pos = 0 then freshLine g g.midx else g.line
  let e := withPhase e b (phaseOf g.midx (cfgLog2n g.cfg))
  { g with line := putBits l (8 * b * pos) (e.extractLsb' 0 (8 * b)), midx := g.midx + 1 }

/-- Whether a draining completion ring still has work: its paired ring enabled, positions reserved, entries that wait
(R338). -/
def pairBusy (m : Mod) (p : Port) (r : Nat) : Bool :=
  let g := ringAt m p r
  g.reservedPos != 0 || !g.wait.isEmpty || (m.rings.get p).rings.any (fun x =>
    cfgEnable x.2.cfg && (cfgType x.2.cfg == 6 || cfgType x.2.cfg == 8) && cfgPair x.2.cfg == r)

/-- A draining completion ring that is drained reaches STATE 0 (R338). -/
def drainRing (p : Port) (r : Nat) (m : Mod) : Mod :=
  if (ringAt m p r).state == 3 && !pairBusy m p r then onRing p r (fun g => { g with state := 0, full := false }) m else m

/-- Post the entries that wait on a ring that runs, as far as R325 lets the module write their lines. -/
def ringFlush : Nat → Port → Nat → Mod → Mod
  | 0, _, _, m => m
  | k + 1, p, r, m =>
    let g := ringAt m p r
    if g.state ≠ 1 ∧ g.state ≠ 3 then m
    else match g.wait with
    | [] => drainRing p r (onRing p r (fun g => { g with full := false }) m)
    | e :: rest =>
      if !ringsRun m p (cfgType g.cfg) then m
      else if lineFree g g.midx then
        let addr := entryAddr g g.midx / 64 * 64
        let since := if g.modSince.isSome then g.modSince else some m.tb.now
        let g' := { ringPlace g e with wait := rest, modSince := since }
        let m := onRing p r (fun _ => g') m
        let m := itoMWr p { addr := addr, ring := r, data := g'.line, count := g'.midx, pulled := false } m
        ringFlush k p r m
      else onRing p r (fun g => { g with full := true }) m

/-- Post one entry to a module-produced ring; a ring that is not running discards it (R338). -/
def ringPost (p : Port) (r : Nat) (e : RawEntry) (m : Mod) : Mod :=
  let g := ringAt m p r
  if (g.state = 1 ∨ g.state = 3) ∧ ringsRun m p (cfgType g.cfg) = true then
    ringFlush (g.wait.length + 2) p r (touch (onRing p r (fun g => { g with wait := g.wait ++ [e] }) m))
  else m

/-- Whether a ring has room to post one more entry at once (R325). -/
def ringRoom (m : Mod) (p : Port) (r : Nat) : Bool :=
  let g := ringAt m p r
  g.state == 1 && g.wait.isEmpty && lineFree g g.midx && ringsRun m p (cfgType g.cfg)

end Sys2Proof.Machine
end

