-- ==== Sys2Proof/Machine/Fetch.lean ====
section
/-! DEFINITION. Machine/Fetch.lean: fetching entry lines (R330, R331, R333, R334), and the completions of admin commands
(R341, R513, R515). -/
namespace Sys2Proof.Machine

/-! ### Fetching entry lines -/

/-- Entries per 64 B line of a ring. -/
def perLine (g : Ring) : Nat := 64 / entryBytes (cfgType g.cfg)

/-- First count of the line that holds a count. -/
def lineStart (g : Ring) (c : Word32) : Word32 := c - BitVec.ofNat 32 (c.toNat % perLine g)

/-- First count after that line. -/
def lineEnd (g : Ring) (c : Word32) : Word32 := lineStart g c + BitVec.ofNat 32 (perLine g)

/-- Host-produced types (R320). -/
def hostProduced (ty : Nat) : Bool := ty == 2 || ty == 4 || ty == 5 || ty == 6 || ty == 8

/-- Types whose entries carry a phase bit set by the host (R330). -/
def phased (ty : Nat) : Bool := ty == 2 || ty == 4 || ty == 5

/-- Whether count `a` lies below count `b` (R322). -/
def below (a b : Word32) : Bool := a != b && !(b - a).getLsbD 31

/-- Admin entries fetched or being fetched, over both ports (R331). -/
def adminHeld (m : Mod) : Nat :=
  let n (p : Port) : Nat :=
    let s := m.rings.get p
    let ty (r : Nat) : Nat := cfgType (tabGet initRing s.rings r).cfg
    (s.reads.filter (fun x => x.1 < 256 && ty x.1 == 8)).length + (s.held.filter (fun x => ty x.1 == 8)).length
  m.proc.queue.length + n .a + n .b

/-- Whether the paired completion ring has a position to reserve (R331). -/
def pairRoom (m : Mod) (p : Port) (g : Ring) : Bool :=
  let c := ringAt m p (cfgPair g.cfg)
  (c.state == 1) && lineFree c (c.midx + BitVec.ofNat 32 (c.wait.length + c.reservedPos))

/-- Whether a service processor runs admin commands (R502, R509: in recovery mode the ROM does). -/
def spActive (m : Mod) : Bool := m.proc.sp0 == .active || m.proc.sp1 == .active || m.proc.recovery

/-- Whether the input queue of a port takes the entries of one more line of an enqueue ring (chapter *Packet buffer service*,
*Enqueue*): 1,024 entries, with those that are on their way. -/
def enqRoom (m : Mod) (p : Port) : Bool :=
  let s := m.rings.get p
  let enq (r : Nat) : Bool := r < 256 && cfgType (tabGet initRing s.rings r).cfg == 2
  s.enq.length + 2 * ((s.reads.filter (fun x => enq x.1)).length + (s.held.filter (fun x => enq x.1)).length + 1) ≤ 1024

/-- Whether a job or admin ring has entries that cannot be fetched: for want of a position in its completion ring, or of an entry of
the admin queue (R331). -/
def fetchStuck (m : Mod) (p : Port) (g : Ring) : Bool :=
  let ty := cfgType g.cfg
  g.state == 1 && (ty == 6 || ty == 8) && below g.asked g.hidx && (!pairRoom m p g || ty == 8 && 64 ≤ adminHeld m)

/-- Whether, in Run (R490), a running ring has an entry line waiting to be fetched that its service can take, but for the turns of R331. -/
def wantsFetch (m : Mod) (p : Port) (r : Nat) (g : Ring) : Bool :=
  let ty := cfgType g.cfg
  let s := m.rings.get p
  m.power.state == 0 && g.state == 1 && hostProduced ty && ringsRun m p ty && g.check == 0 && below g.asked g.hidx &&
    (if ty == 2 then enqRoom m p
    else if ty == 6 then pairRoom m p g
    else if ty == 8 then spActive m && pairRoom m p g && adminHeld m < 64
    else true) && !(s.reads.any (fun x => x.1 == r && x.2.1 == lineStart g g.asked))

/-- Whether a port has an admin entry that could be fetched. -/
def adminWaits (m : Mod) (p : Port) : Bool :=
  (m.rings.get p).rings.any (fun x => cfgType x.2.cfg == 8 && wantsFetch m p x.1 x.2)

/-- The rings of a port whose next entry line may be read now: admin entries in strict turns of the ports (R331). -/
def fetchable (m : Mod) (p : Port) : List (Nat × Ring) :=
  (m.rings.get p).rings.filter (fun x => wantsFetch m p x.1 x.2 &&
    !(cfgType x.2.cfg == 8 && m.proc.lastTurn == p && adminWaits m p.other))

/-- Lines of a label left in its budget of the running window (R333, R334). -/
def underFetch (m : Mod) (p : Port) (l : BitVec 3) : Bool := tabGet 0 (m.rings.get p).lines l.toNat < (curBudget m p l).2.2

/-- The ring whose read goes next (R334): a label under its budget first, labels in round-robin order; among rings of one
label any (log entry 25). -/
def chooseFetch (m : Mod) (p : Port) : Option (Nat × Ring) :=
  let last := (m.rings.get p).lastLabel
  let key (x : Nat × Ring) : Nat :=
    let l := cfgLabel x.2.cfg
    (if underFetch m p l then 0 else 8) + (l.toNat + 15 - last % 8) % 8
  let l := fetchable m p
  match l.filter (fun x => l.all (fun y => key x ≤ key y)) with
  | [] => none
  | [x] => some x
  | x :: y :: l => (x :: y :: l)[Config.fetchPick m.tb.now (m.rings.get p).reads.length % (l.length + 2)]?

/-- Read the entry line of a count with RdCurr: it counts against the label's lines (R333). -/
def issueRead (p : Port) (r : Nat) (c : Word32) (m : Mod) : Mod :=
  let g := ringAt m p r
  let l := cfgLabel g.cfg
  let c0 := lineStart g c
  let addr := entryAddr g c0
  let m := onRings p (fun s => { s with reads := s.reads ++ [(r, c0, addr)], lines := tabMod 0 s.lines l.toNat (· + 1), lastLabel := l.toNat }) m
  let m := onRing p r (fun g => { g with asked := if below g.asked (lineEnd g c) then lineEnd g c else g.asked }) m
  touch (d2hSend p 1 addr (perfCount (halfPage p) (perfPlain 0x09 l.toNat) none m))

/-- Read as many entry lines as the port's D2H credit allows (R334). -/
def fetchLoop : Nat → Port → Mod → Mod
  | 0, _, m => m
  | k + 1, p, m =>
    if (m.ports.get p).d2hCredit = 0 || !cacheOn (m.ports.get p) || !(m.ports.get p).d2hWait.isEmpty then m
    else match chooseFetch m p with
      | none => m
      | some (r, g) =>
        let ty := cfgType g.cfg
        let m := if ty == 6 || ty == 8 then onRing p (cfgPair g.cfg) (fun c => { c with reservedPos := c.reservedPos + 1 }) m else m
        let m := if ty == 8 then { m with proc := { m.proc with lastTurn := p } } else m
        fetchLoop k p (issueRead p r g.asked m)

/-- Both ports fetch what they may; an admin entry of one may be the other's turn. -/
def fetchPump (m : Mod) : Mod :=
  let one (m : Mod) (p : Port) : Mod := fetchLoop (m.ports.get p).d2hCredit p m
  (List.range 65).foldl (fun m _ =>
    if (fetchable m .a).isEmpty && (fetchable m .b).isEmpty then m else one (one m .a) .b) m

/-! ### Admin completions (R341, R513) -/

/-- The enabled admin ring of a port. -/
def adminRing (m : Mod) (p : Port) : Option Nat :=
  ((m.rings.get p).rings.find? (fun r => (r.2.state == 1 || r.2.state == 2) && cfgType r.2.cfg == 8)).map (·.1)

/-- The admin completion ring of a port: the ring that its admin ring names as its pair, or one that drains. -/
def adminPair (m : Mod) (p : Port) : Option Nat :=
  match adminRing m p with
  | some r => some (cfgPair (ringAt m p r).cfg)
  | none => ((m.rings.get p).rings.find? (fun r => r.2.state == 3 && cfgType r.2.cfg == 9)).map (·.1)

/-- An admin completion entry (R341). -/
def completionEntry (c : AdminTag) (code rused : Nat) (result : BitVec 96) : RawEntry :=
  (c.tag.setWidth 512) ||| (c.opcode.setWidth 512 <<< 64) ||| (BitVec.ofNat 512 (code % 256) <<< 80) |||
    (BitVec.ofNat 512 (rused % 2 ^ 32) <<< 96) ||| (result.setWidth 512 <<< 128)

/-- Complete an admin command: it leaves the admin queue, its reserved position is used, its entry is posted, and an entry
that waited for the queue may be fetched. A command
that a takeover has already completed (R500) posts nothing more. -/
def complete (c : AdminTag) (code rused : Nat) (result : BitVec 96) (m : Mod) : Mod :=
  match m.proc.queue.findIdx? (fun e => e.1 == c) with
  | none => m
  | some i =>
    let m := { m with proc := { m.proc with queue := m.proc.queue.eraseIdx i } }
    match adminPair m c.port with
    | none => m
    | some r =>
      fetchPump (ringPost c.port r (completionEntry c code rused result)
        (onRing c.port r (fun g => { g with reservedPos := g.reservedPos - 1 }) m))

/-- Complete with a code alone. -/
def done (c : AdminTag) (code : Nat) (m : Mod) : Mod := complete c code 0 0 m

/-- An admin command stands in the admin queue as started (R500, R513). -/
def started (c : AdminTag) (m : Mod) : Mod :=
  let q := m.proc.queue
  let q := if q.any (fun e => e.1 == c) then q.map (fun e => if e.1 == c then (e.1, true) else e) else q ++ [(c, true)]
  { m with proc := { m.proc with queue := q } }

/-- The opcodes of *Admin opcodes* that meet their own code during integrity stop: those that R515 lists, PROT_RELOAD, which
R259 ends with 0x45, and IMAGE_ACTIVATE, which R129 and R286 end with 0x22. -/
def stopAllowed (op : BitVec 16) : Bool :=
  [0x0401#16, 0x0106#16, 0x0001#16, 0x0002#16, 0x0003#16, 0x0103#16, 0x0306#16, 0x0308#16, 0x0602#16, 0x0603#16, 0x0605#16, 0x0702#16].contains op

/-- The opcodes that run in recovery mode (R509). -/
def recoveryAllowed (op : BitVec 16) : Bool :=
  [0x0001#16, 0x0002#16, 0x0003#16, 0x0101#16, 0x0102#16, 0x0103#16].contains op

/-- The general checks that come before a command's own codes (R515), then the command itself. `rangeOk`: every
parameter lies inside its range. With no active service processor the command stays in its queue (R502). -/
def admin (h : AdminHdr) (op : BitVec 16) (rangeOk : Bool) (own : AdminTag → Mod → Mod) (m : Mod) : Mod :=
  let c : AdminTag := { port := h.port, tag := h.tag, opcode := op }
  if !spActive m then m
  else
    let m := touch (started c m)
    if h.resv || !rangeOk || h.rlen > 65536 || h.rbuf.toNat % 64 != 0 then done c 0xE1 m
    else if m.prot.stop.isSome && !stopAllowed op then done c 0xE3 m
    else if m.proc.recovery && !recoveryAllowed op then done c 0xE4 m
    else own c m

end Sys2Proof.Machine
end

