-- ==== Sys2Proof/Machine/Deflate.lean ====
section
/-! DEFINITION. Machine/Deflate.lean: DEFLATE decompression (RFC 1951). -/
namespace Sys2Proof.Machine

/-- The bits of a byte string, least significant bit of each byte first. -/
def bitsOfBytes (l : List Byte) : List Bool := l.flatMap (fun b => (List.range 8).map (fun i => b.getLsbD i))

/-- The number that the first `n` bits spell, least significant first, and the rest; `none` when they run out. -/
def takeBits : Nat → List Bool → Option (Nat × List Bool)
  | 0, l => some (0, l)
  | _ + 1, [] => none
  | n + 1, b :: l => (takeBits n l).map (fun r => ((if b then 1 else 0) + 2 * r.1, r.2))

/-- A canonical prefix code (RFC 1951, 3.2.2): for each length the count of codes, and the symbols in code order. -/
structure Code where
  counts : List Nat
  syms   : List Nat
  deriving DecidableEq, Repr, Inhabited

/-- The code of a list of lengths by symbol; `none` when it is over-subscribed, or incomplete with more than one code. -/
def mkCode (lens : List Nat) : Option Code :=
  let counts := (List.range 15).map (fun n => (lens.filter (· == n + 1)).length)
  let syms := (List.range 15).flatMap (fun n =>
    (lens.mapIdx (fun i l => (i, l))).filterMap (fun x => if x.2 == n + 1 then some x.1 else none))
  let left := counts.foldl (fun (acc : Int) (c : Nat) => acc * 2 - (c : Int)) 1
  let overs := ((List.range 15).map (fun n => (counts.take (n + 1)).foldl (fun (acc : Int) (c : Nat) => acc * 2 - (c : Int)) 1)).any (fun x => x < 0)
  if overs then none else if left = 0 ∨ syms.length ≤ 1 then some { counts := counts, syms := syms } else none

/-- Why a stream stops short (the DETAIL codes of code 0x04). -/
inductive InfErr where
  | blockType | table | distance | ended
  deriving DecidableEq, Repr, Inhabited

/-- The DETAIL code. -/
def InfErr.code : InfErr → Nat
  | .blockType => 1 | .table => 2 | .distance => 3 | .ended => 4

/-- Decode one symbol: the first code of the current length, the index of its first symbol. Bits that no code of the table opens with are
a table error; bits that run out are the end of the data. -/
def decodeSym (c : Code) : List Nat → Nat → Nat → Nat → List Bool → Except InfErr (Nat × List Bool)
  | [], _, _, _, _ => .error .table
  | _, _, _, _, [] => .error .ended
  | n :: rest, code, first, idx, b :: l =>
    let code := code * 2 + (if b then 1 else 0)
    if code < first * 2 + n && first * 2 ≤ code then .ok (c.syms.getD (idx + (code - first * 2)) 0, l)
    else decodeSym c rest code (first * 2 + n) (idx + n) l

/-- The next symbol of a code. -/
def nextSym (c : Code) (l : List Bool) : Except InfErr (Nat × List Bool) := decodeSym c c.counts 0 0 0 l

/-- Base and extra bits of length symbol 257 + i. -/
def lenBase : List (Nat × Nat) :=
  [(3, 0), (4, 0), (5, 0), (6, 0), (7, 0), (8, 0), (9, 0), (10, 0), (11, 1), (13, 1), (15, 1), (17, 1), (19, 2), (23, 2),
   (27, 2), (31, 2), (35, 3), (43, 3), (51, 3), (59, 3), (67, 4), (83, 4), (99, 4), (115, 4), (131, 5), (163, 5), (195, 5),
   (227, 5), (258, 0)]

/-- Base and extra bits of distance symbol i. -/
def distBase : List (Nat × Nat) :=
  [(1, 0), (2, 0), (3, 0), (4, 0), (5, 1), (7, 1), (9, 2), (13, 2), (17, 3), (25, 3), (33, 4), (49, 4), (65, 5), (97, 5),
   (129, 6), (193, 6), (257, 7), (385, 7), (513, 8), (769, 8), (1025, 9), (1537, 9), (2049, 10), (3073, 10), (4097, 11),
   (6145, 11), (8193, 12), (12289, 12), (16385, 13), (24577, 13)]

/-- Copy `n` bytes from distance `d`; the output is held newest first. -/
def copyBack : Nat → Nat → List Byte → List Byte
  | 0, _, out => out
  | n + 1, d, out => copyBack n d (out.getD (d - 1) 0 :: out)

/-- The symbols of one coded block, output newest first; where they stop short, why and the output so far. -/
def infCodes (lc dc : Code) : Nat → List Byte → List Bool → Except (InfErr × List Byte) (List Byte × List Bool)
  | 0, out, _ => .error (.ended, out)
  | k + 1, out, l =>
    match nextSym lc l with
    | .error e => .error (e, out)
    | .ok (s, l) =>
      if s < 256 then infCodes lc dc k (BitVec.ofNat 8 s :: out) l
      else if s = 256 then .ok (out, l)
      else match lenBase[s - 257]? with
        | none => .error (.table, out)
        | some (base, extra) =>
          match takeBits extra l with
          | none => .error (.ended, out)
          | some (x, l) =>
            match nextSym dc l with
            | .error e => .error (e, out)
            | .ok (ds, l) =>
              match distBase[ds]? with
              | none => .error (.table, out)
              | some (dbase, dextra) =>
                match takeBits dextra l with
                | none => .error (.ended, out)
                | some (y, l) =>
                  if out.length < dbase + y then .error (.distance, out)
                  else infCodes lc dc k (copyBack (base + x) (dbase + y) out) l

/-- The static code's lengths. -/
def staticLens : List Nat :=
  List.replicate 144 8 ++ List.replicate 112 9 ++ List.replicate 24 7 ++ List.replicate 8 8

/-- Order of the code-length code lengths. -/
def clOrder : List Nat := [16, 17, 18, 0, 8, 7, 9, 6, 10, 5, 11, 4, 12, 3, 13, 2, 14, 1, 15]

/-- The `n` code lengths that a code-length code spells. -/
def infLens (c : Code) : Nat → Nat → List Nat → List Bool → Except InfErr (List Nat × List Bool)
  | 0, _, _, _ => .error .table
  | k + 1, n, acc, l =>
    if acc.length = n then .ok (acc, l)
    else if n < acc.length then .error .table
    else match nextSym c l with
      | .error e => .error e
      | .ok (s, l) =>
        if s < 16 then infLens c k n (acc ++ [s]) l
        else
          let nb := if s = 16 then 2 else if s = 17 then 3 else 7
          let base := if s = 18 then 11 else 3
          match takeBits nb l with
          | none => .error .ended
          | some (x, l) =>
            if s = 16 ∧ acc = [] then .error .table
            else infLens c k n (acc ++ List.replicate (base + x) (if s = 16 then acc.getLastD 0 else 0)) l

/-- The two codes of a dynamic block. -/
def infDynamic (l : List Bool) : Except InfErr (Code × Code × List Bool) :=
  match takeBits 5 l with
  | none => .error .ended
  | some (hl, l) => match takeBits 5 l with
    | none => .error .ended
    | some (hd, l) => match takeBits 4 l with
      | none => .error .ended
      | some (hc, l) =>
        match (List.range (hc + 4)).foldl (fun (st : Option (List Nat × List Bool)) _ =>
          st.bind (fun s => (takeBits 3 s.2).map (fun r => (s.1 ++ [r.1], r.2)))) (some ([], l)) with
        | none => .error .ended
        | some (cl, l) =>
          let lens := (List.range 19).map (fun s => match clOrder.findIdx? (· == s) with
            | some i => cl.getD i 0
            | none => 0)
          match mkCode lens with
          | none => .error .table
          | some c => match infLens c 330 (hl + 257 + hd + 1) [] l with
            | .error e => .error e
            | .ok (ls, l) =>
              match mkCode (ls.take (hl + 257)), mkCode (ls.drop (hl + 257)) with
              | some lc, some dc => if ls.getD 256 0 = 0 then .error .table else .ok (lc, dc, l)
              | _, _ => .error .table

/-- The bytes that bits spell, as far as they go. -/
def wholeBytes : Nat → List Bool → List Byte
  | 0, _ => []
  | n + 1, l => match takeBits 8 l with
    | none => []
    | some (x, l) => BitVec.ofNat 8 x :: wholeBytes n l

/-- One stored block: alignment, LEN, NLEN, bytes. `total`: bits of the whole input. -/
def infStored (total : Nat) (out : List Byte) (l : List Bool) : Except (InfErr × List Byte) (List Byte × List Bool) :=
  let l := l.drop ((8 - (total - l.length) % 8) % 8)
  match takeBits 16 l with
  | none => .error (.ended, out)
  | some (n, l) => match takeBits 16 l with
    | none => .error (.ended, out)
    | some (c, l) =>
      let got := (wholeBytes n l).reverse ++ out
      if n + c ≠ 65535 then .error (.blockType, out)
      else if l.length < 8 * n then .error (.ended, got)
      else .ok (got, l.drop (8 * n))

/-- Blocks until the final one: output newest first, and the bits after it. A stream that stops short keeps what it has given
(log entry 127). -/
def infBlocks (total : Nat) : Nat → List Byte → List Bool → Except (InfErr × List Byte) (List Byte × List Bool)
  | 0, out, _ => .error (.ended, out)
  | k + 1, out, l =>
    match takeBits 1 l with
    | none => .error (.ended, out)
    | some (fin, l) => match takeBits 2 l with
      | none => .error (.ended, out)
      | some (ty, l) =>
        let r : Except (InfErr × List Byte) (List Byte × List Bool) :=
          if ty = 0 then infStored total out l
          else if ty = 1 then
            match mkCode staticLens, mkCode (List.replicate 32 5) with
            | some lc, some dc => infCodes lc dc (l.length + 1) out l
            | _, _ => .error (.table, out)
          else if ty = 2 then
            match infDynamic l with
            | .error e => .error (e, out)
            | .ok (lc, dc, l) => infCodes lc dc (l.length + 1) out l
          else .error (.blockType, out)
        match r with
        | .error e => .error e
        | .ok (out, l) => if fin = 1 then .ok (out, l) else infBlocks total k out l

/-- Inflate a stream: its bytes in order, and the input bytes that it used. -/
def inflate (input : List Byte) : Except (InfErr × List Byte) (List Byte × Nat) :=
  let bits := bitsOfBytes input
  match infBlocks bits.length (bits.length + 1) [] bits with
  | .error (e, out) => .error (e, out.reverse)
  | .ok (out, rest) => .ok (out.reverse, (bits.length - rest.length + 7) / 8)

end Sys2Proof.Machine
end

