-- ==== Sys2Proof/Machine/Fulling.lean ====
section
/-! DEFINITION. Machine/Fulling.lean: DEFLATE compression by a fuller (R308, R309), and the fulled page format (R296, R297). The
matches that a fuller finds and the dynamic codes that it builds are free choices among those that the rules admit (log entry 128). -/
namespace Sys2Proof.Machine

/-! ### Tokens -/

/-- What a compressor finds: a match as its length and distance, or, with distance 0, the byte that stands there. -/
abbrev Token := Nat × Nat

/-- What tokens give, newest first, after an output; `none` for one that DEFLATE cannot code. -/
def expand : List Token → List Byte → Option (List Byte)
  | [], out => some out
  | (n, d) :: rest, out =>
    if d = 0 then (if n < 256 then expand rest (BitVec.ofNat 8 n :: out) else none)
    else if 3 ≤ n ∧ n ≤ 258 ∧ d ≤ 32768 ∧ d ≤ out.length then expand rest (copyBack n d out) else none

/-- Whether blocks of tokens give the input after a history, each from 1 to 65,535 bytes of it (R309). -/
def blocksOk : List (List Token) → List Byte → List Byte → Bool
  | [], _, inp => inp.isEmpty
  | b :: rest, hist, inp => match expand b hist.reverse with
    | none => false
    | some out =>
      let n := out.length - hist.length
      1 ≤ n && n ≤ 65535 && out.reverse == hist ++ inp.take n && blocksOk rest (hist ++ inp.take n) (inp.drop n)

/-- An input as literals, in blocks of 65,535 bytes. -/
def literals (inp : List Byte) : List (List Token) :=
  (List.range ((inp.length + 65534) / 65535)).map (fun i => ((inp.drop (65535 * i)).take 65535).map (fun b => (b.toNat, 0)))

/-! ### Codes -/

/-- The last row of a base table that a number reaches: its index, the number's excess, and the extra bits. -/
def baseRow (t : List (Nat × Nat)) (n : Nat) : Nat × Nat × Nat :=
  let i := (t.filter (fun x => x.1 ≤ n)).length - 1
  (i, n - (t.getD i (0, 0)).1, (t.getD i (0, 0)).2)

/-- `n` bits of a number, least significant first. -/
def spell (n v : Nat) : List Bool := (List.range n).map (fun i => v.testBit i)

/-- The canonical code of a symbol under code lengths (RFC 1951, 3.2.2), most significant bit first. -/
def codeBits (lens : List Nat) (s : Nat) : List Bool :=
  let n := lens.getD s 0
  let first := ((List.range n).map (fun k => if k = 0 then 0 else (lens.filter (· == k)).length * 2 ^ (n - k))).sum
  (spell n (first + ((lens.take s).filter (· == n)).length)).reverse

/-- The symbols of tokens and of their block's end, and of their distances. -/
def litSyms (b : List Token) : List Nat := b.map (fun x => if x.2 = 0 then x.1 else 257 + (baseRow lenBase x.1).1) ++ [256]
def distSyms (b : List Token) : List Nat := (b.filter (fun x => x.2 != 0)).map (fun x => (baseRow distBase x.2).1)

/-- Tokens coded under two lists of lengths, with the end of their block. -/
def codeTokens (ll dl : List Nat) (b : List Token) : List Bool :=
  b.flatMap (fun x =>
    if x.2 = 0 then codeBits ll x.1
    else
      let n := baseRow lenBase x.1
      let d := baseRow distBase x.2
      codeBits ll (257 + n.1) ++ spell n.2.2 n.2.1 ++ codeBits dl d.1 ++ spell d.2.2 d.2.1) ++ codeBits ll 256

/-- A complete code of nearly equal lengths for the symbols that occur. -/
def evenLens (counts : List Nat) : List Nat :=
  let k := (counts.filter (· != 0)).length
  let m := Nat.log2 (k - 1) + 1
  let short := 2 ^ m - k
  counts.mapIdx (fun i c =>
    if c = 0 then 0 else if k ≤ 1 then 1
    else if ((counts.take i).filter (· != 0)).length < short then m - 1 else m)

/-- The code lengths that a fuller builds from symbol counts, none above `top`. -/
def buildLens (top : Nat) (counts : List Nat) : List Nat :=
  let l := Config.codeLens top counts
  if l.length = counts.length ∧ l.all (· ≤ top) ∧ (mkCode l).isSome ∧ (l.zip counts).all (fun x => x.2 == 0 || x.1 != 0) then l
  else evenLens counts

/-- How often each of `n` symbols occurs. -/
def countSyms (n : Nat) (l : List Nat) : List Nat := (List.range n).map (fun s => l.count s)

/-- A list up to its last element that is not 0, of `n` elements at least. -/
def trimTo (n : Nat) (l : List Nat) : List Nat :=
  let k := l.length - (l.reverse.takeWhile (· == 0)).length
  l.take (max n k)

/-- The lengths that the symbols of a code-length header spell. -/
def runLens : List (Nat × Nat) → List Nat → List Nat
  | [], out => out
  | (s, x) :: rest, out =>
    runLens rest (out ++ (if s < 16 then [s] else if s = 16 then List.replicate (3 + x) (out.getLastD 0)
      else List.replicate ((if s = 17 then 3 else 11) + x) 0))

/-- The symbols of a code-length header for given lengths: the fuller's own, or one for each length. -/
def lensRuns (lens : List Nat) : List (Nat × Nat) :=
  let l := Config.lensRuns lens
  if runLens l [] = lens ∧ l.all (fun x => x.1 ≤ 18 && (x.1 < 16 || x.2 < 2 ^ (if x.1 = 16 then 2 else if x.1 = 17 then 3 else 7))) ∧
      (l.headD (0, 0)).1 ≠ 16 then l
  else lens.map (fun n => (n, 0))

/-- A block under its dynamic code, with its code-length header. -/
def codeDynamic (b : List Token) : List Bool :=
  let ll := trimTo 257 (buildLens 15 (countSyms 286 (litSyms b)))
  let dl := trimTo 1 (buildLens 15 (countSyms 30 (distSyms b)))
  let runs := lensRuns (ll ++ dl)
  let cl := buildLens 7 (countSyms 19 (runs.map (·.1)))
  let order := trimTo 4 (clOrder.map (fun s => cl.getD s 0))
  spell 5 (ll.length - 257) ++ spell 5 (dl.length - 1) ++ spell 4 (order.length - 4) ++ order.flatMap (spell 3) ++
    runs.flatMap (fun x => codeBits cl x.1 ++ (if x.1 < 16 then [] else spell (if x.1 = 16 then 2 else if x.1 = 17 then 3 else 7) x.2)) ++
    codeTokens ll dl b

/-! ### Code selection (R309) -/

/-- A stored block of bytes that starts `pos` bits into the stream: alignment, LEN, NLEN, bytes. -/
def codeStored (pos : Nat) (l : List Byte) : List Bool :=
  List.replicate ((8 - (pos + 3) % 8) % 8) false ++ spell 16 l.length ++ spell 16 (65535 - l.length) ++ bitsOfBytes l

/-- The smallest of the permitted kinds: static before dynamic before stored where they tie. -/
def smallest : List (Nat × List Bool) → Nat × List Bool
  | [] => (0, [])
  | x :: rest => rest.foldl (fun a b => if b.2.length < a.2.length then b else a) x

/-- The kinds that HUFF permits, with their codings of a block that starts `pos` bits into the stream. Stored blocks are left out for
a fulled page (R296). -/
def kinds (huff : Nat) (stored : Bool) (pos : Nat) (b : List Token) (l : List Byte) : List (Nat × List Bool) :=
  (if huff = 0 ∨ huff = 1 then [(1, codeTokens staticLens (List.replicate 30 5) b)] else []) ++
    (if huff = 0 ∨ huff = 2 then [(2, codeDynamic b)] else []) ++ (if stored then [(0, codeStored pos l)] else [])

/-- A block with its header. -/
def codeBlock (huff : Nat) (stored final : Bool) (pos : Nat) (b : List Token) (l : List Byte) : List Bool :=
  let k := smallest (kinds huff stored pos b l)
  final :: (spell 2 k.1 ++ k.2)

/-- The blocks of an input, after the bits so far; with `last`, the last one is final, else an empty stored block follows (R311). -/
def codeBlocks (huff : Nat) (last : Bool) : List (List Token) → List Byte → List Byte → List Bool → List Bool
  | [], _, _, bits => if last then bits else bits ++ [false, false, false] ++ codeStored bits.length []
  | b :: rest, hist, inp, bits =>
    let n := ((expand b hist.reverse).elim 0 (·.length)) - hist.length
    codeBlocks huff last rest (hist ++ inp.take n) (inp.drop n)
      (bits ++ codeBlock huff true (last && rest.isEmpty) bits.length b (inp.take n))

/-- Bits as bytes, the last one filled up with zeros. -/
def fillBits (l : List Bool) : List Byte :=
  wholeBytes ((l.length + 7) / 8) (l ++ List.replicate ((8 - l.length % 8) % 8) false)

/-- The bound on the DEFLATE data of `n` input bytes (R312). -/
def deflateBound (n : Nat) (last : Bool) : Nat := n + 5 * ((n + 65534) / 65535) + (if last then 0 else 5)

/-- The DEFLATE data of a job's input after its history (R308 to R312): of the matches that the fuller finds, within the bound. -/
def deflate (huff level : Nat) (last : Bool) (hist inp : List Byte) : List Byte :=
  let found := Config.fullerMatches level hist inp
  let out := fillBits (codeBlocks huff last found hist inp [])
  if blocksOk found hist inp ∧ out.length ≤ deflateBound inp.length last then out
  else fillBits (codeBlocks huff last (literals inp) hist inp [])

/-! ### Fulled pages (R296, R297) -/

/-- The one final block that codes a page: of the matches that the fuller finds, or of its bytes. -/
def deflatePage (page : List Byte) : List Byte :=
  let found := [(Config.fullerMatches 0 [] page).flatten]
  let b := if blocksOk found [] page then found.flatten else (literals page).flatten
  fillBits (codeBlock 0 false true 0 b page)

/-- The stored form of a page, or `none` when the page is too long for 15 batts. -/
def fullPage (page : List Byte) : Option (List Byte) :=
  let d := deflatePage page
  if 8 + d.length ≤ 15 * 256 then
    let fmt : Byte := if (d.headD 0).getLsbD 2 then 1 else 0
    let hdr := toBytes (BitVec.ofNat 16 d.length) 2 ++ [fmt, 0] ++ toBytes (crc32 page) 4
    let raw := hdr ++ d
    some (raw ++ List.replicate ((256 - raw.length % 256) % 256) 0)
  else none

/-- The page that stored batts hold, when its PCRC matches (R297). -/
def unfullPage (stored : List Byte) : Option (List Byte) :=
  let clen := leNat (stored.take 2)
  match inflate ((stored.drop 8).take clen) with
  | .error _ => none
  | .ok (out, _) =>
    if out.length = 4096 ∧ (crc32 out).toNat = leNat ((stored.drop 4).take 4) then some out else none

end Sys2Proof.Machine
end

