-- ==== Sys2Proof/Machine/Aes.lean ====
section
/-! DEFINITION. Machine/Aes.lean: AES-256, key unwrap (RFC 3394), the encryption of batts and the MACs (R263, R269 to R272). -/
namespace Sys2Proof.Machine

/-- A 16 B block as a 128-bit integer, byte 0 most significant (R269). -/
abbrev Block := BitVec 128

/-- Byte `i` of a block, byte 0 most significant. -/
def blkByte (b : Block) (i : Nat) : Byte := b.extractLsb' (120 - 8 * i) 8

/-- The block of sixteen bytes. -/
def blkOf (l : List Byte) : Block := l.foldl (fun a b => (a <<< 8) ||| b.setWidth 128) 0#128

/-- The bytes of a block. -/
def blkBytes (b : Block) : List Byte := (List.range 16).map (blkByte b)

/-- Multiplication by x in the field of AES, x^8 + x^4 + x^3 + x + 1. -/
def xtime (a : Byte) : Byte := if a.getLsbD 7 then (a <<< 1) ^^^ 0x1B#8 else a <<< 1

def xtimeN : Nat → Byte → Byte
  | 0, a => a
  | n + 1, a => xtimeN n (xtime a)

/-- Multiplication in the field of AES. -/
def aesMul (a b : Byte) : Byte := (List.range 8).foldl (fun acc i => if b.getLsbD i then acc ^^^ xtimeN i a else acc) 0#8

/-- The inverse, with 0 for 0: a^254. -/
def aesInv (a : Byte) : Byte := (List.range 253).foldl (fun acc _ => aesMul acc a) a

/-- The S-box of AES. -/
def sbox (a : Byte) : Byte :=
  let x := aesInv a
  x ^^^ x.rotateLeft 1 ^^^ x.rotateLeft 2 ^^^ x.rotateLeft 3 ^^^ x.rotateLeft 4 ^^^ 0x63#8

/-- The inverse S-box. -/
def sboxInv (a : Byte) : Byte :=
  aesInv (a.rotateLeft 1 ^^^ a.rotateLeft 3 ^^^ a.rotateLeft 6 ^^^ 0x05#8)

/-- The words of the AES-256 key schedule, newest first, extended by `n`; `i` is the number of the next. -/
def keyExtend : Nat → Nat → List (List Byte) → List (List Byte)
  | 0, _, w => w
  | n + 1, i, w =>
    let t := w.headD []
    let t := if i % 8 = 0 then
        let r := (t.drop 1 ++ t.take 1).map sbox
        r.mapIdx (fun j b => if j == 0 then b ^^^ xtimeN (i / 8 - 1) 1 else b)
      else if i % 8 = 4 then t.map sbox else t
    keyExtend n (i + 1) (List.zipWith (· ^^^ ·) (w.getD 7 []) t :: w)

/-- The bytes of a 256-bit key, byte 0 most significant. -/
def keyBytes (k : BitVec 256) : List Byte := (List.range 32).map (fun i => k.extractLsb' (248 - 8 * i) 8)

/-- The fifteen round keys of AES-256. -/
def roundKeys (k : BitVec 256) : List (List Byte) :=
  let kb := keyBytes k
  let w := ((keyExtend 52 8 ((List.range 8).map (fun i => (kb.drop (4 * i)).take 4)).reverse).reverse)
  (List.range 15).map (fun r => ((w.drop (4 * r)).take 4).flatten)

/-- MixColumns with the first row of its matrix. -/
def mixCols (row : List Byte) (s : List Byte) : List Byte :=
  (List.range 16).map (fun i =>
    let c := i / 4 * 4
    (List.range 4).foldl (fun acc j => acc ^^^ aesMul (row.getD ((j + 4 - i % 4) % 4) 0) (s.getD (c + j) 0)) 0#8)

/-- ShiftRows: byte i of the result is byte (i + 4·(i mod 4)) mod 16. -/
def shiftRows (s : List Byte) : List Byte := (List.range 16).map (fun i => s.getD ((i + 4 * (i % 4)) % 16) 0)

/-- Inverse ShiftRows. -/
def shiftRowsInv (s : List Byte) : List Byte := (List.range 16).map (fun i => s.getD ((i + 12 * (i % 4)) % 16) 0)

/-- AES-256 encryption of a block. -/
def aes256 (k : BitVec 256) (b : Block) : Block :=
  let rk := roundKeys k
  let add (s r : List Byte) : List Byte := List.zipWith (· ^^^ ·) s r
  let s := add (blkBytes b) (rk.getD 0 [])
  let s := ((rk.drop 1).take 13).foldl (fun s r => add (mixCols [2, 3, 1, 1] (shiftRows (s.map sbox))) r) s
  blkOf (add (shiftRows (s.map sbox)) (rk.getD 14 []))

/-- AES-256 decryption of a block. -/
def aes256Inv (k : BitVec 256) (b : Block) : Block :=
  let rk := roundKeys k
  let add (s r : List Byte) : List Byte := List.zipWith (· ^^^ ·) s r
  let s := (shiftRowsInv (add (blkBytes b) (rk.getD 14 []))).map sboxInv
  let s := ((rk.drop 1).take 13).reverse.foldl
    (fun s r => (shiftRowsInv (mixCols [14, 11, 13, 9] (add s r))).map sboxInv) s
  blkOf (add s (rk.getD 0 []))

/-- One step of the RFC 3394 unwrap: the block number `t` counts down from 6n. -/
def unwrapStep (kek : BitVec 256) (n : Nat) (st : BitVec 64 × List (BitVec 64)) (t : Nat) : BitVec 64 × List (BitVec 64) :=
  let i := (t - 1) % n
  let blk := aes256Inv kek ((st.1 ^^^ BitVec.ofNat 64 t) ++ st.2.getD i 0)
  (blk.extractLsb' 64 64, st.2.set i (blk.extractLsb' 0 64))

/-- RFC 3394 unwrap of 72 B under the KEK with the default initial value (R263): K_enc and K_mac. Byte 0 of the wrapped
material is bits [7:0] of `w`. -/
def unwrapKey (kek : BitVec 256) (w : BitVec 576) : Option (BitVec 256 × BitVec 256) :=
  let be (l : List Byte) : BitVec 64 := l.foldl (fun a b => (a <<< 8) ||| b.setWidth 64) 0#64
  let bs := toBytes w 72
  let words := (List.range 9).map (fun i => be ((bs.drop (8 * i)).take 8))
  let r := (List.range 48).reverse.foldl (fun st t => unwrapStep kek 8 st (t + 1)) (words.headD 0, words.drop 1)
  if r.1 = 0xA6A6_A6A6_A6A6_A6A6#64 then
    let k (l : List (BitVec 64)) : BitVec 256 := l.foldl (fun a b => (a <<< 64) ||| b.setWidth 256) 0#256
    some (k (r.2.take 4), k (r.2.drop 4))
  else none

/-! ### Blocks, keystream and MACs -/

/-- T_enc,i (R269). -/
def tEnc (da c i : Nat) : Block := BitVec.ofNat 128 (2 ^ 125 + da / 256 % 2 ^ 33 * 2 ^ 80 + c % 2 ^ 76 * 16 + i)
/-- T_mac. -/
def tMac (da c : Nat) : Block := BitVec.ofNat 128 (2 * 2 ^ 125 + da / 256 % 2 ^ 33 * 2 ^ 80 + c % 2 ^ 76 * 16)
/-- T_node: the level in bits [115:113]. -/
def tNode (da level c : Nat) : Block :=
  BitVec.ofNat 128 (3 * 2 ^ 125 + level % 8 * 2 ^ 113 + da / 256 % 2 ^ 33 * 2 ^ 80 + c % 2 ^ 76 * 16)

/-- The keystream of a batt: bytes 16i to 16i + 15 are AES of T_enc,i (R270). -/
def keystream (k : BitVec 256) (da c : Nat) : Batt :=
  ofBytes 2048 ((List.range 16).flatMap (fun i => blkBytes (aes256 k (tEnc da c i))))

/-- Encryption and decryption of a batt (R270). -/
def cryptBatt (k : BitVec 256) (da c : Nat) (b : Batt) : Batt := b ^^^ keystream k da c

/-- Multiplication by x in GF(2^128) modulo x^128 + x^7 + x^2 + x + 1 (R271). -/
def gf128X (a : Block) : Block := if a.getLsbD 127 then (a <<< 1) ^^^ 0x87#128 else a <<< 1

/-- Multiplication in GF(2^128); bit j is the coefficient of x^j. -/
def gf128Mul (a b : Block) : Block :=
  ((List.range 128).foldl (fun (st : Block × Block) i =>
    (if b.getLsbD i then st.1 ^^^ st.2 else st.1, gf128X st.2)) (0#128, a)).1

/-- Σ x_i·h^(n−i) over n blocks, by Horner's rule. -/
def gfHash (h : Block) (l : List Block) : Block := l.foldl (fun acc x => gf128Mul (acc ^^^ x) h) 0#128

/-- Blocks of sixteen bytes of a byte string. -/
def blocksOf : Nat → List Byte → List Block
  | 0, _ => []
  | n + 1, l => blkOf (l.take 16) :: blocksOf n (l.drop 16)

/-- The low 64 bits of a MAC as the eight bytes 8 to 15 of the block, stored in that order. -/
def tagWord (b : Block) : Word64 := ofBytes 64 ((blkBytes b).drop 8)

/-- The data MAC of a SEAL batt over its ciphertext (R271). -/
def dataMac (kMac : BitVec 256) (da c : Nat) (x : Batt) : Word64 :=
  tagWord (gfHash (aes256 kMac 0) (blocksOf 16 (toBytes x 256)) ^^^ aes256 kMac (tMac da c))

/-- The node MAC over bytes 0 to 199 padded with eight zero bytes (R272). -/
def nodeMac (kTree : BitVec 256) (da level p : Nat) (n : Batt) : Word64 :=
  tagWord (gfHash (aes256 kTree 0) (blocksOf 13 (toBytes n 200 ++ List.replicate 8 0#8)) ^^^
    aes256 kTree (tNode da level p))

/-! ### Tree nodes (R275) -/

/-- MAJOR of a node. -/
def nodeMajor (n : Batt) : Nat := (bitsOf n 0 64).toNat
/-- Minor `i` of a node. -/
def nodeMinor (n : Batt) (i : Nat) : Nat := (bitsOf n (64 + 12 * i) 12).toNat
/-- A node with minor `i` replaced. -/
def setMinor (n : Batt) (i v : Nat) : Batt := putBits n (64 + 12 * i) (BitVec.ofNat 12 v)
/-- A node with MAJOR replaced. -/
def setMajor (n : Batt) (v : Nat) : Batt := putBits n 0 (BitVec.ofNat 64 v)
/-- A node with NODEMAC replaced. -/
def setNodeMac (n : Batt) (t : Word64) : Batt := putBits n 1600 t
/-- NODEMAC of a node. -/
def getNodeMac (n : Batt) : Word64 := bitsOf n 1600 64
/-- The counter that a node gives its child `i`: major × 2^12 + minor. -/
def nodeCtr (n : Batt) (i : Nat) : Nat := nodeMajor n * 4096 + nodeMinor n i
/-- MAJOR incremented, minor `keep` and every other non-zero minor set to 1, zero minors kept (R281). -/
def resealNode (n : Batt) (keep : Nat) : Batt :=
  (List.range 128).foldl (fun acc i => setMinor acc i (if i = keep || nodeMinor n i ≠ 0 then 1 else 0))
    (setMajor n (nodeMajor n + 1))
/-- MAJOR incremented and every minor 0 (R267). -/
def zeroNode (n : Batt) : Batt :=
  (List.range 128).foldl (fun acc i => setMinor acc i 0) (setMajor n (nodeMajor n + 1))

end Sys2Proof.Machine
end

