-- ==== Sys2Proof/Machine/PackCode.lean ====
section
/-! DEFINITION. Machine/PackCode.lean: the pack code RS(18,16) (R47 to R49), batts on their dies (R44), erasure marks and
rank states (R50, R57), poison markers and the poison list (R73, R74, R586). -/
namespace Sys2Proof.Machine

/-- Multiplication by α = 0x02 in GF(2^8) with polynomial 0x11D (R47). -/
def gfX (a : Byte) : Byte := if a.getLsbD 7 then (a <<< 1) ^^^ 0x1D#8 else a <<< 1

/-- Multiplication by α^n. -/
def gfXn : Nat → Byte → Byte
  | 0, a => a
  | n + 1, a => gfXn n (gfX a)

/-- The product of two elements: the sum of a·α^i over the set bits i of b. -/
def gfMul (a b : Byte) : Byte :=
  (List.range 8).foldl (fun acc i => if b.getLsbD i then acc ^^^ gfXn i a else acc) 0#8

/-- The inverse of an element that is not zero: a^254. -/
def gfInv (a : Byte) : Byte := (List.range 253).foldl (fun acc _ => gfMul acc a) a

/-- The check bytes b16, b17 of sixteen data bytes: m(x)·x² mod g(x), g(x) = x² + 0x03·x + 0x02 (R47). -/
def checkBytes (d : List Byte) : Byte × Byte :=
  d.foldl (fun (r : Byte × Byte) b => let q := r.1 ^^^ b; (r.2 ^^^ gfMul 3 q, gfMul 2 q)) (0#8, 0#8)

/-- The syndromes S0 = Σ bi and S1 = Σ bi·α^(17−i) of eighteen bytes (R47). -/
def syndromes (c : List Byte) : Byte × Byte :=
  (c.foldl (· ^^^ ·) 0#8, (c.mapIdx (fun i b => gfXn (17 - i) b)).foldl (· ^^^ ·) 0#8)

/-- A byte string with `v` added at position `i`. -/
def xorAt (c : List Byte) (i : Nat) (v : Byte) : List Byte := c.mapIdx (fun j b => if j == i then b ^^^ v else b)

/-- The decoding of one beat under the erased positions in force (R48): the corrected bytes with the positions that
changed, or `none` for an uncorrectable beat. -/
def decodeBeat (erased : List Nat) (c : List Byte) : Option (List Byte × List Nat) :=
  let s := syndromes c
  match erased with
  | [] =>
    if s.1 == 0 && s.2 == 0 then some (c, [])
    else if s.1 == 0 || s.2 == 0 then none
    else match (List.range 18).find? (fun u => gfXn u s.1 == s.2) with
      | some u => some (xorAt c (17 - u) s.1, [17 - u])
      | none => none
  | [e] =>
    if s.2 == gfXn (17 - e) s.1 then some (xorAt c e s.1, if s.1 == 0 then [] else [e]) else none
  | [e1, e2] =>
    let u1 := gfXn (17 - e1) 1
    let u2 := gfXn (17 - e2) 1
    let v1 := gfMul (s.2 ^^^ gfMul s.1 u2) (gfInv (u1 ^^^ u2))
    let v2 := s.1 ^^^ v1
    some (xorAt (xorAt c e1 v1) e2 v2, (if v1 == 0 then [] else [e1]) ++ (if v2 == 0 then [] else [e2]))
  | _ => none

/-- What decoding a batt gives (R49, R73). -/
inductive Decoded where
  /-- delivered, with the byte positions that were corrected -/
  | good (data : Batt) (fixed : List Nat)
  | marker
  | bad
  deriving DecidableEq, Repr, Inhabited

/-- The eighteen bytes of beat `k` as the dies return them: the data of R44 with its check bytes, the check bytes XOR 0x5A
in a poison marker (R73), and the errors of the dies. -/
def beatBytes (b : Batt) (marker : Bool) (errs : List (Nat × Nat × Byte)) (k : Nat) : List Byte :=
  let d := (List.range 16).map (fun i => byteOf b (16 * k + i))
  let c := checkBytes d
  let x : Byte := if marker then 0x5A else 0
  errs.foldl (fun l e => if e.1 == k then xorAt l e.2.1 e.2.2 else l) (d ++ [c.1 ^^^ x, c.2 ^^^ x])

/-- Whether a beat carries the signature of a poison marker (R73). -/
def markerBeat (erased : List Nat) (c : List Byte) : Bool :=
  let s := syndromes c
  match erased with
  | [] => s.1 == 0 && s.2 == 0xEE
  | [e] => s.2 ^^^ gfXn (17 - e) s.1 == 0xEE
  | _ => false

/-- The decoding of a batt: 16 beats, errors by (beat, position, pattern) (R48, R49, R73). -/
def decodeBatt (erased : List Nat) (b : Batt) (marker : Bool) (errs : List (Nat × Nat × Byte)) : Decoded :=
  let beats := (List.range 16).map (beatBytes b marker errs)
  if beats.all (markerBeat erased) then .marker
  else match beats.mapM (decodeBeat erased) with
    | none => .bad
    | some l =>
      let fixed := (l.flatMap (·.2)).eraseDups
      if erased.isEmpty && fixed.length > 1 then .bad
      else .good (ofBytes 2048 (l.flatMap (fun x => x.1.take 16))) fixed

/-! ### Device addresses (R46) -/

def daPack (da : Nat) : Pack := ⟨(2 * (da / 2 ^ 39 % 4) + da / 256 % 2) % 8, by omega⟩
def daTile (da : Nat) : Tile := ⟨da / 2 ^ 39 % 4, by omega⟩
def daCol (da : Nat) : Nat := da / 2 ^ 9 % 64
def daRank (da : Nat) : Nat := da / 2 ^ 19 % 4
def daRow (da : Nat) : Nat := da / 2 ^ 21 % 2 ^ 18
/-- The JEDEC bank: DA[18:15] XOR DA[24:21]. -/
def daBank (da : Nat) : Nat := (da / 2 ^ 15 % 16) ^^^ (da / 2 ^ 21 % 16)
/-- The rank-bank number of R87. -/
def daRB (da : Nat) : Nat := 16 * daRank da + daBank da

/-- The device address of a batt of a pack: the inverse of R46. -/
def daOf (pack : Pack) (rb row col : Nat) : Nat :=
  pack.val / 2 * 2 ^ 39 + row * 2 ^ 21 + rb / 16 % 4 * 2 ^ 19 + ((rb % 16) ^^^ (row % 16)) * 2 ^ 15 + col * 2 ^ 9 +
    pack.val % 2 * 2 ^ 8

/-- The batt's address: the byte within the batt dropped. -/
def battOf (da : Nat) : Nat := da / 256 * 256

/-- The location code of a batt (R76): PACK, RANK and BANK resolved. -/
def locBatt (da : Nat) : Word32 := locCode (daPack da).val none none (some (daRank da)) (some (daBank da)) none none

/-! ### Erasure marks (R50) -/

/-- The erased byte positions of a rank, rising. -/
def erasedOf (p : PackSt) (rank : Nat) : List Nat :=
  (List.range 18).filter (fun i => p.dieMarks.contains (rank, i) || p.chMarks.contains (i / 2))

/-- The erased positions for a batt: those of its rank, or for a batt under channel test after its pattern write the
tested channel's two positions (R61). -/
def erasedAt (p : PackSt) (chan : Option Nat) (da : Nat) : List Nat :=
  match chan with
  | some ch => if p.tests.any (fun t => t.da == da && 2 ≤ t.step) then [2 * ch, 2 * ch + 1] else erasedOf p (daRank da)
  | none => erasedOf p (daRank da)

/-- Rank states: 0 Clean, 1 Degraded, 2 Exposed, 3 Failed. -/
def rankState (p : PackSt) (rank : Nat) : Nat := min 3 (erasedOf p rank).length

/-- What the pattern of a channel test leaves in the stored bytes of a batt (R61): in both bytes of the tested channel, beat k
carries 0x55 when k + column is even and 0xAA otherwise, as differences from the codeword of the batt. -/
def patternErrs (ch col : Nat) (b : Batt) : List (Nat × Nat × Byte) :=
  (List.range 16).flatMap (fun k =>
    let good := beatBytes b false [] k
    let pat : Byte := if (k + col) % 2 = 0 then 0x55 else 0xAA
    [(k, 2 * ch, good.getD (2 * ch) 0 ^^^ pat), (k, 2 * ch + 1, good.getD (2 * ch + 1) 0 ^^^ pat)])

/-- The pattern that the dies hold in a batt: that of its test, from the pattern write to the restore (R61). -/
def testPattern (p : PackSt) (chan : Option Nat) (da : Nat) (b : Batt) : List (Nat × Nat × Byte) :=
  match chan with
  | some ch => if p.tests.any (fun t => t.da == da && 2 ≤ t.step) then patternErrs ch (daCol da) b else []
  | none => []

/-- Batts corrected in a rank in the last complete 1 s window at time `now` (R53). -/
def ceWindow (p : PackSt) (now rank : Nat) : Nat :=
  if now - p.ceStart < 1000000000 then tabGet 0 p.ceCount rank
  else if now - p.ceStart < 2000000000 then tabGet 0 p.ceNow rank else 0

/-- The rank health word at time `now` (R53). Of several channel marks ERASE0 and ERASE1 show the one placed last (DESIGN
CHOICE, log entry 104). -/
def healthWord (p : PackSt) (now rank : Nat) : Word32 :=
  let e := erasedOf p rank
  let ch := p.chMarks.any (fun _ => true)
  let chp := p.chMarks.headD 0
  let e0 := if ch then 2 * chp else e.getD 0 31
  let e1 := if ch then 2 * chp + 1 else e.getD 1 31
  let e0 := if !ch && e.length > 2 then e.getD 0 31 else e0
  BitVec.ofNat 32 (rankState p rank + (if p.tests.any (fun t => daRank t.da == rank && 2 ≤ t.step) then 4 else 0) +
    (if p.diag.isSome then 8 else 0) + e0 * 2 ^ 4 + e1 * 2 ^ 9 + (if ch then 2 ^ 14 else 0) +
    (if p.plFull then 2 ^ 15 else 0) + min 0xFFFF (ceWindow p now rank) * 2 ^ 16)

/-! ### Recorded poison (R73, R74, R586) -/

/-- A batt-sized write of fresh data: every record of poison of the batt ends (R77, R74). -/
def cleanBatt (da : Nat) (p : PackSt) : PackSt :=
  { p with markers := p.markers.filter (· != da), poisonList := p.poisonList.filter (· != da),
           poisonPend := p.poisonPend.filter (· != da) }

/-- Whether storing poison for `da` finds its poison list full (R74). -/
def listFull (p : PackSt) (da : Nat) : Bool :=
  rankState p (daRank da) == 2 && p.poisonList.length ≥ 4096 && !p.poisonList.contains da

/-- Write a batt to the dies with or without poison: the data and the record of poison by rank state. -/
def writeBatt (da : Nat) (b : Batt) (poison : Bool) (m : Mod) : Mod :=
  let p : PackSt := m.packs[daPack da]
  if m.prot.stop.isSome then m
  else if !poison then
    onPack (daPack da) (cleanBatt da) { m with mem := memPutBatt m.mem da b }
  else match rankState p (daRank da) with
    | 0 | 1 => onPack (daPack da) (fun p => { cleanBatt da p with markers := da :: (cleanBatt da p).markers })
        { m with mem := memPutBatt m.mem da b }
    | 2 =>
      if listFull p da then
        event 0x0205 (locBatt da) da
          (onPack (daPack da) (fun p => { cleanBatt da p with plFull := true }) { m with mem := memPutBatt m.mem da 0 })
      else onPack (daPack da) (fun p => { cleanBatt da p with poisonList := da :: (cleanBatt da p).poisonList })
        { m with mem := memPutBatt m.mem da b }
    | _ => onPack (daPack da) (cleanBatt da) { m with mem := memPutBatt m.mem da b }

end Sys2Proof.Machine
end

