-- ==== Sys2Proof/Machine/DispQ.lean ====
section
/-! DEFINITION. Machine/DispQ.lean: the dispatcher's pools and queues (R87, R91, R110, R411 to R413), the tile's write
buffer (R90), and the fullers that fills may use (R314, R316). -/
namespace Sys2Proof.Machine

/-- *Dispatcher queue entries* (R91). -/
def poolSize : SlotClass → Nat
  | .cellWr | .cellRd | .tier | .job => 64
  | .lineFill | .lineWb => 256
  | .metaSlot | .mirror => 128
  | .scrub => 16
  | .openSlot | .refresh | .train => 0

/-- Whether the class's pool is divided by label (R408, R411). -/
def labelled : SlotClass → Bool
  | .cellWr | .cellRd | .lineFill | .lineWb | .job => true
  | _ => false

/-- The reads that a pack's diagnosis holds. -/
def heldReqs (p : PackSt) : List DReq :=
  match p.diag with
  | some d => d.held.map (·.req)
  | none => []

/-- The requests that hold an entry of the class: in a queue, sent to the sequencer, or held by a diagnosis (R58). -/
def holders (p : PackSt) (c : SlotClass) : List DReq :=
  (p.queue ++ p.bound.map (·.req) ++ heldReqs p).filter (fun r => r.cls == c)

/-- What R412 answers for a pool of `e` entries with a reserve of `r` per label, given the
holdings by label: admitted, and whether the label waits under rule 3. -/
def shareAdmit (e r shared qshare : Nat) (hold : BitVec 3 → Nat) (l : BitVec 3) : Bool × Bool :=
  let h := hold l
  let used := ((List.range 8).map (fun k => hold (BitVec.ofNat 3 k) - r)).sum
  let freeShared := shared - used
  if h < r then (true, false)
  else if h < qshare * e / 32 then (0 < freeShared, false)
  else (e / 8 < freeShared - 1 && 0 < freeShared, true)

/-- Whether a buffer of `e` entries takes `n` more for a user (R414, R416): from the user's own reservation, or from what no
reservation holds. `res`: the reservations; `hold`: the holdings. -/
def userAdmit (e : Nat) (res hold : List (Nat × Nat)) (user n : Nat) : Bool :=
  let after := tabMod 0 hold user (· + n)
  tabGet 0 after user ≤ tabGet 0 res user ||
    (after.map (fun x => x.2 - tabGet 0 res x.1)).sum ≤ e - (res.map (·.2)).sum

/-- Holdings by user of a list of things, each with its user and its number of entries. -/
def holdings (l : List (Nat × Nat)) : List (Nat × Nat) := l.foldl (fun t x => tabMod 0 t x.1 (· + x.2)) []

/-- The kinds of work for which a pool without labels reserves entries (R416). -/
def kindReserve : SlotClass → List (Nat × Nat)
  | .metaSlot => (List.range 6).map (fun k => (k, 16))
  | .tier => [(1, 32)]
  | .mirror => [(0, 64), (1, 32)]
  | _ => []

/-- Entries of a class's pool held by a label. -/
def holdOf (p : PackSt) (c : SlotClass) (l : BitVec 3) : Nat := ((holders p c).filter (fun r => r.label == l)).length

/-- Whether a request may take a dispatcher entry now (R91, R412, R414, R416): no bank queue above half the pool. A batt under
channel test holds a SCRUB entry (R67). -/
def dispAdmit (m : Mod) (p : PackSt) (q : DReq) : Bool × Bool :=
  let e := poolSize q.cls
  let h := holders p q.cls
  let tests := if q.cls == .scrub then p.tests else []
  if e / 2 ≤ (h.filter (fun r => r.bank == q.bank)).length + (tests.filter (fun x => daRB x.da == q.bank)).length then (false, false)
  else if labelled q.cls then
    shareAdmit e (e / 32) (3 * e / 4) (m.labels[q.label.toNat]'q.label.isLt).qshare (holdOf p q.cls) q.label
  else (userAdmit e (kindReserve q.cls) (holdings (h.map (fun r => (r.kind, 1)) ++ tests.map (fun _ => (0, 1)))) q.kind 1, false)

/-- A request waits in the stage before its pool (R110); rule 3 of R412 counts it (R415). -/
def awaitEntry (q : DReq) (overs : Bool) (m : Mod) : Mod :=
  let m := if overs then onLabel q.label (fun l => { l with overs := l.overs + 1 }) m else m
  onPack (daPack q.da) (fun p => { p with waiting := p.waiting ++ [q] }) m

/-- A read takes an entry at the end of its bank queue, or waits in the stage before the pool (R110). -/
def enqReq (q : DReq) (m : Mod) : Mod :=
  let pk := daPack q.da
  let a := dispAdmit m m.packs[pk] q
  if a.1 then onPack pk (fun p => { p with queue := p.queue ++ [q] }) m else awaitEntry q a.2 m

/-- A request that already holds its entry goes back to the head of its bank queue (R58, R101). -/
def requeue (q : DReq) (p : PackSt) : PackSt := { p with queue := q :: p.queue }

/-- The bank queue's head: the first request of a class and bank (R87). -/
def headOf (p : PackSt) (c : SlotClass) (bank : Nat) : Option DReq :=
  p.queue.find? (fun r => r.cls == c && r.bank == bank)

/-- The queue without a given head. -/
def takeReq (q : DReq) (p : PackSt) : PackSt := { p with queue := p.queue.erase q }

/-- A request of a batt. -/
def battReq (cls : SlotClass) (da : Nat) (write : Bool) (label : BitVec 3) (kind : Nat) (why : Purpose) : DReq :=
  { cls := cls, bank := daRB da, da := battOf da, write := write, label := label, kind := kind, group := false, why := why,
    tried := false }

/-- A request of a cell group: the four batts of one pack from `da` upward (R83). -/
def groupReq (cls : SlotClass) (da : Nat) (write : Bool) (label : BitVec 3) (why : Purpose) : DReq :=
  { battReq cls da write label 0 why with group := true }

/-- The device addresses of a request: a batt, or four batts of the pack (R83). -/
def reqBatts (q : DReq) : List Nat :=
  if q.group then (List.range 4).map (fun i => q.da + 512 * i) else [q.da]

/-! ### The read-return buffer (R89, R416) -/

/-- The user that a request is in the read-return buffer and the write buffer: its class, META by kind. -/
def bufUser (c : SlotClass) (kind : Nat) : Nat := if c == .metaSlot then 16 + kind else c.code

/-- *Reserved entries*: the read-return buffer of a tile. -/
def readReserve : List (Nat × Nat) :=
  [(2, 128), (3, 64), (6, 32), (7, 16), (9, 8), (10, 32), (11, 32)] ++ (List.range 6).map (fun k => (16 + k, 16))

/-- The two packs of a tile. -/
def tilePacks (m : Mod) (t : Tile) : List PackSt := [m.packs[2 * t.val]'(by omega), m.packs[2 * t.val + 1]'(by omega)]

/-- The reads that hold read-return entries of a tile: those sent to a sequencer, and those that a diagnosis holds. -/
def readHolds (m : Mod) (t : Tile) : List (Nat × Nat) :=
  holdings (((tilePacks m t).flatMap (fun p => p.bound.map (·.req) ++ heldReqs p)).filterMap (fun q =>
    if q.write then none else some (bufUser q.cls q.kind, (reqBatts q).length)))

/-- Whether a read-return entry for each batt of a read can be reserved now. -/
def readRoom (m : Mod) (t : Tile) (q : DReq) : Bool :=
  userAdmit 1024 readReserve (readHolds m t) (bufUser q.cls q.kind) (reqBatts q).length

/-! ### The write buffer (R90, R416) -/

/-- *Reserved entries*: the write buffer of a tile, but for the 32 that the META kinds share. -/
def writeReserve : List (Nat × Nat) :=
  [(1, 512), (4, 256), (6, 64), (7, 16), (10, 64), (11, 128)] ++ (List.range 6).map (fun k => (16 + k, 16))

/-- Holdings of a tile's write buffer: the pending writes, and the scrub writes of its packs. -/
def writeHolds (m : Mod) (t : Tile) : List (Nat × Nat) :=
  holdings ((m.wbuf[t] : List WEntry).map (fun e => (bufUser e.cls e.kind, 1)) ++
    ((tilePacks m t).flatMap (·.queue)).filterMap (fun q => if q.cls == .scrub && q.write then some (7, 1) else none))

/-- Whether the write buffer takes `n` more batts of a class and kind. -/
def writeRoom (m : Mod) (t : Tile) (c : SlotClass) (kind n : Nat) : Bool :=
  let u := bufUser c kind
  let after := tabMod 0 (writeHolds m t) u (· + n)
  let excess (x : Nat × Nat) : Nat := x.2 - tabGet 0 writeReserve x.1
  let metaOver := ((after.filter (fun x => 16 ≤ x.1)).map excess).sum
  let rest := ((after.filter (fun x => x.1 < 16)).map excess).sum
  tabGet 0 after u ≤ tabGet 0 writeReserve u || (16 ≤ u && metaOver ≤ 32) ||
    (metaOver - 32) + rest ≤ 4096 - (writeReserve.map (·.2)).sum - 32

/-- The pending write of a batt: in the write buffer, or in the stage before it (R110). -/
def wbFind (m : Mod) (da : Nat) : Option WEntry :=
  ((m.wbuf[daTile da] : List WEntry) ++ (m.wbWait[daTile da] : List WEntry)).find? (fun e => e.da == battOf da)

/-- Whether a write of a batt is taken at once: a pending write of it stands (R90), or an entry of its pool and room in the
write buffer are free. The second answer: it waits under rule 3 of R412. -/
def wbAccepts (m : Mod) (cls : SlotClass) (kind : Nat) (label : BitVec 3) (da : Nat) : Bool × Bool :=
  if (wbFind m da).isSome then (true, false)
  else
    let a := dispAdmit m m.packs[daPack da] (battReq cls da true label kind .write)
    (a.1 && writeRoom m (daTile da) cls kind 1, a.2)

/-- A write of any class to a batt outranks a scrub write-back, a poison marker or a channel test of it that waits (R62, R68,
R77): they are cancelled. -/
def scrubYields (da : Nat) (m : Mod) : Mod :=
  let drop (r : DReq) : Bool := r.cls == .scrub && r.da == da && r.write
  onPack (daPack da) (fun p => { p with
    queue := p.queue.filter (fun r => !drop r), waiting := p.waiting.filter (fun r => !drop r),
    poisonPend := p.poisonPend.filter (· != da), tests := p.tests.filter (fun x => x.da != da) }) m

/-- The new content of a batt where it stands for work of the module that has read it. -/
def hereWrite (da : Nat) (b : Batt) (poison : Bool) (m : Mod) : Mod :=
  { m with here := m.here.map (fun e => if e.da == da then { e with data := b, poison := poison } else e) }

/-- Hand a batt to the write buffer and queue its write. A pending write of the batt is replaced in place (R90); without an
entry or without room the batt waits in the stage before (R110). -/
def wbPut (cls : SlotClass) (kind : Nat) (label : BitVec 3) (da : Nat) (b : Batt) (poison : Bool) (m : Mod) : Mod :=
  let t := daTile da
  let a := battOf da
  let m := hereWrite a b poison (scrubYields a m)
  let put (l : List WEntry) : List WEntry := l.map (fun e => if e.da == a then { e with data := b, poison := poison } else e)
  if (wbFind m a).isSome then { m with wbuf := m.wbuf.set t (put m.wbuf[t]), wbWait := m.wbWait.set t (put m.wbWait[t]) }
  else
    let e : WEntry := { da := a, data := b, poison := poison, cls := cls, label := label, kind := kind }
    let q := battReq cls a true label kind .write
    let ok := wbAccepts m cls kind label a
    if ok.1 then
      onPack (daPack a) (fun p => { p with queue := p.queue ++ [q] }) { m with wbuf := m.wbuf.set t ((m.wbuf[t] : List WEntry) ++ [e]) }
    else awaitEntry q ok.2 { m with wbWait := m.wbWait.set t ((m.wbWait[t] : List WEntry) ++ [e]) }

/-- The pending write of a batt leaves the buffer. -/
def wbDel (da : Nat) (m : Mod) : Mod :=
  let t := daTile da
  let out (l : List WEntry) : List WEntry := l.filter (fun e => e.da != battOf da)
  { m with wbuf := m.wbuf.set t (out m.wbuf[t]), wbWait := m.wbWait.set t (out m.wbWait[t]) }

/-- Hand a cell group to the write buffer: the four batts of one pack from `da` upward and one request for them (R83, R353). -/
def groupPut (cls : SlotClass) (label : BitVec 3) (da : Nat) (l : List (Batt × Bool)) (why : Purpose) (m : Mod) : Mod :=
  let t := daTile da
  let q := groupReq cls da true label why
  let m := ((reqBatts q).zip l).foldl (fun m x => wbDel x.1 (hereWrite x.1 x.2.1 x.2.2 (scrubYields x.1 m))) m
  let es : List WEntry := ((reqBatts q).zip l).map (fun x =>
    { da := x.1, data := x.2.1, poison := x.2.2, cls := cls, label := label, kind := 0 })
  let a := dispAdmit m m.packs[daPack da] q
  if a.1 && writeRoom m t cls 0 4 then
    onPack (daPack da) (fun p => { p with queue := p.queue ++ [q] }) { m with wbuf := m.wbuf.set t ((m.wbuf[t] : List WEntry) ++ es) }
  else awaitEntry q a.2 { m with wbWait := m.wbWait.set t ((m.wbWait[t] : List WEntry) ++ es) }


/-! ### What the module has at hand -/

/-- A batt that a read has brought for work of the module. -/
def hereFind (m : Mod) (da : Nat) : Option Here := m.here.find? (fun e => e.da == battOf da)

/-- Whether a batt can be used without a slot: a pending write (R90), or a read that has come. -/
def atHand (m : Mod) (da : Nat) : Bool := (wbFind m da).isSome || (hereFind m da).isSome

/-- Whether a read of a batt for work of the module is under way. -/
def onTheWay (m : Mod) (da : Nat) : Bool :=
  let p : PackSt := m.packs[daPack da]
  let mine (q : DReq) : Bool := (match q.why with
    | .need _ => true
    | _ => false) && (reqBatts q).contains (battOf da)
  (p.queue ++ p.bound.map (·.req) ++ heldReqs p ++ p.waiting).any mine

/-- Ask for a batt that work of the module needs, unless it is at hand or asked for. -/
def wantBatt (own : Owner) (cls : SlotClass) (kind : Nat) (label : BitVec 3) (m : Mod) (da : Nat) : Mod :=
  if atHand m da || onTheWay m da then m else enqReq (battReq cls da false label kind (.need own)) m

/-- The work of an owner is done: what was read for it goes. -/
def dropHere (own : Owner) (m : Mod) : Mod := { m with here := m.here.filter (fun e => e.own != own) }

/-- What the module has of a batt, and whether it is poisoned: its pending write (R90), what a read has brought, or, for a
batt that is neither, as the dies hold it, where a recorded poison and a Failed rank read as poison; a marker in an Exposed
rank decodes as its two erasures make it (R48, R73). -/
def battNow (m : Mod) (da : Nat) : Batt × Bool :=
  let a := battOf da
  match wbFind m a, hereFind m a with
  | some e, _ => (e.data, e.poison)
  | none, some e => (e.data, e.poison)
  | none, none =>
    let p : PackSt := m.packs[daPack a]
    if rankState p (daRank a) == 3 || p.poisonList.contains a || p.poisonPend.contains a then (memBatt m.mem a, true)
    else if p.markers.contains a then
      match decodeBatt (erasedOf p (daRank a)) (memBatt m.mem a) true [] with
      | .good b _ => (b, false)
      | _ => (memBatt m.mem a, true)
    else (memBatt m.mem a, false)

/-! ### Fullers (R314, R316) -/

/-- The fullers of a tile in service. -/
def tileFullers (m : Mod) (t : Nat) : List FullerNo :=
  (List.finRange 8).filter (fun f => f.val / 2 == t && (m.fullers[f] : Fuller).mode == 0)

/-- One of a list of fullers in service: any of two (log entry 49). -/
def anyFuller (m : Mod) (l : List FullerNo) : Option FullerNo :=
  match l with
  | [] => none
  | [f] => some f
  | f :: g :: _ => some (if Config.fullerPick m.tb.now m.jobs.length then g else f)

/-- The fuller that serves a tile's fills and tier moves: one of its own, else one of the other tile of the half (R316). -/
def fullerFor (m : Mod) (t : Nat) : Option FullerNo :=
  anyFuller m (if (tileFullers m t).isEmpty then tileFullers m (if t % 2 = 0 then t + 1 else t - 1) else tileFullers m t)

/-- Whether a piece of work is a fill. -/
def isFill (w : FullWork) : Bool :=
  match w with
  | .fill _ _ => true
  | _ => false

/-- Whether a fuller has a piece of work. -/
def fullerHolds (g : Fuller) (w : FullWork) : Bool := g.run == some w || g.paused == some w || g.queue.contains w

/-- The fuller that has a piece of work, and the one that runs it. -/
def fullerOf (m : Mod) (w : FullWork) : Option FullerNo := (List.finRange 8).find? (fun f => fullerHolds m.fullers[f] w)
def fullerRuns (m : Mod) (w : FullWork) : Option FullerNo := (List.finRange 8).find? (fun f => (m.fullers[f] : Fuller).run == some w)

/-- Whether a job uses its stream context (R311). -/
def usesCtx (j : Job) : Bool := !(j.first && j.last)

/-- Whether two jobs name one stream context: its place, whatever label and key id go with it. -/
def sameCtx (j k : Job) : Bool := j.ctx % 2 ^ 42 == k.ctx % 2 ^ 42

/-- Whether work may begin: a job that names the context of an earlier one waits for it (R311). -/
def mayBegin (m : Mod) (w : FullWork) : Bool :=
  match w with
  | .job id => match m.jobs.find? (fun j => j.id == id) with
    | some j => !(usesCtx j && (m.jobs.takeWhile (fun k => k.id != id)).any (fun k => usesCtx k && sameCtx k j))
    | none => false
  | _ => true

/-- A fuller takes up what is next (R147, R419): a fill at once, in its order, so that a job or tier move is interrupted at its next
256 B boundary; then what was interrupted; then the oldest other work that may begin. -/
def fullerNext (f : FullerNo) (m : Mod) : Mod :=
  let g : Fuller := m.fullers[f]
  let put (g : Fuller) : Mod := { m with fullers := m.fullers.set f g }
  if g.mode != 0 || g.run.elim false isFill then m
  else match g.queue.find? isFill with
    | some w => put { g with run := some w, paused := g.run.orElse fun _ => g.paused, queue := g.queue.erase w }
    | none =>
      if g.run.isSome then m
      else match g.paused with
        | some w => put { g with run := some w, paused := none }
        | none => match g.queue.find? (mayBegin m) with
          | some w => put { g with run := some w, queue := g.queue.erase w }
          | none => m

/-- Every fuller takes up what is next. -/
def fullersNext (m : Mod) : Mod := (List.finRange 8).foldl (fun m f => fullerNext f m) m

/-- Work for a fuller: it waits behind what the fuller has already. -/
def fullerGive (f : FullerNo) (w : FullWork) (m : Mod) : Mod :=
  if (fullerOf m w).isSome then m
  else
    let g : Fuller := m.fullers[f]
    fullerNext f { m with fullers := m.fullers.set f { g with queue := g.queue ++ [w] } }

/-- Work that has ended, or that goes no further, leaves its fuller. -/
def fullerEnd (w : FullWork) (m : Mod) : Mod :=
  let out (o : Option FullWork) : Option FullWork := if o == some w then none else o
  fullersNext { m with fullers := m.fullers.map (fun (g : Fuller) =>
    { g with run := out g.run, paused := out g.paused, queue := g.queue.filter (· != w) }) }

/-- One of the two fullers of a tile (R314). -/
def fullerAt (t : Tile) (u : Fin 2) : FullerNo := ⟨2 * t.val + u.val, by omega⟩

/-- The other fuller of a tile. -/
def twin (f : FullerNo) : FullerNo := ⟨if f.val % 2 = 0 then f.val + 1 else f.val - 1, by split <;> omega⟩

/-- The work of a fuller that is out of service goes to another: jobs to its twin alone, fills and moves to the fuller that serves
their tile (R315, R316); what finds none stays. -/
def handOver (f : FullerNo) (m : Mod) : Mod :=
  let g : Fuller := m.fullers[f]
  if g.mode = 0 then m
  else
    let ws := g.run.toList ++ g.paused.toList ++ g.queue
    let to_ (m : Mod) (w : FullWork) : FullerNo := match w with
      | .job _ => if (m.fullers[twin f] : Fuller).mode = 0 then twin f else f
      | .fill t _ | .move t _ => (fullerFor m t.val).getD f
    let give (m : Mod) (w : FullWork) : Mod :=
      let h := to_ m w
      let m := match w with
        | .job id => { m with jobs := m.jobs.map (fun (j : Job) => if j.id == id then { j with fuller := h.val } else j) }
        | _ => m
      fullerGive h w m
    ws.foldl give { m with fullers := m.fullers.set f { g with run := none, paused := none, queue := [] } }

/-- What waits for fullers that are out of service goes to those that are in service, and every fuller takes up what is next. -/
def handOvers (m : Mod) : Mod := fullersNext ((List.finRange 8).foldl (fun m f => handOver f m) m)

/-- An unconfirmed mismatch takes the first fuller out of service and is counted (R297, R308, R314). -/
def fullerMismatch (f : FullerNo) (m : Mod) : Mod :=
  let g : Fuller := m.fullers[f]
  { m with fullers := m.fullers.set f { g with mode := 2, mismatch := satAdd 0xFFFF_FFFF g.mismatch 1 } }

/-! ### Locations of a logical line -/

/-- The page's place in a tile's elastic pool (R290): frame address from entry bits [36:10] and the pool's tile. -/
def frameDa (t : Nat) (frame : Nat) : Nat := t * 2 ^ 39 + frame * 4096

end Sys2Proof.Machine
end

