-- ==== Sys2Proof/Machine/GangOps.lean ====
section
/-! DEFINITION. Machine/GangOps.lean: sending on the gangline: sequence numbers, replay buffer, credits (R430 to R435), and
what a header of a received flit does (R427, R433, R434). -/
namespace Sys2Proof.Machine

/-- Change the gangline. -/
def onGang (f : GangSt → GangSt) (m : Mod) : Mod := { m with gang := f m.gang }

/-! ### Flits (R427 to R429, R437) -/

/-- The KIND of a message's flit: 0 idle, 1 request, 2 response, 3 replay marker. -/
def flitKind (x : GangOut) : Nat :=
  match x with
  | .idle _ | .bark => 0
  | .mwr _ _ _ _ _ | .mwrp _ _ _ _ _ _ | .rsd _ _ _ _ | .zpg _ | .rdig _ _ => 1
  | .marker _ => 3
  | .hello _ _ _ _ _ | .mack _ _ | .rack _ _ | .suspend | .resume | .stop | .change _ _ | .resyncDone => 2

/-- The 8 B of *Message header*: MSG, TAG, KEYID, bit 22, OFF. -/
def msgHeader (code tag key : Nat) (flag : Bool) (off : Nat) : List Byte :=
  toBytes (BitVec.ofNat 64 (code + tag % 4096 * 2 ^ 4 + key % 64 * 2 ^ 16 + (if flag then 2 ^ 22 else 0) + off % 2 ^ 36 * 2 ^ 28)) 8

/-- A CTL message: its control code, and what it carries (log entry 131). -/
def ctlMessage (k : Nat) (l : List Nat) : List Byte := msgHeader 8 (Config.ctlCode k) 0 false 0 ++ Config.ctlBytes k l

/-- The payload of a message (*Gangline messages*). -/
def flitPayload (x : GangOut) : List Byte :=
  match x with
  | .idle _ | .bark => []
  | .marker n => Config.ctlBytes 6 [n]
  | .mwr t k off d p => msgHeader 1 t k.toNat p (off / 64) ++ toBytes d 64
  | .mwrp t k off d en p => msgHeader 2 t k.toNat p (off / 64) ++ toBytes en 8 ++ toBytes d 64
  | .rsd k off d p => msgHeader 3 0 k.toNat p (off / 64) ++ toBytes d 64
  | .zpg off => msgHeader 4 0 0 false (off / 64)
  | .rdig g ds => msgHeader 5 0 0 false g ++ (ds.map (fun d => toBytes d 8)).flatten
  | .mack t st => msgHeader 6 t st false 0
  | .rack g d => msgHeader 7 0 0 d g
  | .hello e f d p x => ctlMessage 0 [Config.moduleId.toNat, e, if f then 1 else 0, if d then 1 else 0, if p then 1 else 0, x.toNat]
  | .suspend => ctlMessage 1 []
  | .resume => ctlMessage 2 []
  | .stop => ctlMessage 3 []
  | .change w r => ctlMessage 4 [w, r]
  | .resyncDone => ctlMessage 5 []

/-- The header of a flit as it is sent (R427): KIND, ACK with ACKV, CRED, BARK, EPOCH. -/
def flitHeader (g : GangSt) (x : GangOut) : List Byte :=
  toBytes (BitVec.ofNat 32 (flitKind x + (g.expect + 4095) % 4096 * 2 ^ 2 + (if g.ackV then 2 ^ 14 else 0) + g.credRet % 1024 * 2 ^ 15 +
    (if x == .bark then 2 ^ 25 else 0) + g.epoch.toNat % 64 * 2 ^ 26)) 4

/-- The implicit word of a flit (R428): 0x8000 + its number when it is sequenced, else 0. -/
def implicitWord (kind seq : Nat) : List Byte := toBytes (BitVec.ofNat 16 (if kind = 1 ∨ kind = 2 then 0x8000 + seq % 4096 else 0)) 2

/-- The CRC of a flit's first 124 bytes (R428). -/
def flitCrc (l : List Byte) (seq : Nat) : List Byte := toBytes (crc32c (l.take 124 ++ implicitWord ((l.headD 0).toNat % 4) seq)) 4

/-- Whether a byte has an odd number of ones. -/
def oddByte (b : Byte) : Bool := ((List.range 8).filter (fun i => b.getLsbD i)).length % 2 == 1

/-- The 32 parity bits of a flit's first 124 bytes (R437): bit 4 × (i mod 8) + ⌊i / 32⌋ is the even parity of the bytes i with that
index. -/
def flitParity (l : List Byte) : List Byte :=
  let bytes := (l.take 124).mapIdx (fun i b => (4 * (i % 8) + i / 32, oddByte b))
  let bit (k : Nat) : Bool := (bytes.filter (fun x => x.1 == k && x.2)).length % 2 == 1
  toBytes (BitVec.ofNat 32 (((List.range 32).map (fun k => if bit k then 2 ^ k else 0)).sum)) 4

/-- Whether flits are in lane-parity mode: in an epoch of that mode, and in training (R423, R437). -/
def inParity (g : GangSt) : Bool := g.parity || g.link != 3 && g.change.isNone

/-- The 128 bytes of a flit. -/
def gangFlit (g : GangSt) (seq : Nat) (x : GangOut) : BitVec 1024 :=
  let p := (flitPayload x).take 120
  let l := flitHeader g x ++ p ++ List.replicate (120 - p.length) 0
  ofBytes 1024 (l ++ (if inParity g then flitParity l else flitCrc l seq))

/-- Whether a received flit passes its check: the CRC with the number of the next flit, or the parity. -/
def flitPasses (g : GangSt) (flit : BitVec 1024) : Bool :=
  let l := toBytes flit 128
  l.drop 124 == (if inParity g then flitParity l else flitCrc l g.rxNum)

/-- A flit goes out. -/
def gangOutput (seq : Nat) (x : GangOut) (m : Mod) : Mod := send (.gang m.gang.epoch.toNat seq x (gangFlit m.gang seq x)) m

/-! ### Sending -/

/-- Request flits sent and not returned, modulo 1,024 (R434). -/
def gangOut (g : GangSt) : Nat := (g.reqSent + 1024 - g.reqRet % 1024) % 1024

/-- Whether a sequenced flit may leave now: link up, room in the replay buffer, a credit for a request (R430, R434, R438). -/
def gangMay (g : GangSt) (request : Bool) : Bool :=
  (g.link == 3 || (g.link == 2 && g.change.isSome && !request)) && (g.parity || g.sent.length < 1024) &&
    (!request || gangOut g < 512)

/-- Send one sequenced flit with one message. In lane-parity mode no flit is sequenced or kept (R437). -/
def gangSend (request : Bool) (msg : GangOut) (m : Mod) : Mod :=
  let g := m.gang
  let seq := g.nextSeq % 4096
  let g := if g.parity then g
    else { g with nextSeq := (g.nextSeq + 1) % 4096, sent := g.sent ++ [{ seq := seq, msg := msg }] }
  let g := if request then { g with reqSent := (g.reqSent + 1) % 1024 } else g
  perfCount devPage (perfPlain 0x0B 15) none (gangOutput seq msg { m with gang := { g with unacked := 0 } })

/-- Queue a message in order behind those of its kind that wait, or send it at once: a response waits for no request (R236). Nothing
is sent while no epoch runs. -/
def gangTx (request : Bool) (msg : GangOut) (m : Mod) : Mod :=
  if m.gang.link < 2 || (m.gang.link == 2 && m.gang.change.isNone) then m
  else if gangMay m.gang request && !(m.gang.txWait.any (fun w => w.2 == request)) then gangSend request msg m
  else onGang (fun g => { g with txWait := g.txWait ++ [(msg, request)] }) m

/-- Send the waiting messages as far as room and credit allow: responses do not wait behind requests. -/
def gangDrain : Nat → Mod → Mod
  | 0, m => m
  | k + 1, m =>
    match m.gang.txWait.find? (fun w => gangMay m.gang w.2) with
    | none => m
    | some w => gangDrain k (gangSend w.2 w.1 (onGang (fun g => { g with txWait := g.txWait.erase w }) m))

/-- Drain everything that may leave. -/
def gangPump (m : Mod) : Mod := gangDrain m.gang.txWait.length m

/-- Send an unsequenced flit, which also carries the ACK owed (R433). -/
def gangPlain (msg : GangOut) (m : Mod) : Mod :=
  if m.gang.link = 3 then
    perfCount devPage (perfPlain 0x0B 15) none
      (gangOutput 0 msg (onGang (fun g => { g with unacked := 0 }) m))
  else m

/-- The ACK, CRED and BARK fields of a received flit (R432 to R435, R441). -/
def gangHeader (f : FlitHdr) (m : Mod) : Mod :=
  let g := m.gang
  let g := if f.bark then { g with barkAt := m.tb.now } else g
  let g := { g with reqRet := f.cred % 1024 }
  let g := if f.ackV && g.sent.any (fun x => x.seq == f.ack) then
      { g with sent := (g.sent.dropWhile (fun x => x.seq != f.ack)).drop 1, expiries := 0 }
    else g
  gangPump { m with gang := g }

/-- Whether a flit is of the epoch in force (R431). -/
def gangEpoch (f : FlitHdr) (m : Mod) : Bool := m.gang.link ≥ 2 && f.epoch % 64 == m.gang.epoch.toNat % 64

/-- Receive a sequenced flit: a flit of another epoch is discarded whole; a duplicate gives its header alone; an expected one
gives header and payload (R431, R432). A full set of sixteen accepted flits owes an idle flit (R433). -/
def gangRecv (f : FlitHdr) (payload : Mod → Mod) (m : Mod) : Mod :=
  if !gangEpoch f m then m
  else if m.gang.parity then payload (gangHeader f m)
  else
    let dup := m.gang.rxNum != m.gang.expect
    let m := gangHeader f (onGang (fun g => { g with rxNum := (g.rxNum + 1) % 4096 }) m)
    if dup then m
    else
      let m := onGang (fun g => { g with expect := (g.expect + 1) % 4096, unacked := g.unacked + 1, ackV := true }) m
      let m := payload m
      if m.gang.unacked ≥ 16 then gangPlain (.idle ((m.gang.expect + 4095) % 4096)) m else m

/-- The receiver returns a request credit: the count goes out in the next header (R434). -/
def gangCredit (m : Mod) : Mod := onGang (fun g => { g with credRet := (g.credRet + 1) % 1024 }) m

end Sys2Proof.Machine
end

