-- ==== Sys2Proof/Machine/Regions.lean ====
section
/-! DEFINITION. Machine/Regions.lean: the window decode (R160), the region table and its checks (R251 to R253, R290), the
permission checks (R164), key slot states (R264), the pools behind apertures 1 and 2 (R343, R347, R396, R398). -/
namespace Sys2Proof.Machine

/-! ### Window decode (R160) -/

def wOff (w : BitVec 53) : Nat := (bitsOf w 0 42).toNat
def wAper (w : BitVec 53) : Nat := (bitsOf w 42 2).toNat
def wLabel (w : BitVec 53) : BitVec 3 := bitsOf w 44 3
def wKey (w : BitVec 53) : BitVec 6 := bitsOf w 47 6
/-- The number of the 64 B line. -/
def wLine (w : BitVec 53) : Nat := wOff w / 64
/-- The alias (label and key id) of a line's window offset (R163). -/
def wOf (line : Nat) (label : BitVec 3) (key : BitVec 6) : BitVec 53 :=
  BitVec.ofNat 53 (line * 64 % 2 ^ 42 + label.toNat * 2 ^ 44 + key.toNat * 2 ^ 47)

/-! ### Region entries (R251) -/

def rgLBase (r : BitVec 128) : Nat := (bitsOf r 0 16).toNat
/-- Granules in the region. -/
def rgCount (r : BitVec 128) : Nat := (bitsOf r 16 16).toNat + 1
def rgDBase (r : BitVec 128) : Nat := (bitsOf r 32 15).toNat
def rgTile (r : BitVec 128) : Tile := (bitsOf r 48 2).toFin
def rgPort (r : BitVec 128) : Port → Bool
  | .a => r.getLsbD 50
  | .b => r.getLsbD 51
def rgCrypt (r : BitVec 128) : Nat := (bitsOf r 52 2).toNat
def rgWpol (r : BitVec 128) : Nat := (bitsOf r 54 2).toNat
def rgMirror (r : BitVec 128) : Bool := r.getLsbD 56
def rgElastic (r : BitVec 128) : Bool := r.getLsbD 57
def rgFullable (r : BitVec 128) : Bool := r.getLsbD 58
def rgValid (r : BitVec 128) : Bool := r.getLsbD 63
def rgKeyOk (r : BitVec 128) (k : Nat) : Bool := r.getLsbD (64 + k)

/-- The region of a logical granule in a table (R252). -/
def regionIn (l : List (BitVec 128)) (g : Nat) : Option (BitVec 128) :=
  l.find? (fun r => rgValid r && rgLBase r ≤ g && g < rgLBase r + rgCount r)

/-- The region of a logical offset. -/
def regionOf (m : Mod) (off : Nat) : Option (BitVec 128) := regionIn m.prot.regions (off / 2 ^ 26)

/-- The region with ELASTIC = 0 that holds a device granule. -/
def regionOfDev (m : Mod) (g : Nat) : Option (BitVec 128) :=
  m.prot.regions.find? (fun r => rgValid r && !rgElastic r && rgDBase r ≤ g && g < rgDBase r + rgCount r)

/-- The device address of an offset of a region with ELASTIC = 0 (R252). -/
def plainDa (r : BitVec 128) (off : Nat) : Nat := (rgDBase r + off / 2 ^ 26 - rgLBase r) * 2 ^ 26 + off % 2 ^ 26

/-! ### Pools behind the apertures -/

/-- The enabled pool of a run number (R343). -/
def poolOfRun (m : Mod) (run : Nat) : Option (Nat × CellPool) :=
  m.qs.pools.find? (fun e => e.2.enable && e.2.runBase ≤ run && run < e.2.runBase + e.2.runCount)

/-- The enabled counter pool of a counter index (R396). -/
def poolOfCounter (m : Mod) (c : Nat) : Option (Nat × CounterPool) :=
  m.cpools.find? (fun e => e.2.enable && e.2.cbase ≤ c && c < e.2.cbase + e.2.ccount)

/-- The region checked for PORT and KEY of a window offset, or `none` for UNMAPPED (R164, R347, R398). -/
def regionFor (m : Mod) (w : BitVec 53) : Option (BitVec 128) :=
  let off := wOff w
  if wAper w = 0 then regionOf m off
  else if wAper w = 1 then
    if off / 2 ^ 35 ≠ 0 then none
    else (poolOfRun m (off / 2048)).bind (fun e => regionOfDev m e.2.dgran)
  else if off / 2 ^ 34 ≠ 0 ∨ off / 2 ^ 32 % 4 = 3 then none
  else (poolOfCounter m (off / 16 % 2 ^ 28)).bind (fun e => regionOfDev m e.2.dgran)

/-- *Permission checks* (R164): the violation kind of the first failing check: 0 APERTURE, 1 UNMAPPED, 2 PORT, 3 KEY,
4 OPCODE. -/
def violation (m : Mod) (p : Port) (w : BitVec 53) (opOk : Bool) : Option Nat :=
  if wAper w = 3 then some 0
  else match regionFor m w with
    | none => some 1
    | some r =>
      if !rgPort r p then some 2
      else if !rgKeyOk r (wKey w).toNat then some 3
      else if !opOk then some 4
      else none

/-- Whether the slot of a key id serves accesses (R264). -/
def keyServes (m : Mod) (k : BitVec 6) : Bool :=
  let s := (m.prot.keys[k.toNat]'k.isLt).st
  s == .active || s == .plaintext

/-- Whether a key slot is being retired (R266). -/
def keyRetiring (m : Mod) (k : BitVec 6) : Bool := (m.prot.keys[k.toNat]'k.isLt).st == .retiring

/-- A refused access under a key id: one key-unavailable event per key id and frame (R264). -/
def keyRefused (engine : Bool) (p : Port) (k : BitVec 6) (m : Mod) : Mod :=
  if m.prot.keyEvents.contains k.toNat then m
  else
    let st := (m.prot.keys[k.toNat]'k.isLt).st.code
    event 0x0501 0 (k.toNat + st * 64 + (if engine then 512 else 0) + p.num * 1024)
      { m with prot := { m.prot with keyEvents := k.toNat :: m.prot.keyEvents } }

/-- Whether a tile takes requests: its fill frame is over, and its slice does not sweep (R69, R178, R209). -/
def tileReady (m : Mod) (t : Tile) : Bool := m.proc.bootDone && !m.filling.getLsbD t.val

/-- The home tile of a window offset that passes the checks (R161). -/
def homeTile (m : Mod) (w : BitVec 53) : Tile :=
  if wAper w = 0 then (regionOf m (wOff w)).elim 0 rgTile
  else if wAper w = 1 then ⟨wOff w / 2048 / 2 ^ 22 % 4, by omega⟩
  else (poolOfCounter m (wOff w / 16 % 2 ^ 28)).elim 0 (fun e => ⟨e.2.dgran / 2 ^ 13 % 4, by omega⟩)

/-! ### Table checks (R253, R290) -/

/-- ru(x) of R273: rounded up to 32 KiB. -/
def ru32 (x : Nat) : Nat := (x + 32767) / 32768 * 32768

/-- SEAL_SIZE in bytes, and the area offsets of *Metadata layout* (R274): L1, L2, L3, L4 and the end. -/
def sealSize (s : SealRange) : Nat := s.gran * 2 ^ 26
def metaL1 (s : SealRange) : Nat := sealSize s / 32
def metaL2 (s : SealRange) : Nat := metaL1 s + sealSize s / 128
def metaL3 (s : SealRange) : Nat := metaL2 s + ru32 (sealSize s / 2 ^ 14)
def metaL4 (s : SealRange) : Nat := metaL3 s + ru32 (256 * ((sealSize s + 2 ^ 29 - 1) / 2 ^ 29))
def metaEnd (s : SealRange) : Nat := metaL4 s + ru32 (256 * ((sealSize s + 2 ^ 36 - 1) / 2 ^ 36))

/-- Granules of the metadata area (R273). -/
def metaGranules (s : SealRange) : Nat := if s.gran = 0 then 0 else (metaEnd s + 2 ^ 26 - 1) / 2 ^ 26

/-- Whether two ranges of granules overlap. -/
def overlap (a n b k : Nat) : Bool := n ≠ 0 && k ≠ 0 && a < b + k && b < a + n

/-- Elastic pool granules and tier-map granules of a tile (R289). -/
def poolGran (t : TierSt) : Nat := t.poolSize / 2 ^ 26
def tmapGran (t : TierSt) : Nat := (t.elGran * 2 ^ 17 + 2 ^ 26 - 1) / 2 ^ 26

/-- The number, 1 to 11, of the first check that valid entry `i` of a table fails: the rows of *Region table checks* with R426, then
of *Elastic checks*. -/
def entryCheck (l : List (BitVec 128)) (seals : Vector SealRange 4) (tiers : Vector TierSt 4) (gangEn : Bool) (i : Nat) :
    Option Nat :=
  let r := l.getD i 0
  let others := (l.mapIdx (fun j e => (j, e))).filter (fun e => e.1 != i && rgValid e.2)
  let s : SealRange := seals[rgTile r]
  let t : TierSt := tiers[rgTile r]
  let keys := (List.range 64).filter (rgKeyOk r)
  let logical := rgLBase r + rgCount r - 1 ≤ 65535 &&
    (if rgElastic r then 32768 ≤ rgLBase r else rgLBase r + rgCount r ≤ 32768) &&
    others.all (fun e => !overlap (rgLBase r) (rgCount r) (rgLBase e.2) (rgCount e.2))
  let device := if rgElastic r then rgDBase r == 0
    else rgDBase r / 8192 == (rgTile r).val && (rgDBase r + rgCount r - 1) / 8192 == (rgTile r).val &&
      others.all (fun e => rgElastic e.2 || !overlap (rgDBase r) (rgCount r) (rgDBase e.2) (rgCount e.2)) &&
      !overlap (rgDBase r) (rgCount r) s.metaBase s.metaGran
  let ports := rgPort r .a || rgPort r .b
  let keysOk := if rgCrypt r = 0 then keys == [0] else if rgCrypt r = 1 then !keys.isEmpty && !keys.contains 0
    else rgCrypt r == 3 || (keys.length == 1 && !keys.contains 0)
  let sealed := rgCrypt r == 0 || rgElastic r || (s.base ≤ rgDBase r && rgDBase r + rgCount r ≤ s.base + s.gran)
  let mirrored := ((l.filter (fun e => rgValid e && rgMirror e)).map rgCount).sum
  let mirror := !rgMirror r || (gangEn && mirrored ≤ 8192 && !(rgCrypt r == 1 && 1 < keys.length))
  let reserved := !r.getLsbD 47 && bitsOf r 59 4 == 0#4 && rgCrypt r != 3
  let window := !rgElastic r || (t.elBase ≤ rgLBase r && rgLBase r + rgCount r ≤ t.elBase + t.elGran)
  let fullable := !rgFullable r || rgElastic r
  let same := others.all (fun e => !(rgElastic e.2 && rgTile e.2 == rgTile r) || (rgCrypt e.2 == 0) == (rgCrypt r == 0))
  let inside := s.base ≤ t.poolBase / 2 ^ 26 && t.poolBase / 2 ^ 26 + poolGran t ≤ s.base + s.gran
  let crypt := !rgElastic r || (same && (if rgCrypt r = 0 then
      !overlap (t.poolBase / 2 ^ 26) (poolGran t) s.base s.gran else inside))
  let apart := rgElastic r || (List.finRange 4).all (fun k =>
    let u : TierSt := tiers[k]
    !overlap (rgDBase r) (rgCount r) (u.poolBase / 2 ^ 26) (poolGran u) &&
      !overlap (rgDBase r) (rgCount r) (u.tmapBase / 2 ^ 26) (tmapGran u))
  if !rgValid r then none
  else if !logical then some 1 else if !device then some 2 else if !ports then some 3 else if !keysOk then some 4
  else if !sealed then some 5 else if !mirror then some 6 else if !reserved then some 7 else if !window then some 8
  else if !fullable then some 9 else if !crypt then some 10 else if !apart then some 11 else none

/-- The check that an elastic set-up fails of itself: windows of the tiles overlap (8), pool and tier map overlap each
other or the metadata area (11). -/
def setupCheck (seals : Vector SealRange 4) (tiers : Vector TierSt 4) : Option Nat :=
  let win := (List.finRange 4).any (fun i => (List.finRange 4).any (fun j => i.val < j.val &&
    overlap (tiers[i] : TierSt).elBase (tiers[i] : TierSt).elGran (tiers[j] : TierSt).elBase (tiers[j] : TierSt).elGran))
  let ov := (List.finRange 4).any (fun i =>
    let t : TierSt := tiers[i]
    let s : SealRange := seals[i]
    overlap (t.poolBase / 2 ^ 26) (poolGran t) (t.tmapBase / 2 ^ 26) (tmapGran t) ||
      overlap (t.poolBase / 2 ^ 26) (poolGran t) s.metaBase s.metaGran ||
      overlap (t.tmapBase / 2 ^ 26) (tmapGran t) s.metaBase s.metaGran)
  if win then some 8 else if ov then some 11 else none

/-- The first failing entry and check of a table (R253), by entry. -/
def tableCheck (l : List (BitVec 128)) (seals : Vector SealRange 4) (tiers : Vector TierSt 4) (gangEn : Bool) :
    Option (Nat × Nat) :=
  match (List.range l.length).findSome? (fun i => (entryCheck l seals tiers gangEn i).map (fun c => (i, c))) with
  | some x => some x
  | none => (setupCheck seals tiers).map (fun c => (0, c))

/-- Whether a region of the table uses integrity, and whether any is elastic (R202, R260). -/
def anyIntegrity (m : Mod) : Bool := m.prot.regions.any (fun r => rgValid r && rgCrypt r != 0)

/-- Viral on both ports (R174). -/
def setViral (m : Mod) : Mod := if m.viral then m else send (.viral .b) (send (.viral .a) { m with viral := true })

/-- A pack without its writes. -/
def dropWrites (p : PackSt) : PackSt :=
  { p with queue := p.queue.filter (fun r => !r.write), waiting := p.waiting.filter (fun r => !r.write),
           bound := p.bound.filter (fun b => !b.req.write), poisonPend := [] }

/-- A job completion entry (R313): bytes read and written, CRC and Adler of the uncompressed bytes, code, detail. -/
def jobEntry (j : Job) (used len : Nat) (crc adler : Word32) (code detail : Nat) : RawEntry :=
  j.tag.setWidth 512 ||| (BitVec.ofNat 512 (used % 2 ^ 32) <<< 64) ||| (BitVec.ofNat 512 (len % 2 ^ 32) <<< 96) |||
    (crc.setWidth 512 <<< 128) ||| (adler.setWidth 512 <<< 160) ||| (BitVec.ofNat 512 (code % 256) <<< 192) |||
    (BitVec.ofNat 512 (detail % 256) <<< 200) ||| (BitVec.ofNat 512 (j.fuller % 8) <<< 208)

/-- Post the completion of a job that has left the jobs, and count it (R313, *Device events*). -/
def jobPost (j : Job) (e : RawEntry) (m : Mod) : Mod :=
  let r := cfgPair (ringAt m j.port j.ring).cfg
  ringPost j.port r e (onRing j.port r (fun g => { g with reservedPos := g.reservedPos - 1 }) (perfCount devPage (perfPlain 0x0A 15) none m))

/-- The completion of a job that failed: what it consumed and its check values are not stated (log entry 22). -/
def jobFail (j : Job) (code detail : Nat) (m : Mod) : Mod :=
  let f (i : Nat) : Word32 := Config.jobField m.free i
  jobPost j (jobEntry j (f 0).toNat 0 (f 1) (f 2) code detail) { m with free := m.free + 1 }

/-- A committed activation ends without effect: its commands complete with 0x22 (R129, R286). -/
def endActivation (m : Mod) : Mod :=
  let sc := m.sched
  let keep := sc.swap.bind (fun w => if w.newSet then none else some w)
  let m := { m with sched := { sc with activators := [], swap := keep, further := sc.further.map (fun _ => false) } }
  sc.activators.foldl (fun m c => done c 0x22 m) m

/-- What integrity stop ends: a pending activation with 0x22 (R286), a zero-fill sweep with 0x45 (R268), jobs with 0x0A and
tier moves (R318). -/
def stopEnds (m : Mod) : Mod :=
  let m := endActivation m
  let m := match m.prot.keyWork with
    | some (_, zero, c) => if zero then done c 0x45 { m with prot := { m.prot with keyWork := none, zeroLeft := [] } } else m
    | none => m
  let m := { m with tiers := m.tiers.map (fun (t : TierSt) => { t with moves := [], reserved := [], trims := t.trims.filter (fun x => x.1.isSome) }) }
  let js := m.jobs
  let idle (g : Fuller) : Fuller :=
    { g with run := g.run.filter isFill, paused := none, queue := g.queue.filter isFill }
  js.foldl (fun m j => jobFail j 0x0A 0 m) { m with jobs := [], fullers := m.fullers.map idle }

/-- Every running ring but the admin and event rings halts with code 0x08 (R285, R340). -/
def haltRings (m : Mod) : Mod :=
  [Port.a, Port.b].foldl (fun m p => ((m.rings.get p).rings.filter (fun x =>
    x.2.state == 1 && !(cfgType x.2.cfg == 8 || cfgType x.2.cfg == 9 || cfgType x.2.cfg == 10))).foldl
      (fun m x => ringHalt p x.1 8 m) m) m

/-- Integrity stop (R285): viral, no DRAM writes from here on (dirty lines and the write buffer are discarded), captures,
event. A failing check during the stop raises its event and changes nothing else (R286; log entry 126). -/
def integrityStop (cause level : Nat) (merge : Bool) (da key : Nat) (m : Mod) : Mod :=
  let t := daTile da
  let key := if level = 0 then key else 0
  let data := da % 2 ^ 41 + key * 2 ^ 41 + cause * 2 ^ 47 + level * 2 ^ 49 + (if merge then 2 ^ 52 else 0)
  let m := { m with prot := { m.prot with stopCount := m.prot.stopCount + 1 } }
  if m.prot.stop.isSome then event 0x0502 0 data m
  else
    let st : Stop := { cause := cause, merge := merge, tile := t.val, level := level, frame := m.sched.frameNo, da := da,
                       keyId := key }
    let m := stopEnds m
    let m := { m with prot := { m.prot with stop := some st } }
    let m := { m with wbuf := m.wbuf.map (fun _ => []), wbWait := m.wbWait.map (fun _ => []) }
    let m := { m with packs := m.packs.map (fun p => dropWrites p) }
    let m := { m with slices := m.slices.map (fun s => { s with
      lines := s.lines.filter (fun l => l.sdirty == 0), transits := s.transits.filter (fun x => !x.dirty) }) }
    let m := gangTx false .stop (haltRings (setViral m))
    event 0x0502 0 data m

end Sys2Proof.Machine
end

