-- ==== Sys2Proof/Machine/Mirror.lean ====
section
/-! DEFINITION. Machine/Mirror.lean: the dirty-granule bitmap (R447) and what becomes of a write to a mirrored region
(R444, R450). -/
namespace Sys2Proof.Machine

/-- The mirrored 64 MiB granules in region entry order (R447). -/
def mirrorGranules (m : Mod) : List Nat :=
  (m.prot.regions.filter (fun r => rgValid r && rgMirror r)).flatMap (fun r => (List.range (rgCount r)).map (rgLBase r + ·))

/-- The bitmap index of a logical offset (R447). -/
def mirrorIndex (m : Mod) (off : Nat) : Option Nat :=
  ((mirrorGranules m).findIdx? (· == off / 2 ^ 26)).map (fun i => 1024 * i + off / 65536 % 1024)

/-- Set the bitmap bit of an offset. -/
def setDirty (off : Nat) (m : Mod) : Mod :=
  match mirrorIndex m off with
  | none => m
  | some i =>
    let b := m.gang.bitmap
    let b := if b.contains i then b else b.filter (fun j => j < i) ++ i :: b.filter (fun j => i < j)
    onGang (fun g => { g with bitmap := b }) m

/-- What a mirrored write does: it completes here with its bit set, waits for the granule's RACK, or is forwarded. -/
inductive MirrorAct where
  | locally | hold | forward
  deriving DecidableEq, Repr, Inhabited

/-- R444, R450, R451. -/
def mirrorAct (m : Mod) (off : Nat) : MirrorAct :=
  let g := m.gang
  if g.link ≠ 3 ∧ ¬(g.link = 2 ∧ g.change.isSome) then .locally
  else match g.mirror with
    | .mirroring => .forward
    | .source =>
      match mirrorIndex m off with
      | none => .locally
      | some i =>
        if g.copying == some i then .hold
        else if g.donePass.contains i then .forward
        else .locally
    | _ => .locally

/-- The write is complete without a MACK of status 0 (R447). -/
def mirrorLocal (off : Nat) (m : Mod) : Mod := onGang (fun g => { g with fresh := false }) (setDirty off m)

/-- Forward a sector: MWR when whole, MWRP when partial; the write waits for its MACK (R444). -/
def mirrorForward (key : BitVec 6) (off : Nat) (data : Sector) (en : BitVec 64) (poison : Bool) (req : Option MReq) (m : Mod) : Mod :=
  let t := m.gang.nextTag
  let m := onGang (fun g => { g with nextTag := (t + 1) % 4096, waits := g.waits ++ [{ tag := t, off := off, req := req }] }) m
  gangTx true (if en = BitVec.allOnes 64 then .mwr t key off data poison else .mwrp t key off data en poison) m

end Sys2Proof.Machine
end

