-- ==== Sys2Proof/Machine/SliceOps.lean ====
section
/-! DEFINITION. Machine/SliceOps.lean: the arrays of a line-cache slice: sets and tags (R191, R192), ways (R202, R204),
placement and victims (R193, R194). -/
namespace Sys2Proof.Machine

/-- The set of an address: A[21:8] XOR A[35:22] (R191). -/
def lineSet (a : Nat) : Nat := (a / 2 ^ 8 % 2 ^ 14) ^^^ (a / 2 ^ 22 % 2 ^ 14)
/-- The tag A[41:22]. -/
def lineTag (a : Nat) : BitVec 20 := BitVec.ofNat 20 (a / 2 ^ 22)
/-- The address of a line in its space: the inverse of `lineSet` and `lineTag`. -/
def lineAddr (l : Line) : Nat := l.tag.toNat * 2 ^ 22 + (l.set ^^^ (l.tag.toNat % 2 ^ 14)) * 256
/-- The line's address of any byte. -/
def lineOf (a : Nat) : Nat := a / 256 * 256

/-- The line of a space and address that a slice holds or fills. -/
def findLine (s : Slice) (space : BitVec 2) (a : Nat) : Option Line :=
  s.lines.find? (fun l => l.space == space && l.set == lineSet a && l.tag == lineTag a && (l.svalid != 0 || l.busy))

/-- The entry of a locked way that R200 has invalidated, and that the line's next fill takes again (R205). -/
def heldPlace (s : Slice) (space : BitVec 2) (a : Nat) : Option Line :=
  s.lines.find? (fun l => l.space == space && l.set == lineSet a && l.tag == lineTag a && l.svalid == 0 && !l.busy)

/-- The miss entry of a line (R189). -/
def findMiss (s : Slice) (space : BitVec 2) (a : Nat) : Option Miss :=
  s.misses.find? (fun x => x.space == space && x.addr == lineOf a)

/-- A slice with the entry of (set, way) replaced. -/
def putLine (l : Line) (s : Slice) : Slice :=
  { s with lines := l :: s.lines.filter (fun x => !(x.set == l.set && x.way == l.way)) }

/-- A slice with the entry of (set, way) invalid. -/
def dropLine (set way : Nat) (s : Slice) : Slice :=
  { s with lines := s.lines.filter (fun x => !(x.set == set && x.way == way)) }

/-- The enabled ways of a slice, rising. -/
def enabledWays (s : Slice) : List Nat := (List.range 16).filter (fun w => !s.disabled.getLsbD w)

/-- The metadata ways: the METAWAYS highest-numbered enabled ways (R202). -/
def metaWayList (s : Slice) : List Nat := (enabledWays s).drop ((enabledWays s).length - s.metaWays)

/-- The enabled general ways. -/
def generalWays (s : Slice) : List Nat := (enabledWays s).take ((enabledWays s).length - s.metaWays)

/-- General ways that allocations may take: neither locked nor reserved (R205, R207). -/
def allocWays (s : Slice) : List Nat :=
  (generalWays s).filter (fun w => !s.locked.getLsbD w && !s.reserved.getLsbD w)

/-- Every slice begins an invalidation sweep (R209). -/
def beginSweep (m : Mod) : Mod := { m with slices := m.slices.map (fun (s : Slice) => { s with sweep := true, oneWay := none }) }

/-- Pass-through follows the ways that allocations may take (R215); entering it raises the slice-degraded event. -/
def passCheck (t : Tile) (m : Mod) : Mod :=
  let s : Slice := m.slices[t]
  let now := (allocWays s).isEmpty
  let m := onSlice t (fun s => { s with passthru := now }) m
  if now && !s.passthru then event 0x0402 0 t.val m else m

/-- The entry in (set, way). -/
def entryAt (s : Slice) (set way : Nat) : Option Line := s.lines.find? (fun l => l.set == set && l.way == way)

/-- A slice with the RRPV of the lines of a set in given ways, where not busy, raised by `n` (at most 3). -/
def ageSet (s : Slice) (set n : Nat) (ways : List Nat) : Slice :=
  { s with lines := s.lines.map (fun l =>
      if l.set == set && ways.contains l.way && !l.busy then { l with rrpv := min 3 (l.rrpv + n) } else l) }

/-- R193: the way that a new line of a set takes among `ways`: the lowest invalid one, else the lowest not busy at RRPV 3
after aging; `none` when every way is busy (R195). -/
def pickWay (s : Slice) (set : Nat) (ways : List Nat) : Option (Nat × Slice) :=
  match ways.find? (fun w => (entryAt s set w).isNone) with
  | some w => some (w, s)
  | none =>
    let idle := ways.filterMap (fun w => (entryAt s set w).bind (fun l => if l.busy then none else some l))
    match idle with
    | [] => none
    | _ =>
      let top := (idle.map (·.rrpv)).foldl max 0
      let s := ageSet s set (3 - top) ways
      (idle.find? (fun l => l.rrpv == top)).map (fun l => (l.way, s))

/-- Lines of a label that count against its cache share (R410). -/
def shareCount (s : Slice) (l : BitVec 3) : Nat :=
  (s.lines.filter (fun x => x.svalid != 0 && x.space != 2 && (allocWays s).contains x.way && x.label == l)).length

/-- Whether a label is over its cache share in a slice (R410). -/
def overShare (m : Mod) (s : Slice) (l : BitVec 3) : Bool :=
  (m.labels[l.toNat]'l.isLt).cshare * 4096 ≤ shareCount s l

/-- The insertion value of CACHE_INSERT for a label (R218). -/
def insertRrpv (m : Mod) (l : BitVec 3) : Nat := (bitsOf m.insert (2 * l.toNat) 2).toNat

/-- The line of (set, way) at its insertion. -/
def newLine (space : BitVec 2) (a way rrpv : Nat) (label : BitVec 3) (key : BitVec 6) : Line where
  set := lineSet a
  way := way
  tag := lineTag a
  space := space
  svalid := 0
  sdirty := 0
  poison := false
  rrpv := rrpv
  label := label
  keyId := key
  busy := true
  wb := 0
  data := 0
  whole := 0

/-- The tag entry that TAG_READ returns (R192): bits [43:0] and the check bits. The model keeps one entry for both copies; an
entry shows VALID while it holds a sector, so that one whose first fill is in flight shows BUSY alone (DESIGN CHOICE, log
entry 106). -/
def tagWordOf (l : Line) : Word64 :=
  let v : BitVec 44 := BitVec.ofNat 44 (l.tag.toNat + l.space.toNat * 2 ^ 20 + (if l.svalid != 0 then 2 ^ 22 else 0) +
    l.svalid.toNat * 2 ^ 23 + l.sdirty.toNat * 2 ^ 27 + (if l.poison then 2 ^ 31 else 0) + l.rrpv % 4 * 2 ^ 32 +
    l.label.toNat * 2 ^ 34 + l.keyId.toNat * 2 ^ 37 + (if l.busy then 2 ^ 43 else 0))
  v.setWidth 64 ||| ((Config.tagCheck v).setWidth 64 <<< 44)

/-- The entry of a way that holds no line: the Reset column of *Tag entry*. -/
def tagWordNone : Word64 := 0

/-- The fill data of a line: only the sectors whose SVALID bit is 0 take it (R199). -/
def fillSectors (l : Line) (b : Batt) : Batt :=
  (List.range 4).foldl (fun acc j => if l.svalid.getLsbD j then putSector acc j (sectorOf l.data j) else acc) b

end Sys2Proof.Machine
end

