-- ==== Sys2Proof/Machine/Meta.lean ====
section
/-! DEFINITION. Machine/Meta.lean: the metadata space: tree nodes, MAC batts and tier-map batts in the metadata ways (R202,
R203), verification and counter updates (R274 to R282), encryption of stored batts (R270, R271). -/
namespace Sys2Proof.Machine

/-- The key slot of a key id (R262). -/
def keySlot (m : Mod) (key : BitVec 6) : KeySlot := m.prot.keys[key.toNat]'key.isLt

/-- What reading a node gives. -/
inductive NodeRes where
  | ok (b : Batt)
  /-- uncorrectable on the path (R76, R280) -/
  | poison
  /-- a check fails: level and device address (R284) -/
  | fail (level da : Nat)
  deriving DecidableEq, Repr, Inhabited

/-- The device address of a node (R274). -/
def nodeAddr (s : SealRange) (level idx : Nat) : Nat :=
  s.metaBase * 2 ^ 26 +
    (if level = 1 then metaL1 s else if level = 2 then metaL2 s else if level = 3 then metaL3 s else metaL4 s) + 256 * idx

/-- The sealed batt number of a device address. -/
def sealIdx (s : SealRange) (da : Nat) : Nat := (da - s.base * 2 ^ 26) / 256

/-- The MAC batt of sealed batt `j`. -/
def macAddr (s : SealRange) (j : Nat) : Nat := battOf (s.metaBase * 2 ^ 26 + 8 * j)

/-- A metadata line that the slice holds. -/
def metaLine (m : Mod) (da : Nat) : Option Line := findLine (m.slices[daTile da]) 2 (battOf da)

/-- A metadata batt as the slice or the dies hold it, and whether it is poisoned or uncorrectable. -/
def metaNow (m : Mod) (da : Nat) : Batt × Bool :=
  match metaLine m da with
  | some l => (l.data, l.poison)
  | none => battNow m da

/-- The root entry of a tile (R276). -/
def rootOf (m : Mod) (t : Tile) (i : Nat) : Nat := (m.prot.roots[(t.val * 8 + i % 8) % 32]'(by omega)).toNat

/-- A node, trusted in its way or verified against its parent's counter up to the root (R277, R278); the number counts the
levels that are left. -/
def nodeGet (m : Mod) (t : Tile) : Nat → Nat → Nat → NodeRes
  | 0, _, _ => .poison
  | k + 1, level, idx =>
    let s : SealRange := m.prot.sealR[t]
    let da := nodeAddr s level idx
    match metaLine m da with
    | some l => if l.poison then .poison else .ok l.data
    | none =>
      let raw := battNow m da
      let check (ctr : Nat) : NodeRes :=
        if raw.2 then .poison
        else if ctr = 0 then (if raw.1 == 0 then .ok 0 else .fail level da)
        else if getNodeMac raw.1 == nodeMac (Config.kTree m.tb.resetAt) da level ctr raw.1 then .ok raw.1
        else .fail level da
      if level = 4 then check (rootOf m t idx)
      else match nodeGet m t k (level + 1) (idx / 128) with
        | .ok p => check (nodeCtr p (idx % 128))
        | r => r

/-- A node of level 1 to 4. -/
def getNode (m : Mod) (t : Tile) (level idx : Nat) : NodeRes := nodeGet m t 5 level idx

/-! ### What metadata must be at hand -/

/-- Whether a metadata batt can be used now: held in its way, or at hand. -/
def metaHere (m : Mod) (da : Nat) : Bool := (metaLine m da).isSome || atHand m da

/-- The nodes from a node up to the first trusted one that are not at hand, each with its META kind (R277, R416). -/
def pathNeeds (m : Mod) (t : Tile) : Nat → Nat → Nat → List (Nat × Nat)
  | 0, _, _ => []
  | k + 1, level, idx =>
    if 4 < level then []
    else
      let da := nodeAddr m.prot.sealR[t] level idx
      if (metaLine m da).isSome then []
      else (if atHand m da then [] else [(level + 1, da)]) ++ pathNeeds m t k (level + 1) (idx / 128)

/-- Whether the level-1 node of a batt is held in its way with minor 0 for it: then neither ciphertext nor MAC is read (R278). -/
def freshBatt (m : Mod) (da : Nat) : Bool :=
  let s : SealRange := m.prot.sealR[daTile da]
  let j := sealIdx s da
  (metaLine m (nodeAddr s 1 (j / 128))).elim false (fun l => !l.poison && nodeMinor l.data (j % 128) == 0)

/-- The metadata that a read, or a write, of a batt of a region with this CRYPT still waits for (R277, R279). -/
def sealNeeds (m : Mod) (crypt da : Nat) (write : Bool) : List (Nat × Nat) :=
  if crypt = 0 then []
  else
    let t := daTile da
    let s : SealRange := m.prot.sealR[t]
    let j := sealIdx s da
    pathNeeds m t 5 1 (j / 128) ++
      (if crypt = 2 && (write || !freshBatt m da) && !metaHere m (macAddr s j) then [(1, macAddr s j)] else [])

/-- META reads under way for a tile: each holds a metadata miss entry (R416). -/
def metaFlight (m : Mod) (t : Tile) : Nat :=
  let n (p : PackSt) : Nat := ((p.queue ++ p.waiting ++ p.bound.map (·.req) ++ heldReqs p).filter (fun q =>
    q.cls == .metaSlot && !q.write)).length
  ((tilePacks m t).map n).sum

/-- Ask for metadata batts in META slots, as far as the 128 miss entries of the metadata space reach. -/
def wantMeta (own : Owner) (needs : List (Nat × Nat)) (m : Mod) : Mod :=
  needs.foldl (fun m x => if 128 ≤ metaFlight m (daTile x.2) then m else wantBatt own .metaSlot x.1 0 m x.2) m

/-- A metadata line that is used is hit (R193). -/
def metaTouch (da : Nat) (m : Mod) : Mod :=
  onSlice (daTile da) (fun s => { s with lines := s.lines.map (fun l =>
    if l.space == 2 && l.set == lineSet (battOf da) && l.tag == lineTag (battOf da) then { l with rrpv := 0 } else l) }) m

/-- The lines of a batt's path and of its MAC that are held are hit. -/
def touchPath (crypt da : Nat) (m : Mod) : Mod :=
  if crypt = 0 then m
  else
    let t := daTile da
    let s : SealRange := m.prot.sealR[t]
    let j := sealIdx s da
    let nodes := [(1, j / 2 ^ 7), (2, j / 2 ^ 14), (3, j / 2 ^ 21), (4, j / 2 ^ 28)].map (fun x => nodeAddr s x.1 x.2)
    let upto := nodes.take ((nodes.findIdx (fun a => (metaLine m a).isSome)) + 1)
    (upto ++ (if crypt = 2 then [macAddr s j] else [])).foldl (fun m a => metaTouch a m) m

/-! ### Writing metadata -/

/-- A metadata line present in its way takes new content. -/
def metaSet (da : Nat) (b : Batt) (m : Mod) : Mod :=
  onSlice (daTile da) (fun s => { s with lines := s.lines.map (fun l =>
    if l.space == 2 && l.set == lineSet (battOf da) && l.tag == lineTag (battOf da)
    then { l with data := b, sdirty := 15, rrpv := 0 } else l) }) m

/-- A counter of a tile has reached its last value (R283): every active key of the tile's sealed regions retires, and the
event is raised. -/
def counterExhausted (t : Tile) (level : Nat) (m : Mod) : Mod :=
  let used (k : Nat) : Bool := m.prot.regions.any (fun r => rgValid r && rgTile r == t && rgCrypt r != 0 && rgKeyOk r k)
  let keys := m.prot.keys.mapIdx (fun i (s : KeySlot) => if used i && s.st == .active then { s with st := .retiring } else s)
  event 0x0503 0 (t.val + level * 4) { m with prot := { m.prot with keys := keys } }

/-- Write a changed node: into its way, or with no way to DRAM in a META slot, which increments its minor in the parent and
gives it a fresh NODEMAC (R279, R203); a level-4 node increments its root entry. A minor that would overflow has been
resealed before (`overflowAt`). -/
def nodeWrite (t : Tile) : Nat → Nat → Nat → Batt → Mod → Mod
  | 0, _, _, _, m => m
  | k + 1, level, idx, b, m =>
    let da := nodeAddr m.prot.sealR[t] level idx
    let key := Config.kTree m.tb.resetAt
    let put (ctr : Nat) (m : Mod) : Mod := wbPut .metaSlot (level + 1) 0 da (setNodeMac b (nodeMac key da level ctr b)) false m
    if (metaLine m da).isSome then metaSet da b m
    else if level = 4 then
      let i := (t.val * 8 + idx % 8) % 32
      let r := rootOf m t idx + 1
      let m := { m with prot := { m.prot with roots := m.prot.roots.set i (BitVec.ofNat 64 r) (by omega) } }
      put r (if r = 2 ^ 64 - 1 then counterExhausted t 5 m else m)
    else match getNode m t (level + 1) (idx / 128) with
      | .ok p =>
        let i := idx % 128
        let p' := setMinor p i (nodeMinor p i + 1)
        put (nodeCtr p' i) (nodeWrite t k (level + 1) (idx / 128) p' m)
      | .poison => event 0x0204 (locBatt da) (5 * 16 + da * 256) m
      | .fail l a => integrityStop 1 l false a 0 m

/-- The node whose minor the write of a node, or of a batt (level 0), would raise above 4,095 (R281): its level, index and the
minor. A node held in its way takes the write without its parent. -/
def overflowAt (m : Mod) (t : Tile) : Nat → Nat → Nat → Option (Nat × Nat × Nat)
  | 0, _, _ => none
  | k + 1, level, idx =>
    if 4 ≤ level then none
    else match getNode m t (level + 1) (idx / 128) with
      | .ok p =>
        if 4095 ≤ nodeMinor p (idx % 128) then some (level + 1, idx / 128, idx % 128)
        else if (metaLine m (nodeAddr m.prot.sealR[t] (level + 1) (idx / 128))).isSome then none
        else overflowAt m t k (level + 1) (idx / 128)
      | _ => none

/-- Level and index of the node at a device address of the metadata area, or `none` for a MAC or tier-map batt. -/
def nodeAt (s : SealRange) (da : Nat) : Option (Nat × Nat) :=
  if s.gran = 0 ∨ da < s.metaBase * 2 ^ 26 then none
  else
    let o := da - s.metaBase * 2 ^ 26
    if o < metaL1 s ∨ metaEnd s ≤ o then none
    else if o < metaL2 s then some (1, (o - metaL1 s) / 256)
    else if o < metaL3 s then some (2, (o - metaL2 s) / 256)
    else if o < metaL4 s then some (3, (o - metaL3 s) / 256)
    else some (4, (o - metaL4 s) / 256)

/-- The META kind of a metadata batt (R416). -/
def metaKind (m : Mod) (da : Nat) : Nat :=
  let s : SealRange := m.prot.sealR[daTile da]
  match nodeAt s da with
  | some (level, _) => level + 1
  | none => if s.gran != 0 && s.metaBase * 2 ^ 26 ≤ da && da < s.metaBase * 2 ^ 26 + metaL1 s then 1 else 0

/-- The insertion value of a metadata batt (R194). -/
def metaRrpv (kind : Nat) : Nat := if kind = 0 then 1 else if 4 ≤ kind then 0 else 2

/-- The line of (set, way) is written back (R197): it stays in its way, busy, until the write buffer takes its batt. Mode 1: it
then stays, clean; 2: the way is then free; 3: its place in a locked way is kept for its next fill (R200, R205). -/
def markWb (l : Line) (mode : Nat) (m : Mod) (t : Tile) : Mod := onSlice t (putLine { l with busy := true, wb := max l.wb mode }) m

/-- Place a metadata batt in a metadata way, with the insertion value of R194. A dirty victim is first written back; until then,
and with no way, the batt is only used in transit (R203). -/
def metaInstall (da : Nat) (b : Batt) (poison : Bool) (m : Mod) : Mod :=
  let a := battOf da
  let t := daTile a
  let s : Slice := m.slices[t]
  if (findLine s 2 a).isSome then m
  else match pickWay s (lineSet a) (metaWayList s) with
    | none => m
    | some (w, s') =>
      match entryAt s' (lineSet a) w with
      | some l =>
        if l.sdirty != 0 then
          if s.lines.any (fun x => x.set == lineSet a && x.space == 2 && x.wb == 2) then m else markWb l 2 (onSlice t (fun _ => s') m) t
        else onSlice t (fun _ => putLine { newLine 2 a w (metaRrpv (metaKind m a)) 0 0 with svalid := 15, busy := false, poison := poison, data := b } s') m
      | none => onSlice t (fun _ => putLine { newLine 2 a w (metaRrpv (metaKind m a)) 0 0 with svalid := 15, busy := false, poison := poison, data := b } s') m

/-- Write a metadata batt that is no node: into its way, or to DRAM at once (R203). It holds more than what changes, so a poisoned
one stays poisoned. -/
def metaPut (da : Nat) (b : Batt) (m : Mod) : Mod :=
  if (metaLine m da).isSome then metaSet da b m else wbPut .metaSlot (metaKind m da) 0 (battOf da) b (metaNow m da).2 m

/-- Write a whole metadata batt afresh, which ends its poison (R294). -/
def metaFresh (da : Nat) (b : Batt) (m : Mod) : Mod :=
  if (metaLine m da).isSome then
    onSlice (daTile da) (fun s => { s with lines := s.lines.map (fun l =>
      if l.space == 2 && l.set == lineSet (battOf da) && l.tag == lineTag (battOf da) then { l with poison := false } else l) })
      (metaSet da b m)
  else wbPut .metaSlot (metaKind m da) 0 (battOf da) b false m

/-- The nodes on a batt's path enter the metadata ways once they verify (R277). -/
def installPath (t : Tile) (j : Nat) (m : Mod) : Mod :=
  [(4, j / 2 ^ 28), (3, j / 2 ^ 21), (2, j / 2 ^ 14), (1, j / 2 ^ 7)].foldl (fun m x =>
    match getNode m t x.1 x.2 with
    | .ok b => metaInstall (nodeAddr m.prot.sealR[t] x.1 x.2) b false m
    | _ => m) m

/-- Slot `j` mod 32 of a MAC batt. -/
def macSlot (b : Batt) (j : Nat) : Word64 := bitsOf b (64 * (j % 32)) 64

/-- What decrypting a stored batt gives. -/
inductive Unsealed where
  | ok (b : Batt)
  | poison
  /-- integrity stop: cause, level, device address -/
  | stop (cause level da : Nat)
  deriving DecidableEq, Repr, Inhabited

/-- Decrypt and check a stored batt of a region with CRYPT ≠ 0 under a key id (R265, R271, R277, R278). -/
def openSeal (m : Mod) (crypt : Nat) (key : BitVec 6) (da : Nat) (raw : Batt) (bad : Bool) : Unsealed :=
  let t := daTile da
  let s : SealRange := m.prot.sealR[t]
  let j := sealIdx s da
  match getNode m t 1 (j / 128) with
  | .poison => .poison
  | .fail l a => .stop 1 l a
  | .ok n =>
    if nodeMinor n (j % 128) = 0 then .ok 0
    else if bad then .poison
    else
      let k := keySlot m key
      let c := nodeCtr n (j % 128)
      let mac := metaNow m (macAddr s j)
      if crypt = 2 && mac.2 then .poison
      else if crypt = 2 && macSlot mac.1 j != dataMac k.kMac (battOf da) c raw then .stop 0 0 (battOf da)
      else .ok (cryptBatt k.kEnc (battOf da) c raw)

/-- Store a MAC in its slot (R279). -/
def macPut (da : Nat) (v : Word64) (m : Mod) : Mod :=
  let s : SealRange := m.prot.sealR[daTile da]
  let j := sealIdx s da
  let a := macAddr s j
  let m := metaInstall a (metaNow m a).1 (metaNow m a).2 m
  metaPut a (putBits (metaNow m a).1 (64 * (j % 32)) v) m

/-- The key ids that a region permits. -/
def keysOfDa (m : Mod) (da : Nat) : List Nat :=
  let t := daTile da
  let r := match regionOfDev m (da / 2 ^ 26) with
    | some r => some r
    | none => m.prot.regions.find? (fun r => rgValid r && rgElastic r && rgTile r == t)
  r.elim [] (fun r => (List.range 64).filter (rgKeyOk r))

/-- A batt written during a zero-fill sweep of its region is noted: its data is undefined afterwards (R267). -/
def zeroNote (da : Nat) (m : Mod) : Mod :=
  match m.prot.keyWork with
  | some (k, true, _) =>
    if (keysOfDa m da).contains k then { m with prot := { m.prot with zeroWritten := da :: m.prot.zeroWritten } } else m
  | _ => m

/-- One written batt under a level-1 node is read, checked under its old counter, re-encrypted under the new one and written back
(R281). The stored form under the one key id of its region; with several key ids the spec does not say which the batt was
written under, so its content is a free value (log entry 15). -/
def resealBatt (crypt : Nat) (new : Batt) (da : Nat) (i : Nat) (m : Mod) : Mod :=
  match keysOfDa m da with
  | [k] =>
    match openSeal m crypt (BitVec.ofNat 6 k) da (battNow m da).1 (battNow m da).2 with
    | .stop _ l a => integrityStop 2 l false a k m
    | .poison => m
    | .ok b =>
      let ks := keySlot m (BitVec.ofNat 6 k)
      let x := cryptBatt ks.kEnc da (nodeCtr new i) b
      let m := if crypt = 2 then macPut da (dataMac ks.kMac da (nodeCtr new i) x) m else m
      wbPut .metaSlot 2 0 da x false m
  | _ => wbPut .metaSlot 2 0 da (Config.undefBatt da m.free) false { m with free := m.free + 1 }

/-- The CRYPT of the sealed range's batts at a device address. -/
def cryptAt (m : Mod) (da : Nat) : Nat :=
  let t := daTile da
  ((match regionOfDev m (da / 2 ^ 26) with
    | some r => some r
    | none => m.prot.regions.find? (fun r => rgValid r && rgElastic r && rgTile r == t)).elim 0 rgCrypt)

/-- The stored children of a node with their META kinds: batts of a level-1 node, nodes of a higher one; those with minor 0 are
fresh and are not read. For the batts of a SEAL region their MAC batts as well. -/
def resealChildren (m : Mod) (t : Tile) (level idx : Nat) (n : Batt) : List (Nat × Nat) :=
  let s : SealRange := m.prot.sealR[t]
  ((List.range 128).filter (fun i => nodeMinor n i != 0)).flatMap (fun i =>
    if level = 1 then
      let da := s.base * 2 ^ 26 + 256 * (128 * idx + i)
      (2, da) :: (if cryptAt m da = 2 then [(1, macAddr s (128 * idx + i))] else [])
    else [(level, nodeAddr s (level - 1) (128 * idx + i))])

/-- What a reseal still waits for: the node's own path, and its children (R281). -/
def resealNeeds (m : Mod) (w : Reseal) : List (Nat × Nat) :=
  let t : Tile := ⟨w.tile % 4, by omega⟩
  match pathNeeds m t 5 w.level w.index with
  | [] => match getNode m t w.level w.index with
    | .ok n => ((resealChildren m t w.level w.index n).filter (fun x => !metaHere m x.2)).eraseDups
    | _ => []
  | l => l

/-- A reseal of a node begins (R281): its children are read in META slots. `child`: the minor that the write of `own` would
raise. -/
def startReseal (t : Tile) (level idx child : Nat) (own : Owner) (m : Mod) : Mod :=
  if m.prot.reseals.any (fun r => r.tile == t.val && r.level == level && r.index == idx) then m
  else
    let w : Reseal := { tile := t.val, level := level, index := idx, child := child, own := own, waiters := [] }
    wantMeta (.reseal t.val level idx) (resealNeeds m w) { m with prot := { m.prot with reseals := m.prot.reseals ++ [w] } }

/-- Whether the write of an owner follows its reseal at once, so that the minor that it raises starts from 0 (R281; log
entry 132). -/
def ownerLine (own : Owner) : Bool :=
  match own with
  | .line _ _ _ => true
  | _ => false

/-- The reseal of a node whose children are at hand (R281): MAJOR rises, every non-zero minor becomes 1, each written child of a
level-1 node is checked and re-encrypted, and each child of a higher node gets its NODEMAC rewritten. -/
def doReseal (w : Reseal) (m : Mod) : Mod :=
  let t : Tile := ⟨w.tile % 4, by omega⟩
  let s : SealRange := m.prot.sealR[t]
  match getNode m t w.level w.index with
  | .poison => event 0x0204 (locBatt (nodeAddr s w.level w.index)) (5 * 16 + nodeAddr s w.level w.index * 256) m
  | .fail l a => integrityStop 1 l false a 0 m
  | .ok n =>
    let new := resealNode n w.child
    let skip (i : Nat) : Bool := nodeMinor n i == 0 || ownerLine w.own && i == w.child
    let m := (List.range 128).foldl (fun m i =>
      if skip i || m.prot.stop.isSome then m
      else if w.level = 1 then
        let da := s.base * 2 ^ 26 + 256 * (128 * w.index + i)
        resealBatt (cryptAt m da) new da i m
      else
        let da := nodeAddr s (w.level - 1) (128 * w.index + i)
        let b := metaNow m da
        -- a dirty node in its way gets its NODEMAC when it is written back (R279)
        if (metaLine m da).elim false (fun l => l.sdirty != 0) then m
        else wbPut .metaSlot w.level 0 da
          (setNodeMac b.1 (nodeMac (Config.kTree m.tb.resetAt) da (w.level - 1) (nodeCtr new i) b.1)) b.2 m) m
    let new := if ownerLine w.own then setMinor new w.child 0 else new
    let m := if nodeMajor new = 2 ^ 64 - 1 then counterExhausted t w.level m else m
    if m.prot.stop.isSome then m else nodeWrite t 5 w.level w.index new m

/-- Encrypt a batt that is handed to the write buffer (R279): its minor is incremented first; the stored form and the state, or
`none` when the path is uncorrectable, so that the write is dropped and logged (R280). Its metadata is at hand
(`sealNeeds`), and no minor overflows (`overflowAt`). -/
def sealBatt (crypt : Nat) (key : BitVec 6) (da : Nat) (b : Batt) (m : Mod) : Option Batt × Mod :=
  let t := daTile da
  let a := battOf da
  let s : SealRange := m.prot.sealR[t]
  let j := sealIdx s a
  let m := installPath t j (touchPath crypt a m)
  match getNode m t 1 (j / 128) with
  | .poison => (none, event 0x0204 (locBatt a) (5 * 16 + a * 256) m)
  | .fail l x => (none, integrityStop 1 l false x 0 m)
  | .ok n =>
    let i := j % 128
    let n' := setMinor n i (nodeMinor n i + 1)
    let m := nodeWrite t 5 1 (j / 128) n' m
    let k := keySlot m key
    let x := cryptBatt k.kEnc a (nodeCtr n' i) b
    let m := zeroNote a m
    let m := if crypt = 2 then macPut a (dataMac k.kMac a (nodeCtr n' i) x) m else m
    (some x, m)

/-- Whether a device address lies under a node that is being resealed (R282). -/
def resealing (m : Mod) (da : Nat) : Bool :=
  let t := daTile da
  let s : SealRange := m.prot.sealR[t]
  m.prot.reseals.any (fun r => r.tile == t.val && s.base * 2 ^ 26 ≤ da && sealIdx s da / 2 ^ (7 * r.level) == r.index)

end Sys2Proof.Machine
end

