-- ==== Sys2Proof/Machine/Tiers.lean ====
section
/-! DEFINITION. Machine/Tiers.lean: the tier map (R291 to R293), frames and elastic capacity (R302 to R304), and the place of
a logical line (R252, R293). The map is held as a table of its entries that are not zero (log entry 16). -/
namespace Sys2Proof.Machine

/-! ### Tier-map entries (R292) -/

def teState (e : Word64) : Nat := (bitsOf e 0 2).toNat
def teLen (e : Word64) : Nat := (bitsOf e 2 4).toNat
def teStart (e : Word64) : Nat := (bitsOf e 6 4).toNat
def teFrame (e : Word64) : Nat := (bitsOf e 10 27).toNat
def teAcc (e : Word64) : Bool := e.getLsbD 37
def teAge (e : Word64) : Nat := (bitsOf e 38 4).toNat
def teIncomp (e : Word64) : Bool := e.getLsbD 42
def tePoison (e : Word64) (j : Nat) : Bool := e.getLsbD (44 + j)

/-- An entry's place fields replaced; ACC, AGE, INCOMP and LPOISON kept. -/
def tePlace (e : Word64) (state len start frame : Nat) : Word64 :=
  putBits e 0 (BitVec.ofNat 37 (state + len * 4 + start * 64 + frame * 1024))

/-- The page number of a logical offset in the elastic window of a tile. -/
def pageOf (ts : TierSt) (off : Nat) : Nat := off / 4096 - 16384 * ts.elBase

/-- The entry of a page. -/
def teGet (m : Mod) (t : Tile) (q : Nat) : Word64 := tabGet 0 (m.tiers[t] : TierSt).tmap q

/-- The device address of the tier-map batt of a page (R292). -/
def tmapBatt (ts : TierSt) (q : Nat) : Nat := ts.tmapBase + 256 * (q / 32)

/-- Whether a move of the page is under way. -/
def pageMoving (ts : TierSt) (q : Nat) : Bool := ts.moves.any (fun v => v.page == q)

/-- An entry as its batt holds it: STATE 3 during a move (R299). -/
def teWord (ts : TierSt) (q : Nat) : Word64 :=
  let e := tabGet 0 ts.tmap q
  if pageMoving ts q then putBits e 0 (3#2) else e

/-- A tier-map batt as the table gives it: the entries of 32 pages. -/
def tmapContent (ts : TierSt) (q : Nat) : Batt :=
  ofBytes 2048 ((List.range 32).flatMap (fun i => toBytes (teWord ts (q / 32 * 32 + i)) 8))

/-- Whether the tier-map batt of a page is uncorrectable (R294). -/
def teBad (m : Mod) (t : Tile) (q : Nat) : Bool := (metaNow m (tmapBatt m.tiers[t] q)).2

/-- Whether the tier-map batt of a page is in a metadata way or at hand (R190, R203). -/
def teHere (m : Mod) (t : Tile) (q : Nat) : Bool := metaHere m (tmapBatt m.tiers[t] q)

/-- Ask for the tier-map batt of a page. -/
def wantTmap (own : Owner) (t : Tile) (q : Nat) (m : Mod) : Mod :=
  let da := tmapBatt m.tiers[t] q
  if metaHere m da then m else wantMeta own [(0, da)] m

/-- The batt of a page's entry has changed: in its metadata way, or in DRAM at once (R203). -/
def tmapPut (t : Tile) (q : Nat) (m : Mod) : Mod := metaPut (tmapBatt m.tiers[t] q) (tmapContent m.tiers[t] q) m

/-- Write an entry; a zero entry is not listed. -/
def tePut (t : Tile) (q : Nat) (e : Word64) (m : Mod) : Mod :=
  if teGet m t q = e then m
  else tmapPut t q (onTier t (fun ts => { ts with tmap := if e = 0 then tabDel ts.tmap q else tabPut ts.tmap q e }) m)

/-- A tier-map batt that is used is hit, or enters a metadata way (R190, R193, R194). -/
def teUse (t : Tile) (q : Nat) (m : Mod) : Mod :=
  let da := tmapBatt m.tiers[t] q
  if (metaLine m da).isSome then metaTouch da m else metaInstall da (tmapContent m.tiers[t] q) (metaNow m da).2 m

/-! ### Frames (R291, R302) -/

/-- Pool frames of a tile, their first number, usable pool P and reserve V. -/
def poolFrames (ts : TierSt) : Nat := ts.poolSize / 4096
def poolFirst (ts : TierSt) : Nat := ts.poolBase % 2 ^ 39 / 4096
def usablePool (ts : TierSt) : Nat := poolFrames ts - 2
def reserveV (ts : TierSt) : Nat := poolFrames ts / 2 ^ ts.shift

/-- Frames that hold a page, are the goal of a move, or are reserved. -/
def usedFrames (ts : TierSt) : List Nat :=
  ((ts.tmap.filter (fun e => teState e.2 != 0)).map (fun e => teFrame e.2) ++ ts.reserved.map (·.2) ++
    (ts.moves.filter (fun v => v.len != 0)).map (·.frame)).eraseDups.filter (fun f => !ts.working.contains f)

/-! ### Shared frames -/

/-- The batts of shared frames in use, as (frame, start, length): T2 pages and the goals of moves. -/
def sharedUse (ts : TierSt) : List (Nat × Nat × Nat) :=
  (ts.tmap.filter (fun e => teState e.2 == 2)).map (fun e => (teFrame e.2, teStart e.2, teLen e.2)) ++
    (ts.moves.filter (fun v => v.len != 0)).map (fun v => (v.frame, v.start, v.len))

/-- The shared frames of a tile. -/
def sharedFrames (ts : TierSt) : List Nat := ((sharedUse ts).map (·.1)).eraseDups

/-- FREE = P − U. -/
def freeFrames (ts : TierSt) : Nat := usablePool ts - (usedFrames ts).length

/-- The batts of a tile to which a dispatched request has not passed its data phase (R300), and those that work has read and not
used yet. -/
def busyBatts (m : Mod) (t : Tile) : List Nat :=
  (tilePacks m t).flatMap (fun p => (p.queue ++ p.waiting ++ p.bound.map (·.req) ++ heldReqs p).flatMap reqBatts) ++
    ((m.here.filter (fun e => daTile e.da == t)).map (·.da))

/-- Their frames. -/
def busyFrames (m : Mod) (t : Tile) : List Nat := (busyBatts m t).map (fun da => da % 2 ^ 39 / 4096)

/-- The lowest free frame of the pool of a tile to which no request is on its way; with none, the lowest free frame, whose move waits until
those requests have passed (R300). -/
def findFrame (m : Mod) (t : Tile) : Option Nat :=
  let ts : TierSt := m.tiers[t]
  let lowest (used : List Nat) : Option Nat :=
    ((List.range (min (poolFrames ts) (used.length + 1))).map (poolFirst ts + ·)).find? (fun f => !used.contains f)
  let used := usedFrames ts ++ ts.working
  (lowest (used ++ busyFrames m t)).orElse fun _ => lowest used

/-- DATA of a heel event (R464). -/
def heelData (m : Mod) (source tile action : Nat) (temp : Int) (deadline : Nat) : Nat :=
  source + tile * 8 + action * 32 + m.therm.throttle % 4 * 128 + m.therm.graceIn % 128 * 512 +
    (temp % 65536).toNat * 65536 + (deadline / 1000 % 2 ^ 32) * 2 ^ 32

/-- Raise or withdraw a tile's capacity heel request as FREE stands (R304, R461). -/
def capHeel (t : Tile) (m : Mod) : Mod :=
  let ts : TierSt := m.tiers[t]
  let f := freeFrames ts
  let v := reserveV ts
  if ts.poolSize = 0 then m
  else if !ts.heel && f < v then
    let dl := upTime m + m.therm.graceIn * 1000000
    let m := onTier t (fun ts => { ts with heel := true }) m
    let h : Heel := { raised := true, enforced := false, deadline := m.tb.resetAt + dl }
    let m := { m with therm := { m.therm with capHeel := m.therm.capHeel.set t h } }
    event 0x0C03 0 (heelData m 2 t.val 0 0 dl) m
  else if ts.heel && v + v / 8 ≤ f then
    let m := onTier t (fun ts => { ts with heel := false, enforce := false }) m
    let m := { m with therm := { m.therm with capHeel := m.therm.capHeel.set t initHeel } }
    event 0x0C03 0 (heelData m 2 t.val 1 0 0) m
  else m

/-! ### Where a line is -/

/-- The place of a logical line. -/
inductive Place where
  /-- one stored batt -/
  | batt (da : Nat)
  /-- an unbacked page: zeros, no slot -/
  | zero
  /-- a fulled page: its first stored batt and their count -/
  | fulled (da n : Nat)
  /-- LPOISON, or an uncorrectable tier-map batt -/
  | poison
  deriving DecidableEq, Repr, Inhabited

/-- R252, R293: the place of the line of an offset in region `r`. -/
def placeOf (m : Mod) (r : BitVec 128) (off : Nat) : Place :=
  if !rgElastic r then .batt (lineOf (plainDa r off))
  else
    let t := rgTile r
    let q := pageOf m.tiers[t] off
    let e := teGet m t q
    let j := off / 256 % 16
    if teBad m t q || tePoison e j then .poison
    else match teState e with
      | 0 => .zero
      | 2 => .fulled (frameDa t (teFrame e) + 256 * teStart e) (teLen e)
      | _ => .batt (frameDa t (teFrame e) + 256 * j)

/-- A fill reads a page: ACC is set, and a T2 page's fills of this sweep are counted (R293, R299). -/
def pageRead (r : BitVec 128) (off : Nat) (m : Mod) : Mod :=
  if !rgElastic r then m
  else
    let t := rgTile r
    let q := pageOf m.tiers[t] off
    let e := teGet m t q
    if teState e = 0 then m
    else
      let m := tePut t q (putBit e 37 true) m
      if teState e = 2 then onTier t (fun ts => { ts with fills := tabMod 0 ts.fills q (· + 1) }) m else m

/-! ### Moves (R299 to R302) -/

/-- The frame that a demotion frees joins the working pair when that is not full. -/
def freeFrame (t : Tile) (f : Nat) (m : Mod) : Mod :=
  onTier t (fun ts => if ts.working.length < 2 && !ts.working.contains f then { ts with working := ts.working ++ [f] } else ts) m

/-- Whether a move runs on a fuller. -/
def needsFuller (k : MoveKind) : Bool := k == .promotion || k == .demotion

/-- Start a move: the entry reads STATE 3. -/
def addMove (t : Tile) (v : Move) (m : Mod) : Mod := tmapPut t v.page (onTier t (fun ts => { ts with moves := ts.moves ++ [v] }) m)

/-- A move ends or is abandoned (R301): a promotion's or backing's reservation goes, the working frame that a demotion took and
that holds no page returns, and its fuller is free. -/
def dropMove (t : Tile) (v : Move) (m : Mod) : Mod :=
  let keepRes (ts : TierSt) : List (Nat × Nat) :=
    if v.kind == .promotion || v.kind == .backing then ts.reserved.filter (fun x => x.1 != v.page) else ts.reserved
  let m := onTier t (fun ts => { ts with moves := ts.moves.erase v, reserved := keepRes ts }) m
  let back := v.len != 0 && !(sharedFrames m.tiers[t]).contains v.frame
  let m := if back then freeFrame t v.frame m else m
  dropHere (.page t v.page) (tmapPut t v.page (if needsFuller v.kind then fullerEnd (.move t v.page) m else m))

/-- What the acceptance of a write to an elastic page does (R301, R302): a demotion is abandoned; an unbacked or T2 page
with no promotion under way reserves a frame and starts its backing or promotion, which waits for a compaction under way, or
the write is refused. -/
def writeSpace (r : BitVec 128) (off : Nat) (key : BitVec 6) (m : Mod) : Bool × Mod :=
  if !rgElastic r then (true, m)
  else
    let t := rgTile r
    let ts : TierSt := m.tiers[t]
    let q := pageOf ts off
    let e := putBit (teGet m t q) 42 false
    let open_ (k : MoveKind) : Option Move := ts.moves.find? (fun v => v.page == q && v.kind == k)
    match open_ .demotion with
    | some v => (true, tePut t q e (dropMove t v m))
    | none =>
      if (open_ .promotion).isSome || (open_ .backing).isSome then (true, m)
      else if teState e = 1 then (true, tePut t q e m)
      else
        let f := freeFrames ts
        if f = 0 ∨ (ts.enforce = true ∧ f < reserveV ts) then (false, m)
        else match findFrame m t with
          | none => (false, m)
          | some fr =>
            let kind : MoveKind := if teState e = 2 then .promotion else .backing
            let v : Move := { page := q, kind := kind, key := key, frame := fr, start := 0, len := 0, todo := none }
            (true, capHeel t (touch (addMove t v (onTier t (fun ts => { ts with reserved := ts.reserved ++ [(q, fr)] }) m))))

/-- A write refused for want of space (R303): LPOISON, POISONED, event. `remote`: received from the peer. -/
def refuseWrite (r : BitVec 128) (off : Nat) (remote : Bool) (m : Mod) : Mod :=
  let t := rgTile r
  let ts : TierSt := m.tiers[t]
  let q := pageOf ts off
  let cause := if freeFrames ts = 0 then 0 else 1
  let m := tePut t q (putBit (teGet m t q) (44 + off / 256 % 16) true) m
  let m := onTier t (fun ts => { ts with poisoned := satAdd 0xFFFF_FFFF ts.poisoned 1 }) m
  event 0x0602 0 (lineOf off + t.val * 2 ^ 42 + cause * 2 ^ 44 + (if remote then 2 ^ 45 else 0)) m

/-- The stored bytes of a fulled page, decrypted, or what stops the read. -/
def readStored (m : Mod) (r : BitVec 128) (key : BitVec 6) (da n : Nat) : Unsealed × List Byte :=
  (List.range n).foldl (fun (acc : Unsealed × List Byte) i =>
    match acc.1 with
    | .ok _ =>
      let a := da + 256 * i
      let raw := battNow m a
      if rgCrypt r = 0 then
        if raw.2 then (.poison, acc.2) else (.ok 0, acc.2 ++ toBytes raw.1 256)
      else match openSeal m (rgCrypt r) key a raw.1 raw.2 with
        | .ok b => (.ok 0, acc.2 ++ toBytes b 256)
        | x => (x, acc.2)
    | _ => acc) (.ok 0, [])

/-- The key id of an access of the tier engine or the mirror engine of its own: a PLAIN or SEAL region permits one alone; with
several, the spec does not say which it is, so it is a free choice among them (log entry 113). -/
def engineKey (r : BitVec 128) : BitVec 6 :=
  let l := (List.range 64).filter (rgKeyOk r)
  BitVec.ofNat 6 (l.getD (Config.engineKey (rgLBase r) l.length % l.length) 0)

end Sys2Proof.Machine
end

