-- ==== Sys2Proof/Machine/Slice.lean ====
section
/-! DEFINITION. Machine/Slice.lean: what a slice does for the memory and counter spaces: write-back (R197), allocation (R193
to R195), the start of a fill and what its data does (R199, R76), merging writes under the write policies (R198, R205). -/
namespace Sys2Proof.Machine

/-! ### Where a line goes -/

/-- The device address of a batt of region `r` that is stored plain: by R252, or in the T1 frame of its page. -/
def homeDa (m : Mod) (r : BitVec 128) (off : Nat) : Option Nat :=
  if !rgElastic r then some (lineOf (plainDa r off))
  else
    let t := rgTile r
    let q := pageOf m.tiers[t] off
    let e := teGet m t q
    if teState e = 1 && !teBad m t q then some (frameDa t (teFrame e) + 256 * (off / 256 % 16)) else none

/-- The device address of a counter line (R396, R399). -/
def counterDa (m : Mod) (a : Nat) : Option Nat :=
  let c := a / 16 % 2 ^ 28
  (poolOfCounter m c).map (fun e => lineOf (e.2.dgran * 2 ^ 26 + 16 * (c / 16 * 16 - e.2.cbase)))

/-- The home of a counter line that leaves the slice, also when its pool is disabled meanwhile (log entry 29). -/
def counterHome (m : Mod) (a : Nat) : Option Nat :=
  let c := a / 16 % 2 ^ 28
  let of (p : CounterPool) : Bool := p.cbase ≤ c && c < p.cbase + p.ccount
  (counterDa m a).orElse fun _ => (m.cpools.find? (fun e => of e.2)).map (fun e => lineOf (e.2.dgran * 2 ^ 26 + 16 * (c / 16 * 16 - e.2.cbase)))

/-! ### Handing a batt to the write buffer (R197, R279) -/

/-- What handing a stored batt of a region to the write buffer waits for. -/
inductive StoreWait where
  | ready
  /-- metadata batts, with their META kinds -/
  | needs (l : List (Nat × Nat))
  /-- a reseal of the node (level, index), for one of its minors, that has not begun -/
  | overflow (level idx child : Nat)
  /-- a reseal under way (R282) -/
  | reseal
  deriving DecidableEq, Repr, Inhabited

/-- R279, R281, R282: what a write of the batt at `da` of a region with this CRYPT waits for. -/
def storeWait (m : Mod) (crypt da : Nat) : StoreWait :=
  if crypt = 0 then .ready
  else if resealing m da then .reseal
  else match sealNeeds m crypt da true with
    | [] =>
      let t := daTile da
      match overflowAt m t 5 0 (sealIdx m.prot.sealR[t] (battOf da)) with
      | some (l, i, c) => .overflow l i c
      | none => .ready
    | l => .needs l

/-- Whether a batt can be handed to the write buffer now as far as its metadata goes; what it lacks is asked for on behalf of
`own`. -/
def storeReady (own : Owner) (crypt da : Nat) (m : Mod) : Bool × Mod :=
  match storeWait m crypt da with
  | .ready => (true, m)
  | .reseal => (false, m)
  | .needs l => (false, wantMeta own l m)
  | .overflow l i c => (false, startReseal (daTile da) l i c own m)

/-- Hand a whole batt of a region to the write buffer, encrypted as the region asks (R279). -/
def storeBatt (cls : SlotClass) (kind : Nat) (label : BitVec 3) (r : BitVec 128) (key : BitVec 6) (da : Nat) (b : Batt)
    (poison : Bool) (m : Mod) : Mod :=
  if m.prot.stop.isSome then m
  else if rgCrypt r = 0 then wbPut cls kind label da b poison m
  else match sealBatt (rgCrypt r) key da b m with
    | (some x, m) => wbPut cls kind label da x poison m
    | (none, m) => m

/-- The kind under which a request of a class and label is counted in a pool without labels (R414): MIRROR work carries it in place
of a label. -/
def poolKind (cls : SlotClass) (label : BitVec 3) : Nat := if cls == .mirror then label.toNat else 0

/-- A batt of a line waits in front of the write buffer: its claim stands among the waiting requests of its pack (R110, R413). -/
def claimEntry (cls : SlotClass) (space : BitVec 2) (t : Tile) (a da : Nat) (label : BitVec 3) (overs : Bool) (m : Mod) : Mod :=
  let q := battReq cls da true label (poolKind cls label) (.line space t a)
  if (m.packs[daPack da] : PackSt).waiting.contains q then m else awaitEntry q overs m

/-- Where the batt of a line, or of a transit entry, of the memory or counter space goes. -/
inductive LineHome where
  /-- nowhere: its region or pool is gone, its page's tier-map batt is uncorrectable (R294), or the module has stopped (R285) -/
  | gone
  /-- it waits for its tier-map batt, or for the move of its page (R300) -/
  | tmap (t : Tile) (q : Nat)
  | moving
  /-- its page stayed fulled, since its promotion was abandoned (R76, R301) -/
  | stays (t : Tile) (q : Nat)
  /-- the device address, with the CRYPT and, for the memory space, the region -/
  | at_ (r : Option (BitVec 128)) (da : Nat)
  deriving DecidableEq, Repr, Inhabited

/-- The home of a line. -/
def lineHome (m : Mod) (space : BitVec 2) (a : Nat) : LineHome :=
  if m.prot.stop.isSome then .gone
  else if space = 0 then
    match regionOf m a with
    | none => .gone
    | some r =>
      let t := rgTile r
      let q := pageOf m.tiers[t] a
      if rgElastic r && !teHere m t q then .tmap t q
      else match homeDa m r a with
        | some da => .at_ (some r) da
        | none => if teBad m t q then .gone else if pageMoving m.tiers[t] q then .moving else .stays t q
  else match counterHome m a with
    | some da => .at_ none da
    | none => .gone

/-- Hand the batt of a line or transit entry to the write buffer, if it can go now (R197, R279, R300): what it waits for is
asked for. The first answer: it has gone. -/
def tryWriteBack (cls : SlotClass) (space : BitVec 2) (t : Tile) (a : Nat) (label : BitVec 3) (key : BitVec 6) (b : Batt)
    (poison : Bool) (m : Mod) : Bool × Mod :=
  let own : Owner := .line space t a
  match lineHome m space a with
  | .gone => (true, m)
  | .tmap t q => (false, wantTmap own t q m)
  | .moving => (false, m)
  -- the write has no place: the line is lost, and poisoned (log entry 114)
  | .stays t q => (true, tePut t q (putBit (teGet m t q) (44 + a / 256 % 16) true) m)
  | .at_ r da =>
    let x := storeReady own (r.elim 0 rgCrypt) da m
    if !x.1 then x
    else
      let k := poolKind cls label
      let ok := wbAccepts x.2 cls k label da
      if !ok.1 then (false, claimEntry cls space t a da label ok.2 x.2)
      else (true, match r with
        | some r => storeBatt cls k label r key da b poison x.2
        | none => wbPut cls k label da b poison x.2)

/-- Write back a metadata line (R197, R279): a node once its parent is trusted, anything else at once. -/
def tryMetaBack (l : Line) (m : Mod) : Bool × Mod :=
  let da := lineAddr l
  let t := daTile da
  let own : Owner := .line 2 t da
  if m.prot.stop.isSome then (true, m)
  else match nodeAt m.prot.sealR[t] da with
    | none =>
      let k := metaKind m da
      if (wbAccepts m .metaSlot k 0 da).1 then (true, wbPut .metaSlot k 0 da l.data l.poison m) else (false, m)
    | some (level, idx) =>
      let under (r : Reseal) : Bool := r.tile == t.val && level < r.level && idx / 128 ^ (r.level - level) == r.index
      if m.prot.reseals.any under then (false, m)
      else match pathNeeds m t 5 (level + 1) (idx / 128) with
        | [] => match overflowAt m t 5 level idx with
          | some (l, i, c) => (false, startReseal t l i c own m)
          | none =>
            if (wbAccepts m .metaSlot (level + 1) 0 da).1 then
              (true, nodeWrite t 5 level idx l.data (onSlice t (dropLine l.set l.way) m))
            else (false, m)
        | n => (false, wantMeta own n m)

/-- Whole-sector marks (R172) of a poisoned line that leaves the slice are kept until the line comes again or its poison ends. -/
def keepWhole (t : Tile) (space : BitVec 2) (a : Nat) (poison : Bool) (whole : BitVec 32) (m : Mod) : Mod :=
  onSlice t (fun s =>
    let rest := s.wholes.filter (fun x => !(x.1 == space && x.2.1 == a))
    { s with wholes := if poison && whole != 0 then (space, a, whole) :: rest else rest }) m

/-- The marks kept of a line. -/
def wholeOf (s : Slice) (space : BitVec 2) (a : Nat) : BitVec 32 :=
  (s.wholes.find? (fun x => x.1 == space && x.2.1 == a)).elim 0 (·.2.2)

/-- A line whose batt has gone, or that is clean, is done with as its write-back asks (R197, R200, R205, R210). -/
def wbDone (t : Tile) (l : Line) (m : Mod) : Mod :=
  if l.wb = 1 then onSlice t (putLine { l with sdirty := 0, busy := false, wb := 0 }) m
  else if l.wb = 3 ∧ (m.slices[t] : Slice).locked.getLsbD l.way = true then
    onSlice t (putLine { l with svalid := 0, sdirty := 0, poison := false, whole := 0, busy := false, wb := 0 }) m
  else keepWhole t l.space (lineAddr l) l.poison l.whole (onSlice t (dropLine l.set l.way) m)

/-- The write-back of the line in (set, way) goes on as far as it can now. A line whose fill is in flight waits for it. -/
def retryLine (t : Tile) (set way : Nat) (m : Mod) : Mod :=
  match entryAt m.slices[t] set way with
  | none => m
  | some l =>
    if l.wb = 0 ∨ l.svalid ≠ 15 ∧ l.svalid ≠ 0 ∨ (findMiss m.slices[t] l.space (lineAddr l)).isSome = true then m
    else if l.sdirty = 0 then wbDone t l m
    else if l.space = 2 then
      let x := tryMetaBack l m
      if x.1 then wbDone t l x.2 else x.2
    else
      let x := tryWriteBack .lineWb l.space t (lineAddr l) l.label l.keyId l.data l.poison m
      if x.1 then wbDone t l (perfCount (tilePage t) (perfReq 0x07 l.label.toNat l.keyId (lineAddr l)) none x.2) else x.2

/-- Start the write-back of a line in a mode of `markWb` (R197). -/
def startWb (t : Tile) (l : Line) (mode : Nat) (m : Mod) : Mod := retryLine t l.set l.way (markWb l mode m t)

/-- Every write-back of a tile in flight goes on as far as it can: nodes of lower levels first, then the other lines. -/
def retryLines (t : Tile) (m : Mod) : Mod :=
  let go (m : Mod) (l : Line) : Mod := retryLine t l.set l.way m
  let ls := (m.slices[t] : Slice).lines.filter (fun l => l.wb != 0)
  let m := (ls.filter (fun l => l.space != 2)).foldl go m
  [0, 1, 2, 3, 4, 5].foldl (fun m k => (ls.filter (fun l => l.space == 2 && metaKind m (lineAddr l) == k)).foldl go m) m

/-- Lines that a condition selects leave the slice: clean ones at once, the others as their write-backs, or their fills, end
(R210, R213). -/
def flushSel (t : Tile) (sel : Line → Bool) (m : Mod) : Mod :=
  let ls := (m.slices[t] : Slice).lines.filter sel
  retryLines t (ls.foldl (fun m l => markWb l 2 m t) m)

/-- Whether lines of a tile that satisfy a condition are still on their way out. -/
def leaving (m : Mod) (t : Tile) (sel : Line → Bool) : Bool := (m.slices[t] : Slice).lines.any (fun l => sel l && 2 ≤ l.wb)

/-! ### Allocation -/

/-- R194 for the memory and counter spaces. -/
def insertAt (m : Mod) (s : Slice) (label : BitVec 3) (around : Bool) : Nat × Bool :=
  if overShare m s label then (3, true) else if around then (3, false) else (insertRrpv m label, false)

/-- Place a new line among the general ways (R193): `false` when every way is busy (R195), when there is none (R215), or when
the victim is dirty and its write-back goes on first (R197). While a victim of a set leaves, no second one is chosen. -/
def allocLine (t : Tile) (space : BitVec 2) (a : Nat) (label : BitVec 3) (key : BitVec 6) (around : Bool) (m : Mod) : Bool × Mod :=
  match heldPlace m.slices[t] space a with
  | some l => (true, onSlice t (putLine (newLine space a l.way 0 label key)) m)
  | none =>
    let s : Slice := m.slices[t]
    let ways := allocWays s
    let place (w : Nat) (s : Slice) (m : Mod) : Bool × Mod :=
      let m := onSlice t (fun _ => dropLine (lineSet a) w s) m
      let m := match entryAt s (lineSet a) w with
        | some l => keepWhole t l.space (lineAddr l) l.poison l.whole m
        | none => m
      let x := insertAt m m.slices[t] label around
      let m := if x.2 then
          perfCount (tilePage t) (perfReq 0x08 label.toNat key a) none (onLabel label (fun l => { l with overs := l.overs + 1 }) m)
        else m
      (true, onSlice t (putLine (newLine space a w x.1 label key)) m)
    match pickWay s (lineSet a) ways with
    | none => (false, m)
    | some (w, s') => match entryAt s' (lineSet a) w with
      | none => place w s' m
      | some l =>
        if l.sdirty = 0 then place w s' m
        else if s.lines.any (fun x => x.set == lineSet a && x.wb == 2 && ways.contains x.way) then (false, m)
        else
          let m := startWb t l 2 (onSlice t (fun _ => s') m)
          if (entryAt m.slices[t] (lineSet a) w).isNone then place w m.slices[t] m else (false, m)

/-! ### Miss entries (R189, R411) -/

/-- A slice with the miss entry of a line changed. -/
def onMiss (space : BitVec 2) (a : Nat) (f : Miss → Miss) (s : Slice) : Slice :=
  { s with misses := s.misses.map (fun x => if x.space == space && x.addr == lineOf a then f x else x) }

/-- A request joins the line's miss entry (R189). -/
def joinMiss (t : Tile) (space : BitVec 2) (a : Nat) (q : MReq) (m : Mod) : Mod :=
  onSlice t (onMiss space a (fun x => { x with waiters := x.waiters ++ [q] })) m

/-- The transit entries of a slice, of those that `mine` selects by slot class and label: those whose fill is open, and those that
wait for the write buffer. -/
def transitHeld (s : Slice) (mine : SlotClass → BitVec 3 → Bool) : Nat :=
  (s.misses.filter (fun x => x.transit && mine x.cls x.label)).length +
    (s.transits.filter (fun x => x.space != 2 && mine x.cls x.label && (findMiss s x.space x.addr).isNone)).length

/-- Whether a request may take a miss or transit entry (R411, R412): received mirrored writes have 16 transit entries of their own
(R445), and any other work takes them by label. -/
def missAdmit (m : Mod) (s : Slice) (transit : Bool) (cls : SlotClass) (label : BitVec 3) : Bool × Bool :=
  let q := (m.labels[label.toNat]'label.isLt).qshare
  if cls == .mirror then (transitHeld s (fun c _ => c == .mirror) < 16, false)
  else if transit then shareAdmit 64 4 16 q (fun l => transitHeld s (fun c k => c != .mirror && k == l)) label
  else shareAdmit 1024 16 768 q (fun l => (s.misses.filter (fun x => !x.transit && x.label == l)).length) label

/-- Open a miss entry for a fill that reads `das`. -/
def openMiss (t : Tile) (space : BitVec 2) (a : Nat) (key : BitVec 6) (label : BitVec 3) (cls : SlotClass) (transit : Bool)
    (das : List Nat) (ws : List MReq) (m : Mod) : Mod :=
  let x : Miss := { space := space, addr := lineOf a, keyId := key, label := label, cls := cls, transit := transit, issued := true,
                    das := das, waiters := ws }
  onSlice t (fun s => { s with misses := s.misses ++ [x] }) m

/-- Close a miss entry: the state without it, and its waiters in order. -/
def closeMiss (t : Tile) (space : BitVec 2) (a : Nat) (m : Mod) : List MReq × Mod :=
  let s : Slice := m.slices[t]
  ((findMiss s space a).elim [] (·.waiters),
    onSlice t (fun s => { s with misses := s.misses.filter (fun x => !(x.space == space && x.addr == lineOf a)) }) m)

/-! ### Fills -/

/-- The batt of a read class as it reaches the slice: decrypted and checked under the key id. -/
def plainBatt (m : Mod) (r : BitVec 128) (key : BitVec 6) (da : Nat) (raw : Batt) (bad : Bool) : Unsealed :=
  if rgCrypt r = 0 then (if bad then .poison else .ok raw) else openSeal m (rgCrypt r) key da raw bad

/-- How a fill starts. -/
inductive FillStart where
  /-- data at once: from the write buffer, a page of zeros or a fresh batt, without a slot -/
  | now (u : Unsealed)
  /-- batts to read in LINE_FILL slots -/
  | slots (das : List Nat)
  /-- the batt lies under a node being resealed (R282) -/
  | reseal (da : Nat)
  deriving DecidableEq, Repr, Inhabited

/-- R90, R252, R278, R293: how the fill of a line of the memory space starts; its page's tier-map batt is at hand. -/
def fillStart (m : Mod) (r : BitVec 128) (key : BitVec 6) (off : Nat) : FillStart :=
  match placeOf m r off with
  | .poison => .now .poison
  | .zero => .now (.ok 0)
  | .batt da =>
    if rgCrypt r != 0 && resealing m da then .reseal da
    else if rgCrypt r != 0 && freshBatt m da then .now (.ok 0)
    else match wbFind m da, sealNeeds m (rgCrypt r) da false with
      | some e, [] => .now (plainBatt m r key da e.data e.poison)
      | _, _ => .slots [da]
  | .fulled da n =>
    if rgCrypt r != 0 && resealing m da then .reseal da
    else .slots ((List.range n).map (fun i => da + 256 * i))

/-- How the fill of a counter line starts. -/
def counterFill (m : Mod) (a : Nat) : FillStart :=
  match counterDa m a with
  | none => .now .poison
  | some da => match wbFind m da with
    | some e => .now (if e.poison then .poison else .ok e.data)
    | none => .slots [da]

/-- The metadata that the batts of a fill wait for. -/
def fillNeeds (m : Mod) (space : BitVec 2) (a : Nat) (das : List Nat) : List (Nat × Nat) :=
  match (if space = 0 then regionOf m a else none) with
  | some r => (das.flatMap (fun da => sealNeeds m (rgCrypt r) da false)).eraseDups
  | none => []

/-- Hand a fill's reads to the dispatcher: its batts in slots of its class, LINE_FILL for a host's, but for those with a pending write (R90), and in
parallel the metadata of their paths in META slots (R277). A fulled page's fill then waits for a fuller (R293). -/
def issueFill (t : Tile) (space : BitVec 2) (a : Nat) (key : BitVec 6) (label : BitVec 3) (cls : SlotClass) (fulled : Bool)
    (das : List Nat) (m : Mod) : Mod :=
  let own : Owner := .fill space t (lineOf a)
  let m := if fulled then
      let d : Decomp := { addr := lineOf a, keyId := key }
      onSlice t (fun s => { s with decomps := s.decomps ++ [d] }) m
    else m
  let m := das.foldl (fun m da => match wbFind m da with
    | some e => { m with here := { own := own, da := battOf da, data := e.data, poison := e.poison } :: m.here }
    | none => enqReq (battReq cls da false label (poolKind cls label) (.fill space t (lineOf a))) m) m
  wantMeta own (fillNeeds m space a das) m

/-- A line's content after its fill: only missing sectors take it (R199). -/
def filledLine (l : Line) (b : Batt) : Line := { l with data := fillSectors l b, svalid := 15, busy := l.wb != 0 }

/-- The transit entry of a line. -/
def findTransit (s : Slice) (space : BitVec 2) (a : Nat) : Option Transit :=
  s.transits.find? (fun x => x.space == space && x.addr == lineOf a)

/-- A slice without the transit entry of a line. -/
def dropTransit (space : BitVec 2) (a : Nat) (s : Slice) : Slice :=
  { s with transits := s.transits.filter (fun x => !(x.space == space && x.addr == lineOf a)) }

/-- A slice with a transit entry stored. -/
def putTransit (x : Transit) (s : Slice) : Slice :=
  { s with transits := (dropTransit x.space x.addr s).transits ++ [x] }

/-- A transit entry with no sector yet; `cls`: the class of its fill. -/
def newTransit (space : BitVec 2) (a : Nat) (key : BitVec 6) (label : BitVec 3) (cls : SlotClass) : Transit where
  space := space
  addr := lineOf a
  keyId := key
  label := label
  cls := if cls == .lineFill then .lineWb else cls
  svalid := 0
  data := 0
  poison := false
  dirty := false
  whole := 0

/-- What the fill of a line does to the slice (R76, R199): a good fill completes the line; a poisoned one completes a line
that a write waits on as wholly poisoned, and otherwise frees the way. A line without a way is held as a transit entry for
its waiters. `wr`: a write waits for the fill. -/
def landFill (t : Tile) (space : BitVec 2) (a : Nat) (key : BitVec 6) (label : BitVec 3) (cls : SlotClass) (u : Unsealed)
    (wr : Bool) (m : Mod) : Mod :=
  let s : Slice := m.slices[t]
  let old := findTransit s space a
  let fresh : Transit := newTransit space a key label cls
  let marks := wholeOf s space (lineOf a)
  let keep (x : Transit) (b : Batt) : Batt :=
    (List.range 4).foldl (fun acc j => if x.svalid.getLsbD j then putSector acc j (sectorOf x.data j) else acc) b
  let trans (b : Batt) (p : Bool) : Mod :=
    let x := old.getD fresh
    onSlice t (putTransit { x with data := keep x b, svalid := 15, poison := x.poison || p, whole := if p then x.whole ||| marks else x.whole }) m
  match findLine s space a, u with
  | some l, .ok b => onSlice t (putLine (filledLine l b)) m
  | some l, .poison =>
    if l.svalid != 0 || wr then onSlice t (putLine { filledLine l 0 with poison := true, whole := l.whole ||| marks }) m
    else
      onSlice t (fun s => putTransit { fresh with svalid := 15, poison := true, whole := marks } (dropLine l.set l.way s)) m
  | some l, .stop c lv da => integrityStop c lv (l.svalid != 0 || wr) da key.toNat (onSlice t (dropLine l.set l.way) m)
  | none, .ok b => trans b false
  | none, .poison => trans 0 true
  | none, .stop c lv da => integrityStop c lv wr da key.toNat m

/-! ### Merging a write -/

/-- Whether a write of region `r` to a line in `way` is handed on at once: WPOL 1 to 3, or a locked way (R198, R205). -/
def writesThrough (s : Slice) (r : BitVec 128) (way : Nat) : Bool := rgWpol r != 0 || s.locked.getLsbD way

/-- Sector `j` of a line takes written bytes; a poisoned write poisons the line (R172), whose poison ends when every sector
has been written whole since. -/
def mergeSector (l : Line) (j : Nat) (data : Sector) (en : BitVec 64) (poison : Bool) (label : BitVec 3) : Line :=
  let b := putSector l.data j (mergeBytes (sectorOf l.data j) data en)
  let bit1 : BitVec 4 := 1#4 <<< j
  let bit2 : BitVec 32 := 1#32 <<< j
  let full := en == BitVec.allOnes 64
  let whole : BitVec 32 := if poison then 0 else if full then l.whole ||| bit2 else l.whole
  let p := (l.poison || poison) && whole != 15
  { l with data := b, svalid := l.svalid ||| bit1, sdirty := l.sdirty ||| bit1, label := label, rrpv := 0,
           poison := p, whole := if p then whole else 0 }

/-- Hand on a complete dirty line under write-through and write-around, or of a locked way; the line is then clean. -/
def handOn (t : Tile) (r : BitVec 128) (a : Nat) (m : Mod) : Mod :=
  match findLine m.slices[t] 0 a with
  | none => m
  | some l =>
    if l.svalid = 15 ∧ l.sdirty ≠ 0 ∧ writesThrough m.slices[t] r l.way = true then startWb t l 1 m else m

/-- A line's LPOISON bit is cleared when its poison has ended by a whole write (R303). -/
def clearLpoison (r : BitVec 128) (off : Nat) (m : Mod) : Mod :=
  if rgElastic r then
    let t := rgTile r
    let q := pageOf m.tiers[t] off
    if tePoison (teGet m t q) (off / 256 % 16) then tePut t q (putBit (teGet m t q) (44 + off / 256 % 16) false) m else m
  else m

/-! ### Lines under another key id (R200) -/

/-- Write back under its own key id and invalidate a line that another key id asks for (R200); a locked line keeps its place
(R205). -/
def rekey (t : Tile) (a : Nat) (key : BitVec 6) (m : Mod) : Mod :=
  match findLine m.slices[t] 0 a with
  | some l => if l.keyId = key ∨ l.busy then m else startWb t l 3 m
  | none => m

end Sys2Proof.Machine
end

