-- ==== Sys2Proof/Machine/Coherence.lean ====
section
/-! DEFINITION. Machine/Coherence.lean: the snoop filter (R219 to R222, R226), back-invalidation (R224, R225, R228, R229),
filter eviction (R233, R234), and the responses of the ports. -/
namespace Sys2Proof.Machine

/-! ### Responses -/

/-- An access of an engine is answered. -/
def answerAcc (id : Nat) (d : Sector) (bad : Bool) (m : Mod) : Mod :=
  { m with acc := m.acc.map (fun a => if a.id == id then { a with ans := some (d, bad) } else a) }

/-- Whether a request is a host's. -/
def isHost (q : MReq) : Bool := q.who == .host

/-- Send BI-ConflictAck for the conflicts that wait for nothing more (R232). -/
def conflictAcks (p : Port) (m : Mod) : Mod :=
  let q := m.ports.get p
  let ready := q.conflicts.filter (fun c => c.2.isEmpty)
  ready.foldl (fun m c => send (.biConflictAck p c.1) m)
    (onPort p (fun q => { q with conflicts := q.conflicts.filter (fun c => !c.2.isEmpty) }) m)

/-- Tracker entries of a label. -/
def trackHeld (q : PortSt) (label : BitVec 3) (write : Bool) : Nat :=
  (q.tracker.filter (fun t => t.label == label && t.write == write)).length

/-- The entries that the budget in force gives a label. -/
def trackBudget (m : Mod) (p : Port) (label : BitVec 3) (write : Bool) : Nat :=
  if write then (curBudget m p label).2.1 else (curBudget m p label).1

/-- The key of `overHeld`. -/
def overKey (label : BitVec 3) (write : Bool) : Nat := 2 * label.toNat + (if write then 1 else 0)

/-- A label whose holding has fallen below the budget in force counts its overruns again (R188). -/
def settleOver (p : Port) (m : Mod) : Mod :=
  let stays (k : Nat) : Bool :=
    let l := BitVec.ofNat 3 (k / 2)
    trackBudget m p l (k % 2 == 1) ≤ trackHeld (m.ports.get p) l (k % 2 == 1)
  onPort p (fun q => { q with overHeld := q.overHeld.filter stays }) m

/-- A request's response has left: its tracker entry frees, and conflicts that waited for it go on (R167, R188, R232). -/
def retire (q : MReq) (m : Mod) : Mod :=
  let write := q.kind == .memWr || q.kind == .memWrPtl
  let drop (l : List Track) : List Track := match l.findIdx? (fun t => t.tag == q.tag && t.write == write) with
    | some i => l.eraseIdx i
    | none => l
  let awaited (l : List (BitVec 16 × List (BitVec 16))) := l.map (fun c => (c.1, c.2.filter (· != q.tag)))
  let upd (p : PortSt) : PortSt :=
    { p with tracker := if q.answer then p.tracker else drop p.tracker, conflicts := awaited p.conflicts,
             answerWr := if q.answer then p.answerWr - 1 else p.answerWr }
  conflictAcks q.port (settleOver q.port (onPort q.port upd m))

/-- A port that answers no BISnp: down, or in the presence sweep of a reset (R177, R227). -/
def portGone (m : Mod) (p : Port) : Bool := portDown m p || (m.ports.get p).sweeping

/-- S2M NDR with a grant; the message to a port in reset is discarded. A write that has had its Cmp gets no second. -/
def sendNdr (q : MReq) (g : Grant) (m : Mod) : Mod :=
  if q.done || q.void then m
  else match q.who with
  | .engine id _ _ => answerAcc id 0 false m
  | .host => retire q (if portDown m q.port then m else send (.ndr q.port q.tag g) m)

/-- S2M MemData with a grant (R224); RD_BYTES and the window count the bytes (R415, R539). -/
def sendData (q : MReq) (d : Sector) (poison : Bool) (g : Grant) (m : Mod) : Mod :=
  if q.void then m
  else match q.who with
  | .engine id _ _ => answerAcc id d poison m
  | .host =>
    if portDown m q.port then retire q m else
    let m := onLabel (wLabel q.w) (fun l => { l with rd := l.rd + 64 }) m
    let m := { m with bw := m.bw.set q.port { m.bw.get q.port with accRd := (m.bw.get q.port).accRd + 64 } }
    let m := perfCount (halfPage q.port) (perfReq 0x07 (wLabel q.w).toNat (wKey q.w) (wOff q.w)) none m
    retire q (send (.memData q.port q.tag d poison g) m)

/-- *Violation responses* (R165): poison, an empty Cmp, nothing performed. -/
def violationAnswer (q : MReq) (m : Mod) : Mod :=
  match q.kind with
  | .memRd | .memRdData => sendData q 0 true .none m
  | _ => sendNdr q .none m

/-- PORT_ERR.VIOL, PORT_VIOL, VIOLCOUNT and the event of a violation (R165, R186). -/
def logViolation (p : Port) (w : BitVec 53) (kind : Nat) (write : Bool) (m : Mod) : Mod :=
  let v : Viol := { addr := w, kind := BitVec.ofNat 3 kind, write := write }
  let set (q : PortSt) : PortSt :=
    { q with err := q.err ||| 1#8, violCount := satAdd 0xFFFF_FFFF q.violCount 1, viol := if q.viol.isNone then some v else q.viol }
  let m := onPort p set m
  event 0x0304 0 (w.toNat + kind * 2 ^ 53 + (if write then 2 ^ 56 else 0) + p.num * 2 ^ 57) m

/-! ### Filter entries -/

/-- The filter set and tag of a line number (R221). -/
def filtSet (line : Nat) : Nat := (line % 2 ^ 16) ^^^ (line / 2 ^ 16 % 2 ^ 16)
def filtTag (line : Nat) : BitVec 20 := BitVec.ofNat 20 (line / 2 ^ 16)
/-- The line number of an entry. -/
def entLine (e : FEntry) : Nat := e.tag.toNat * 2 ^ 16 + (e.set ^^^ (e.tag.toNat % 2 ^ 16))

def findEnt (f : FilterSt) (line : Nat) : Option FEntry :=
  f.entries.find? (fun e => e.set == filtSet line && e.tag == filtTag line)

def entPres (e : FEntry) : Port → Bool
  | .a => e.presA
  | .b => e.presB

def entLabel (e : FEntry) : Port → BitVec 3
  | .a => e.labelA
  | .b => e.labelB

def entKey (e : FEntry) : Port → BitVec 6
  | .a => e.keyA
  | .b => e.keyB

/-- Presence of a port changed; a port that leaves takes EXCL with it. -/
def entSetPres (e : FEntry) (p : Port) (v : Bool) : FEntry :=
  let e := match p with
    | .a => { e with presA := v }
    | .b => { e with presB := v }
  { e with excl := e.excl && (e.presA || e.presB) && !(e.presA && e.presB) }

/-- The alias under which a port holds the line recorded. -/
def entAlias (e : FEntry) (p : Port) (l : BitVec 3) (k : BitVec 6) : FEntry :=
  match p with
  | .a => { e with labelA := l, keyA := k }
  | .b => { e with labelB := l, keyB := k }

/-- A filter with an entry stored; one in which no port is present becomes invalid (R226). -/
def putEnt (e : FEntry) (f : FilterSt) : FilterSt :=
  let rest := f.entries.filter (fun x => !(x.set == e.set && x.way == e.way))
  let valid := e.presA || e.presB
  { f with entries := if valid then e :: rest else rest,
           badP := if valid then f.badP else f.badP.filter (· != (e.set, e.way)),
           badS := if valid then f.badS else f.badS.filter (· != (e.set, e.way)) }

/-- BISnp open for a line. -/
def snpsOf (f : FilterSt) (line : Nat) : List OpenSnp := f.snps.filter (fun s => s.line == line)

/-- The filter entry as FILTER_READ returns a copy (R222). -/
def filtWordOf (e : FEntry) : Word64 :=
  let v : BitVec 44 := BitVec.ofNat 44 (e.tag.toNat + 2 ^ 20 + (if e.presA then 2 ^ 21 else 0) + (if e.presB then 2 ^ 22 else 0) +
    (if e.excl then 2 ^ 23 else 0) + e.labelA.toNat * 2 ^ 24 + e.keyA.toNat * 2 ^ 27 + e.labelB.toNat * 2 ^ 33 +
    e.keyB.toNat * 2 ^ 36 + (if e.nru then 2 ^ 42 else 0) + (if e.pend then 2 ^ 43 else 0))
  v.setWidth 64 ||| ((Config.filterCheck v).setWidth 64 <<< 44)

/-! ### Sending BISnp (R229) -/

/-- Send the BISnp of one tile toward a port that wait, oldest first, while credit and one of 16 open entries are held; a
recall takes none of the last four (R243). -/
def pumpSnp : Nat → Tile → Port → Mod → Mod
  | 0, _, _, m => m
  | k + 1, t, p, m =>
    let f : FilterSt := m.filters[t]
    let sent := (f.snps.filter (fun s => s.port == p && s.sent)).length
    let recalls (s : OpenSnp) : Bool := match s.why with
      | .recalls _ => true
      | _ => false
    match f.snps.find? (fun s => s.port == p && !s.sent && sent < (if recalls s then 12 else 16)) with
    | none => m
    | some s =>
      if (m.ports.get p).snpCredit = 0 then m
      else
        let m := onPort p (fun q => { q with snpCredit := q.snpCredit - 1 }) m
        let m := onFilter t (fun f => { f with snps := f.snps.map (fun x => if x == s then { x with sent := true } else x) }) m
        let m := perfCount (tilePage t) (perfReq 0x0A p.num 0 (wOff s.w)) none m
        pumpSnp k t p (send (.biSnp p s.tag s.kind s.w) m)

/-- Send what waits toward a port in every tile. -/
def pumpPort (p : Port) (m : Mod) : Mod :=
  (List.finRange 4).foldl (fun m t => pumpSnp (m.filters[t] : FilterSt).snps.length t p m) m

/-- Open a BISnp toward a port at an alias. -/
def openSnp (t : Tile) (p : Port) (line : Nat) (kind : SnpKind) (w : BitVec 53) (why : SnpWhy) (m : Mod) : Mod :=
  let s : OpenSnp := { tag := m.snpTag, port := p, line := line, kind := kind, w := w, why := why, sent := false }
  let m := { m with snpTag := (m.snpTag + 1) % 65536 }
  let mark (l : List FEntry) : List FEntry := l.map (fun e => if entLine e == line then { e with pend := true } else e)
  pumpSnp 1 t p (onFilter t (fun f => { f with snps := f.snps ++ [s], entries := mark f.entries }) m)

/-- A BISnp toward a port in reset completes as BIRspI at once (R177). -/
def snoop (t : Tile) (p : Port) (line : Nat) (kind : SnpKind) (w : BitVec 53) (why : SnpWhy) (m : Mod) : Mod :=
  if portGone m p then
    onFilter t (fun f => match findEnt f line with
      | some e => putEnt (entSetPres e p false) f
      | none => f) m
  else openSnp t p line kind w why m

/-- The recorded alias of a port in an entry. -/
def entW (e : FEntry) (p : Port) : BitVec 53 := wOf (entLine e) (entLabel e p) (entKey e p)

/-- The requests of a tile's lines that are in service in its slice: they wait for a fill, a miss entry, their line, a reseal, or
the end of a copy (R450). -/
def inFlight (m : Mod) (t : Tile) : List MReq :=
  let s : Slice := m.slices[t]
  s.misses.flatMap (·.waiters) ++ s.missWait ++ s.lineWait ++ m.gang.held ++ m.prot.reseals.flatMap (·.waiters)

/-- Whether a request for a 64 B line is in service: the home slice serves one transaction per line at a time (R228). -/
def inService (m : Mod) (t : Tile) (line : Nat) : Bool :=
  (inFlight m t).any (fun q => wAper q.w == 0 && wLine q.w == line && !q.done)

/-- Recall an entry from every port present (R233), unless a request for its line is in service (R228). -/
def recallEnt (t : Tile) (e : FEntry) (why : SnpWhy) (m : Mod) : Mod :=
  if inService m t (entLine e) then m else [Port.a, Port.b].foldl (fun m p => if entPres e p then snoop t p (entLine e) .inv (entW e p) why m else m) m

/-! ### Eviction (R233, R234) -/

/-- The entries of a set. -/
def setEnts (f : FilterSt) (set : Nat) : List FEntry := f.entries.filter (fun e => e.set == set)

/-- The lowest way of a set that holds no entry and is kept for no request. -/
def freeWay (f : FilterSt) (set : Nat) : Option Nat :=
  (List.range 16).find? (fun w => !((setEnts f set).any (fun e => e.way == w)) &&
    !(f.resv.any (fun x => x.2 == w && filtSet x.1 == set)))

/-- The way kept for a line. -/
def keptWay (f : FilterSt) (line : Nat) : Option Nat := (f.resv.find? (fun x => x.1 == line)).map (·.2)

/-- A way is kept for a line until its grant is recorded, or is kept no longer. -/
def keepWay (line way : Nat) (f : FilterSt) : FilterSt := { f with resv := (line, way) :: f.resv }
def unkeep (line : Nat) (f : FilterSt) : FilterSt := { f with resv := f.resv.filter (fun x => x.1 != line) }

/-- The victim of a full set among the entries whose line is not `busy`, and the filter after its NRU bits have been cleared if
need be (R233). -/
def filtVictim (busy : Nat → Bool) (f : FilterSt) (set : Nat) : Option (FEntry × FilterSt) :=
  let cand := (List.range 16).filterMap (fun w => (setEnts f set).find? (fun e => e.way == w && !e.pend && !busy (entLine e)))
  match cand.find? (fun e => !e.nru) with
  | some e => some (e, f)
  | none =>
    (cand.head?).map (fun e => ({ e with nru := false },
      { f with entries := f.entries.map (fun x => if x.set == set && !x.pend then { x with nru := false } else x) }))

/-- Whether an eviction of a set is open. -/
def evicting (f : FilterSt) (set : Nat) : Bool :=
  f.snps.any (fun s => filtSet s.line == set && (s.why == .evict || s.why == .background))

/-- Start an eviction in a full set. -/
def startEvict (t : Tile) (set : Nat) (why : SnpWhy) (m : Mod) : Mod :=
  match filtVictim (inService m t) m.filters[t] set with
  | none => m
  | some (e, f) => recallEnt t e why (onFilter t (fun _ => f) m)

/-- R234: an allocation that fills a set starts one background eviction while at least 4 of the 16 open entries toward each
snooped port are free. -/
def backgroundEvict (t : Tile) (set : Nat) (m : Mod) : Mod :=
  let f : FilterSt := m.filters[t]
  if (freeWay f set).isSome || evicting f set then m
  else match filtVictim (inService m t) f set with
    | none => m
    | some (e, _) =>
      let room (p : Port) : Bool := !entPres e p || (f.snps.filter (fun s => s.port == p)).length ≤ 12
      if room .a && room .b then startEvict t set .background m else m

/-! ### What a request asks of the filter (R224, R225) -/

/-- The snoop to the other port and the grant of a row of *Grants and snoops*. `held`: none, shared, exclusive. -/
def grantRow (k : ReqKind) (mv : MetaValue) (held excl : Bool) : Option SnpKind × Grant :=
  match k with
  | .memRd => match mv with
    | .any => (if held then some .inv else none, .excl)
    | .shared => (if held && excl then some .data else none, .shared)
    | _ => (if held && excl then some .cur else none, .none)
  | .memRdData =>
    if !held then (none, .excl) else (if excl then some .data else none, .shared)
  | .memInv | .memInvNt => match mv with
    | .any => (if held then some .inv else none, .excl)
    | .shared => (if held && excl then some .data else none, .shared)
    | _ => (none, .none)
  | .memWr | .memWrPtl => (if held then some .inv else none, .none)

/-- The snoop and the grant of a host request's row now. -/
def rowOf (f : FilterSt) (q : MReq) : Option SnpKind × Grant :=
  let e := findEnt f (wLine q.w)
  grantRow q.kind q.mv (e.elim false (fun e => entPres e q.port.other)) (e.elim false (·.excl))

/-- Whether a request writes. -/
def isWrite (q : MReq) : Bool := q.kind == .memWr || q.kind == .memWrPtl

/-- The class label that a request carries (R408). -/
def reqLabel (q : MReq) : BitVec 3 :=
  match q.who with
  | .host => wLabel q.w
  | .engine _ _ l => l

/-- The slot classes of a request's reads and writes (R408, R585). -/
def readCls (q : MReq) : SlotClass :=
  match q.who with
  | .host | .engine _ .lineWb _ => .lineFill
  | .engine _ c _ => c

def writeCls (q : MReq) : SlotClass :=
  match q.who with
  | .host => .lineWb
  | .engine _ c _ => c

/-- Whether a request is the mirror engine's: a received write, or a read of a resynchronisation. It waits for no host (R420, R446),
but for the recall that follows a write. -/
def isMirrored (q : MReq) : Bool := q.kind != .memInv && (match q.who with
  | .engine _ .mirror _ => true
  | _ => false)

/-- Whether a request needs a way of the filter that no entry of its line has (R233). -/
def wayless (f : FilterSt) (line : Nat) : Bool := (findEnt f line).isNone && (keptWay f line).isNone

/-- The snoops that a request needs before it is served: port, kind and alias. BISnpInv goes to the request's own port when that
holds the line under another alias (R163); the other port is asked as the request's row says (R224), or with BISnpInv under
another key id (R225). In broadcast mode both ports are asked, at the alias of the surviving copy or the request's own (R242).
An engine's access has no port of its own (R585). -/
def needSnp (f : FilterSt) (q : MReq) : List (Port × SnpKind × BitVec 53) :=
  let e? := findEnt f (wLine q.w)
  let alias_ (p : Port) : BitVec 53 := match e? with
    | some e => if entPres e p then entW e p else q.w
    | none => q.w
  if q.snooped then []
  else if f.broadcast then [(.a, .inv, alias_ .a), (.b, .inv, alias_ .b)]
  else match e?, q.who with
    | none, _ => []
    | some e, .engine _ _ _ =>
      let one (p : Port) : Option (Port × SnpKind × BitVec 53) :=
        if !entPres e p then none
        else if isWrite q || q.kind == .memInv || entKey e p != wKey q.w then some (p, .inv, entW e p)
        else if e.excl then some (p, .cur, entW e p) else none
      [Port.a, Port.b].filterMap one
    | some e, .host =>
      let o := q.port.other
      let own := entPres e q.port && (entLabel e q.port != wLabel q.w || entKey e q.port != wKey q.w)
      let kind : Option SnpKind := if !entPres e o then none else if entKey e o != wKey q.w then some .inv else (rowOf f q).1
      (if own then [(q.port, .inv, entW e q.port)] else []) ++ (kind.elim [] (fun k => [(o, k, entW e o)]))

/-- Whether a host's write comes ahead of the BISnp that is open toward its port for its line (R230), also when it has reached
the home slice before the BISnp left. -/
def aheadSnp (f : FilterSt) (q : MReq) : Bool :=
  isHost q && isWrite q && !q.snooped && (snpsOf f (wLine q.w)).any (fun s => s.port == q.port && s.sent)

/-- The grant of a request: that of its row as its snoops were sent (R224, R225); broadcast mode grants no state (R242). -/
def grantOf (f : FilterSt) (q : MReq) : Grant :=
  if f.broadcast || !isHost q then .none else q.row.getD (rowOf f q).2

/-- Whether the request leaves its port present (R226). -/
def wantsEntry (f : FilterSt) (q : MReq) : Bool :=
  !f.broadcast && !q.void && isHost q && (match q.kind with
    | .memWr | .memWrPtl => q.mv == .any || q.mv == .shared
    | _ => grantOf f q != .none)

/-- *Filter updates* (R226) as a request is served; a No-Op request leaves its port's fields (R224). The filter has a way
for the entry. -/
def filtUpdate (t : Tile) (q : MReq) (g : Grant) (m : Mod) : Mod :=
  let f : FilterSt := m.filters[t]
  let line := wLine q.w
  let put (excl : Bool) (sole : Bool) (m : Mod) : Mod :=
    let e? := findEnt f line
    let fresh (way : Nat) : FEntry := ⟨filtSet line, way, filtTag line, false, false, false, 0, 0, 0, 0, false, false⟩
    let way := (keptWay f line).orElse fun _ => freeWay f (filtSet line)
    match e?.orElse fun _ => way.map fresh with
    | none => m
    | some e =>
      let e := if sole then entSetPres e q.port.other false else e
      let e := { entAlias (entSetPres e q.port true) q.port (wLabel q.w) (wKey q.w) with nru := true }
      let m := onFilter t (putEnt { e with excl := excl, pend := !(snpsOf f line).isEmpty }) m
      if e?.isNone then backgroundEvict t (filtSet line) m else m
  let gone (m : Mod) : Mod := onFilter t (fun f => match findEnt f line with
    | some e => putEnt (entSetPres e q.port false) f
    | none => f) m
  let m := onFilter t (unkeep line) m
  if f.broadcast || q.void || !isHost q then m
  else match q.kind with
    | .memWr | .memWrPtl => match q.mv with
      | .invalid => gone m
      | .shared => put false false m
      | .any => put true true m
      | .noOp => m
    | .memInv | .memInvNt => match q.mv, g with
      | .invalid, _ => gone m
      | _, .excl => put true true m
      | _, .shared => put false false m
      | _, .none => m
    | _ => match g with
      | .excl => put true true m
      | .shared => put false false m
      | .none => m

/-- The presence sweep of a port's reset ends: its presence bits are clear in every slice (R227). -/
def finishSweep (p : Port) (m : Mod) : Mod :=
  if !(m.ports.get p).sweeping then m
  else
    let one (f : FilterSt) : FilterSt := f.entries.foldl (fun f e => if entPres e p then putEnt (entSetPres e p false) f else f) f
    onPort p (fun q => { q with sweeping := false }) { m with filters := m.filters.map (fun f => one f) }

/-- A snoop's answer changes the entry (R226); the last one for the line ends PEND. `keep`: BIRspS (shared), BIRspE (as it
was), or none for BIRspI. -/
def snpAnswer (t : Tile) (s : OpenSnp) (shared : Bool) (same : Bool) (m : Mod) : Mod :=
  onFilter t (fun f =>
    let f := { f with snps := f.snps.erase s }
    let pend := f.snps.any (fun x => x.line == s.line)
    match findEnt f s.line with
    | none => f
    | some e =>
      let e := if same then e else if shared then { entSetPres e s.port true with excl := false } else entSetPres e s.port false
      putEnt { e with pend := pend } f) m

/-- A BISnp toward a port for a line that has not left is withdrawn: a write-back that has arrived first needs no snoop (R238).
The requests that waited for it ask anew. -/
def withdraw (t : Tile) (p : Port) (line : Nat) (m : Mod) : Mod :=
  onFilter t (fun f =>
    let f := { f with snps := f.snps.filter (fun s => !(s.port == p && s.line == line && !s.sent)) }
    let anew (q : MReq) : MReq := if wAper q.w == 0 && wLine q.w == line then { q with snooped := false, row := none } else q
    let f := { f with waiters := f.waiters.map anew }
    match findEnt f line with
    | some e => putEnt { e with pend := !(snpsOf f line).isEmpty } f
    | none => f) m

end Sys2Proof.Machine
end

