-- ==== Sys2Proof/Machine/Cells.lean ====
section
/-! DEFINITION. Machine/Cells.lean: runs and the cell aperture (R345 to R353, R362, R369). -/
namespace Sys2Proof.Machine

/-- A run's state (R345). -/
def runAt (m : Mod) (n : Nat) : Run := tabGet initRun m.qs.runs n

/-- Change a run; a run at its reset value is not listed. -/
def onRun (n : Nat) (f : Run → Run) (m : Mod) : Mod :=
  let r := f (runAt m n)
  { m with qs := { m.qs with runs := if r = initRun then tabDel m.qs.runs n else tabPut m.qs.runs n r } }

/-- Change a cell pool. -/
def onPool (k : Nat) (f : CellPool → CellPool) (m : Mod) : Mod :=
  { m with qs := { m.qs with pools := m.qs.pools.map (fun e => if e.1 == k then (k, f e.2) else e) } }

/-- Tile of a run: bits [23:22] (R343). -/
def runTile (n : Nat) : Tile := ⟨n / 2 ^ 22 % 4, by omega⟩

/-- Device address of a run (R343). -/
def runDa (p : CellPool) (n : Nat) : Nat := p.dgran * 2 ^ 26 + 2048 * (n - p.runBase)

/-- The pool of a run: the enabled one, else a disabled one, whose runs keep their state until they are FREE (R344). -/
def poolHolding (m : Mod) (n : Nat) : Option (Nat × CellPool) :=
  match poolOfRun m n with
  | some e => some e
  | none => m.qs.pools.find? (fun e => e.2.runBase ≤ n && n < e.2.runBase + e.2.runCount)

/-- Device address of a run of any pool. -/
def runDaOf (m : Mod) (n : Nat) : Nat := (poolHolding m n).elim 0 (fun e => runDa e.2 n)

/-- The state code of a run in a late-cell-write event (R518). -/
def runCode (r : Run) : Nat := if r.dead then 3 else match r.st with
  | .free => 0
  | .open_ => 1
  | .closed => 2

/-- A run returns to FREE: its assembly entry, its read entry and a group write not yet served end with it (R345, R362). -/
def freeRun (n : Nat) (m : Mod) : Mod :=
  let a := battOf (runDaOf m n)
  let gone (r : DReq) : Bool := r.why == .cellWrite n
  let clear (pk : Pack) (m : Mod) : Mod :=
    let p : PackSt := m.packs[pk]
    let das := ((p.queue ++ p.waiting).filter gone).flatMap reqBatts
    onPack pk (fun p => { p with queue := p.queue.filter (fun r => !gone r), waiting := p.waiting.filter (fun r => !gone r) })
      (das.foldl (fun m da => wbDel da m) m)
  let m := clear (daPack a) (clear (daPack (a + 256)) m)
  let m := { m with qs := { m.qs with reads := m.qs.reads.filter (fun e => e.run != n) } }
  onRun n (fun r => { initRun with dead := r.dead }) m

/-- A run closes (R353): with no reference it is freed, otherwise its eight batts go to the write buffer, as one CELL_WR group in
each pack, unless integrity stop lets nothing be written (R285). -/
def closeRun (n : Nat) (m : Mod) : Mod :=
  let r := runAt m n
  if r.st ≠ .open_ then m
  else if r.refs = 0 then freeRun n m
  else
    let cells := r.cells.getD (List.replicate 8 0)
    let m := onRun n (fun r => { r with st := .closed, storeLeft := 2, cells := some cells }) m
    let a := runDaOf m n
    let half (o : Nat) : List (Batt × Bool) := (List.range 4).map (fun i => (cells.getD (2 * i + o) 0, r.poison.getLsbD (2 * i + o)))
    let put (o : Nat) (m : Mod) : Mod := groupPut .cellWr r.label (a + 256 * o) (half o) (.cellWrite n) m
    if m.prot.stop.isSome then m else put 1 (put 0 m)

/-- Assembly entries in use in a tile (R351). -/
def assemblyUsed (m : Mod) (t : Tile) : Nat :=
  (m.qs.runs.filter (fun e => runTile e.1 == t && e.2.cells.isSome)).length

/-- The bytes that a cell write covers, merged into its cell. -/
def mergeCell (cells : List Batt) (c : Nat) (j : Nat) (d : Sector) (en : BitVec 64) : List Batt :=
  cells.modify c (fun b => putSector b j (mergeBytes (sectorOf b j) d en))

/-- *Cell writes* (R351): merged, discarded with an event, or held for want of an assembly entry. -/
def cellWrite (q : MReq) (m : Mod) : Mod :=
  let off := wOff q.w
  let n := off / 2048
  let c := off / 256 % 8
  let r := runAt m n
  if r.dead || r.st != .open_ || c < r.nextCell then
    sendNdr q .none (event 0x0801 0 (n + c * 2 ^ 24 + runCode r * 2 ^ 27 + q.port.num * 2 ^ 29) m)
  else if r.cells.isNone && 8192 ≤ assemblyUsed m (runTile n) then
    { m with qs := { m.qs with writeWaits := m.qs.writeWaits ++ [q] } }
  else
    let cells := mergeCell (r.cells.getD (List.replicate 8 0)) c (off / 64 % 4) q.data q.en
    let poison := if q.poison then putBit r.poison c true else r.poison
    sendNdr q .none (onRun n (fun r => { r with cells := some cells, poison := poison, label := wLabel q.w }) m)

/-- The read entry of a run becomes the most recently used; at most 4,096 entries per tile stay (R362). -/
def readTouch (e : RunRead) (m : Mod) : Mod :=
  let l := e :: m.qs.reads.filter (fun x => x.run != e.run)
  let mine := l.filter (fun x => runTile x.run == runTile e.run)
  let drop := (mine.drop 4096).map (·.run)
  { m with qs := { m.qs with reads := l.filter (fun x => !drop.contains x.run) } }

/-- Deliver one sector of a cell. -/
def cellData (q : MReq) (b : Batt) (poison : Bool) (m : Mod) : Mod :=
  sendData q (sectorOf b (wOff q.w / 64 % 4)) poison .none m

/-- *Cell reads* (R362). -/
def cellRead (q : MReq) (m : Mod) : Mod :=
  let off := wOff q.w
  let n := off / 2048
  let c := off / 256 % 8
  let r := runAt m n
  if r.dead then sendData q 0 true .none m
  else match r.st with
    | .free =>
      let m := match poolOfRun m n with
        | some e => onPool e.1 (fun p => { p with stale := satAdd 0xFFFF_FFFF p.stale 1 }) m
        | none => m
      sendData q 0 false .none (event 0x0803 0 (n + c * 2 ^ 24 + q.port.num * 2 ^ 27) m)
    | _ =>
      if !r.stored then cellData q ((r.cells.getD []).getD c 0) (r.poison.getLsbD c) m
      else match m.qs.reads.find? (fun e => e.run == n) with
        | some e =>
          let m := readTouch e m
          if e.here.getLsbD c then cellData q (e.cells.getD c 0) (e.poison.getLsbD c) m
          else { m with qs := { m.qs with cellWaits := m.qs.cellWaits ++ [{ run := n, req := q }] } }
        | none =>
          let m := readTouch { run := n, cells := List.replicate 8 0, poison := 0, here := 0 } m
          let m := { m with qs := { m.qs with cellWaits := m.qs.cellWaits ++ [{ run := n, req := q }] } }
          let a := runDaOf m n
          let d (o : Nat) : DReq := groupReq .cellRd (a + o) false (wLabel q.w) (.cellRead n)
          enqReq (d 256) (enqReq (d 0) m)

/-- A request of the cell aperture (R161). -/
def serveCell (q : MReq) (m : Mod) : Mod :=
  match q.kind with
  | .memWr | .memWrPtl => cellWrite q m
  | .memRd | .memRdData => cellRead q m
  | _ => sendNdr q .none m

end Sys2Proof.Machine
end

