-- ==== Sys2Proof/Machine/Counters.lean ====
section
/-! DEFINITION. Machine/Counters.lean: counters in their lines: add records, read-clear and set (R399 to R405), the counter
aperture's requests in the home slice. -/
namespace Sys2Proof.Machine

/-- Field `f` (0 packets, 1 bytes) of counter `k` (0 to 3) of a sector. -/
def ctrField (d : Sector) (k f : Nat) : Nat := (bitsOf d (128 * k + 64 * f) 64).toNat

/-- A sector with a field replaced. -/
def setField (d : Sector) (k f v : Nat) : Sector := putBits d (128 * k + 64 * f) (BitVec.ofNat 64 v)

/-- The enables of counter position `k`. -/
def ctrEn (en : BitVec 64) (k : Nat) : BitVec 16 := bitsOf en (16 * k) 16

/-- Change a counter pool. -/
def onCpool (k : Nat) (f : CounterPool → CounterPool) (m : Mod) : Mod :=
  { m with cpools := m.cpools.map (fun e => if e.1 == k then (k, f e.2) else e) }

/-- One field takes an addend under the pool's MODE (R404): the value, and whether the add carried past the top. -/
def addField (mode v x : Nat) : Nat × Bool :=
  if v + x < 2 ^ 64 then (v + x, false)
  else if mode = 1 then (2 ^ 64 - 1, true) else ((v + x) % 2 ^ 64, true)

/-- The report of an add that carried (R404, R405). -/
def wrapReport (pool : Nat) (mode was idx f : Nat) (m : Mod) : Mod :=
  if mode = 1 then
    if was = 2 ^ 64 - 1 then m else onCpool pool (fun p => { p with sats := satAdd 0xFFFF_FFFF p.sats 1 }) m
  else
    let m := onCpool pool (fun p => { p with wraps := p.wraps + 1 }) m
    if mode = 2 then event 0x0A02 0 (idx + f * 2 ^ 28 + pool * 2 ^ 29) m else m

/-- A malformed record (R401). -/
def badRecord (q : MReq) (pool idx alias_ : Nat) (m : Mod) : Mod :=
  event 0x0A01 0 (idx + pool * 2 ^ 28 + q.port.num * 2 ^ 34 + alias_ * 2 ^ 35)
    (onCpool pool (fun p => { p with badAdd := satAdd 0xFFFF_FFFF p.badAdd 1 }) m)

/-- A record that is discarded (R76, R401). -/
def lostRecord (pool : Nat) (m : Mod) : Mod :=
  onCpool pool (fun p => { p with lostAdd := satAdd 0xFFFF_FFFF p.lostAdd 1 }) m

/-- One counter position of a write through alias 0 or 1 (R401). -/
def addRecord (q : MReq) (pool : Nat) (cp : CounterPool) (lost : Bool) (base k : Nat) (st : Sector × Mod) : Sector × Mod :=
  let en := ctrEn q.en k
  let al := wOff q.w / 2 ^ 32 % 4
  if en = 0 then st
  else if en ≠ 0xFFFF#16 ∧ en ≠ 0x00FF#16 then (st.1, badRecord q pool (base + k) al st.2)
  else if lost ∨ q.poison then (st.1, lostRecord pool st.2)
  else
    let packed := en = 0x00FF#16
    let lo := ctrField q.data k 0
    let x0 := if packed then lo % 2 ^ 16 else lo
    let x1 := if packed then lo / 2 ^ 16 else ctrField q.data k 1
    let v0 := ctrField st.1 k 0
    let v1 := ctrField st.1 k 1
    let r0 := addField cp.mode v0 x0
    let r1 := addField cp.mode v1 x1
    let m := if r0.2 then wrapReport pool cp.mode v0 (base + k) 0 st.2 else st.2
    let m := if r1.2 then wrapReport pool cp.mode v1 (base + k) 1 m else m
    (setField (setField st.1 k 0 r0.1) k 1 r1.1, perfCount devPage (perfPlain 0x09 15) none m)

/-- One counter position of a write through the set alias (R400, R401): each whole enabled field is replaced. -/
def setRecord (q : MReq) (pool : Nat) (base k : Nat) (st : Sector × Mod) : Sector × Mod :=
  let en := ctrEn q.en k
  let al := wOff q.w / 2 ^ 32 % 4
  if en = 0 then st
  else if q.poison then (st.1, lostRecord pool st.2)
  else
    let lo : BitVec 8 := bitsOf en 0 8
    let hi : BitVec 8 := bitsOf en 8 8
    let bad := (lo ≠ 0 ∧ lo ≠ 0xFF#8) ∨ (hi ≠ 0 ∧ hi ≠ 0xFF#8)
    let d := if lo = 0xFF#8 then setField st.1 k 0 (ctrField q.data k 0) else st.1
    let d := if hi = 0xFF#8 then setField d k 1 (ctrField q.data k 1) else d
    (d, if bad then badRecord q pool (base + k) al st.2 else st.2)

/-- The fields that a set writes whole, as a mask of the line's 32 fields (R406). -/
def setMask (q : MReq) : BitVec 32 :=
  (List.range 8).foldl (fun acc i =>
    if bitsOf q.en (8 * i) 8 = 0xFF#8 then acc ||| (1#32 <<< (8 * (wOff q.w / 64 % 4) + i)) else acc) 0#32

/-- What a request does to a counter line whose data is here: the batt after it, poison and mask of set fields, and the
state with the response (R400). -/
def counterApply (q : MReq) (b : Batt) (poison : Bool) (whole : BitVec 32) (m : Mod) : Batt × Bool × BitVec 32 × Mod :=
  let off := wOff q.w
  let j := off / 64 % 4
  let al := off / 2 ^ 32 % 4
  let base := off / 64 * 4 % 2 ^ 28
  let d := sectorOf b j
  match poolOfCounter m (off / 16 % 2 ^ 28) with
  | none => (b, poison, whole, violationAnswer q m)
  | some (pool, cp) =>
    match q.kind with
    | .memRd | .memRdData =>
      if al = 1 ∧ poison = false then (putSector b j 0, poison, whole, sendData q d poison .none m)
      else (b, poison, whole, sendData q d poison .none m)
    | .memWr | .memWrPtl =>
      if al = 2 then
        let r := (List.range 4).foldl (fun st k => setRecord q pool base k st) (d, m)
        let w := if q.poison then whole else whole ||| setMask q
        let p := poison && w != BitVec.allOnes 32
        (putSector b j r.1, p, if p then w else 0, sendNdr q .none r.2)
      else
        let r := (List.range 4).foldl (fun st k => addRecord q pool cp poison base k st) (d, m)
        (putSector b j r.1, poison, whole, sendNdr q .none r.2)
    | _ => (b, poison, whole, sendNdr q .none m)

end Sys2Proof.Machine
end

