-- ==== Sys2Proof/Machine/Serve.lean ====
section
/-! DEFINITION. Machine/Serve.lean: how the home slice serves a CXL.mem request (R163, R198 to R201, R224 to R228, R233, R242,
R302, R303, R400, R444) and what the end of a fill does (R76, R189, R199). A request that has to wait joins the miss entry
of its line, the list of the filter slice, or the list before the miss entries, and is served again from the start when
what it waits for has come. -/
namespace Sys2Proof.Machine

/-- Conditions under which every CXL.mem request is answered as a violation (R38, R166, R465). -/
def deadModule (m : Mod) : Bool := m.prot.stop.isSome || m.therm.critical || m.tb.lost

/-- The bytes that a write enables: all of them for MemWr. -/
def writeEn (q : MReq) : BitVec 64 := if q.kind == .memWr then BitVec.allOnes 64 else q.en

/-- A request waits in the filter slice, for a BISnp or a way. -/
def waitFilter (t : Tile) (q : MReq) (m : Mod) : Mod := onFilter t (fun f => { f with waiters := f.waiters ++ [q] }) m

/-- A request waits before the miss or transit entries (R412); rule 3 counts it (R415). -/
def waitEntry (t : Tile) (q : MReq) (overs : Bool) (m : Mod) : Mod :=
  let m := if overs then onLabel (reqLabel q) (fun l => { l with overs := l.overs + 1 }) m else m
  onSlice t (fun s => { s with missWait := s.missWait ++ [q] }) m

/-- A request joins the line's miss entry, or waits for what keeps the line without one: a write-back under another key id
(R200), the move of its page (R300), its tier-map batt. -/
def waitLine (t : Tile) (space : BitVec 2) (a : Nat) (q : MReq) (m : Mod) : Mod :=
  if (findMiss m.slices[t] space a).isSome then joinMiss t space a q m
  else onSlice t (fun s => { s with lineWait := s.lineWait ++ [q] }) m

/-- A request waits for the tier-map batt of its page (R291). -/
def waitTmap (t : Tile) (off : Nat) (q : MReq) (m : Mod) : Mod :=
  waitLine t 0 off q (wantTmap (.fill 0 t (lineOf off)) t (pageOf m.tiers[t] off) m)

/-- The line keeps its RRPV through what `f` does: the requests that missed do not count as hits of the line that they brought
(R193, R194). -/
def keepRrpv (t : Tile) (space : BitVec 2) (a : Nat) (f : Mod → Mod) (m : Mod) : Mod :=
  let old := (findLine m.slices[t] space a).map (·.rrpv)
  let m := f m
  match old, findLine m.slices[t] space a with
  | some n, some l => onSlice t (putLine { l with rrpv := n }) m
  | _, _ => m

/-- A request waits for the reseal that covers a device address (R282). -/
def waitReseal (da : Nat) (q : MReq) (m : Mod) : Mod :=
  let t := daTile da
  let s : SealRange := m.prot.sealR[t]
  let hit (r : Reseal) : Bool := r.tile == t.val && s.base * 2 ^ 26 ≤ da && sealIdx s da / 2 ^ (7 * r.level) == r.index
  match m.prot.reseals.findIdx? hit with
  | some i => { m with prot := { m.prot with reseals := m.prot.reseals.modify i (fun r => { r with waiters := r.waiters ++ [q] }) } }
  | none => m

/-! ### Writes -/

/-- A transit entry as a line, and back. -/
def transitLine (x : Transit) : Line :=
  { newLine x.space x.addr 0 0 x.label x.keyId with
    svalid := x.svalid, sdirty := if x.dirty then x.svalid else 0, poison := x.poison, data := x.data, whole := x.whole }

def lineTransit (x : Transit) (l : Line) : Transit :=
  { x with svalid := l.svalid, data := l.data, poison := l.poison, whole := l.whole, label := l.label, dirty := x.dirty || l.sdirty != 0 }

/-- The sector of a write is merged into its line or transit entry (R198, R172); its LPOISON bit ends with the line's
poison (R303). A write that allocated the line leaves the insertion value in place. -/
def mergeWrite (t : Tile) (r : BitVec 128) (q : MReq) (hit : Bool) (m : Mod) : Mod :=
  let off := wOff q.w
  let put (l : Line) : Line :=
    let n := mergeSector l (off / 64 % 4) q.data (writeEn q) q.poison (reqLabel q)
    if hit then n else { n with rrpv := l.rrpv }
  let clear (l : Line) (m : Mod) : Mod := if l.poison && !(put l).poison then clearLpoison r off m else m
  match findLine m.slices[t] 0 off with
  | some l => clear l (onSlice t (putLine (put l)) m)
  | none => match findTransit m.slices[t] 0 off with
    | some x => clear (transitLine x) (onSlice t (putTransit (lineTransit x (put (transitLine x)))) m)
    | none => m

/-- A write is accepted: the filter is updated, a mirrored one is forwarded and waits for its MACK (R444, R447), any other
returns its Cmp (R150). -/
def ackWrite (t : Tile) (r : BitVec 128) (q : MReq) (m : Mod) : Mod :=
  let off := wOff q.w
  let m := filtUpdate t q .none m
  if !rgMirror r || isMirrored q then sendNdr q .none m
  else if mirrorAct m off == .forward then mirrorForward (wKey q.w) off q.data (writeEn q) q.poison (some q) m
  else sendNdr q .none (mirrorLocal off m)

/-- A write that completes and is not stored (R294, R303): Cmp returns; of a mirrored region the peer has no copy of it, so its
granule is marked for resynchronisation (R447). A received mirrored write is answered as refused (R445). -/
def lostWrite (t : Tile) (r : BitVec 128) (q : MReq) (m : Mod) : Mod :=
  let m := filtUpdate t q .none m
  match q.who with
  | .engine id .mirror _ => answerAcc id 0 true m
  | _ => sendNdr q .none (if rgMirror r then setDirty (wOff q.w) m else m)

/-- A write refused for want of space (R303): its line is poisoned, Cmp returns, nothing is stored. -/
def refused (t : Tile) (r : BitVec 128) (q : MReq) (m : Mod) : Mod :=
  let off := wOff q.w
  let m := refuseWrite r off (isMirrored q) m
  let m := match findLine m.slices[t] 0 off with
    | some l => onSlice t (putLine { l with poison := true, whole := 0 }) m
    | none => m
  lostWrite t r q m

/-- A transit entry that is complete and has served its requests: handed to the write buffer when it holds writes, kept
until it can go (R197, R300), dropped otherwise. -/
def finishTransit (t : Tile) (space : BitVec 2) (a : Nat) (m : Mod) : Mod :=
  match findTransit m.slices[t] space a with
  | none => m
  | some x =>
    let gone (m : Mod) : Mod := keepWhole t space x.addr x.poison x.whole (onSlice t (dropTransit space a) m)
    if x.svalid != 15 || (findMiss m.slices[t] space a).isSome then m
    else if !x.dirty then gone m
    else
      let y := tryWriteBack x.cls space t x.addr x.label x.keyId x.data x.poison m
      if y.1 then gone y.2 else y.2

/-! ### Misses -/

/-- Count a line-cache hit (0x05) or miss (0x06) of a request that comes for the first time. -/
def hitMiss (t : Tile) (q : MReq) (code : Nat) (again : Bool) (m : Mod) : Mod :=
  if again then m else perfCount (tilePage t) (perfReq code (reqLabel q).toNat (wKey q.w) (wOff q.w)) none m

/-- Whether a request's line goes through a transit entry if it misses: an engine's, which allocates none (R585, R445), and that of a
region or slice that allocates none (R198, R215). -/
def usesTransit (m : Mod) (t : Tile) (q : MReq) (wpol off : Nat) : Bool :=
  !isHost q || wpol == 3 || (allocWays m.slices[t]).isEmpty && (heldPlace m.slices[t] 0 off).isNone

/-- Start the fill of a line whose way or transit entry stands: data at once lands; reads go to the dispatcher under a miss
entry with the waiters `ws`. -/
def startFill (t : Tile) (space : BitVec 2) (a : Nat) (key : BitVec 6) (label : BitVec 3) (cls : SlotClass)
    (transit fulled wr : Bool) (ws : List MReq) (fs : FillStart) (m : Mod) : Mod :=
  match fs with
  | .now u => landFill t space a key label cls u wr m
  | .slots das => issueFill t space a key label cls fulled das (openMiss t space a key label cls transit das ws m)
  | .reseal _ => m

/-- Whether a line's place is a fulled page. -/
def isFulled (m : Mod) (r : BitVec 128) (off : Nat) : Bool :=
  match placeOf m r off with
  | .fulled _ _ => true
  | _ => false

/-- A miss entry that waits for a way of its set (R195). -/
def openUnissued (t : Tile) (space : BitVec 2) (a : Nat) (key : BitVec 6) (label : BitVec 3) (q : MReq) (m : Mod) : Mod :=
  let x : Miss := { space := space, addr := lineOf a, keyId := key, label := label, cls := .lineFill, transit := false,
                    issued := false, das := [], waiters := [q] }
  onSlice t (fun s => { s with misses := s.misses ++ [x] }) m

/-- A line of which a sector has been lost is filled again in its missing sectors (R199, R212), once its page's place is known. -/
def refillLine (t : Tile) (l : Line) (m : Mod) : Mod :=
  let a := lineAddr l
  let r? := if l.space = 0 then regionOf m a else none
  if (findMiss m.slices[t] l.space a).isSome then m
  else if r?.elim false (fun r => rgElastic r && !teHere m t (pageOf m.tiers[t] a)) then
    wantTmap (.fill l.space t a) t (pageOf m.tiers[t] a) m
  else
    let fs : FillStart := if l.space = 0 then r?.elim (.now .poison) (fun r => fillStart m r l.keyId a) else counterFill m a
    startFill t l.space a l.keyId l.label .lineFill false (r?.elim false (fun r => isFulled m r a)) false [] fs
      (onSlice t (putLine { l with busy := true }) m)

/-- The merge fill of a transit entry that lacks sectors starts (R199); writes that complete its batt need none. -/
def refillTransit (t : Tile) (x : Transit) (m : Mod) : Mod :=
  let cls : SlotClass := if x.cls == .lineWb then .lineFill else x.cls
  match (if x.space = 0 then regionOf m x.addr else none) with
  | none => m
  | some r =>
    if x.svalid == 15 || (findMiss m.slices[t] x.space x.addr).isSome then m
    else if rgElastic r && !teHere m t (pageOf m.tiers[t] x.addr) then wantTmap (.line 0 t x.addr) t (pageOf m.tiers[t] x.addr) m
    else startFill t 0 x.addr x.keyId x.label cls true (isFulled m r x.addr) true [] (fillStart m r x.keyId x.addr) m

/-- The poison that a new line of an elastic page carries from its LPOISON bit. -/
def markLpoison (t : Tile) (r : BitVec 128) (off : Nat) (m : Mod) : Mod :=
  if rgElastic r && tePoison (teGet m t (pageOf m.tiers[t] off)) (off / 256 % 16) then
    match findLine m.slices[t] 0 off with
    | some l => onSlice t (putLine { l with poison := true }) m
    | none => m
  else m

/-! ### Requests of the memory aperture -/

/-- A granule whose region entry changes in phase 2 of a reload grants no cacheable state (R257, R241). -/
def reloadChanges (m : Mod) (off : Nat) : Bool :=
  match m.prot.reload with
  | some l => l.phase == 2 && regionIn l.block.regions (off / 2 ^ 26) != regionOf m off
  | none => false

/-- A request under a reload that changes its granule asks for no state. -/
def effective (m : Mod) (q : MReq) : MReq :=
  if reloadChanges m (wOff q.w) then
    { q with kind := if q.kind == .memRdData then .memRd else q.kind, mv := if q.mv == .noOp then .noOp else .invalid, row := none }
  else q

/-- Whether a request must wait in the filter slice: a BISnp of its line is open, or an earlier request of its line waits
(R228). -/
def blockedSnp (m : Mod) (t : Tile) (q : MReq) : Bool :=
  let f : FilterSt := m.filters[t]
  !(snpsOf f (wLine q.w)).isEmpty || f.waiters.any (fun x => wLine x.w == wLine q.w && wAper x.w == 0)

/-- Whether an earlier request of its 64 B line waits for a fill. -/
def blockedFill (m : Mod) (t : Tile) (q : MReq) : Bool :=
  (findMiss m.slices[t] 0 (wOff q.w)).elim false (fun x => x.waiters.any (fun y => wLine y.w == wLine q.w))

/-- Whether an earlier request of its 64 B line is in service (R228, R231, R240). -/
def blockedLine (m : Mod) (t : Tile) (q : MReq) : Bool := inService m t (wLine q.w)

/-- Whether an earlier request of a filter set waits for a way (R235). -/
def wayQueue (f : FilterSt) (set : Nat) : Bool :=
  f.waiters.any (fun x => filtSet (wLine x.w) == set && (snpsOf f (wLine x.w)).isEmpty && wayless f (wLine x.w) && wantsEntry f x)

/-- Deliver a sector with the grant of the request's row, and update the filter (R224, R226). -/
def deliver (t : Tile) (q : MReq) (d : Sector) (poison : Bool) (m : Mod) : Mod :=
  let g := grantOf m.filters[t] q
  sendData q d poison g (filtUpdate t q g m)

/-- Serve a read whose snoops are answered. `retry`: serve it again from the start. -/
def serveRead (retry : MReq → Mod → Mod) (again : Bool) (t : Tile) (r : BitVec 128) (q : MReq) (m : Mod) : Mod :=
  let off := wOff q.w
  let key := wKey q.w
  let label := reqLabel q
  let j := off / 64 % 4
  let m := rekey t off key m
  match findLine m.slices[t] 0 off with
  | some l =>
    if l.keyId != key || !l.svalid.getLsbD j then waitLine t 0 off q m
    else deliver t q (sectorOf l.data j) l.poison (hitMiss t q 5 again (onSlice t (putLine { l with rrpv := 0 }) m))
  | none => match findTransit m.slices[t] 0 off with
    | some x =>
      if x.keyId != key || !x.svalid.getLsbD j then waitLine t 0 off q m
      else deliver t q (sectorOf x.data j) x.poison m
    | none =>
      if (findMiss m.slices[t] 0 off).isSome then waitLine t 0 off q m
      else if rgElastic r && !teHere m t (pageOf m.tiers[t] off) then waitTmap t off q m
      else
        let fs := fillStart m r key off
        let transit := usesTransit m t q (rgWpol r) off
        let (ok, overs) := missAdmit m m.slices[t] transit (readCls q) label
        match fs with
        | .reseal da => waitReseal da q m
        | _ =>
          if !ok && !q.answer then waitEntry t q overs m
          else
            let m := hitMiss t q 6 again m
            let m := if rgElastic r then teUse t (pageOf m.tiers[t] off) m else m
            let fulled := isFulled m r off
            let go (m : Mod) : Mod :=
              let m := startFill t 0 off key label (readCls q) transit fulled false [q] fs (pageRead r off m)
              match fs with
              | .now _ => finishTransit t 0 off (keepRrpv t 0 off (retry q) m)
              | _ => m
            if transit then go m
            else match allocLine t 0 off label key false m with
              | (true, m) => go m
              | (false, m) => openUnissued t 0 off key label q m

/-- Whether a write waits for others of its batt before its merge fill starts: that of a job or an admin command to a whole sector,
which writes the batt's other sectors in the same step if its range covers them (R585). -/
def lazyFill (q : MReq) (full : Bool) : Bool :=
  full && (match q.who with
    | .engine _ .mirror _ | .host => false
    | _ => true)

/-- Serve a write whose snoops are answered. -/
def serveWrite (again : Bool) (t : Tile) (r : BitVec 128) (q : MReq) (m : Mod) : Mod :=
  let off := wOff q.w
  let key := wKey q.w
  let label := reqLabel q
  let j := off / 64 % 4
  let full := writeEn q == BitVec.allOnes 64
  let later : MReq := { q with done := true }
  if rgElastic r && !teHere m t (pageOf m.tiers[t] off) then waitTmap t off q m
  else if rgElastic r && teBad m t (pageOf m.tiers[t] off) then lostWrite t r q m
  else if rgMirror r && !isMirrored q && mirrorAct m off == .hold then onGang (fun g => { g with held := g.held ++ [q] }) m
  else
    let m := rekey t off key (if rgElastic r then teUse t (pageOf m.tiers[t] off) m else m)
    -- the write is accepted: into the sectors that are here, or into the miss entry until its sector is filled
    let accept (here : Bool) (m : Mod) : Mod :=
      let (ok, m) := writeSpace r off key m
      if !ok then refused t r q m
      else if here || full then handOn t r off (mergeWrite t r q true (ackWrite t r q m))
      else joinMiss t 0 off later (ackWrite t r q m)
    match findLine m.slices[t] 0 off with
    | some l =>
      let here := l.svalid.getLsbD j
      if l.keyId != key then waitLine t 0 off q m
      else if here || full || (findMiss m.slices[t] 0 off).isSome then accept here (hitMiss t q 5 again m)
      else waitLine t 0 off q m
    | none => match findTransit m.slices[t] 0 off with
      | some x =>
        let here := x.svalid.getLsbD j
        if x.keyId != key then waitLine t 0 off q m
        else if here || full || (findMiss m.slices[t] 0 off).isSome then finishTransit t 0 off (accept here m)
        else waitLine t 0 off q m
      | none =>
        let fresh : Transit := newTransit 0 off key label (writeCls q)
        match findMiss m.slices[t] 0 off with
        | some x =>
          if x.transit && x.keyId == key then accept false (onSlice t (putTransit fresh) m) else joinMiss t 0 off q m
        | none =>
          let transit := usesTransit m t q (rgWpol r) off
          let (ok, overs) := missAdmit m m.slices[t] transit (readCls q) label
          match fillStart m r key off with
          | .reseal da => waitReseal da q m
          | _ =>
            if !ok && !q.answer then waitEntry t q overs m
            else
              let (space, m) := writeSpace r off key (hitMiss t q 6 again m)
              if !space then refused t r q m
              else
                let go (m : Mod) : Mod :=
                  let m := ackWrite t r q (markLpoison t r off m)
                  let m := if full then mergeWrite t r q false m else m
                  if lazyFill q full then m
                  else
                    let fs := fillStart m r key off
                    let m := startFill t 0 off key label (readCls q) transit (isFulled m r off) true (if full then [] else [later]) fs (pageRead r off m)
                    match fs with
                    | .now _ =>
                      let m := if full then m else mergeWrite t r q false m
                      finishTransit t 0 off (handOn t r off m)
                    | _ => m
                if transit then go (onSlice t (putTransit fresh) m)
                else match allocLine t 0 off label key (rgWpol r == 2) m with
                  | (true, m) => go m
                  | (false, m) => openUnissued t 0 off key label q m

/-- Serve a request of aperture 0 (R163, R224, R225, R228, R233, R242). `again`: it has waited. The number bounds how often
the request starts afresh within one step; each time an obstacle has gone. -/
def serveMem : Nat → Bool → MReq → Mod → Mod
  | 0, _, q, m => match regionOf m (wOff q.w) with
    | some r => waitFilter (rgTile r) q m
    | none => violationAnswer q m
  | k + 1, again, q0, m =>
    match regionOf m (wOff q0.w) with
    | none => violationAnswer q0 m
    | some r =>
      let t := rgTile r
      if q0.done then handOn t r (wOff q0.w) (mergeWrite t r q0 true m)
      else if deadModule m then violationAnswer q0 m
      else if reloadChanges m (wOff q0.w) && rgElastic r && isWrite q0 then violationAnswer q0 m
      else
        let q := effective m q0
        let f : FilterSt := m.filters[t]
        let line := wLine q.w
        let set := filtSet line
        if isMirrored q && !isWrite q then serveRead (fun q m => serveMem k true q m) again t r q m
        else if q.answer || isMirrored q || aheadSnp f q then serveWrite again t r q m
        else if blockedSnp m t q then waitFilter t q0 m
        else if blockedFill m t q then joinMiss t 0 (wOff q.w) q0 m
        else if blockedLine m t q then onSlice t (fun s => { s with lineWait := s.lineWait ++ [q0] }) m
        else match needSnp f q with
          | [] =>
            let go (m : Mod) : Mod :=
              let f : FilterSt := m.filters[t]
              let m := if f.broadcast && !again then perfCount (tilePage t) (perfReq 0x0B 15 (wKey q.w) (wOff q.w)) none m else m
              match q.kind with
              | .memInv | .memInvNt =>
                let g := grantOf f q
                sendNdr q g (filtUpdate t q g m)
              | .memRd | .memRdData => serveRead (fun q m => serveMem k true q m) again t r q m
              | .memWr | .memWrPtl => serveWrite again t r q m
            if !(wantsEntry f q && wayless f line) then go m
            else if wayQueue f set then waitFilter t q0 m
            else match freeWay f set with
              | some way => go (onFilter t (keepWay line way) m)
              | none =>
                let m := if evicting f set then m else startEvict t set .evict m
                if (freeWay m.filters[t] set).isSome then serveMem k again q0 m else waitFilter t q0 m
          | l =>
            let q1 : MReq := { q0 with snooped := true, row := some (if f.broadcast then .none else (rowOf f q).2) }
            let m := l.foldl (fun m x => snoop t x.1 line x.2.1 x.2.2 .serve m) m
            if (snpsOf m.filters[t] line).isEmpty then serveMem k again q1 m else waitFilter t q1 m

/-! ### Requests of the counter aperture (R399 to R403) -/

/-- The line address of a counter access: its offset with ALIAS 0. -/
def counterLine (w : BitVec 53) : Nat := lineOf (wOff w % 2 ^ 32)

/-- Whether a request changes a counter line. -/
def counterDirty (q : MReq) : Bool := isWrite q || wOff q.w / 2 ^ 32 % 4 == 1

/-- Serve a request of the counter aperture. -/
def serveCounter : Nat → Bool → MReq → Mod → Mod
  | 0, _, q, m => waitFilter (homeTile m q.w) q m
  | k + 1, again, q, m =>
    let t := homeTile m q.w
    let a := counterLine q.w
    let label := reqLabel q
    if q.kind == .memInv || q.kind == .memInvNt then sendNdr q .none m
    else if deadModule m then violationAnswer q m
    else if (poolOfCounter m (wOff q.w / 16 % 2 ^ 28)).isNone then violationAnswer q m
    else
      let early (m : Mod) : MReq × Mod := if isWrite q then ({ q with done := true }, sendNdr q .none m) else (q, m)
      match findLine m.slices[t] 1 a with
      | some l =>
        if l.svalid != 15 then
          let (q, m) := early m
          waitLine t 1 a q m
        else
          let (b, p, w, m) := counterApply q l.data l.poison l.whole (hitMiss t q 5 again m)
          let d := counterDirty q
          onSlice t (putLine { l with data := b, poison := p, whole := w, rrpv := 0, sdirty := if d then 15 else l.sdirty,
                                      label := if isWrite q then label else l.label }) m
      | none => match findTransit m.slices[t] 1 a with
        | some x =>
          let (b, p, w, m) := counterApply q x.data x.poison x.whole m
          onSlice t (putTransit { x with data := b, poison := p, whole := w, dirty := x.dirty || counterDirty q }) m
        | none =>
          if (findMiss m.slices[t] 1 a).isSome then
            let (q, m) := early m
            joinMiss t 1 a q m
          else
            let transit := (allocWays m.slices[t]).isEmpty
            let (ok, overs) := missAdmit m m.slices[t] transit .lineFill label
            if !ok then waitEntry t q overs m
            else
              let m := hitMiss t q 6 again m
              let fs := counterFill m a
              let go (m : Mod) : Mod :=
                match fs with
                | .now _ =>
                  let m := startFill t 1 a 0 label .lineFill transit false (isWrite q) [] fs m
                  finishTransit t 1 a (keepRrpv t 1 a (serveCounter k true q) m)
                | _ =>
                  let (q, m) := early m
                  startFill t 1 a 0 label .lineFill transit false (isWrite q) [q] fs m
              if transit then go m
              else match allocLine t 1 a label 0 false m with
                | (true, m) => go m
                | (false, m) =>
                  let (q, m) := early m
                  openUnissued t 1 a 0 label q m

/-- Serve a request that has passed the checks, by aperture (R161). -/
def serve (again : Bool) (q : MReq) (m : Mod) : Mod :=
  if wAper q.w = 0 then serveMem 8 again q m
  else if wAper q.w = 1 then serveCell q m
  else serveCounter 4 again q m

/-- Serve requests in order. -/
def serveAll (l : List MReq) (m : Mod) : Mod := l.foldl (fun m q => serve true q m) m

/-- Ways are kept only for lines with a request that waits or is in service (R233). -/
def pruneWays (t : Tile) (m : Mod) : Mod :=
  let live (f : FilterSt) (line : Nat) : Bool := inService m t line || f.waiters.any (fun q => wLine q.w == line)
  onFilter t (fun f => { f with resv := f.resv.filter (fun x => live f x.1) }) m

/-- The requests that wait in a filter slice are served again, in order. -/
def wakeOnce (t : Tile) (m : Mod) : Mod :=
  let ws := (m.filters[t] : FilterSt).waiters
  pruneWays t (serveAll ws (onFilter t (fun f => { f with waiters := [] }) m))

/-- They are served again; a second time where that has sent a BISnp which a waiting write comes ahead of (R230). -/
def wakeFilter (t : Tile) (m : Mod) : Mod :=
  let m := wakeOnce t m
  let f : FilterSt := m.filters[t]
  if f.waiters.any (aheadSnp f) then wakeOnce t m else m

/-- As `wakeFilter`, where a write waits that has come ahead of a BISnp. -/
def wakeAhead (m : Mod) : Mod :=
  (List.finRange 4).foldl (fun m t =>
    let f : FilterSt := m.filters[t]
    if f.waiters.any (aheadSnp f) then wakeFilter t m else m) m

/-! ### Preloads (R206) -/

/-- The lowest reserved way of a set that holds no line. -/
def reservedWay (s : Slice) (set : Nat) : Option Nat := (setBits s.reserved).find? (fun w => (entryAt s set w).isNone)

/-- What taking up one line of a preload comes to: `none` while it must wait; else whether a fetch is open, and how many lines
are not preloaded for it. A line that a general way holds moves; one that a preload brings is inserted at RRPV 0 (R194). -/
def preloadLine (t : Tile) (x : Preload) (a : Nat) (m : Mod) : Option (Bool × Nat × Mod) :=
  let s : Slice := m.slices[t]
  let way := reservedWay s (lineSet a)
  match findLine s 0 a, way with
  | some l, w =>
    if s.reserved.getLsbD l.way || s.locked.getLsbD l.way then some (false, 0, m)
    else if 2 ≤ l.wb then none
    else match w with
      | none => some (false, 1, m)
      | some w => some (false, 0, onSlice t (fun s => putLine { l with way := w } (dropLine l.set l.way s)) m)
  | none, none => some (false, 1, m)
  | none, some w =>
    match regionOf m a with
    | none => some (false, 1, m)
    | some r =>
      if (findMiss s 0 a).isSome || !(missAdmit m s false .lineFill x.label).1 then none
      else match fillStart m r x.keyId a with
        | .reseal _ => none
        | fs =>
          let m := onSlice t (putLine (newLine 0 a w 0 x.label x.keyId)) m
          let m := startFill t 0 a x.keyId x.label .lineFill false (isFulled m r a) false [] fs m
          some ((match fs with
            | .slots _ => true
            | _ => false), 0, m)

/-- Take up the lines of a tile's preloads in order, as far as miss entries admit; one with nothing left completes with its
count. -/
def preloadPump : Nat → Tile → Mod → Mod
  | 0, _, m => m
  | k + 1, t, m =>
    match (m.slices[t] : Slice).preloads with
    | [] => m
    | x :: rest =>
      let set (y : Preload) (m : Mod) : Mod := onSlice t (fun s => { s with preloads := y :: rest }) m
      match x.todo with
      | [] =>
        if x.pending.isEmpty then
          preloadPump k t (complete x.cmd 0x00 0 (BitVec.ofNat 96 x.missed) (onSlice t (fun s => { s with preloads := rest }) m))
        else m
      | a :: more => match preloadLine t x a m with
        | none => m
        | some (open_, n, m) =>
          preloadPump k t (set { x with todo := more, pending := if open_ then a :: x.pending else x.pending, missed := x.missed + n } m)

/-- Steps that a tile's preloads may take. -/
def preloadFuel (s : Slice) : Nat := s.preloads.foldl (fun n x => n + x.todo.length + 1) 0

/-- Run a tile's preloads. -/
def preloads (t : Tile) (m : Mod) : Mod := preloadPump (preloadFuel m.slices[t]) t m

/-- The fill of a line has ended, also for the preload that asked for it. -/
def preloadEnd (t : Tile) (a : Nat) (m : Mod) : Mod :=
  if (m.slices[t] : Slice).preloads.isEmpty then m
  else preloads t (onSlice t (fun s => { s with preloads := s.preloads.map (fun x => { x with pending := x.pending.filter (· != lineOf a) }) }) m)

/-! ### The end of a fill -/

/-- A line's fill has ended: its data lands, the requests in its miss entry are served in order, and a line of a
write-through policy or a transit entry goes on to the write buffer (R76, R189, R199). The path's nodes and the MAC batt enter
the metadata ways (R277). -/
def fillEnd (t : Tile) (space : BitVec 2) (a : Nat) (u : Unsealed) (m : Mod) : Mod :=
  match findMiss m.slices[t] space a with
  | none => m
  | some x =>
    let m := landFill t space a x.keyId x.label x.cls u (x.waiters.any (·.done)) m
    let (ws, m) := closeMiss t space a m
    let m := keepRrpv t space a (serveAll ws) m
    let m := if space = 0 then (regionOf m a).elim m (fun r => handOn t r a m) else m
    let m := finishTransit t space a m
    if space = 0 then preloadEnd t a m else m

/-- The metadata that a fill has used: its lines are hit, or enter the metadata ways (R193, R277). -/
def metaUsed (r : BitVec 128) (das : List Nat) (m : Mod) : Mod :=
  if rgCrypt r = 0 then m
  else das.foldl (fun m da =>
    let t := daTile da
    let s : SealRange := m.prot.sealR[t]
    let j := sealIdx s da
    let m := installPath t j (touchPath (rgCrypt r) da m)
    let a := macAddr s j
    if rgCrypt r = 2 && (hereFind m a).isSome then metaInstall a (metaNow m a).1 (metaNow m a).2 m else m) m

/-- A fill whose batts have come, and whose metadata is at hand, ends; what is missing is asked for (R277). A fulled page's fill
ends with its fuller (R293). -/
def fillTry (t : Tile) (x : Miss) (m : Mod) : Mod :=
  let own : Owner := .fill x.space t x.addr
  if !x.issued || !x.das.all (atHand m) then m
  else match fillNeeds m x.space x.addr x.das with
    | [] =>
      let raw := battNow m (x.das.headD 0)
      if x.space != 0 then fillEnd t x.space x.addr (if raw.2 then .poison else .ok raw.1) m
      else if (m.slices[t] : Slice).decomps.any (fun d => d.addr == x.addr) then
        if (fullerOf m (.fill t x.addr)).isSome then m else (fullerFor m t.val).elim m (fun f => fullerGive f (.fill t x.addr) m)
      else match regionOf m x.addr with
        | none => fillEnd t x.space x.addr .poison m
        | some r =>
          let u := plainBatt m r x.keyId (x.das.headD 0) raw.1 raw.2
          fillEnd t x.space x.addr u (metaUsed r x.das m)
    | l => wantMeta own l m

/-- A miss entry that waits for a way (R195), or for its tier-map batt, starts its fill as soon as it can. In pass-through it
goes on in a transit entry (R215). -/
def retryMiss (t : Tile) (x : Miss) (m : Mod) : Mod :=
  let a := x.addr
  let own : Owner := .fill x.space t a
  let r? := if x.space = 0 then regionOf m a else none
  if m.prot.stop.isSome then fillEnd t x.space a .poison m
  else if r?.elim false (fun r => rgElastic r && !teHere m t (pageOf m.tiers[t] a)) then wantTmap own t (pageOf m.tiers[t] a) m
  else
    let fs : FillStart := if x.space = 0 then r?.elim (.now .poison) (fun r => fillStart m r x.keyId a) else counterFill m a
    let around := r?.elim false (fun r => rgWpol r == 2 && x.waiters.all isWrite)
    let go (m : Mod) : Mod :=
      let m := r?.elim m (fun r => pageRead r a m)
      match fs with
      | .now u => fillEnd t x.space a u (onSlice t (onMiss x.space a (fun y => { y with issued := true })) m)
      | .slots das =>
        issueFill t x.space a x.keyId x.label x.cls (r?.elim false (fun r => isFulled m r a)) das
          (onSlice t (onMiss x.space a (fun y => { y with issued := true, das := das })) m)
      | .reseal _ => m
    match fs with
    | .reseal _ => m
    | _ =>
      if (allocWays m.slices[t]).isEmpty && (heldPlace m.slices[t] x.space a).isNone then
        if (missAdmit m m.slices[t] true x.cls x.label).1 then go (onSlice t (onMiss x.space a (fun y => { y with transit := true })) m) else m
      else match allocLine t x.space a x.label x.keyId around m with
        | (false, m) => m
        | (true, m) => go m

/-! ### What goes on when something has come (R110, R195, R197, R277) -/

/-- The commands that wait for the lines of prepared ways to leave, or to be clean (R204, R205). -/
def lockStep (t : Tile) (m : Mod) : Mod :=
  let s : Slice := m.slices[t]
  let m := match s.prepCmd with
    | some c =>
      if s.lines.any (fun l => s.reserved.getLsbD l.way) then m
      else done c 0x00 (onSlice t (fun s => { s with prep := true, prepCmd := none }) m)
    | none => m
  let s : Slice := m.slices[t]
  match s.lockCmd with
  | none => m
  | some c =>
    let dirty := s.lines.filter (fun l => s.reserved.getLsbD l.way && l.sdirty != 0)
    if dirty.isEmpty then
      done c 0x00 (passCheck t (onSlice t (fun s => { s with
        locked := s.locked ||| s.reserved, reserved := 0, prep := false, lockCmd := none }) m))
    else dirty.foldl (fun m l => startWb t l 1 m) m

/-- Whether the work for which a batt was read still waits. -/
def ownerLive (m : Mod) (own : Owner) : Bool :=
  match own with
  | .fill sp t a =>
    let s : Slice := m.slices[t]
    (findMiss s sp a).isSome || (findLine s sp a).elim false (fun l => l.svalid != 15) || (sp == 0 && (s.lineWait ++ s.missWait).any (fun q => wAper q.w == 0 && lineOf (wOff q.w) == a))
  | .line sp t a =>
    let s : Slice := m.slices[t]
    (findLine s sp a).elim false (fun l => l.wb != 0) || (findTransit s sp a).isSome
  | .reseal t l i => m.prot.reseals.any (fun r => r.tile == t && r.level == l && r.index == i)
  | .page t q => pageMoving m.tiers[t] q
  | .tmap t g => (m.tiers[t] : TierSt).sweep.contains g || !(m.tiers[t] : TierSt).trims.isEmpty || m.gang.rxWait.any (fun x => x.ids.isEmpty)
  | .header b => m.qs.spilled.contains b
  | .zero t => m.prot.zeroLeft.any (fun x => x.1 == t)

/-- One round over what waits in a tile: write-backs, fills that can end, misses that can start, requests that wait for their
line, transit entries. -/
def wakeRound (t : Tile) (m : Mod) : Mod :=
  let m := retryLines t m
  let m := ((m.slices[t] : Slice).misses.filter (·.issued)).foldl (fun m x => fillTry t x m) m
  let m := ((m.slices[t] : Slice).misses.filter (fun x => !x.issued)).foldl (fun m x => retryMiss t x m) m
  let part (l : Line) : Bool := l.space != 2 && l.svalid != 0 && l.svalid != 15 && (findMiss m.slices[t] l.space (lineAddr l)).isNone
  let m := ((m.slices[t] : Slice).lines.filter part).foldl (fun m l => refillLine t l m) m
  let ws := (m.slices[t] : Slice).lineWait
  let m := serveAll ws (onSlice t (fun s => { s with lineWait := [] }) m)
  let m := (m.slices[t] : Slice).transits.foldl (fun m x => refillTransit t x m) m
  (m.slices[t] : Slice).transits.foldl (fun m x => finishTransit t x.space x.addr m) m

/-- Whatever waits in a tile goes on as far as it can; what has been read for work that is done goes. -/
def wakeTile (t : Tile) (m : Mod) : Mod :=
  let m := preloads t (lockStep t (wakeRound t (wakeRound t m)))
  let m := if (m.filters[t] : FilterSt).waiters.isEmpty then pruneWays t m else wakeFilter t m
  { m with here := m.here.filter (fun e => ownerLive m e.own) }

/-! ### What a request meets at the port (R164 to R166, R175, R178, R264, R465, R584) -/

/-- Hold requests until a power state, a reload or a sweep is left. -/
def holdReq (q : MReq) (m : Mod) : Mod := { m with prot := { m.prot with held := m.prot.held ++ [q] } }

/-- Whether the module holds new requests (R110, R209, R257, R494); the last phases of an exit from Deep sleep do not (R492). -/
def holds (m : Mod) (t : Tile) : Bool :=
  let p := m.power
  p.state != 0 && p.state != 4 && !(p.state == 5 && p.last == 3 && 4 ≤ p.phase) || p.state == 4 && p.phase != 0 ||
    (m.prot.reload.elim false (fun l => 3 ≤ l.phase)) || (m.slices[t] : Slice).sweep

/-- The enabled bytes of a write are accepted (R415, R539). -/
def countWrite (q : MReq) (m : Mod) : Mod :=
  if !isWrite q || !isHost q then m
  else
    let n := (setBits (writeEn q)).length
    let m := onLabel (wLabel q.w) (fun l => { l with wr := l.wr + BitVec.ofNat 64 n }) m
    { m with bw := m.bw.set q.port { m.bw.get q.port with accWr := (m.bw.get q.port).accWr + n } }

/-- A request that holds its tracker entry meets the checks, and is answered at the window decode, held, or served. A snoop-answer
write is accepted under a key id that is being retired (R230, R266). -/
def route (q : MReq) (m : Mod) : Mod :=
  let t := homeTile m q.w
  match q.who with
  | .engine _ _ _ =>
    if deadModule m || (!tileReady m t && !isMirrored q) then violationAnswer q m
    else if !keyServes m (wKey q.w) then violationAnswer q (keyRefused true q.port (wKey q.w) m)
    else if holds m t || !tileReady m t then holdReq q m
    else serve false q m
  | .host => match violation m q.port q.w (!q.bad) with
    | some k => violationAnswer q (logViolation q.port q.w k (q.kind != .memRd && q.kind != .memRdData) m)
    | none =>
      if deadModule m || (m.ports.get q.port).viralRx || !tileReady m t then violationAnswer q m
      else if !keyServes m (wKey q.w) && !(q.answer && keyRetiring m (wKey q.w)) then
        violationAnswer q (keyRefused false q.port (wKey q.w) m)
      else if holds m t then holdReq q m
      else serve false q (countWrite q m)

/-- The held requests go on, in order (R257, R209, R494). -/
def releaseHeld (m : Mod) : Mod :=
  let l := m.prot.held
  l.foldl (fun m q => route q m) { m with prot := { m.prot with held := [] } }

end Sys2Proof.Machine
end

