-- ==== Sys2Proof/Machine/MemCmds.lean ====
section
/-! DEFINITION. Machine/MemCmds.lean: the commands of the CXL.mem channels (*Host ports and the address map*, *Coherence with
the hosts*): requests, BIRsp, BIConflict, credits, the receive buffer, and the pools behind them. -/
namespace Sys2Proof.Machine

/-! ### Receipt and the request tracker (R159, R167 to R171, R188, R230) -/

/-- Whether a port decodes CXL.mem messages (R155, R159, R176). -/
def memDecodes (m : Mod) (p : Port) : Bool :=
  let q := m.ports.get p
  portTalks m p && q.rate != .low && q.hdmCommitted && q.memEnable

/-- Whether a label's request may take a tracker entry. -/
def trackRoom (m : Mod) (p : Port) (label : BitVec 3) (write : Bool) : Bool :=
  trackHeld (m.ports.get p) label write < trackBudget m p label write

/-- Poisoned write data is received (R172, R183). -/
def poisonRx (q : MReq) (m : Mod) : Mod :=
  if isWrite q && q.poison then
    event 0x0308 0 (q.port.num + q.w.toNat * 8) (setRas q.port .memPoison (onPort q.port (fun p => { p with err := p.err ||| 2#8 }) m))
  else m

/-- The tile and the requests that a write-back comes ahead of: a BISnp for its line toward its port waits to be sent. It is then an
ordinary write, and if it ends the port's copy the BISnp is needed no more (R238). -/
def comesFirst (m : Mod) (q : MReq) : Option (Tile × List MReq) :=
  if !isWrite q || q.bad || wAper q.w != 0 then none
  else (List.finRange 4).findSome? (fun t =>
    let f : FilterSt := m.filters[t]
    if (snpsOf f (wLine q.w)).any (fun s => s.port == q.port && !s.sent) then
      some (t, f.waiters.filter (fun x => wAper x.w == 0 && wLine x.w == wLine q.w)) else none)

/-- A request meets the checks; a write-back that comes ahead of a BISnp is ordered before the requests that wait for it. -/
def routeFirst (q : MReq) (m : Mod) : Mod :=
  match comesFirst m q with
  | none => route q m
  | some (t, ws) =>
    let mine (x : MReq) : Bool := wAper x.w == 0 && wLine x.w == wLine q.w
    let m := onFilter t (fun f => { f with waiters := f.waiters.filter (fun x => !mine x) }) m
    let m := route q (if q.mv == .invalid then withdraw t q.port (wLine q.w) m else m)
    let anew (x : MReq) : MReq := { x with snooped := false, row := none }
    serveAll (if q.mv == .invalid then ws.map anew else ws) m

/-- A request moves into the tracker: its credit returns (R170), and it meets the checks. -/
def track (q : MReq) (m : Mod) : Mod :=
  let e : Track := { tag := q.tag, label := wLabel q.w, write := isWrite q, w := q.w }
  let m := onPort q.port (fun p => { p with tracker := p.tracker ++ [e] }) m
  routeFirst q (poisonRx q (send (.credit q.port (if isWrite q then 1 else 0)) m))

/-- A request finds its label's entries full (R171): it is held with its credit and counted, unless a swap has lowered the
budget below the label's holding (R188). -/
def overrun (q : MReq) (m : Mod) : Mod :=
  let p := m.ports.get q.port
  let l := wLabel q.w
  let m := onPort q.port (fun p => { p with rxBuf := p.rxBuf ++ [q] }) m
  if p.overHeld.contains (overKey l (isWrite q)) then m
  else
    let n := satAdd 0xFFFF_FFFF (tabGet 0 p.overruns l.toNat) 1
    let m := onPort q.port (fun p => { p with err := p.err ||| 16#8, overruns := tabPut p.overruns l.toNat n }) m
    let m := perfCount (halfPage q.port) (perfReq 0x0B l.toNat (wKey q.w) (wOff q.w)) none m
    if p.overFrame.contains l.toNat then m
    else event 0x0305 0 (q.port.num + l.toNat * 2 + n * 2 ^ 32) (onPort q.port (fun p => { p with overFrame := l.toNat :: p.overFrame }) m)

/-- The BISnp that has been sent toward a port for a line, in any tile. -/
def openToward (m : Mod) (p : Port) (line : Nat) : Option (Tile × OpenSnp) :=
  (List.finRange 4).findSome? (fun t =>
    ((m.filters[t] : FilterSt).snps.find? (fun s => s.port == p && s.sent && s.line == line)).map (fun s => (t, s)))

/-- Whether a snoop-answer write entry of a port is free (R230, R416). -/
def answerRoom (m : Mod) (p : Port) : Bool := (m.ports.get p).answerWr < 64

/-- A snoop-answer write (R230): outside the tracker and the budgets, ahead of every held request. Data that answers a
recall which discards is dropped (R267, R305). -/
def snoopAnswer (q : MReq) (s : OpenSnp) (m : Mod) : Mod :=
  let q := { q with answer := true }
  let m := onPort q.port (fun p => { p with answerWr := p.answerWr + 1 }) (send (.credit q.port 1) m)
  let m := poisonRx q m
  if s.why == .recalls true then sendNdr q .none (filtUpdate (homeTile m q.w) q .none m) else route q m

/-- The first write held in a port's receive buffer for whose line a BISnp toward the port is open: its place, and the BISnp. -/
def heldAnswer (m : Mod) (p : Port) : Option (Nat × MReq × OpenSnp) :=
  if !answerRoom m p then none
  else ((m.ports.get p).rxBuf.mapIdx (fun i q => (i, q))).findSome? (fun x =>
    if isWrite x.2 && !x.2.bad && wAper x.2.w == 0 then (openToward m p (wLine x.2.w)).map (fun s => (x.1, x.2, s.2)) else none)

/-- The snoop-answer writes of a port leave its receive buffer ahead of what is held there (R230). -/
def freeAnswers : Nat → Port → Mod → Mod
  | 0, _, m => m
  | k + 1, p, m =>
    match heldAnswer m p with
    | none => m
    | some x => freeAnswers k p (snoopAnswer x.2.1 x.2.2 (onPort p (fun q => { q with rxBuf := q.rxBuf.eraseIdx x.1 }) m))

/-- As `freeAnswers`, for both ports. -/
def answers (m : Mod) : Mod :=
  freeAnswers (m.ports.get .b).rxBuf.length .b (freeAnswers (m.ports.get .a).rxBuf.length .a m)

/-- The place in a port's receive buffer of the oldest held request of a label and direction. -/
def oldestHeld (m : Mod) (p : Port) (label : BitVec 3) (write : Bool) : Option Nat :=
  (m.ports.get p).rxBuf.findIdx? (fun x => wLabel x.w == label && isWrite x == write)

/-- The held requests of a label move into the tracker, oldest first, while it has a free entry (R170, R188). -/
def releaseRx : Nat → Port → BitVec 3 → Bool → Mod → Mod
  | 0, _, _, _, m => m
  | k + 1, p, label, write, m =>
    match oldestHeld m p label write with
    | none => m
    | some i =>
      if trackRoom m p label write then
        releaseRx k p label write
          (track ((m.ports.get p).rxBuf[i]?.getD default) (onPort p (fun q => { q with rxBuf := q.rxBuf.eraseIdx i }) m))
      else m

/-- The credits of M2S Req and M2S RwD that a port advertises (R170). -/
def rxCredits (write : Bool) : Nat := if write then 64 else 128

/-- Whether the host holds a credit for a request: those that the receive buffer holds have kept theirs (R170). -/
def rxRoom (m : Mod) (q : MReq) : Bool :=
  ((m.ports.get q.port).rxBuf.filter (fun x => isWrite x == isWrite q)).length < rxCredits (isWrite q)

/-- A CXL.mem request arrives at a port. Without a credit the host sends none (log entry 119). A held request of its label, for which
an entry has since freed, moves ahead of it. -/
def receive (q : MReq) (m : Mod) : Mod :=
  if !memDecodes m q.port || !rxRoom m q then m
  else
    let m := finishSweep q.port (wake (msgCode q.port) (touch m))
    let m := perfCount (halfPage q.port) (perfReq (if isWrite q then 6 else 5) (wLabel q.w).toNat (wKey q.w) (wOff q.w)) none m
    match (if isWrite q && !q.bad && wAper q.w == 0 then openToward m q.port (wLine q.w) else none) with
    | some x =>
      if answerRoom m q.port then snoopAnswer q x.2 m else onPort q.port (fun p => { p with rxBuf := p.rxBuf ++ [q] }) m
    | none =>
      let m := releaseRx (m.ports.get q.port).rxBuf.length q.port (wLabel q.w) (isWrite q) m
      answers (if trackRoom m q.port (wLabel q.w) (isWrite q) then track q m else overrun q m)

/-- A request inside the module, from an M2S Req. -/
def ofReq (k : ReqKind) (bad : Bool) (r : M2SReq) : MReq where
  who := .host
  port := r.port
  tag := r.tag
  w := r.w
  kind := k
  mv := r.mv
  data := 0
  en := 0
  poison := false
  snooped := false
  row := none
  answer := false
  done := false
  bad := bad
  void := false

/-- A request inside the module, from an M2S RwD. -/
def ofRwD (k : ReqKind) (r : M2SRwD) : MReq where
  who := .host
  port := r.port
  tag := r.tag
  w := r.w
  kind := k
  mv := r.mv
  data := r.data
  en := if k == .memWr then BitVec.allOnes 64 else r.en
  poison := r.poison
  snooped := false
  row := none
  answer := false
  done := false
  bad := false
  void := false

/-! ### The commands -/

/-- R224: MemRd. -/
def execMemRd (r : M2SReq) (s : State) : Res := modStep (receive (ofReq .memRd false r)) s

/-- R224: MemRdData. It has no row for MetaValue Invalid, so without a MetaValue it is served as MemRd Invalid. -/
def execMemRdData (r : M2SReq) (s : State) : Res :=
  modStep (receive (ofReq (if r.mv == .noOp then .memRd else .memRdData) false r)) s

/-- R224: MemInv. -/
def execMemInv (r : M2SReq) (s : State) : Res := modStep (receive (ofReq .memInv false r)) s

/-- R224: MemInvNT. -/
def execMemInvNt (r : M2SReq) (s : State) : Res := modStep (receive (ofReq .memInvNt false r)) s

/-- R158, R170: MemSpecRd has no effect; its credit returns at once. -/
def execMemSpecRd (r : M2SReq) (s : State) : Res :=
  modStep (fun m =>
    if !memDecodes m r.port then m
    else
      let m := wake (msgCode r.port) (touch m)
      send (.credit r.port 0) (perfCount (halfPage r.port) (perfReq 5 (wLabel r.w).toNat (wKey r.w) (wOff r.w)) none m)) s

/-- R150: MemWr. -/
def execMemWr (r : M2SRwD) (s : State) : Res := modStep (receive (ofRwD .memWr r)) s

/-- R199: MemWrPtl. -/
def execMemWrPtl (r : M2SRwD) (s : State) : Res := modStep (receive (ofRwD .memWrPtl r)) s

/-- A CXL.cache message that no host is expected to send (R158, R183): reported as a protocol error. -/
def cacheProtocolError (p : Port) (chan : Nat) (opcode : Byte) (m : Mod) : Mod :=
  if !portTalks m p then m
  else event 0x0307 0 (p.num + chan * 2 + opcode.toNat * 256) (setRas p .cacheProtocol (wake (msgCode p) (touch m)))

/-- R158: a message with another opcode: on M2S Req answered as a MemRd with MetaValue Invalid that fails a check, on M2S RwD with
NDR Cmp; on a CXL.cache channel a protocol error. -/
def execM2sOpcodeUnsupported (x : BadMsg) (opcode : Byte) (s : State) : Res :=
  modStep (match x with
    | .req r => receive (ofReq .memRd true { r with mv := .invalid })
    | .rwd r => receive (ofReq .memWr true r)
    | .cache p chan => cacheProtocolError p chan.val opcode) s

/-! ### BIConflict (R232) -/

/-- The tags of a port's messages for a line that the acknowledgement of a BIConflict waits for (R232): those in service, which are
ordered before any open BISnp, and those that wait for a mirror acknowledgement; with no BISnp open toward the port, also those
that wait in the filter slice. -/
def conflictAwaits (m : Mod) (p : Port) (w : BitVec 53) : List (BitVec 16) :=
  match (if wAper w = 0 then regionOf m (wOff w) else none) with
  | none => []
  | some r =>
    let t := rgTile r
    let later := if (openToward m p (wLine w)).isSome then [] else (m.filters[t] : FilterSt).waiters
    ((inFlight m t ++ m.gang.waits.filterMap (·.req) ++ later).filter (fun q => isHost q && q.port == p && wLine q.w == wLine w && wAper q.w == 0 && !q.done)).map (·.tag)

def execBiConflict (port : Port) (tag : BitVec 16) (w : BitVec 53) (s : State) : Res :=
  modStep (fun m =>
    if !memDecodes m port then m
    else
      let m := wake (msgCode port) (touch m)
      let m := send (.credit port 0) m
      conflictAcks port (onPort port (fun q => { q with conflicts := q.conflicts ++ [(tag, conflictAwaits m port w)] }) m)) s

/-! ### Held requests, credits, pools -/

/-- R170, R188: an entry of a label is free, so the oldest held request of that label moves into the tracker; a snoop-answer
write waits for none (R230). -/
def execReceiveBufferRelease (port : Port) (label : BitVec 3) (write : Bool) (s : State) : Res :=
  modStep (fun m => releaseRx 1 port label write (answers m)) s

/-- The first of the waiting D2H requests of a port leaves while credit is held. -/
def pumpD2h : Nat → Port → Mod → Mod
  | 0, _, m => m
  | k + 1, p, m =>
    let q := m.ports.get p
    match q.d2hWait with
    | [] => m
    | x :: rest => if contained m p || q.d2hCredit = 0 || !cacheOn q then m else pumpD2h k p (d2hSend p x.1 x.2 (onPort p (fun q => { q with d2hWait := rest }) m))

/-- R229, R582: the host returns credit for S2M BISnp, or for D2H Req. -/
def execBisnpCreditReturn (port : Port) (d2h : Bool) (n : Nat) (s : State) : Res :=
  modStep (fun m =>
    if (m.ports.get port).inReset || !(m.ports.get port).linkUp then m
    else if d2h then
      fetchPump (pumpD2h (m.ports.get port).d2hWait.length port (onPort port (fun q => { q with d2hCredit := q.d2hCredit + n }) m))
    else wakeAhead (answers (pumpPort port (onPort port (fun q => { q with snpCredit := q.snpCredit + n }) m)))) s

/-- R413: the waiting request that a freed entry goes to. `cand`: place in the order of arrival, label, and rank of its
admission (0 rule 1, 1 under its share, 2 over it); `last`: the label served last. -/
def chooseWaiter (cand : List (Nat × BitVec 3 × Nat)) (last : Nat) : Option (Nat × BitVec 3 × Nat) :=
  let key (c : Nat × BitVec 3 × Nat) : Nat := c.2.2 * 8 + (c.2.1.toNat + 15 - last % 8) % 8
  cand.foldl (fun acc c => match acc with
    | none => some c
    | some a => if key c < key a then some c else acc) none

/-- The rank of an admitted request: h entries held against a reserve of `r`, over its share or not. -/
def admitRank (h r : Nat) (overs : Bool) : Nat := if h < r then 0 else if overs then 2 else 1

/-- A waiting request takes a free entry of its pool: a write with its batt, which enters the write buffer; a group write with
its four; a line's write-back goes on from its way (R110, R197). -/
def admitWaiter (pack : Pack) (i : Nat) (m : Mod) : Mod :=
  match (m.packs[pack] : PackSt).waiting[i]? with
  | none => m
  | some q =>
    let m := onPack pack (fun p => { p with waiting := p.waiting.eraseIdx i }) m
    let t := daTile q.da
    let m := match q.why with
      | .line _ _ _ => m
      | _ =>
        let mine (e : WEntry) : Bool := q.write && (reqBatts q).contains e.da
        let m := { m with wbuf := m.wbuf.set t ((m.wbuf[t] : List WEntry) ++ (m.wbWait[t] : List WEntry).filter mine),
                          wbWait := m.wbWait.set t ((m.wbWait[t] : List WEntry).filter (fun e => !mine e)) }
        onPack pack (fun p => { p with queue := p.queue ++ [q] }) m
    wakeTile t m

/-- A dispatcher entry has freed (R413); a write also needs room in the write buffer (R416). -/
def freeDispatch (pack : Pack) (c : SlotClass) (m : Mod) : Mod :=
  let p : PackSt := m.packs[pack]
  let cand := (p.waiting.mapIdx (fun i q => (i, q))).filterMap (fun x =>
    if x.2.cls == c then
      let a := dispAdmit m p x.2
      let room := !x.2.write || c == .scrub || writeRoom m (daTile x.2.da) c x.2.kind (reqBatts x.2).length
      if a.1 && room then
        some (x.1, if labelled c then x.2.label else 0, admitRank (holdOf p c x.2.label) (poolSize c / 32) a.2)
      else none
    else none)
  match chooseWaiter cand (tabGet 7 p.served c.code) with
  | none => m
  | some x => admitWaiter pack x.1 (onPack pack (fun p => { p with served := tabPut p.served c.code x.2.1.toNat }) m)

/-- Whether a waiting miss needs a transit entry. -/
def needsTransit (m : Mod) (t : Tile) (q : MReq) : Bool :=
  if wAper q.w = 0 then (regionOf m (wOff q.w)).elim false (fun r => usesTransit m t q (rgWpol r) (wOff q.w))
  else (allocWays m.slices[t]).isEmpty

/-- A miss or transit entry of a slice has freed (R413). -/
def freeMissEntry (t : Tile) (transit : Bool) (m : Mod) : Mod :=
  let s : Slice := m.slices[t]
  let held (l : BitVec 3) : Nat :=
    if transit then transitHeld s (fun c k => c != .mirror && k == l) else (s.misses.filter (fun x => !x.transit && x.label == l)).length
  let cand := (s.missWait.mapIdx (fun i q => (i, q))).filterMap (fun x =>
    if needsTransit m t x.2 == transit then
      let l := reqLabel x.2
      let a := missAdmit m s transit (readCls x.2) l
      if a.1 then some (x.1, l, admitRank (held l) (if transit then 4 else 16) a.2) else none
    else none)
  match chooseWaiter cand (if transit then s.servedTransit else s.servedMiss) with
  | none => m
  | some x =>
    let q := s.missWait[x.1]?.getD default
    -- requests of the same line that came later wait behind it (R231)
    let mine (y : MReq) : Bool := wAper q.w == 0 && wAper y.w == 0 && wLine y.w == wLine q.w
    let m := onSlice t (fun s => { s with
      missWait := s.missWait.eraseIdx x.1,
      lineWait := s.lineWait.filter (fun y => !mine y),
      servedMiss := if transit then s.servedMiss else x.2.1.toNat,
      servedTransit := if transit then x.2.1.toNat else s.servedTransit }) m
    serveAll (s.lineWait.filter mine) (serve true q m)

def execPoolEntryFree (pool : PoolId) (s : State) : Res :=
  modStep (fun m => match pool with
    | .dispatch pack cls => freeDispatch pack cls m
    | .miss t => freeMissEntry t false m
    | .transit t => freeMissEntry t true m) s

/-! ### Reseals and decompressed fills -/

/-- R281, R282: a reseal of a tile whose children are at hand is carried out; then the write that raised it proceeds, and what
waited under its node goes on. While a child is missing it is asked for. -/
def resealEnd (t : Tile) (m : Mod) : Mod :=
  let free (r : Reseal) : Bool := match r.own with
    | .line sp _ a => match lineHome m sp a with
      | .at_ _ da => sp == 2 || (wbAccepts m .lineWb 0 0 da).1
      | _ => true
    | _ => true
  match m.prot.reseals.findIdx? (fun r => r.tile == t.val && (resealNeeds m r).isEmpty && free r) with
  | none =>
    match m.prot.reseals.find? (fun r => r.tile == t.val) with
    | some r => wantMeta (.reseal r.tile r.level r.index) (resealNeeds m r) m
    | none => m
  | some i =>
    let r := m.prot.reseals[i]?.getD default
    let m := doReseal r m
    let m := { m with prot := { m.prot with reseals := m.prot.reseals.eraseIdx i } }
    let m := match r.own with
      | .line sp t a => match findLine m.slices[t] sp a with
        | some l => retryLine t l.set l.way m
        | none => finishTransit t sp a m
      | _ => m
    wakeTile t (serveAll r.waiters m)

def execResealEnd (tile : Tile) (s : State) : Res := engineStep (resealEnd tile) s

/-! ### Decompressed fills (R293, R297) -/

/-- R293, R297: the fuller that runs a fill has decoded the stored page, whose batts and metadata are at hand. `bad1`, `bad2`: its
check, and that of the repetition on the other fuller, failed; a page whose own PCRC does not match its content fails both. -/
def fillDecoded (t : Tile) (addr : Nat) (bad1 bad2 : Bool) (m : Mod) : Mod :=
  let a := lineOf addr
  match (m.slices[t] : Slice).decomps.find? (fun d => d.addr == a), findMiss m.slices[t] 0 a, fullerRuns m (.fill t a) with
  | some d, some x, some f =>
    if !x.das.all (atHand m) then m
    else match fillNeeds m 0 a x.das with
      | [] =>
        let m := fullerEnd (.fill t a) (onSlice t (fun s => { s with decomps := s.decomps.erase d }) m)
        let go (u : Unsealed) (m : Mod) : Mod := wakeTile t (fillEnd t 0 a u m)
        match regionOf m a with
        | none => go .poison m
        | some r =>
          match readStored m r d.keyId (x.das.headD 0) x.das.length with
          | (.ok _, bytes) =>
            let page := unfullPage bytes
            let m := metaUsed r x.das m
            if page.isNone || (bad1 && bad2) then
              let da := x.das.headD 0
              go .poison (event 0x0601 (locBatt da) (da % 2 ^ 41 + x.das.length * 2 ^ 41 + f.val * 2 ^ 45) m)
            else
              let m := if bad1 then handOver f (fullerMismatch f m) else m
              go (.ok (ofBytes 2048 (((page.getD []).drop (a / 256 % 16 * 256)).take 256))) m
          | (u, _) => go u m
      | l => wantMeta (.fill 0 t a) l m
  | _, _, _ => m

def execFillDecompressDone (tile : Tile) (addr : Nat) (bad1 bad2 : Bool) (s : State) : Res :=
  engineStep (fillDecoded tile addr bad1 bad2) s

end Sys2Proof.Machine
end

