-- ==== Sys2Proof/Machine/DataPhase.lean ====
section
/-! DEFINITION. Machine/DataPhase.lean: what the end of a data phase does (R89, R48 to R59, R73 to R77, R353, R362). -/
namespace Sys2Proof.Machine

/-- Errors of a data phase: beat number over the batts of the phase, byte position, pattern. -/
abbrev Errs := List (Fin 64 × Fin 18 × Byte)

/-- The errors of batt `i` of a data phase. -/
def errsOf (e : Errs) (i : Nat) : List (Nat × Nat × Byte) :=
  (e.filter (fun x => x.1.val / 16 == i)).map (fun x => (x.1.val % 16, x.2.1.val, x.2.2))

/-- Nanoseconds in the 1 s windows of R51 and R213. -/
def oneSecond : Nat := 1000000000

/-- The tile of a pack. -/
def packTile (p : Pack) : Tile := ⟨p.val / 2, by omega⟩

/-! ### The pattern in force -/

/-- The set and variant of the running frame, or of the next one when a swap takes effect at its end. -/
def patternAt (m : Mod) (ahead : Bool) : ImageSet × Nat :=
  let sc := m.sched
  match (if ahead then sc.swap else none) with
  | some w => if w.framesLeft = 1 then ((if w.newSet then sc.staged.getD sc.active else sc.active), w.variant) else (sc.active, sc.variant)
  | none => (sc.active, sc.variant)

/-- The slot word of a pack's pattern. -/
def slotWord (m : Mod) (pk : Pack) (slot : Nat) (ahead : Bool) : Word64 :=
  let p := patternAt m ahead
  slotWordOf p.1 p.2 (packTile pk).val slot

/-! ### Decoding (R48 to R53) -/

/-- The channel position of a pack that its tile's channel test has in hand (R60). -/
def testChan (m : Mod) (p : Pack) : Option Nat :=
  match (m.tests[packTile p] : Option ChanTest) with
  | some c => if c.done < 18 && 2 * (packTile p).val + c.done / 9 == p.val then some (c.done % 9) else none
  | none => none

/-- A corrected batt is counted: by rank for R53, and by byte position with its time for R51. -/
def countFixed (pk : Pack) (da : Nat) (fixed : List Nat) (m : Mod) : Mod :=
  if fixed.isEmpty then m
  else
    let rank := daRank da
    let now := m.tb.now
    let m := perfCount (tilePage (packTile pk)) (perfSlot 0x09 15 0 (some da)) (some (pk.val % 2 == 1)) m
    onPack pk (fun p =>
      let roll := oneSecond ≤ now - p.ceStart
      { p with
        ceCount := if roll then (if now - p.ceStart < 2 * oneSecond then p.ceNow else []) else p.ceCount
        ceNow := tabMod 0 (if roll then [] else p.ceNow) rank (· + 1)
        ceStart := if roll then now - (now - p.ceStart) % oneSecond else p.ceStart
        ceAt := fixed.map (fun i => (rank * 18 + i, now)) ++ p.ceAt.filter (fun e => now - e.2 ≤ oneSecond) }) m

/-- Read a batt from the dies with the errors that they show, over what a channel test has written there (R61). -/
def rawRead (pk : Pack) (da : Nat) (errs : List (Nat × Nat × Byte)) (m : Mod) : RawRead × Mod :=
  let p : PackSt := m.packs[pk]
  let b := memBatt m.mem da
  if rankState p (daRank da) == 3 || p.poisonList.contains da || p.poisonPend.contains da then (.known, m)
  else match decodeBatt (erasedAt p (testChan m pk) da) b (p.markers.contains da) (testPattern p (testChan m pk) da b ++ errs) with
    | .good b fixed => (.data b, countFixed pk da fixed m)
    | .marker => (.marker, m)
    | .bad => (.bad, m)

/-- A batt that is uncorrectable after diagnosis is recorded as poisoned, unless a write to it is pending (R76): a marker
write in the SCRUB entries, a poison-list entry, or nothing in a Failed rank (R74, R586). -/
def recordPoison (pk : Pack) (da : Nat) (m : Mod) : Mod :=
  let p : PackSt := m.packs[pk]
  if (wbFind m da).isSome || m.prot.stop.isSome then m
  else match rankState p (daRank da) with
    | 0 | 1 => enqReq (battReq .scrub da true 0 0 .marker) (onPack pk (fun p => { p with poisonPend := da :: p.poisonPend }) m)
    | 2 => writeBatt da (memBatt m.mem da) true m
    | _ => m

/-- The uncorrectable-error event of a batt (R76). -/
def badEvent (da cls : Nat) (m : Mod) : Mod := event 0x0204 (locBatt da) (cls * 16 + da % 2 ^ 41 * 256) m

/-- A diagnosis of a pack holds a read with what its batts gave (R55, R58); a read that found an uncorrectable batt starts the
diagnosis, or joins the running one (R54, R59). -/
def holdRead (pk : Pack) (q : DReq) (l : List RawRead) (m : Mod) : Mod :=
  let h : HeldRead := { req := { q with tried := q.tried || l.contains .bad }, res := l }
  onPack pk (fun p => { p with diag := match p.diag with
    | some d => some { d with held := d.held ++ [h] }
    | none => some { rank := daRank q.da, steps := 0, failed := 0, held := [h] } }) (touch m)

/-! ### Delivery -/

/-- Batts that work of the module has read have come: they stand until it uses them. -/
def needArrives (own : Owner) (q : DReq) (l : List (Option Batt)) (m : Mod) : Mod :=
  let new := ((reqBatts q).zip l).map (fun x => ({ own := own, da := x.1, data := x.2.getD 0, poison := x.2.isNone } : Here))
  { m with here := new ++ m.here }

/-- The four batts of a run in one pack have come (R362): they fill the run's read entry, and the cell reads that wait for
them are answered. -/
def cellsArrive (run : Nat) (pk : Pack) (l : List (Option Batt)) (m : Mod) : Mod :=
  let got (c : Nat) : Bool := c % 2 == pk.val % 2
  let cell (c : Nat) : Option Batt := (l.getD (c / 2) none)
  let upd (e : RunRead) : RunRead :=
    if e.run != run then e
    else
      { e with
        cells := e.cells.mapIdx (fun c b => if got c then (cell c).getD 0 else b)
        poison := (List.range 8).foldl (fun v c => if got c then putBit v c (cell c).isNone else v) e.poison
        here := (List.range 8).foldl (fun v c => if got c then putBit v c true else v) e.here }
  let m := { m with qs := { m.qs with reads := m.qs.reads.map upd } }
  let mine (w : CellWait) : Bool := w.run == run && got (wOff w.req.w / 256 % 8)
  let ws := m.qs.cellWaits.filter mine
  let m := { m with qs := { m.qs with cellWaits := m.qs.cellWaits.filter (fun w => !mine w) } }
  ws.foldl (fun m w =>
    let c := wOff w.req.w / 256 % 8
    cellData w.req ((cell c).getD 0) (cell c).isNone m) m

/-- Deliver a read of the dispatcher: one batt, or the four batts of a cell group; `none` poison. -/
def readArrives (pk : Pack) (q : DReq) (l : List (Option Batt)) (m : Mod) : Mod :=
  match q.why with
  | .fill space t a => needArrives (.fill space t a) q l m
  | .cellRead run => cellsArrive run pk l m
  | .need own => needArrives own q l m
  | _ => m

/-- Decode the batts of a read, in order. -/
def readBatts (pk : Pack) (q : DReq) (errs : Errs) (m : Mod) : List RawRead × Mod :=
  ((reqBatts q).mapIdx (fun i da => (i, da))).foldl (fun acc x =>
    match wbFind acc.2 x.2 with
    | some e => (acc.1 ++ [if e.poison then .marker else .data e.data], acc.2)
    | none =>
      let (r, m) := rawRead pk x.2 (errsOf errs x.1) acc.2
      (acc.1 ++ [r], m)) ([], m)

/-- The response to uncorrectable batts of a read (R76): events, records of poison, and delivery as poison. -/
def respond (pk : Pack) (q : DReq) (l : List RawRead) (m : Mod) : Mod :=
  let m := ((reqBatts q).zip l).foldl (fun m x => match x.2 with
    | .known => badEvent x.1 q.cls.code m
    | .bad => recordPoison pk x.1 (badEvent x.1 q.cls.code m)
    | _ => m) m
  readArrives pk q (l.map (fun r => match r with
    | .data b => some b
    | _ => none)) m

/-- A read's data phase ends: during a diagnosis its data is held; an uncorrectable batt starts one; otherwise it is
answered (R54 to R59, R76). -/
def readDone (pk : Pack) (q : DReq) (errs : Errs) (m : Mod) : Mod :=
  let x := readBatts pk q errs m
  if (m.packs[pk] : PackSt).diag.isSome then holdRead pk q x.1 m
  else if x.1.contains .bad && !q.tried then holdRead pk q x.1 x.2
  else respond pk q x.1 x.2

/-! ### Writes -/

/-- A run's group write ends in one pack; after both packs the run is stored and its assembly entry frees (R353). -/
def cellsStored (run : Nat) (m : Mod) : Mod :=
  onRun run (fun r =>
    if r.storeLeft = 0 then r
    else if r.storeLeft = 1 then { r with storeLeft := 0, stored := true, cells := none, poison := 0 }
    else { r with storeLeft := r.storeLeft - 1 }) m

/-- A write's data phase ends: its batts are on the dies and their entries leave the write buffer (R90). -/
def writeDone (q : DReq) (m : Mod) : Mod :=
  let m := (reqBatts q).foldl (fun m da => match wbFind m da with
    | some e => wbDel da (writeBatt da e.data e.poison m)
    | none => m) m
  match q.why with
  | .cellWrite run => cellsStored run m
  | _ => m

/-! ### The commands of a data slot (R81 to R83, R124) -/

/-- The data slots that a request takes from slot `k` on: one, or the four of a group. -/
def dataSlots (p : List Word64) (k : Nat) (group : Bool) : List Nat :=
  let f := p.length
  if group then (((List.range f).map (fun i => (k + i) % f)).filter (fun i => swData (p.getD i 0))).take 4 else [k]

/-- The commands that the image places for one data slot, at their slots and positions: ACT with the row of the request, CAS
with its column and direction, with auto-precharge for a single batt and for the last of a group, and PRE. -/
def slotCommands (pk : Pack) (p : List Word64) (k : Nat) (da : Nat) (write auto : Bool) : List Out :=
  (p.mapIdx (fun i w => (i, w))).flatMap (fun x => [0, 1].filterMap (fun o =>
    let lead := swLead x.2 o
    let out (c : DramCmd) : Option Out := some (.dram pk x.1 o (swTgt x.2 o) c)
    if lead = 0 ∨ (x.1 + lead) % p.length ≠ k then none
    else match swOp x.2 o with
      | 1 => out (.act1 (daRow da))
      | 2 => out (.act2 (daRow da))
      | 3 => out (.cas1 write (daCol da))
      | 4 | 5 | 6 => out (.cas2 write (daCol da) auto)
      | 7 => out .pre
      | _ => none))

/-- Issue the commands of the data slots from `slot` on for the batts of a request. -/
def issueCommands (pk : Pack) (slot : Nat) (batts : List Nat) (write : Bool) (m : Mod) : Mod :=
  let s := patternAt m false
  let p := pattern s.1 s.2 (packTile pk).val
  ((dataSlots p slot (batts.length != 1)).zip batts).foldl (fun m x =>
    (slotCommands pk p x.1 x.2 write (some x.2 == batts.getLast?)).foldl (fun m o => send o m) m) m

/-- Count data slots of a class that carry a request, or that pass without one (R111). -/
def countSlots (pk : Pack) (slot cls n : Nat) (used : Bool) (da : Option Nat) (m : Mod) : Mod :=
  (List.range n).foldl (fun m _ =>
    perfCount (tilePage (packTile pk)) (perfSlot (if used then 1 else 2) cls slot da) (some (pk.val % 2 == 1)) m) m

/-- A row of a rank is activated (R96). -/
def activated (pk : Pack) (da : Nat) (m : Mod) : Mod := onPack pk (fun p => { p with raa := tabMod 0 p.raa (daRank da) (· + 1) }) m

/-- R89: the data phase of the oldest bound request of a pack ends. A write that a diagnosis has come before goes back to the
head of its queue; its slot passes, and is not counted as missed (R55, R58). -/
def dataPhaseEnd (pk : Pack) (errs : Errs) (m : Mod) : Mod :=
  match (m.packs[pk] : PackSt).bound with
  | [] => m
  | b :: rest =>
    let q := b.req
    let n := (reqBatts q).length
    let m := onPack pk (fun p => { p with bound := rest }) m
    if q.write && (m.packs[pk] : PackSt).diag.isSome then countSlots pk b.slot b.slotCls n false none (onPack pk (requeue q) m)
    else
      let m := activated pk q.da (issueCommands pk b.slot (reqBatts q) q.write m)
      let m := if labelled q.cls then onLabel q.label (fun l => { l with batts := l.batts + BitVec.ofNat 64 n }) m else m
      let m := countSlots pk b.slot b.slotCls n true (some q.da) m
      wakeTile (packTile pk) (if q.write then writeDone q m else readDone pk q errs m)

def execDataPhaseEnd (pack : Pack) (errs : Errs) (s : State) : Res := modStep (dataPhaseEnd pack errs) s

end Sys2Proof.Machine
end

