-- ==== Sys2Proof/Machine/Slots.lean ====
section
/-! DEFINITION. Machine/Slots.lean: the commands of the frame schedule (*The frame schedule*), of diagnosis and scrubbing
(*Packs, batts and the pack code*). -/
namespace Sys2Proof.Machine

/-! ### The running frame -/

/-- Whether the pack's tile takes part in the running frame: the frame runs, the tile has filled and has joined it at a frame
boundary (R108), no self-refresh. -/
def packJoins (m : Mod) (pk : Pack) : Bool :=
  m.sched.running && tileReady m (packTile pk) && !m.sched.joining.getLsbD (packTile pk).val &&
    !(m.packs[pk] : PackSt).selfRefresh && !m.tb.lost

/-- Whether the pack's sequencer runs slots now: in a set-point gap it runs none (R106). -/
def packRuns (m : Mod) (pk : Pack) : Bool := packJoins m pk && !m.sched.gap

/-- Whether a data slot is one of the last three of an OPEN group (R99). -/
def innerOpen (m : Mod) (pk : Pack) (slot : Nat) (ahead : Bool) : Bool :=
  let before := ((List.range slot).reverse.map (fun k => slotWord m pk k ahead)).filter swData
  (before.take 3).any (fun w => swFirst w && swClass w == 0)

/-- OPEN data slots of a pack per frame (R98). -/
def openSlots (m : Mod) (pk : Pack) (ahead : Bool) : Nat :=
  let p := patternAt m ahead
  ((pattern p.1 p.2 (packTile pk).val).filter (fun w => swData w && swClass w == 0)).length

/-! ### OPEN slots (R98 to R100) -/

/-- Whether a class is under its OPEN budget in the slot's frame. -/
def underBudget (m : Mod) (pk : Pack) (ahead : Bool) (c : SlotClass) : Bool :=
  let s := patternAt m ahead
  let p : PackSt := m.packs[pk]
  tabGet 0 (if ahead then p.usedNext else p.used) c.code < shareOf s.1 s.2 (packTile pk).val c.code * openSlots m pk ahead / 256

/-- The head that a class offers at a dispatch point: during a diagnosis writes wait (R58), and a read waits for its
read-return entries (R89). -/
def offer (m : Mod) (pk : Pack) (c : SlotClass) (bank : Nat) : Option DReq :=
  let p : PackSt := m.packs[pk]
  (headOf p c bank).bind (fun q =>
    if q.write then (if p.diag.isSome then none else some q) else if readRoom m (packTile pk) q then some q else none)

/-- The classes that compete for an OPEN group, or for a single OPEN slot (R99). -/
def openClasses (group : Bool) : List SlotClass :=
  if group then [.cellWr, .cellRd] else [.lineFill, .lineWb, .metaSlot, .tier, .job, .mirror]

/-- The request that wins an OPEN slot or group. -/
def openWinner (m : Mod) (pk : Pack) (bank : Nat) (group ahead : Bool) : Option DReq :=
  let p : PackSt := m.packs[pk]
  let cand := (openClasses group).filterMap (fun c => (offer m pk c bank).map (fun q => (c, q)))
  let key (x : SlotClass × DReq) : Nat :=
    (if underBudget m pk ahead x.1 then 0 else 16) + (x.1.code + 31 - p.lastOpen % 16) % 16
  (cand.foldl (fun acc x => match acc with
    | none => some x
    | some y => if key x < key y then some x else acc) none).map (·.2)

/-! ### Dispatch (R87, R90) -/

/-- The reads at the head of a bank queue whose batt has a pending write are served from the write buffer, without a slot
(R90). -/
def serveBuffered : Nat → Pack → SlotClass → Nat → Mod → Mod
  | 0, _, _, _, m => m
  | k + 1, pk, c, bank, m =>
    match headOf m.packs[pk] c bank with
    | some q =>
      if !q.write && (reqBatts q).all (fun da => (wbFind m da).isSome) then
        let x := readBatts pk q [] (onPack pk (takeReq q) m)
        serveBuffered k pk c bank (respond pk q x.1 x.2)
      else m
    | none => m

/-- Send a request to the sequencer for a slot. -/
def bindReq (pk : Pack) (q : DReq) (slot : Nat) (ahead : Bool) (cls : Nat) (m : Mod) : Mod :=
  let b : Bound := { req := q, slot := slot, frame := m.sched.frameNo + (if ahead then 1 else 0), slotCls := cls }
  onPack pk (fun p => { takeReq q p with bound := p.bound ++ [b] }) m

/-- Count one grant of an OPEN slot, or of the four of a group (R98). -/
def countOpen (pk : Pack) (slot : Nat) (c : SlotClass) (n : Nat) (ahead : Bool) (m : Mod) : Mod :=
  let add (l : List (Nat × Nat)) := tabMod 0 l c.code (· + n)
  let m := (List.range n).foldl (fun m _ => perfCount (tilePage (packTile pk)) (perfSlot 3 c.code slot none) (some (pk.val % 2 == 1)) m) m
  onPack pk (fun p => { p with lastOpen := c.code, used := if ahead then p.used else add p.used,
                               usedNext := if ahead then add p.usedNext else p.usedNext }) m

/-- R87, R99: the dispatch point of a data slot of the running frame, or (`ahead`) of the next, which may fall in the set-point
gap (R106). SCRUB and TRAIN slots have rows of their own. A read leaves only with a read-return entry for every batt (R89),
and a write not during a diagnosis (R58): otherwise the slot passes. -/
def dispatchPoint (pk : Pack) (slot : Nat) (ahead : Bool) (m : Mod) : Mod :=
  if !packJoins m pk then m
  else
    let w := slotWord m pk slot ahead
    let bank := swBank w
    match (if swData w then SlotClass.ofCode (swClass w) else none) with
    | none => m
    | some .scrub | some .train | some .refresh => m
    | some .openSlot =>
      if innerOpen m pk slot ahead then m
      else
        let group := swFirst w
        let m := (openClasses group).foldl (fun m c => serveBuffered 256 pk c bank m) m
        match openWinner m pk bank group ahead with
        | none => countSlots pk slot 0 (if group then 4 else 1) false none m
        | some q => countOpen pk slot q.cls (if group then 4 else 1) ahead (bindReq pk q slot ahead 0 m)
    | some c =>
      if (c == .cellWr || c == .cellRd) && !swFirst w then m
      else
        let m := serveBuffered 256 pk c bank m
        match offer m pk c bank with
        | none => countSlots pk slot c.code (if c == .cellWr || c == .cellRd then 4 else 1) false none m
        | some q => bindReq pk q slot ahead c.code m

def execDispatchPoint (pack : Pack) (slot : Nat) (ahead : Bool) (s : State) : Res :=
  modStep (dispatchPoint pack slot ahead) s

/-- A miss is counted and reported with the slot's frame (R101). A missed cell group or OPEN group counts as one slot (DESIGN
CHOICE, log entry 105). -/
def countMiss (pk : Pack) (slot cls : Nat) (frame : Word32) (da : Option Nat) (m : Mod) : Mod :=
  let m := onPack pk (fun p => { p with misses := satAdd 0xFFFFFF p.misses 1, lastClass := cls, sinceBand := true }) m
  let m := perfCount (tilePage (packTile pk)) (perfSlot 4 cls slot da) (some (pk.val % 2 == 1)) m
  raiseAt frame 0x0101 1 (locCode pk.val none none none none none none) (BitVec.ofNat 64 (slot % 65536 + cls * 65536)) m

/-- The SCRUB work that waits in a pack for a slot of a bank (R67). -/
def scrubWork (p : PackSt) (bank : Nat) : Option Nat :=
  ((p.queue.filter (fun q => q.cls == .scrub && q.bank == bank)).map (·.da) ++
    (p.tests.filter (fun x => daRB x.da == bank)).map (·.da)).head?

/-- R101: the request of a slot missed it: no command, the request returns to the head of its bank queue, the miss is counted
and reported. The work of a SCRUB slot, which is chosen as the slot is served, stays where it waits. -/
def slotMissed (pk : Pack) (slot : Nat) (m : Mod) : Mod :=
  match (m.packs[pk] : PackSt).bound.find? (fun b => b.slot == slot) with
  | some b =>
    countMiss pk slot b.slotCls b.frame (some b.req.da) (onPack pk (fun p => requeue b.req { p with bound := p.bound.erase b }) m)
  | none =>
    let w := slotWord m pk slot false
    match (if packRuns m pk && swData w && swClass w == 7 then scrubWork m.packs[pk] (swBank w) else none) with
    | some da => countMiss pk slot 7 m.sched.frameNo (some da) m
    | none => m

def execSlotMissed (pack : Pack) (slot : Nat) (s : State) : Res := modStep (slotMissed pack slot) s

/-! ### REFRESH and TRAIN slots (R95 to R97) -/

/-- The commands of a REFRESH slot: its REFpb, or its RFM when the rank's activations require it. -/
def refreshSlot (pk : Pack) (slot : Nat) (m : Mod) : Mod :=
  if !packRuns m pk then m
  else
    let w := slotWord m pk slot false
    if swClass w != 8 then m
    else [0, 1].foldl (fun m i =>
      let rank := swTgt w i / 16
      if swOp w i = 8 then send (.dram pk slot i (swTgt w i) .refPb) m
      else if swOp w i = 9 ∧ Config.raaLimit ≤ tabGet 0 (m.packs[pk] : PackSt).raa rank then
        send (.dram pk slot i (swTgt w i) .rfm) (onPack pk (fun p => { p with raa := tabPut p.raa rank 0 }) m)
      else m) m

def execRefreshSlot (pack : Pack) (slot : Nat) (s : State) : Res := modStep (refreshSlot pack slot) s

/-- TRAIN slots that the link tests of a channel under test take: four on each of the four ranks (R55, R60). -/
def linkSlots : Nat := 16

/-- How old the last oscillator read of a rank is when the next one is due: half of the 1 ms of R71 (DESIGN CHOICE, log entry
104). -/
def oscDueNs : Nat := 500000

/-- The rank whose interval-oscillator read is due: the one read longest ago (R71). -/
def oscRank (m : Mod) (p : PackSt) : Option Nat :=
  let at_ (r : Nat) : Nat := tabGet m.tb.resetAt p.oscAt r
  (List.range 4).find? (fun r => oscDueNs ≤ m.tb.now - at_ r && (List.range 4).all (fun k => at_ r ≤ at_ k))

/-- The command of step `k` of the link tests (R55): RDC, WFF, RFF, and a read of the recorded mode registers. -/
def linkCommand (k : Nat) : DramCmd :=
  match k % 4 with
  | 0 => .rdc
  | 1 => .wff
  | 2 => .rff
  | _ => .mrr 0

/-- R97: a TRAIN slot serves the first work that waits: diagnosis, link tests of a channel test, MR4, interval oscillator,
ZQ. `fails`: channel positions that fail the link test run. A TRAIN data slot counts as used or passed (R111). -/
def trainSlot (pk : Pack) (slot : Nat) (fails : BitVec 9) (m : Mod) : Mod :=
  let w := slotWord m pk slot false
  if !packRuns m pk || swClass w != 9 then m
  else
    let p : PackSt := m.packs[pk]
    let t := packTile pk
    let count (used : Bool) (m : Mod) : Mod := if swData w then countSlots pk slot 9 1 used none m else m
    let cmd (bank : Nat) (c : DramCmd) (m : Mod) : Mod := count true (send (.dram pk slot 0 bank c) m)
    let idle (m : Mod) : Mod :=
      if p.mr4Due then cmd 0 (.mrr 1) (onPack pk (fun p => { p with mr4Due := false }) m)
      else match oscRank m p with
        | some r => cmd (16 * r) (.mrr 2) (onPack pk (fun p => { p with oscAt := tabPut p.oscAt r m.tb.now }) m)
        | none => if p.zqDue then cmd 0 .zqLatch (onPack pk (fun p => { p with zqDue := false }) m) else count false m
    let test (m : Mod) : Mod :=
      match (m.tests[t] : Option ChanTest), testChan m pk with
      | some c, some ch =>
        if c.links < linkSlots then
          cmd (16 * (c.links / 4)) (linkCommand c.links)
            { m with tests := m.tests.set t (some { c with links := c.links + 1, failing := c.failing || fails.getLsbD ch }) }
        else idle m
      | _, _ => idle m
    match p.diag with
    | some d =>
      if d.steps < 4 then
        cmd (16 * d.rank) (linkCommand d.steps)
          (onPack pk (fun p => { p with diag := some { d with steps := d.steps + 1, failed := d.failed ||| fails } }) m)
      else idle m
    | none => test m

def execTrainSlot (pack : Pack) (slot : Nat) (fails : BitVec 9) (s : State) : Res := modStep (trainSlot pack slot fails) s

/-! ### SCRUB slots (R61 to R68) -/

/-- The pacing interval of patrol reads in units of 2^-30 ns (R65). -/
def patrolInterval (m : Mod) : Nat := m.sched.active.scrubHours * 3600 * oneSecond

/-- What a patrol read of a batt gives (R65, R76): a corrected batt is written back, an uncorrectable one starts diagnosis or
is rewritten as poisoned. -/
def patrolRead (pk : Pack) (q : DReq) (errs : Errs) (m : Mod) : Mod :=
  let r := rawRead pk q.da (errsOf errs 0) m
  match r.1 with
  | .data b =>
    let fixed := match decodeBatt (erasedAt m.packs[pk] (testChan m pk) q.da) (memBatt m.mem q.da) false (errsOf errs 0) with
      | .good _ f => f
      | _ => []
    if fixed.isEmpty then r.2 else enqReq (battReq .scrub q.da true 0 0 (.writeBack b)) r.2
  | .marker => r.2
  | .known => badEvent q.da 7 r.2
  | .bad => if q.tried then recordPoison pk q.da (badEvent q.da 7 r.2) else holdRead pk q [.bad] r.2

/-- Step 1 of the channel test of a batt (R61, R76): its decoded values are kept; an uncorrectable batt is skipped. -/
def testRead (pk : Pack) (q : DReq) (errs : Errs) (m : Mod) : Mod :=
  let r := rawRead pk q.da (errsOf errs 0) m
  match r.1 with
  | .data b => onPack pk (fun p => { p with tests := p.tests ++ [{ da := q.da, data := b, step := 1 }] }) r.2
  | .marker => r.2
  | .known => badEvent q.da 7 r.2
  | .bad => if q.tried then recordPoison pk q.da (badEvent q.da 7 r.2) else holdRead pk q [.bad] r.2

/-- The next step of a batt under test (R61): the pattern write, after which the dies hold the pattern of `testPattern` over the
batt as it was decoded; the read-back and comparison; the restore. -/
def testStep (pk : Pack) (x : TestBatt) (errs : Errs) (m : Mod) : Mod :=
  let t := packTile pk
  let step (m : Mod) : Mod :=
    onPack pk (fun p => { p with tests := p.tests.map (fun y => if y == x then { y with step := y.step + 1 } else y) }) m
  if x.step = 1 then step (writeBatt x.da x.data false m)
  else if x.step = 2 then
    let bad := match testChan m pk with
      | some ch => (errsOf errs 0).any (fun e => e.2.1 / 2 == ch && e.2.2 != 0)
      | none => false
    step (match (m.tests[t] : Option ChanTest) with
      | some c => { m with tests := m.tests.set t (some { c with failing := c.failing || bad }) }
      | none => m)
  else onPack pk (fun p => { p with tests := p.tests.erase x }) (writeBatt x.da x.data false m)

/-- What a SCRUB slot of a bank serves (R67). -/
inductive ScrubUse where
  /-- a queued write-back or marker, or a read that a diagnosis has re-entered -/
  | queued (q : DReq)
  /-- the next step of a batt under test -/
  | test (x : TestBatt)
  /-- the array test's next batt of the bank, and a patrol read -/
  | next (da : Nat)
  | patrol (da : Nat)
  | pass
  deriving DecidableEq, Repr, Inhabited

/-- The next batt of a bank that the array test of the channel in hand takes, when a SCRUB entry is free for it. -/
def testNext (m : Mod) (pk : Pack) (bank : Nat) : Option Nat :=
  match (m.tests[packTile pk] : Option ChanTest), testChan m pk with
  | some c, some _ =>
    let n := tabGet 0 c.next bank
    let da := daOf pk bank (n / 64) (n % 64)
    if c.links < linkSlots ∨ c.rows * 64 ≤ n ∨ ¬ (dispAdmit m m.packs[pk] (battReq .scrub da false 0 0 .test)).1 then none
    else some da
  | _, _ => none

/-- R67: what a SCRUB slot of a bank is used for; a read needs a SCRUB read-return entry, and a patrol read the pacing credit. -/
def scrubUse (m : Mod) (pk : Pack) (bank credit : Nat) : ScrubUse :=
  let p : PackSt := m.packs[pk]
  let mine (q : DReq) : Bool := q.cls == .scrub && q.bank == bank
  let room := readRoom m (packTile pk) (battReq .scrub 0 false 0 0 .patrol)
  match p.queue.find? (fun q => mine q && q.write), p.queue.find? mine, p.tests.find? (fun x => daRB x.da == bank) with
  | some q, _, _ => .queued q
  | none, some q, _ => if room then .queued q else .pass
  | none, none, some x => if x.step = 2 ∧ !room then .pass else .test x
  | none, none, none =>
    match (if room then testNext m pk bank else none) with
    | some da => .next da
    | none =>
      if room && patrolInterval m ≤ credit then
        let n := tabGet 0 p.patrol bank
        .patrol (daOf pk bank (n / 64) (n % 64))
      else .pass

/-- R67: a SCRUB slot. A patrol or a test that meets a batt with a pending write uses no slot (R90); during a diagnosis the slot
passes (R58). -/
def scrubSlot (pk : Pack) (slot : Nat) (errs : Errs) (m : Mod) : Mod :=
  let w := slotWord m pk slot false
  if !packRuns m pk || swClass w != 7 || !swData w then m
  else
    let bank := swBank w
    let iv := patrolInterval m
    let credit := min ((m.packs[pk] : PackSt).credit + (m.tb.now - (m.packs[pk] : PackSt).lastScrub) * 2 ^ 30) (64 * iv)
    let m := onPack pk (fun p => { p with credit := credit, lastScrub := m.tb.now }) m
    let pass (m : Mod) : Mod := countSlots pk slot 7 1 false none m
    let used (da : Nat) (write : Bool) (m : Mod) : Mod :=
      countSlots pk slot 7 1 true (some da) (activated pk da (issueCommands pk slot [da] write m))
    if (m.packs[pk] : PackSt).diag.isSome then pass m
    else match scrubUse m pk bank credit with
      | .pass => pass m
      | .queued q =>
        let m := onPack pk (takeReq q) m
        if !q.write && (wbFind m q.da).isSome then pass m
        else
          let m := used q.da q.write m
          match q.why with
          | .writeBack b => writeBatt q.da b false m
          | .marker => writeBatt q.da (memBatt m.mem q.da) true m
          | .test => testRead pk q errs m
          | _ => patrolRead pk q errs m
      | .test x => testStep pk x errs (used x.da (x.step != 2) m)
      | .next da =>
        let t := packTile pk
        let m := match (m.tests[t] : Option ChanTest) with
          | some c => { m with tests := m.tests.set t (some { c with next := tabMod 0 c.next bank (· + 1) }) }
          | none => m
        if (wbFind m da).isSome then pass m
        else testRead pk (battReq .scrub da false 0 0 .test) errs (used da false m)
      | .patrol da =>
        let m := onPack pk (fun p => { p with credit := credit - iv, patrol := tabMod 0 p.patrol bank (fun n => (n + 1) % 2 ^ 24) }) m
        if (wbFind m da).isSome then pass m
        else patrolRead pk (battReq .scrub da false 0 0 .patrol) errs (used da false m)

def execScrubSlot (pack : Pack) (slot : Nat) (errs : Errs) (s : State) : Res := modStep (scrubSlot pack slot errs) s

/-! ### Marks and diagnosis (R50 to R58) -/

/-- Place a channel mark (R50): event with its cause, and the health record (R52). -/
def channelMark (pk : Pack) (pos cause : Nat) (m : Mod) : Mod :=
  let m := onPack pk (fun p => { p with chMarks := if p.chMarks.contains pos then p.chMarks else pos :: p.chMarks }) m
  let f := m.flash
  let m := { m with flash := { f with chMarks := if f.chMarks.contains (pk.val, pos) then f.chMarks else (pk.val, pos) :: f.chMarks } }
  event 0x0202 (locChannel pk.val pos) cause m

/-- R70: a channel's mode registers are recorded at training. -/
def recordRegs (pk : Pack) (pos : Nat) (m : Mod) : Mod :=
  onPack pk (fun p => { p with modeRegs := p.modeRegs.setIfInBounds pos (Config.dieRegs (9 * pk.val + pos)) }) m

/-- R70, R72: the packs that train record their channels' mode registers, and the channels that fail training receive
channel marks (log entry 34). -/
def trainPacks (packs : List Pack) (m : Mod) : Mod :=
  let bad := Config.trainFails m.free
  let at_ := packs.flatMap (fun pk => (List.range 9).map (fun pos => (pk, pos)))
  at_.foldl (fun m x =>
    let m := recordRegs x.1 x.2 m
    if bad.getLsbD (9 * x.1.val + x.2) && !(m.packs[x.1] : PackSt).chMarks.contains x.2 then channelMark x.1 x.2 2 m else m)
    { m with free := m.free + 1 }

/-- R51: 64 batts of a Clean rank have been corrected at one position within 1 s. -/
def dieMark (pk : Pack) (rank pos : Nat) (m : Mod) : Mod :=
  let p : PackSt := m.packs[pk]
  let n := (p.ceAt.filter (fun e => e.1 == rank * 18 + pos && m.tb.now - e.2 ≤ oneSecond)).length
  if rankState p rank != 0 || n < 64 then m
  else
    let m := onPack pk (fun p => { p with dieMarks := (rank, pos) :: p.dieMarks }) m
    event 0x0201 (locDie pk.val rank pos) 0
      { m with flash := { m.flash with dieMarks := (pk.val, rank, pos) :: m.flash.dieMarks } }

def execDieMark (pack : Pack) (rank : Fin 4) (pos : Fin 18) (s : State) : Res := modStep (dieMark pack rank.val pos.val) s

/-- A read that a diagnosis held gets the response of its uncorrectable batts, and its good batts are delivered (R56). -/
def heldBad (pk : Pack) (h : HeldRead) (m : Mod) : Mod :=
  match h.req.why with
  | .patrol | .test => recordPoison pk h.req.da (badEvent h.req.da 7 m)
  | _ => respond pk h.req h.res m

/-- R56: the verdict. Held reads go back to the head of their queues, but those that a multi-channel fault answers. -/
def diagnosisVerdict (pk : Pack) (m : Mod) : Mod :=
  match (m.packs[pk] : PackSt).diag with
  | none => m
  | some d =>
    if d.steps < 4 then m
    else
      let m := onPack pk (fun p => { p with diag := none }) m
      let back (l : List HeldRead) (m : Mod) : Mod := onPack pk (fun p => { p with queue := l.map (·.req) ++ p.queue }) m
      match setBits d.failed with
      | [] => back d.held m
      | [pos] => back d.held (channelMark pk pos 0 m)
      | _ =>
        let m := event 0x0203 (locCode pk.val none none (some d.rank) none none none) d.failed.toNat m
        let m := back (d.held.filter (fun h => !h.req.tried)) m
        wakeTile (packTile pk) ((d.held.filter (·.req.tried)).foldl (fun m h => heldBad pk h m) m)

def execDiagnosisVerdict (pack : Pack) (s : State) : Res := modStep (diagnosisVerdict pack) s

/-! ### Frame boundaries (R105 to R109, R129 to R135, R188) -/

/-- The labels over a budget that a swap has lowered (R188). -/
def lowered (old new : Mod) (p : Port) : List Nat :=
  (List.range 16).filter (fun k =>
    let l := BitVec.ofNat 3 (k / 2)
    let w := k % 2 == 1
    trackBudget new p l w < trackBudget old p l w && trackBudget new p l w < trackHeld (old.ports.get p) l w)

/-- A committed swap takes effect (R105, R106, R109, R125, R129, R135). An activation whose set has the SET_ID of the active set leaves
the set unchanged for bit 10 of its event, which names sets by their SET_ID (DESIGN CHOICE, log entry 121). -/
def swapEffect (w : Swap) (m0 : Mod) : Mod :=
  let sc := m0.sched
  let old := sc.active
  let new := if w.newSet then sc.staged.getD old else old
  let oldV := varAt old sc.variant
  let newV := varAt new w.variant
  let staged := if w.newSet then (if old.rom then none else some old) else sc.staged
  let m := { m0 with sched := { sc with
    active := new, staged := staged, variant := w.variant, swap := none, subst := w.subst, activators := if w.newSet then [] else sc.activators,
    gap := oldV.fsp != newV.fsp, further := none } }
  -- R106: in the gap every channel switches its set point
  let m := if oldV.fsp != newV.fsp then (List.finRange 8).foldl (fun m p => send (.dram p 0 0 0 (.setPoint newV.fsp)) m) m else m
  let overs (p : Port) (q : PortSt) : PortSt := { q with overHeld := (q.overHeld ++ lowered m0 m p).eraseDups }
  let m := settleOver .b (settleOver .a { m with ports := m.ports.map overs })
  let diff := w.newSet && old.setId != new.setId
  let m := event 0x0102 0 (sc.variant % 8 + w.variant % 8 * 8 + bandInForce m0 % 4 * 64 + m0.therm.throttle % 4 * 256 +
    (if diff then 1024 + old.setId.toNat % 2 ^ 24 * 2 ^ 16 + new.setId.toNat % 2 ^ 24 * 2 ^ 40 else 0)) m
  let m := if w.subst then substEvent w.variant w.band w.level m else m
  let m := if w.newSet then sc.activators.foldl (fun m c => complete c 0x20 0 (m.sched.frameNo.setWidth 96) m) m else m
  sc.further.elim m (fun ns => commitSwap ns m)

/-- Whether the tile dispatchers and write buffers are empty (R490). -/
def drained (m : Mod) : Bool :=
  m.packs.all (fun p => p.queue.isEmpty && p.bound.isEmpty && p.waiting.isEmpty && p.diag.isNone) &&
    m.wbuf.all (·.isEmpty) && m.wbWait.all (·.isEmpty) &&
    m.slices.all (fun s => s.misses.isEmpty && !s.sweep && !s.flush)

/-- Requests in flight: dispatchers, write buffers, misses, and requests that wait in a slice or a filter. -/
def requestsAbout (m : Mod) : Bool :=
  !drained m || m.filters.any (fun f => !f.waiters.isEmpty) ||
    m.slices.any (fun s => !s.missWait.isEmpty || !s.lineWait.isEmpty || !s.transits.isEmpty || s.lines.any (·.busy)) ||
    !m.prot.reseals.isEmpty

/-- What an entry into Sleep or Deep sleep waits for before its commit (R490): requests in flight, the accesses of engines among
them, and mirrored writes that await their MACK. -/
def powerBusy (m : Mod) : Bool := requestsAbout m || m.acc.any (fun a => a.ans.isNone) || !m.gang.waits.isEmpty

/-- The frame stops and every pack enters self-refresh, after an all-bank refresh of each rank (R41, R108). -/
def stopFrame (m : Mod) : Mod :=
  let m := { m with sched := { m.sched with running := false }, packs := m.packs.map (fun (p : PackSt) => { p with selfRefresh := true }) }
  let ranks (m : Mod) (p : Pack) (c : DramCmd) : Mod := (List.range 4).foldl (fun m r => send (.dram p 0 0 (16 * r) c) m) m
  (List.finRange 8).foldl (fun m p => ranks (ranks m p .refAb) p .selfRefreshEntry) m

/-- R105, R109: a frame ends. A frame that stops here keeps its number until the next one starts (R108, R550). -/
def frameBoundary (m : Mod) : Mod :=
  let sc := m.sched
  if !sc.running || sc.gap then m
  else
    let m := { m with sched := { sc with frameNo := sc.frameNo + 1, frameStart := m.tb.now, joining := 0 } }
    let m := { m with packs := m.packs.map (fun (p : PackSt) => { p with used := p.usedNext, usedNext := [] }) }
    let m := { m with prot := { m.prot with keyEvents := [] } }
    let m := { m with ports := m.ports.map (fun _ q => { q with overFrame := [] }) }
    let m := match sc.swap with
      | none => m
      | some w => if w.framesLeft ≤ 1 then swapEffect w m
        else { m with sched := { m.sched with swap := some { w with framesLeft := w.framesLeft - 1 } } }
    let halt (m : Mod) : Mod := stopFrame { m with sched := { m.sched with frameNo := sc.frameNo } }
    if m.power.state == 4 && m.power.phase == 0 && !powerBusy m then
      halt { m with power := { m.power with phase := 1 } }
    else if m.prot.reload.elim false (fun l => l.phase == 5) && drained m then halt m
    else m

def execFrameBoundary (s : State) : Res := modStep frameBoundary s

/-- R106: the set-point gap ends; slot 0 of the new variant begins. -/
def execSetPointGapEnd (s : State) : Res :=
  modStep (fun m => if m.sched.gap then { m with sched := { m.sched with gap := false, frameStart := m.tb.now } } else m) s

end Sys2Proof.Machine
end

