-- ==== Sys2Proof/Machine/Access.lean ====
section
/-! DEFINITION. Machine/Access.lean: accesses of admin commands and jobs to window ranges of the module (R585, *Compression jobs*):
the checks, the requests to the home slices, what has been read, and admin commands that wait for it. -/
namespace Sys2Proof.Machine

/-! ### Buffers and ranges -/

/-- The window offset of sector `i` of a buffer that starts at `w`. -/
def bufW (w : Word64) (i : Nat) : BitVec 53 := BitVec.ofNat 53 (w.toNat + 64 * i)

/-- 64 B sectors of a buffer. -/
def bufSectors (len : Nat) : Nat := (len + 63) / 64

/-- Whether every address of a buffer passes R164 with a port, under a key id that serves accesses (R264). -/
def bufOk (m : Mod) (p : Port) (w : Word64) (len : Nat) : Bool :=
  w.toNat % 64 == 0 && w.toNat + 64 * bufSectors len ≤ 2 ^ 53 &&
    (List.range (bufSectors len)).all (fun i =>
      let x := bufW w i
      wAper x == 0 && (violation m p x true).isNone && keyServes m (wKey x))

/-- An engine access under a key id whose slot serves none raises the key-unavailable event (R264). -/
def bufRefuse (p : Port) (w : Word64) (len : Nat) (m : Mod) : Mod :=
  match (List.range (bufSectors len)).find? (fun i => (violation m p (bufW w i) true).isNone && !keyServes m (wKey (bufW w i))) with
  | some i => keyRefused true p (wKey (bufW w i)) m
  | none => m

/-- The sectors that a byte range touches (R307). -/
def rangeSectors (w : Word64) (len : Nat) : Nat := if len = 0 then 0 else (w.toNat % 64 + len + 63) / 64

/-- The window offset of the `i`-th of them. -/
def rangeW (w : Word64) (i : Nat) : BitVec 53 := BitVec.ofNat 53 (w.toNat / 64 * 64 + 64 * i)

/-- The violation kind of the first sector of a byte range that fails R164. -/
def rangeViolation (m : Mod) (p : Port) (w : Word64) (len : Nat) : Option Nat :=
  (List.range (rangeSectors w len)).findSome? (fun i =>
    let x := rangeW w i
    if wAper x != 0 then some (if wAper x == 3 then 0 else 1) else violation m p x true)

/-! ### Requests (R585) -/

/-- Who accesses, as its requests carry it: the port of its ring, the slot class of its misses and writes, its label (R408). -/
structure Accessor where
  port  : Port
  cls   : SlotClass
  label : BitVec 3

/-- The label of a port's admin accesses: RING_CFG.LABEL of its admin ring. -/
def adminLabel (m : Mod) (p : Port) : BitVec 3 := (adminRing m p).elim 0 (fun r => cfgLabel (ringAt m p r).cfg)

/-- The accessor of a port's admin commands. -/
def adminBy (m : Mod) (p : Port) : Accessor := ⟨p, .lineWb, adminLabel m p⟩

/-- One access: a read as MemRd, a write as MemWr or MemWrPtl, with MetaValue Invalid. Its number, and the state. -/
def access (by_ : Accessor) (kind : ReqKind) (w : BitVec 53) (d : Sector) (en : BitVec 64) (poison : Bool) (m : Mod) : Nat × Mod :=
  let id := m.accId
  let q : MReq := { who := .engine id by_.cls by_.label, port := by_.port, tag := 0, w := w, kind := kind, mv := .invalid, data := d,
                    en := en, poison := poison, snooped := false, row := none, answer := false, done := false, bad := false,
                    void := false }
  (id, route q { m with accId := id + 1, acc := m.acc ++ [{ id := id, w := w, ans := none }] })

/-- Accesses in order, one for each number below `n`; their numbers. -/
def accesses (n : Nat) (one : Nat → Mod → Nat × Mod) (m : Mod) : List Nat × Mod :=
  let x := (List.range n).foldl (fun (st : List Nat × Mod) i =>
    let y := one i st.2
    (y.1 :: st.1, y.2)) ([], m)
  (x.1.reverse, x.2)

/-- Read the sectors of a byte range. -/
def readRange (by_ : Accessor) (w : Word64) (len : Nat) (m : Mod) : List Nat × Mod :=
  accesses (rangeSectors w len) (fun i m => access by_ .memRd (rangeW w i) 0 0 false m) m

/-- The enables of the first `n` bytes of a sector. -/
def lowEn (n : Nat) : BitVec 64 := BitVec.ofNat 64 (2 ^ min n 64 - 1)

/-- Merge fills of transit entries start for what their writes have left out (R199, R585). -/
def settleWrites (m : Mod) : Mod :=
  (List.finRange 4).foldl (fun m t =>
    (m.slices[t] : Slice).transits.foldl (fun m x => finishTransit t x.space x.addr (refillTransit t x m)) m) m

/-- Write bytes at any byte address. -/
def writeRange (by_ : Accessor) (w : Word64) (l : List Byte) (m : Mod) : List Nat × Mod :=
  let k := w.toNat % 64
  let one (i : Nat) (m : Mod) : Nat × Mod :=
    let lo := if i = 0 then k else 0
    let part := (l.drop (64 * i - (if i = 0 then 0 else k))).take (64 - lo)
    let en := lowEn part.length <<< lo
    access by_ (if en = BitVec.allOnes 64 then .memWr else .memWrPtl) (rangeW w i) (ofBytes 512 (List.replicate lo 0 ++ part)) en false m
  let x := accesses (rangeSectors w l.length) one m
  (x.1, settleWrites x.2)

/-- Read the sectors whose batts a range covers only in part: what their merge fills give (R76). -/
def readEdges (by_ : Accessor) (w : Word64) (len : Nat) (m : Mod) : List Nat × Mod :=
  let n := rangeSectors w len
  let lo := if w.toNat % 256 != 0 && n != 0 then [0] else []
  let hi := if (w.toNat + len) % 256 != 0 && n != 0 then [n - 1] else []
  let l := (lo ++ hi).eraseDups
  accesses l.length (fun i m => access by_ .memRd (rangeW w (l.getD i 0)) 0 0 false m) m

/-! ### Answers -/

/-- The answer to an access that has come. -/
def accAns (m : Mod) (id : Nat) : Option (Sector × Bool) := (m.acc.find? (fun a => a.id == id)).bind (·.ans)

/-- Whether all of a list of accesses are answered. -/
def answered (m : Mod) (ids : List Nat) : Bool := ids.all (fun i => (accAns m i).isSome)

/-- Whether one of them was poisoned, or could not be done. -/
def anyBad (m : Mod) (ids : List Nat) : Bool := ids.any (fun i => (accAns m i).any (·.2))

/-- The bytes of a range that its reads have brought. -/
def rangeBytes (m : Mod) (ids : List Nat) (w : Word64) (len : Nat) : List Byte :=
  ((ids.flatMap (fun i => toBytes ((accAns m i).elim 0 (·.1)) 64)).drop (w.toNat % 64)).take len

/-- Accesses whose answers have been used. -/
def dropAcc (ids : List Nat) (m : Mod) : Mod := { m with acc := m.acc.filter (fun a => !ids.contains a.id) }

/-! ### Admin commands that wait (R513, R585) -/

/-- The object that a command names, by its group and number. -/
def workObj : AdminWork → Nat × Nat
  | .poolSet k _ | .poolRead k _ => (6, k)
  | .queueSet q _ | .queueRead q _ | .queueReset q => (7, q)
  | .replSet k _ => (8, k)
  | .eportSet k _ => (9, k)
  | .cpoolSet k _ | .cpoolOff k => (10, k)
  | .flashUpdate _ _ _ => (11, 0)
  | .schedCommit t _ _ _ | .schedRead t _ _ => (12, t)
  | .result _ _ _ _ _ => (13, 0)
  | .posted _ _ _ => (14, 0)

/-- Whether an earlier command of the port that names the same object waits: commands of one object run in ring order. -/
def objectBusy (m : Mod) (c : AdminTag) (x : AdminWork) : Bool :=
  let o := workObj x
  o.1 ≤ 12 && m.parked.any (fun y => y.cmd.port == c.port && workObj y.work == o)

/-- A command waits. -/
def park (c : AdminTag) (x : AdminWork) (ids : List Nat) (m : Mod) : Mod :=
  { m with parked := m.parked ++ [{ cmd := c, work := x, ids := ids }] }

/-- The bytes of a result buffer have been accepted: the command completes. -/
def postResult (c : AdminTag) (code rused : Nat) (result : BitVec 96) (ids : List Nat) (m : Mod) : Mod :=
  let bad := anyBad m ids
  let m := dropAcc ids m
  if bad then done c 0xE2 m else complete c code rused result m

/-- The batts that a result covers in part have been read; one that is poisoned gives 0xE2. The result is written. -/
def writeResult (c : AdminTag) (code : Nat) (result : BitVec 96) (w : Word64) (bytes : List Byte) (ids : List Nat) (m : Mod) : Mod :=
  let bad := anyBad m ids
  let m := dropAcc ids m
  if bad then done c 0xE2 m
  else
    let (ids, m) := writeRange (adminBy m c.port) w bytes m
    if answered m ids then postResult c code bytes.length result ids m else park c (.posted code bytes.length result) ids m

/-- Complete an admin command with bytes in its result buffer. -/
def sendResult (c : AdminTag) (code : Nat) (result : BitVec 96) (w : Word64) (bytes : List Byte) (m : Mod) : Mod :=
  let (ids, m) := readEdges (adminBy m c.port) w bytes.length m
  if answered m ids then writeResult c code result w bytes ids m else park c (.result code 0 result w bytes) ids m

/-- Complete an admin command with bytes in its result buffer: code 0xE2 when the buffer fails R164 or is too small (R515). -/
def completeWith (h : AdminHdr) (c : AdminTag) (code : Nat) (result : BitVec 96) (bytes : List Byte) (m : Mod) : Mod :=
  if h.rlen < bytes.length || !bufOk m h.port h.rbuf bytes.length then
    done c 0xE2 (bufRefuse h.port h.rbuf bytes.length m)
  else sendResult c code result h.rbuf bytes m

/-- The bytes of a list of 64-bit words. -/
def wordBytes (l : List Word64) : List Byte := (l.map (fun w => toBytes w 8)).flatten

/-- What a source buffer gave (R585): its bytes, or `none` when a sector was poisoned; its accesses are used up. -/
def sourceBytes (ids : List Nat) (w : Word64) (len : Nat) (m : Mod) : Option (List Byte) × Mod :=
  (if anyBad m ids then none else some (rangeBytes m ids w len), dropAcc ids m)

/-- A command reads its source buffer, and goes on with `run` once it is here, in the order of its object; a buffer that fails R164
is none. -/
def withSource (h : AdminHdr) (c : AdminTag) (x : AdminWork) (w : Word64) (len : Nat) (run : Option (List Byte) → Mod → Mod) (m : Mod) :
    Mod :=
  if !bufOk m h.port w len then run none (bufRefuse h.port w len m)
  else
    let (ids, m) := readRange (adminBy m h.port) w len m
    if answered m ids && !objectBusy m c x then
      let y := sourceBytes ids w len m
      run y.1 y.2
    else park c x ids m

/-- A command without a source buffer runs in the order of its object. -/
def inOrder (c : AdminTag) (x : AdminWork) (run : Mod → Mod) (m : Mod) : Mod :=
  if objectBusy m c x then park c x [] m else run m

end Sys2Proof.Machine
end

