-- ==== Sys2Proof/Machine/Admin.lean ====
section
/-! DEFINITION. Machine/Admin.lean: service processors and takeover (R498 to R503, R524), flash commands (R504 to R512),
identity and health (R515), oscillators and their test (R36 to R38, R525), the posting of events (R342, R516, R517). -/
namespace Sys2Proof.Machine

/-! ### Cores and takeover -/

/-- State of a core: false SP0, true SP1. -/
def coreSt (m : Mod) (c : Bool) : CoreSt := if c then m.proc.sp1 else m.proc.sp0

/-- Change a core's state. -/
def setCore (c : Bool) (s : CoreSt) (m : Mod) : Mod :=
  if c then { m with proc := { m.proc with sp1 := s } } else { m with proc := { m.proc with sp0 := s } }

/-- The number of a core, oscillator or bank. -/
def num01 (b : Bool) : Nat := if b then 1 else 0

/-- A core fails: it is held in reset, the event is raised, and the health record notes it (R500). -/
def failCore (c : Bool) (m : Mod) : Mod :=
  let n := num01 c
  let m := setCore c .failed m
  let m := { m with flash := { m.flash with coreFail := if m.flash.coreFail.contains n then m.flash.coreFail else n :: m.flash.coreFail } }
  event 0x0D03 0 n m

/-- What the takeover cuts short (R500): started commands complete with 0xE5, an image load discards the staging store, a
flash update leaves its bank invalid. Hardware work goes on. -/
def cutShort (m : Mod) : Mod :=
  let cs := (m.proc.queue.filter (·.2)).map (·.1)
  let m := cs.foldl (fun m c => done c 0xE5 m) m
  let m := if m.sched.load.isSome then { m with sched := { m.sched with load := none, loadIds := [], staged := none } } else m
  let m := { dropAcc (m.parked.flatMap (·.ids)) m with parked := [] }
  { m with proc := { m.proc with flashBusy := none, spTest := none } }

/-- Phase 6 of a protection reload boots the cores (R257). -/
def rebooting (m : Mod) : Bool := m.prot.reload.elim false (fun l => l.phase == 6)

/-- A takeover (R500; in phase 6 of a reload the surviving core boots anew, R503), or the loss of the last service processor (R502). `cause`: 0 SRAM trap, 1 watchdog. -/
def takeover (cause : Nat) (m : Mod) : Mod :=
  let a := m.proc.sp1Active
  let o := !a
  if coreSt m o = .standby ∨ coreSt m o = .test ∨ coreSt m o = .booting then
    let m := cutShort (setCore o (if coreSt m o = .booting then .booting else .active) (setCore a .test m))
    let m := { m with proc := { m.proc with sp1Active := o, kickAt := m.tb.now, takeovers := satAdd 0xFFFF m.proc.takeovers 1 } }
    event 0x0D02 0 (num01 o + 2 * cause) m
  else event 0x0D04 0 0 (setCore a .failed m)

/-- R499: an uncorrectable SRAM error traps the active core, or fails the standby. -/
def execSramTrap (core1 : Bool) (s : State) : Res :=
  modStep (fun m =>
    match coreSt m core1 with
    | .active => takeover 0 m
    | .standby => failCore core1 m
    | .booting => if !rebooting m then m else if core1 == m.proc.sp1Active then takeover 0 m else failCore core1 m
    | _ => m) s

/-- R501: the active core has missed its watchdog period. -/
def execWatchdogExpiry (s : State) : Res :=
  modStep (fun m =>
    if coreSt m m.proc.sp1Active = .active ∧ m.proc.kickAt + m.proc.wdtMs * 1000000 ≤ m.tb.now then takeover 1 m else m) s

/-- R501: the active core writes to the watchdog. -/
def execWatchdogKick (s : State) : Res :=
  modStep (fun m =>
    if coreSt m m.proc.sp1Active = .active then { m with proc := { m.proc with kickAt := m.tb.now } } else m) s

/-- R500 step 4: the failed core's march and self-test end. -/
def execSpSelfTestEnd (pass : Bool) (s : State) : Res :=
  modStep (fun m =>
    let c := !m.proc.sp1Active
    if coreSt m c = .test ∧ m.proc.spTest = none then (if pass then setCore c .standby m else failCore c m) else m) s

/-- R524: test of the standby core. -/
def execSpTest (h : AdminHdr) (s : State) : Res :=
  modStep (admin h 0x0004 true (fun c m =>
    let o := !m.proc.sp1Active
    if m.proc.spTest.isSome then done c 0xC3 m
    else if coreSt m o = .standby then setCore o .test { m with proc := { m.proc with spTest := some c } }
    else done c 0xC2 m)) s

/-- R524: the standby core's test ends. -/
def execSpTestEnd (pass : Bool) (s : State) : Res :=
  modStep (fun m =>
    match m.proc.spTest with
    | none => m
    | some c =>
      let o := !m.proc.sp1Active
      let m := { m with proc := { m.proc with spTest := none } }
      if pass then done c 0x00 (setCore o .standby m)
      else complete c 0xC1 0 (BitVec.ofNat 96 (num01 o)) (failCore o m)) s

/-! ### Identity, health, coalesced events -/

/-- R515: IDENTIFY. -/
def execIdentify (h : AdminHdr) (s : State) : Res :=
  modStep (admin h 0x0001 true (fun c m =>
    let r : BitVec 96 := 0x2048#96 ||| (Config.stepNum.setWidth 96 <<< 16) ||| (Config.stepLtr.setWidth 96 <<< 20) |||
      (BitVec.ofNat 96 (num01 m.proc.bank) <<< 24) ||| (m.proc.fwver.setWidth 96 <<< 32)
    completeWith h c 0 r (toBytes Config.moduleId 8) m)) s

/-- FILTER_STATUS bits [8:6]: COPYFAIL_P, COPYFAIL_S, LOST. -/
def filterFlags (f : FilterSt) : Nat :=
  (if f.copyFailP then 1 else 0) + (if f.copyFailS then 2 else 0) + (if f.lost then 4 else 0)

/-- The bytes of HEALTH_READ in the order of R515 (sizes: log entry 19): rank health words of 4 B, DISABLED of 2 B, filter
bits of 1 B, trip record of 1 B. -/
def healthBytes (m : Mod) : List Byte :=
  ((List.finRange 8).map (fun p => ((List.range 4).map (fun r => toBytes (healthWord (m.packs[p] : PackSt) m.tb.now r) 4)).flatten)).flatten ++
    ((List.finRange 4).map (fun t => toBytes (m.slices[t] : Slice).disabled 2)).flatten ++
    (List.finRange 4).map (fun t => BitVec.ofNat 8 (filterFlags m.filters[t])) ++ [m.flash.trip]

/-- R515: HEALTH_READ. -/
def execHealthRead (h : AdminHdr) (s : State) : Res :=
  modStep (admin h 0x0002 true (fun c m => completeWith h c 0 0 (healthBytes m) m)) s

/-- The DATA of a summary (R517). -/
def summaryData (c : Coalesced) : Word64 :=
  c.kind.setWidth 64 ||| (c.key.setWidth 64 <<< 16) ||| (BitVec.ofNat 64 c.count <<< 24)

/-- An event entry (R341). -/
def evRaw (seq : Word32) (kind : BitVec 16) (sev : Nat) (frame loc : Word32) (data : Word64) (time : Word32) : RawEntry :=
  seq.setWidth 512 ||| (kind.setWidth 512 <<< 32) ||| (BitVec.ofNat 512 (sev % 256) <<< 48) ||| (frame.setWidth 512 <<< 64) |||
    (loc.setWidth 512 <<< 96) ||| (data.setWidth 512 <<< 128) ||| (time.setWidth 512 <<< 192)

/-- R517: every counter that is not zero, as its summary entry of 32 B would read, without clearing it (log entry 19). -/
def execEventCoalescedRead (h : AdminHdr) (s : State) : Res :=
  modStep (admin h 0x0003 true (fun c m =>
    let l := (m.ev.co.map (fun x => toBytes (evRaw 0 0xFFFF x.sev x.frame x.loc (summaryData x) x.time) 32)).flatten
    completeWith h c 0 0 l m)) s

/-- An opcode of no row of *Admin opcodes*: code 0xE0 (R515). -/
def execAdminUnknownOpcode (h : AdminHdr) (opcode : BitVec 16) (s : State) : Res :=
  modStep (fun m =>
    let c : AdminTag := { port := h.port, tag := h.tag, opcode := opcode }
    if spActive m then done c 0xE0 (started c m) else m) s

/-! ### Posting events (R342, R516) -/

/-- A port's event ring takes the next entry that it has not taken, when it has room. -/
def evTake (p : Port) (m : Mod) : Mod :=
  match eventRing m p with
  | none => m
  | some r =>
    if !ringRoom m p r then m
    else
      let taken (e : EvEntry) : Bool := match p with
        | .a => e.takenA
        | .b => e.takenB
      match m.ev.fifo.findIdx? (fun e => !taken e) with
      | none => m
      | some i =>
        let e := m.ev.fifo.getD i default
        let mark (e : EvEntry) : EvEntry := match p with
          | .a => { e with takenA := true }
          | .b => { e with takenB := true }
        let m := { m with ev := { m.ev with fifo := m.ev.fifo.modify i mark } }
        ringPost p r (evRaw e.seq e.kind e.sev e.frame e.loc e.data e.time) m

/-- Entries that every enabled event ring has taken leave, and a summary may take each free entry (R517). With no ring
enabled none leaves. -/
def evLeave (a b : Bool) : Nat → Events → Events
  | 0, ev => ev
  | k + 1, ev =>
    match ev.fifo with
    | [] => ev
    | e :: rest =>
      if (a || b) && (!a || e.takenA) && (!b || e.takenB) then evLeave a b k (evRefill { ev with fifo := rest }) else ev

/-- R516: one entry goes to each enabled event ring that has room for it. -/
def eventPost (m : Mod) : Mod :=
  let m := evTake .b (evTake .a m)
  { m with ev := evLeave (eventRing m .a).isSome (eventRing m .b).isSome m.ev.fifo.length m.ev }

def execEventPost (s : State) : Res := modStep eventPost s

/-! ### Flash (R504 to R512) -/

/-- A bank's image. -/
def bankOf (f : Flash) (b : Bool) : Option BankImage := if b then f.bank1 else f.bank0

/-- Replace a bank's image. -/
def setBank (b : Bool) (i : Option BankImage) (m : Mod) : Mod :=
  if b then { m with flash := { m.flash with bank1 := i } } else { m with flash := { m.flash with bank0 := i } }

/-- Why a bank's image does not verify (R506): 0 it does, else the reason code of the bank-fallback event. -/
def bankFault (f : Flash) (b : Bool) : Nat :=
  match bankOf f b with
  | none => 4
  | some i => if i.fault ≠ 0 then i.fault else if i.svn < f.minSvn then 3 else 0

/-- The image that a buffer spells (log entry 20). -/
def bankImage (l : List Byte) : BankImage where
  fault := 0
  svn := Config.bankNum 0 l
  fwver := BitVec.ofNat 32 (Config.bankNum 1 l)
  debug := Config.bankNum 2 l == 1
  kek := BitVec.ofNat 256 (Config.bankNum 3 l)
  srisA := Config.bankNum 4 l == 1
  srisB := Config.bankNum 5 l == 1
  metaWays := Config.bankNum 6 l
  sealR := Vector.ofFn (fun (t : Fin 4) =>
    ⟨Config.bankNum (8 + 4 * t.val) l, Config.bankNum (9 + 4 * t.val) l, Config.bankNum (10 + 4 * t.val) l, Config.bankNum (11 + 4 * t.val) l⟩)
  elastic := Vector.ofFn (fun (t : Fin 4) => (List.range 6).map (fun i => Config.bankNum (24 + 6 * t.val + i) l))
  tierPar := (List.range 4).map (fun i => Config.bankNum (48 + i) l)
  runtimeLoad := Config.bankNum 52 l == 1
  wdtMs := Config.bankNum 53 l
  regions := Config.bankRegions l
  imageSet := Config.bankSet l

/-- Whether a flash command runs. -/
def flashRuns (m : Mod) : Bool := m.proc.flashBusy.isSome || m.parked.any (fun x => workObj x.work == (11, 0))

/-- R510: the buffer of an update has been read: the bank's writes are counted, and it is no longer valid. -/
def flashUpdate (c : AdminTag) (b : Bool) (src : Option (List Byte)) (m : Mod) : Mod :=
  match src with
  | none => done c 0xE1 m
  | some l =>
    let m := setBank b none m
    let f := m.flash
    let f := if b then { f with wcount1 := f.wcount1 + 1 } else { f with wcount0 := f.wcount0 + 1 }
    { m with flash := f, proc := { m.proc with flashBusy := some ⟨c, b, bankImage l⟩ } }

/-- R510: FLASH_UPDATE. A buffer that fails R164 or returns poison gives 0xE1 (log entry 20). -/
def execFlashUpdate (h : AdminHdr) (bank : Nat) (w : BitVec 64) (len : Nat) (s : State) : Res :=
  modStep (admin h 0x0101 (bank ≤ 1 && len ≤ 48 * 2 ^ 20) (fun c m =>
    let b := bank == 1
    let wc := if b then m.flash.wcount1 else m.flash.wcount0
    if !m.proc.recovery && b == m.proc.bank then done c 0xB1 m
    else if 20000 ≤ wc then done c 0xB3 m
    else if flashRuns m then done c 0xB7 m
    else withSource h c (.flashUpdate b w len) w len (flashUpdate c b) m)) s

/-- R510: the update ends: 0 read back without error, 1 wrong key digest or signature, 2 SVN below MIN_SVN, 3 program or
read-back error. -/
def execFlashUpdateEnd (result : Fin 4) (s : State) : Res :=
  modStep (fun m =>
    match m.proc.flashBusy with
    | none => m
    | some x =>
      let m := { m with proc := { m.proc with flashBusy := none } }
      if result = 3 then done x.cmd 0xB5 m
      else if result = 1 then done x.cmd 0xB2 m
      else if result = 2 || x.image.svn < m.flash.minSvn then done x.cmd 0xB4 m
      else done x.cmd 0xB0 (setBank x.bank (some x.image) m)) s

/-- R511: FLASH_SELECT. -/
def execFlashSelect (h : AdminHdr) (bank : Nat) (s : State) : Res :=
  modStep (admin h 0x0102 (bank ≤ 1) (fun c m =>
    let b := bank == 1
    if bankFault m.flash b ≠ 0 then done c 0xB2 m
    else done c 0xB0 { m with flash := { m.flash with select := b } })) s

/-- R512: FLASH_READ. -/
def execFlashRead (h : AdminHdr) (offset len : Nat) (s : State) : Res :=
  modStep (admin h 0x0103 (len ≤ 65536 && offset + len ≤ 2 ^ 27) (fun c m =>
    let hits (b : Nat) : Bool := offset < (Config.bootCfg b).1 + (Config.bootCfg b).2 && (Config.bootCfg b).1 < offset + len
    if hits 0 || hits 1 then done c 0xB6 m
    else
      let l := (List.range len).map (fun i => Config.flashByte m.free (offset + i))
      completeWith h c 0xB0 0 l { m with free := m.free + 1 })) s

/-- R511: SVN_RAISE. -/
def execSvnRaise (h : AdminHdr) (s : State) : Res :=
  modStep (admin h 0x0104 true (fun c m => done c 0xB0 { m with flash := { m.flash with minSvn := m.proc.svn } })) s

/-! ### Oscillators (R36 to R38, R525) -/

/-- Whether an oscillator is marked failed; false OSC0. -/
def oscFailed (m : Mod) (o : Bool) : Bool := if o then m.tb.fail1 else m.tb.fail0

/-- Mark an oscillator, and note it in the health record. -/
def setOscFail (o v : Bool) (m : Mod) : Mod :=
  let rest := m.flash.oscFail.filter (· != o)
  let m := { m with flash := { m.flash with oscFail := if v then o :: rest else rest } }
  if o then { m with tb := { m.tb with fail1 := v } } else { m with tb := { m.tb with fail0 := v } }

/-- R38: both oscillators have failed: the frame ends, packs in self-refresh, viral on both ports, fatal event. -/
def timebaseLost (m : Mod) : Mod :=
  if m.tb.lost then m
  else event 0x0107 0 0 (setViral (stopFrame { m with tb := { m.tb with lost := true } }))

/-- A switch ends an OSC_TEST with 0xC4 (R525). -/
def oscTestAbort (m : Mod) : Mod :=
  match m.tb.test with
  | none => m
  | some (c, _) => done c 0xC4 { m with tb := { m.tb with test := none } }

/-- R36: the timebase switches to the twin; `cmp`: the cause was the slow-oscillator compare. A twin that is marked failed
is not switched to, and the failure is that of both (R525). -/
def execOscillatorSwitch (cmp : Bool) (s : State) : Res :=
  modStep (fun m =>
    let o := !m.tb.osc1
    if m.tb.lost then m
    else
      let m := oscTestAbort m
      if oscFailed m o then timebaseLost m
      else event 0x0105 0 (num01 o + (if cmp then 2 else 0)) { m with tb := { m.tb with osc1 := o } }) s

/-- R37: the oscillators differ by more than 200 ppm. -/
def execOscillatorWarning (ppm : Nat) (s : State) : Res :=
  modStep (fun m => if 200 < ppm ∧ m.tb.lost = false then event 0x0106 0 (min ppm 0xFFFF) m else m) s

/-- R38: both oscillators have failed. -/
def execOscillatorLost (s : State) : Res := modStep (fun m => timebaseLost (oscTestAbort m)) s

/-- R525: OSC_TEST. -/
def execOscTest (h : AdminHdr) (osc : Nat) (s : State) : Res :=
  modStep (admin h 0x0005 (osc ≤ 1) (fun c m =>
    let o := osc == 1
    if m.tb.test.isSome then done c 0xC3 m
    else if o == m.tb.osc1 then done c 0xC2 m
    else { m with tb := { m.tb with test := some (c, o) } })) s

/-- R525: the count of edges ends. -/
def execOscTestEnd (pass : Bool) (s : State) : Res :=
  modStep (fun m =>
    match m.tb.test with
    | none => m
    | some (c, o) =>
      let m := setOscFail o (!pass) { m with tb := { m.tb with test := none } }
      if pass then done c 0x00 m else complete c 0xC1 0 (BitVec.ofNat 96 (num01 o)) m) s

/-- Whether an island is held in reset (R35), islands counted from 0 in the order of *Clocked islands and their crossings* (log entry
125): PHY macros and sequencers while boot code holds the packs in reset (R466), a port's receive halves, link layer and transmit under
its PERST_N, the gangline's three with GANG_EN strapped off. -/
def islandHeld (m : Mod) (i : Nat) : Bool :=
  if i < 44 then m.therm.hold
  else if i < 45 then false
  else if i < 49 then (if i < 47 then m.ports.a.inReset else m.ports.b.inReset)
  else if i < 53 then (if i % 2 = 1 then m.ports.a.inReset else m.ports.b.inReset)
  else if i < 56 then !m.conn.gangEn
  else false

/-- R35: a transfer meets the crossing of an island. One held in reset outranks it: its beat is discarded, and the station answers the
sender with an island-down response. -/
def execIslandDownResponse (island : Fin 60) (s : State) : Res :=
  modStep (fun m => if islandHeld m island.val then send (.islandDown island.val) m else m) s

end Sys2Proof.Machine
end

