-- ==== Sys2Proof/Machine/Boot.lean ====
section
/-! DEFINITION. Machine/Boot.lean: boot code (R52, R127, R253, R466, R484, R508, R509) and the end of the fill frame (R69). -/
namespace Sys2Proof.Machine

/-- The trip record that the front end keeps, in the bits of PWR_ERR (R484). -/
def tripBits (f : FrontEnd) : BitVec 8 :=
  let c : Nat := match f.lastTrip with
    | none => 0
    | some .timer => 1
    | some .short => 2
    | some .fethot => 4
    | some .precharge => 8
    | some .window => 16
  BitVec.ofNat 8 (c + (if f.sawOv then 64 else 0) + (if f.sawUv then 128 else 0))

/-- Boot code copies the trip record into PWR_ERR and raises a power-trip event with its cause (R484). -/
def bootTrip (f : FrontEnd) (m : Mod) : Mod :=
  let b := tripBits f
  let m := { m with power := { m.power with pwrErr := b } }
  if f.lastTrip.isNone then m else event 0x0C07 0 b.toNat { m with flash := { m.flash with trip := b } }

/-- Boot step 3 (R507, R508): the bank to run, or `none`; the event of a bank that fails. -/
def bootBank (m : Mod) : Option Bool × Mod :=
  let f := m.flash
  let b := f.select
  if bankFault f b = 0 then (some b, m)
  else
    let m := event 0x0D05 0 (num01 b + 2 * bankFault f b) m
    (if bankFault f (!b) = 0 then some (!b) else none, m)

/-- The health record reapplied (R52, R213, R246, R498, R525). -/
def bootHealth (m : Mod) : Mod :=
  let f := m.flash
  let put (i : Fin 8) (p : PackSt) : PackSt :=
    { p with dieMarks := (f.dieMarks.filter (fun d => d.1 == i.val)).map (fun d => (d.2.1, d.2.2)),
             chMarks := (f.chMarks.filter (fun c => c.1 == i.val)).map (·.2) }
  let ways (t : Tile) : BitVec 16 := (f.ways.filter (fun w => w.1 == t.val)).foldl (fun b w => putBit b w.2 true) 0
  let bad (t : Tile) (c : Bool) : Bool := f.copyFail.contains (t.val, c)
  let m := { m with packs := Vector.ofFn (fun i => put i m.packs[i]) }
  let m := { m with slices := Vector.ofFn (fun t => { (m.slices[t] : Slice) with disabled := ways t }) }
  let m := { m with filters := Vector.ofFn (fun t => { (m.filters[t] : FilterSt) with copyFailP := bad t false, copyFailS := bad t true }) }
  { m with tb := { m.tb with fail0 := f.oscFail.contains false, fail1 := f.oscFail.contains true } }

/-- The core that is active after boot: SP0 unless the health record marks it failed (R498). -/
def bootCores (m : Mod) : Mod :=
  let f0 := m.flash.coreFail.contains 0
  let f1 := m.flash.coreFail.contains 1
  let p := m.proc
  let p := { p with sp1Active := f0 && !f1, sp0 := if f0 then .failed else .active,
                    sp1 := if f1 then .failed else if f0 then .active else .standby, kickAt := m.tb.now }
  let m := { m with proc := p }
  if f0 && f1 then event 0x0D04 0 0 m else m

/-- The tier set-up of a tile from the boot image (R289, R298); the two working frames are the pool's first (R291). -/
def bootTier (i : BankImage) (t : Tile) (ts : TierSt) : TierSt :=
  let e : List Nat := i.elastic[t]
  let ts := { ts with poolBase := e.getD 0 0, poolSize := e.getD 1 0, elBase := e.getD 2 0, elGran := e.getD 3 0, tmapBase := e.getD 4 0, shift := e.getD 5 4 }
  let p := i.tierPar
  let ts := { ts with sweepMs := p.getD 0 1000, demoteAge := p.getD 1 8, promoteReads := p.getD 2 4, fullMax := p.getD 3 12 }
  { ts with working := if ts.poolSize = 0 then [] else [poolFirst ts, poolFirst ts + 1] }

/-- Key store and configuration of the running image (R202, R262, R273, R289, R501, R505). -/
def bootConfig (b : Bool) (i : BankImage) (m : Mod) : Mod :=
  let seals := i.sealR.map (fun (s : SealRange) => { s with metaGran := metaGranules s })
  let m := { m with tiers := Vector.ofFn (fun t => bootTier i t m.tiers[t]) }
  let m := { m with prot := { m.prot with kek := i.kek, sealR := seals } }
  let m := { m with sched := { m.sched with runtimeLoad := i.runtimeLoad } }
  let port (s : Bool) (q : PortSt) : PortSt := { q with sris := s }
  let m := onPort .b (port i.srisB) (onPort .a (port i.srisA) m)
  { m with proc := { m.proc with bank := b, debug := i.debug, fwver := i.fwver, svn := i.svn, wdtMs := i.wdtMs } }

/-- The region table is loaded when every check passes, and locked in any case (R253, R254). -/
def bootRegions (i : BankImage) (m : Mod) : Mod :=
  let lock (l : List (BitVec 128)) (m : Mod) : Mod := { m with prot := { m.prot with regions := l, locked := true } }
  match tableCheck i.regions m.prot.sealR m.tiers m.conn.gangEn with
  | none => lock i.regions m
  | some (e, c) => event 0x0104 0 (2 + c * 16 + e * 4096) (lock [] m)

/-- METAWAYS of a boot image or protection block with this region table (R202): 0 to 4; any other value leaves the default. -/
def metaWaysOf (n : Nat) (l : List (BitVec 128)) : Nat :=
  if n ≤ 4 then n else if l.any (fun r => rgValid r && (rgCrypt r == 1 || rgCrypt r == 2 || rgElastic r)) then 2 else 0

/-- METAWAYS in force in every slice (R202). -/
def setMetaWays (n : Nat) (m : Mod) : Mod := { m with slices := m.slices.map (fun (s : Slice) => { s with metaWays := n }) }

/-- The image set that boot code loads (R127): that of the active bank, else that of the other, else the set in ROM. -/
def bootImage (b : Bool) (m : Mod) : Mod :=
  let bytes (b : Bool) : List Byte := (bankOf m.flash b).elim [] (·.imageSet)
  let fail (b : Bool) : Option LoadFail := loadChecks (trainedRegs m) (bytes b) (bytes b).length
  let start (s : ImageSet) (m : Mod) : Mod :=
    let v := chooseVariant s (bandInForce m) m.therm.throttle
    { m with sched := { m.sched with active := s, variant := v.1, subst := v.2 } }
  match fail b, fail (!b) with
  | none, _ => start (parseImage (bytes b)) m
  | some _, none => start (parseImage (bytes (!b))) m
  | some x, some y => event 0x0104 0 (1 + x.code * 16 + y.code * 2 ^ 20) (start romSet m)

/-- The end of boot (R508): the gangline, where the straps enable it, begins to train (R423), the slices sweep (R209), the
CDAT is filled in (R181), and the fill frame begins in every tile. Without a timebase no frame runs (R38). -/
def bootFinish (m : Mod) : Mod :=
  let m := if m.gang.link = 1 then { m with gang := { m.gang with link := 2 } } else m
  let m := (List.finRange 4).foldl (fun m t => passCheck t m) m
  let m := beginSweep { m with proc := { m.proc with bootDone := true, cdat := m.sched.active }, filling := 15 }
  { m with sched := { m.sched with running := !m.tb.lost, frameStart := m.tb.now } }

/-- What boot code does, in the order of *Boot steps*. -/
def boot (f : FrontEnd) (m : Mod) : Mod :=
  let (b?, m) := bootBank (bootCores (bootTrip f m))
  let m := trainPacks (List.finRange 8) (bootHealth m)
  let m := match b? with
    | some b =>
      let i := (bankOf m.flash b).getD default
      bootImage b (setMetaWays (metaWaysOf i.metaWays i.regions) (bootRegions i (bootConfig b i m)))
    | none => event 0x0D06 0 0 { m with proc := { m.proc with recovery := true }, prot := { m.prot with locked := true } }
  bootFinish m

/-- R508: boot code finishes. While it holds the packs in reset for heat (R466), it does not. -/
def execBootDone (s : State) : Res :=
  .next (if !s.fe.powered || s.m.proc.bootDone || s.m.therm.hold then s
    else { s with m := boot s.fe s.m, fe := { s.fe with lastTrip := none, sawOv := false, sawUv := false } })

/-- The fill frame has written every batt of a tile with zeros (R69): with them go the records of poison, the tier map
(R292), and the root array (R276); the patrol starts anew (R65). PLFULL stays (R74). -/
def fillTile (t : Tile) (m : Mod) : Mod :=
  let clean (p : PackSt) : PackSt := { p with markers := [], poisonList := [], poisonPend := [], patrol := [], selfRefresh := false }
  let lo : Pack := ⟨2 * t.val, by omega⟩
  let hi : Pack := ⟨2 * t.val + 1, by omega⟩
  let m := onPack hi clean (onPack lo clean { m with mem := memZero m.mem (t.val * 2 ^ 39) (2 ^ 39) })
  let m := { m with prot := { m.prot with roots := Vector.ofFn (fun (i : Fin 32) => if i.val / 8 = t.val then 0 else m.prot.roots[i]) } }
  onTier t (fun ts => { ts with tmap := [], fills := [], moves := [], reserved := [], poisoned := 0 }) m

/-- A tile's fill frame ends: the tile becomes ready, and runs slots from the next frame boundary on (R108); the last one sets
Memory_Active (R178). -/
def fillOver (t : Tile) (m : Mod) : Mod :=
  let m := fillTile t m
  let m := if m.sched.running then { m with sched := { m.sched with joining := putBit m.sched.joining t.val true } } else m
  let m := { m with filling := putBit m.filling t.val false, power := { m.power with ready := putBit m.power.ready t.val true } }
  if m.filling = 0 then { m with ports := m.ports.map (fun _ q => { q with memActive := true }) } else m

/-- R69: a tile's fill frame ends. In phase 4 of an exit from Deep sleep none runs yet (R492). -/
def execFillEnd (tile : Tile) (s : State) : Res :=
  modStep (fun m => if !m.filling.getLsbD tile.val || m.tb.lost || (m.power.last == 3 && m.power.phase == 4) then m else releaseHeld (fillOver tile m)) s

/-- R466: one thermal-hold event per second while boot code waits for the temperatures to fall. -/
def execThermalHoldTick (s : State) : Res :=
  modStep (fun m =>
    if m.therm.hold ∧ m.proc.bootDone = false then
      event 0x0C05 0 ((BitVec.ofInt 16 m.therm.dramT).toNat + (BitVec.ofInt 16 m.therm.dieT).toNat * 2 ^ 16) m
    else m) s

end Sys2Proof.Machine
end

