-- ==== Sys2Proof/Machine/TierCmds.lean ====
section
/-! DEFINITION. Machine/TierCmds.lean: sweeps and moves of the tier engine (R299 to R301), trims (R305), tier and fuller
commands (R315 to R319). -/
namespace Sys2Proof.Machine

/-! ### Pages -/

/-- Logical offset of a page of a tile's elastic window. -/
def pageOff (ts : TierSt) (q : Nat) : Nat := (16384 * ts.elBase + q) * 4096

/-- The region of a page. -/
def pageRegion (m : Mod) (t : Tile) (q : Nat) : Option (BitVec 128) := regionOf m (pageOff m.tiers[t] q)

/-- What is in service or waits in the slice for a line of a page: misses, and requests for its lines. -/
def pageBusy (m : Mod) (t : Tile) (q : Nat) : Bool :=
  let page := pageOff m.tiers[t] q / 4096
  let s : Slice := m.slices[t]
  s.misses.any (fun x => x.space == 0 && x.addr / 4096 == page) ||
    (s.lineWait ++ s.missWait).any (fun r => wAper r.w == 0 && wOff r.w / 4096 == page)

/-- Trim one page (R301, R305): host copies are recalled and their data discarded, lines dropped, moves abandoned, the entry
zero. -/
def trimPage (t : Tile) (q : Nat) (m : Mod) : Mod :=
  let base := pageOff m.tiers[t] q
  let recalls (m : Mod) (i : Nat) : Mod := match findEnt m.filters[t] (base / 64 + i) with
    | some e => recallEnt t e (.recalls true) m
    | none => m
  let m := (List.range 64).foldl recalls m
  let inPage (space : BitVec 2) (a : Nat) : Bool := space == 0 && a / 4096 == base / 4096
  let m := onSlice t (fun s => { s with lines := s.lines.filter (fun l => !inPage l.space (lineAddr l)),
                                        transits := s.transits.filter (fun x => !(inPage x.space x.addr)),
                                        wholes := s.wholes.filter (fun x => !(inPage x.1 x.2.1)) }) m
  let m := ((m.tiers[t] : TierSt).moves.filter (fun v => v.page == q)).foldl (fun m v => dropMove t v m) m
  capHeel t (tePut t q 0 m)

/-! ### Shared frames -/

/-- Batts in use in a shared frame. -/
def frameFill (ts : TierSt) (f : Nat) : Nat := (((sharedUse ts).filter (fun u => u.1 == f)).map (·.2.2)).sum

/-- The first gap of `n` batts in a shared frame: no page and no move has them, and no request is on its way to them (R300). -/
def frameGap (m : Mod) (t : Tile) (f n : Nat) : Option Nat :=
  let used := (sharedUse m.tiers[t]).filter (fun u => u.1 == f)
  let busy := busyBatts m t
  (List.range 16).find? (fun s => s + n ≤ 16 && used.all (fun u => u.2.1 + u.2.2 ≤ s || s + n ≤ u.2.1) &&
    (List.range n).all (fun i => !busy.contains (frameDa t.val f + 256 * (s + i))))

/-- A place for `n` batts in a shared frame of the tile that is none of `skip`. -/
def sharedPlace (m : Mod) (t : Tile) (skip : List Nat) (n : Nat) : Option (Nat × Nat) :=
  (sharedFrames m.tiers[t]).findSome? (fun f => if skip.contains f then none else (frameGap m t f n).map (fun s => (f, s)))

/-! ### Moves under way (R299, R300) -/

/-- The move of a page that is under way: its first. -/
def moveOf (m : Mod) (t : Tile) (q : Nat) : Option Move := (m.tiers[t] : TierSt).moves.find? (fun v => v.page == q)

/-- The batts that a move reads. -/
def moveReads (m : Mod) (t : Tile) (v : Move) : List Nat :=
  let e := teGet m t v.page
  match v.kind with
  | .backing => []
  | .demotion => (List.range 16).map (fun i => frameDa t.val (teFrame e) + 256 * i)
  | .promotion | .compaction => (List.range (teLen e)).map (fun i => frameDa t.val (teFrame e) + 256 * (teStart e + i))

/-- The batts of a move's new place. -/
def moveGoal (t : Tile) (v : Move) : List Nat :=
  (List.range (if v.len = 0 then 16 else v.len)).map (fun i => frameDa t.val v.frame + 256 * (v.start + i))

/-- The kind of a move's TIER requests (R416). -/
def moveKind (k : MoveKind) : Nat := if k == .promotion || k == .backing then 1 else 0

/-- The metadata that the reads of a move wait for. -/
def moveNeeds (m : Mod) (r : BitVec 128) (das : List Nat) : List (Nat × Nat) :=
  (das.flatMap (fun da => sealNeeds m (rgCrypt r) da false)).eraseDups

/-- A move asks for what it lacks: a fuller, and, once one runs it, its batts and their metadata. -/
def moveAsk (t : Tile) (r : BitVec 128) (v : Move) (m : Mod) : Mod :=
  let own : Owner := .page t v.page
  let w : FullWork := .move t v.page
  let m := if needsFuller v.kind && (fullerOf m w).isNone then (fullerFor m t.val).elim m (fun f => fullerGive f w m) else m
  if v.todo.isSome || needsFuller v.kind && (fullerRuns m w).isNone then m
  else
    let das := moveReads m t v
    wantMeta own (moveNeeds m r das) (das.foldl (wantBatt own .tier (moveKind v.kind) 0) m)

/-- Whether everything that a move reads is here, and a fuller runs it. -/
def moveHere (m : Mod) (t : Tile) (r : BitVec 128) (v : Move) : Bool :=
  let das := moveReads m t v
  -- the frame of a promotion or backing has no request of its old use on the way (R300)
  let free := !(v.kind == .promotion || v.kind == .backing) || !(busyFrames m t).contains v.frame
  v.todo.isNone && free && (!needsFuller v.kind || (fullerRuns m (.move t v.page)).isSome) && das.all (atHand m) && (moveNeeds m r das).isEmpty &&
    das.all (fun da => rgCrypt r == 0 || !resealing m da)

/-- Start a move of the engine's own, under a key id of its own; not while that serves no access (R264). -/
def startMove (t : Tile) (r : BitVec 128) (v : Move) (m : Mod) : Mod :=
  if keyServes m (engineKey r) then moveAsk t r v (addMove t v (touch m)) else m

/-! ### The sweep (R299) -/

/-- The ageing of one entry. -/
def ageEntry (e : Word64) : Word64 :=
  if teState e = 0 then e
  else if teAcc e then putBits (putBit e 37 false) 38 (0#4) else putBits e 38 (BitVec.ofNat 4 (min 15 (teAge e + 1)))

/-- Whether a demotion skips a page: a line dirty in the slice, or marked present in the filter. -/
def pageTouched (m : Mod) (t : Tile) (q : Nat) : Bool :=
  let base := pageOff m.tiers[t] q
  let s : Slice := m.slices[t]
  s.lines.any (fun l => l.space == 0 && lineAddr l / 4096 == base / 4096 && l.sdirty != 0) ||
    s.transits.any (fun x => x.space == 0 && x.addr / 4096 == base / 4096) ||
    (m.filters[t] : FilterSt).entries.any (fun e => entLine e / 64 == base / 4096)

/-- A move of a page with nothing known of its new place but, for a promotion, the reserved frame. -/
def newMove (q : Nat) (kind : MoveKind) (key : BitVec 6) (frame : Nat) : Move where
  page := q
  kind := kind
  key := key
  frame := frame
  start := 0
  len := 0
  todo := none

/-- Promote a page on its reads: a frame is reserved as for a write. -/
def startPromote (t : Tile) (r : BitVec 128) (q : Nat) (m : Mod) : Mod :=
  match findFrame m t with
  | none => m
  | some f =>
    if !keyServes m (engineKey r) then m
    else capHeel t (startMove t r (newMove q .promotion (engineKey r) f) (onTier t (fun ts => { ts with reserved := ts.reserved ++ [(q, f)] }) m))

/-- The emptiest shared frames that a compaction frees: as few as bring the unused batts down to 1/8. -/
def compactFrames (ts : TierSt) : List Nat :=
  let fs := (sharedFrames ts).insertionSort (fun f g => frameFill ts f ≤ frameFill ts g)
  let used := (fs.map (frameFill ts)).sum
  let n := fs.length
  fs.take (((List.range n).find? (fun k => 8 * (16 * (n - k) - used) ≤ 16 * (n - k))).getD n)

/-- Compact: the pages of the emptiest shared frames move into others, when more than 1/8 of the batts are unused. -/
def startCompact (t : Tile) (m : Mod) : Mod :=
  let fs := compactFrames m.tiers[t]
  fs.foldl (fun m f =>
    let pages := ((m.tiers[t] : TierSt).tmap.filter (fun e => teState e.2 == 2 && teFrame e.2 == f)).map (·.1)
    pages.foldl (fun m q =>
      let n := teLen (teGet m t q)
      if pageMoving m.tiers[t] q || teBad m t q then m
      else match pageRegion m t q, sharedPlace m t fs n with
        | some r, some (g, s) => startMove t r { newMove q .compaction (engineKey r) g with start := s, len := n } m
        | _, _ => m) m) m

/-- One page's triggers in the order of *Migration triggers*. -/
def sweepPage (t : Tile) (q : Nat) (m : Mod) : Mod :=
  let ts : TierSt := m.tiers[t]
  let e := teGet m t q
  if pageMoving ts q || teBad m t q then m
  else match pageRegion m t q with
    | none => m
    | some r =>
      if teState e = 2 then
        if ts.promoteReads ≠ 0 ∧ ts.promoteReads ≤ tabGet 0 ts.fills q ∧ reserveV ts ≤ freeFrames ts then startPromote t r q m else m
      else if teState e = 1 ∧ rgFullable r ∧ teIncomp e = false ∧ ts.bypass = false ∧
          (ts.demoteAge ≤ teAge e ∨ (ts.heel = true ∧ 1 ≤ teAge e)) ∧ pageTouched m t q = false then
        startMove t r (newMove q .demotion (engineKey r) 0) m
      else m

/-- The sweep of the 32 pages of one tier-map batt, which is at hand. -/
def sweepBatt (t : Tile) (g : Nat) (m : Mod) : Mod :=
  let q0 := 32 * g
  let m := teUse t q0 m
  let aged (e : Nat × Word64) : Nat × Word64 := if e.1 / 32 = g then (e.1, ageEntry e.2) else e
  let m := tmapPut t q0 (onTier t (fun ts => { ts with tmap := ts.tmap.map aged }) m)
  let qs := ((m.tiers[t] : TierSt).tmap.filter (fun e => e.1 / 32 == g && teState e.2 != 0)).map (·.1)
  dropHere (.tmap t g) (qs.foldl (fun m q => sweepPage t q m) m)

/-- The end of a sweep: compaction, and the fills of the next sweep are counted from 0. -/
def sweepOver (t : Tile) (m : Mod) : Mod :=
  let m := if (m.tiers[t] : TierSt).bypass then m else startCompact t m
  onTier t (fun ts => { ts with fills := [] }) m

/-- A sweep goes on through the tier-map batts that are at hand; the next one is asked for. The number bounds the batts. -/
def sweepGo : Nat → Tile → Mod → Mod
  | 0, _, m => m
  | k + 1, t, m =>
    match (m.tiers[t] : TierSt).sweep with
    | [] => m
    | g :: rest =>
      if m.prot.stop.isSome || m.therm.critical then onTier t (fun ts => { ts with sweep := [] }) m
      else if !teHere m t (32 * g) then wantTmap (.tmap t g) t (32 * g) m
      else
        let m := onTier t (fun ts => { ts with sweep := rest }) m
        let m := if teBad m t (32 * g) then m else sweepBatt t g m
        if rest.isEmpty then sweepOver t m else sweepGo k t m

/-- A parameter of *Tier parameters* takes a new value (R298). -/
def setParam (x : Nat × Nat) (ts : TierSt) : TierSt :=
  match x.1 with
  | 0 => { ts with sweepMs := x.2 }
  | 1 => { ts with demoteAge := x.2 }
  | 2 => { ts with promoteReads := x.2 }
  | _ => { ts with fullMax := x.2 }

/-- What TIER_SET has set takes effect. -/
def takeParams (ts : TierSt) : TierSt := { ts.setNext.foldl (fun ts x => setParam x ts) ts with setNext := [] }

/-- R299: a sweep of a tile starts: of every tier-map batt with a backed page. One that finds an earlier sweep under way joins
it. -/
def tierSweep (t : Tile) (m : Mod) : Mod :=
  if m.prot.stop.isSome || m.therm.critical then m
  else
    let m := if (m.tiers[t] : TierSt).sweep.isEmpty then onTier t takeParams m else m
    let gs := (((m.tiers[t] : TierSt).tmap.filter (fun e => teState e.2 != 0)).map (fun e => e.1 / 32)).eraseDups
    if gs.isEmpty then onTier t (fun ts => { ts with fills := [] }) m
    else
      let m := onTier t (fun ts => { ts with sweep := (ts.sweep ++ gs).eraseDups }) m
      sweepGo (m.tiers[t] : TierSt).sweep.length t m

def execTierSweep (tile : Tile) (s : State) : Res := modStep (tierSweep tile) s

/-! ### The end of a move (R300, R301) -/

/-- The bytes of a page or a stored page as batts for consecutive places. -/
def placed (goal : List Nat) (l : List Byte) : List (Nat × Batt) :=
  goal.mapIdx (fun i da => (da, ofBytes 2048 ((l.drop (256 * i)).take 256)))

/-- The stored batts of a fulled page do not give back the page on either fuller (R297): the event of the page. -/
def pageCheckEvent (t : Tile) (e : Word64) (f : FullerNo) (m : Mod) : Mod :=
  let da := frameDa t.val (teFrame e) + 256 * teStart e
  event 0x0601 (locBatt da) (da % 2 ^ 41 + teLen e * 2 ^ 41 + f.val * 2 ^ 45) m

/-- A move of a page with its new place and its batts known. -/
def setMove (t : Tile) (v w : Move) (m : Mod) : Mod :=
  onTier t (fun ts => { ts with moves := ts.moves.map (fun x => if x == v then w else x) }) m

/-- The place of `n` batts that a demotion stores: in a shared frame, or in a working frame that thereby becomes one. -/
def demotePlace (t : Tile) (n : Nat) (m : Mod) : Option (Nat × Nat × Mod) :=
  match sharedPlace m t [] n with
  | some (f, s) => some (f, s, m)
  | none =>
    let ok (f : Nat) : Bool := !(busyFrames m t).contains f
    match (m.tiers[t] : TierSt).working.find? ok with
    | some f => some (f, 0, onTier t (fun ts => { ts with working := ts.working.filter (· != f) }) m)
    | none => none

/-- What compressing a page comes to, once the page is read (steps 3 to 5 of a demotion). -/
def demoteNow (t : Tile) (v : Move) (l : List Byte) (m : Mod) : Mod :=
  let e := teGet m t v.page
  if l.all (· == 0) then freeFrame t (teFrame e) (tePut t v.page (tePlace e 0 0 0 0) (dropMove t v m))
  else match fullPage l with
    | none => tePut t v.page (putBit e 42 true) (dropMove t v m)
    | some st =>
      let n := st.length / 256
      if (m.tiers[t] : TierSt).fullMax < n then tePut t v.page (putBit e 42 true) (dropMove t v m)
      else match demotePlace t n m with
        | none => m
        | some (f, s, m) =>
          let w : Move := { v with frame := f, start := s, len := n }
          setMove t v { w with todo := some (placed (moveGoal t w) st) } m

/-- R308: the page of a demotion has been compressed. `bad1`, `bad2`: its self-verification failed on the fuller that runs it, and
on the other. A mismatch that both confirm ends the demotion (log entry 114). -/
def demoteCheck (t : Tile) (v : Move) (bad1 bad2 : Bool) (l : List Byte) (m : Mod) : Mod :=
  match bad1, bad2, fullerRuns m (.move t v.page) with
  | true, true, _ => dropMove t v m
  | true, false, some f => handOver f (fullerMismatch f (demoteNow t v l m))
  | _, _, _ => demoteNow t v l m

/-- R297: the stored batts of a promotion have been decompressed; `bad1`, `bad2` as for a fill. -/
def promoteCheck (t : Tile) (v : Move) (bad1 bad2 : Bool) (l : List Byte) (m : Mod) : Mod :=
  let f := fullerRuns m (.move t v.page)
  match unfullPage l, bad1 && bad2 with
  | some p, false =>
    let m := setMove t v { v with todo := some (placed (moveGoal t v) p) } m
    if bad1 then f.elim m (fun f => handOver f (fullerMismatch f m)) else m
  | _, _ => dropMove t v (pageCheckEvent t (teGet m t v.page) (f.getD 0) m)

/-- What a move computes from what it has read; an uncorrectable batt abandons it (R76), and a failing check stops the module
(R285). -/
def moveWork (t : Tile) (r : BitVec 128) (v : Move) (bad1 bad2 : Bool) (m : Mod) : Mod :=
  if v.kind == .backing then setMove t v { v with todo := some (placed (moveGoal t v) (List.replicate 4096 0)) } m
  else
    let das := moveReads m t v
    match readStored m r v.key (das.headD 0) das.length with
    | (.stop c lv da, _) => integrityStop c lv false da v.key.toNat m
    | (.poison, _) => dropMove t v m
    | (.ok _, l) =>
      let m := metaUsed r das m
      if v.kind == .demotion then demoteCheck t v bad1 bad2 l m
      else if v.kind == .promotion then promoteCheck t v bad1 bad2 l m
      else setMove t v { v with todo := some (placed (moveGoal t v) l) } m

/-- Hand the batts of a move's new place to the write buffer, one by one as their metadata is at hand (R279); those that are
left. -/
def handMove (t : Tile) (r : BitVec 128) (v : Move) : List (Nat × Batt) → Mod → List (Nat × Batt) × Mod
  | [], m => ([], m)
  | (da, b) :: rest, m =>
    let x := storeReady (.page t v.page) (rgCrypt r) da m
    if x.1 then handMove t r v rest (storeBatt .tier (moveKind v.kind) 0 r v.key da b false x.2) else ((da, b) :: rest, x.2)

/-- The page of a move that has ended takes its new place, and the space of its old one is free. -/
def moveDone (t : Tile) (v : Move) (m : Mod) : Mod :=
  let e := teGet m t v.page
  let put (state len start : Nat) (m : Mod) : Mod := tePut t v.page (tePlace e state len start v.frame) m
  let m := match v.kind with
    | .backing | .promotion => dropMove t v (put 1 0 0 m)
    | .demotion => freeFrame t (teFrame e) (dropMove t v (put 2 v.len v.start m))
    | .compaction => dropMove t v (put 2 v.len v.start m)
  wakeTile t (capHeel t m)

/-- A move whose batts are known goes on: they go to the write buffer, and once it has the last one the entry changes (R300). -/
def moveGo (t : Tile) (r : BitVec 128) (q : Nat) (m : Mod) : Mod :=
  match moveOf m t q with
  | none => m
  | some v => match v.todo with
    | none => moveAsk t r v m
    | some l =>
      let x := handMove t r v l m
      let v' : Move := { v with todo := some x.1 }
      let m := setMove t v v' x.2
      let waits := (m.wbWait[t] : List WEntry)
      if !x.1.isEmpty || (moveGoal t v').any (fun da => waits.any (fun e => e.da == da)) then m
      else if !teHere m t q then wantTmap (.page t q) t q m
      else moveDone t v' m

/-- R300: a move of a page ends, once its batts and their metadata are here and its fuller runs it. -/
def tierMoveEnd (t : Tile) (q : Nat) (bad1 bad2 : Bool) (m : Mod) : Mod :=
  match moveOf m t q with
  | none => m
  | some v =>
    match pageRegion m t q with
    | none => dropMove t v m
    | some r =>
      let m := moveAsk t r v m
      let m := if moveHere m t r v then moveWork t r v bad1 bad2 m else m
      let m := moveGo t r q m
      if (moveOf m t q).isSome then m else wakeTile t (capHeel t m)

def execTierMoveEnd (tile : Tile) (x : MoveEnd) (s : State) : Res := engineStep (tierMoveEnd tile x.page x.bad1 x.bad2) s

/-- The moves of a tile go on, and its sweep. -/
def tierGo (t : Tile) (m : Mod) : Mod :=
  let m := ((m.tiers[t] : TierSt).moves.map (·.page)).eraseDups.foldl (fun m q => match pageRegion m t q with
    | some r => moveGo t r q m
    | none => m) m
  sweepGo (m.tiers[t] : TierSt).sweep.length t m

/-! ### Commands -/

/-- R298, R319: TIER_SET. Parameters 0 to 4 in the order of *Tier parameters* (log entry 21). -/
def execTierSet (h : AdminHdr) (tile param value : Nat) (s : State) : Res :=
  let rangeOk := tile < 4 && param ≤ 4 &&
    (if param = 0 then 100 ≤ value && value ≤ 60000 else if param = 1 then 1 ≤ value && value ≤ 15
     else if param = 2 then value ≤ 15 else if param = 3 then 1 ≤ value && value ≤ 15 else 2 ≤ value && value ≤ 6)
  modStep (admin h 0x0501 rangeOk (fun c m =>
    let t : Tile := Fin.ofNat 4 tile
    if param = 4 then done c 0xD5 m
    else if (m.tiers[t] : TierSt).poolSize = 0 then done c 0xD6 m
    else
      done c 0x00 (onTier t (fun ts => { ts with setNext := ts.setNext ++ [(param, value)] }) m))) s

/-- Whether a page number of the elastic space lies among `n` pages of a tile's window from `q0` upward. -/
def inTrim (m : Mod) (t : Tile) (q0 n page : Nat) : Bool :=
  let first := 16384 * (m.tiers[t] : TierSt).elBase + q0
  first ≤ page && page < first + n

/-- Recall the host copies of a trim's pages for which no BISnp is open; their data is discarded. -/
def trimRecall (t : Tile) (q0 n : Nat) (m : Mod) : Mod :=
  ((m.filters[t] : FilterSt).entries.filter (fun e => !e.pend && inTrim m t q0 n (entLine e / 64))).foldl
    (fun m e => recallEnt t e (.recalls true) m) m

/-- The tier-map batts of a range of pages. -/
def trimBatts (q0 n : Nat) : List Nat := (List.range ((q0 + n + 31) / 32 - q0 / 32)).map (q0 / 32 + ·)

/-- A trim of `n` pages from `q0` on may take place: host copies are recalled, no BISnp of its pages is open, none of its lines is in
service, and its tier-map batts are at hand (R305). -/
def trimReady (t : Tile) (q0 n : Nat) (m : Mod) : Bool × Mod :=
  let m := trimRecall t q0 n m
  if (m.filters[t] : FilterSt).snps.any (fun s => inTrim m t q0 n (s.line / 64)) || (List.range n).any (fun i => pageBusy m t (q0 + i)) then
    (false, m)
  else match (trimBatts q0 n).find? (fun g => !teHere m t (32 * g)) with
    | some g => (false, wantTmap (.tmap t g) t (32 * g) m)
    | none => (true, m)

/-- Go on with a trim: its pages, and the completion of its ELASTIC_TRIM. A batt whose 32 pages it covers is written afresh (R294). `true`: it
has ended. -/
def trimGo (t : Tile) (x : Option AdminTag × Nat × Nat) (m : Mod) : Bool × Mod :=
  let (c, q0, n) := x
  let y := trimReady t q0 n m
  if !y.1 then y
  else
    let gs := trimBatts q0 n
    let m := (List.range n).foldl (fun m i => trimPage t (q0 + i) m) y.2
    let fresh (g : Nat) : Bool := q0 ≤ 32 * g && 32 * g + 32 ≤ q0 + n && teBad m t (32 * g)
    let m := (gs.filter fresh).foldl (fun m g => metaFresh (tmapBatt m.tiers[t] (32 * g)) (tmapContent m.tiers[t] (32 * g)) m) m
    let m := gs.foldl (fun m g => dropHere (.tmap t g) m) m
    (true, c.elim m (fun c => done c 0x00 m))

/-- Go on with the trims of a tile that wait. -/
def trimSettle (t : Tile) (m : Mod) : Mod :=
  let l := (m.tiers[t] : TierSt).trims
  l.foldl (fun m x =>
    let (fin, m) := trimGo t x m
    if fin then onTier t (fun ts => { ts with trims := ts.trims.erase x }) m else m) m

/-- The pages of an elastic region that hold data. -/
def regionPages (r : BitVec 128) (m : Mod) : List Nat :=
  let ts : TierSt := m.tiers[rgTile r]
  (ts.tmap.map (·.1)).filter (fun q => (16384 * ts.elBase + q) / 2 ^ 14 - rgLBase r < rgCount r && rgLBase r ≤ (16384 * ts.elBase + q) / 2 ^ 14)

/-- The module trims every page of elastic regions of its own (R267, R305). -/
def trimRegions (l : List (BitVec 128)) (m : Mod) : Mod :=
  let add (m : Mod) (r : BitVec 128) : Mod :=
    onTier (rgTile r) (fun ts => { ts with trims := ts.trims ++ (regionPages r m).map (fun q => (none, q, 1)) }) m
  (List.finRange 4).foldl (fun m t => trimSettle t m) ((l.filter rgElastic).foldl add m)

/-- Whether trims of the module's own are still under way. -/
def trimming (m : Mod) : Bool := m.tiers.any (fun ts => ts.trims.any (fun x => x.1.isNone))

/-- R305: ELASTIC_TRIM. -/
def execElasticTrim (h : AdminHdr) (w : BitVec 64) (len : Nat) (s : State) : Res :=
  modStep (admin h 0x0502 true (fun c m =>
    let x : BitVec 53 := w.setWidth 53
    let off := wOff x
    match regionOf m off with
    | none => done c 0xD4 m
    | some r =>
      let t := rgTile r
      let last := rgLBase r * 2 ^ 26 + rgCount r * 2 ^ 26
      if w.toNat / 2 ^ 53 ≠ 0 || wAper x != 0 || off % 4096 != 0 || len % 4096 != 0 || len == 0 || last < off + len ||
          !rgElastic r || !rgPort r h.port then done c 0xD4 m
      else
        trimSettle t (onTier t (fun ts => { ts with trims := ts.trims ++ [(some c, pageOf m.tiers[t] off, len / 4096)] }) m))) s

/-! ### BIRsp (R226, R228, R233) -/

/-- A BIRsp reaches its slice: its credit returns, the filter entry takes it, what waited is served, a BISnp that waited
for the open entry leaves, and a trim that waited for it goes on (R305). One that answers no open BISnp is discarded with an event. `code`: its opcode. -/
def biRsp (p : Port) (tag code : Nat) (shared same : Bool) (m : Mod) : Mod :=
  if !memDecodes m p then m
  else
    let m := send (.credit p 2) (wake (if p == .a then 1 else 2) (touch m))
    match (List.finRange 4).findSome? (fun t =>
      ((m.filters[t] : FilterSt).snps.find? (fun s => s.port == p && s.sent && s.tag == tag)).map (fun s => (t, s))) with
    | none => event 0x0307 0 (p.num + 3 * 2 + code % 256 * 256) m
    | some (t, s) => answers (wakeFilter t (trimSettle t (pumpSnp 16 t p (snpAnswer t s shared same m))))

def execBiRspI (port : Port) (tag : Nat) (s : State) : Res := modStep (biRsp port tag 0 false false) s

def execBiRspS (port : Port) (tag : Nat) (s : State) : Res := modStep (biRsp port tag 1 true false) s

def execBiRspE (port : Port) (tag : Nat) (s : State) : Res := modStep (biRsp port tag 2 false true) s

/-- TIER_BYPASS and TIER_RESUME (R317). -/
def tierBypass (on : Bool) (op : BitVec 16) (h : AdminHdr) (tile : Nat) : Mod → Mod :=
  admin h op (tile < 4) (fun c m =>
    let t : Tile := Fin.ofNat 4 tile
    if (m.tiers[t] : TierSt).poolSize = 0 then done c 0xD6 m
    else done c 0x00 (onTier t (fun ts => { ts with bypass := on }) m))

def execTierBypass (h : AdminHdr) (tile : Nat) (s : State) : Res := modStep (tierBypass true 0x0503 h tile) s
def execTierResume (h : AdminHdr) (tile : Nat) (s : State) : Res := modStep (tierBypass false 0x0504 h tile) s

/-! ### Fullers (R315, R316) -/

/-- Change a fuller. -/
def onFuller (f : FullerNo) (g : Fuller → Fuller) (m : Mod) : Mod := { m with fullers := m.fullers.set f (g m.fullers[f]) }

/-- R315: FULLER_OUT. -/
def execFullerOut (h : AdminHdr) (fuller : Nat) (s : State) : Res :=
  modStep (admin h 0x0505 (fuller < 8) (fun c m =>
    let f : FullerNo := Fin.ofNat 8 fuller
    if m.fullers.toList.any (fun g => g.mode == 1) || (m.fullers[f] : Fuller).mode != 0 then done c 0xD1 m
    else done c 0x00 (handOver f (onFuller f (fun g => { g with mode := 1 }) m)))) s

/-- A fuller returns: what waits for one goes to it (R316). -/
def fullerBack (f : FullerNo) (m : Mod) : Mod := handOvers (onFuller f (fun g => { g with mode := 0, test := none }) m)

/-- R315: FULLER_IN. -/
def execFullerIn (h : AdminHdr) (fuller : Nat) (s : State) : Res :=
  modStep (admin h 0x0506 (fuller < 8) (fun c m =>
    let f : FullerNo := Fin.ofNat 8 fuller
    let g : Fuller := m.fullers[f]
    if g.mode = 0 || g.test.isSome then done c 0xD2 m else done c 0x00 (fullerBack f m))) s

/-- R315: FULLER_TEST. The fuller is under test until its vectors have run. -/
def execFullerTest (h : AdminHdr) (fuller : Nat) (s : State) : Res :=
  modStep (admin h 0x0507 (fuller < 8) (fun c m =>
    let f : FullerNo := Fin.ofNat 8 fuller
    let g : Fuller := m.fullers[f]
    if g.mode = 0 || g.test.isSome then done c 0xD2 m else onFuller f (fun g => { g with test := some c }) m)) s

/-- The known-answer vectors end (R315, R319); `failing`: the vector that failed. -/
def execFullerTestEnd (fuller : FullerNo) (failing : Option Byte) (s : State) : Res :=
  modStep (fun m =>
    match (m.fullers[fuller] : Fuller).test with
    | none => m
    | some c => match failing with
      | none => done c 0x00 (fullerBack fuller m)
      | some v => complete c 0xD3 0 (v.setWidth 96) (onFuller fuller (fun g => { g with test := none }) m)) s

end Sys2Proof.Machine
end

