-- ==== Sys2Proof/Machine/Jobs.lean ====
section
/-! DEFINITION. Machine/Jobs.lean: compression jobs (R307 to R313). -/
namespace Sys2Proof.Machine

/-! ### Descriptors (R307) -/

/-- The fields of a job descriptor. -/
def parseJob (p : Port) (ring : Nat) (e : RawEntry) : Job where
  id := 0
  port := p
  ring := ring
  tag := bitsOf e 0 64
  src := (bitsOf e 64 64).toNat
  dst := (bitsOf e 128 64).toNat
  ctx := (bitsOf e 192 64).toNat
  srcLen := (bitsOf e 256 32).toNat
  dstLen := (bitsOf e 288 32).toNat
  op := (byteOf e 40).toNat
  format := (byteOf e 41).toNat
  huff := (byteOf e 42).toNat
  level := (byteOf e 43).toNat
  first := e.getLsbD 352
  last := e.getLsbD 353
  fuller := 0
  stage := .waits

/-- The ranges of R307; the phase bit is the entry's own. -/
def jobOk (j : Job) (e : RawEntry) : Bool :=
  let off (w : Nat) : Nat := w % 2 ^ 42
  (j.op == 1 || j.op == 2) && j.format ≤ 2 && bitsOf e 354 6 == 0#6 && bitsOf e 360 151 == 0#151 &&
    1 ≤ j.srcLen && j.srcLen ≤ 16777216 && 1 ≤ j.dstLen && j.dstLen ≤ 16842752 &&
    (j.op == 2 || (j.huff ≤ 3 && 1 ≤ j.level && j.level ≤ 3)) &&
    j.src < 2 ^ 53 && j.dst < 2 ^ 53 && j.ctx < 2 ^ 53 && j.ctx % 4096 == 0 && (usesCtx j || j.ctx == 0) &&
    !(off j.src < off j.dst + j.dstLen && off j.dst < off j.src + j.srcLen)

/-- The byte ranges that a job reads or writes. -/
def jobRanges (j : Job) : List (Word64 × Nat) :=
  [(BitVec.ofNat 64 j.src, j.srcLen), (BitVec.ofNat 64 j.dst, j.dstLen)] ++
    (if usesCtx j then [(BitVec.ofNat 64 j.ctx, 40960)] else [])

/-- The key id of the first sector of a job whose slot serves no access (R264). -/
def jobKeyBad (m : Mod) (j : Job) : Option (BitVec 6) :=
  (jobRanges j).findSome? (fun r => (List.range (rangeSectors r.1 r.2)).findSome? (fun i =>
    if keyServes m (wKey (rangeW r.1 i)) then none else some (wKey (rangeW r.1 i))))

/-- The fuller that takes a job: one in service of the home tile of its SRC (R316), any of the two (log entry 49). -/
def jobFuller (m : Mod) (j : Job) : Option FullerNo :=
  anyFuller m (tileFullers m (homeTile m (BitVec.ofNat 53 j.src)).val)

/-- Take entry `i` of a port's descriptors. -/
def takeJob (p : Port) (i : Nat) (m : Mod) : Mod := onRings p (fun s => { s with jobs := s.jobs.eraseIdx i }) m

/-- What a descriptor comes to: a failing completion with its ring halt code, or its fuller; `none` while it waits. -/
inductive JobStart where
  | fail (code detail halt : Nat)
  | run (f : FullerNo)
  | wait
  deriving DecidableEq, Repr, Inhabited

/-- The checks of a descriptor, in the order of *Job completion codes*. -/
def jobStart (m : Mod) (j : Job) (e : RawEntry) : JobStart :=
  if !jobOk j e then .fail 0x02 0 0
  else match (jobRanges j).findSome? (fun r => rangeViolation m j.port r.1 r.2) with
    | some k => .fail 0x03 k 0
    | none =>
      if (jobKeyBad m j).isSome then .fail 0x08 0 0x07
      else match jobFuller m j with
        | none => .wait
        | some f => .run f

/-- Whether a descriptor waits: for a fuller, or for an earlier one that names its context (R311). -/
def jobWaits (p : Port) (m : Mod) (l : List (Nat × RawEntry)) (i : Nat) : Bool :=
  let x := l.getD i default
  let j := parseJob p x.1 x.2
  jobStart m j x.2 == .wait || jobOk j x.2 && usesCtx j && (l.take i).any (fun y =>
    let k := parseJob p y.1 y.2
    jobOk k y.2 && usesCtx k && sameCtx k j)

/-- R307: the first descriptor of a port that need not wait is taken up. -/
def jobDescriptor (p : Port) (m : Mod) : Mod :=
  let l := (m.rings.get p).jobs
  match (List.range l.length).find? (fun i => !jobWaits p m l i) with
  | none => m
  | some i =>
    let x := l.getD i default
    let j := parseJob p x.1 x.2
    let m' := touch (takeJob p i m)
    match jobStart m j x.2 with
    | .wait => m
    | .run f =>
      let id := m'.accId
      fullerGive f (.job id) { m' with accId := id + 1, jobs := m'.jobs ++ [{ j with id := id, fuller := f.val }] }
    | .fail code detail halt =>
      let m' := match (if code = 0x08 then jobKeyBad m j else none) with
        | some k => keyRefused true p k m'
        | none => m'
      let m' := jobFail j code detail m'
      if halt = 0 then m' else ringHalt p j.ring halt m'

/-! ### Streams (R309 to R312) -/

/-- Big-endian bytes of a 32-bit word. -/
def be32 (x : Word32) : List Byte := (toBytes x 4).reverse

/-- The header that a compressed stream opens with (R310). -/
def streamHeader (format : Nat) : List Byte :=
  if format = 1 then [0x78, 0x9C] else if format = 2 then [0x1F, 0x8B, 8, 0, 0, 0, 0, 0, 0, 255] else []

/-- The trailer over all uncompressed bytes of a stream. -/
def streamTrailer (format : Nat) (l : List Byte) : List Byte :=
  if format = 1 then be32 (adler32 l)
  else if format = 2 then toBytes (crc32 l) 4 ++ toBytes (BitVec.ofNat 32 l.length) 4 else []

/-- A zero-terminated field of a gzip header. -/
def skipField (l : List Byte) (n : Nat) : Nat := n + (l.drop n).findIdx (· == 0) + 1

/-- The length of a stream's header: `ok (some n)`, incomplete `ok none`, or refused (R310). -/
def headerLen (format : Nat) (l : List Byte) : Except Unit (Option Nat) :=
  if format = 0 then .ok (some 0)
  else if format = 1 then
    if l.length < 2 then .ok none
    else
      let a := (l.getD 0 0).toNat
      let b := (l.getD 1 0).toNat
      if a % 16 = 8 ∧ a / 16 ≤ 7 ∧ (a * 256 + b) % 31 = 0 ∧ b / 32 % 2 = 0 then .ok (some 2) else .error ()
  else if l.length < 10 then .ok none
  else
    let flg := l.getD 3 0
    if l.getD 0 0 ≠ 0x1F ∨ l.getD 1 0 ≠ 0x8B ∨ l.getD 2 0 ≠ 8 ∨ bitsOf flg 5 3 ≠ 0#3 then .error ()
    else
      let n := if flg.getLsbD 2 then 12 + leNat ((l.drop 10).take 2) else 10
      let n := if flg.getLsbD 3 then skipField l n else n
      let n := if flg.getLsbD 4 then skipField l n else n
      let e := if flg.getLsbD 1 then n + 2 else n
      if l.length < e then .ok none
      else if flg.getLsbD 1 ∧ (crc32 (l.take n)).toNat % 65536 ≠ leNat ((l.drop n).take 2) then .error ()
      else .ok (some e)

/-- What a decompression of a stream's input so far gives: code and detail of a failure, or the output so far with, when the
stream has ended, the input bytes it took. -/
def streamOut (format : Nat) (l : List Byte) : Except (Nat × Nat) (List Byte × Option Nat) :=
  match headerLen format l with
  | .error _ => .error (5, 0)
  | .ok none => .ok ([], none)
  | .ok (some h) =>
    let trl := if format = 1 then 4 else if format = 2 then 8 else 0
    match inflate (l.drop h) with
    | .error (e, out) => if e.code = 4 then .ok (out, none) else .error (4, e.code)
    | .ok (out, used) =>
      if l.length < h + used + trl then .ok (out, none)
      else if (l.drop (h + used)).take trl = streamTrailer format out then .ok (out, some (h + used + trl)) else .error (5, 0)

/-- The outcome of a job: a failing code with its detail, or input used, output, the uncompressed bytes of this job, and the
stream's input so far. -/
def jobRun (j : Job) (prev inp : List Byte) : Except (Nat × Nat) (Nat × List Byte × List Byte × List Byte) :=
  let all := prev ++ inp
  if j.op = 1 then
    let out := (if j.first then streamHeader j.format else []) ++ deflate j.huff j.level j.last (prev.drop (prev.length - 32768)) inp ++
      (if j.last then streamTrailer j.format all else [])
    if j.dstLen < out.length then .error (1, 0) else .ok (inp.length, out, inp, all)
  else
    let before : List Byte := match streamOut j.format prev with
      | .ok (o, _) => o
      | .error _ => []
    match streamOut j.format all with
    | .error e => .error e
    | .ok (o, ended) =>
      let new := o.drop before.length
      if ended.isNone && j.last then .error (4, 4)
      else if j.dstLen < new.length then .error (1, 0)
      else .ok (ended.elim inp.length (fun n => n - prev.length), new, new, all)

/-- The history window of a stream (R311): the last 32 KiB of its uncompressed bytes. -/
def jobHistory (j : Job) (all : List Byte) : List Byte :=
  let u : List Byte := if j.op = 1 then all else match streamOut j.format all with
    | .ok (o, _) => o
    | .error _ => []
  let h := u.drop (u.length - 32768)
  List.replicate (32768 - h.length) 0 ++ h

/-- The 8 KiB state part of a context. -/
def ctxState (all : List Byte) : List Byte :=
  let s := (Config.contextState all).take 8192
  s ++ List.replicate (8192 - s.length) 0

/-! ### Accesses (R408, *Compression jobs*) -/

/-- The accessor of a job: its port, JOB slots, and RING_CFG.LABEL of its ring. -/
def jobBy (m : Mod) (j : Job) : Accessor := ⟨j.port, .job, cfgLabel (ringAt m j.port j.ring).cfg⟩

/-- A job with its stage replaced. -/
def jobStageSet (id : Nat) (x : JobStage) (m : Mod) : Mod :=
  { m with jobs := m.jobs.map (fun (j : Job) => if j.id == id then { j with stage := x } else j) }

/-- The accesses that a job waits for. -/
def jobIds (j : Job) : List Nat :=
  match j.stage with
  | .waits => []
  | .reads a b => a ++ b
  | .edges _ l | .writes _ l | .context _ l => l

/-- Undefined bytes for the DST of a job that fails (R313; log entry 22). -/
def undefOut (j : Job) (m : Mod) : List Byte × Mod :=
  let l := ((List.range ((j.dstLen + 63) / 64)).map (fun i => toBytes (Config.undefSector (j.dst + 64 * i) m.free) 64)).flatten
  (l.take j.dstLen, { m with free := m.free + 1 })

/-- A job of a ring that is reset ends without an entry, its DST undefined (R177, R313). -/
def undefDst (j : Job) (m : Mod) : Mod :=
  let x := undefOut j (dropAcc (jobIds j) m)
  let y := writeRange (jobBy m j) (BitVec.ofNat 64 j.dst) x.1 x.2
  dropAcc y.1 y.2

/-- The bytes of a job go to DST: accesses as any write of the port, so a mirrored region's go to the peer (R444). -/
def jobWrites (j : Job) (e : JobEnd) (m : Mod) : Mod :=
  let x := writeRange (jobBy m j) (BitVec.ofNat 64 j.dst) e.out m
  jobStageSet j.id (.writes e x.1) x.2

/-- A job fails: its DST takes undefined bytes, and its completion entry follows (R313). -/
def jobFails (j : Job) (code detail halt : Nat) (m : Mod) : Mod :=
  let x := undefOut j m
  let f (i : Nat) : Word32 := Config.jobField x.2.free i
  let e : JobEnd := { code := code, detail := detail, halt := halt, used := (f 0).toNat, len := 0, crc := f 1, adler := f 2,
                      out := x.1, ctx := none }
  jobWrites j e { x.2 with free := x.2.free + 1 }

/-- An access of a job has been turned away: its key no longer serves, a range fails R164 by now, or the module no longer serves
its tile. -/
def jobLost (j : Job) (m : Mod) : Mod :=
  match jobKeyBad m j, (jobRanges j).findSome? (fun r => rangeViolation m j.port r.1 r.2) with
  | some k, _ => jobFails j 0x08 0 0x07 (keyRefused true j.port k m)
  | none, some k => jobFails j 0x03 k 0 m
  | none, none => jobFails j 0x07 0 0x06 m

/-- A job's writes have been accepted: it leaves the jobs, and its completion entry is posted (R313). -/
def jobOver (j : Job) (e : JobEnd) (m : Mod) : Mod :=
  let m := fullerEnd (.job j.id) { m with jobs := m.jobs.filter (fun k => k.id != j.id) }
  let m := jobPost j (jobEntry j e.used e.len e.crc e.adler e.code e.detail) m
  if e.halt = 0 then m else ringHalt j.port j.ring e.halt m

/-! ### The stages of a job -/

/-- A job goes on as far as it can: its reads start when its fuller runs it; what it writes follows, its context last (R311). -/
def jobGo (id : Nat) (m : Mod) : Mod :=
  match m.jobs.find? (fun j => j.id == id) with
  | none => m
  | some j => match j.stage with
    | .waits =>
      if (fullerRuns m (.job id)).isNone then m
      else match jobKeyBad m j with
        | some k => jobFails j 0x08 0 0x07 (fullerEnd (.job id) (keyRefused true j.port k m))
        | none =>
          let s := readRange (jobBy m j) (BitVec.ofNat 64 j.src) j.srcLen m
          let c := if j.first then ([], s.2) else readRange (jobBy m j) (BitVec.ofNat 64 j.ctx) 40960 s.2
          jobStageSet id (.reads s.1 c.1) c.2
    | .reads _ _ => m
    | .edges e ids =>
      if !answered m ids then m
      else
        let bad := anyBad m ids
        let m := dropAcc ids m
        if bad then jobFails j 0x07 0 0x06 m else jobWrites j e m
    | .writes e ids =>
      if !answered m ids then m
      else
        let bad := anyBad m ids
        let m := dropAcc ids m
        match e.ctx with
        | some x =>
          if bad then jobLost j m
          else
            let y := writeRange (jobBy m j) (BitVec.ofNat 64 j.ctx) x.1 { m with ctxs := (x.1.drop 32768, x.2) :: m.ctxs }
            jobStageSet id (.context e y.1) y.2
        | none => if bad && e.code == 0 then jobLost j m else jobOver j e m
    | .context e ids =>
      if !answered m ids then m
      else
        let bad := anyBad m ids
        let m := dropAcc ids m
        if bad then jobLost j m else jobOver j e m

/-- Every job goes on; three times, since its stages may follow one another at once. -/
def jobsGo (m : Mod) : Mod :=
  let once (m : Mod) : Mod := (m.jobs.map (·.id)).foldl (fun m id => jobGo id m) m
  once (once (once m))

/-- The first descriptor of a port that need not wait for a fuller is taken up, and its job goes on (R307). -/
def execJobDescriptor (port : Port) (s : State) : Res := engineStep (fun m => jobsGo (jobDescriptor port m)) s

/-! ### The end of a job's computation -/

/-- The stream's input so far from the context of a job that does not open a stream: failing code, or the bytes. -/
def jobContext (m : Mod) (j : Job) (ctx : List Nat) : Except Nat (List Byte) :=
  if j.first then .ok []
  else if anyBad m ctx then .error 7
  else match m.ctxs.find? (fun x => x.1 == (rangeBytes m ctx (BitVec.ofNat 64 j.ctx) 40960).drop 32768) with
    | some x => .ok x.2
    | none => .error 9

/-- What a job computes from what its reads have brought (R308 to R313): failing code, detail and halt code, or its end. -/
def jobWork (m : Mod) (j : Job) (src ctx : List Nat) : Except (Nat × Nat × Nat) JobEnd :=
  if anyBad m src then .error (7, 0, 6)
  else match jobContext m j ctx with
    | .error c => .error (c, 0, if c = 7 then 6 else 0)
    | .ok prev => match jobRun j prev (rangeBytes m src (BitVec.ofNat 64 j.src) j.srcLen) with
      | .error (c, d) => .error (c, d, 0)
      | .ok (used, out, plain, all) =>
        .ok { code := 0, detail := 0, halt := 0, used := used, len := out.length, crc := crc32 plain, adler := adler32 plain, out := out,
              ctx := if j.last then none else some (jobHistory j all ++ ctxState all, all) }

/-- The output of a job: the batts that it fills only in part are read first, since a poisoned one fails the job (code 0x07). -/
def jobOut (j : Job) (src ctx : List Nat) (m : Mod) : Mod :=
  let r := jobWork m j src ctx
  let m := dropAcc (src ++ ctx) m
  match r with
  | .error (c, d, h) => if jobKeyBad m j == none then jobFails j c d h m else jobLost j m
  | .ok e =>
    let x := readEdges (jobBy m j) (BitVec.ofNat 64 j.dst) e.out.length m
    jobStageSet j.id (.edges e x.1) x.2

/-- R308, R313: the computation of the job that a fuller runs ends, once its reads are here. `bad1`, `bad2`: self-verification of a
compression failed here, and on the tile's other fuller. -/
def jobComplete (f : FullerNo) (bad1 bad2 : Bool) (m : Mod) : Mod :=
  match (m.fullers[f] : Fuller).run with
  | some (.job id) => match m.jobs.find? (fun j => j.id == id) with
    | none => m
    | some j => match j.stage with
      | .reads src ctx =>
        if !answered m (src ++ ctx) then m
        else
          let m := fullerEnd (.job id) (touch m)
          let second := (m.fullers[twin f] : Fuller).mode = 0
          if j.op = 1 ∧ bad1 = true then
            if bad2 = true ∨ ¬ second then jobFails j 0x06 0 0 (dropAcc (src ++ ctx) m)
            else
              let g := (twin f).val
              let m := { m with jobs := m.jobs.map (fun (k : Job) => if k.id == id then { k with fuller := g } else k) }
              jobOut { j with fuller := g } src ctx (handOver f (fullerMismatch f m))
          else jobOut j src ctx m
      | _ => m
  | _ => m

def execJobComplete (tile : Tile) (unit : Fin 2) (bad1 bad2 : Bool) (s : State) : Res :=
  engineStep (fun m => jobsGo (jobComplete (fullerAt tile unit) bad1 bad2 m)) s

end Sys2Proof.Machine
end

