-- ==== Sys2Proof/Machine/Egress.lean ====
section
/-! DEFINITION. Machine/Egress.lean: the egress scheduler's nodes, buckets, rotation lists and timing wheels (R372 to R384),
and the policers (R389). Buckets are held in 1/8,000,000 B, so that R kbit/s gains exactly R of them per ns (R378). -/
namespace Sys2Proof.Machine

/-- One byte in bucket units. -/
def byteUnit : Nat := 8000000

/-- The key of a node: level × 2^20 + number (R372). -/
def nodeKey (level n : Nat) : Nat := level * 2 ^ 20 + n
def keyLevel (k : Nat) : Nat := k / 2 ^ 20
def keyNum (k : Nat) : Nat := k % 2 ^ 20

/-- A node's parameters and live state. -/
def schedNode (m : Mod) (k : Nat) : Node := tabGet initNode m.egress.nodes k

/-- Change the scheduler. -/
def onEgress (f : EgressSt → EgressSt) (m : Mod) : Mod := { m with egress := f m.egress }

/-- Change a node. -/
def onNode (k : Nat) (f : Node → Node) (m : Mod) : Mod :=
  onEgress (fun e => { e with nodes := tabMod initNode e.nodes k f }) m

/-- The key of a node's parent; an egress port has none (R372). -/
def parentKey (m : Mod) (k : Nat) : Nat := nodeKey (keyLevel k + 1) (schedNode m k).parent

/-- A queue's state. -/
def queueAt (m : Mod) (q : Nat) : Queue := tabGet initQueue m.qs.queues q

/-- Change a queue. -/
def onQueue (q : Nat) (f : Queue → Queue) (m : Mod) : Mod :=
  { m with qs := { m.qs with queues := tabMod initQueue m.qs.queues q f } }

/-- R378: both buckets gain what the time since the last refill gives, up to their burst sizes. -/
def refill (now : Nat) (n : Node) : Node :=
  let dt : Int := ((now - n.at_ : Nat) : Int)
  { n with comm := min (n.comm + n.cir * dt) (n.cbs * byteUnit),
           peak := min (n.peak + n.pir * dt) (n.pbs * byteUnit), at_ := now }

/-- The key of a rotation list: parent, tier (0 committed, 1 excess) and priority. -/
def listKey (parent tier prio : Nat) : Nat := parent * 32 + tier * 16 + prio

/-- A rotation list. -/
def rotList (m : Mod) (k : Nat) : List Nat := tabGet [] m.egress.rotation k

/-- Replace a rotation list. -/
def setRot (k : Nat) (l : List Nat) (m : Mod) : Mod :=
  onEgress (fun e => { e with rotation := if l.isEmpty then tabDel e.rotation k else tabPut e.rotation k l }) m

/-- Whether a node has an eligible child. -/
def hasChild (m : Mod) (k : Nat) : Bool := m.egress.rotation.any (fun e => e.1 / 32 == k)

/-- The nodes above a queue. -/
def pathOf (m : Mod) (q : Nat) : List Nat :=
  let c := parentKey m (nodeKey 0 q)
  let g := parentKey m c
  [nodeKey 0 q, c, g, parentKey m g]

/-- Whether a node has something to send: a queued copy at or below it (R376). -/
def hasWork (m : Mod) (k : Nat) : Bool := m.qs.queues.any (fun e => e.2.pkts != 0 && (pathOf m e.1).contains k)

/-- The conditions of R373 on a node but for its buckets and, at an egress port, its credit and ring. -/
def nodeBase (m : Mod) (k : Nat) : Bool :=
  if keyLevel k = 0 then (queueAt m (keyNum k)).pkts != 0 && (queueAt m (keyNum k)).st != 2
  else (schedNode m k).enable && hasChild m k

/-- Peak bucket ≥ 0, or PIR = 0 (R373). -/
def peakOk (n : Node) : Bool := n.pir == 0 || 0 ≤ n.peak

/-- R374: 0 committed tier, 1 excess tier. -/
def tierOf (n : Node) : Nat := if n.cir ≠ 0 ∧ 0 ≤ n.comm then 0 else 1

/-- Nanoseconds until a negative bucket of rate `r` reaches 0 (R382). -/
def untilZero (b : Int) (r : Nat) : Nat := ((-b).toNat + r - 1) / r

/-- The earliest due time of a node's negative buckets. -/
def dueTime (now : Nat) (n : Node) : Option Nat :=
  let p := if n.pir ≠ 0 ∧ n.peak < 0 then some (now + untilZero n.peak n.pir) else none
  let c := if n.cir ≠ 0 ∧ n.comm < 0 then some (now + untilZero n.comm n.cir) else none
  match p, c with
  | some x, some y => some (min x y)
  | some x, none => some x
  | none, y => y

/-- The span of the fine wheel, and of a coarse bucket, in ns (R382). -/
def wheelSpan : Nat := 2097152

/-- A node's wheel entry after it has been examined (R382): one with the same due time stays on its wheel. -/
def wheelOf (now : Nat) (base : Bool) (n : Node) : Option (Nat × Bool) :=
  if !base then none
  else match dueTime now n with
    | none => none
    | some d => match n.wheel with
      | some (d', c) => if d' = d then some (d', c) else some (d, wheelSpan ≤ d - now)
      | none => some (d, wheelSpan ≤ d - now)

/-- Re-examine one node (R373, R374, R376, R382): its buckets are refilled; it keeps its place in its parent's list, enters
one at the tail, or leaves. A child that leaves because it has nothing left to send has its deficit set to 0. -/
def examine (k : Nat) (m : Mod) : Mod :=
  let now := upTime m
  let n := refill now (schedNode m k)
  let base := nodeBase m k
  let n := { n with wheel := wheelOf now base n }
  if keyLevel k = 3 then onNode k (fun _ => n) m
  else
    let cur := (m.egress.rotation.find? (fun e => e.2.contains k)).map (·.1)
    let want := if base && peakOk n then some (listKey (parentKey m k) (tierOf n) n.prio) else none
    let n := if want.isNone && !hasWork m k then { n with deficit := 0 } else n
    let m := onNode k (fun _ => n) m
    if cur == want then m
    else
      let m := match cur with
        | some l => setRot l ((rotList m l).filter (· != k)) m
        | none => m
      match want with
      | some l => setRot l (rotList m l ++ [k]) m
      | none => m

/-- Re-examine nodes in order. -/
def examineAll (l : List Nat) (m : Mod) : Mod := l.foldl (fun m k => examine k m) m

/-- A node and those above it, in order. -/
def above (m : Mod) (k : Nat) : List Nat :=
  let p := parentKey m k
  match keyLevel k with
  | 0 => pathOf m (keyNum k)
  | 1 => [k, p, parentKey m p]
  | 2 => [k, p]
  | _ => [k]

/-- Re-examine a node and then the nodes above it. -/
def resched (k : Nat) (m : Mod) : Mod := examineAll (above m k) m

/-! ### Choosing a child (R375, R376) -/

/-- DWRR at a list: heads whose deficit is not above 0 gain WEIGHT × 128 B and move to the tail. -/
def dwrr : Nat → List Nat → Mod → List Nat × Mod
  | 0, l, m => (l, m)
  | f + 1, l, m =>
    match l with
    | [] => ([], m)
    | h :: rest =>
      if 0 < (schedNode m h).deficit then (l, m)
      else dwrr f (rest ++ [h]) (onNode h (fun n => { n with deficit := n.deficit + n.weight * 128 }) m)

/-- Rounds after which some child's deficit is above 0, times the children. -/
def dwrrFuel (m : Mod) (l : List Nat) : Nat :=
  l.length * (2 + l.foldl (fun a k => max a (-(schedNode m k).deficit).toNat) 0)

/-- The child that a parent chooses: committed tier first, then PRIO, then DWRR. -/
def chooseChild (k : Nat) (m : Mod) : Option Nat × Mod :=
  match ([0, 1].flatMap (fun t => (List.range 8).map (fun p => listKey k t p))).find? (fun l => !(rotList m l).isEmpty) with
  | none => (none, m)
  | some l =>
    let r := rotList m l
    let (r, m) := dwrr (dwrrFuel m r) r m
    (r.head?, setRot l r m)

/-- Fields of an egress port's notification word (R361). -/
def epRing (w : Word32) : Nat := (bitsOf w 0 8).toNat
def epPort (w : Word32) : Port := if w.getLsbD 8 then .b else .a
def epValid (w : Word32) : Bool := w.getLsbD 31

/-- R373: whether an egress port is eligible. -/
def portEligible (m : Mod) (p : Nat) : Bool :=
  let n := refill (upTime m) (schedNode m (nodeKey 3 p))
  let w := tabGet 0 m.qs.eports p
  nodeBase m (nodeKey 3 p) && peakOk n && 0 < n.txCredit && epValid w && cfgType (ringAt m (epPort w) (epRing w)).cfg == 3 && ringRoom m (epPort w) (epRing w)

/-- The next eligible egress port after the one served last (R375). -/
def nextPort (m : Mod) : Option Nat :=
  ((List.range 128).map (fun i => (m.egress.lastPort + 1 + i) % 128)).find? (portEligible m)

/-- The charged length of a node (R377). -/
def chargedLen (n : Node) (len : Nat) : Int := max (len + n.ovh) 1

/-- Whether a node stands in a list of the committed tier at its parent. -/
def inCommitted (m : Mod) (k : Nat) : Bool := m.egress.rotation.any (fun e => e.2.contains k && e.1 / 16 % 2 == 0)

/-- The charge of one node of the path of a selection, from the tier in which it was chosen (R377). -/
def chargeNode (len : Nat) (k : Nat) (m : Mod) : Mod :=
  let committed := inCommitted m k
  onNode k (fun n =>
    let n := refill (upTime m) n
    let l := chargedLen n len
    { n with
      deficit := if keyLevel k = 3 then n.deficit else n.deficit - l
      peak := if n.pir = 0 then n.peak else n.peak - l * byteUnit
      comm := if committed then n.comm - l * byteUnit else n.comm
      txCredit := if keyLevel k = 3 then n.txCredit - len else n.txCredit
      sel := n.sel + 1 }) m

/-! ### Policers (R389) -/

/-- R378, R389: the two buckets of a policer at a time; an srTCM's overflow goes to the excess bucket. -/
def refillPol (now : Nat) (p : Policer) : Policer :=
  let dt : Int := ((now - p.at_ : Nat) : Int)
  let gain : Int := p.cir * dt
  let capC : Int := p.cbs * byteUnit
  let capE : Int := p.ebs * byteUnit
  if p.mode = 1 then
    let tc := min (p.tc + gain) capC
    { p with tc := tc, te := min (p.te + (p.tc + gain - tc)) capE, at_ := now }
  else { p with tc := min (p.tc + gain) capC, te := min (p.te + p.pir * dt) capE, at_ := now }

/-- The colour of a packet of `len` bytes, and the policer after it. -/
def meter (now : Nat) (p : Policer) (len colourIn : Nat) : Nat × Policer :=
  if p.mode = 0 then (colourIn, p)
  else
    let p := refillPol now p
    let b : Int := (max ((len : Int) + p.ovh) 1) * byteUnit
    let c := if p.aware then colourIn else 0
    if p.mode = 1 then
      if c = 0 ∧ b ≤ p.tc then (0, { p with tc := p.tc - b, green := p.green + 1 })
      else if c ≠ 2 ∧ b ≤ p.te then (1, { p with te := p.te - b, yellow := p.yellow + 1 })
      else (2, { p with red := p.red + 1 })
    else if c = 2 ∨ p.te < b then (2, { p with red := p.red + 1 })
    else if c = 1 ∨ p.tc < b then (1, { p with te := p.te - b, yellow := p.yellow + 1 })
    else (0, { p with te := p.te - b, tc := p.tc - b, green := p.green + 1 })

/-- A packet's colour (R356): metered when the entry asks. -/
def colourOf (police : Bool) (pol len colourIn : Nat) (m : Mod) : Nat × Mod :=
  if !police then (colourIn, m)
  else
    let p := tabGet initPolicer m.egress.policers pol
    let (c, p') := meter (upTime m) p len colourIn
    if p.mode = 0 then (c, m)
    else
      let m := onEgress (fun e => { e with policers := tabPut e.policers pol p' }) m
      (c, perfCount devPage (perfPlain (6 + c) 15) none m)

end Sys2Proof.Machine
end

