-- ==== Sys2Proof/Machine/QService.lean ====
section
/-! DEFINITION. Machine/QService.lean: the packet buffer service (R343 to R368): grants, enqueues, selection and notification,
releases, hold sweeps, held cell writes. -/
namespace Sys2Proof.Machine

/-! ### Fields of ring entries (R341, R346) -/

def refRun (x : Word32) : Nat := (bitsOf x 0 24).toNat
def refFirst (x : Word32) : Nat := (bitsOf x 24 3).toNat
def refClose (x : Word32) : Bool := x.getLsbD 31

/-- Run reference `k` of an enqueue, notification or release entry, at byte `off`. -/
def entRef (e : RawEntry) (off k : Nat) : Word32 := bitsOf e (8 * off + 32 * k) 32

def enqDest (e : RawEntry) : Word32 := bitsOf e 0 32
def enqLen (e : RawEntry) : Nat := (bitsOf e 192 16).toNat
def enqPol (e : RawEntry) : Word32 := bitsOf e 208 32
/-- Runs and cells of a packet (R346). -/
def runsOf (len : Nat) : Nat := (len + 2047) / 2048
def cellsOf (len : Nat) : Nat := (len + 255) / 256
/-- The run references that an enqueue uses. -/
def enqRefs (e : RawEntry) : List Word32 := (List.range (runsOf (enqLen e))).map (entRef e 4)

/-! ### Runs of a pool -/

/-- Whether a run is in the FREE state and in service. -/
def runFree (m : Mod) (n : Nat) : Bool := (runAt m n).st == .free && !(runAt m n).dead

/-- Runs of a pool in a state, counting those that are listed. -/
def countRuns (m : Mod) (p : CellPool) (f : Run → Bool) : Nat :=
  (m.qs.runs.filter (fun e => p.runBase ≤ e.1 && e.1 < p.runBase + p.runCount && f e.2)).length

/-- Free runs of a pool (R356). -/
def freeRuns (m : Mod) (p : CellPool) : Nat := p.runCount - countRuns m p (fun r => r.st != .free || r.dead)

/-- The free list of a rank-bank (R348). -/
def bankList (m : Mod) (p : CellPool) (bank : Nat) : List Nat :=
  ((List.range p.runCount).map (· + p.runBase)).filter (fun n => runFree m n && daRB (runDa p n) == bank)

/-- A pool's entry; one never set has no run. -/
def poolAt (m : Mod) (k : Nat) : CellPool := tabGet default m.qs.pools k

/-! ### Grants (R348 to R350) -/

/-- The data slots at which the CELL_WR rotation of a tile visits banks: slot and rank-bank. -/
def cellRotation (m : Mod) (t : Tile) : List (Nat × Nat) :=
  let p := patternAt m false
  ((pattern p.1 p.2 t.val).mapIdx (fun i w => (i, w))).filterMap (fun x =>
    if swData x.2 && swClass x.2 == 1 && swFirst x.2 then some (x.1, swBank x.2) else none)

/-- The order in which the bank lists are tried from a position, with the position that follows each. -/
def bankOrder (m : Mod) (t : Tile) (pos : Nat) : List (Nat × Nat) :=
  let rot := cellRotation m t
  if rot.isEmpty then (List.range 64).map (fun i => ((pos + i) % 64, (pos + i) % 64 + 1))
  else ((rot.filter (fun x => pos ≤ x.1)) ++ rot.filter (fun x => x.1 < pos)).map (fun x => (x.2, x.1 + 1))

/-- A grant entry (R341). -/
def grantEntry (run pool : Nat) : RawEntry := BitVec.ofNat 512 (run + pool * 2 ^ 32)

/-- Key of a grant ring. -/
def ringKey (p : Port) (r : Nat) : Nat := p.num * 256 + r

/-- R348: post a grant of a free run of the pool, if its ring takes one. -/
def grantPost (k : Nat) (m : Mod) : Mod :=
  let p := poolAt m k
  if !p.enable || !ringRoom m p.grantPort p.grantRing || cfgType (ringAt m p.grantPort p.grantRing).cfg != 1 then m
  else
    let t : Tile := runTile p.runBase
    match (bankOrder m t p.grantPos).find? (fun b => !(bankList m p b.1).isEmpty) with
    | none => m
    | some (bank, next) =>
      let l := bankList m p bank
      let n := l.getD (Config.grantPick m.free l.length % l.length) 0
      let c := (ringAt m p.grantPort p.grantRing).midx
      let m := { m with free := m.free + 1 }
      let m := onRun n (fun r => { r with st := .open_ }) m
      let m := onPool k (fun p => { p with grantPos := next, posted := p.posted ++ [(n, ringKey p.grantPort p.grantRing, c)] }) m
      ringPost p.grantPort p.grantRing (grantEntry n k) m

def execGrantPost (pool : Fin 64) (s : State) : Res := engineStep (grantPost pool.val) s

/-- R349: a doorbell read shows which posted runs of a grant ring the host has taken. -/
def takeGrants (p : Port) (r : Nat) (hidx : Word32) (m : Mod) : Mod :=
  let gone (e : Nat × Nat × Word32) : Bool := e.2.1 == ringKey p r && !(hidx - (e.2.2 + 1)).getLsbD 31
  let taken := m.qs.pools.flatMap (fun (e : Nat × CellPool) => (e.2.posted.filter gone).map (·.1))
  let m := { m with qs := { m.qs with pools := m.qs.pools.map (fun (e : Nat × CellPool) =>
    (e.1, { e.2 with posted := e.2.posted.filter (fun x => !gone x) })) } }
  taken.foldl (fun m n => onRun n (fun r => if r.st == .open_ then { r with taken := true, age := 0 } else r) m) m

/-- An OPEN run closes before its host has closed it (R350, R365): cells at or above NEXTCELL are discarded. -/
def expireOpen (k n cause : Nat) (m : Mod) : Mod :=
  let clip (r : Run) : Run :=
    { r with cells := r.cells.map (fun l => l.mapIdx (fun i b => if i < r.nextCell then b else 0)),
             poison := BitVec.ofNat 8 (r.poison.toNat % 2 ^ min r.nextCell 8) }
  let m := closeRun n (onRun n clip m)
  event 0x0805 0 (n + k * 2 ^ 24 + cause * 2 ^ 30) (onPool k (fun p => { p with grantExp := satAdd 0xFFFF_FFFF p.grantExp 1 }) m)

/-- The listed runs of a pool that satisfy a condition. -/
def poolRuns (m : Mod) (p : CellPool) (f : Run → Bool) : List Nat :=
  (m.qs.runs.filter (fun e => p.runBase ≤ e.1 && e.1 < p.runBase + p.runCount && f e.2)).map (·.1)

/-- Those of them that the pool holds: none that another, enabled pool has taken over. -/
def heldRuns (m : Mod) (k : Nat) (f : Run → Bool) : List Nat :=
  (poolRuns m (poolAt m k) f).filter (fun n => (poolHolding m n).any (fun e => e.1 == k))

/-- R350: a grant ring is disabled, or its port is reset. -/
def grantRingEnds (p : Port) (r : Nat) (m : Mod) : Mod :=
  let mine (e : Nat × Nat × Word32) : Bool := e.2.1 == ringKey p r
  let back := m.qs.pools.flatMap (fun (e : Nat × CellPool) => (e.2.posted.filter mine).map (·.1))
  let m := { m with qs := { m.qs with pools := m.qs.pools.map (fun (e : Nat × CellPool) =>
    (e.1, { e.2 with posted := e.2.posted.filter (fun x => !mine x) })) } }
  let m := back.foldl (fun m n => freeRun n m) m
  let pools := m.qs.pools.filter (fun e => e.2.grantPort == p && e.2.grantRing == r)
  pools.foldl (fun m e => (heldRuns m e.1 (fun r => r.st == .open_ && r.taken && !r.dead)).foldl (fun m n => expireOpen e.1 n 1 m) m) m

/-! ### Enqueue (R354 to R356) -/

/-- The words of a replication list (R357): its VALID words up to the first that is not. -/
def replQueues (m : Mod) (l : Nat) : List Nat :=
  (((List.range 64).map (fun w => (tabGet 0 m.qs.repl (l * 64 + w) : Word32))).takeWhile (fun w => w.getLsbD 31)).map
    (fun w => (bitsOf w 0 18).toNat)

/-- The queues that DEST names, in list order. -/
def destQueues (m : Mod) (dest : Word32) : List Nat :=
  if dest.getLsbD 31 then replQueues m (bitsOf dest 0 12).toNat else [(bitsOf dest 0 18).toNat]

/-- *Enqueue checks* (R354): the first check that fails; 0 when the entry is valid. -/
def enqueueCheck (m : Mod) (e : RawEntry) : Nat :=
  let len := enqLen e
  let n := runsOf len
  let c := cellsOf len
  let dest := enqDest e
  let list := dest.getLsbD 31
  let refs := enqRefs e
  let runs := refs.map refRun
  let first := refFirst (refs.headD 0)
  let close := refClose (refs.getLastD 0)
  let pools := runs.map (fun r => (poolOfRun m r).map (·.1))
  let pol := enqPol e
  if len = 0 ∨ 10240 < len then 0x01
  else if (if list then bitsOf dest 12 19 ≠ 0#19 ∨ (replQueues m (bitsOf dest 0 12).toNat).isEmpty = true else bitsOf dest 18 13 ≠ 0#13) then 0x02
  else if refs.any (fun r => bitsOf r 27 4 != 0#4) || (refs.drop 1).any (fun r => refFirst r != 0) ||
      pools.any (·.isNone) || pools.any (· != pools.headD none) || runs.eraseDups.length != runs.length then 0x03
  else if runs.any (fun r => (runAt m r).st != .open_ || (runAt m r).dead) then 0x04
  else if first < (runAt m (runs.headD 0)).nextCell ∨ (runs.drop 1).any (fun r => (runAt m r).nextCell != 0) = true ∨ 8 * n < first + c then 0x05
  else if list ∧ (first ≠ 0 ∨ (runAt m (runs.headD 0)).nextCell ≠ 0 ∨ ¬ (close = true ∨ first + c = 8 * n)) then 0x06
  else if bitsOf pol 20 2 = 3#2 ∨ bitsOf pol 23 9 ≠ 0#9 then 0x07
  else 0

/-- A header reference (R358). -/
def hdrRef (pool idx : Nat) : Nat := idx + pool * 2 ^ 22
def hdrPool (r : Nat) : Nat := r / 2 ^ 22 % 64
def hdrIdx (r : Nat) : Nat := r % 2 ^ 22

/-! ### The header caches (chapter *Packet buffer service*, *Queues*; R358, R367) -/

/-- CRC-16 with polynomial 0x1021 and initial value 0xFFFF, over a byte string. -/
def crc16 (l : List Byte) : BitVec 16 :=
  let bit (c : BitVec 16) (_ : Nat) : BitVec 16 := if c.getLsbD 15 then (c <<< 1) ^^^ 0x1021#16 else c <<< 1
  l.foldl (fun (c : BitVec 16) (b : Byte) => (List.range 8).foldl bit (c ^^^ (b.setWidth 16 <<< (8 : Nat)))) 0xFFFF#16

/-- The first 28 bytes of a run header. -/
def hdrBody (h : RunHdr) : List Byte :=
  let run (k : Nat) : List Byte := toBytes (h.runs.getD k 0) 4
  toBytes h.next 4 ++ ((List.range 5).map run).flatten ++ toBytes (BitVec.ofNat 16 h.len) 2 ++
    [BitVec.ofNat 8 (h.colour % 4), if h.repl then 1 else 0]

/-- A run header as it is stored (R358). -/
def hdrBytes (h : RunHdr) : List Byte := hdrBody h ++ toBytes (crc16 (hdrBody h)) 2 ++ [0, 0]

/-- A run header as it is read: one that fails its CHECK carries halt code 2 (R367). -/
def hdrParse (l : List Byte) : RunHdr :=
  let w (o n : Nat) : Nat := leNat ((l.drop o).take n)
  let len := w 24 2
  let runs := (List.range (runsOf len)).map (fun k => BitVec.ofNat 32 (w (4 + 4 * k) 4))
  { next := BitVec.ofNat 32 (w 0 4), runs := runs, len := len, colour := w 26 1 % 4, repl := w 27 1 % 2 == 1,
    bad := if BitVec.ofNat 16 (w 28 2) = crc16 (l.take 28) then 0 else 2 }

/-- Device address of a header block. -/
def hdrBlockDa (m : Mod) (b : Nat) : Nat := (poolAt m (hdrPool (64 * b))).hdrDgran * 2 ^ 26 + 32 * hdrIdx (64 * b)

/-- The blocks that a tile's header cache holds. -/
def hdrCached (m : Mod) (t : Tile) : List Nat :=
  ((m.qs.hdrs.filter (fun e => runTile (poolAt m (hdrPool e.1)).runBase == t)).map (fun e => e.1 / 64)).eraseDups

/-- The batts of a header block: one cell group (R358). -/
def hdrBatts (m : Mod) (b : Nat) : List Nat := (List.range 8).map (fun s => hdrBlockDa m b + 256 * s)

/-- A block leaves its cache: one that a link has changed goes to DRAM as a CELL_WR group in each pack, under the label of the
enqueue ring whose entry linked the copy (R408). -/
def hdrSpill (b : Nat) (m : Mod) : Mod :=
  let da := hdrBlockDa m b
  let one (i : Nat) : List Byte := (m.qs.hdrs.find? (fun e => e.1 == 64 * b + i)).elim (List.replicate 32 0) (fun e => hdrBytes e.2)
  let bytes := ((List.range 64).map one).flatten
  let half (o : Nat) : List (Batt × Bool) := (List.range 4).map (fun i => (ofBytes 2048 ((bytes.drop (256 * (2 * i + o))).take 256), false))
  let m := match m.qs.hdrDirty.find? (fun x => x.1 == b) with
    | none => m
    | some x =>
      if m.prot.stop.isSome then m
      else groupPut .cellWr x.2 (da + 256) (half 1) .write (groupPut .cellWr x.2 da (half 0) .write m)
  { m with qs := { m.qs with hdrs := m.qs.hdrs.filter (fun e => e.1 / 64 != b), spilled := b :: m.qs.spilled.erase b,
                             hdrDirty := m.qs.hdrDirty.filter (fun x => x.1 != b) } }

/-- A tile's cache holds 8,192 blocks: one more than that sends another than those of `keep` to DRAM; which one is not stated
(log entry 30). -/
def hdrTrim (keep : List Nat) (m : Mod) : Mod :=
  if m.qs.hdrs.length ≤ 8192 then m
  else
    let t := runTile (poolAt m (hdrPool (64 * keep.headD 0))).runBase
    let l := (hdrCached m t).filter (fun b => !keep.contains b)
    if l.length + keep.length ≤ 8192 then m
    else hdrSpill (l.getD (Config.hdrPick m.free l.length % l.length) 0) { m with free := m.free + 1 }

/-- Whether a block is in its cache, or its batts are at hand. -/
def hdrHere (m : Mod) (b : Nat) : Bool := !m.qs.spilled.contains b || (hdrBatts m b).all (atHand m)

/-- Ask for a block in DRAM: one CELL_RD group in each pack, under a label (R358, R408). -/
def wantHdr (label : BitVec 3) (b : Nat) (m : Mod) : Mod :=
  let ask (m : Mod) (da : Nat) : Mod :=
    if onTheWay m da || (reqBatts (groupReq .cellRd da false label (.need (.header b)))).all (atHand m) then m
    else enqReq (groupReq .cellRd da false label (.need (.header b))) m
  if hdrHere m b then m else [0, 256].foldl (fun m o => ask m (hdrBlockDa m b + o)) m

/-- The label of the reads of a queue's run headers: that of the notification ring of its egress port (R408). -/
def queueLabel (m : Mod) (q : Nat) : BitVec 3 :=
  let w := tabGet 0 m.qs.eports (keyNum ((pathOf m q).getLastD 0))
  cfgLabel (ringAt m (epPort w) (epRing w)).cfg

/-- What an operation on run headers has come to: the blocks in DRAM that it has used, and the state. It stands only if these blocks
are at hand; else they are asked for, and it is done anew. -/
abbrev HdrWork := List Nat × Mod

/-- A block in DRAM comes to its tile's cache; an uncorrectable or poisoned one gives halt code 1 to its headers (R367). -/
def hdrFetch (ref : Nat) (keep : List Nat) (st : HdrWork) : HdrWork :=
  let m := st.2
  let b := ref / 64
  if !m.qs.spilled.contains b then st
  else
    let batts := (hdrBatts m b).map (battNow m)
    let bad := batts.any (·.2)
    let bytes := (batts.map (fun x => toBytes x.1 256)).flatten
    let one (i : Nat) : RunHdr := let h := hdrParse ((bytes.drop (32 * i)).take 32); if bad then { h with bad := 1 } else h
    let used := (List.range 64).filter (fun i => (poolAt m (hdrPool ref)).hdrUsed.contains (hdrIdx (64 * b) + i))
    let hdrs := used.foldl (fun l i => tabPut l (64 * b + i) (one i)) m.qs.hdrs
    (b :: st.1, dropHere (.header b)
      (hdrTrim (b :: keep.filter (· != b)) { m with qs := { m.qs with hdrs := hdrs, spilled := m.qs.spilled.erase b } }))

/-- Take over what an operation has come to, if the blocks that it has used are at hand; else ask for them under a label. `true`: it
stands. -/
def hdrSettle (label : BitVec 3) (m : Mod) (w : HdrWork) : Bool × Mod :=
  match w.1.filter (fun b => !hdrHere m b) with
  | [] => (true, w.2)
  | l => (false, l.foldl (fun m b => wantHdr label b m) m)

/-- A block that a link changes, with the label of the enqueue ring. -/
def hdrMark (b : Nat) (label : BitVec 3) (m : Mod) : Mod :=
  { m with qs := { m.qs with hdrDirty := (b, label) :: m.qs.hdrDirty.filter (fun x => x.1 != b) } }

/-- Link a copy at the tail of a queue (R356, R358). -/
def linkTail (k q : Nat) (label : BitVec 3) (h : RunHdr) (st : HdrWork) : HdrWork :=
  let m := st.2
  let p := poolAt m k
  let free := (List.range p.hdrCount).filter (fun i => !p.hdrUsed.contains i)
  let idx := free.getD (Config.hdrPick m.free free.length % free.length) 0
  let ref := hdrRef k idx
  let m := { m with free := m.free + 1 }
  let m := onPool k (fun p => { p with hdrUsed := idx :: p.hdrUsed }) m
  let x := queueAt m q
  let last := if x.pkts = 0 then ref else x.tail.toNat
  let st := hdrFetch ref [last / 64] (hdrFetch last [] (st.1, m))
  let m := st.2
  let hdrs := tabPut m.qs.hdrs ref h
  let hdrs := if x.pkts = 0 then hdrs else hdrs.map (fun e => if e.1 = x.tail.toNat then (e.1, { e.2 with next := BitVec.ofNat 32 ref }) else e)
  let m := hdrMark (last / 64) label (hdrMark (ref / 64) label { m with qs := { m.qs with hdrs := hdrs } })
  (st.1, onQueue q (fun x => { x with head := if x.pkts = 0 then BitVec.ofNat 32 ref else x.head, tail := BitVec.ofNat 32 ref,
                                      pkts := x.pkts + 1, cells := x.cells + cellsOf h.len, enq := x.enq + 1 })
    (hdrTrim [ref / 64] m))

/-- The limit of a queue, and the floor of a pool, for a colour. -/
def limitOf (q : Queue) (c : Nat) : Nat := if c = 0 then q.limG else if c = 1 then q.limY else q.limR
def floorOf (p : CellPool) (c : Nat) : Nat := if c = 0 then p.floorG else if c = 1 then p.floorY else p.floorR

/-- One copy (R356): linked, or dropped with its reason. The number of copies admitted so far goes with the state. -/
def placeCopy (k colour : Nat) (label : BitVec 3) (h : RunHdr) (st : Nat × HdrWork) (q : Nat) : Nat × HdrWork :=
  let m := st.2.2
  let x := queueAt m q
  let p := poolAt m k
  let sat (n : Nat) : Nat := satAdd 0xFFFF_FFFF n 1
  let drop (f : Queue → Queue) : Nat × HdrWork := (st.1, st.2.1, perfCount devPage (perfPlain 2 15) none (onQueue q f m))
  if x.st ≠ 1 then drop (fun x => { x with dropHalt := sat x.dropHalt })
  else if freeRuns m p < floorOf p colour ∨ p.hdrCount ≤ p.hdrUsed.length then drop (fun x => { x with dropPool := sat x.dropPool })
  else if limitOf x colour < x.cells + cellsOf h.len then drop (fun x => { x with dropLimit := sat x.dropLimit })
  else
    let w := linkTail k q label h st.2
    (st.1 + 1, w.1, perfCount devPage (perfPlain 1 15) none w.2)

/-- R355: a valid enqueue consumes its cells, and closes what it fills or leaves. -/
def consumeCells (refs : List Word32) (first c : Nat) (m : Mod) : Mod :=
  let n := refs.length
  (refs.mapIdx (fun i r => (i, r))).foldl (fun m x =>
    let run := refRun x.2
    if x.1 + 1 < n then closeRun run (onRun run (fun r => { r with nextCell := 8 }) m)
    else
      let next := first + c - 8 * (n - 1)
      let m := onRun run (fun r => { r with nextCell := next }) m
      if next = 8 ∨ refClose x.2 = true then closeRun run m else m) m

/-- A valid enqueue (R355, R356), with the run-header blocks that it uses. -/
def enqueueValid (label : BitVec 3) (e : RawEntry) (m : Mod) : HdrWork :=
  let len := enqLen e
  let c := cellsOf len
  let refs := enqRefs e
  let runs := refs.map refRun
  let first := refFirst (refs.headD 0)
  let dest := enqDest e
  let list := dest.getLsbD 31
  let pol := enqPol e
  let k := (poolOfRun m (runs.headD 0)).elim 0 (·.1)
  let (colour, m) := colourOf (pol.getLsbD 22) (bitsOf pol 0 20).toNat len (bitsOf pol 20 2).toNat m
  let h : RunHdr := { next := 0xFFFF_FFFF, runs := refs.map (fun r => r &&& 0x7FFF_FFFF), len := len, colour := colour, repl := list, bad := 0 }
  let qs := destQueues m dest
  let (n, used, m) := qs.foldl (placeCopy k colour label h) (0, [], m)
  let m := runs.foldl (fun m r => onRun r (fun r => { r with refs := r.refs + n, qrefs := r.qrefs + n, repl := r.repl || list }) m) m
  let m := if n = 0 then m else onRun (runs.headD 0) (fun r => { r with live := putBit r.live first true }) m
  let m := consumeCells refs first c m
  (used, qs.eraseDups.foldl (fun m q => resched (nodeKey 0 q) m) m)

/-- An invalid enqueue (R354). -/
def enqueueInvalid (p : Port) (ring code : Nat) (e : RawEntry) (m : Mod) : Mod :=
  let m := match poolOfRun m (refRun (entRef e 4 0)) with
    | some x => onPool x.1 (fun p => { p with invalid := satAdd 0xFFFF_FFFF p.invalid 1 }) m
    | none => m
  event 0x0802 0 (code + p.num * 2 ^ 8 + ring * 2 ^ 9 + (enqDest e).toNat * 2 ^ 32) m

/-- The oldest fetched enqueue entry of a port is processed, once the run-header blocks that its copies touch are at hand. During
integrity stop no packet is metered (R395). -/
def enqueue (p : Port) (m : Mod) : Mod :=
  match (m.rings.get p).enq with
  | [] => m
  | (ring, e) :: rest =>
    if m.prot.stop.isSome || m.therm.critical then m
    else
      let m' := touch (onRings p (fun s => { s with enq := rest }) m)
      let code := enqueueCheck m e
      if code ≠ 0 then fetchPump (enqueueInvalid p ring code e m')
      else
        let read := queueLabel m ((destQueues m (enqDest e)).headD 0)
        let y := hdrSettle read m (enqueueValid (cfgLabel (ringAt m p ring).cfg) e m')
        if y.1 then fetchPump y.2 else touch y.2

def execEnqueue (port : Port) (s : State) : Res := modStep (enqueue port) s

/-- R351: a cell write that waits for an assembly entry proceeds when one is free, or when it no longer needs one. -/
def execCellWriteResume (tile : Tile) (s : State) : Res :=
  engineStep (fun m =>
    match m.qs.writeWaits.findIdx? (fun q => runTile (wOff q.w / 2048) == tile) with
    | none => m
    | some i =>
      let q := m.qs.writeWaits.getD i default
      let r := runAt m (wOff q.w / 2048)
      if r.st == .open_ && !r.dead && r.cells.isNone && 8192 ≤ assemblyUsed m tile then m
      else cellWrite q { m with qs := { m.qs with writeWaits := m.qs.writeWaits.eraseIdx i } }) s

/-! ### Selection and notification (R361, R375, R377) -/

/-- A notification entry (R341). -/
def notifyEntry (q eport : Nat) (h : RunHdr) : RawEntry :=
  let refs := (h.runs.mapIdx (fun i r => (i, r))).foldl (fun (a : RawEntry) (x : Nat × Word32) => a ||| ((x.2 : Word32).setWidth 512 <<< (32 + 32 * (x.1 : Nat)))) (0 : RawEntry)
  BitVec.ofNat 512 q ||| refs ||| (BitVec.ofNat 512 h.len <<< 192) ||| (BitVec.ofNat 512 eport <<< 208) ||| (BitVec.ofNat 512 h.colour <<< 216)

/-- A header is freed. -/
def freeHdr (ref : Nat) (m : Mod) : Mod :=
  let m := { m with qs := { m.qs with hdrs := tabDel m.qs.hdrs ref } }
  onPool (hdrPool ref) (fun p => { p with hdrUsed := p.hdrUsed.filter (· != hdrIdx ref) }) m

/-- The header of a reference, with the halt code that reading it gives (R367): 0 none. -/
def readHdr (m : Mod) (ref : Nat) : RunHdr × Nat :=
  match m.qs.hdrs.find? (fun e => e.1 == ref) with
  | none => (default, 2)
  | some (_, h) =>
    let p := poolAt m (hdrPool ref)
    let inPool := h.runs.all (fun r => p.runBase ≤ refRun r && refRun r < p.runBase + p.runCount)
    (h, if h.bad ≠ 0 then h.bad else if inPool then 0 else 2)

/-- A queue halts (R367). -/
def haltQueue (q code : Nat) (m : Mod) : Mod :=
  resched (nodeKey 0 q) (event 0x0807 0 (q + code * 2 ^ 18) (onQueue q (fun x => { x with st := 2, halt := code }) m))

/-- The copy at HEAD leaves its queue: its header is freed, its runs lose a queued reference (R361). -/
def popHead (q : Nat) (ref : Nat) (h : RunHdr) (m : Mod) : Mod :=
  let m := onQueue q (fun x => { x with
    head := if x.pkts ≤ 1 then 0xFFFF_FFFF else h.next
    tail := if x.pkts ≤ 1 then 0xFFFF_FFFF else x.tail
    pkts := x.pkts - 1
    cells := x.cells - cellsOf h.len }) m
  h.runs.foldl (fun m r => onRun (refRun r) (fun r => if r.st == .free then r else { r with qrefs := r.qrefs - 1 }) m) (freeHdr ref m)

/-- One selection: the port, its group, class and queue, the notification, the charges. It waits while the block of the run header at
HEAD is on its way from DRAM (log entry 115). -/
def selection (m0 : Mod) : Mod :=
  if m0.prot.stop.isSome || m0.therm.critical then m0
  else match nextPort m0 with
  | none => m0
  | some p =>
    let m := onEgress (fun e => { e with lastPort := p }) m0
    match chooseChild (nodeKey 3 p) m with
    | (none, m) => m
    | (some g, m) => match chooseChild g m with
      | (none, m) => m
      | (some c, m) => match chooseChild c m with
        | (none, m) => m
        | (some k, m) =>
          let q := keyNum k
          let ref := (queueAt m q).head.toNat
          let y := hdrSettle (queueLabel m q) m0 (hdrFetch ref [] ([], m))
          let m := y.2
          let (h, bad) := readHdr m ref
          if !y.1 then m
          else if bad ≠ 0 then haltQueue q bad m
          else
            let m := popHead q ref h (touch m)
            let m := h.runs.foldl (fun m r => onRun (refRun r) (fun r => if r.st == .free then r else { r with age := 0 }) m) m
            let w := tabGet 0 m.qs.eports p
            let m := ringPost (epPort w) (epRing w) (notifyEntry q p h) m
            let m := perfCount devPage (perfPlain 3 15) none (perfCount devPage (perfPlain 5 15) none m)
            let m := [k, c, g, nodeKey 3 p].foldl (fun m x => chargeNode h.len x m) m
            examineAll [k, c, g, nodeKey 3 p] m

def execSelection (s : State) : Res := modStep selection s

/-! ### Release (R363, R364, R369) -/

/-- A double-release event. -/
def doubleEvent (p : Port) (run first kind : Nat) (m : Mod) : Mod :=
  event 0x0804 0 (run + first * 2 ^ 24 + p.num * 2 ^ 27 + kind * 2 ^ 28) m

/-- Steps 2 to 5 for one listed run. -/
def releaseRun (p : Port) (first run : Nat) (m : Mod) : Mod :=
  let r := runAt m run
  if r.dead then m
  else
    let m := if r.refs = 0 then doubleEvent p run first 1 m else onRun run (fun r => { r with refs := r.refs - 1 }) m
    let r := runAt m run
    if r.st == .closed && r.refs == 0 then freeRun run m else m

/-- A packet's or copy's release with its run references (R363); `ok`: NRUNS lies in 1 to 5. -/
def releaseRefs (p : Port) (ok : Bool) (refs : List Word32) (m : Mod) : Mod :=
  let run0 := refRun (refs.headD 0)
  let f := refFirst (refs.headD 0)
  let r := runAt m run0
  let pool := poolHolding m run0
  if !ok || r.dead || r.st == .free || !r.live.getLsbD f then
    let m := match pool with
      | some x => onPool x.1 (fun p => { p with double := satAdd 0xFFFF_FFFF p.double 1 }) m
      | none => m
    doubleEvent p run0 f 0 m
  else
    let clear := !r.repl || r.refs ≤ 1
    let m := if clear then onRun run0 (fun r => { r with live := putBit r.live (if r.repl then 0 else f) false }) m else m
    refs.foldl (fun m x => releaseRun p f (refRun x) m) m

/-- The oldest fetched release entry of a port is handled. -/
def execRelease (port : Port) (s : State) : Res :=
  engineStep (fun m =>
    match (m.rings.get port).rel with
    | [] => m
    | (_, e) :: rest =>
      let m := touch (onRings port (fun s => { s with rel := rest }) m)
      let m := perfCount devPage (perfPlain 4 15) none m
      let n := (byteOf e 20).toNat
      releaseRefs port (1 ≤ n && n ≤ 5) ((List.range (max 1 (min n 5))).map (entRef e 0)) m) s

/-! ### Hold sweeps (R365, R366) -/

/-- R365: one sweep of a pool's taken OPEN runs. -/
def execGrantHoldSweep (pool : Fin 64) (s : State) : Res :=
  engineStep (fun m =>
    let p := poolAt m pool.val
    if p.grantHold = 0 then m
    else (heldRuns m pool.val (fun r => r.st == .open_ && r.taken && !r.dead)).foldl (fun m n =>
      if (runAt m n).age < 3 then onRun n (fun r => { r with age := r.age + 1 }) m else expireOpen pool.val n 0 m) m) s

/-- R365: one sweep of a pool's notified runs. -/
def execReleaseHoldSweep (pool : Fin 64) (s : State) : Res :=
  engineStep (fun m =>
    let p := poolAt m pool.val
    if p.relHold = 0 then m
    else (heldRuns m pool.val (fun r => r.st == .closed && 0 < r.refs && r.qrefs == 0 && !r.dead)).foldl (fun m n =>
      if (runAt m n).age < 3 then onRun n (fun r => { r with age := r.age + 1 }) m
      else
        let m := freeRun n m
        event 0x0806 0 (n + pool.val * 2 ^ 24) (onPool pool.val (fun p => { p with relExp := satAdd 0xFFFF_FFFF p.relExp 1 }) m)) m) s

end Sys2Proof.Machine
end

