-- ==== Sys2Proof/Machine/QCmds.lean ====
section
/-! DEFINITION. Machine/QCmds.lean: set-up and readback of the packet buffer service (R343 to R345, R357, R359, R361, R368,
R371), credit entries (R386), the timing wheels (R382), SCHED_COMMIT and SCHED_READ (R390 to R394). -/
namespace Sys2Proof.Machine

/-- Whether every byte of a list is zero. -/
def allZero (l : List Byte) : Bool := l.all (· == 0)

/-- Bytes `off` to `off + n − 1` as a number (R5). -/
def fld (l : List Byte) (off n : Nat) : Nat := leNat ((l.drop off).take n)

/-! ### Pools (R343, R344) -/

/-- A pool's parameters from its entry over what stands for the pool. -/
def poolFrom (l : List Byte) (p : CellPool) : CellPool :=
  { p with runBase := fld l 0 4, runCount := fld l 4 4, dgran := fld l 8 2, hdrDgran := fld l 10 2, hdrCount := fld l 12 4,
           grantPort := if fld l 16 1 = 1 then .b else .a, grantRing := fld l 17 1,
           floorG := fld l 20 4, floorY := fld l 24 4, floorR := fld l 28 4, grantHold := fld l 32 4, relHold := fld l 36 4,
           enable := fld l 40 1 % 2 == 1 }

/-- A hold limit's range. -/
def holdOk (n : Nat) : Bool := n == 0 || (100 ≤ n && n ≤ 10000000)

/-- A count of runs or headers. -/
def poolCountOk (n : Nat) : Bool := 64 ≤ n && n ≤ 4194304 && n % 64 == 0

/-- The ranges of *Pool parameter entry*. -/
def poolRanges (l : List Byte) : Bool :=
  let p := poolFrom l default
  p.runBase < 2 ^ 24 && p.runBase % 64 == 0 && poolCountOk p.runCount && p.dgran ≤ 32767 && p.hdrDgran ≤ 32767 &&
    poolCountOk p.hdrCount && fld l 16 1 ≤ 1 && fld l 18 2 == 0 && p.floorG ≤ p.runCount && p.floorY ≤ p.runCount &&
    p.floorR ≤ p.runCount && holdOk p.grantHold && holdOk p.relHold && fld l 40 1 ≤ 1 && allZero ((l.drop 41).take 23)

/-- The cell range and the header area as (first byte, bytes). -/
def cellRange (p : CellPool) : Nat × Nat := (p.dgran * 2 ^ 26, 2048 * p.runCount)
def hdrRange (p : CellPool) : Nat × Nat := (p.hdrDgran * 2 ^ 26, 32 * p.hdrCount)

/-- Whether a byte range lies in one region that may carry a pool of tile `t`. -/
def rangeHosted (m : Mod) (t : Tile) (x : Nat × Nat) : Bool :=
  match regionOfDev m (x.1 / 2 ^ 26) with
  | none => false
  | some r => rgTile r == t && !rgMirror r && !rgElastic r && rgCrypt r == 0 &&
      (x.1 + x.2 - 1) / 2 ^ 26 < rgDBase r + rgCount r

/-- The placement checks of R344. -/
def poolPlaced (m : Mod) (k : Nat) (p : CellPool) : Bool :=
  let others := (m.qs.pools.filter (fun e => e.1 != k && e.2.enable)).map (·.2)
  let t := runTile p.runBase
  let sameTile := others.filter (fun o => runTile o.runBase == t)
  let apart (x y : Nat × Nat) : Bool := !overlap x.1 x.2 y.1 y.2
  p.dgran / 2 ^ 13 % 4 == t.val && p.hdrDgran / 2 ^ 13 % 4 == t.val &&
    p.runBase % 2 ^ 22 + p.runCount ≤ 2 ^ 22 &&
    others.all (fun o => !overlap p.runBase p.runCount o.runBase o.runCount) &&
    sameTile.foldl (fun a o => a + o.runCount) p.runCount ≤ 4194304 &&
    rangeHosted m t (cellRange p) && rangeHosted m t (hdrRange p) &&
    others.all (fun o => apart (cellRange p) (cellRange o) && apart (cellRange p) (hdrRange o) &&
      apart (hdrRange p) (cellRange o) && apart (hdrRange p) (hdrRange o))

/-- Whether two entries place a pool alike. -/
def sameGeometry (p q : CellPool) : Bool :=
  p.runBase == q.runBase && p.runCount == q.runCount && p.dgran == q.dgran && p.hdrDgran == q.hdrDgran && p.hdrCount == q.hdrCount

/-- Apply a pool's entry; on enabling, the words of its runs take their reset value, but for runs out of service (R345, R369), and no
grant of before stands any more. -/
def poolApply (k : Nat) (p : CellPool) (m : Mod) : Mod :=
  let starts := p.enable && !(poolAt m k).enable
  let m := if starts then (poolRuns m p (fun _ => true)).foldl (fun m n => freeRun n m) m else m
  { m with qs := { m.qs with pools := tabPut m.qs.pools k (if starts then { p with posted := [] } else p) } }

/-- R343, R344: the pool's entry as its source buffer gives it. -/
def poolSet (c : AdminTag) (pool : Nat) (src : Option (List Byte)) (m : Mod) : Mod :=
  match src with
  | none => done c 0x55 m
  | some l =>
    let old := poolAt m pool
    let p := poolFrom l old
    if !poolRanges l then done c 0x51 m
    else if !poolPlaced m pool p then done c 0x52 m
    else if tabHas m.qs.pools pool && !sameGeometry old p &&
        (old.enable || !(heldRuns m pool (fun r => r.st != .free)).isEmpty) then done c 0x53 m
    else done c 0x00 (poolApply pool p m)

/-- R343, R344: POOL_SET. -/
def execPoolSet (h : AdminHdr) (pool : Nat) (w : BitVec 64) (s : State) : Res :=
  modStep (admin h 0x0601 (pool ≤ 63) (fun c m =>
    withSource h c (.poolSet pool w) w 64 (poolSet c pool) m)) s

/-- *Pool counts* (R371). -/
def poolCounts (m : Mod) (p : CellPool) : List Byte :=
  ([freeRuns m p, countRuns m p (fun r => r.st == .open_ && !r.dead), countRuns m p (fun r => r.st == .closed && !r.dead),
    p.hdrCount - p.hdrUsed.length, p.invalid, p.double, p.grantExp, p.relExp, p.lost, p.stale].map (fun n =>
      toBytes (BitVec.ofNat 32 n) 4)).flatten ++ List.replicate 24 0

/-- R371: what POOL_READ returns. -/
def poolRead (h : AdminHdr) (c : AdminTag) (pool : Nat) (m : Mod) : Mod := completeWith h c 0 0 (poolCounts m (poolAt m pool)) m

/-- R371: POOL_READ. -/
def execPoolRead (h : AdminHdr) (pool : Nat) (s : State) : Res :=
  modStep (admin h 0x0602 (pool ≤ 63) (fun c m => inOrder c (.poolRead pool h) (poolRead h c pool) m)) s

/-- The run state word (R345). -/
def runWord (r : Run) : Word32 :=
  BitVec.ofNat 32 ((match r.st with | .free => 0 | .open_ => 1 | .closed => 2) + (if r.repl then 4 else 0) +
    (if r.stored then 8 else 0) + r.nextCell % 16 * 2 ^ 4 + r.live.toNat * 2 ^ 8 + r.refs % 128 * 2 ^ 16 + r.qrefs % 128 * 2 ^ 23 +
    r.age % 4 * 2 ^ 30)

/-- R345: RUN_READ. -/
def execRunRead (h : AdminHdr) (run : Nat) (s : State) : Res :=
  modStep (admin h 0x0603 (run < 2 ^ 24) (fun c m => completeWith h c 0 0 (toBytes (runWord (runAt m run)) 4) m)) s

/-! ### Queues, lists, egress ports -/

/-- R359: a queue's parameters as the source buffer gives them. A halted queue stays halted. -/
def queueSet (c : AdminTag) (queue : Nat) (src : Option (List Byte)) (m : Mod) : Mod :=
  match src with
  | none => done c 0x55 m
  | some l =>
    if 1 < fld l 9 1 || fld l 10 6 != 0 then done c 0x51 m
    else
      let on := fld l 9 1 == 1
      done c 0x00 (onQueue queue (fun x => { x with limG := fld l 0 3, limY := fld l 3 3, limR := fld l 6 3,
                                                    st := if x.st = 2 then 2 else if on then 1 else 0 }) m)

/-- R359: QUEUE_SET. -/
def execQueueSet (h : AdminHdr) (queue : Nat) (w : BitVec 64) (s : State) : Res :=
  modStep (admin h 0x0604 (queue ≤ 262143) (fun c m => withSource h c (.queueSet queue w) w 16 (queueSet c queue) m)) s

/-- *Queue state* (R359). -/
def queueWords (x : Queue) : List Byte :=
  toBytes (x.head.setWidth 256 ||| (x.tail.setWidth 256 <<< 32) ||| (BitVec.ofNat 256 (x.pkts % 2 ^ 24) <<< 64) |||
    (BitVec.ofNat 256 (x.cells % 2 ^ 24) <<< 88) ||| (BitVec.ofNat 256 (x.st % 4) <<< 112) |||
    (BitVec.ofNat 256 (x.halt % 64) <<< 114) ||| (x.enq.setWidth 256 <<< 128) ||| (BitVec.ofNat 256 x.dropLimit <<< 160) |||
    (BitVec.ofNat 256 x.dropPool <<< 192) ||| (BitVec.ofNat 256 x.dropHalt <<< 224)) 32

/-- R359: what QUEUE_READ returns. -/
def queueRead (h : AdminHdr) (c : AdminTag) (queue : Nat) (m : Mod) : Mod := completeWith h c 0 0 (queueWords (queueAt m queue)) m

/-- R359: QUEUE_READ. -/
def execQueueRead (h : AdminHdr) (queue : Nat) (s : State) : Res :=
  modStep (admin h 0x0605 (queue ≤ 262143) (fun c m => inOrder c (.queueRead queue h) (queueRead h c queue) m)) s

/-- R368: the copies of a halted queue that can be reached are released; the others are counted in LOST. -/
def walkQueue (p : Port) : Nat → Nat → HdrWork → HdrWork
  | 0, _, st => st
  | f + 1, q, st =>
    let x := queueAt st.2 q
    if x.pkts = 0 then st
    else
      let ref := x.head.toNat
      let st := hdrFetch ref [] st
      let (h, bad) := readHdr st.2 ref
      if bad ≠ 0 then (st.1, onPool (hdrPool ref) (fun c => { c with lost := c.lost + x.pkts }) st.2)
      else walkQueue p f q (st.1, releaseRefs p true h.runs (popHead q ref h st.2))

/-- R368: the walk of a queue, and the completion; while a block that it reads is on its way from DRAM the command waits. -/
def queueReset (c : AdminTag) (queue : Nat) (m : Mod) : Mod :=
  if (queueAt m queue).st ≠ 2 then done c 0x54 m
  else
    let y := hdrSettle (queueLabel m queue) m (walkQueue c.port (queueAt m queue).pkts queue ([], m))
    if !y.1 then park c (.queueReset queue) [] y.2
    else
      let m := onQueue queue (fun x => { x with head := 0xFFFF_FFFF, tail := 0xFFFF_FFFF, pkts := 0, cells := 0, st := 1, halt := 0 }) y.2
      done c 0x00 (resched (nodeKey 0 queue) m)

/-- R368: QUEUE_RESET. -/
def execQueueReset (h : AdminHdr) (queue : Nat) (s : State) : Res :=
  modStep (admin h 0x0606 (queue ≤ 262143) (fun c m => inOrder c (.queueReset queue) (queueReset c queue) m)) s

/-- R357: a replication list as the source buffer gives it. -/
def replSet (c : AdminTag) (list : Nat) (src : Option (List Byte)) (m : Mod) : Mod :=
  match src with
  | none => done c 0x55 m
  | some l =>
    let ws : List Word32 := (List.range 64).map (fun i => BitVec.ofNat 32 (fld l (4 * i) 4))
    if ws.any (fun x => bitsOf x 18 13 != 0#13) then done c 0x51 m
    else
      let put (t : List (Nat × Word32)) (x : Nat × Word32) : List (Nat × Word32) :=
        if x.2 = 0 then tabDel t (list * 64 + x.1) else tabPut t (list * 64 + x.1) x.2
      done c 0x00 { m with qs := { m.qs with repl := (ws.mapIdx (fun i x => (i, x))).foldl put m.qs.repl } }

/-- R357: REPL_SET. -/
def execReplSet (h : AdminHdr) (list : Nat) (w : BitVec 64) (s : State) : Res :=
  modStep (admin h 0x0607 (list ≤ 4095) (fun c m => withSource h c (.replSet list w) w 256 (replSet c list) m)) s

/-- R361: an egress port's word as the source buffer gives it. -/
def eportSet (c : AdminTag) (eport : Nat) (src : Option (List Byte)) (m : Mod) : Mod :=
  match src with
  | none => done c 0x55 m
  | some l =>
    let x : Word32 := BitVec.ofNat 32 (fld l 0 4)
    if bitsOf x 9 22 ≠ 0#22 then done c 0x51 m
    else done c 0x00 { m with qs := { m.qs with eports := if x = 0 then tabDel m.qs.eports eport else tabPut m.qs.eports eport x } }

/-- R361: EPORT_SET. -/
def execEportSet (h : AdminHdr) (eport : Nat) (w : BitVec 64) (s : State) : Res :=
  modStep (admin h 0x0608 (eport ≤ 127) (fun c m => withSource h c (.eportSet eport w) w 4 (eportSet c eport) m)) s

/-! ### Credit entries (R386, R387) -/

/-- The oldest fetched credit entry of a port adds to TXCREDIT. -/
def creditEntry (p : Port) (m : Mod) : Mod :=
  match (m.rings.get p).cred with
  | [] => m
  | (ring, e) :: rest =>
    let m := touch (onRings p (fun s => { s with cred := rest }) m)
    let ep := (byteOf e 0).toNat
    let bytes := (bitsOf e 32 32).toNat
    if 128 ≤ ep then event 0x0902 0 (ep + p.num * 2 ^ 8 + ring * 2 ^ 9) m
    else
      let k := nodeKey 3 ep
      let sum : Int := (schedNode m k).txCredit + bytes
      if 0x7FFF_FFFF < sum then
        event 0x0901 0 (ep + p.num * 2 ^ 8 + ring * 2 ^ 9) (onNode k (fun n => { n with txCredit := 0x7FFF_FFFF }) m)
      else onNode k (fun n => { n with txCredit := sum }) m

def execCreditEntry (port : Port) (s : State) : Res := engineStep (creditEntry port) s

/-! ### Timing wheels (R382) -/

/-- R382: the fine-wheel buckets that have ended are served: their nodes are examined again. -/
def execWheelBucketEnd (s : State) : Res :=
  engineStep (fun m =>
    let now := upTime m
    let due := m.egress.nodes.filter (fun e => match e.2.wheel with
      | some (d, false) => (d + 31) / 32 * 32 ≤ now
      | _ => false)
    due.foldl (fun m e => resched e.1 (onNode e.1 (fun n => { n with wheel := none }) m)) m) s

/-- R382: the coarse entries whose period the timebase has entered move to the fine wheel. -/
def execCoarseWheelPeriod (s : State) : Res :=
  engineStep (fun m =>
    let now := upTime m
    let move (n : Node) : Node := match n.wheel with
      | some (d, true) => if d / wheelSpan ≤ now / wheelSpan then { n with wheel := some (d, false) } else n
      | _ => n
    onEgress (fun e => { e with nodes := e.nodes.map (fun x => (x.1, move x.2)) }) m) s

/-! ### Parameter tables (R390 to R394) -/

/-- Entries of a table (R390). -/
def tableSize (t : Nat) : Nat := [262144, 32768, 4096, 128, 1048576].getD t 0

/-- A length overhead (R392): two's complement; 0x80 to 0xBF are reserved. -/
def ovhOf (b : Nat) : Option Int := if b < 128 then some b else if b < 192 then none else some ((b : Int) - 256)

/-- A rate. -/
def rateOk (r : Nat) : Bool := r == 0 || (64 ≤ r && r ≤ 1600000000)

/-- A scheduler node entry of level `t`, if it breaks no range (R392). -/
def nodeEntry (t : Nat) (l : List Byte) : Option Node :=
  let port := t == 3
  let parent := fld l 0 4
  let weight := fld l 6 2
  let cir := fld l 8 4
  let pir := fld l 12 4
  let ci := fld l 24 4
  match ovhOf (fld l 5 1) with
  | none => none
  | some ovh =>
    if parent < [32768, 4096, 128, 1].getD t 0 && (if port then fld l 4 1 == 0 else fld l 4 1 ≤ 7) &&
        (if port then weight == 0 else 1 ≤ weight && weight ≤ 1024) && (if port then cir == 0 else rateOk cir) && rateOk pir &&
        (cir == 0 || pir == 0 || cir ≤ pir) && (!port || fld l 16 3 == 0) && fld l 22 1 ≤ 1 && fld l 23 1 == 0 &&
        (if port then 1 ≤ ci && ci ≤ 0x7FFF_FFFF else ci == 0) && fld l 28 4 == 0 then
      some { initNode with parent := parent, prio := fld l 4 1, ovh := ovh, weight := weight, cir := cir, pir := pir,
                           cbs := fld l 16 3, pbs := fld l 19 3, enable := fld l 22 1 == 1, creditInit := ci }
    else none

/-- A policer entry, if it breaks no range (R393). -/
def polEntry (l : List Byte) : Option Policer :=
  let mode := fld l 0 1
  let cir := fld l 4 4
  let pir := fld l 8 4
  let cbs := fld l 12 3
  let ebs := fld l 15 3
  match ovhOf (fld l 2 1) with
  | none => none
  | some ovh =>
    let ok :=
      if mode = 0 then allZero (l.take 32)
      else mode ≤ 2 && fld l 1 1 ≤ 1 && fld l 3 1 == 0 && 64 ≤ cir && cir ≤ 1600000000 &&
        (if mode = 1 then pir == 0 else cir ≤ pir && pir ≤ 1600000000) && 1 ≤ cbs && (mode == 1 || 1 ≤ ebs) && allZero ((l.drop 18).take 14)
    if ok then some { initPolicer with mode := mode, aware := fld l 1 1 == 1, ovh := ovh, cir := cir, pir := pir, cbs := cbs, ebs := ebs }
    else none

/-- A node's new parameters take the place of the old ones (R381, R385). -/
def nodeMerge (now lvl : Nat) (old new : Node) : Node :=
  let old := refill now old
  let starts := lvl ≠ 0 ∧ new.enable = true ∧ old.enable = false
  { new with
    comm := if starts then new.cbs * byteUnit else min old.comm (new.cbs * byteUnit)
    peak := if starts then new.pbs * byteUnit else min old.peak (new.pbs * byteUnit)
    at_ := now
    deficit := if starts ∨ new.parent ≠ old.parent then 0 else old.deficit
    txCredit := if lvl = 3 ∧ new.enable = true ∧ old.enable = false then new.creditInit else old.txCredit
    wheel := old.wheel
    sel := old.sel }

/-- Commit one node: it is examined at its new place, and so are the nodes above its old one. -/
def commitNode (lvl n : Nat) (new : Node) (m : Mod) : Mod :=
  let k := nodeKey lvl n
  let was := (above m k).drop 1
  let m := onNode k (fun old => nodeMerge (upTime m) lvl old new) m
  examineAll was (resched k m)

/-- A policer's new parameters (R389). -/
def polMerge (now : Nat) (old new : Policer) : Policer :=
  let fresh := new.mode ≠ old.mode
  let old := refillPol now old
  { new with
    tc := if fresh then new.cbs * byteUnit else min old.tc (new.cbs * byteUnit)
    te := if fresh then new.ebs * byteUnit else min old.te (new.ebs * byteUnit)
    at_ := now
    green := old.green
    yellow := old.yellow
    red := old.red }

/-- One table entry as read and checked. -/
inductive TableEntry where
  | node (n : Node)
  | pol (p : Policer)
  deriving Repr

/-- Where an entry of a table lies (R390). -/
def entryW (m : Mod) (table i : Nat) : Word64 :=
  BitVec.ofNat 64 ((bitsOf (m.egress.tbase.toList.getD table 0) 12 41).toNat * 4096 + 32 * i)

/-- Whether an entry's address passes R164 with a port under a key id that serves accesses. -/
def entryOk (m : Mod) (p : Port) (w : Word64) : Bool := (rangeViolation m p w 32).isNone && keyServes m (wKey (rangeW w 0))

/-- The entries that a commit has read, in order: the failing code with the entry's index, or the entries. The first `good` of them
passed R164; `ids`: their reads. -/
def readEntries (m : Mod) (t first good : Nat) (ids : List Nat) : Nat → Nat → Except (Nat × Nat) (List TableEntry)
  | 0, _ => .ok []
  | n + 1, k =>
    let id := ids.getD k 0
    if good ≤ k || anyBad m [id] then .error (0x64, first + k)
    else
      let l := rangeBytes m [id] (entryW m t (first + k)) 32
      match (if t = 4 then (polEntry l).map TableEntry.pol else (nodeEntry t l).map TableEntry.node) with
      | none => .error (0x61, first + k)
      | some e => (readEntries m t first good ids n (k + 1)).map (e :: ·)

/-- R394: the entries have been read, and are committed together. -/
def schedCommit (c : AdminTag) (table first count good : Nat) (ids : List Nat) (m : Mod) : Mod :=
  let res := readEntries m table first good ids count 0
  let m := dropAcc ids m
  match res with
  | .error (code, i) => complete c code 0 (BitVec.ofNat 96 i) m
  | .ok l =>
    done c 0x00 ((l.mapIdx (fun i e => (first + i, e))).foldl (fun m x => match x.2 with
      | .node n => commitNode table x.1 n m
      | .pol p => onEgress (fun e => { e with policers := tabMod initPolicer e.policers x.1 (fun old => polMerge (upTime m) old p) }) m) m)

/-- R394: SCHED_COMMIT. -/
def execSchedCommit (h : AdminHdr) (table first count : Nat) (s : State) : Res :=
  modStep (admin h 0x0701 (1 ≤ count && count ≤ 65536) (fun c m =>
    if 4 < table || tableSize table < first + count then done c 0x62 m
    else if !(m.egress.tbase.toList.getD table 0).getLsbD 0 then done c 0x63 m
    else
      let good := ((List.range count).takeWhile (fun k => entryOk m h.port (entryW m table (first + k)))).length
      let m := if good = count then m else bufRefuse h.port (entryW m table (first + good)) 32 m
      let (ids, m) := accesses good (fun k m => access (adminBy m h.port) .memRd (rangeW (entryW m table (first + k)) 0) 0 0 false m) m
      let x : AdminWork := .schedCommit table first count good
      if answered m ids && !objectBusy m c x then schedCommit c table first count good ids m else park c x ids m)) s

/-- A signed 32-bit field. -/
def s32 (x : Int) : List Byte := toBytes (BitVec.ofInt 32 x) 4
/-- A 32-bit field. -/
def u32 (x : Nat) : List Byte := toBytes (BitVec.ofNat 32 x) 4

/-- *Scheduler state* of a node (R394). -/
def nodeState (m : Mod) (k : Nat) : List Byte :=
  let now := upTime m
  let n := refill now (schedNode m k)
  let port := keyLevel k == 3
  let elig := if port then portEligible m (keyNum k) else nodeBase m k && peakOk n
  let fine := n.wheel.any (fun w => !w.2)
  let coarse := n.wheel.any (fun w => w.2)
  let flags := (if elig then 1 else 0) + (if elig && !port && tierOf n == 0 then 2 else 0) + (if fine then 4 else 0) + (if coarse then 8 else 0)
  let wait := min 0xFFFF_FFFF (n.wheel.elim 0 (fun w => w.1 - now))
  s32 (n.comm / byteUnit) ++ s32 (n.peak / byteUnit) ++ s32 (if port then 0 else n.deficit) ++ u32 flags ++
    s32 (if port then n.txCredit else 0) ++ u32 wait ++ toBytes n.sel 8

/-- *Scheduler state* of a policer. -/
def polState (m : Mod) (i : Nat) : List Byte :=
  let p := refillPol (upTime m) (tabGet initPolicer m.egress.policers i)
  s32 (p.tc / byteUnit) ++ s32 (p.te / byteUnit) ++ toBytes p.green 4 ++ toBytes p.yellow 4 ++ toBytes p.red 4 ++ List.replicate 12 0

/-- R394: what SCHED_READ returns. A result buffer that fails R164 gives 0x65. -/
def schedRead (h : AdminHdr) (c : AdminTag) (table entry : Nat) (m : Mod) : Mod :=
  let l := if table = 4 then polState m entry else nodeState m (nodeKey table entry)
  if h.rlen < 32 then done c 0xE2 m
  else if !bufOk m h.port h.rbuf 32 then done c 0x65 (bufRefuse h.port h.rbuf 32 m)
  else completeWith h c 0 0 l m

/-- R394: SCHED_READ. -/
def execSchedRead (h : AdminHdr) (table entry : Nat) (s : State) : Res :=
  modStep (admin h 0x0702 true (fun c m =>
    if 4 < table || tableSize table ≤ entry then done c 0x62 m
    else inOrder c (.schedRead table entry h) (schedRead h c table entry) m)) s

end Sys2Proof.Machine
end

