-- ==== Sys2Proof/Machine/Rings.lean ====
section
/-! DEFINITION. Machine/Rings.lean: the ring engines (*Rings and doorbells*; R247 to R250): doorbell lines and snoops, entry
reads and their checks, line writes and interrupts, enabling and disabling. -/
namespace Sys2Proof.Machine

/-! ### Doorbell lines (R247, R249, R328) -/

/-- The rings whose doorbell slot lies in a line, in STATE 1 or 3. For poison in the line (R173) a ring that still drains (STATE 3,
ENABLE 0) counts among the enabled ones (DESIGN CHOICE, log entry 116). -/
def lineRings (m : Mod) (p : Port) (addr : Nat) : List Nat :=
  ((m.rings.get p).rings.filter (fun x => (x.2.state == 1 || x.2.state == 3) && x.2.db.toNat == addr)).map (·.1)

/-- Whether a RdShared of a line is open. -/
def dbReading (m : Mod) (p : Port) (addr : Nat) : Bool := (m.ports.get p).dbOpen.any (fun d => d.1 == addr)

/-- Read a doorbell line with RdShared, unless a read of it is open; a line in which no running ring has its slot is not read (R328),
nor any line of a contained port (R175). -/
def readDoorbell (p : Port) (addr : Nat) (m : Mod) : Mod :=
  if dbReading m p addr || (lineRings m p addr).isEmpty || contained m p then m
  else d2hSend p 0 addr (onPort p (fun q => { q with dbOpen := q.dbOpen ++ [(addr, false)] }) m)

/-- A read of this line is open: one more follows it (R249, R337). -/
def markAgain (p : Port) (addr : Nat) (m : Mod) : Mod :=
  onPort p (fun q => { q with dbOpen := q.dbOpen.map (fun d => if d.1 == addr then (addr, true) else d) }) m

/-- An H2D snoop arrives: the wake cause is that of a doorbell snoop where the line is one. -/
def snoopWake (p : Port) (addr : Nat) (m : Mod) : Mod :=
  wake (if (m.rings.get p).rings.any (fun x => x.2.state != 0 && x.2.db.toNat == addr) then 3 else msgCode p) (touch m)

/-- R330: the speculative reads of a SnpInv. -/
def speculate (p : Port) (addr : Nat) (m : Mod) : Mod :=
  (lineRings m p addr).foldl (fun m r =>
    let g := ringAt m p r
    if g.state == 1 && phased (cfgType g.cfg) && g.asked == g.midx && g.check == 0 && ringsRun m p (cfgType g.cfg) &&
        (cfgType g.cfg != 2 || enqRoom m p) then issueRead p r g.midx m
    else m) m

/-- The D2H cache drops a line. -/
def dropDoorbell (p : Port) (addr : Nat) (m : Mod) : Mod := onPort p (fun q => { q with dbHeld := q.dbHeld.filter (· != addr) }) m

/-- The D2H cache keeps only lines in which a running ring has its slot, so at most one per ring of the port (R247). -/
def dropUnnamed (p : Port) (m : Mod) : Mod :=
  onPort p (fun q => { q with dbHeld := q.dbHeld.filter (fun a => !(lineRings m p a).isEmpty) }) m

/-- R248, R249: SnpInv. It outranks an open RdShared of its line: no copy is kept, and one more read follows. -/
def snpInv (p : Port) (addr : Nat) (m : Mod) : Mod :=
  if !portTalks m p then m
  else
    let m := perfCount (halfPage p) (perfPlain 0x08 15) none (snoopWake p addr m)
    let held := (m.ports.get p).dbHeld.contains addr
    let m := dropDoorbell p addr m
    if dbReading m p addr then send (.h2dRsp p addr .rspIHitI) (markAgain p addr m)
    else if held then speculate p addr (readDoorbell p addr (send (.h2dRsp p addr .rspIHitSE) m))
    else send (.h2dRsp p addr .rspIHitI) m

def execSnpInv (port : Port) (addr : Nat) (s : State) : Res := modStep (snpInv port addr) s

/-- R248: SnpData and SnpCur keep the line. -/
def snpKeep (p : Port) (addr : Nat) (m : Mod) : Mod :=
  if !portTalks m p then m
  else
    let m := perfCount (halfPage p) (perfPlain 0x08 15) none (snoopWake p addr m)
    send (.h2dRsp p addr (if (m.ports.get p).dbHeld.contains addr then .rspSHitSE else .rspIHitI)) m

def execSnpData (port : Port) (addr : Nat) (s : State) : Res := modStep (snpKeep port addr) s

def execSnpCur (port : Port) (addr : Nat) (s : State) : Res := modStep (snpKeep port addr) s

/-! ### Taking entries (R330, R331, R332) -/

/-- An entry of a line, by position. -/
def entryOf (line : Sector) (bytes pos : Nat) : RawEntry := (line >>> (8 * bytes * pos)) &&& BitVec.ofNat 512 (2 ^ (8 * bytes) - 1)

/-- A fetched entry goes to its service. -/
def deliverEntry (p : Port) (r ty : Nat) (e : RawEntry) (m : Mod) : Mod :=
  if ty = 2 then onRings p (fun s => { s with enq := s.enq ++ [(r, e)] }) m
  else if ty = 4 then onRings p (fun s => { s with rel := s.rel ++ [(r, e)] }) m
  else if ty = 5 then onRings p (fun s => { s with cred := s.cred ++ [(r, e)] }) m
  else if ty = 6 then onRings p (fun s => { s with jobs := s.jobs ++ [(r, e)] }) m
  else
    let c : AdminTag := { port := p, tag := bitsOf e 64 64, opcode := bitsOf e 0 16 }
    { m with proc := { m.proc with queue := m.proc.queue ++ [(c, false)] } }

/-- Drop the lines that a ring holds and has not used, and let it ask for its entries again. -/
def dropHeld (p : Port) (r : Nat) (m : Mod) : Mod :=
  onRing p r (fun g => { g with asked := g.midx }) (onRings p (fun s => { s with held := s.held.filter (fun x => x.1 != r) }) m)

/-- Use the entry lines that have come, in count order, as far as the producer count reaches (R330). -/
def consume : Nat → Port → Nat → Mod → Mod
  | 0, _, _, m => m
  | k + 1, p, r, m =>
    let g := ringAt m p r
    let ty := cfgType g.cfg
    if g.state ≠ 1 ∨ ringsRun m p ty = false then m
    else match (m.rings.get p).held.find? (fun x => x.1 == r && x.2.1 == lineStart g g.midx) with
      | none => m
      | some (_, c0, line) =>
        if !below g.midx g.hidx then (if dbReading m p g.db.toNat then m else dropHeld p r m)
        else
          let b := entryBytes ty
          let e := entryOf line b (g.midx.toNat % perLine g)
          let drop (m : Mod) : Mod := onRings p (fun s => { s with held := s.held.filter (fun x => !(x.1 == r && x.2.1 == c0)) }) m
          if phased ty && e.getLsbD (8 * b - 1) != phaseOf g.midx (cfgLog2n g.cfg) then
            if g.reread then ringHalt p r 4 m
            else if dbReading m p g.db.toNat then m
            else issueRead p r g.midx (onRing p r (fun g => { g with reread := true }) (drop m))
          else
            let m := onRing p r (fun g => { g with midx := g.midx + 1, reread := false }) m
            let m := if lineEnd g g.midx = g.midx + 1 then drop m else m
            let m := deliverEntry p r ty e (touch m)
            let g := ringAt m p r
            let m := if 2 ^ cfgLog2n g.cfg / 8 ≤ (g.midx - g.shadowed).toNat then shadowWrite p r m else m
            consume k p r m

/-- Use what a ring holds, then fetch on. -/
def advance (p : Port) (r : Nat) (m : Mod) : Mod := consume 65536 p r m

/-- Poisoned data of one of the module's D2H reads (R173, R183). -/
def poisonRead (p : Port) (addr : Nat) (m : Mod) : Mod :=
  event 0x0308 0 (p.num + 2 + addr / 64 % 2 ^ 53 * 8) (setRas p .cachePoison (onPort p (fun q => { q with err := q.err ||| 2#8 }) m))

/-- R330, R331: an entry line comes. -/
def rdCurrData (p : Port) (addr : Nat) (data : Sector) (poison : Bool) (m : Mod) : Mod :=
  if !portTalks m p then m
  else
    let m := wake (msgCode p) (touch m)
    match (m.rings.get p).reads.findIdx? (fun x => x.2.2 == addr) with
    | none => m
    | some i =>
      let x := (m.rings.get p).reads.getD i default
      let m := onRings p (fun s => { s with reads := s.reads.eraseIdx i }) m
      let m := if poison then poisonRead p addr m else m
      if 256 ≤ x.1 then m
      else if poison then ringHalt p x.1 5 m
      else fetchPump (advance p x.1 (onRings p (fun s => { s with held := s.held ++ [(x.1, x.2.1, data)] }) m))

def execRdCurrData (port : Port) (addr : Nat) (data : Sector) (poison : Bool) (s : State) : Res :=
  modStep (rdCurrData port addr data poison) s

/-! ### Doorbell reads (R329, R337) -/

/-- What one ring takes from a doorbell read. -/
def readSlot (p : Port) (data : Sector) (m : Mod) (r : Nat) : Mod :=
  let g := ringAt m p r
  let v : Word32 := bitsOf data (32 * cfgDbSlot g.cfg) 32
  if g.check = 2 then onRing p r (fun g => { g with check := 1 }) m
  else if g.check = 1 ∧ v ≠ 0 then ringHalt p r 3 (onRing p r (fun g => { g with check := 0, hidx := v }) m)
  else
    let m := onRing p r (fun g => { g with check := 0, hidx := v }) m
    let ty := cfgType g.cfg
    if moduleProduced ty then
      if below g.midx v then ringHalt p r 2 m
      else
        let m := if ty = 1 then takeGrants p r v m else m
        ringFlush (g.wait.length + 1) p r m
    else if 2 ^ cfgLog2n g.cfg < (v - g.midx).toNat then ringHalt p r 1 m
    else advance p r m

/-- A doorbell line comes (R249, R329, R173). -/
def rdSharedData (p : Port) (addr : Nat) (data : Sector) (poison : Bool) (m : Mod) : Mod :=
  if !portTalks m p then m
  else
    let m := wake (msgCode p) (touch m)
    match (m.ports.get p).dbOpen.find? (fun d => d.1 == addr) with
    | none => m
    | some d =>
      let m := onPort p (fun q => { q with dbOpen := q.dbOpen.filter (fun x => x.1 != addr) }) m
      if contained m p then m
      else
        let m := onPort p (fun q => { q with dbHeld := (if d.2 then [] else [addr]) ++ q.dbHeld.filter (· != addr) }) m
        let m := if d.2 then readDoorbell p addr m else m
        let rs := lineRings m p addr
        dropUnnamed p (fetchPump (if poison then rs.foldl (fun m r => ringHalt p r 5 m) (poisonRead p addr m)
                                  else rs.foldl (readSlot p data) m))

def execRdSharedData (port : Port) (addr : Nat) (data : Sector) (poison : Bool) (s : State) : Res :=
  modStep (rdSharedData port addr data poison) s

/-- R328: the doorbell line of every ring in STATE 1 or 3 is read again. -/
def doorbellPoll (p : Port) (m : Mod) : Mod :=
  if !portTalks m p then m
  else
    let ls := (((m.rings.get p).rings.filter (fun x => x.2.state == 1 || x.2.state == 3)).map (fun x => x.2.db.toNat)).eraseDups
    ls.foldl (fun m a => readDoorbell p a m) m

def execDoorbellPoll (port : Port) (s : State) : Res := modStep (doorbellPoll port) s

/-- R332: an advance that no shadow write has reported is written to the shadow line. -/
def execShadowWriteTimer (port : Port) (r : RingNo) (s : State) : Res :=
  modStep (fun m =>
    let g := ringAt m port r.val
    if g.state == 1 && hostProduced (cfgType g.cfg) && g.shadowed != g.midx then shadowWrite port r.val m else m) s

/-- R333: a fetch window ends. -/
def execFetchWindow (s : State) : Res :=
  modStep (fun m => { m with rings := m.rings.map (fun _ x => { x with lines := [] }) }) s

/-! ### Line writes and interrupts (R324, R335) -/

/-- R324: the host takes an ItoMWr that has been sent: its data leaves. -/
def goWritePull (p : Port) (addr : Nat) (m : Mod) : Mod :=
  if !portTalks m p then m
  else
    let m := wake (msgCode p) (touch m)
    if (m.ports.get p).d2hWait.contains (2, addr) then m
    else match (m.rings.get p).writes.findIdx? (fun w => w.addr == addr && !w.pulled) with
      | none => m
      | some i =>
        let w := (m.rings.get p).writes.getD i default
        send (.itoMWrData p addr w.data)
          (onRings p (fun s => { s with writes := s.writes.modify i (fun w => { w with pulled := true }) }) m)

def execGoWritePull (port : Port) (addr : Nat) (s : State) : Res := modStep (goWritePull port addr) s

/-- The MSI-X message of a ring (R335), and the count of what follows it. -/
def ringSignal (p : Port) (r : Nat) (m : Mod) : Mod :=
  let g := ringAt m p r
  msix p (cfgVector g.cfg)
    (onRing p r (fun g => { g with modCount := 0, modSince := if g.midx = g.visible then none else some m.tb.now }) m)

/-- Whether a ring's MOD_TIME has passed. -/
def modTimeUp (m : Mod) (g : Ring) : Bool := g.modSince.any (fun t => t + cfgModTime g.cfg ≤ m.tb.now)

/-- A ring's message leaves when one of the conditions of R335 holds for entries that are visible. -/
def checkSignal (p : Port) (r : Nat) (m : Mod) : Mod :=
  let g := ringAt m p r
  if !cfgIrq g.cfg || g.modCount = 0 || contained m p then m
  else if cfgModCount g.cfg ≤ g.modCount || modTimeUp m g then ringSignal p r m
  else m

/-- The entry that an accepted SLEEP waits for begins once the host has taken its completion line (R490). -/
def sleepGo (p : Port) (m : Mod) : Mod :=
  if m.power.sleepAfter ≠ some p then m
  else
    let r := (adminPair m p).getD 256
    if (m.rings.get p).writes.any (fun w => w.ring == r) || !(ringAt m p r).wait.isEmpty then m
    else { m with power := { m.power with sleepAfter := none, state := 4, target := 2, phase := 0 } }

/-- R324, R335: the GO of a line write: its entries are visible. -/
def goDone (p : Port) (addr : Nat) (m : Mod) : Mod :=
  if !portTalks m p then m
  else
    let m := wake (msgCode p) (touch m)
    match (m.rings.get p).writes.findIdx? (fun w => w.addr == addr && w.pulled) with
    | none => m
    | some i =>
      let w := (m.rings.get p).writes.getD i default
      let m := onRings p (fun s => { s with writes := s.writes.eraseIdx i }) m
      if 256 ≤ w.ring then m
      else
        let g := ringAt m p w.ring
        let n := if below g.visible w.count then (w.count - g.visible).toNat else 0
        sleepGo p (checkSignal p w.ring (onRing p w.ring (fun g => { g with
          visible := if below g.visible w.count then w.count else g.visible, modCount := g.modCount + n }) m))

def execGo (port : Port) (addr : Nat) (s : State) : Res := modStep (goDone port addr) s

/-- R335: MOD_TIME has passed since the first entry that no message covers. -/
def execModTimeExpiry (port : Port) (r : RingNo) (s : State) : Res :=
  modStep (fun m => if modTimeUp m (ringAt m port r.val) then checkSignal port r.val m else m) s

/-! ### Enabling and disabling (R336 to R338) -/

/-- BAR0 offset of register `k` (0 to 3) of a ring (R336). -/
def ringRegOff (q : Port) (r k : Nat) : Nat := 0x20000 + 0x2000 * q.num + 0x20 * r + 8 * k

/-- Whether a completion ring may be the pair of a ring of type `ty` (R337). -/
def pairOk (m : Mod) (q : Port) (r ty pair : Nat) : Bool :=
  let c := ringAt m q pair
  cfgEnable c.cfg && cfgType c.cfg == ty + 1 &&
    !((m.rings.get q).rings.any (fun x => x.1 != r && cfgEnable x.2.cfg && (cfgType x.2.cfg == 6 || cfgType x.2.cfg == 8) && cfgPair x.2.cfg == pair))

/-- The checks of R337 on a configuration that is about to be enabled. -/
def enableOk (m : Mod) (q : Port) (r : Nat) (cfg : Word64) : Bool :=
  let ty := cfgType cfg
  let others := (m.rings.get q).rings.filter (fun x => x.1 != r && cfgEnable x.2.cfg)
  1 ≤ ty && ty ≤ 10 && 6 ≤ cfgLog2n cfg && cfgLog2n cfg ≤ 16 &&
    !((ty == 8 || ty == 10) && others.any (fun x => cfgType x.2.cfg == ty)) &&
    (!(ty == 6 || ty == 8) || pairOk m q r ty (cfgPair cfg)) &&
    !(others.any (fun x => x.2.db == (ringAt m q r).db && cfgDbSlot x.2.cfg == cfgDbSlot cfg))

/-- A ring starts (R337): both counts are 0, and its doorbell line is read for the check. -/
def startRing (q : Port) (r : Nat) (cfg : Word64) (m : Mod) : Mod :=
  let old := ringAt m q r
  let addr := old.db.toNat
  let open_ := dbReading m q addr
  let g : Ring := { initRing with base := old.base, cfg := cfg, db := old.db, shadow := old.shadow, state := 1,
                                  check := if open_ then 2 else 1, reservedPos := old.reservedPos }
  let m := onRing q r (fun _ => g) m
  if open_ then markAgain q addr m else readDoorbell q addr m

/-- The exchanges of a ring that ends: reads not returned and writes not done no longer concern it, and its reservations for
entries not fetched go back (R338). -/
def ringDrops (q : Port) (r : Nat) (m : Mod) : Mod :=
  let g := ringAt m q r
  let ty := cfgType g.cfg
  let s := m.rings.get q
  let n := (s.reads.filter (fun x => x.1 == r)).length + (s.held.filter (fun x => x.1 == r)).length
  let m := if ty == 6 || ty == 8 then onRing q (cfgPair g.cfg) (fun c => { c with reservedPos := c.reservedPos - n }) m else m
  onRings q (fun s => { s with
    reads := s.reads.map (fun x => if x.1 == r then (512, x.2) else x)
    held := s.held.filter (fun x => x.1 != r)
    writes := s.writes.map (fun w => if w.ring == r then { w with ring := 512 } else w) }) m

/-- R338: a ring is disabled. `cfg`: RING_CFG after it. -/
def stopRing (q : Port) (r : Nat) (cfg : Word64) (m : Mod) : Mod :=
  let g := ringAt m q r
  let ty := cfgType g.cfg
  let m := ringDrops q r m
  let m := if hostProduced ty then shadowWrite q r m else m
  let keep := (ty == 7 || ty == 9) && g.state == 1 && pairBusy m q r
  let m := onRing q r (fun g => { g with cfg := cfg, state := if keep then 3 else 0, full := if keep then g.full else false,
                                         wait := if keep then g.wait else [], check := 0 }) m
  let m := if ty == 1 then grantRingEnds q r m else m
  let m := if ty == 6 || ty == 8 then drainRing q (cfgPair g.cfg) m else m
  fetchPump (dropUnnamed q m)

/-- A write of RING_CFG (R336, R337). The enable bit of a ring in STATE 3 reads 0. -/
def ringCfgWrite (src : Source) (q : Port) (r : Nat) (v : Word64) (m : Mod) : Mod :=
  let off := ringRegOff q r 1
  let g := ringAt m q r
  let v := v &&& ~~~0x0000_FFF0_0000_0000#64
  if src == .sideband then regError off src.code 6 m
  else if src.port != some q then regError off src.code 2 m
  else if cfgEnable g.cfg then
    if (v ^^^ g.cfg) &&& ~~~1#64 ≠ 0 then regError off src.code 3 m
    else if cfgEnable v then m
    else stopRing q r v m
  else if !cfgEnable v then onRing q r (fun g => { g with cfg := v }) m
  else if enableOk m q r v then startRing q r v m
  else onRing q r (fun g => { g with cfg := v &&& ~~~1#64, state := 0, status := 9 }) m

def execRingEnable (src : Source) (q : Port) (r : RingNo) (value : Word64) (s : State) : Res :=
  modStep (sourceAccess src (ringRegOff q r.val 1) value (ringCfgWrite src q r.val value)) s

def execRingDisable (src : Source) (q : Port) (r : RingNo) (value : Word64) (s : State) : Res :=
  modStep (sourceAccess src (ringRegOff q r.val 1) value (ringCfgWrite src q r.val value)) s

/-- A write of RING_BASE, DB_ADDR or SHADOW_ADDR (register 0, 2 or 3; R336, R337). -/
def ringAddrWrite (src : Source) (q : Port) (r k : Nat) (v : Word64) (m : Mod) : Mod :=
  let off := ringRegOff q r k
  let g := ringAt m q r
  let v := if k = 0 then v &&& ~~~0xFFF#64 else v &&& ~~~0x3F#64
  if src == .sideband then regError off src.code 6 m
  else if src.port != some q then regError off src.code 2 m
  else
    let old := if k = 0 then g.base else if k = 2 then g.db else g.shadow
    if cfgEnable g.cfg && v != old then regError off src.code 3 m
    else if k = 0 then onRing q r (fun g => { g with base := v }) m
    else if k = 2 then onRing q r (fun g => { g with db := v }) m
    else onRing q r (fun g => { g with shadow := v }) m

end Sys2Proof.Machine
end

