-- ==== Sys2Proof/Machine/Ports.lean ====
section
/-! DEFINITION. Machine/Ports.lean: links and resets of the host ports (R155 to R157, R170, R174 to R177, R183,
R227, R562), and the CXL lane test (R523). -/
namespace Sys2Proof.Machine

/-! ### Port resets (R176, R177, R227, R250) -/

/-- A port's requests that hold a tracker entry are carried out, and no response leaves (R177). -/
def voidReq (p : Port) (q : MReq) : MReq := if q.port == p && isHost q then { q with void := true } else q

/-- Every list in which a request waits, with the port's requests void. -/
def voidAll (p : Port) (m : Mod) : Mod :=
  let v := voidReq p
  let miss (x : Miss) : Miss := { x with waiters := x.waiters.map v }
  let slice (s : Slice) : Slice := { s with misses := s.misses.map miss, missWait := s.missWait.map v, lineWait := s.lineWait.map v }
  let m := { m with slices := m.slices.map slice }
  let m := { m with filters := m.filters.map (fun (f : FilterSt) => { f with waiters := f.waiters.map v }) }
  let wait (w : MirrorWait) : MirrorWait := { w with req := w.req.map v }
  let m := { m with gang := { m.gang with held := m.gang.held.map v, waits := m.gang.waits.map wait } }
  let reseal (r : Reseal) : Reseal := { r with waiters := r.waiters.map v }
  let m := { m with prot := { m.prot with held := m.prot.held.map v, reseals := m.prot.reseals.map reseal } }
  let cell (w : CellWait) : CellWait := { w with req := v w.req }
  { m with qs := { m.qs with cellWaits := m.qs.cellWaits.map cell, writeWaits := m.qs.writeWaits.map v } }

/-- The BISnp open toward a port complete as though it had answered BIRspI (R177). -/
def answerGone (p : Port) (m : Mod) : Mod :=
  (List.finRange 4).foldl (fun m t =>
    let l := (m.filters[t] : FilterSt).snps.filter (fun s => s.port == p)
    if l.isEmpty then m else wakeFilter t (trimSettle t (l.foldl (fun m s => snpAnswer t s false false m) m))) m

/-- The rings of a port stop and are disabled, and every D2H exchange ends (R176, R250, R350); jobs of its rings end, their
output undefined (R313). `answers`: answers to open reads may still arrive, and are discarded. -/
def ringsReset (p : Port) (answers : Bool) (m : Mod) : Mod :=
  let grants := ((m.rings.get p).rings.filter (fun x => cfgEnable x.2.cfg && cfgType x.2.cfg == 1)).map (·.1)
  let js := m.jobs.filter (fun j => j.port == p)
  let m := js.foldl (fun m j => undefDst j (fullerEnd (.job j.id) m)) { m with jobs := m.jobs.filter (fun j => j.port != p) }
  let off (g : Ring) : Ring :=
    { g with cfg := g.cfg &&& ~~~1#64, state := 0, full := false, wait := [], check := 0, reservedPos := 0, modSince := none }
  let m := onRings p (fun s => { s with
    rings := s.rings.map (fun x => (x.1, off x.2))
    reads := if answers then s.reads.map (fun x => (512, x.2)) else []
    writes := []
    held := []
    jobs := [] }) m
  let m := onPort p (fun q => { q with d2hWait := [], dbHeld := [], dbOpen := [] }) m
  grants.foldl (fun m r => grantRingEnds p r m) m

/-- A lane test of the port ends with 0xC4 (R523). -/
def laneTestEnds (p : Port) (m : Mod) : Mod :=
  match (m.ports.get p).laneTest with
  | none => m
  | some t => done t.cmd 0xC4 (onPort p (fun q => { q with laneTest := none, l0pReq := none }) m)

/-- What every reset of a port does: tracker, D2H cache, rings, presence bits. -/
def portReset (p : Port) (answers : Bool) (m : Mod) : Mod :=
  let m := ringsReset p answers m
  let m := onPort p (fun q => { q with tracker := [], rxBuf := [], answerWr := 0, conflicts := [], overHeld := [], sweeping := true }) m
  fetchPump (answerGone p (voidAll p m))

/-- A conventional reset also resets the link and the configuration space (R176). -/
def conventionalReset (p : Port) (m : Mod) : Mod :=
  let m := laneTestEnds p m
  let m := onPort p (fun q => { q with linkUp := false, rate := .gt16, width := .x16, active := 0, lopt := false, degraded := false,
                                       viralRx := false, snpCredit := 0, d2hCredit := 0, l0pReq := none }) m
  let m := onPort p (fun q => { q with hdmCommitted := false, hdmError := false, hdmLock := false, hdmBase := 0, memEnable := false,
                                       cacheEnable := false, d3hot := false, tsBase := 0, tsAt := 0, msixOn := [], msixPend := [],
                                       msixTab := [] }) m
  portReset p false m

/-- R176: PERST_N of a port asserts; the sticky bits of AER and of the CXL RAS Capability go too (log entry 118). -/
def execFundamentalReset (port : Port) (s : State) : Res :=
  modStep (fun m => onPort port (fun q => { q with inReset := true, aer := [], ras := [] }) (conventionalReset port m)) s

/-- R176: hot reset; the sticky bits stay. -/
def execHotReset (port : Port) (s : State) : Res :=
  modStep (fun m => if (m.ports.get port).inReset then m else conventionalReset port m) s

/-- R176, R185: CXL Reset. The port stays up. -/
def execCxlReset (port : Port) (s : State) : Res :=
  modStep (fun m =>
    if !portTalks m port then m
    else portReset port true (onPort port (fun q => { q with err := q.err ||| 128#8 }) m)) s

/-- R227. -/
def execPresenceSweepEnd (port : Port) (s : State) : Res := modStep (finishSweep port) s

/-! ### Links (R155 to R157, R174, R175, R183, R562) -/

/-- PORT_ERR.DEGRADED and the link-degraded event; `cause`: 0 training, 1 lane test. -/
def degradedEvent (p : Port) (cause : Nat) (m : Mod) : Mod :=
  let q := m.ports.get p
  event 0x0301 0 (p.num + q.rate.code * 2 + q.width.code * 8 + cause * 32) m

/-- R155, R156: a link finishes training, and the port advertises its credits (R170). A half that a lane test found failing stays out (R523). A presence sweep has ended by
then (R227); in a viral state the port sets viral from link-up (R178). -/
def execLinkUp (port : Port) (rate : LinkRate) (width : LinkWidth) (lopt : Bool) (s : State) : Res :=
  modStep (fun m =>
    if (m.ports.get port).inReset then m
    else
      let m := finishSweep port m
      let w : LinkWidth := match width, (m.ports.get port).badHalf with
        | .x16, some true => .x8lo
        | .x16, some false => .x8hi
        | w, _ => w
      let bad := rate == .low || w != .x16
      let m := onPort port (fun q => { q with linkUp := true, rate := rate, width := w, active := if w == .x16 then 0 else 1,
                                              lopt := lopt, degraded := bad, l0pReq := none }) m
      let m := if bad then degradedEvent port 0 (onPort port (fun q => { q with err := q.err ||| 64#8 }) m) else m
      let m := send (.credits port (rxCredits false) (rxCredits true) 64) m
      if m.viral then send (.viral port) m else m) s

/-- R183: the link of a port leaves L0 without an ordered reset: AER records a surprise link-down (PRESUMED, log entry 118), and it resets
the port as a hot reset does (R176). -/
def execLinkDown (port : Port) (s : State) : Res :=
  modStep (fun m =>
    if !(m.ports.get port).linkUp then m
    else event 0x0302 0 port.num (conventionalReset port (setAer port .surpriseDown (onPort port (fun q => { q with err := q.err ||| 8#8 }) m)))) s

/-- R157: the host changes the width by L0p; the module's own request is withdrawn, and a lane test ends (R523). -/
def execL0pRequest (port : Port) (width : Fin 4) (s : State) : Res :=
  modStep (fun m =>
    if !portTalks m port then m
    else
      let m := laneTestEnds port m
      onPort port (fun q => { q with l0pReq := none, active := if q.width == .x16 then width.val else max 1 width.val }) m) s

/-- R183: an L0p change fails and the link retrains. -/
def execL0pFail (port : Port) (width : Fin 4) (s : State) : Res :=
  modStep (fun m =>
    if !(m.ports.get port).linkUp then m
    else event 0x0303 0 (port.num + width.val * 2) (onPort port (fun q => { q with err := q.err ||| 32#8, l0pReq := none }) m)) s

/-- R175, R183: viral from a host contains its port: its rings stand still, and D2H requests that have not left never do. -/
def execViralReceived (port : Port) (s : State) : Res :=
  modStep (fun m =>
    if !portTalks m port then m
    else
      let m := onPort port (fun q => { q with viralRx := true, d2hWait := [], err := q.err ||| 4#8 }) m
      event 0x0306 0 port.num (send (.viral port) (setRas port .viral m))) s

/-- R562, R178: PERST_N deasserts. Before PG_OUT it has no effect; in Deep sleep it wakes the module. -/
def execPerstDeassert (port : Port) (s : State) : Res :=
  .next (if s.fe.st = .powergood then onMod (fun m => onPort port (fun q => { q with inReset := false }) (wake 7 m)) s else s)

/-! ### The CXL lane test (R523) -/

/-- The port of a number. -/
def portOf (n : Nat) : Port := if n = 1 then .b else .a

/-- R523: PORT_LANE_TEST. -/
def execPortLaneTest (h : AdminHdr) (port half ms : Nat) (s : State) : Res :=
  modStep (admin h 0x0006 (port ≤ 1 && half ≤ 1 && 1 ≤ ms && ms ≤ 1000) (fun c m =>
    let p := portOf port
    let q := m.ports.get p
    if q.laneTest.isSome then done c 0xC3 m
    else if !q.linkUp || q.inReset || q.width != .x16 then done c 0xC2 m
    else send (.l0pReq p 1) (onPort p (fun q => { q with laneTest := some ⟨c, half == 1, 0⟩, l0pReq := some 1, active := 1 }) m))) s

/-- The lanes of the half under test. -/
def halfLanes (hi : Bool) : BitVec 16 := if hi then 0xFF00 else 0x00FF

/-- R523 step 2: the lanes return to x16, are margined, and x8 is asked for again. `fails`: lanes that failed. -/
def execPortLaneTestTick (port : Port) (fails : BitVec 16) (s : State) : Res :=
  modStep (fun m =>
    match (m.ports.get port).laneTest with
    | none => m
    | some t =>
      let t' : LaneTest := { t with fails := t.fails ||| (fails &&& halfLanes t.hi) }
      send (.l0pReq port 1) (send (.l0pReq port 0) (onPort port (fun q => { q with laneTest := some t' }) m))) s

/-- R523 step 3: the test ends. -/
def execPortLaneTestEnd (port : Port) (s : State) : Res :=
  modStep (fun m =>
    match (m.ports.get port).laneTest with
    | none => m
    | some t =>
      let m := send (.l0pReq port 0) (onPort port (fun q => { q with laneTest := none, l0pReq := none, active := 0 }) m)
      if t.fails = 0 then done t.cmd 0x00 m
      else
        let m := degradedEvent port 1 (onPort port (fun q => { q with degraded := true, badHalf := some t.hi }) m)
        complete t.cmd 0xC1 0 (t.fails.setWidth 96) m) s

end Sys2Proof.Machine
end

