-- ==== Sys2Proof/Machine/CacheCmds.lean ====
section
/-! DEFINITION. Machine/CacheCmds.lean: slice patrol, failing ways, sweeps and flushes, locking (R204 to R215), filter faults, the
filter test and its phases (R241 to R245), tag and filter readback. -/
namespace Sys2Proof.Machine

/-! ### Failing ways (R211 to R215) -/

/-- Note a disabled way in the health record, or strike it. -/
def healthWay (t : Tile) (way : Nat) (v : Bool) (m : Mod) : Mod :=
  let rest := m.flash.ways.filter (· != (t.val, way))
  { m with flash := { m.flash with ways := if v then (t.val, way) :: rest else rest } }

/-- The drain of a way begins (R213): its lines leave as their write-backs or fills end. -/
def startDrain (t : Tile) (way : Nat) (m : Mod) : Mod :=
  flushSel t (fun l => l.way == way) (onSlice t (fun s => { s with drain := putBit s.drain way true }) m)

/-- A way leaves service: allocation into it stops at once, a lock ends, a metadata way reduces METAWAYS (R213, R214). -/
def wayOut (t : Tile) (way : Nat) (m : Mod) : Mod :=
  let out (s : Slice) : Slice := { s with
    disabled := putBit s.disabled way true
    locked := putBit s.locked way false
    reserved := putBit s.reserved way false
    metaWays := if (metaWayList s).contains way then s.metaWays - 1 else s.metaWays }
  startDrain t way (passCheck t (onSlice t out m))

/-- R213: a way is disabled. `cause`: 0 error count, 1 tag copy uncorrectable. -/
def disableWay (t : Tile) (way cause : Nat) (m : Mod) : Mod :=
  if (m.slices[t] : Slice).disabled.getLsbD way then m
  else event 0x0401 0 (t.val + way * 4 + cause * 64) (healthWay t way true (wayOut t way m))

def execWayDisable (tile : Tile) (way : Fin 16) (tagErr : Bool) (s : State) : Res :=
  modStep (disableWay tile way.val (if tagErr then 1 else 0)) s

/-- An error counted against a way: the ninth within 1 s disables it. -/
def wayError (t : Tile) (way : Nat) (m : Mod) : Mod :=
  let now := m.tb.now
  let m := onSlice t (fun s => { s with wayErrs := (way, now) :: s.wayErrs.filter (fun e => now < e.2 + oneSecond) }) m
  if 9 ≤ ((m.slices[t] : Slice).wayErrs.filter (fun e => e.1 == way)).length then disableWay t way 0 m else m

/-- R212: an uncorrectable data word. -/
def badWord (t : Tile) (set way sector : Nat) (m : Mod) : Mod :=
  match entryAt m.slices[t] set way with
  | none => m
  | some l =>
    if !l.svalid.getLsbD sector then m
    else if l.sdirty.getLsbD sector then
      event 0x0204 0 (1 + t.val * 2 ^ 8 + set % 2 ^ 14 * 2 ^ 10 + way * 2 ^ 24)
        (onSlice t (putLine { l with poison := true, whole := 0 }) m)
    else if l.sdirty = 0 ∧ l.busy = false then onSlice t (dropLine set way) m
    else
      let l' : Line := { l with svalid := putBit l.svalid sector false }
      refillLine t l' (onSlice t (putLine l') m)

/-! ### Filter faults (R223, R241, R244, R245) -/

/-- Recall every entry of a slice that still names a port and has no BISnp open (R243). -/
def drainFilter (t : Tile) (m : Mod) : Mod :=
  ((m.filters[t] : FilterSt).entries.filter (fun e => !e.pend)).foldl (fun m e => recallEnt t e (.recalls false) m) m

/-- A slice enters broadcast mode (R241), and its drain begins. -/
def enterBroadcast (t : Tile) (cause : Nat) (m : Mod) : Mod :=
  drainFilter t (onFilter t (fun f => { f with broadcast := true, cause := cause, phase := 0 }) m)

/-- A copy goes out of service (R244): event and health record. -/
def copyOut (t : Tile) (shadow : Bool) (m : Mod) : Mod :=
  let f : FilterSt := m.filters[t]
  if (if shadow then f.copyFailS else f.copyFailP) then m
  else
    let m := onFilter t (fun f => if shadow then { f with copyFailS := true } else { f with copyFailP := true }) m
    let m := { m with flash := { m.flash with copyFail := (t.val, shadow) :: m.flash.copyFail } }
    event 0x0404 0 (t.val + (if shadow then 4 else 0)) m

/-- A filter test of a slice ends with code 0x38 for a copy. -/
def filterTestFails (t : Tile) (shadow : Bool) (m : Mod) : Mod :=
  match (m.filters[t] : FilterSt).test with
  | none => m
  | some c => complete c 0x38 0 (if shadow then 1 else 0) (onFilter t (fun f => { f with test := none }) m)

/-- An uncorrectable error in a copy of a filter entry. -/
def filterFault (t : Tile) (set way : Nat) (shadow : Bool) (m : Mod) : Mod :=
  let f : FilterSt := m.filters[t]
  if (if shadow then f.copyFailS else f.copyFailP) then m
  else
    let outOther := if shadow then f.copyFailP else f.copyFailS
    let badOther := (if shadow then f.badP else f.badS).contains (set, way)
    let has := f.entries.any (fun e => e.set == set && e.way == way)
    let m :=
      if has && (outOther || badOther) then
        event 0x0405 0 (t.val + set % 65536 * 4) (onFilter t (fun f => { f with
          entries := f.entries.filter (fun e => !(e.set == set && e.way == way)), lost := true
          badP := f.badP.filter (· != (set, way)), badS := f.badS.filter (· != (set, way)) }) m)
      else if has then
        onFilter t (fun f => if shadow then { f with badS := (set, way) :: f.badS } else { f with badP := (set, way) :: f.badP }) m
      else m
    let m := onFilter t (fun f => { f with forever := f.forever || outOther }) m
    let m := if f.test.isSome then filterTestFails t shadow (copyOut t shadow m) else m
    enterBroadcast t 2 m

/-- A run state word is uncorrectable (R369). -/
def runFault (n : Nat) (m : Mod) : Mod :=
  match poolOfRun m n with
  | none => m
  | some (k, _) =>
    if (runAt m n).dead then m
    else
      let m := onPool k (fun p => { p with lost := p.lost + 1 }) (onRun n (fun r => { r with dead := true }) m)
      event 0x0204 0 (2 + n * 2 ^ 8) m

/-- What the patrol of a tile does with one finding (R211, R212, R223, R284, R369). -/
def findingActs (t : Tile) (m : Mod) (f : Finding) : Mod :=
  match f with
  | .tagCopy _ way _ unc => if unc then disableWay t way.val 1 (wayError t way.val m) else wayError t way.val m
  | .dataWord set way sector unc => wayError t way.val (if unc then badWord t set way.val sector.val m else m)
  | .filterCopy set way shadow unc => if unc then filterFault t set way.val shadow m else m
  | .runWord run => if runTile run == t then runFault run m else m
  | .rootEntry _ => integrityStop 3 5 false (m.prot.sealR[t].base * 2 ^ 26) 0 m

def execSlicePatrol (tile : Tile) (found : List Finding) (s : State) : Res :=
  modStep (fun m => found.foldl (findingActs tile) m) s

/-! ### Drains, sweeps and flushes (R209, R210, R213) -/

/-- The lines that leave a tile for a drain or a flush go on, and the drains of ways without lines end. -/
def drainStep (t : Tile) (m : Mod) : Mod :=
  let m := flushSel t (fun l => (m.slices[t] : Slice).drain.getLsbD l.way) m
  let left (w : Nat) : Bool := (m.slices[t] : Slice).lines.any (fun l => l.way == w)
  onSlice t (fun s => { s with drain := (setBits s.drain).foldl (fun d w => if left w then d else putBit d w false) s.drain }) m

/-- R213: the drain of a tile's disabled ways ends: their dirty lines have been written back and their entries are invalid. A way
with a line still on its way out drains on. -/
def execWayDrainEnd (tile : Tile) (s : State) : Res :=
  modStep (fun m => if (m.slices[tile] : Slice).drain = 0 then m else wakeTile tile (drainStep tile m)) s

/-- The end of a one-way sweep (R208, R209): the way returns to service, and its test ends. -/
def wayBack (t : Tile) (way : Nat) (m : Mod) : Mod :=
  let s : Slice := m.slices[t]
  let m := onSlice t (fun s => { s with
    disabled := putBit s.disabled way false
    lines := s.lines.filter (fun l => l.way != way)
    test := none
    wayErrs := s.wayErrs.filter (fun e => e.1 != way) }) m
  let m := passCheck t (healthWay t way false m)
  s.test.elim m (fun x => done x.1 0x00 m)

/-- R209: the invalidation sweep of the slices that sweep ends. -/
def sweepEnd (m : Mod) : Mod :=
  (List.finRange 4).foldl (fun m t =>
    let s : Slice := m.slices[t]
    if !s.sweep then m
    else
      let m := onSlice t (fun s => { s with sweep := false, oneWay := none }) m
      match s.oneWay with
      | some w => wayBack t w m
      | none => onSlice t (fun s => { s with lines := [] }) m) m

/-- R209: the slices accept requests, and those held for them go on. -/
def execInvalidationSweepEnd (s : State) : Res :=
  modStep (fun m => (List.finRange 4).foldl (fun m t => wakeTile t m) (releaseHeld (sweepEnd m))) s

/-- Whether the flush that runs is a full one (R210): phase 4 of a reload, entry into Deep sleep. -/
def flushing (m : Mod) : Bool :=
  m.prot.reload.elim false (fun l => l.phase == 4) || (m.power.state == 4 && m.power.target == 3)

/-- The lines that the flush that runs selects (R210): every line, or those of a retiring key id. -/
def flushPick (m : Mod) (l : Line) : Bool :=
  flushing m || (l.space == 0 && (m.prot.keys[l.keyId.toNat]'l.keyId.isLt).st == .retiring)

/-- A flush passes the sets of a slice (log entry 107). That of Deep sleep discards the lines of tiles that it does not retain
(R216). -/
def flushPass (t : Tile) (m : Mod) : Mod :=
  if m.power.state == 4 && m.power.target == 3 && !m.power.retain.getLsbD t.val then
    onSlice t (fun s => { s with lines := [], transits := [] }) m
  else flushSel t (flushPick m) m

/-- Every slice begins a flush (R210). -/
def beginFlush (m : Mod) : Mod :=
  (List.finRange 4).foldl (fun m t => flushPass t m) { m with slices := m.slices.map (fun (s : Slice) => { s with flush := true }) }

/-- Whether a host copy stands under a retiring key id, or a BISnp of a line that has one is open: what it returns is still to be
flushed (R266). -/
def keyCopies (m : Mod) : Bool :=
  let dead (k : BitVec 6) : Bool := (m.prot.keys[k.toNat]'k.isLt).st == .retiring
  m.filters.any (fun f => f.entries.any (fun e => (e.presA && dead e.keyA) || (e.presB && dead e.keyB)) ||
    f.snps.any (fun x => dead (wKey x.w)))

/-- R210: what is left of a flush goes on; it ends when the write buffer has taken its last write-back. -/
def flushEnd (m : Mod) : Mod :=
  if m.slices.all (fun s => !s.flush) then m
  else
    let m := (List.finRange 4).foldl (fun m t => flushPass t m) m
    let left (t : Tile) : Bool :=
      (m.slices[t] : Slice).lines.any (fun l => flushPick m l) || (flushing m && !(m.slices[t] : Slice).transits.isEmpty)
    if (!flushing m && keyCopies m) || (List.finRange 4).any left then m
    else { m with slices := m.slices.map (fun (s : Slice) => { s with flush := false }) }

def execFlushEnd (s : State) : Res := modStep flushEnd s

/-! ### Locking (R204 to R208) -/

/-- A tile of a number. -/
def tileOf (n : Nat) : Tile := ⟨n % 4, by omega⟩

/-- A mask of ways. -/
def wayMask (l : List Nat) : BitVec 16 := l.foldl (fun b w => putBit b w true) 0

/-- R204: CACHE_LOCK_PREPARE. It completes once the lines of the reserved ways have left. -/
def execCacheLockPrepare (h : AdminHdr) (tile n : Nat) (s : State) : Res :=
  modStep (admin h 0x0301 (tile ≤ 3) (fun c m =>
    let t := tileOf tile
    let s : Slice := m.slices[t]
    let total := n + (setBits s.locked).length
    if 12 < total || 14 < total + s.metaWays + (setBits s.disabled).length then done c 0x31 m
    else if s.prep || s.prepCmd.isSome then done c 0x32 m
    else
      let ways := wayMask (((generalWays s).filter (fun w => !s.locked.getLsbD w)).take n)
      let m := passCheck t (onSlice t (fun s => { s with reserved := ways, prepCmd := some c }) m)
      lockStep t (flushSel t (fun l => ways.getLsbD l.way) m))) s

/-- The lines of a preload range. -/
def preloadRange (w : BitVec 64) (len : Nat) : List Nat :=
  let a := w.toNat % 2 ^ 42
  if len = 0 then [] else (List.range ((a % 256 + len + 255) / 256)).map (fun i => a / 256 * 256 + 256 * i)

/-- Whether a preload takes a line (R206), of the memory aperture, with the permission of the command's port. -/
def preloadOk (m : Mod) (p : Port) (t : Tile) (w : BitVec 64) (a : Nat) : Bool :=
  let x : BitVec 53 := BitVec.ofNat 53 (w.toNat / 2 ^ 42 % 2 ^ 11 * 2 ^ 42 + a)
  wAper x == 0 && a < 2 ^ 42 && (violation m p x true).isNone && keyServes m (wKey x) &&
    (regionOf m a).elim false (fun r => rgTile r == t && !rgElastic r && rgWpol r ≤ 1)

/-- R206: CACHE_PRELOAD. -/
def execCachePreload (h : AdminHdr) (tile : Nat) (w : BitVec 64) (len : Nat) (s : State) : Res :=
  modStep (admin h 0x0302 (tile ≤ 3) (fun c m =>
    let t := tileOf tile
    let l := preloadRange w len
    if !(m.slices[t] : Slice).prep then done c 0x32 m
    else if 2 ^ 53 ≤ w.toNat || !(l.all (preloadOk m h.port t w)) then done c 0x34 m
    else
      let x : Preload := { cmd := c, keyId := wKey (BitVec.ofNat 53 w.toNat), label := wLabel (BitVec.ofNat 53 w.toNat), todo := l, pending := [], missed := 0 }
      preloads t (onSlice t (fun s => { s with preloads := s.preloads ++ [x] }) m))) s

/-- R205: CACHE_LOCK. What is dirty in the ways that become locked is written back first and stays, clean. -/
def execCacheLock (h : AdminHdr) (tile : Nat) (s : State) : Res :=
  modStep (admin h 0x0303 (tile ≤ 3) (fun c m =>
    let t := tileOf tile
    let s : Slice := m.slices[t]
    if !s.prep || s.lockCmd.isSome then done c 0x32 m
    else lockStep t (lockStep t (onSlice t (fun s => { s with lockCmd := some c }) m)))) s

/-- R207: CACHE_UNLOCK. A CACHE_LOCK_PREPARE or CACHE_LOCK that still waits for its ways has no reservation left (log entry
108). -/
def execCacheUnlock (h : AdminHdr) (tile : Nat) (s : State) : Res :=
  modStep (admin h 0x0304 (tile ≤ 3) (fun c m =>
    let t := tileOf tile
    let s : Slice := m.slices[t]
    let ways := s.locked ||| s.reserved
    let back (s : Slice) : Slice :=
      { s with locked := 0, reserved := 0, prep := false, prepCmd := none, lockCmd := none,
               lines := (s.lines.filter (fun l => l.svalid != 0 || l.busy)).map (fun l =>
                 if ways.getLsbD l.way then { l with rrpv := 3 } else l) }
    let m := (s.prepCmd.toList ++ s.lockCmd.toList).foldl (fun m x => done x 0x32 m) (onSlice t back m)
    done c 0x00 (wakeTile t (passCheck t m)))) s

/-- R208: WAY_TEST. -/
def execWayTest (h : AdminHdr) (tile way : Nat) (s : State) : Res :=
  modStep (admin h 0x0305 (tile ≤ 3 && way ≤ 15) (fun c m =>
    let t := tileOf tile
    let s : Slice := m.slices[t]
    if s.locked.getLsbD way || s.reserved.getLsbD way then done c 0x33 m
    else if s.test.isSome then done c 0x35 m
    else
      let m := onSlice t (fun s => { s with test := some (c, way) }) m
      if s.disabled.getLsbD way then startDrain t way m else wayOut t way m)) s

/-- R208: the march test of a drained way ends. A passing way gets a one-way sweep, and then returns to service. -/
def execWayTestEnd (tile : Tile) (pass : Bool) (s : State) : Res :=
  modStep (fun m =>
    let s : Slice := m.slices[tile]
    match s.test with
    | none => m
    | some (c, way) =>
      if s.drain.getLsbD way || s.sweep then m
      else if pass then onSlice tile (fun s => { s with sweep := true, oneWay := some way }) m
      else done c 0x36 (healthWay tile way true (onSlice tile (fun s => { s with test := none }) m))) s

/-- R192: TAG_READ. -/
def execTagRead (h : AdminHdr) (tile set way : Nat) (s : State) : Res :=
  modStep (admin h 0x0306 (tile ≤ 3 && set < 16384 && way ≤ 15) (fun c m =>
    completeWith h c 0 0 (toBytes ((entryAt m.slices[tileOf tile] set way).elim tagWordNone tagWordOf) 8) m)) s

/-! ### The filter test (R243 to R245) and readback -/

/-- R245: FILTER_TEST. -/
def execFilterTest (h : AdminHdr) (tile : Nat) (s : State) : Res :=
  modStep (admin h 0x0307 (tile ≤ 3) (fun c m =>
    if m.filters.any (fun f => f.test.isSome) then done c 0x37 m
    else enterBroadcast (tileOf tile) 1 (onFilter (tileOf tile) (fun f => { f with test := some c }) m))) s

/-- R243: the drain has recalled every valid entry; while one is left it goes on. -/
def execFilterDrainEnd (tile : Tile) (s : State) : Res :=
  modStep (fun m =>
    let f : FilterSt := m.filters[tile]
    if !f.broadcast || f.phase ≠ 0 then m
    else if f.entries.isEmpty then onFilter tile (fun f => { f with phase := 1 }) m
    else drainFilter tile m) s

/-- R244: the march test of both copies ends. -/
def execFilterMarchEnd (tile : Tile) (failP failS : Bool) (s : State) : Res :=
  modStep (fun m =>
    let f : FilterSt := m.filters[tile]
    if !f.broadcast || f.phase ≠ 1 then m
    else
      let m := if failP then filterTestFails tile false (copyOut tile false m) else m
      let m := if failS then filterTestFails tile true (copyOut tile true m) else m
      onFilter tile (fun f => { f with phase := 2, forever := f.forever || (f.copyFailP && f.copyFailS) }) m) s

/-- R243: the sweep ends, and the slice leaves broadcast mode. -/
def execFilterSweepEnd (tile : Tile) (s : State) : Res :=
  modStep (fun m =>
    let f : FilterSt := m.filters[tile]
    if !f.broadcast || f.phase ≠ 2 then m
    else
      let m := onFilter tile (fun f => { f with entries := [], badP := [], badS := [], broadcast := f.forever, test := none }) m
      let m := match f.test with
        | some c => done c 0x00 m
        | none => m
      wakeFilter tile m) s

/-- R222: FILTER_READ: the primary and the shadow copy. -/
def execFilterRead (h : AdminHdr) (tile set way : Nat) (s : State) : Res :=
  modStep (admin h 0x0308 (tile ≤ 3 && set < 65536 && way ≤ 15) (fun c m =>
    let f : FilterSt := m.filters[tileOf tile]
    let e := (f.entries.find? (fun e => e.set == set && e.way == way)).elim 0 filtWordOf
    completeWith h c 0 0 (toBytes e 8 ++ toBytes e 8) m)) s

end Sys2Proof.Machine
end

