-- ==== Sys2Proof/Machine/Gang.lean ====
section
/-! DEFINITION. Machine/Gang.lean: the gangline: training, HELLO and epochs (R423 to R425, R441 to R443), replay (R430 to
R435), width and rate changes (R438, R439), mirrored writes (R445), resynchronisation (R447 to R451), commands (R453). -/
namespace Sys2Proof.Machine

/-! ### Digests and HELLO -/

/-- The region digest (R424): the first 8 B of SHA-384 over the valid entries with MIRROR = 1, in entry order. -/
def regionDigest (m : Mod) : Word64 :=
  let l := m.prot.regions.filter (fun r => rgValid r && rgMirror r)
  ofBytes 64 ((sha384 (l.map (fun r => toBytes r 16)).flatten).take 8)

/-- Send HELLO (R424): at link-up outside any epoch, later as a control message of the epoch. -/
def sendHello (m : Mod) : Mod :=
  let g := m.gang
  let x : GangOut := .hello g.topEpoch g.fresh (!g.bitmap.isEmpty) g.needPar (regionDigest m)
  if g.link = 3 then gangTx false x m else perfCount devPage (perfPlain 0x0B 15) none (gangOutput 0 x m)

/-! ### Waiting writes and the epoch's end -/

/-- Accesses that are given up: requests that have not entered service go. -/
def cancelAcc (ids : List Nat) (m : Mod) : Mod :=
  let stays (q : MReq) : Bool := match q.who with
    | .engine id _ _ => !ids.contains id
    | .host => true
  let m := { m with slices := m.slices.map (fun (s : Slice) => { s with missWait := s.missWait.filter stays, lineWait := s.lineWait.filter stays }) }
  let m := { m with filters := m.filters.map (fun (f : FilterSt) => { f with waiters := f.waiters.filter stays }) }
  dropAcc ids { m with prot := { m.prot with held := m.prot.held.filter stays } }

/-- The accesses of what the mirror engine has under way. -/
def mirrorIds (g : GangSt) : List Nat := g.rxWait.flatMap (·.ids) ++ g.reading.elim [] (·.ids)

/-- A resynchronisation under way ends. -/
def dropResync (m : Mod) : Mod :=
  let ids := m.gang.reading.elim [] (·.ids)
  cancelAcc ids (onGang (fun g => { g with copying := none, left := [], toCopy := [], digOut := [], donePass := [], pass := 0,
                                           rxDone := false, reading := none }) m)

/-- Every mirrored write that awaits a MACK completes here, and sets the bit of its granule (R443, R451). Writes that wait for
a granule's RACK go on. -/
def completeWaits (m : Mod) : Mod :=
  let ws := m.gang.waits
  let hs := m.gang.held
  let m := dropResync (onGang (fun g => { g with waits := [], held := [] }) m)
  let m := ws.foldl (fun m w =>
    let m := mirrorLocal w.off m
    match w.req with
    | some q => sendNdr q .none m
    | none => m) m
  serveAll hs m

/-- R443: the epoch ends with a cause; `retrain`: training starts again (R423). -/
def epochEnd (cause : Nat) (retrain : Bool) (m : Mod) : Mod :=
  if m.gang.link < 2 || (m.gang.link == 2 && m.gang.change.isNone) then m
  else
    let ep := m.gang.epoch
    let lt := m.gang.laneTest
    let down (g : GangSt) : GangSt :=
      { g with link := if retrain && !g.dead then 2 else 1, mirror := .down, sent := [], txWait := [], reqSent := 0, reqRet := 0,
               credRet := 0, nextSeq := 0, expect := 0, rxNum := 0, unacked := 0, ackV := false, expiries := 0 }
    let m := cancelAcc (mirrorIds m.gang) m
    let clear (g : GangSt) : GangSt :=
      { g with rxWait := [], change := none, changeOwn := false, changeWait := none, laneTest := none, width := 0, rate := 0, rxGran := [], rxDiff := [],
               rxLast := false, crcAt := [], err := putBit g.err 2 true }
    let m := completeWaits (onGang (fun g => clear (down g)) m)
    let m := match lt with
      | some (c, _) => done c 0x82 m
      | none => m
    event 0x0B03 0 (ep.toNat + cause * 2 ^ 32) m

/-- Set a bit of GANG_ERR. -/
def gangErr (i : Nat) (m : Mod) : Mod := onGang (fun g => { g with err := putBit g.err i true }) m

/-! ### Sending a resynchronisation (R449) -/

/-- Logical offset of a 64 KiB granule of mirrored space (R447). -/
def granOff (m : Mod) (i : Nat) : Nat := (mirrorGranules m).getD (i / 1024) 0 * 2 ^ 26 + i % 1024 * 65536

/-- Granules of mirrored space. -/
def granCount (m : Mod) : Nat := 1024 * (mirrorGranules m).length

/-- The accessor of received mirrored writes, and of resynchronisation: MIRROR slots, its kind in place of a label (R408, R416). -/
def mirrorBy (resync : Bool) : Accessor := ⟨.a, .mirror, if resync then 1 else 0⟩

/-- Read the sectors of a granule under its region's key id (R449). -/
def readGranule (i : Nat) (m : Mod) : List Nat × Mod :=
  let off := granOff m i
  let key := (regionOf m off).elim 0 engineKey
  accesses 1024 (fun k m => access (mirrorBy true) .memRd (wOf ((off + 64 * k) / 64) 0 key) 0 0 false m) m

/-- Copy one granule: its reads start. -/
def sendGranule (i : Nat) (m : Mod) : Mod :=
  let x := readGranule i m
  let rd : GranRead := { gran := i, ids := x.1, copy := true, run := [], digs := [] }
  onGang (fun g => { g with copying := some i, reading := some rd }) x.2

/-- The sectors that the reads of a granule have brought; a poisoned one is sent poisoned (R76). -/
def granSectors (m : Mod) (ids : List Nat) : List (Sector × Bool) := ids.map (fun i => (accAns m i).getD (0, true))

/-- Send one 4 KiB page: a ZPG when it reads as zero, else 64 RSD messages. -/
def sendPage (key : BitVec 6) (off : Nat) (l : List (Sector × Bool)) (m : Mod) : Mod :=
  if l.all (fun x => x.1 == 0 && !x.2) then gangTx true (.zpg off) m
  else (l.mapIdx (fun i x => (i, x))).foldl (fun m x => gangTx true (.rsd key (off + 64 * x.1) x.2.1 x.2.2) m) m

/-- The digest of a granule (R449): the first 8 B of SHA-384 over its plaintext. -/
def granDigest (l : List (Sector × Bool)) : Word64 :=
  ofBytes 64 ((sha384 (l.map (fun x => toBytes x.1 64)).flatten).take 8)

/-- The leading run of at most `k` consecutive numbers of a list. -/
def leadRun : Nat → List Nat → List Nat
  | _, [] => []
  | 0, _ => []
  | k + 1, a :: rest => a :: (if rest.head? == some (a + 1) then leadRun k rest else [])

/-- The source is through with its passes, the destination has said so, and every forwarded write has its MACK. -/
def resyncOver (m : Mod) : Mod :=
  let g := m.gang
  if g.mirror = .source ∧ g.pass = 3 ∧ g.left = [] ∧ g.toCopy = [] ∧ g.copying = none ∧ g.bitmap = [] ∧ g.rxDone = true ∧ g.waits = [] then
    onGang (fun g => { g with mirror := .mirroring, pass := 0, donePass := [], rxDone := false }) m
  else m

/-- The next granule of the pass, or the next pass (R449). The number bounds the passes entered in one step. -/
def resyncNext : Nat → Mod → Mod
  | 0, m => m
  | k + 1, m =>
    let g := m.gang
    if g.mirror ≠ .source ∨ g.copying.isSome ∨ g.digOut ≠ [] ∨ g.reading.isSome then m
    else match g.toCopy with
      | i :: rest => sendGranule i (onGang (fun g => { g with toCopy := rest }) m)
      | [] => match g.left with
        | [] =>
          if g.pass = 1 then resyncNext k (onGang (fun g => { g with pass := 2, left := List.range (granCount m), donePass := [] }) m)
          else if g.pass = 2 then
            resyncNext k (onGang (fun g => { g with pass := 3, left := g.bitmap, donePass := g.donePass.filter (fun i => !g.bitmap.contains i) }) m)
          else if g.bitmap = [] then resyncOver m
          else resyncNext k (onGang (fun g => { g with left := g.bitmap, donePass := g.donePass.filter (fun i => !g.bitmap.contains i) }) m)
        | i :: rest =>
          if g.pass = 2 then
            let run := leadRun 13 (i :: rest)
            let x := readGranule i m
            let rd : GranRead := { gran := i, ids := x.1, copy := false, run := run.drop 1, digs := [] }
            onGang (fun g => { g with left := g.left.drop run.length, digOut := run, reading := some rd }) x.2
          else sendGranule i (onGang (fun g => { g with left := rest }) m)

/-- A granule that the source reads has come: its pages go out, or its digest joins the message, which goes out with the last of
its run (R449). -/
def granRead (m : Mod) : Mod :=
  match m.gang.reading with
  | none => m
  | some rd =>
    if !answered m rd.ids then m
    else
      let l := granSectors m rd.ids
      let off := granOff m rd.gran
      let key := (regionOf m off).elim 0 engineKey
      let m := dropAcc rd.ids (onGang (fun g => { g with reading := none }) m)
      if rd.copy then
        (List.range 16).foldl (fun m p => sendPage key (off + 4096 * p) ((l.drop (64 * p)).take 64) m) m
      else
        let ds := rd.digs ++ [granDigest l]
        match rd.run with
        | [] => gangTx true (.rdig (rd.gran + 1 - ds.length) ds) m
        | j :: rest =>
          let x := readGranule j m
          onGang (fun g => { g with reading := some { gran := j, ids := x.1, copy := false, run := rest, digs := ds } }) x.2

/-- Become the source: the bitmap pass first, or the full pass alone (R448, R449). -/
def startSource (fullOnly : Bool) (m : Mod) : Mod :=
  let n := granCount m
  let first (g : GangSt) : List Nat := if fullOnly then List.range n else g.bitmap
  let m := onGang (fun g => { g with mirror := .source, pass := if fullOnly then 2 else 1, left := first g }) m
  resyncNext 4 (onGang (fun g => { g with donePass := [], toCopy := [], digOut := [], copying := none, rxDone := false }) m)

/-- Become the destination. -/
def startDest (m : Mod) : Mod :=
  onGang (fun g => { g with mirror := .dest, rxGran := [], rxDiff := [], rxLast := false }) m

/-- In SPLIT this module is named as the source: it ORs the destination's bitmap into its own (R448; log entry 100). -/
def splitSource (m : Mod) : Mod :=
  let peer := (Config.peerBits m.free).filter (· < granCount m)
  let both (l : List Nat) : List Nat := (List.range (granCount m)).filter (fun i => l.contains i || peer.contains i)
  startSource false (onGang (fun g => { g with bitmap := both g.bitmap }) { m with free := m.free + 1 })

/-- In SPLIT the peer is the source: this module sends it its bitmap. -/
def splitDest (m : Mod) : Mod := startDest (send (.gangBitmap m.gang.bitmap) m)

/-- A message of a resynchronisation that arrives in SPLIT shows that GANG_SOURCE has named the peer (log entry 100). -/
def asDest (m : Mod) : Mod := if m.gang.mirror = .split then splitDest m else m

/-- Digests that differ (R425): writes that await a MACK complete here. -/
def mismatch (d : Word64) (m : Mod) : Mod :=
  event 0x0B02 0 d.toNat (completeWaits (gangErr 8 (onGang (fun g => { g with mirror := .mismatch }) m)))

/-- R425, R448: compare the region digests and choose the source. -/
def chooseSource (x : HelloMsg) (m : Mod) : Mod :=
  let g := m.gang
  let bits := !g.bitmap.isEmpty
  if x.digest ≠ regionDigest m then mismatch x.digest m
  else if g.fresh ∧ x.fresh then onGang (fun g => { g with mirror := .mirroring }) m
  else if g.fresh then startDest m
  else if x.fresh then startSource false m
  else if bits ∧ x.dirty then onGang (fun g => { g with mirror := .split }) m
  else if bits then startSource false m
  else if x.dirty then startDest m
  else if g.primary then startSource true m
  else startDest m

/-! ### Training and link-up -/

/-- R423: an attempt has failed: the next width, then the lower rate; after the last the module waits to retry. -/
def execGangTrainingTimeout (s : State) : Res :=
  modStep (onGang (fun g =>
    if g.link ≠ 2 ∨ g.change.isSome then g
    else if g.width < 2 then { g with width := g.width + 1 }
    else if g.rate = 0 then { g with width := 0, rate := 1 }
    else { g with link := 1, width := 0, rate := 0 })) s

/-- R423: training starts again. -/
def execGangTrainingRetry (s : State) : Res :=
  modStep (fun m =>
    if m.gang.link = 1 ∧ m.gang.dead = false ∧ m.proc.bootDone ∧ m.therm.critical = false ∧ m.power.state ≠ 3 then
      onGang (fun g => { g with link := 2, width := 0, rate := 0 }) m
    else m) s

/-- R424: training reaches link-up at a width and rate, and HELLO goes out. -/
def execGanglineLinkUp (width : Fin 3) (rate : Fin 2) (s : State) : Res :=
  modStep (fun m =>
    if m.gang.link = 2 ∧ m.gang.change = none then sendHello (onGang (fun g => { g with width := width.val, rate := rate.val }) m) else m) s

/-- The epoch that a HELLO opens (R424, R437). -/
def openEpoch (x : HelloMsg) (m : Mod) : Mod :=
  let top := max m.gang.topEpoch x.epoch + 1
  let ep (g : GangSt) : GangSt :=
    { g with primary := Config.moduleId.toNat < x.moduleId.toNat, epoch := BitVec.ofNat 32 top, topEpoch := top,
             parity := g.needPar || x.parity, link := 3, keepX4 := false, peer := some x, peerId := x.moduleId }
  let seq (g : GangSt) : GangSt :=
    { g with nextSeq := 0, sent := [], reqSent := 0, reqRet := 0, expiries := 0, txWait := [], expect := 0, rxNum := 0, unacked := 0,
             ackV := false, credRet := 0, barkAt := m.tb.now }
  onGang (fun g => seq (ep g)) m

/-- R424, R425, R448: the peer's HELLO. One that comes while the link is up reports the peer's digest anew (R425). -/
def hello (f : FlitHdr) (x : HelloMsg) (m : Mod) : Mod :=
  if m.gang.dead || m.gang.link < 2 then m
  else if m.gang.link = 2 ∧ m.gang.change = none then
    if x.moduleId = Config.moduleId then
      event 0x0B01 0 1 (gangErr 7 (onGang (fun g => { g with dead := true, link := 1, peerId := x.moduleId }) m))
    else chooseSource x (openEpoch x m)
  else gangRecv f (fun m =>
    let m := onGang (fun g => { g with peer := some x }) m
    if x.digest ≠ regionDigest m then mismatch x.digest m
    else if m.gang.mirror = .mismatch then chooseSource x m else m) m

def execHello (f : FlitHdr) (m : HelloMsg) (s : State) : Res := modStep (hello f m) s

/-! ### Changes of width and rate (R438, R439) -/

/-- Ask for a change; one that comes while a change runs is served after it. -/
def askChange (w r : Nat) (m : Mod) : Mod :=
  if m.gang.link < 2 || (m.gang.link == 2 && m.gang.change.isNone) then m
  else if m.gang.change.isSome then onGang (fun g => { g with changeWait := some (w, r, true) }) m
  else onGang (fun g => { g with link := 2, change := some (w, r), changeOwn := true }) (gangTx false (.change w r) m)

/-- The change that the peer asks for begins. -/
def peerChange (w r : Nat) (m : Mod) : Mod := onGang (fun g => { g with link := 2, change := some (w, r), changeOwn := false }) m

/-- R438, R439: the peer asks for a change. Where this module has asked for one as well, the primary's request stands; one that comes
while the peer's own change runs is served after it. -/
def execChange (f : FlitHdr) (width : Fin 3) (rate : Fin 2) (s : State) : Res :=
  modStep (gangRecv f (fun m =>
    if m.gang.change.isNone then peerChange width.val rate.val m
    else if !m.gang.changeOwn then onGang (fun g => { g with changeWait := some (width.val, rate.val, false) }) m
    else if m.gang.primary then m
    else peerChange width.val rate.val m)) s

/-- A marker and every unacknowledged flit, in order (R435, R438). -/
def resend (m : Mod) : Mod :=
  match m.gang.sent with
  | [] => m
  | x :: rest =>
    let m := gangOutput 0 (.marker x.seq) m
    (x :: rest).foldl (fun m y => perfCount devPage (perfPlain 0x0C 15) none (gangOutput y.seq y.msg m)) (onGang (fun g => { g with unacked := 0 }) m)

/-- R438: the retrain ends; each side replays. -/
def execChangeComplete (s : State) : Res :=
  modStep (fun m =>
    match m.gang.change with
    | none => m
    | some (w, r) =>
      let next := m.gang.changeWait
      let m := onGang (fun g => { g with link := 3, width := w, rate := r, change := none, changeOwn := false,
                                          changeWait := none, crcAt := [] }) m
      let m := gangPump (resend m)
      match next with
      | some (w, r, true) => askChange w r m
      | some (w, r, false) => peerChange w r m
      | none => m) s

/-- R438: the change has not ended within 100 µs. -/
def execChangeTimeout (s : State) : Res := modStep (fun m => if m.gang.change.isSome then epochEnd 4 true m else m) s

/-- R439: 1 s without error at a reduced setting; a failing lane keeps x4 until the next epoch (R453). -/
def execErrorFreeTimer (s : State) : Res :=
  modStep (fun m =>
    let g := m.gang
    let w := if g.keepX4 then g.width else 0
    if g.link = 3 ∧ (g.width ≠ w ∨ g.rate ≠ 0) ∧ g.laneTest = none then askChange w 0 m else m) s

/-- The lanes in use at a width. -/
def activeLanes (w : Nat) : BitVec 8 := if w = 1 then 0x0F else if w = 2 then 0xF0 else 0xFF

/-- The setting that leaves out the half of failing lanes, or lowers the rate when both halves fail (log entry 23). -/
def reduced (lanes : BitVec 8) (g : GangSt) : Nat × Nat :=
  if lanes &&& 0x0F = 0 then (1, g.rate) else if lanes &&& 0xF0 = 0 then (2, g.rate) else (g.width, 1)

/-- R438, R442: lanes lose lock or signal. -/
def execLaneLoss (lanes : BitVec 8) (s : State) : Res :=
  modStep (fun m =>
    let g := m.gang
    let act := activeLanes g.width
    if g.link ≠ 3 ∨ lanes &&& act = 0 then m
    else if lanes &&& act = act then epochEnd 1 true m
    else askChange (reduced (lanes &&& act) g).1 (reduced (lanes &&& act) g).2 m) s

/-- R436: a link-logic fault. `buffer`: an uncorrectable replay-buffer entry, else a CRC generator or checker. -/
def execLinkLogicFault (buffer : Bool) (s : State) : Res :=
  modStep (fun m =>
    if m.gang.link = 0 then m
    else
      let m := event 0x0B04 0 (if buffer then 1 else 0) (gangErr 4 m)
      epochEnd 6 true (onGang (fun g => { g with needPar := true }) m)) s

/-! ### Flits, replay and barks -/

/-- R431, R437, R438: a flit whose check fails is discarded whole: for its CRC under the number of the next flit, or in lane-parity
mode for its parity. Sixteen in 1 ms ask for x4, or at x4 for the lower rate (log entry 23). Outside an epoch nothing ends. One that passes and is of another epoch is discarded as well, and counts nothing. -/
def execFlitDiscard (flit : BitVec 1024) (s : State) : Res :=
  modStep (fun m =>
    if m.gang.link < 2 || (m.gang.link == 2 && m.gang.change.isNone) || flitPasses m.gang flit then m
    else if m.gang.parity then epochEnd 7 true (gangErr 3 m)
    else
      let now := m.tb.now
      let m := gangErr 0 (onGang (fun g => { g with crcFail := satAdd 0xFFFF_FFFF g.crcFail 1, crcAt := now :: g.crcAt.filter (fun t => now < t + 1000000) }) m)
      let g := m.gang
      if g.crcAt.length < 16 ∨ g.change ≠ none then m
      else if g.width = 0 then askChange 1 g.rate m
      else if g.rate = 0 then askChange g.width 1 m
      else m) s

/-- R433: an idle flit. -/
def execIdle (f : FlitHdr) (s : State) : Res := modStep (fun m => if gangEpoch f m then gangHeader f m else m) s

/-- R432: a replay marker. -/
def execReplayMarker (f : FlitHdr) (start : Fin 4096) (s : State) : Res :=
  modStep (fun m =>
    if !gangEpoch f m then m
    else
      let m := gangHeader f m
      if 1024 < (m.gang.expect + 4096 - start.val) % 4096 then epochEnd 5 true (event 0x0B01 0 2 (gangErr 7 m))
      else onGang (fun g => { g with rxNum := start.val }) m) s

/-- R433: 500 ns after an accepted flit that no sent ACK covers. -/
def execAckTimer (s : State) : Res :=
  modStep (fun m =>
    if m.gang.link = 3 ∧ m.gang.unacked ≠ 0 ∧ m.gang.parity = false then gangPlain (.idle ((m.gang.expect + 4095) % 4096)) m else m) s

/-- R435: the replay timer expires. -/
def execReplayTimer (s : State) : Res :=
  modStep (fun m =>
    if m.gang.link ≠ 3 ∨ m.gang.sent = [] then m
    else if 3 ≤ m.gang.expiries then epochEnd 3 true m
    else resend (gangErr 1 (onGang (fun g => { g with expiries := g.expiries + 1, replays := satAdd 0xFFFF_FFFF g.replays 1 }) m))) s

/-- R441: a 10 µs period begins; the mirror engine runs, so a flit with a bark goes out. -/
def execBarkPeriod (s : State) : Res := modStep (gangPlain .bark) s

/-- R442: no bark has been taken for 35 µs. -/
def execBarkTimeout (s : State) : Res :=
  modStep (fun m => if (m.gang.link = 3 ∨ m.gang.change ≠ none) ∧ m.gang.barkAt + 35000 ≤ m.tb.now then epochEnd 2 true (gangErr 5 m) else m) s

/-! ### Received mirrored writes (R445) -/

/-- Host copies of a line that a mirrored write has changed are recalled with BISnpInv, after the MACK (R446). -/
def mirrorRecall (key : BitVec 6) (off : Nat) (m : Mod) : Mod :=
  let x := access (mirrorBy false) .memInv (wOf (off / 64) 0 key) 0 0 false m
  dropAcc [x.1] x.2

/-- A received write of one sector in MIRROR slots. -/
def mirrorAccess (resync : Bool) (key : BitVec 6) (off : Nat) (data : Sector) (en : BitVec 64) (poison : Bool) (m : Mod) : Nat × Mod :=
  access (mirrorBy resync) (if en = BitVec.allOnes 64 then .memWr else .memWrPtl) (wOf (off / 64) 0 key) data en poison m

/-- Whether a received write cannot be stored, as the status of its MACK (R445): integrity stop, no mirrored region, key. -/
def mirrorRefuses (m : Mod) (key : BitVec 6) (off : Nat) : Option Nat :=
  if m.prot.stop.isSome then some 3
  else match regionOf m off with
    | none => some 2
    | some r => if !rgMirror r then some 2 else if !keyServes m key then some 1 else none

/-- A request message is under way. -/
def rxPut (work : RxWork) (ids : List Nat) (m : Mod) : Mod := onGang (fun g => { g with rxWait := g.rxWait ++ [{ work := work, ids := ids }] }) m

/-- The MACK of a write, and its effect: the sending module has a copy here (R447). -/
def sendMack (tag st : Nat) (m : Mod) : Mod := gangTx false (.mack tag st) (if st = 0 then onGang (fun g => { g with fresh := false }) m else m)

/-- R445: the MACK of a mirrored write. -/
def mack (f : FlitHdr) (tag : Nat) (status : Fin 5) : Mod → Mod :=
  gangRecv f (fun m =>
    match m.gang.waits.find? (fun w => w.tag == tag) with
    | none => m
    | some w =>
      let m := onGang (fun g => { g with waits := g.waits.erase w, fresh := false }) m
      let m := if status = 0 then m else event 0x0B05 0 (status.val + w.off / 64 * 64) (gangErr 6 (setDirty w.off m))
      let m := match w.req with
        | some q => sendNdr q .none m
        | none => m
      resyncOver m)

def execMack (f : FlitHdr) (tag : Nat) (status : Fin 5) (s : State) : Res := modStep (mack f tag status) s

/-! ### Receiving a resynchronisation (R449) -/

/-- Whether a message is of a resynchronisation. -/
def isResync (x : RxWait) : Bool :=
  match x.work with
  | .write _ _ => false
  | _ => true

/-- The destination's copy ends: RESYNC_DONE, and mirroring (log entry 24). -/
def destOver (m : Mod) : Mod :=
  if m.gang.mirror = .dest ∧ m.gang.rxLast = true ∧ m.gang.rxDiff = [] ∧ m.gang.rxWait.all (fun x => !isResync x) = true then
    gangTx false .resyncDone (onGang (fun g => { g with mirror := .mirroring, fresh := false, bitmap := [], rxLast := false, rxGran := [] }) m)
  else m

/-- `n` sectors of a granule have come; the last ones give its RACK. -/
def granArrive (off n : Nat) (m : Mod) : Mod :=
  match mirrorIndex m off with
  | none => m
  | some i =>
    let k := tabGet 0 m.gang.rxGran i + n
    if k < 1024 then onGang (fun g => { g with rxGran := tabPut g.rxGran i k }) m
    else destOver (gangTx false (.rack i false) (onGang (fun g => { g with rxGran := tabDel g.rxGran i, rxDiff := g.rxDiff.filter (· != i) }) m))

/-- The digest of a granule of zeros. -/
def zeroDigest : Word64 := ofBytes 64 ((sha384 (List.replicate 65536 0)).take 8)

/-- The digest of a granule is compared with this module's own, and answered with a RACK. -/
def compareDigest (gran : Nat) (own d : Word64) (m : Mod) : Mod :=
  let differ := own != d
  let m := onGang (fun g => { g with rxDiff := if differ then g.rxDiff ++ [gran] else g.rxDiff, rxLast := g.rxLast || gran + 1 == granCount m }) m
  gangTx false (.rack gran differ) m

/-- Digests are taken up one granule after the other: a FRESH destination reads none. -/
def startDigests : List Word64 → Nat → Mod → Mod
  | [], _, m => destOver (gangCredit m)
  | d :: rest, gran, m =>
    if m.gang.fresh then startDigests rest (gran + 1) (compareDigest gran zeroDigest d m)
    else
      let x := readGranule gran m
      rxPut (.digests gran (d :: rest)) x.1 x.2

/-- A received request whose accesses are answered is done: its MACK, its RACK, its comparison; then its credit goes back (R434,
R445, R449). A write that could not be stored gives status 4, or 3 in integrity stop. -/
def rxDone (x : RxWait) (m : Mod) : Mod :=
  let bad := anyBad m x.ids
  let l := granSectors m x.ids
  let keyOf (off : Nat) : BitVec 6 := (regionOf m off).elim 0 engineKey
  let m := dropAcc x.ids (onGang (fun g => { g with rxWait := g.rxWait.erase x }) m)
  match x.work with
  | .write tag off =>
    let st := if !bad then 0 else if m.prot.stop.isSome then 3 else 4
    let m := gangCredit (sendMack tag st m)
    if st = 0 then mirrorRecall (keyOf off) off m else m
  | .sectors off n => gangCredit (granArrive off n m)
  | .page off => match regionOf m off with
    | none => gangCredit (granArrive off 64 m)
    | some r =>
      let t := rgTile r
      let q := pageOf m.tiers[t] off
      let y := trimReady t q 1 m
      if y.1 then gangCredit (granArrive off 64 (trimPage t q y.2)) else rxPut (.page off) [] y.2
  | .digests gran ds => startDigests (ds.drop 1) (gran + 1) (compareDigest gran (granDigest l) (ds.headD 0) m)

/-- What the mirror engine has under way goes on (R445, R449). -/
def mirrorGo (m : Mod) : Mod :=
  let m := m.gang.rxWait.foldl (fun m x => if answered m x.ids then rxDone x m else m) m
  granRead m

/-- A request flit from the peer: it wakes the module, and its message is served (R434, R493). -/
def gangRequest (f : FlitHdr) (payload : Mod → Mod) (m : Mod) : Mod :=
  gangRecv f (fun m => mirrorGo (payload (wake 4 (touch m)))) m

/-- A mirrored write (R445). -/
def mirrorWrite (f : FlitHdr) (x : MirrorMsg) (data : Sector) (en : BitVec 64) : Mod → Mod :=
  gangRequest f (fun m =>
    let off := x.sector.toNat * 64
    match mirrorRefuses m x.keyId off with
    | some st => gangCredit (sendMack x.tag st (if st = 1 then keyRefused true .a x.keyId m else m))
    | none =>
      let y := mirrorAccess false x.keyId off data en x.poison m
      rxPut (.write x.tag off) [y.1] y.2)

def execMwr (f : FlitHdr) (m : MirrorMsg) (data : Sector) (s : State) : Res := modStep (mirrorWrite f m data (BitVec.allOnes 64)) s
def execMwrp (f : FlitHdr) (m : MirrorMsg) (data : Sector) (en : BitVec 64) (s : State) : Res := modStep (mirrorWrite f m data en) s

/-- R449: a sector of the resynchronisation. One that cannot be stored is not, and counts as come. -/
def rsd (f : FlitHdr) (x : MirrorMsg) (data : Sector) : Mod → Mod :=
  gangRequest f (fun m =>
    let m := asDest m
    let off := x.sector.toNat * 64
    match mirrorRefuses m x.keyId off with
    | some _ => rxPut (.sectors off 1) [] m
    | none =>
      let y := mirrorAccess true x.keyId off data (BitVec.allOnes 64) x.poison m
      rxPut (.sectors off 1) [y.1] y.2)

def execRsd (f : FlitHdr) (m : MirrorMsg) (data : Sector) (s : State) : Res := modStep (rsd f m data) s

/-- R449: a page of zeros; an elastic one is trimmed. -/
def zpg (f : FlitHdr) (x : MirrorMsg) : Mod → Mod :=
  gangRequest f (fun m =>
    let m := asDest m
    let off := x.sector.toNat * 64 / 4096 * 4096
    match regionOf m off, mirrorRefuses m ((regionOf m off).elim 0 engineKey) off with
    | some r, none =>
      if rgElastic r then rxPut (.page off) [] m
      else
        let y := accesses 64 (fun i m => mirrorAccess true (engineKey r) (off + 64 * i) 0 (BitVec.allOnes 64) false m) m
        rxPut (.sectors off 64) y.1 y.2
    | _, _ => rxPut (.sectors off 64) [] m)

def execZpg (f : FlitHdr) (m : MirrorMsg) (s : State) : Res := modStep (zpg f m) s

/-- R449: digests of consecutive granules; each is answered with a RACK. -/
def rdig (f : FlitHdr) (gran : Nat) (digests : List Word64) : Mod → Mod :=
  gangRequest f (fun m => startDigests digests gran (asDest m))

def execRdig (f : FlitHdr) (gran : Nat) (digests : List Word64) (s : State) : Res := modStep (rdig f gran digests) s

/-- R449, R450: a granule is done at the destination, or its digests differ. -/
def rack (f : FlitHdr) (gran : Nat) (differed : Bool) : Mod → Mod :=
  gangRecv f (fun m =>
    if m.gang.copying = some gran then
      let hs := m.gang.held
      let m := onGang (fun g => { g with copying := none, held := [], donePass := gran :: g.donePass, bitmap := g.bitmap.filter (· != gran) }) m
      resyncNext 4 (serveAll hs m)
    else if m.gang.digOut.contains gran then
      let m := onGang (fun g => { g with digOut := g.digOut.filter (· != gran) }) m
      if differed then resyncNext 4 (onGang (fun g => { g with toCopy := g.toCopy ++ [gran] }) m)
      else resyncNext 4 (onGang (fun g => { g with donePass := gran :: g.donePass }) m)
    else m)

def execRack (f : FlitHdr) (gran : Nat) (differed : Bool) (s : State) : Res := modStep (rack f gran differed) s

/-- R449: the destination reports the end; mirroring resumes once every forwarded write has its MACK. -/
def execResyncDone (f : FlitHdr) (s : State) : Res :=
  modStep (gangRecv f (fun m => if m.gang.mirror = .source then resyncOver (onGang (fun g => { g with rxDone := true }) m) else m)) s

/-- R451: the peer starts a protection reload. -/
def execSuspend (f : FlitHdr) (s : State) : Res :=
  modStep (gangRecv f (fun m => completeWaits (onGang (fun g => { g with mirror := .suspended }) m))) s

/-- R425, R451: the peer's reload has ended; with equal digests this module is the source. -/
def execResume (f : FlitHdr) (s : State) : Res :=
  modStep (gangRecv f (fun m =>
    if m.gang.mirror ≠ .suspended then m
    else match m.gang.peer with
      | some x => if x.digest ≠ regionDigest m then mismatch x.digest m else startSource false m
      | none => m)) s

/-- R451: the peer has entered integrity stop. -/
def execStop (f : FlitHdr) (s : State) : Res :=
  modStep (gangRecv f (fun m => completeWaits (onGang (fun g => { g with mirror := .peerstop }) m))) s

/-! ### Commands (R448, R453) -/

/-- R448: GANG_SOURCE. `here`: this module is named as the source. -/
def execGangSource (h : AdminHdr) (peer : Word64) (here : Bool) (s : State) : Res :=
  modStep (admin h 0x0901 true (fun c m =>
    if m.gang.link ≠ 3 then done c 0x82 m
    else if m.gang.mirror ≠ .split then done c 0x81 m
    else if m.gang.peerId ≠ peer then done c 0x85 m
    else done c 0x80 (if here then splitSource m else splitDest m))) s

/-- R453: GANG_LANE_TEST of lanes 0 to 3, or (`hi`) 4 to 7. -/
def execGangLaneTest (h : AdminHdr) (hi : Bool) (ms : Nat) (s : State) : Res :=
  modStep (admin h 0x0902 (1 ≤ ms && ms ≤ 1000) (fun c m =>
    if m.gang.change.isSome || m.gang.laneTest.isSome then done c 0x83 m
    else if m.gang.link ≠ 3 then done c 0x82 m
    else askChange (if hi then 1 else 2) m.gang.rate (onGang (fun g => { g with laneTest := some (c, hi) }) m))) s

/-- R453: the lane test ends. -/
def execGangLaneTestEnd (fails : BitVec 8) (s : State) : Res :=
  modStep (fun m =>
    match m.gang.laneTest with
    | none => m
    | some (c, hi) =>
      let f := fails &&& (if hi then 0xF0 else 0x0F)
      let m := onGang (fun g => { g with laneTest := none, keepX4 := g.keepX4 || f != 0 }) m
      if f = 0 then askChange 0 0 (done c 0x80 m) else complete c 0x84 0 (f.setWidth 96) m) s

end Sys2Proof.Machine
end

