-- ==== Sys2Proof/Machine/Keys.lean ====
section
/-! DEFINITION. Machine/Keys.lean: key slots (R262 to R268): loading, retirement and reuse by a zero-fill sweep. -/
namespace Sys2Proof.Machine

/-- Change a key slot. -/
def onKey (id : Nat) (f : KeySlot → KeySlot) (m : Mod) : Mod :=
  if h : id < 64 then { m with prot := { m.prot with keys := m.prot.keys.set id (f (m.prot.keys[id]'h)) h } } else m

/-- A key slot. -/
def keyAt (m : Mod) (id : Nat) : KeySlot := m.prot.keys.toList.getD id default

/-- Whether a retirement, that of an exhausted counter (R283) among them, or a zero-fill sweep runs (R268). -/
def keyWorkRuns (m : Mod) : Bool := m.prot.keyWork.isSome || m.prot.keys.any (fun k => k.st == .retiring)

/-- R263: KEY_LOAD. -/
def execKeyLoad (h : AdminHdr) (id : Nat) (wrapped : BitVec 576) (s : State) : Res :=
  modStep (admin h 0x0402 true (fun c m =>
    if id = 0 ∨ 63 < id then done c 0x43 m
    else if (keyAt m id).st ≠ .empty then done c 0x42 m
    else match unwrapKey m.prot.kek wrapped with
      | none => done c 0x41 m
      | some (e, a) =>
        done c 0x40 (onKey id (fun k => { k with st := .active, kEnc := e, kMac := a, loads := k.loads + 1 }) m))) s

/-! ### Retirement (R266) -/

/-- Recall the host copies of a tile recorded under a key id, as far as no BISnp for their line is open. -/
def recallKey (id : Nat) (t : Tile) (m : Mod) : Mod :=
  let copy (p : Port) (m : Mod) (e : FEntry) : Mod :=
    if entPres e p && (entKey e p).toNat == id then snoop t p (entLine e) .inv (entW e p) (.recalls false) m else m
  let l := (m.filters[t] : FilterSt).entries.filter (fun e => !e.pend)
  l.foldl (fun m e => copy .b (copy .a m e) e) m

/-- Recall them in every tile. -/
def recallKeys (id : Nat) (m : Mod) : Mod := (List.finRange 4).foldl (fun m t => recallKey id t m) m

/-- Every request that waits anywhere behind the window decode. -/
def openReqs (m : Mod) : List MReq :=
  m.filters.toList.flatMap (·.waiters) ++
  m.slices.toList.flatMap (fun s => s.misses.flatMap (·.waiters) ++ s.missWait ++ s.lineWait) ++
  m.prot.reseals.flatMap (·.waiters) ++ m.prot.held ++ m.gang.held ++ m.gang.waits.filterMap (·.req)

/-- Whether a host copy, a line, or the answer to a recall is still about under a key id, or the flush runs (R266 steps 2 and 3). -/
def keyCached (id : Nat) (m : Mod) : Bool :=
  m.filters.any (fun f =>
    f.entries.any (fun e => (e.presA && e.keyA.toNat == id) || (e.presB && e.keyB.toNat == id)) ||
      f.snps.any (fun x => (wKey x.w).toNat == id)) ||
  m.slices.any (fun s => s.flush || s.lines.any (fun l => l.space == 0 && l.keyId.toNat == id && (l.sdirty != 0 || l.busy)))

/-- Whether a request or an engine access is still about under a key id, or its batt in the write buffer (R266 step 4): accesses
of engines, fills, transit entries and tier moves among them. -/
def keyBusy (id : Nat) (m : Mod) : Bool :=
  (openReqs m).any (fun q => wAper q.w == 0 && (wKey q.w).toNat == id) ||
  m.acc.any (fun a => a.ans.isNone && wAper a.w == 0 && (wKey a.w).toNat == id) ||
  m.slices.any (fun s => s.misses.any (fun x => x.space == 0 && x.keyId.toNat == id) ||
    s.transits.any (fun x => x.space == 0 && x.keyId.toNat == id)) ||
  m.tiers.any (fun ts => ts.moves.any (fun v => v.key.toNat == id)) ||
  m.wbuf.any (fun l => l.any (fun w => (keysOfDa m w.da).contains id)) ||
  m.wbWait.any (fun l => l.any (fun w => (keysOfDa m w.da).contains id))

/-- R266: KEY_RETIRE. -/
def execKeyRetire (h : AdminHdr) (id : Nat) (s : State) : Res :=
  modStep (admin h 0x0403 true (fun c m =>
    if id = 0 ∨ 63 < id then done c 0x43 m
    else if keyWorkRuns m then done c 0x46 m
    else if (keyAt m id).st ≠ .active then done c 0x42 m
    else
      let m := onKey id (fun k => { k with st := .retiring }) m
      beginFlush (recallKeys id { m with prot := { m.prot with keyWork := some (id, false, c) } }))) s

/-- The retirement that runs: that of a command, else that which an exhausted counter has begun (R283). -/
def retiring (m : Mod) : Option (Nat × Option AdminTag) :=
  match m.prot.keyWork with
  | some (id, false, c) => some (id, some c)
  | some (_, true, _) => none
  | none => ((List.range 64).find? (fun i => (keyAt m i).st == .retiring)).map (fun i => (i, none))

/-- R266 step 5: both keys are zero, and the slot is RETIRED. -/
def retireKey (id : Nat) (c : Option AdminTag) (m : Mod) : Mod :=
  let m := onKey id (fun k => { k with st := .retired, kEnc := 0, kMac := 0 }) m
  match c with
  | none => m
  | some c => done c (if m.prot.stop.isSome then 0x45 else 0x40) { m with prot := { m.prot with keyWork := none } }

/-- A retirement goes on: what is about under the key id is recalled, and flushed. That of an exhausted counter so begins (R283). -/
def retireGo (id : Nat) (m : Mod) : Mod :=
  if m.prot.stop.isSome || m.slices.any (·.flush) || !keyCached id m then m else beginFlush (recallKeys id m)

/-- R266: requests under the key id have drained. While one is about, the retirement goes on; integrity stop leaves steps 4 and 5 of
it (R268). -/
def execKeyRetirementDone (s : State) : Res :=
  modStep (fun m =>
    match retiring m with
    | none => m
    | some (id, c) => if keyBusy id m || (m.prot.stop.isNone && keyCached id m) then retireGo id m else retireKey id c m) s

/-! ### The zero-fill sweep (R267) -/

/-- Whether a line of a region that permits a key id: by its logical offset. -/
def keyRegion (id : Nat) (m : Mod) (off : Nat) : Bool := (regionOf m off).elim false (fun r => rgKeyOk r id)

/-- Drop the lines of those regions from a tile without write-back; a line whose fill is in flight stays. -/
def dropKeyLines (id : Nat) (t : Tile) (m : Mod) : Mod :=
  onSlice t (fun s => { s with lines := s.lines.filter (fun l => l.busy || l.space != 0 || !keyRegion id m (lineAddr l)) }) m

/-- Recall the host copies of those regions in a tile, whose data is discarded. -/
def recallZero (id : Nat) (t : Tile) (m : Mod) : Mod :=
  ((m.filters[t] : FilterSt).entries.filter (fun e => !e.pend && keyRegion id m (entLine e * 64))).foldl
    (fun m e => recallEnt t e (.recalls true) m) m

/-- Both in every tile. -/
def sweepOut (id : Nat) (m : Mod) : Mod :=
  (List.finRange 4).foldl (fun m t => recallZero id t (dropKeyLines id t m)) m

/-- Whether a host copy or a fill of those regions is open. -/
def zeroBusy (id : Nat) (m : Mod) : Bool :=
  m.filters.any (fun f => f.entries.any (fun e => keyRegion id m (entLine e * 64))) ||
    m.slices.any (fun s => s.misses.any (fun x => x.space == 0 && keyRegion id m x.addr))

/-- The regions with CRYPT ≠ 0 that permit a key id. -/
def zeroRegions (id : Nat) (m : Mod) : List (BitVec 128) := m.prot.regions.filter (fun r => rgValid r && rgKeyOk r id && rgCrypt r != 0)

/-- The level-1 nodes of those with ELASTIC = 0: 2,048 per granule. The pages of an elastic region, whose nodes may hold batts of
other regions, become unbacked pages (log entry 26). -/
def zeroNodes (id : Nat) (m : Mod) : List (Tile × Nat × Nat) :=
  ((zeroRegions id m).filter (fun r => !rgElastic r)).map (fun r =>
    (rgTile r, sealIdx m.prot.sealR[rgTile r] (rgDBase r * 2 ^ 26) / 128, 2048 * rgCount r))

/-- R267: KEY_ZERO. -/
def execKeyZero (h : AdminHdr) (id : Nat) (s : State) : Res :=
  modStep (admin h 0x0404 true (fun c m =>
    if id = 0 ∨ 63 < id then done c 0x43 m
    else if keyWorkRuns m then done c 0x46 m
    else if (keyAt m id).st ≠ .retired then done c 0x44 m
    else
      let m := onKey id (fun k => { k with st := .zeroing }) m
      let m := sweepOut id { m with prot := { m.prot with keyWork := some (id, true, c), zeroWritten := [], zeroLeft := zeroNodes id m } }
      trimRegions (zeroRegions id m) m)) s

/-- One level-1 node of the sweep: MAJOR rises by one and every minor is zero. A node on an uncorrectable path is dropped and
logged (R280). -/
def zeroOneNode (t : Tile) (idx : Nat) (m : Mod) : Mod :=
  match getNode m t 1 idx with
  | .ok b =>
    let b' := zeroNode b
    nodeWrite t 5 1 idx b' (if nodeMajor b' = 2 ^ 64 - 1 then counterExhausted t 1 m else m)
  | .poison => event 0x0204 (locBatt (nodeAddr m.prot.sealR[t] 1 idx)) (5 * 16 + nodeAddr m.prot.sealR[t] 1 idx * 256) m
  | .fail l a => integrityStop 1 l false a 0 m

/-- One node of the sweep in META slots: it is written once its path is at hand, no reseal covers it and the write buffer takes
it. `true`: it is done. -/
def zeroTry (t : Tile) (idx : Nat) (m : Mod) : Bool × Mod :=
  let own : Owner := .zero t
  let under (r : Reseal) : Bool := r.tile == t.val && 1 ≤ r.level && idx / 128 ^ (r.level - 1) == r.index
  if m.prot.reseals.any under then (false, m)
  else match pathNeeds m t 5 1 idx with
    | [] =>
      let da := nodeAddr m.prot.sealR[t] 1 idx
      let m := installPath t (128 * idx) m
      if (metaLine m da).isSome then (true, dropHere own (zeroOneNode t idx m))
      else match overflowAt m t 5 1 idx with
        | some (l, i, c) => (false, startReseal t l i c own m)
        | none => if (wbAccepts m .metaSlot 2 0 da).1 then (true, dropHere own (zeroOneNode t idx m)) else (false, m)
    | l => (false, wantMeta own l m)

/-- The sweep goes on through the nodes that are left; the number bounds them. -/
def zeroGo : Nat → Mod → Mod
  | 0, m => m
  | k + 1, m =>
    let set (l : List (Tile × Nat × Nat)) (m : Mod) : Mod := { m with prot := { m.prot with zeroLeft := l } }
    match m.prot.zeroLeft with
    | [] => m
    | (t, i, n) :: rest =>
      if n = 0 then zeroGo k (set rest m)
      else
        let x := zeroTry t i m
        if x.1 && x.2.prot.stop.isNone then zeroGo k (set ((t, i + 1, n - 1) :: rest) x.2) else x.2

/-- Steps that the sweep may take. -/
def zeroFuel (m : Mod) : Nat := (m.prot.zeroLeft.map (fun x => x.2.2 + 1)).sum

/-- A batt whose data is undefined after the sweep: its minor is 1 and its stored bytes are a free value (R267). -/
def undefAfter (da : Nat) (m : Mod) : Mod :=
  let t := daTile da
  let j := sealIdx m.prot.sealR[t] (battOf da)
  match getNode m t 1 (j / 128) with
  | .ok b =>
    let m := nodeWrite t 5 1 (j / 128) (setMinor b (j % 128) 1) m
    wbPut .metaSlot 2 0 (battOf da) (Config.undefBatt (battOf da) m.free) false { m with free := m.free + 1 }
  | _ => m

/-- The device addresses of dirty lines of those regions. -/
def dirtyDas (id : Nat) (m : Mod) : List Nat :=
  (m.slices.toList.map (fun s => s.lines.filterMap (fun l =>
    if l.space == 0 && l.sdirty != 0 && keyRegion id m (lineAddr l) then (regionOf m (lineAddr l)).bind (fun r => homeDa m r (lineAddr l))
    else none))).flatten

/-- The end of the sweep: every batt of the regions reads as zero, those written meanwhile under other keys are undefined,
and the slot is EMPTY. -/
def zeroEnd (id : Nat) (c : AdminTag) (m : Mod) : Mod :=
  let das := (m.prot.zeroWritten ++ dirtyDas id m).eraseDups.filter (fun da => (regionOfDev m (da / 2 ^ 26)).isSome)
  let m := (List.finRange 4).foldl (fun m t => dropKeyLines id t m) m
  let m := das.foldl (fun m da => undefAfter da m) m
  let m := { m with prot := { m.prot with zeroWritten := [] } }
  if m.prot.stop.isSome then m
  else done c 0x40 { onKey id (fun k => { k with st := .empty }) m with prot.keyWork := none }

def execZeroFillSweepEnd (s : State) : Res :=
  modStep (fun m =>
    match m.prot.keyWork with
    | some (id, true, c) =>
      let m := zeroGo (zeroFuel m) (if zeroBusy id m then sweepOut id m else m)
      if zeroBusy id m || !m.prot.zeroLeft.isEmpty || trimming m || m.prot.stop.isSome then m else zeroEnd id c m
    | _ => m) s

/-- Retirements and the zero-fill sweep go on. -/
def keysGo (m : Mod) : Mod :=
  let m := zeroGo (zeroFuel m) m
  (retiring m).elim m (fun x => retireGo x.1 m)

end Sys2Proof.Machine
end

