-- ==== Sys2Proof/Machine/Reload.lean ====
section
/-! DEFINITION. Machine/Reload.lean: protection reload (R256 to R259, R503), and the restart of a stopped frame (R108). -/
namespace Sys2Proof.Machine

/-- The frame restarts at slot 0 of the variant for the band in force, and every ready tile leaves self-refresh (R108). A
swap that waited for the new set of an activation still waits; any other has nothing left to do. The restart opens no set-point
gap where the variant runs at the other FSP: no slot of an old variant precedes it (DESIGN CHOICE, log entry 109). Without a
timebase no frame runs until the module reset (R38). -/
def startFrame (m : Mod) : Mod :=
  if m.tb.lost || m.therm.critical then m
  else
    let m := { m with sched := { m.sched with frameNo := m.sched.frameNo + 1 } }
    let keep := m.sched.swap.bind (fun w => if w.newSet then some w else none)
    let w := selectSwap m false 1
    let m := if w.variant != m.sched.variant then swapEffect w { m with sched := { m.sched with further := none } } else m
    let m := { m with sched := { m.sched with swap := keep, further := none, gap := false, running := true, frameStart := m.tb.now, joining := 0 } }
    let ready (p : Pack) : Bool := !m.filling.getLsbD (p.val / 2)
    let up (p : PackSt) : PackSt := { p with selfRefresh := false, used := [], usedNext := [] }
    let m := { m with packs := Vector.ofFn (fun p => if ready p then up m.packs[p] else m.packs[p]) }
    let exits (m : Mod) (p : Pack) : Mod := (List.range 4).foldl (fun m r => send (.dram p 0 0 (16 * r) .selfRefreshExit) m) m
    ((List.finRange 8).filter ready).foldl exits m

/-- The staging store is discarded (R128): a pending activation ends with 0x22, a load in progress with 0xE5 (log entry 109). -/
def dropStaged (m : Mod) : Mod :=
  let l := m.sched.load
  let m := endActivation { m with sched := { m.sched with staged := none, load := none, loadIds := [] } }
  l.elim m (fun x => done x.1 0xE5 m)

/-- Sealed range and metadata base of a block against those in force (R256). -/
def sealsSame (m : Mod) (b : ProtData) : Bool := b.seals == m.prot.sealR.toList.map (fun s => (s.base, s.gran, s.metaBase))

/-- The RESULT of a failed table check: entry index in bytes 0 and 1, check in byte 2 (log entry 27). -/
def checkResult (x : Nat × Nat) : BitVec 96 := BitVec.ofNat 96 (x.1 % 65536 + x.2 * 65536)

/-- R257: PROT_RELOAD, whose phase 1 begins. -/
def execProtReload (h : AdminHdr) (block : ProtData) (s : State) : Res :=
  modStep (admin h 0x0401 true (fun c m =>
    if m.prot.stop.isSome then done c 0x45 m
    else if m.prot.reload.isSome then done c 0x4B m
    else if !block.sigOk then done c 0x48 m
    else if !sealsSame m block then done c 0x4A m
    else match tableCheck block.regions m.prot.sealR m.tiers m.conn.gangEn with
      | some x => complete c 0x49 0 (checkResult x) m
      | none =>
        let l : Reload := { cmd := c, phase := 1, block := { regions := block.regions, metaWays := block.metaWays } }
        { m with prot := { m.prot with reload := some l } })) s

/-- Whether a reload changes the region entry of a granule. -/
def granChanges (new : List (BitVec 128)) (m : Mod) (g : Nat) : Bool := regionIn new g != regionIn m.prot.regions g

/-- Whether a host copy stands in a granule that changes. -/
def changedCopies (new : List (BitVec 128)) (m : Mod) : Bool :=
  m.filters.any (fun f => f.entries.any (fun e => granChanges new m (entLine e / 2 ^ 20)))

/-- Recall the host copies of granules that change (phase 2, R241). -/
def recallChanged (new : List (BitVec 128)) (t : Tile) (m : Mod) : Mod :=
  ((m.filters[t] : FilterSt).entries.filter (fun e => !e.pend && granChanges new m (entLine e / 2 ^ 20))).foldl
    (fun m e => recallEnt t e (.recalls false) m) m

/-- The same in every tile. -/
def recallReload (new : List (BitVec 128)) (m : Mod) : Mod := (List.finRange 4).foldl (fun m t => recallChanged new t m) m

/-- The trims of phase 2: every page of an elastic region whose entry the reload removes or changes (R305). -/
def trimChanged (new : List (BitVec 128)) (m : Mod) : Mod :=
  trimRegions (m.prot.regions.filter (fun r => rgValid r && !new.contains r)) m

/-- Phase 6: both cores that are not out of service boot again. -/
def rebootCores (m : Mod) : Mod :=
  let boot (c : CoreSt) : CoreSt := if c = .failed ∨ c = .off then c else .booting
  { m with proc := { m.proc with sp0 := boot m.proc.sp0, sp1 := boot m.proc.sp1, spTest := none } }

/-- The cores have booted: the one that was active is active again (log entry 28), and boot code has filled in the CDAT (R181). -/
def coresUp (m : Mod) : Mod :=
  let up (one : Bool) (c : CoreSt) : CoreSt :=
    if c = .booting then (if one == m.proc.sp1Active then .active else .standby) else c
  { m with proc := { m.proc with sp0 := up false m.proc.sp0, sp1 := up true m.proc.sp1, kickAt := m.tb.now, cdat := m.sched.active } }

/-- The reload is in a phase. -/
def setPhase (l : Reload) (n : Nat) (m : Mod) : Mod := { m with prot := { m.prot with reload := some { l with phase := n } } }

/-- The reload ends. -/
def endReload (l : Reload) (code : Nat) (m : Mod) : Mod :=
  releaseHeld (done l.cmd code { m with prot := { m.prot with reload := none } })

/-- R259: a reload that integrity stop has overtaken ends after the phase that runs, with the table in force. -/
def reloadStopped (l : Reload) (m : Mod) : Mod :=
  let m := { m with slices := m.slices.map (fun (s : Slice) => { s with sweep := false, flush := false }) }
  endReload l 0x45 (if l.phase = 6 then coresUp m else if l.phase = 7 then startFrame m else m)

/-- After phase 7 the peer is told that resynchronisation may begin (R258), with the digest of the new table (R424, R425); with
equal digests the peer is the source (R451). -/
def resumePeer (m : Mod) : Mod :=
  if m.gang.link ≠ 3 then m
  else
    let m := gangTx false .resume (sendHello m)
    match m.gang.peer with
    | none => m
    | some x => if x.digest ≠ regionDigest m then mismatch x.digest m else startDest m

/-- The end of a phase of *Protection reload phases*, where its condition holds. -/
def phaseEnd (l : Reload) (m : Mod) : Mod :=
  let new := l.block.regions
  match l.phase with
  | 1 => recallReload new (trimChanged new (setPhase l 2 m))
  | 2 =>
    if changedCopies new m then recallReload new m
    else if keyWorkRuns m || trimming m then m
    else gangTx false .suspend (setPhase l 3 m)
  | 3 => if requestsAbout m then m else beginFlush (setPhase l 4 m)
  | 4 =>
    let m := flushEnd m
    if m.slices.any (·.flush) || !drained m then m else setPhase l 5 m
  | 5 =>
    let m := frameBoundary m
    if m.sched.running then m else setPhase l 6 (rebootCores (dropStaged m))
  | 6 =>
    let m := { coresUp m with prot := { m.prot with regions := new, locked := true } }
    setPhase l 7 (beginSweep ((List.finRange 4).foldl (fun m t => passCheck t m) (setMetaWays (metaWaysOf l.block.metaWays new) m)))
  | _ =>
    let m := startFrame (sweepEnd m)
    endReload l 0x40 (resumePeer { m with prot := { m.prot with gen := m.prot.gen + 1 } })

/-- R257: a phase of the reload completes, and the next one starts. -/
def execProtReloadPhaseEnd (s : State) : Res :=
  modStep (fun m =>
    match m.prot.reload with
    | none => m
    | some l => if m.prot.stop.isSome then reloadStopped l m else phaseEnd l m) s

end Sys2Proof.Machine
end

