-- ==== Sys2Proof/Machine/PowerEntry.lean ====
section
/-! DEFINITION. Machine/PowerEntry.lean: the commands of the power front end (*Power entry and hot insertion*). -/
namespace Sys2Proof.Machine

/-! ### Shared steps of the front end -/

/-- The start conditions (R471): VIN inside its window and EN_IN asserted. -/
def startOk (f : FrontEnd) : Bool := f.vin && f.uvOk && f.ovOk && f.enIn

/-- The states in which the main switch conducts (R473). -/
def mainOn (f : FrontEnd) : Bool := f.st == .ramp || f.st == .on || f.st == .powergood

/-- The fault timer's count at time `now`, in 1/16 ns: it rises by 1 µs per µs and falls by 1 µs per 16 µs, between 0
and 2,000 µs (R478). -/
def ftAtTime (f : FrontEnd) (now : Nat) : Nat :=
  if f.ftUp then min (f.ftCount + 16 * (now - f.ftAt)) 32000000 else f.ftCount - (now - f.ftAt)

/-- The timer's count brought up to `now`. -/
def ftSync (now : Nat) (f : FrontEnd) : FrontEnd := { f with ftCount := ftAtTime f now, ftAt := now }

/-- FTCOUNT of PWR_STATUS, in µs (R484). -/
def ftMicros (f : FrontEnd) (now : Nat) : Nat := ftAtTime f now / 16000

/-- PG_OUT, FAULT_N and FAULT_WARN_N (R473, R481, R482): asserted in POWERGOOD, in LATCHED, and on a warning while
powered. -/
def pgOut (f : FrontEnd) : Bool := f.st == .powergood
def faultN (f : FrontEnd) : Bool := f.st == .latched
def faultWarnN (f : FrontEnd) : Bool := f.powered && (f.warnTimer || f.warnFet)

/-- A trip (R480): both switches open, the latch set and its cause kept; the die loses power. -/
def trip (c : TripCause) (now : Nat) (f : FrontEnd) : FrontEnd :=
  let f := ftSync now f
  { f with st := .latched, latch := true, ftUp := false, warnTimer := false, warnFet := false, lastTrip := some c, powered := false, waiting := false }

/-- A window exit (R472, R479): both switches open. One that meets a timer counting up resets the timer and counts; the
third within 10 s trips the module. -/
def windowExit (now : Nat) (f : FrontEnd) : FrontEnd :=
  let under := f.ftUp
  let f := ftSync now f
  let exits := if under then now :: f.exits.filter (fun t => now - t ≤ 10000000000) else f.exits
  let g := { f with st := .qualify, ftUp := false, ftCount := if under then 0 else f.ftCount, exits := exits,
                    warnTimer := false, warnFet := false, powered := false, waiting := false }
  if under && 3 ≤ exits.length then trip .window now { g with exits := [] } else g

/-- A bounce (R472): the loss of a start condition, by the state that it meets. -/
def bounce (now : Nat) (f : FrontEnd) : FrontEnd :=
  match f.st with
  | .off | .latched => f
  | .qualify => { f with waiting := false }
  | .precharge | .ramp => { ftSync now f with st := .qualify, ftUp := false, waiting := false }
  | .on | .powergood => windowExit now f

/-- A change of a start condition, with the bounce that it is when the conditions held before and hold no longer. -/
def startChange (now : Nat) (upd : FrontEnd → FrontEnd) (f : FrontEnd) : FrontEnd :=
  let g := upd f
  if startOk f && !startOk g then bounce now g else g

/-- Run a front-end step at the present time. -/
def onFe (g : Nat → FrontEnd → FrontEnd) (s : State) : State := { s with fe := g s.m.tb.now s.fe }

/-- Close the pre-charge switch, within eight starts in any 10 s (R476). -/
def precharge (f : FrontEnd) : FrontEnd :=
  if f.starts < 8 then { f with st := .precharge, starts := f.starts + 1, waiting := false }
  else { f with waiting := true }

/-- The temperature acted on (R482, R483): the hotter of the model and of the measured value, which falls back to a
board sensor plus 25 °C and then to 100 °C. In 1/16 °C. -/
def sensorAt (m : Mod) (c : Nat) : Sensor := tabGet { temp := 0, broken := false, fails := 0 } m.therm.sensors c

/-- The hottest working channel among `l`. -/
def hottest (m : Mod) (l : List Nat) : Option Int :=
  (l.filter (fun c => !(sensorAt m c).broken)).foldl
    (fun acc c => match acc with
      | none => some (sensorAt m c).temp
      | some t => some (max t (sensorAt m c).temp)) none

def fetMeasured (m : Mod) : Int :=
  match hottest m [52, 53] with
  | some t => t
  | none => match hottest m [54, 55, 56, 57] with
    | some t => t + 25 * 16
    | none => 100 * 16

/-! ### The commands -/

def execVinRise (uvSel insDly : BitVec 2) (s : State) : Res :=
  .next (if s.fe.vin then s else
    { s with fe := { s.fe with vin := true, uvOk := false, ovOk := true, uvSel := uvSel, insDly := insDly,
                               st := if s.fe.latch then .latched else .qualify, waiting := false } })

def execVinFall (s : State) : Res :=
  .next (onFe (fun now f =>
    let f := startChange now (fun f => { f with uvOk := false, sawUv := f.sawUv || (f.uvOk && mainOn f && f.st != .ramp) }) f
    { f with vin := false, st := .off, powered := false, waiting := false }) s)

def execInputWindowChange (uv inside : Bool) (s : State) : Res :=
  .next (if !s.fe.vin then s else onFe (fun now f => startChange now (fun f =>
    let exit := !inside && (f.st == .on || f.st == .powergood)
    if uv then { f with uvOk := inside, sawUv := f.sawUv || exit }
    else { f with ovOk := inside, sawOv := f.sawOv || exit }) f) s)

def execEnInAssert (s : State) : Res := .next { s with fe := { s.fe with enIn := true } }

def execEnInDeassert (s : State) : Res :=
  .next (onFe (fun now f => startChange now (fun f => { f with enIn := false }) f) s)

def execInsertionDelayExpiry (s : State) : Res :=
  .next (onFe (fun _ f => if f.st == .qualify && startOk f then precharge f else f) s)

def execPrechargeWindowFree (s : State) : Res :=
  .next (onFe (fun _ f =>
    let f := { f with starts := f.starts - 1 }
    if f.st == .qualify && f.waiting && startOk f then precharge f else f) s)

def execPrechargeDone (s : State) : Res :=
  .next (onFe (fun _ f => if f.st == .precharge then { f with st := .ramp } else f) s)

def execPrechargeTimeout (s : State) : Res :=
  .next (onFe (fun now f => if f.st == .precharge then trip .precharge now f else f) s)

def execRampDone (s : State) : Res :=
  .next (onFe (fun _ f => if f.st == .ramp then { f with st := .on } else f) s)

/-- PG_OUT asserts (R477); when the die had no power its converters start, which is a module reset with the straps
sampled (R13, R564). -/
def execPowergood (addrSel : BitVec 3) (gangEn : Bool) (s : State) : Res :=
  .next (if s.fe.st == .on && !s.fe.ftUp then
      let fe := { s.fe with st := .powergood, powered := true }
      if s.fe.powered then { s with fe := fe }
      else
        let m := resetMod s.m.tb.now addrSel gangEn s.m.flash s.m.out s.m.free
        { s with fe := fe, m := { m with therm := { m.therm with hold := s.m.therm.critical || s.m.therm.hold } } }
    else s)

def execOutputWindowExit (s : State) : Res :=
  .next (onFe (fun _ f => if f.st == .powergood then { f with st := .on } else f) s)

def execCurrentLimitEnter (s : State) : Res :=
  .next (onFe (fun now f => if mainOn f then
    { ftSync now f with ftUp := true, warnTimer := f.warnTimer || f.st == .powergood } else f) s)

def execCurrentLimitExit (s : State) : Res :=
  .next (onFe (fun now f => if f.ftUp then { ftSync now f with ftUp := false } else f) s)

def execFaultTimerExpiry (s : State) : Res :=
  .next (onFe (fun now f => if f.ftUp then trip .timer now { f with ftCount := 32000000, ftAt := now } else f) s)

/-- The counting-down timer reaches zero (R481). -/
def execFaultTimerZero (s : State) : Res :=
  .next (onFe (fun now f => if f.ftUp then f else { f with ftCount := 0, ftAt := now, warnTimer := false }) s)

def execShortCircuit (s : State) : Res :=
  .next (onFe (fun now f => if mainOn f then trip .short now f else f) s)

/-- The FET temperature's warning and its event (R482), which need the die's power (R560). -/
def fetWarn (t : Int) (s : State) : State :=
  let data := (BitVec.ofInt 16 t).setWidth 64
  if !s.fe.powered then s
  else if 125 * 16 ≤ t && !s.fe.warnFet then
    onMod (fun m => raise 0x0C06 1 0 (data ||| 0x10000) { m with power := { m.power with pwrErr := m.power.pwrErr ||| 0x20 } })
      { s with fe := { s.fe with warnFet := true } }
  else if t ≤ 120 * 16 && s.fe.warnFet then
    onMod (raise 0x0C06 1 0 data) { s with fe := { s.fe with warnFet := false } }
  else s

def execFetModelUpdate (model : Int) (s : State) : Res :=
  .next (let t := max model (fetMeasured s.m)
    if s.fe.st == .off || s.fe.st == .latched then s
    else
      let s := { s with fe := { s.fe with fetT := t } }
      if 150 * 16 ≤ t then onFe (trip .fethot) s else fetWarn t s)

def execLatchClear (s : State) : Res :=
  .next (if s.fe.st == .latched && !s.fe.enIn then
    { s with fe := { s.fe with st := .qualify, latch := false } } else s)

def execRemovalHoldExpiry (s : State) : Res :=
  .next (if s.fe.vin then s else { s with fe := { s.fe with latch := false } })

end Sys2Proof.Machine
end

