-- ==== Sys2Proof/Machine/Thermal.lean ====
section
/-! DEFINITION. Machine/Thermal.lean: housekeeping rounds, bands, heel requests, throttling, Critical shutdown, sensor
tests (*Temperature and heel requests*). Temperatures are in 1/16 °C. -/
namespace Sys2Proof.Machine

/-- Change the housekeeping state. -/
def onTherm (f : ThermSt → ThermSt) (m : Mod) : Mod := { m with therm := f m.therm }

/-- Change one sensor. -/
def onSensor (c : Nat) (f : Sensor → Sensor) (m : Mod) : Mod :=
  onTherm (fun t => { t with sensors := tabMod { temp := 0, broken := false, fails := 0 } t.sensors c f }) m

/-- On-die channels, the MR4 channels of a tile, all MR4 channels (R454). -/
def dieChans : List Nat := List.range 16
def tileChans (t : Nat) : List Nat := (List.range 9).map (16 + 9 * t + ·)
def dramChans : List Nat := (List.range 36).map (16 + ·)

/-- The group of a channel (R467): on-die, MR4, FET, board or inlet. -/
def groupOf (c : Nat) : List Nat :=
  if c < 16 then dieChans else if c < 52 then dramChans else if c < 54 then [52, 53] else if c < 58 then [54, 55, 56, 57] else [58]

/-- The channel that a SENSOR_TEST holds (R467). -/
def underTest (m : Mod) (c : Nat) : Bool := m.therm.test.any (fun x => x.2 == c)

/-- A channel becomes broken (R455). -/
def breakSensor (c : Nat) (m : Mod) : Mod :=
  if (sensorAt m c).broken then m else event 0x0C01 0 c (onSensor c (fun s => { s with broken := true }) m)

/-- The readings of a round with those of one channel joined: an MR4 channel reads the hotter of its package's two channels
(R41, R454), and has failed where each read of it has. -/
def joinReadings (l : List (Fin 59 × Option Int)) : List (Fin 59 × Option Int) :=
  let one (c : Fin 59) : Option (Fin 59 × Option Int) :=
    let mine := l.filter (fun x => x.1 == c)
    if mine.isEmpty then none else some (c, (mine.filterMap (·.2)).max?)
  (List.finRange 59).filterMap one

/-- One reading of a round (R454, R455); the reading of a channel under test is replaced (R467). -/
def takeReading (m : Mod) (r : Fin 59 × Option Int) : Mod :=
  let c := r.1.val
  if underTest m c then m
  else match r.2 with
    | none =>
      let m := onSensor c (fun s => { s with fails := min 3 (s.fails + 1) }) m
      if (sensorAt m c).fails = 3 then breakSensor c m else m
    | some v =>
      let m := onSensor c (fun s => { s with temp := v, fails := 0 }) m
      if v < -40 * 16 ∨ 150 * 16 < v then breakSensor c m else m

/-- While a channel is under test its reading is the hottest working one of its group (R467). -/
def replaceTested (m : Mod) : Mod :=
  match m.therm.test with
  | none => m
  | some (_, c) =>
    match hottest m ((groupOf c).filter (· != c)) with
    | none => m
    | some t => onSensor c (fun s => { s with temp := t }) m

/-- R457: the module can no longer see its temperature. -/
def blindNow (m : Mod) : Bool :=
  8 ≤ (dieChans.filter (fun c => (sensorAt m c).broken)).length ||
    (List.range 4).any (fun t => (tileChans t).all (fun c => (sensorAt m c).broken))

/-- Upper limits of the bands in °C (R28, R80). -/
def dramUpper : List Int := [10, 85, 95, 105]
def dieUpper : List Int := [75, 100, 110, 120]

/-- The band of a temperature, from the band in force (R458). -/
def bandAfter (upper : List Int) (cur : Nat) (t : Int) : Nat :=
  let lim (b : Nat) : Int := upper.getD b 0 * 16
  if lim cur < t then ((List.range 4).find? (fun b => t ≤ lim b)).getD 3
  else ((List.range cur).find? (fun b => t ≤ lim b - 3 * 16)).getD cur

/-- The temperature that decides a band: a broken channel reads as hot (R456). -/
def bandTemp (m : Mod) (chans : List Nat) (hot : Int) (last : Int) : Int :=
  let w := hottest m chans
  if chans.any (fun c => (sensorAt m c).broken) then max (w.getD (hot * 16)) (hot * 16) else w.getD last

/-- A heel event (R464). -/
def heelEvent (source tile action : Nat) (temp : Int) (deadline : Nat) (m : Mod) : Mod :=
  event 0x0C03 0 (heelData m source tile action temp deadline) m

/-- A thermal request of *Heel requests*. -/
def thermHeel (m : Mod) (dram : Bool) : Heel := if dram then m.therm.dramHeel else m.therm.dieHeel

/-- Replace it. -/
def setHeel (dram : Bool) (h : Heel) (m : Mod) : Mod :=
  if dram then onTherm (fun t => { t with dramHeel := h }) m else onTherm (fun t => { t with dieHeel := h }) m

/-- The temperature that decides a thermal request. -/
def heelTemp (m : Mod) (dram : Bool) : Int := if dram then m.therm.dramT else m.therm.dieT

/-- The grace time in force, in ns. -/
def graceNs (m : Mod) : Nat := m.therm.graceIn * 1000000

/-- Withdraw a thermal request whose band, on working sensors only, has fallen to Warm or cooler (R460, R462). -/
def heelWithdraw (dram : Bool) (m : Mod) : Mod :=
  let lim : Int := if dram then 92 * 16 else 107 * 16
  if (thermHeel m dram).raised ∧ heelTemp m dram ≤ lim then
    let m := setHeel dram initHeel m
    let m := if m.therm.dieHeel.raised || m.therm.dramHeel.raised then m
      else onTherm (fun t => { t with downFrom := m.tb.now, stepUpAt := none }) m
    heelEvent (if dram then 1 else 0) 0 1 (heelTemp m dram) 0 m
  else m

/-- Raise a thermal request whose band, on working sensors only, has reached Hot (R460, R461). -/
def heelRaise (dram : Bool) (m : Mod) : Mod :=
  let lim : Int := if dram then 95 * 16 else 110 * 16
  if (thermHeel m dram).raised = false ∧ lim < heelTemp m dram then
    let m := setHeel dram { raised := true, enforced := false, deadline := m.tb.now + graceNs m } m
    heelEvent (if dram then 1 else 0) 0 0 (heelTemp m dram) (upTime m + graceNs m) m
  else m

/-- Inlet warning above 55 °C, withdrawn at 52 °C (R454). -/
def inletCheck (m : Mod) : Mod :=
  let s := sensorAt m 58
  let d (raised : Nat) : Nat := (BitVec.ofInt 16 s.temp).toNat + raised * 65536
  if s.broken then m
  else if m.therm.inletWarn = false ∧ 55 * 16 < s.temp then event 0x0C02 0 (d 1) (onTherm (fun t => { t with inletWarn := true }) m)
  else if m.therm.inletWarn ∧ s.temp ≤ 52 * 16 then event 0x0C02 0 (d 0) (onTherm (fun t => { t with inletWarn := false }) m)
  else m

/-- The working channel that reads a temperature. -/
def chanOf (m : Mod) (chans : List Nat) (t : Int) : Nat :=
  (chans.find? (fun c => !(sensorAt m c).broken && (sensorAt m c).temp == t)).getD 0

/-- Critical shutdown (R465). `cause`: 0 DRAM, 1 die, 2 blind. -/
def critical (cause : Nat) (m : Mod) : Mod :=
  let t : Int := if cause = 0 then m.therm.dramT else if cause = 1 then m.therm.dieT else 0
  let c := if cause = 0 then chanOf m dramChans t else if cause = 1 then chanOf m dieChans t else 0
  let m := event 0x0C04 0 (cause + (BitVec.ofInt 16 t).toNat * 65536 + c * 2 ^ 32) (onTherm (fun t => { t with critical := true }) m)
  let m := setViral { m with ev := { m.ev with crit := true } }
  let m := onGang (fun g => { g with link := min g.link 1 }) (epochEnd 8 false m)
  let m := stopFrame { m with sched := { m.sched with swap := none, further := none } }
  let m := { m with wbuf := m.wbuf.map (fun _ => []), wbWait := m.wbWait.map (fun _ => []), packs := m.packs.map (fun p => dropWrites p) }
  { m with slices := m.slices.map (fun (s : Slice) => { s with lines := s.lines.filter (fun l => l.sdirty == 0),
                                                               transits := s.transits.filter (fun x => !x.dirty) }) }

/-- The evaluation at a round end (R454 to R465). -/
def evalRound (m : Mod) : Mod :=
  let old := m.therm
  let dieT := (hottest m dieChans).getD old.dieT
  let dramT := (hottest m dramChans).getD old.dramT
  let dieB := bandAfter dieUpper old.dieBand (bandTemp m dieChans 115 old.dieT)
  let dramB := bandAfter dramUpper old.dramBand (bandTemp m dramChans 100 old.dramT)
  let dieOver := (hottest m dieChans).any (120 * 16 < ·)
  let dramOver := (hottest m dramChans).any (105 * 16 < ·)
  let band := bandInForce m
  let m := onTherm (fun t => { t with dieT := dieT, dramT := dramT, dieBand := dieB, dramBand := dramB, blind := blindNow m }) m
  let m := onTherm (fun t => { t with dieOver := dieOver, dramOver := dramOver }) m
  if old.critical then m
  else if dramOver && old.dramOver then critical 0 m
  else if dieOver && old.dieOver then critical 1 m
  else if m.therm.blind then critical 2 m
  else
    let m := inletCheck (heelRaise true (heelRaise false (heelWithdraw true (heelWithdraw false m))))
    if bandInForce m = band then m
    else commitSwap false { m with packs := m.packs.map (fun (p : PackSt) => { p with sinceBand := false }) }

/-- Work that a round makes due in every pack: MR4 (R41) and the ZQ latch, whose JEDEC interval the spec does not give (R71;
DESIGN CHOICE, log entry 104). -/
def roundDue (m : Mod) : Mod :=
  { m with packs := m.packs.map (fun (p : PackSt) => { p with mr4Due := true, zqDue := true }) }

/-- R454: a housekeeping round ends. `vin`, `iin`: input voltage in mV and current in mA. -/
def roundEnd (readings : List (Fin 59 × Option Int)) (vin iin : Nat) (fet : Int) (m : Mod) : Mod :=
  let m := replaceTested ((joinReadings readings).foldl takeReading m)
  let m := { m with power := { m.power with vinMv := vin, iin := iin, fetT := fet } }
  let m := roundDue (evalRound m)
  let m := onTherm (fun t => { t with rounds := t.rounds + 1, graceIn := t.grace }) m
  if m.therm.dramT < 92 * 16 ∧ m.therm.dieT < 107 * 16 then onTherm (fun t => { t with hold := false }) m else m

def execHkRoundEnd (readings : List (Fin 59 × Option Int)) (vin iin : Nat) (s : State) : Res :=
  modStep (roundEnd readings vin iin s.fe.fetT) s

/-- The throttle level steps up (R461, R463): not twice within one grace time. -/
def throttleUp (source : Nat) (temp : Int) (m : Mod) : Mod :=
  let near := m.therm.stepUpAt.any (fun t => m.tb.now < t + graceNs m)
  if near || 3 ≤ m.therm.throttle then m
  else
    let m := onTherm (fun t => { t with throttle := t.throttle + 1, stepUpAt := some m.tb.now }) m
    commitSwap false (heelEvent source 0 3 temp 0 m)

/-- R461: the grace time of a thermal request expires. -/
def thermExpiry (dram : Bool) (m : Mod) : Mod :=
  let h := thermHeel m dram
  let src := if dram then 1 else 0
  if h.raised ∧ h.deadline ≤ m.tb.now then
    let m := setHeel dram { raised := true, enforced := true, deadline := m.tb.now + graceNs m } m
    let m := if h.enforced then m else heelEvent src 0 2 (heelTemp m dram) 0 m
    throttleUp src (heelTemp m dram) m
  else m

/-- R302, R461: the grace time of a tile's capacity request expires: it is enforced until withdrawal. -/
def capExpiry (t : Tile) (m : Mod) : Mod :=
  let h : Heel := m.therm.capHeel[t]
  if h.raised ∧ h.enforced = false ∧ h.deadline ≤ m.tb.now then
    let m := onTherm (fun th => { th with capHeel := th.capHeel.set t { h with enforced := true } }) m
    heelEvent 2 t.val 2 0 0 (onTier t (fun ts => { ts with enforce := true }) m)
  else m

/-- R461: a grace timer expires. After a Critical shutdown no request is enforced (R465). -/
def execGraceExpiry (req : HeelReq) (s : State) : Res :=
  modStep (fun m =>
    if m.therm.critical then m
    else match req with
      | .die => thermExpiry false m
      | .dram => thermExpiry true m
      | .cap t => capExpiry t m) s

/-- R462: a grace time without a thermal request has passed: the level falls by one. -/
def execThrottleStepDown (s : State) : Res :=
  modStep (fun m =>
    let th := m.therm
    if th.critical || th.dieHeel.raised || th.dramHeel.raised || th.throttle = 0 || m.tb.now < th.downFrom + graceNs m then m
    else
      let m := onTherm (fun t => { t with throttle := t.throttle - 1, downFrom := m.tb.now }) m
      let dram := Config.stepSource m.free
      let m := { m with free := m.free + 1 }
      commitSwap false (if dram then heelEvent 1 0 3 m.therm.dramT 0 m else heelEvent 0 0 3 m.therm.dieT 0 m)) s

/-- R467: SENSOR_TEST; a channel above 58 has its own code. -/
def execSensorTest (h : AdminHdr) (chan : Nat) (s : State) : Res :=
  modStep (admin h 0x0A01 true (fun c m =>
    if 58 < chan then done c 0x93 m
    else if m.therm.test.isSome then done c 0x92 m
    else replaceTested (onTherm (fun t => { t with test := some (c, chan) }) m))) s

/-- R467: the test of a sensor ends. -/
def execSensorTestEnd (pass : Bool) (s : State) : Res :=
  modStep (fun m =>
    match m.therm.test with
    | none => m
    | some (c, ch) =>
      let m := onTherm (fun t => { t with test := none }) m
      if pass then done c 0x90 (onSensor ch (fun s => { s with broken := false, fails := 0 }) m)
      else done c 0x91 (breakSensor ch m)) s

end Sys2Proof.Machine
end

