-- ==== Sys2Proof/Machine/PowerStates.lean ====
section
/-! DEFINITION. Machine/PowerStates.lean: Idle, Sleep, Deep sleep and wake (R485 to R497). -/
namespace Sys2Proof.Machine

/-! ### What keeps the module awake -/

/-- A resynchronisation runs. -/
def resyncing (m : Mod) : Bool := m.gang.mirror == .source || m.gang.mirror == .dest

/-- A tier move runs. -/
def moving (m : Mod) : Bool := m.tiers.any (fun t => !t.moves.isEmpty)

/-- A channel diagnosis runs. -/
def diagnosing (m : Mod) : Bool := m.packs.any (fun p => p.diag.isSome)

/-- A test of any kind runs. -/
def testing (m : Mod) : Bool :=
  m.tests.any (·.isSome) || m.slices.any (fun s => s.test.isSome) || m.filters.any (fun f => f.test.isSome) ||
    m.fullers.any (fun f => f.test.isSome) || m.proc.spTest.isSome || m.tb.test.isSome || m.therm.test.isSome ||
    m.gang.laneTest.isSome || m.ports.a.laneTest.isSome || m.ports.b.laneTest.isSome

/-- The conditions of R490 hold: nothing runs that Sleep would break, and the frame runs. -/
def sleepOk (m : Mod) : Bool :=
  m.prot.reload.isNone && !keyWorkRuns m && m.sched.load.isNone && !diagnosing m && !testing m && m.jobs.isEmpty &&
    !moving m && !resyncing m && m.sched.running && (m.power.state == 0 || m.power.state == 1) && m.power.sleepAfter.isNone

/-- The work of R488 that lasts: while any of it is about, the module does not enter Idle. -/
def idleWork (m : Mod) : Bool :=
  !m.jobs.isEmpty || moving m || resyncing m || !m.prot.reseals.isEmpty || diagnosing m || m.tests.any (·.isSome) ||
    m.slices.any (fun s => s.test.isSome) || m.filters.any (fun f => f.test.isSome) ||
    m.qs.queues.any (fun q => q.2.pkts != 0)

/-! ### Idle (R488, R489) -/

/-- R488: IDLE_US have passed with no work. -/
def execIdleEntry (s : State) : Res :=
  modStep (fun m =>
    let p := m.power
    if p.state = 0 ∧ p.idleUs ≠ 0 ∧ p.workAt + p.idleUs * 1000 ≤ m.tb.now ∧ idleWork m = false ∧ p.sleepAfter = none then
      { m with power := { p with state := 1 } }
    else m) s

/-- The module is in Run: requests that waited go on, and the ring engines fetch again. -/
def backToRun (m : Mod) : Mod :=
  fetchPump (releaseHeld (touch { m with power := { m.power with state := 0, phase := 0, target := 0 } }))

/-- R489: the last gated domain is awake. -/
def execIdleWakeDone (s : State) : Res :=
  modStep (fun m => if m.power.state = 5 ∧ m.power.last = 1 then backToRun m else m) s

/-! ### Sleep (R490) -/

/-- Entry into Sleep begins. -/
def enterSleep (m : Mod) : Mod := { m with power := { m.power with state := 4, target := 2, phase := 0 } }

/-- The result of the last entry request. -/
def setEntry (n : Nat) (m : Mod) : Mod := { m with power := { m.power with entry := n } }

/-- R490: SLEEP. Its entry waits for the GO of the completion line, where one is written. -/
def execSleep (h : AdminHdr) (s : State) : Res :=
  modStep (admin h 0x0a02 true (fun c m =>
    if !sleepOk m then done c 0xA1 (setEntry 2 m)
    else sleepGo h.port (done c 0xA0 { m with power := { m.power with sleepAfter := some h.port } }))) s

/-- PM_CTL.RETAIN (R497). -/
def setRetain (r : BitVec 4) (m : Mod) : Mod := { m with power := { m.power with retain := r } }

/-- R490: PM_CTL.REQ = 1. -/
def pmSleep (retain : BitVec 4) (m : Mod) : Mod :=
  let m := setRetain retain m
  if sleepOk m then enterSleep m else setEntry 2 m

/-- A commit that its frame boundary has not brought comes with this one. -/
def committed (m : Mod) : Mod := if m.power.phase = 0 then frameBoundary m else m

/-- The entry has ended: the exit begins at once where a wake cause has come after commit (R495). -/
def entryDone (st : Nat) (m : Mod) : Mod :=
  let p := m.power
  let p := { p with state := st, entry := 1, entries := p.entries + 1, target := 0, phase := 0 }
  let m := { m with power := { p with wakePend := false } }
  if p.wakePend && !m.therm.critical then { m with power := { m.power with state := 5, last := st, phase := if st = 3 then 1 else 0 } } else m

/-- R490: the entry into Sleep ends. -/
def execSleepEntryDone (s : State) : Res :=
  modStep (fun m =>
    if m.power.state ≠ 4 ∨ m.power.target ≠ 2 then m
    else
      let m := committed m
      if m.power.phase = 1 then entryDone 2 m else m) s

/-- R490: the exit from Sleep ends, and the frame restarts. -/
def execSleepExitDone (s : State) : Res :=
  modStep (fun m => if m.power.state = 5 ∧ m.power.last = 2 then backToRun (startFrame m) else m) s

/-! ### Deep sleep (R491, R492) -/

/-- No region with MIRROR = 1 lies in a tile that is not retained. -/
def mirrorsRetained (retain : BitVec 4) (m : Mod) : Bool :=
  m.prot.regions.all (fun r => !(rgValid r && rgMirror r) || retain.getLsbD (rgTile r).val)

/-- Entry into Deep sleep begins: the gangline's epoch ends, and a full flush begins in every slice. The filter is empty, as
the port resets have cleared every presence bit; what is left of it is drained (R241). -/
def enterDeep (m : Mod) : Mod :=
  let m := onGang (fun g => { g with link := min g.link 1 }) (epochEnd 8 false m)
  let m := (List.finRange 4).foldl (fun m t => drainFilter t m) m
  beginFlush { m with power := { m.power with state := 4, target := 3, phase := 0 } }

/-- R491: PM_CTL.REQ = 2. -/
def pmDeep (retain : BitVec 4) (m : Mod) : Mod :=
  let m := setRetain retain m
  if m.ports.a.inReset && m.ports.b.inReset && sleepOk m && mirrorsRetained retain m then enterDeep m else setEntry 3 m

/-- A slice without its contents: ways out of service stay so, locks stand until the exit reports them (R216). -/
def darkSlice (s : Slice) : Slice :=
  { initSlice with disabled := s.disabled, locked := s.locked, metaWays := s.metaWays, passthru := s.passthru }

/-- A filter slice without its contents: copies out of service stay so (R486). -/
def darkFilter (f : FilterSt) : FilterSt :=
  { initFilter with copyFailP := f.copyFailP, copyFailS := f.copyFailS, forever := f.forever, lost := f.lost }

/-- A port without its configuration; its PERST_N is asserted, and its error registers wait for a module reset (R185 to R187). -/
def darkPort (q : PortSt) : PortSt :=
  { initPort with inReset := q.inReset, sris := q.sris, badHalf := q.badHalf, err := q.err, viol := q.viol, violCount := q.violCount,
                  overruns := q.overruns }

/-- *Contents by state*, the column of Deep sleep (R486): what the removal of power loses. -/
def darken (m : Mod) : Mod :=
  let m := { m with slices := m.slices.map (fun s => darkSlice s), filters := m.filters.map (fun f => darkFilter f) }
  let m := { m with ports := m.ports.map (fun _ q => darkPort q), rings := ⟨initRings, initRings⟩ }
  let m := { m with qs := initQueues, egress := initEgress, cpools := [] }
  let off (c : CoreSt) : CoreSt := if c = .failed then .failed else .off
  { m with proc := { m.proc with sp0 := off m.proc.sp0, sp1 := off m.proc.sp1, queue := [], flashBusy := none } }

/-- R491: the entry into Deep sleep ends. -/
def execDeepSleepEntryDone (s : State) : Res :=
  modStep (fun m =>
    if m.power.state ≠ 4 ∨ m.power.target ≠ 3 then m
    else
      let m := if m.power.phase = 0 then flushEnd m else m
      let m := if m.slices.any (·.flush) then m else committed m
      if m.power.phase ≠ 1 then m
      else
        let m := darken m
        entryDone 3 { m with power := { m.power with retained := m.power.retain, ready := 0 } }) s

/-- The locks that Deep sleep has lost (R216): an event for each slice that had any. -/
def locksLost (m : Mod) : Mod :=
  (List.finRange 4).foldl (fun m t =>
    let l := (m.slices[t] : Slice).locked
    let m := passCheck t (onSlice t (fun s => { s with locked := 0 }) m)
    if l = 0 then m else event 0x0403 0 (t.val + l.toNat * 4) m) m

/-- The filter test and sweep of the exit have ended in every slice (R243); a slice with no copy in service stays in broadcast
mode (R244). -/
def filtersUp (m : Mod) : Mod :=
  { m with filters := m.filters.map (fun (f : FilterSt) =>
    let stay := f.forever || (f.copyFailP && f.copyFailS)
    { f with broadcast := stay, forever := stay, phase := if stay then f.phase else 2 }) }

/-- Phase 3 of the exit ends: retained tiles are ready, and the frame restarts; tiles that were not retained go on to
training. -/
def exitPhase3 (m : Mod) : Mod :=
  let kept := m.power.retained
  let m := locksLost (filtersUp (sweepEnd m))
  let m := startFrame { m with filling := ~~~kept, power := { m.power with ready := kept } }
  if kept = 15 then m else { m with power := { m.power with phase := 4 } }

/-- The last phase of the exit has ended (R492): Memory_Active, and the gangline trains again (R423). -/
def exitOver (m : Mod) : Mod :=
  let m := { m with ports := m.ports.map (fun _ q => { q with memActive := true }) }
  backToRun (onGang (fun g => { g with link := if g.link = 1 && !g.dead then 2 else g.link }) m)

/-- R492: a phase of the exit from Deep sleep ends, and the next begins. The performance counters return to their reset
values (R538). -/
def execDeepSleepExitPhaseEnd (s : State) : Res :=
  modStep (fun m =>
    let p := m.power
    if p.state ≠ 5 ∨ p.last ≠ 3 then m
    else match p.phase with
      | 1 => rebootDeep { m with perf := initPerf, power := { p with phase := 2 } }
      | 2 => beginSweep (coresUp { m with power := { p with phase := 3 } })
      | 3 =>
        let m := exitPhase3 m
        if m.power.phase = 3 then exitOver m else m
      | 4 => trainPacks ((List.finRange 8).filter (fun k => m.filling.getLsbD (k.val / 2))) { m with power := { p with phase := 5 } }
      | _ =>
        let left := (List.finRange 4).filter (fun t => m.filling.getLsbD t.val)
        exitOver (left.foldl (fun m t => fillOver t m) m)) s
where
  /-- Both cores that are not out of service boot from the retention stores. -/
  rebootDeep (m : Mod) : Mod :=
    let up (c : CoreSt) : CoreSt := if c = .failed then .failed else .booting
    { m with proc := { m.proc with sp0 := up m.proc.sp0, sp1 := up m.proc.sp1 } }

/-! ### WAKE_N (R493) -/

/-- R493: WAKE_N has been asserted for 1 µs. -/
def execWakeN (s : State) : Res := modStep (wake 5) s

end Sys2Proof.Machine
end

