-- ==== Sys2Proof/Machine/CounterCmds.lean ====
section
/-! DEFINITION. Machine/CounterCmds.lean: CPOOL_SET (R396, R397). -/
namespace Sys2Proof.Machine

/-- A counter pool's entry in force; a pool that nothing has set is disabled with its fields zero. -/
def cpoolAt (m : Mod) (k : Nat) : CounterPool := tabGet default m.cpools k

/-- The ranges of *Counter pool entry*. -/
def cpoolRanges (l : List Byte) : Bool :=
  fld l 0 4 ≤ 268431360 && fld l 0 4 % 4096 == 0 && 4096 ≤ fld l 4 4 && fld l 4 4 ≤ 268435456 && fld l 4 4 % 4096 == 0 &&
    fld l 8 2 ≤ 32767 && fld l 10 1 ≤ 2 && fld l 11 1 ≤ 1 && allZero ((l.drop 12).take 52)

/-- The storage of a counter pool as (first byte, bytes). -/
def cpoolRange (p : CounterPool) : Nat × Nat := (p.dgran * 2 ^ 26, 16 * p.ccount)

/-- The placement checks of R397. -/
def cpoolPlaced (m : Mod) (k : Nat) (p : CounterPool) : Bool :=
  let others := (m.cpools.filter (fun e => e.1 != k && e.2.enable)).map (·.2)
  let cells := (m.qs.pools.filter (fun e => e.2.enable)).map (·.2)
  let x := cpoolRange p
  let apart (y : Nat × Nat) : Bool := !overlap x.1 x.2 y.1 y.2
  p.cbase + p.ccount ≤ 2 ^ 28 && others.all (fun o => !overlap p.cbase p.ccount o.cbase o.ccount) &&
    rangeHosted m (tileOf (p.dgran / 2 ^ 13)) x && others.all (fun o => apart (cpoolRange o)) &&
    cells.all (fun o => apart (cellRange o) && apart (hdrRange o))

/-- The counter lines of a pool. -/
def cpoolLine (p : CounterPool) (l : Line) : Bool := l.space == 1 && p.cbase ≤ lineAddr l / 16 && lineAddr l / 16 < p.cbase + p.ccount

/-- A pool that has been disabled: its counter lines are written back and leave the slice (log entry 29); the command completes once they
have. -/
def cpoolOff (c : AdminTag) (pool : Nat) (m : Mod) : Mod :=
  let p := cpoolAt m pool
  let t := tileOf (p.dgran / 2 ^ 13)
  if leaving m t (cpoolLine p) then park c (.cpoolOff pool) [] m else done c 0x00 m

/-- R396, R397: a counter pool's entry as its source buffer gives it. -/
def cpoolSet (c : AdminTag) (pool : Nat) (src : Option (List Byte)) (m : Mod) : Mod :=
  match src with
  | none => done c 0x74 m
  | some l =>
    let old := cpoolAt m pool
    let p : CounterPool := { old with cbase := fld l 0 4, ccount := fld l 4 4, dgran := fld l 8 2, mode := fld l 10 1, enable := fld l 11 1 == 1 }
    let moved := p.cbase != old.cbase || p.ccount != old.ccount || p.dgran != old.dgran
    if !cpoolRanges l then done c 0x71 m
    else if !cpoolPlaced m pool p then done c 0x72 m
    else if old.enable && moved then done c 0x73 m
    else
      let m := { m with cpools := tabPut m.cpools pool p }
      if old.enable && !p.enable then cpoolOff c pool (flushSel (tileOf (p.dgran / 2 ^ 13)) (cpoolLine p) m) else done c 0x00 m

/-- R396, R397: CPOOL_SET. -/
def execCpoolSet (h : AdminHdr) (pool : Nat) (w : BitVec 64) (s : State) : Res :=
  modStep (admin h 0x0801 (pool ≤ 63) (fun c m => withSource h c (.cpoolSet pool w) w 64 (cpoolSet c pool) m)) s

end Sys2Proof.Machine
end

