-- ==== Sys2Proof/Machine/Perf.lean ====
section
/-! DEFINITION. Machine/Perf.lean: occupancy counting (R531, R532), overflows and samples (R533 to R537), bandwidth windows
(R539). -/
namespace Sys2Proof.Machine

/-! ### Occupancies (*Tile events*, *Half events*, *Device events*) -/

/-- The packs of a tile that PERF_SEL.PACK selects. -/
def selPacks (t : Nat) (pack : Nat) : List Nat := if pack = 0 then [2 * t] else if pack = 1 then [2 * t + 1] else [2 * t, 2 * t + 1]

/-- Whether QUAL takes a class, a label or a port. -/
def qualIs (qual n : Nat) : Bool := qual == 15 || qual == n

/-- Whether a fuller runs a job, a fill or a tier move (R314). -/
def fullerBusy (m : Mod) (f : Nat) : Bool :=
  (m.fullers[Fin.ofNat 8 f] : Fuller).run.isSome

/-- The occupancy that an event of a tile page names. -/
def tileOcc (m : Mod) (t : Tile) (c : PerfCtr) : Nat :=
  let packs := (selPacks t.val c.pack).filterMap (fun p => m.packs[p]?)
  let s : Slice := m.slices[t]
  let f : FilterSt := m.filters[t]
  let inUse (p : PackSt) (n : Nat) : Nat :=
    ((SlotClass.ofCode n).elim 0 (fun k => (holders p k).length)) + (if n = 7 then p.tests.length else 0)
  if c.event = 0x20 then (packs.map (fun p => (((List.range 16).filter (qualIs c.qual)).map (inUse p)).sum)).sum
  else if c.event = 0x21 then s.misses.length
  else if c.event = 0x22 then ((m.wbuf[t] : List WEntry).filter (fun w => (selPacks t.val c.pack).contains (daPack w.da).val)).length
  else if c.event = 0x23 then (packs.map (fun p => (((p.bound.map (·.req) ++ heldReqs p).filter (fun r => !r.write)).map (fun r => (reqBatts r).length)).sum)).sum
  else if c.event = 0x24 then (f.snps.filter (fun x => x.sent && qualIs c.qual x.port.num)).length
  else if c.event = 0x25 then assemblyUsed m t
  else if c.event = 0x26 then
    ([2 * t.val, 2 * t.val + 1].filter (fullerBusy m)).length
  else 0

/-- The occupancy that an event of a half page names. -/
def halfOcc (m : Mod) (p : Port) (c : PerfCtr) : Nat :=
  let q := m.ports.get p
  let track (w : Bool) : Nat := (q.tracker.filter (fun x => x.write == w && qualIs c.qual x.label.toNat)).length
  if c.event = 0x20 then track false else if c.event = 0x21 then track true else if c.event = 0x22 then q.rxBuf.length else 0

/-- The occupancy that an event of the device page names. -/
def devOcc (m : Mod) (c : PerfCtr) : Nat :=
  if c.event = 0x20 then m.ev.fifo.length else if c.event = 0x21 then m.gang.sent.length else 0

/-- The occupancy of a counter of a page. -/
def occOf (m : Mod) (page : Fin 7) (c : PerfCtr) : Nat :=
  if h : page.val < 4 then tileOcc m ⟨page.val, h⟩ c
  else if page.val = 4 then halfOcc m .a c else if page.val = 5 then halfOcc m .b c else devOcc m c

/-- Whether a counter of a half page counts the flits of one of the events 0x01 to 0x04, which no command reports (log entry 31). -/
def countsFlits (page : Fin 7) (c : PerfCtr) : Bool :=
  (page == 4 || page == 5) && c.en && !c.chain && c.occ == 0 && 1 ≤ c.event && c.event ≤ 4

/-- One nanosecond of counter `i` of a page: 1 adds the occupancy, 2 adds one at or above the threshold, 3 adds one on each
rise to it. -/
def occCount (m : Mod) (page : Fin 7) (p : PerfPage) (i : Nat) : PerfPage :=
  if h : i < 8 then
    let c : PerfCtr := p.ctrs[i]
    if countsFlits page c then
      if Config.flitEvent m.free page.val c.event then perfAdd i 1 (perfPlain c.event 15) p else p
    else if !c.en || c.chain || c.occ = 0 then p
    else
      let n := occOf m page c
      let above := decide (c.thresh ≤ n)
      let add := if c.occ = 1 then n else if c.occ = 2 then (if above then 1 else 0) else if above && !c.high then 1 else 0
      let p := { p with ctrs := p.ctrs.set i { c with high := above } }
      if add = 0 then p else perfAdd i add (perfPlain c.event c.qual) p
  else p

/-- One nanosecond of occupancy and flit counting (R532, R538). -/
def perfTick (m : Mod) : Mod :=
  if perfHeld m then m
  else
    let one (k : Fin 7) : PerfPage :=
      let p : PerfPage := m.perf[k]
      if p.freeze then p else (List.range 8).foldl (occCount m k) p
    let draws := m.perf.toList.any (fun p => p.ctrs.toList.any (fun c => countsFlits 4 c))
    { m with perf := Vector.ofFn one, free := if draws then m.free + 1 else m.free }

/-! ### Overflow (R533, R536, R537) -/

/-- Bit positions of a page's registers filled from a list of (low bit, value). -/
def packBits (l : List (Nat × Nat)) : Word64 := BitVec.ofNat 64 ((l.map (fun x => x.2 * 2 ^ x.1)).sum)

/-- The captured event of counter `i` (R536). -/
def sample0Of (frame : Word32) (i : Nat) (e : PerfEvt) : Word64 :=
  packBits [(0, i), (3, 1), (4, e.qual), (8, e.event), (16, e.keyId), (32, frame.toNat)]

def sample1Of (e : PerfEvt) : Word64 :=
  match e.addr with
  | none => packBits [(48, e.slot)]
  | some (dev, a) => packBits [(0, a % 2 ^ 42), (42, 1), (43, if dev then 1 else 0), (48, e.slot)]

/-- One pending overflow: OVF is set; a sample is captured while VALID is 0, and counted in MISSED otherwise; FRZ_ON_OVF
freezes the page. -/
def ovfAct (frame : Word32) (p : PerfPage) (x : Nat × PerfEvt) : PerfPage :=
  let c : PerfCtr := p.ctrs.toList.getD x.1 default
  let p := { p with ovf := putBit p.ovf x.1 true }
  let missed := (bitsOf p.sample0 24 8).toNat
  let p :=
    if !c.sample then p
    else if p.sample0.getLsbD 3 then { p with sample0 := putBits p.sample0 24 (BitVec.ofNat 8 (min 255 (missed + 1))) }
    else { p with sample0 := sample0Of frame x.1 x.2 ||| (BitVec.ofNat 64 missed <<< (24 : Nat)), sample1 := sample1Of x.2 }
  if (c.irq || c.sample) && p.frzOnOvf then { p with freeze := true } else p

/-- R533: the overflows of a page that are pending are acted on, and one MSI-X message covers them (R537). -/
def perfOverflow (page : Fin 7) (m : Mod) : Mod :=
  let p : PerfPage := m.perf[page]
  let irq := p.pend.any (fun x => (p.ctrs.toList.getD x.1 default).irq)
  let m := { m with perf := m.perf.set page { p.pend.foldl (ovfAct m.sched.frameNo) p with pend := [] } }
  if irq && p.irqEn then msix p.irqPort p.irqVec m else m

def execPerfOverflow (page : Fin 7) (s : State) : Res := modStep (perfOverflow page) s

/-! ### Bandwidth windows (R539) -/

/-- The port of a half. -/
def halfPort (h : Fin 2) : Port := if h = 0 then .a else .b

/-- R539: a window ends: its results change together. The flits of the window are a free value (log entry 31). -/
def bwEnd (p : Port) (m : Mod) : Mod :=
  let w := m.bw.get p
  let x := Config.flits m.free
  let w := { w with rd := w.accRd % 2 ^ 48, wr := w.accWr % 2 ^ 48, rx := x.1.toNat, tx := x.2.toNat, seq := w.seq + 1, accRd := 0, accWr := 0 }
  { m with bw := m.bw.set p w, free := m.free + 1 }

def execBwWindowEnd (half : Fin 2) (s : State) : Res := modStep (bwEnd (halfPort half)) s

end Sys2Proof.Machine
end

