-- ==== Sys2Proof/Machine/RegRead.lean ====
section
/-! DEFINITION. Machine/RegRead.lean: what the 8 B registers of BAR0 read as (R540 to R555 and the register index of R546).
An unassigned offset reads zero (R541). -/
namespace Sys2Proof.Machine

/-- A flag as a number. -/
def flag (b : Bool) : Nat := if b then 1 else 0

/-- A signed temperature as the 16 bits of its field. -/
def temp16 (t : Int) : Nat := (BitVec.ofInt 16 t).toNat

/-! ### Identity and capabilities (R547) -/

def identReg (fe : FrontEnd) (m : Mod) (off : Nat) : Word64 :=
  if off = 0x0 then packBits [(0, Config.vendorId.toNat), (16, 0x2048), (32, Config.stepNum.toNat), (36, Config.stepLtr.toNat), (40, 1),
    (48, Config.lid.toNat)]
  else if off = 0x8 then Config.moduleId
  else if off = 0x10 then packBits [(0, 4), (4, 8), (8, 2), (10, flag m.conn.gangEn), (12, 0x800), (24, 0x100), (34, 0x12), (39, 0x14),
    (44, 0x1C), (49, 0x40)]
  else if off = 0x18 then packBits [(0, 0x100), (9, 0x100), (18, 8), (22, 0x80), (30, 0xC), (35, 0x40), (42, 0x40), (49, 0x400)]
  else if off = 0x20 then packBits [(0, fe.uvSel.toNat), (2, fe.insDly.toNat), (4, m.conn.addrSel.toNat), (7, flag m.conn.gangEn),
    (8, 0x60 + m.conn.addrSel.toNat), (16, m.conn.da.toNat), (23, flag m.conn.daValid)]
  else 0

/-! ### Device control (R548, R549, R306, R314, R409, R415, R519) -/

/-- A degraded state of class Plan holds (R527). -/
def planHolds (m : Mod) : Bool :=
  m.packs.any (fun p => (List.range 4).any (fun r => rankState p r == 1)) ||
  m.slices.any (fun s => 3 ≤ (setBits s.disabled).length) ||
  m.filters.any (fun f => f.copyFailP || f.copyFailS) ||
  m.fullers.any (fun f => f.mode == 2) ||
  m.proc.sp0 == .failed || m.proc.sp1 == .failed || m.tb.fail0 || m.tb.fail1 ||
  m.ports.a.degraded || m.ports.b.degraded ||
  (m.gang.link == 3 && (m.gang.width != 0 || m.gang.parity)) ||
  m.therm.sensors.any (fun s => s.2.broken)

/-- A degraded state of class Now holds (R527). -/
def nowHolds (m : Mod) : Bool :=
  m.packs.any (fun p => p.plFull || (List.range 4).any (fun r => 2 ≤ rankState p r)) ||
  m.slices.any (fun s => s.passthru) || m.filters.any (fun f => f.lost) ||
  m.proc.recovery || (m.proc.sp0 == .failed && m.proc.sp1 == .failed) || m.therm.blind || m.prot.stop.isSome

/-- The ROM fallback set runs (R136): none does before boot code has chosen it. -/
def fallback (m : Mod) : Bool := m.proc.bootDone && m.sched.active.rom

/-- RELOADING (R255): set at phase 3 of a protection reload, until its end (R257). -/
def reloading (m : Mod) : Bool := m.prot.reload.any (fun l => 3 ≤ l.phase)

/-- *DEV_STATUS* (R548). -/
def devStatus (m : Mod) : Word64 :=
  packBits [(0, m.power.ready.toNat), (4, flag m.proc.bootDone), (5, flag m.prot.stop.isSome), (6, flag m.therm.critical),
    (7, flag (fallback m)), (8, flag m.proc.recovery), (9, flag m.viral), (10, flag m.tb.lost), (11, flag (reloading m)),
    (12, flag (planHolds m)), (13, flag (nowHolds m))]

/-- The three registers of a tile (R306). -/
def elasticReg (m : Mod) (t : Tile) (k : Nat) : Word64 :=
  let ts : TierSt := m.tiers[t]
  if k = 0 then packBits [(0, usablePool ts), (32, freeFrames ts), (60, flag ts.heel), (61, flag ts.enforce), (62, flag ts.bypass)]
  else if k = 8 then packBits [(0, (ts.tmap.filter (fun e => teState e.2 == 1 || teState e.2 == 2)).length),
    (32, (ts.tmap.filter (fun e => teState e.2 == 2)).length)]
  else if k = 0x10 then packBits [(0, reserveV ts), (32, ts.poisoned)]
  else 0

/-- *FULLER_STATUS* (R314). -/
def fullerReg (m : Mod) (f : FullerNo) : Word64 :=
  packBits [(0, (m.fullers[f] : Fuller).mode), (2, flag (fullerBusy m f.val)), (32, (m.fullers[f] : Fuller).mismatch)]

/-- *Label counters* (R415). -/
def labelReg (l : LabelSt) (k : Nat) : Word64 := if k = 0 then l.rd else if k = 8 then l.wr else if k = 0x10 then l.batts else l.overs

/-- *SP_STATUS* (R519). -/
def spStatus (m : Mod) : Word64 :=
  let p := m.proc
  packBits [(0, flag p.sp1Active), (1, p.sp0.code), (4, p.sp1.code), (7, flag p.recovery), (8, flag p.bank), (9, flag p.debug),
    (16, min p.takeovers 0xFFFF), (32, p.fwver.toNat)]

/-- Whether a bank of the flash holds a verified image (R519). -/
def bankValid (m : Mod) (b : Option BankImage) : Bool := b.any (fun i => i.fault == 0 && m.flash.minSvn ≤ i.svn)

/-- *FLASH_STATUS* (R519). -/
def flashStatus (m : Mod) : Word64 :=
  let f := m.flash
  packBits [(0, f.wcount0), (16, f.wcount1), (32, flag f.select), (33, flag (bankValid m f.bank0)), (34, flag (bankValid m f.bank1)),
    (35, flag m.proc.flashBusy.isSome), (48, f.minSvn % 2 ^ 16)]

def devReg (m : Mod) (off : Nat) : Word64 :=
  if off = 0 then devStatus m
  else if off = 0x10 then m.proc.scratch[0] else if off = 0x18 then m.proc.scratch[1]
  else if off = 0x20 then m.proc.scratch[2] else if off = 0x28 then m.proc.scratch[3]
  else if 0x100 ≤ off ∧ off < 0x180 then elasticReg m (Fin.ofNat 4 ((off - 0x100) / 0x20)) (off % 0x20)
  else if 0x200 ≤ off ∧ off < 0x240 then fullerReg m (Fin.ofNat 8 ((off - 0x200) / 8))
  else if 0x300 ≤ off ∧ off < 0x340 then
    let l : LabelSt := m.labels[Fin.ofNat 8 ((off - 0x300) / 8)]
    packBits [(0, l.cshare), (8, l.qshare)]
  else if off = 0x340 then BitVec.ofNat 64 (upTime m)
  else if 0x400 ≤ off ∧ off < 0x500 then labelReg (m.labels[Fin.ofNat 8 ((off - 0x400) / 0x20)]) (off % 0x20)
  else if off = 0x800 then spStatus m
  else if off = 0x808 then flashStatus m
  else if off = 0x810 then BitVec.ofNat 64 m.proc.wdtMs
  else 0

/-! ### Port set-up (R184 to R187) -/

/-- *PORT_STATUS* (R184). Viral goes out for the module's own viral state and for viral received (R174, R175). -/
def portStatus (m : Mod) (p : Port) : Word64 :=
  let q := m.ports.get p
  let fast := q.linkUp && q.rate != .low
  packBits [(0, flag q.linkUp), (1, q.rate.code), (3, q.width.code), (5, q.active), (7, flag q.lopt), (8, flag (fast && q.cacheEnable)),
    (9, flag (fast && q.hdmCommitted && q.memEnable)), (10, flag (m.viral || q.viralRx)), (11, flag q.viralRx), (12, flag q.degraded),
    (13, flag q.inReset), (14, flag q.sris)]

def portReg (m : Mod) (p : Port) (off : Nat) : Word64 :=
  let q := m.ports.get p
  if off = 0 then portStatus m p
  else if off = 8 then q.err.setWidth 64
  else if off = 0x10 then
    match q.viol with
    | none => 0
    | some v => packBits [(0, v.addr.toNat), (53, v.kind.toNat), (56, flag v.write), (57, 1)]
  else if off = 0x18 then BitVec.ofNat 64 q.violCount
  else if 0x40 ≤ off ∧ off < 0x80 then
    let l := (off - 0x40) / 8
    let b := curBudget m p (BitVec.ofNat 3 l)
    packBits [(0, b.1 % 2 ^ 13), (16, b.2.1 % 2 ^ 11), (32, tabGet 0 q.overruns l)]
  else 0

/-! ### Ring set-up (R336, R339) -/

def ringReg (m : Mod) (off : Nat) : Word64 :=
  if off < 0x4000 then
    let g := ringAt m (if off < 0x2000 then .a else .b) (off % 0x2000 / 0x20)
    let k := off % 0x20 / 8
    if k = 0 then g.base else if k = 1 then g.cfg else if k = 2 then g.db else g.shadow
  else if 0x8000 ≤ off ∧ off < 0xA000 then
    let g := ringAt m (if off < 0x9000 then .a else .b) (off % 0x1000 / 0x10)
    if off % 0x10 = 0 then packBits [(0, g.midx.toNat), (32, g.hidx.toNat)]
    else packBits [(0, g.state), (3, flag (g.full || fetchStuck m (if off < 0x9000 then .a else .b) g)), (8, g.status)]
  else 0

/-! ### Region table readback (R251, R255) -/

/-- The fields of a region entry (R251): bits [47] and [62:59] are reserved and read zero (R11), in an entry that is not valid too. -/
def entryFields (r : BitVec 128) : BitVec 128 := r &&& ~~~0x7800_8000_0000_0000#128

def regionReg (m : Mod) (off : Nat) : Word64 :=
  if off < 0x1000 then bitsOf (entryFields (m.prot.regions.getD (off / 16) 0)) (64 * (off / 8 % 2)) 64
  else if off = 0x1000 then packBits [(0, flag m.prot.locked), (1, flag (reloading m)), (16, m.prot.gen.toNat),
    (32, (m.prot.regions.filter (fun r => r.getLsbD 63)).length)]
  else 0

/-! ### Schedule control (R136, R103, R550, R551) -/

/-- *SCHED_STATUS* (R136). -/
def schedStatus (m : Mod) : Word64 :=
  let s := m.sched
  packBits [(0, s.variant), (3, bandInForce m), (5, m.therm.throttle), (7, flag s.swap.isSome), (8, s.swap.elim 0 (·.variant)),
    (11, flag (s.staged.isSome && s.load.isNone)), (12, flag (fallback m)), (13, flag s.subst), (14, flag s.load.isSome)]

/-- The set that SLOTRD_SEL selects, when its VALID bit reads 1 (R550, R551). -/
def slotRdSet (m : Mod) : Option ImageSet :=
  let set := if m.slotSel.getLsbD 0 then (if m.sched.load.isSome then none else m.sched.staged) else some m.sched.active
  match set with
  | none => none
  | some s =>
    let vi := (bitsOf m.slotSel 1 3).toNat
    if vi < s.variants.length ∧ (bitsOf m.slotSel 6 16).toNat < (varAt s vi).frame then some s else none

/-- SLOTRD_DATA: the slot word at the selected place. -/
def slotRdData (m : Mod) : Word64 :=
  match slotRdSet m with
  | none => 0
  | some s => slotWordOf s (bitsOf m.slotSel 1 3).toNat (bitsOf m.slotSel 4 2).toNat (bitsOf m.slotSel 6 16).toNat

def schedReg (m : Mod) (off : Nat) : Word64 :=
  if off = 0 then schedStatus m
  else if off = 8 then m.sched.active.setId
  else if off = 0x10 then if m.sched.load.isSome then 0 else m.sched.staged.elim 0 (·.setId)
  else if off = 0x18 then packBits [(0, (m.sched.frameNo - if m.sched.gap then 1 else 0).toNat), (32, if m.sched.running && !m.sched.gap then curSlot m else if m.proc.bootDone then 0xFFFF else 0)]
  else if 0x100 ≤ off ∧ off < 0x140 then
    let p : PackSt := m.packs[Fin.ofNat 8 ((off - 0x100) / 8)]
    packBits [(0, p.misses), (24, p.lastClass), (28, flag p.sinceBand)]
  else if off = 0x200 then packBits [(0, m.slotSel.toNat), (63, flag (slotRdSet m).isSome)]
  else if off = 0x208 then slotRdData m
  else if off = 0x210 then m.slotSet
  else 0

/-! ### Cache and filter (R217, R218, R246) -/

/-- *SLICE_STATUS* (R217). -/
def sliceStatus (s : Slice) : Word64 :=
  packBits [(0, s.disabled.toNat), (16, s.locked.toNat), (32, (wayMask (metaWayList s)).toNat), (48, flag (s.sweep || s.flush)), (49, flag (s.drain != 0)),
    (50, flag s.test.isSome), (51, (s.test.map (·.2)).getD ((setBits s.drain).headD 0)), (55, flag s.passthru), (56, flag s.prep)]

/-- *FILTER_STATUS* (R246). -/
def filterStatus (f : FilterSt) : Word64 :=
  let sent (p : Port) : Nat := (f.snps.filter (fun x => x.sent && x.port == p)).length
  packBits [(0, flag f.broadcast), (2, f.cause), (4, f.phase), (6, flag f.copyFailP), (7, flag f.copyFailS), (8, flag f.lost), (9, sent .a),
    (14, sent .b), (32, if f.broadcast && f.phase == 0 then (f.entries.filter (fun e => e.presA || e.presB)).length else 0)]

def cacheReg (m : Mod) (off : Nat) : Word64 :=
  if off < 0x100 then
    let t : Tile := Fin.ofNat 4 (off / 0x40)
    if off % 0x40 = 0 then sliceStatus m.slices[t] else if off % 0x40 = 8 then filterStatus m.filters[t] else 0
  else if off = 0x200 then m.insert.setWidth 64
  else 0

/-! ### Queue service (R552) -/

/-- *QS_POOL* (R552). -/
def poolStatus (m : Mod) (k : Nat) : Word64 :=
  let p := poolAt m k
  if p.enable then packBits [(0, freeRuns m p), (23, 1), (24, p.hdrCount - p.hdrUsed.length)] else 0

def queueReg (m : Mod) (off : Nat) : Word64 :=
  if off = 0 then packBits [(0, flag m.prot.stop.isSome), (1, min 1024 m.rings.a.enq.length), (12, min 1024 m.rings.b.enq.length)]
  else if 0x40 ≤ off ∧ off < 0x60 then
    let t : Tile := Fin.ofNat 4 ((off - 0x40) / 8)
    packBits [(0, assemblyUsed m t), (16, (m.qs.reads.filter (fun r => runTile r.run == t)).length), (32, (hdrCached m t).length)]
  else if 0x100 ≤ off ∧ off < 0x300 then poolStatus m ((off - 0x100) / 8)
  else 0

/-! ### Scheduler and policer table bases (R390, R391) -/

/-- EGS_STATUS.COMMIT shows a SCHED_COMMIT that is under way (log entry 129). -/
def tableReg (m : Mod) (off : Nat) : Word64 :=
  let committing := m.parked.any (fun x => (workObj x.work).1 == 12 && x.cmd.opcode == 0x0701#16)
  let wheel (coarse : Bool) : Nat := (m.egress.nodes.filter (fun n => n.2.wheel.any (fun w => w.2 == coarse))).length
  if off < 0x28 then m.egress.tbase[Fin.ofNat 5 (off / 8)]
  else if off = 0x40 then packBits [(0, flag committing), (1, flag m.prot.stop.isSome), (16, wheel false), (35, wheel true)]
  else 0

/-! ### Counters (R407): CPOOL_CFG takes the 8 B that its offset leaves it (log entry 32) -/

def counterReg (m : Mod) (off : Nat) : Word64 :=
  if off < 0x800 then
    let p := cpoolAt m (off / 0x20)
    let k := off % 0x20
    if k = 0 then packBits [(0, p.cbase), (32, p.ccount)]
    else if k = 8 then packBits [(0, p.lostAdd), (32, p.badAdd)]
    else if k = 0x10 then packBits [(0, p.wraps.toNat), (32, p.sats)]
    else 0
  else 0

/-! ### Gangline (R452) -/

/-- *GANG_STATUS* (R452). -/
def gangStatus (g : GangSt) : Word64 :=
  packBits [(0, g.link), (2, flag g.primary), (3, flag g.parity), (4, g.width), (6, g.rate), (7, g.mirror.code), (11, flag g.fresh),
    (12, flag (g.mirror == .mirroring && g.parity)), (32, g.bitmap.length)]

def gangReg (m : Mod) (off : Nat) : Word64 :=
  let g := m.gang
  if !m.conn.gangEn then 0
  else if off = 0 then gangStatus g
  else if off = 8 then BitVec.ofNat 64 g.replayUs
  else if off = 0x10 then g.err.setWidth 64
  else if off = 0x18 then g.peerId
  else if off = 0x20 then g.epoch.setWidth 64
  else if off = 0x28 then packBits [(0, g.pass), (32, g.left.length)]
  else if off = 0x30 then packBits [(0, g.crcFail), (32, g.replays)]
  else 0

/-! ### Thermal and power (R468, R484, R497) -/

/-- *TEMP_STATUS* (R468). -/
def tempStatus (m : Mod) : Word64 :=
  let t := m.therm
  packBits [(0, t.dramBand), (2, t.dieBand), (4, bandInForce m), (6, flag t.critical), (7, flag t.blind), (16, temp16 t.dramT),
    (32, temp16 t.dieT), (48, t.rounds.toNat)]

/-- *HEEL_STATUS* (R468). -/
def heelStatus (t : ThermSt) : Word64 :=
  packBits ([(0, flag t.dieHeel.raised), (1, flag t.dramHeel.raised), (2, flag (t.dieHeel.enforced || t.dramHeel.enforced)), (3, t.throttle)] ++
    (List.finRange 4).map (fun i => (5 + i.val, flag (t.capHeel[i] : Heel).raised)) ++
    (List.finRange 4).map (fun i => (9 + i.val, flag (t.capHeel[i] : Heel).enforced)))

/-- *SENSOR* (R468). -/
def sensorReg (m : Mod) (c : Nat) : Word64 :=
  let s := sensorAt m c
  packBits [(0, temp16 s.temp), (16, flag s.broken), (17, flag (m.therm.test.any (fun x => x.2 == c))), (18, min 3 s.fails)]

/-- *PWR_STATUS* (R484). -/
def pwrStatus (fe : FrontEnd) (m : Mod) : Word64 :=
  packBits [(0, flag (pgOut fe)), (1, flag fe.ftUp), (2, flag (faultWarnN fe)), (3, flag (hottest m [52, 53]).isNone), (4, fe.uvSel.toNat),
    (6, fe.insDly.toNat), (16, ftMicros fe m.tb.now)]

/-- *PM_STATUS* (R497). -/
def pmStatus (p : PowerSt) : Word64 :=
  packBits [(0, p.state), (3, p.last), (6, p.cause), (10, p.retained.toNat), (14, p.ready.toNat), (18, p.entry), (32, p.entries.toNat)]

def thermReg (fe : FrontEnd) (m : Mod) (off : Nat) : Word64 :=
  let p := m.power
  if off = 0 then tempStatus m
  else if off = 8 then BitVec.ofNat 64 m.therm.round
  else if off = 0x10 then BitVec.ofNat 64 m.therm.grace
  else if off = 0x18 then heelStatus m.therm
  else if 0x400 ≤ off ∧ off < 0x5D8 then sensorReg m ((off - 0x400) / 8)
  else if off = 0x200 then pwrStatus fe m
  else if off = 0x208 then BitVec.ofNat 64 p.ilim
  else if off = 0x210 then p.pwrErr.setWidth 64
  else if off = 0x218 then packBits [(0, p.vinMv % 2 ^ 16), (16, p.iin % 2 ^ 16), (32, temp16 p.fetT)]
  else if off = 0x300 then BitVec.ofNat 64 p.idleUs
  else if off = 0x308 then BitVec.ofNat 64 (p.retain.toNat * 4)
  else if off = 0x310 then pmStatus p
  else 0

/-! ### Performance counters (R529 to R539, R553) -/

/-- The page and the offset in it of an offset of the block, if it lies in one (R529). -/
def perfPage (off : Nat) : Option (Fin 7 × Nat) :=
  if off < 0x4000 then some (Fin.ofNat 7 (off / 0x1000), off % 0x1000)
  else if 0x8000 ≤ off ∧ off < 0xB000 then some (Fin.ofNat 7 (off / 0x1000 - 4), off % 0x1000)
  else none

/-- A tile page that PERF_USER does not open: it reads as zero and discards writes without an event (R530). -/
def pageClosed (m : Mod) (page : Fin 7) : Bool := page.val < 4 && !m.perfUser.getLsbD page.val

/-- *PERF_SEL* (R531). -/
def selReg (c : PerfCtr) : Word64 :=
  packBits [(0, c.event), (8, c.qual), (12, c.pack), (14, c.occ), (16, c.thresh), (29, flag c.chain), (30, flag c.irq), (31, flag c.sample),
    (32, flag c.en)]

/-- *Bandwidth windows* (R539). -/
def bwReg (w : BwWindow) (off : Nat) : Word64 :=
  if off = 0x300 then BitVec.ofNat 64 w.us else if off = 0x308 then BitVec.ofNat 64 w.rd else if off = 0x310 then BitVec.ofNat 64 w.wr
  else if off = 0x318 then packBits [(0, w.rx), (32, w.tx)] else if off = 0x320 then w.seq.setWidth 64 else 0

def pageReg (m : Mod) (page : Fin 7) (off : Nat) : Word64 :=
  let p : PerfPage := m.perf[page]
  if pageClosed m page then 0
  else if off < 0x80 then
    let c : PerfCtr := p.ctrs[Fin.ofNat 8 (off / 0x10)]
    if off % 0x10 = 0 then selReg c else BitVec.ofNat 64 c.count
  else if off < 0xC0 then BitVec.ofNat 64 (p.ctrs[Fin.ofNat 8 ((off - 0x80) / 8)] : PerfCtr).snap
  else if off = 0x100 then packBits [(0, p.ovf.toNat), (8, flag p.freeze)]
  else if off = 0x108 then packBits [(0, flag p.freeze), (1, flag p.frzOnOvf)]
  else if off = 0x200 then p.sample0
  else if off = 0x208 then p.sample1
  else if page = 4 then bwReg m.bw.a off
  else if page = 5 then bwReg m.bw.b off
  else if page = 6 ∧ off = 0x400 then m.perfUser.setWidth 64
  else if page = 6 ∧ 0x410 ≤ off ∧ off < 0x448 then
    let x : PerfPage := m.perf[Fin.ofNat 7 ((off - 0x410) / 8)]
    packBits [(0, x.irqVec), (10, x.irqPort.num), (11, flag x.irqEn)]
  else 0

/-! ### Events and interrupts (R519, R554, R555), key slot status (R287) -/

def eventReg (m : Mod) (off : Nat) : Word64 :=
  let e := m.ev
  if off = 0 then packBits [(0, e.fifo.length), (13, flag (!e.co.isEmpty)), (16, e.nextSeq.toNat)]
  else if off = 8 then e.mask.setWidth 64
  else if off = 0x10 then packBits [(0, e.sev.toNat), (4, flag e.crit)]
  else if off = 0x18 then packBits [(0, e.reOffset.toNat), (26, e.reSource.toNat), (28, e.reReason.toNat), (31, flag e.reValid), (32, e.reCount)]
  else 0

/-- *KEY_SLOT* (R287). -/
def keyReg (m : Mod) (n : Fin 64) : Word64 :=
  let k : KeySlot := m.prot.keys[n]
  let regions := (m.prot.regions.filter (fun r => r.getLsbD 63 && r.getLsbD (64 + n.val))).length
  if n = 0 then packBits [(0, 7), (16, regions)] else packBits [(0, k.st.code), (16, regions), (32, k.loads.toNat)]

/-- *INTEG_STATUS* and *INTEG_ADDR* (R287). -/
def integReg (s : Option Stop) (addr : Bool) : Word64 :=
  match s with
  | none => 0
  | some s =>
    if addr then packBits [(0, s.da % 2 ^ 41), (41, s.keyId)]
    else packBits [(0, 1), (1, s.cause), (3, flag s.merge), (4, s.tile), (6, s.level), (32, s.frame.toNat)]

def protReg (m : Mod) (off : Nat) : Word64 :=
  if off < 0x200 then keyReg m (Fin.ofNat 64 (off / 8))
  else if off = 0x200 then integReg m.prot.stop false
  else if off = 0x208 then integReg m.prot.stop true
  else if 0x300 ≤ off ∧ off < 0x340 ∧ off % 0x10 = 0 then
    let s : SealRange := m.prot.sealR[Fin.ofNat 4 ((off - 0x300) / 0x10)]
    packBits [(0, s.base), (16, s.gran), (32, s.metaBase), (48, s.metaGran)]
  else 0

/-! ### The whole of BAR0 (R540, R542) -/

/-- The register at an 8 B offset of BAR0 as a port reads it. -/
def barReg (fe : FrontEnd) (m : Mod) (off : Nat) : Word64 :=
  let o := off % 0x10000
  if off < 0x1000 then identReg fe m off
  else if off < 0x10000 then devReg m (off - 0x1000)
  else if off < 0x18000 then portReg m .a o
  else if off < 0x20000 then portReg m .b (o - 0x8000)
  else if off < 0x30000 then ringReg m o
  else if off < 0x40000 then regionReg m o
  else if off < 0x50000 then schedReg m o
  else if off < 0x60000 then cacheReg m o
  else if off < 0x70000 then queueReg m o
  else if off < 0x80000 then tableReg m o
  else if off < 0x90000 then counterReg m o
  else if off < 0xA0000 then gangReg m o
  else if off < 0xB0000 then thermReg fe m o
  else if off < 0xC0000 then
    match perfPage o with
    | none => 0
    | some (pg, k) => pageReg m pg k
  else if off < 0xD0000 then eventReg m o
  else if off < 0xE0000 then protReg m o
  else 0

/-- The blocks that the sideband reads (R542). -/
def sideReads (off : Nat) : Bool :=
  off < 0x10000 || (0x90000 ≤ off && off < 0xB0000) || (0xC0000 ≤ off && off < 0xD0000)

/-- What a read of `size` bytes gives (R542, R544): the register, or the half that the address names. -/
def regRead (fe : FrontEnd) (m : Mod) (src : Source) (off size : Nat) : Word64 :=
  if src == .sideband && !sideReads off then 0
  else
    let w := barReg fe m (off / 8 * 8)
    if size = 8 then w else if off % 8 = 0 then (bitsOf w 0 32).setWidth 64 else (bitsOf w 32 32).setWidth 64

end Sys2Proof.Machine
end

