-- ==== Sys2Proof/Machine/Regs.lean ====
section
/-! DEFINITION. Machine/Regs.lean: writes of BAR0 registers under the rules of sources, sizes, halves and reserved encodings (R12,
R182, R541 to R545), and the accesses of the hosts that have rows of their own. -/
namespace Sys2Proof.Machine

/-! ### Fields of a written word (R544) -/

/-- What a write gives the field of `w` bits from `lo` of an 8 B register: nothing when the field does not lie wholly in the bytes
written. -/
abbrev Written := Nat → Nat → Option Nat

/-- The fields of a write of `size` bytes at `off`. -/
def written (off size : Nat) (v : Word64) : Written := fun lo w =>
  if size = 8 then some (bitsOf v lo w).toNat
  else if off % 8 = 0 then if lo + w ≤ 32 then some (bitsOf v lo w).toNat else none
  else if 32 ≤ lo then some (bitsOf v (lo - 32) w).toNat else none

/-- Whether a write puts into a field a value that `ok` refuses. -/
def refuses (w : Written) (lo n : Nat) (ok : Nat → Bool) : Bool := (w lo n).any (fun v => !ok v)

/-- Whether a write puts 1 into a bit. -/
def writes1 (w : Written) (lo : Nat) : Bool := w lo 1 == some 1

/-- A register's RW1C field after a write. -/
def cleared {n : Nat} (w : Written) (lo : Nat) (x : BitVec n) : BitVec n := x &&& ~~~(BitVec.ofNat n ((w lo n).getD 0))

/-- What a write does to a register: the sources that may write it, the reason that another meets (6, or a lower one), the reserved
encodings, and the effect. -/
structure WReg where
  allowed : Source → Bool
  deny    : Nat
  bad     : Written → Bool
  apply   : Written → Mod → Mod

/-- Either port (R542). -/
def eitherPort (s : Source) : Bool := s != .sideband
/-- Either port or the sideband (R542). -/
def anySource (_ : Source) : Bool := true

/-- A register without a writable field. -/
def readOnly : WReg := { allowed := fun _ => false, deny := 6, bad := fun _ => false, apply := fun _ m => m }

/-- A writable register of either port. -/
def shared (bad : Written → Bool) (apply : Written → Mod → Mod) : WReg := { allowed := eitherPort, deny := 6, bad := bad, apply := apply }

/-- No encoding is reserved. -/
def anyCode (_ : Written) : Bool := false

/-! ### Device control and port set-up -/

def setScratch (k : Fin 4) (w : Written) (m : Mod) : Mod :=
  match w 0 64 with
  | none => m
  | some v => { m with proc := { m.proc with scratch := m.proc.scratch.set k (BitVec.ofNat 64 v) } }

def labelCfgBad (w : Written) : Bool := refuses w 0 7 (· ≤ 64) || refuses w 8 6 (· ≤ 32)

/-- LABEL_CFG (R409). -/
def setLabelCfg (l : BitVec 3) (w : Written) (m : Mod) : Mod :=
  onLabel l (fun x => { x with cshare := (w 0 7).getD x.cshare, qshare := (w 8 6).getD x.qshare }) m

def devWReg (off : Nat) : Option WReg :=
  if off = 0x10 then some (shared anyCode (setScratch 0)) else if off = 0x18 then some (shared anyCode (setScratch 1))
  else if off = 0x20 then some (shared anyCode (setScratch 2)) else if off = 0x28 then some (shared anyCode (setScratch 3))
  else if 0x300 ≤ off ∧ off < 0x340 then some (shared labelCfgBad (setLabelCfg (BitVec.ofNat 3 ((off - 0x300) / 8))))
  else if off = 0 ∨ (0x100 ≤ off ∧ off < 0x180 ∧ off % 0x20 ≠ 0x18) ∨ (0x200 ≤ off ∧ off < 0x240) ∨ off = 0x340 ∨
      (0x400 ≤ off ∧ off < 0x500) ∨ (0x800 ≤ off ∧ off ≤ 0x810) then some readOnly
  else none

/-- PORT_ERR (R185); clearing VIOL frees PORT_VIOL for the next violation (R186). -/
def clearPortErr (p : Port) (w : Written) (m : Mod) : Mod :=
  onPort p (fun q => { q with err := cleared w 0 q.err, viol := if writes1 w 0 then none else q.viol }) m

def portWReg (p : Port) (off : Nat) : Option WReg :=
  if off = 8 then some { allowed := fun s => s.port == some p, deny := 6, bad := anyCode, apply := clearPortErr p }
  else if off = 0 ∨ off = 0x10 ∨ off = 0x18 ∨ (0x40 ≤ off ∧ off < 0x80) then some readOnly
  else none

/-! ### Schedule control, cache, tables -/

/-- The missed-slot word's CLEAR (R103, R104). -/
def clearMissed (p : Pack) (w : Written) (m : Mod) : Mod :=
  if writes1 w 31 then onPack p (fun x => { x with misses := 0, sinceBand := false }) m else m

/-- SLOTRD_SEL (R550). -/
def setSlotSel (w : Written) (m : Mod) : Mod :=
  match w 0 22 with
  | none => m
  | some v => { m with slotSel := BitVec.ofNat 22 v }

def schedWReg (off : Nat) : Option WReg :=
  if 0x100 ≤ off ∧ off < 0x140 then some (shared anyCode (clearMissed (Fin.ofNat 8 ((off - 0x100) / 8))))
  else if off = 0x200 then some (shared anyCode setSlotSel)
  else if off < 0x20 ∨ off = 0x208 ∨ off = 0x210 then some readOnly
  else none

/-- CACHE_INSERT (R218). -/
def setInsert (w : Written) (m : Mod) : Mod :=
  match w 0 16 with
  | none => m
  | some v => { m with insert := BitVec.ofNat 16 v }

def cacheWReg (off : Nat) : Option WReg :=
  if off = 0x200 then some (shared anyCode setInsert)
  else if off < 0x100 ∧ off % 0x40 < 0x10 then some readOnly
  else none

/-- TBASE (R390). -/
def setTbase (t : Fin 5) (w : Written) (m : Mod) : Mod :=
  let old : Word64 := m.egress.tbase[t]
  let v := packBits [(0, (w 0 1).getD (bitsOf old 0 1).toNat), (12, (w 12 41).getD (bitsOf old 12 41).toNat)]
  { m with egress := { m.egress with tbase := m.egress.tbase.set t v } }

def tableWReg (off : Nat) : Option WReg :=
  if off < 0x28 then some (shared anyCode (setTbase (Fin.ofNat 5 (off / 8))))
  else if off = 0x40 then some readOnly
  else none

/-! ### Gangline (R452): with GANG_EN strapped off a write is ignored -/

def setReplay (w : Written) (m : Mod) : Mod := onGang (fun g => { g with replayUs := (w 0 6).getD g.replayUs }) m

def clearGangErr (w : Written) (m : Mod) : Mod := onGang (fun g => { g with err := cleared w 0 g.err }) m

def gangWReg (m : Mod) (off : Nat) : Option WReg :=
  if 0x30 < off then none
  else if !m.conn.gangEn then some { allowed := anySource, deny := 6, bad := anyCode, apply := fun _ m => m }
  else if off = 8 then some (shared (fun w => refuses w 0 6 (· ≠ 0)) setReplay)
  else if off = 0x10 then some (shared anyCode clearGangErr)
  else some readOnly

/-! ### Thermal and power (R468, R484, R497) -/

def fromAny (bad : Written → Bool) (apply : Written → Mod → Mod) : WReg := { allowed := anySource, deny := 6, bad := bad, apply := apply }

def inRange (lo hi n : Nat) : Bool := lo ≤ n && n ≤ hi

def setRound (w : Written) (m : Mod) : Mod := onTherm (fun t => { t with round := (w 0 4).getD t.round }) m

def setGrace (w : Written) (m : Mod) : Mod := onTherm (fun t => { t with grace := (w 0 7).getD t.grace }) m

def onPower (f : PowerSt → PowerSt) (m : Mod) : Mod := { m with power := f m.power }

/-- PM_CTL (R497): RETAIN is written, and REQ = 1 or 2 asks for Sleep or Deep sleep. -/
def pmCtl (w : Written) (m : Mod) : Mod :=
  let retain := ((w 2 4).map (BitVec.ofNat 4)).getD m.power.retain
  match w 0 2 with
  | some 1 => pmSleep retain m
  | some 2 => pmDeep retain m
  | _ => setRetain retain m

def thermWReg (off : Nat) : Option WReg :=
  if off = 8 then some (fromAny (fun w => refuses w 0 4 (inRange 1 10)) setRound)
  else if off = 0x10 then some (fromAny (fun w => refuses w 0 7 (inRange 1 100)) setGrace)
  else if off = 0x208 then
    some (fromAny (fun w => refuses w 0 6 (inRange 10 52)) (fun w => onPower (fun p => { p with ilim := (w 0 6).getD p.ilim })))
  else if off = 0x210 then some (fromAny anyCode (fun w => onPower (fun p => { p with pwrErr := cleared w 0 p.pwrErr })))
  else if off = 0x300 then
    some (shared (fun w => refuses w 0 14 (fun n => n == 0 || inRange 10 10000 n)) (fun w => onPower (fun p =>
      { p with idleUs := (w 0 14).getD p.idleUs })))
  else if off = 0x308 then
    some { allowed := fun s => s == .sideband, deny := 5, bad := fun w => refuses w 0 2 (· ≠ 3), apply := pmCtl }
  else if off = 0 ∨ off = 0x18 ∨ off = 0x200 ∨ off = 0x218 ∨ off = 0x310 ∨ (0x400 ≤ off ∧ off < 0x5D8) then some readOnly
  else none

/-! ### Performance counters (R529 to R539, R553) -/

/-- What QUAL names for an event. -/
inductive QualOf where
  | cls | label | port | unused | all
  deriving DecidableEq, Repr

/-- The events of a page: what QUAL names, and whether the event is an occupancy; `none`: reserved (*Tile events*, *Half events*,
*Device events*). -/
def eventKind (page : Fin 7) (e : Nat) : Option (QualOf × Bool) :=
  if page.val < 4 then
    if inRange 0x01 0x04 e then some (.cls, false) else if inRange 0x05 0x08 e then some (.label, false)
    else if e = 0x09 ∨ e = 0x0B then some (.unused, false) else if e = 0x0A then some (.port, false)
    else if e = 0x20 then some (.cls, true) else if e = 0x24 then some (.port, true)
    else if inRange 0x21 0x26 e then some (.unused, true) else none
  else if page.val < 6 then
    if inRange 0x05 0x07 e ∨ e = 0x09 ∨ e = 0x0B then some (.label, false)
    else if inRange 0x01 0x0A e then some (.unused, false)
    else if e = 0x20 ∨ e = 0x21 then some (.label, true) else if e = 0x22 then some (.unused, true) else none
  else if inRange 0x01 0x0E e then some (.all, false) else if e = 0x20 ∨ e = 0x21 then some (.all, true) else none

/-- The values of QUAL that an event takes. -/
def qualOk (k : QualOf) (q : Nat) : Bool :=
  match k with
  | .cls => q ≤ 11 || q == 15
  | .label => q ≤ 7 || q == 15
  | .port => q ≤ 1 || q == 15
  | .unused => true
  | .all => q == 15

/-- A reserved encoding in PERF_SEL_i (R531, R532). -/
def selBad (page : Fin 7) (i : Fin 8) (w : Written) : Bool :=
  match w 0 32 with
  | none => false
  | some _ =>
    if w 29 1 == some 1 then i.val % 2 == 0
    else
      match eventKind page ((w 0 8).getD 0) with
      | none => true
      | some (k, occ) =>
        refuses w 8 4 (qualOk k) || refuses w 12 2 (fun p => if page.val < 4 then p ≤ 2 else p == 0) ||
          refuses w 14 2 (fun o => if occ then o != 0 else o == 0)

/-- A counter after a write of its PERF_SEL; a change of what it counts asks for a fresh rise (R534). -/
def selWrite (w : Written) (c : PerfCtr) : PerfCtr :=
  let d := { c with event := (w 0 8).getD c.event, qual := (w 8 4).getD c.qual, pack := (w 12 2).getD c.pack, occ := (w 14 2).getD c.occ,
                    thresh := (w 16 13).getD c.thresh }
  let changed := (d.event, d.qual, d.pack, d.occ, d.thresh) != (c.event, c.qual, c.pack, c.occ, c.thresh)
  let fl (lo : Nat) (b : Bool) : Bool := ((w lo 1).map (· == 1)).getD b
  { d with chain := fl 29 c.chain, irq := fl 30 c.irq, sample := fl 31 c.sample, en := fl 32 c.en, high := changed || c.high }

/-- Change a page of counters. -/
def onPage (p : Fin 7) (f : PerfPage → PerfPage) (m : Mod) : Mod := { m with perf := m.perf.set p (f m.perf[p]) }

/-- Change one counter. -/
def onCtr (p : Fin 7) (i : Fin 8) (f : PerfCtr → PerfCtr) (m : Mod) : Mod := onPage p (fun x => { x with ctrs := x.ctrs.set i (f x.ctrs[i]) }) m

/-- PERF_PCTL (R534, R535). -/
def pctlWrite (w : Written) (p : PerfPage) : PerfPage :=
  let fl (lo : Nat) (b : Bool) : Bool := ((w lo 1).map (· == 1)).getD b
  let p := if writes1 w 2 then { p with ctrs := p.ctrs.map (fun (c : PerfCtr) => { c with snap := c.count }) } else p
  { p with freeze := fl 0 p.freeze, frzOnOvf := fl 1 p.frzOnOvf }

/-- PERF_SAMPLE0 (R536): clearing VALID starts MISSED anew. -/
def sampleWrite (w : Written) (p : PerfPage) : PerfPage :=
  if writes1 w 3 then { p with sample0 := p.sample0 &&& ~~~0xFF00_0008#64 } else p

/-- BW_CFG (R539): the running window ends without a result. -/
def bwWrite (p : Port) (w : Written) (m : Mod) : Mod :=
  { m with bw := m.bw.set p { m.bw.get p with us := (w 0 20).getD (m.bw.get p).us, accRd := 0, accWr := 0 } }

/-- PERF_IRQ (R537). -/
def irqWrite (w : Written) (p : PerfPage) : PerfPage :=
  { p with irqVec := (w 0 10).getD p.irqVec, irqPort := ((w 10 1).map (fun n => if n = 1 then Port.b else .a)).getD p.irqPort,
           irqEn := ((w 11 1).map (· == 1)).getD p.irqEn }

def pageWReg (page : Fin 7) (off : Nat) : Option WReg :=
  if off < 0x80 then
    let i : Fin 8 := Fin.ofNat 8 (off / 0x10)
    if off % 0x10 = 0 then some (shared (selBad page i) (fun w => onCtr page i (selWrite w)))
    else some (shared anyCode (fun w => onCtr page i (fun c => { c with count := (w 0 48).getD c.count })))
  else if off < 0xC0 ∨ off = 0x208 then some readOnly
  else if off = 0x100 then some (shared anyCode (fun w => onPage page (fun p => { p with ovf := cleared w 0 p.ovf })))
  else if off = 0x108 then some (shared anyCode (fun w => onPage page (pctlWrite w)))
  else if off = 0x200 then some (shared anyCode (fun w => onPage page (sampleWrite w)))
  else if (page = 4 ∨ page = 5) ∧ off = 0x300 then
    some (shared (fun w => refuses w 0 20 (inRange 1 1000000)) (bwWrite (if page = 4 then .a else .b)))
  else if (page = 4 ∨ page = 5) ∧ 0x300 < off ∧ off ≤ 0x320 then some readOnly
  else if page = 6 ∧ off = 0x400 then
    some (shared anyCode (fun w m => { m with perfUser := ((w 0 4).map (BitVec.ofNat 4)).getD m.perfUser }))
  else if page = 6 ∧ 0x410 ≤ off ∧ off < 0x448 then some (shared anyCode (fun w => onPage (Fin.ofNat 7 ((off - 0x410) / 8)) (irqWrite w)))
  else none

/-! ### Events and interrupts (R554, R555) -/

def onEvents (f : Events → Events) (m : Mod) : Mod := { m with ev := f m.ev }

def eventWReg (off : Nat) : Option WReg :=
  if off = 8 then some (fromAny anyCode (fun w => onEvents (fun e => { e with mask := ((w 0 4).map (BitVec.ofNat 4)).getD e.mask })))
  else if off = 0x10 then some (fromAny anyCode (fun w => onEvents (fun e => { e with sev := cleared w 0 e.sev })))
  else if off = 0x18 then some (fromAny anyCode (fun w => onEvents (fun e => if writes1 w 31 then { e with reValid := false } else e)))
  else if off = 0 then some readOnly
  else none

/-! ### The whole of BAR0 -/

/-- The register at an 8 B offset outside the ring block; `none`: unassigned. -/
def wregAt (m : Mod) (off : Nat) : Option WReg :=
  let o := off % 0x10000
  if off < 0x1000 then if off ≤ 0x20 then some readOnly else none
  else if off < 0x10000 then devWReg (off - 0x1000)
  else if off < 0x18000 then portWReg .a o
  else if off < 0x20000 then portWReg .b (o - 0x8000)
  else if off < 0x30000 then none
  else if off < 0x40000 then if o ≤ 0x1000 then some readOnly else none
  else if off < 0x50000 then schedWReg o
  else if off < 0x60000 then cacheWReg o
  else if off < 0x70000 then if o = 0 ∨ (0x40 ≤ o ∧ o < 0x60) ∨ (0x100 ≤ o ∧ o < 0x300) then some readOnly else none
  else if off < 0x80000 then tableWReg o
  else if off < 0x90000 then if o < 0x800 ∧ o % 0x20 ≠ 0x18 then some readOnly else none
  else if off < 0xA0000 then gangWReg m o
  else if off < 0xB0000 then thermWReg o
  else if off < 0xC0000 then
    match perfPage o with
    | none => none
    | some (pg, k) => pageWReg pg k
  else if off < 0xD0000 then eventWReg o
  else if off < 0xE0000 then
    if o < 0x200 ∨ o = 0x200 ∨ o = 0x208 ∨ (0x300 ≤ o ∧ o < 0x340 ∧ o % 0x10 = 0) then some readOnly else none
  else none

/-- A write to the ring set-up block (R336, R337, R339), whose offset `o` is relative to the block: the registers of a ring take a
whole write, and a 4 B write of RING_CFG the half that it names; the other three hold one field over both halves. -/
def ringWrite (src : Source) (off size : Nat) (v : Word64) (m : Mod) : Mod :=
  let o := off % 0x10000 / 8 * 8
  if o < 0x4000 then
    let q : Port := if o < 0x2000 then .a else .b
    let r := o % 0x2000 / 0x20
    let k := o % 0x20 / 8
    let old := ringAt m q r
    if k = 1 then
      ringCfgWrite src q r (if size = 8 then v else putBits old.cfg (8 * (off % 8)) (v.setWidth 32)) m
    else
      let keep := if k = 0 then old.base else if k = 2 then old.db else old.shadow
      ringAddrWrite src q r k (if size = 8 then v else keep) m
  else if 0x8000 ≤ o ∧ o < 0xA000 then
    regError off src.code (if src != .sideband && src.port != some (if o < 0x9000 then .a else .b) then 2 else 6) m
  else regError off src.code 4 m

/-- A write of `size` bytes to a BAR0 offset (R12, R182, R530, R541, R542, R555): of several reasons the lowest code counts. -/
def regWrite (src : Source) (off size : Nat) (v : Word64) (m : Mod) : Mod :=
  let closed := 0xB0000 ≤ off && off < 0xC0000 && (perfPage (off % 0x10000)).any (fun x => pageClosed m x.1)
  if closed then m
  else if !(size = 4 ∨ size = 8) ∨ off % size ≠ 0 then regError off src.code 1 m
  else if 0x20000 ≤ off ∧ off < 0x30000 then ringWrite src off size v m
  else
    match wregAt m (off / 8 * 8) with
    | none => regError off src.code 4 m
    | some g =>
      let w := written off size v
      if g.bad w then regError off src.code 0 m
      else if !g.allowed src then regError off src.code g.deny m
      else g.apply w m

/-! ### Accesses of the hosts (R182, R183, R493, R545) -/

/-- A write of 8 B to a register from a source. -/
def sourceWrite (src : Source) (off : Nat) (v : Word64) (m : Mod) : Mod := sourceAccess src off v (regWrite src off 8 v) m

/-- R104: a write of CLEAR to a pack's missed-slot status word. -/
def execMissedSlotClear (src : Source) (pack : Pack) (s : State) : Res :=
  modStep (sourceWrite src (0x40100 + 8 * pack.val) 0x8000_0000#64) s

/-- BAR0 offset of a page of counters (R529). -/
def pageBase (p : Fin 7) : Nat := if p.val < 4 then 0xB0000 + 0x1000 * p.val else 0xB4000 + 0x1000 * p.val

/-- R535: a write of PERF_PCTL. -/
def execPerfSnapshot (src : Source) (page : Fin 7) (value : Word64) (s : State) : Res :=
  modStep (sourceWrite src (pageBase page + 0x108) value) s

/-- R534: a write of PERF_CNT. -/
def execPerfCounterWrite (src : Source) (page : Fin 7) (i : Fin 8) (value : Word64) (s : State) : Res :=
  modStep (sourceWrite src (pageBase page + 0x10 * i.val + 8) value) s

/-- R534: a write of PERF_SEL. -/
def execPerfSelWrite (src : Source) (page : Fin 7) (i : Fin 8) (value : Word64) (s : State) : Res :=
  modStep (sourceWrite src (pageBase page + 0x10 * i.val) value) s

/-- R539: a write of BW_CFG. -/
def execBwCfgWrite (src : Source) (half : Fin 2) (value : Word64) (s : State) : Res :=
  modStep (sourceWrite src (0xB8300 + 0x1000 * half.val) value) s

/-- Change the message address and data of a vector. -/
def onVector (p : Port) (k : Nat) (f : Word64 × Word32 → Word64 × Word32) (m : Mod) : Mod :=
  onPort p (fun q => { q with msixTab := tabMod (0, 0) q.msixTab k f }) m

/-- The vector control dword of the MSI-X table (R335): its mask bit; a pending vector's message follows its unmask. -/
def maskWrite (p : Port) (k : Nat) (d : Word32) (m : Mod) : Mod :=
  if d.getLsbD 0 then onPort p (fun q => { q with msixOn := q.msixOn.filter (· != k) }) m
  else
    let q := m.ports.get p
    let m := onPort p (fun q => { q with msixOn := if q.msixOn.contains k then q.msixOn else k :: q.msixOn,
                                         msixPend := q.msixPend.filter (· != k) }) m
    if q.msixPend.contains k then msix p k m else m

/-- One dword of the MSI-X table (R179): entries of 16 B hold message address, message data and vector control. -/
def tableDword (p : Port) (off : Nat) (d : Word32) (m : Mod) : Mod :=
  let k := off / 16
  if off % 16 = 0 then onVector p k (fun e => (putBits e.1 0 d, e.2)) m
  else if off % 16 = 4 then onVector p k (fun e => (putBits e.1 32 d, e.2)) m
  else if off % 16 = 8 then onVector p k (fun e => (e.1, d)) m
  else maskWrite p k d m

/-- A write of 4 or 8 B to the MSI-X table. -/
def tableWrite (p : Port) (off size : Nat) (v : Word64) (m : Mod) : Mod :=
  let m := tableDword p off (v.setWidth 32) m
  if size = 8 then tableDword p (off + 4) (bitsOf v 32 32) m else m

/-- A write through BAR2 or BAR4 (R179, R182): of BAR2 the rows for the HDM decoder and the mailbox say what its registers do. -/
def otherBarWrite (p : Port) (bar : Bar) (off size : Nat) (v : Word64) (m : Mod) : Mod :=
  if !(size = 4 ∨ size = 8) ∨ off % size ≠ 0 then regError off p.num 1 m
  else if bar == .bar4 && off < 0x4000 then tableWrite p off size v m
  else m

/-- Poisoned CXL.io data is received (R154, R183). -/
def poisonedTlp (p : Port) (m : Mod) : Mod :=
  event 0x0308 0 (p.num + 4) (setAer p .poisonedTlp (onPort p (fun q => { q with err := q.err ||| 2#8 }) m))

/-- A BAR write of a port. -/
def barWrite (p : Port) (bar : Bar) (off size : Nat) (v : Word64) (m : Mod) : Mod :=
  if bar == .bar0 then regWrite (if p == .a then .portA else .portB) off size v m else otherBarWrite p bar off size v m

/-- R542: a write to a register that has no row of its own. Poisoned data is recorded and not written (PRESUMED, log entry 117). -/
def execRegisterWrite (port : Port) (bar : Bar) (offset size : Nat) (value : Option Word64) (s : State) : Res :=
  modStep (portAccess port (match value with
    | none => poisonedTlp port
    | some v => barWrite port bar offset size v)) s

end Sys2Proof.Machine
end

