-- ==== Sys2Proof/Machine/Connector.lean ====
section
/-! DEFINITION. Machine/Connector.lean: the sideband target (R565 to R569), its I3C common command codes, and the TAP (R570). -/
namespace Sys2Proof.Machine

/-! ### Transfers (R567 to R569) -/

/-- OFFSET and SIZE of a header. -/
def hdrOffset (h : BitVec 32) : Nat := (bitsOf h 0 26).toNat
def hdrSize (h : BitVec 32) : Nat := if h.getLsbD 26 then 8 else 4

/-- A header that sets a reserved bit, or whose OFFSET is not aligned for SIZE (R568). -/
def hdrBad (h : BitVec 32) : Bool := bitsOf h 27 5 != 0 || hdrOffset h % hdrSize h != 0

/-- The Thermal and power block, which the retention stores serve (R493). -/
def inThermal (h : BitVec 32) : Bool := 0xA0000 ≤ hdrOffset h && hdrOffset h < 0xB0000

/-- The bytes that a header's read posts. -/
def readBytes (fe : FrontEnd) (h : BitVec 32) (m : Mod) : List Byte := toBytes (regRead fe m .sideband (hdrOffset h) (hdrSize h)) (hdrSize h)

/-- A well-formed write transfer takes effect on its register. -/
def sideWrite (off size : Nat) (v : Word64) (m : Mod) : Mod := sideAccess off size v (regWrite .sideband off size v) m

/-- The write transfers that waited for the exit complete, in order. -/
def sideGo (m : Mod) : Mod :=
  if blocksUp m then
    m.conn.held.foldl (fun m x => sideWrite x.1 x.2.1 x.2.2 m) (onConn (fun c => { c with held := [] }) m)
  else m

/-- R567, R568: a write transfer. -/
def sidebandWrite (h : BitVec 32) (data : List Byte) (m : Mod) : Mod :=
  if pinsHeld m then m
  else
    let m := wake 6 m
    if hdrBad h || data.length != hdrSize h then regError (hdrOffset h) 2 1 m
    else sideWrite (hdrOffset h) (hdrSize h) (ofBytes 64 data) m

def execSidebandWrite (header : BitVec 32) (data : List Byte) (s : State) : Res := modStep (sidebandWrite header data) s

/-- A sideband write of PM_CTL (R497) with a REQ and a RETAIN. -/
def pmRequest (req : Nat) (retain : BitVec 4) : Mod → Mod :=
  sidebandWrite 0x040A0308#32 (toBytes (BitVec.ofNat 64 (req + 4 * retain.toNat)) 8)

/-- R490: a sideband write of PM_CTL.REQ = 1; like every sideband write it is a wake cause (R493). -/
def execPmSleepRequest (retain : BitVec 4) (s : State) : Res := modStep (pmRequest 1 retain) s

/-- R491: a sideband write of PM_CTL.REQ = 2. -/
def execPmDeepSleepRequest (retain : BitVec 4) (s : State) : Res := modStep (pmRequest 2 retain) s

/-- R567, R569: the header of a read transfer takes the place of an earlier one. -/
def sidebandHeader (fe : FrontEnd) (h : BitVec 32) (m : Mod) : Mod :=
  if pinsHeld m then m
  else if hdrBad h then regError (hdrOffset h) 2 1 (wake 6 m)
  else
    let m := if inThermal h then m else wake 6 m
    let ready := blocksUp m || inThermal h
    onConn (fun c => { c with header := some h, posted := if ready then some (readBytes fe h m) else none }) m

def execSidebandHeader (header : BitVec 32) (s : State) : Res := .next (onMod (sidebandHeader s.fe header) s)

/-- R568, R569: a private read of `n` bytes. -/
def sidebandRead (fe : FrontEnd) (n : Nat) (m : Mod) : Mod :=
  if pinsHeld m then send .sideNack m
  else
    match m.conn.header with
    | none => send (.sideData (List.replicate n 0)) m
    | some h =>
      let answer (l : List Byte) : List Byte := (l ++ List.replicate n 0xFF).take n
      match m.conn.posted with
      | some l => send (.sideData (answer l)) m
      | none =>
        if blocksUp m then
          let l := readBytes fe h m
          send (.sideData (answer l)) (onConn (fun c => { c with posted := some l }) m)
        else send .sideNack m

def execSidebandRead (n : Nat) (s : State) : Res := .next (onMod (sidebandRead s.fe n) s)

/-- R550, R551: a read of SLOTRD_DATA through a port. -/
def slotDataRead (p : Port) (m : Mod) : Mod :=
  if portTalks m p && (m.ports.get p).d3hot then send (.unsupportedReq p) (wake (msgCode p) (touch m))
  else portAccess p (fun m => { send (.regData p 8 (slotRdData m)) m with slotSet := (slotRdSet m).elim 0 (·.setId) }) m

/-- R550, R551: a read of SLOTRD_DATA. Over the sideband it is a header and a private read of 8 B: the block reads zero there, and
nothing is loaded (R542). -/
def execSlotrdDataRead (src : Source) (s : State) : Res :=
  .next (onMod (fun m => match src.port with
    | some p => slotDataRead p m
    | none => sidebandRead s.fe 8 (sidebandHeader s.fe 0x04040208#32 m)) s)

/-! ### Common command codes (R565, R566) -/

/-- A command code that the target answers; one that is addressed to it is a wake cause (R493). -/
def ccc (addressed : Bool) (f : Mod → Mod) (m : Mod) : Mod :=
  if pinsHeld m then m else f (if addressed then wake 6 m else m)

/-- The provisional ID (R565): device code in its part field, ADDR_SEL in its instance field. -/
def provisionalId (m : Mod) : Nat := Config.mipiMfr % 2 ^ 15 * 2 ^ 33 + 0x2048 * 2 ^ 16 + m.conn.addrSel.toNat * 2 ^ 12

/-- The static address (R566). -/
def staticAddr (m : Mod) : BitVec 7 := 0x60 + m.conn.addrSel.setWidth 7

/-- A dynamic address is assigned. -/
def assignDa (a : BitVec 7) (m : Mod) : Mod := onConn (fun c => { c with da := a, daValid := true }) m

/-- R566: ENTDAA assigns an address to a target that has none, after it has sent its identification. -/
def entdaa (a : BitVec 7) (m : Mod) : Mod :=
  if m.conn.daValid then m
  else assignDa a (send (.i3c (provisionalId m * 2 ^ 16 + Config.bcr % 256 * 256 + Config.dcr % 256)) m)

def execEntdaa (addr : BitVec 7) (s : State) : Res := modStep (ccc false (entdaa addr)) s

/-- R566: SETDASA reaches the target at its static address, while it answers there. -/
def setdasa (static addr : BitVec 7) (m : Mod) : Mod :=
  if static == staticAddr m && !m.conn.daValid then ccc true (assignDa addr) m else m

def execSetdasa (static addr : BitVec 7) (s : State) : Res := modStep (setdasa static addr) s

/-- R566: SETNEWDA changes the dynamic address of a target that has one. -/
def setnewda (addr : BitVec 7) (m : Mod) : Mod := if m.conn.daValid then ccc true (assignDa addr) m else m

def execSetnewda (addr : BitVec 7) (s : State) : Res := modStep (setnewda addr) s

/-- R566: RSTDAA. -/
def execRstdaa (s : State) : Res := modStep (ccc false (onConn (fun c => { c with da := 0, daValid := false }))) s

def execGetpid (s : State) : Res := modStep (ccc true (fun m => send (.i3c (provisionalId m)) m)) s

def execGetbcr (s : State) : Res := modStep (ccc true (send (.i3c Config.bcr))) s

def execGetdcr (s : State) : Res := modStep (ccc true (send (.i3c Config.dcr))) s

def execGetstatus (s : State) : Res := modStep (ccc true (send (.i3c Config.i3cStatus))) s

def execGetmwl (s : State) : Res := modStep (ccc true (send (.i3c Config.mwl))) s

def execGetmrl (s : State) : Res := modStep (ccc true (send (.i3c Config.mrl))) s

/-! ### JTAG (R560, R570) -/

/-- The TAP takes instructions: TRST_N is not asserted, and the die's pins have power (R560). -/
def tapUp (m : Mod) : Bool := !m.conn.tapReset && m.power.state != 3

/-- A TAP instruction comes into force. -/
def tapIr (code : BitVec 8) (m : Mod) : Mod := onConn (fun c => { c with ir := code }) m

/-- The IDCODE register (R570). -/
def idcode : Nat := 1 + Config.jep106.toNat * 2 + 0x2048 * 2 ^ 12 + Config.stepLtr.toNat * 2 ^ 28

def execIdcode (s : State) : Res := modStep (fun m => if tapUp m then send (.tdo idcode) (tapIr 1 m) else m) s

/-- The covered contacts as the boundary register captures them, in the order of R570 from bit 0 upward: PERST_N_A, PERST_N_B and
ALERT_N are known, and the levels of the others are the board's (log entry 33). -/
def pinsNow (m : Mod) : BitVec 12 :=
  putBits (Config.pinCapture m.free) 0 (BitVec.ofNat 3 (flag (!m.ports.a.inReset) + 2 * flag (!m.ports.b.inReset) + 4 * flag (!alertN m)))

/-- R570: SAMPLE captures the pins, and PRELOAD loads the register. -/
def samplePreload (load : Option (BitVec 12)) (m : Mod) : Mod :=
  if !tapUp m then m
  else
    let m := tapIr 2 m
    match load with
    | some v => onConn (fun c => { c with boundary := v }) m
    | none =>
      let v := pinsNow m
      let m := { onConn (fun c => { c with boundary := v }) m with free := m.free + 1 }
      send (.tdo v.toNat) m

def execSamplePreload (load : Option (BitVec 12)) (s : State) : Res := modStep (samplePreload load) s

/-- R570: EXTEST: the covered outputs follow the boundary register. -/
def execExtest (s : State) : Res := modStep (fun m => if tapUp m then send (.pins m.conn.boundary.toNat) (tapIr 3 m) else m) s

/-- The instruction that a code selects (R570): any code outside the table is BYPASS, unless the running boot image enables debug. -/
def tapCode (debug : Bool) (code : BitVec 8) : BitVec 8 := if code == 1 || code == 2 || code == 3 || debug then code else 0xFF

def execBypass (code : BitVec 8) (s : State) : Res := modStep (fun m => if tapUp m then tapIr (tapCode m.proc.debug code) m else m) s

/-- R560: TRST_N holds the TAP in reset, where IDCODE is selected. -/
def execTrstN (asserted : Bool) (s : State) : Res :=
  modStep (onConn (fun c => { c with tapReset := asserted, ir := if asserted then 1 else c.ir })) s

end Sys2Proof.Machine
end

