-- ==== Sys2Proof/Machine/HostCfg.lean ====
section
/-! DEFINITION. Machine/HostCfg.lean: the HDM decoder, the configuration space, reads of the BARs and the Primary Mailbox of a host port
(R154, R159, R178 to R182). -/
namespace Sys2Proof.Machine

/-! ### HDM decoder (R159) -/

/-- R159: the host commits the HDM decoder, whose registers lie behind BAR2. -/
def execHdmDecoderCommit (port : Port) (base size ways : Nat) (lock : Bool) (s : State) : Res :=
  modStep (portAccess port (fun m =>
    if (m.ports.get port).hdmCommitted && (m.ports.get port).hdmLock then m
    else
      let ok := size == 2 ^ 53 && base % 2 ^ 53 == 0 && ways == 1
      onPort port (fun q => { q with hdmCommitted := ok, hdmError := !ok, hdmBase := base, hdmLock := ok && lock }) m)) s

/-! ### Configuration structures (R154, R179, R181) -/

/-- The size of a BAR (R179). -/
def barBytes (b : Bar) : Nat :=
  match b with
  | .bar0 => 64 * 2 ^ 20
  | .bar2 => 128 * 2 ^ 10
  | .bar4 => 64 * 2 ^ 10

/-- The DVSEC for CXL Devices (R178, R179): Cache, Mem, Viral and CXL Reset Capable, not Mem Clr Capable; one HDM; 4 s. -/
def cxlDvsec (q : PortSt) : CfgAnswer := .cxlDvsec true true true true false 1 4 q.cacheEnable q.memEnable q.memActive

/-- *Configuration structures* (R179), as a read finds them. -/
def cfgItem (m : Mod) (p : Port) (i : CfgItem) : CfgAnswer :=
  let q := m.ports.get p
  match i with
  | .deviceVendor => .dword (BitVec.ofNat 32 (Config.vendorId.toNat + 0x2048 * 2 ^ 16))
  | .classRevision => .dword (BitVec.ofNat 32 (Config.stepLtr.toNat * 2 ^ 4 + Config.stepNum.toNat + 0x058000 * 2 ^ 8))
  | .bar b => .bar (barBytes b) true false
  | .powerManagement => .power q.d3hot
  | .msix => .msix 1024 0x0000 0x8000
  | .aer => .aer (q.aer.contains .poisonedTlp) (q.aer.contains .surpriseDown)
  | .serialNumber => .serial Config.moduleId
  | .doeDiscovery => .doe true
  | .cdat => .cdat 0 (2 ^ 53) (cdatLatency m.proc.cdat) 128 128
  | .cxlDvsec => cxlDvsec q
  | .gpfDvsec => .gpf 0 0
  | .flexBusDvsec => .flexBus true true true false true true
  | .registerLocator => .locator 0x0_0000 0x1_0000
  | .cxlRas => .ras (q.ras.contains .memPoison) (q.ras.contains .cachePoison) (q.ras.contains .viral) (q.ras.contains .cacheProtocol)
  | .hdmDecoder => .hdm 1 q.hdmBase (if q.hdmCommitted then 2 ^ 53 else 0) 1 q.hdmCommitted q.hdmError q.hdmLock
  | .endpoint => .perStandard
  | .linkCap _ => .perStandard
  | .cxlLink => .perStandard
  | .biDecoder => .perStandard
  | .deviceStatus => .perStandard
  | .memDeviceStatus => .perStandard
  | .unlisted _ => .absent

/-! ### Reads of the BARs (R179, R182) -/

/-- An 8 B word of the MSI-X table: message address, or message data with the mask bit; a dword follows R335's reset, masked. -/
def tableWord (q : PortSt) (off : Nat) : Word64 :=
  let e := tabGet (0, 0) q.msixTab (off / 16)
  if off % 16 < 8 then e.1 else packBits [(0, e.2.toNat), (32, if q.msixOn.contains (off / 16) then 0 else 1)]

/-- An 8 B word of the PBA: the pending bits of 64 vectors. -/
def pbaWord (q : PortSt) (off : Nat) : Word64 :=
  packBits ((List.range 64).map (fun i => (i, if q.msixPend.contains (off * 8 + i) then 1 else 0)))

/-- The 8 B word of BAR4 at an aligned offset: the table from 0x0000, the PBA of 1,024 bits from 0x8000. -/
def bar4Word (q : PortSt) (off : Nat) : Word64 :=
  if off < 0x4000 then tableWord q off else if 0x8000 ≤ off ∧ off < 0x8080 then pbaWord q (off - 0x8000) else 0

/-- The bytes that a read of 4 or 8 B takes from an aligned word. -/
def readPart (w : Word64) (off size : Nat) : Word64 :=
  if size = 8 then w else if off % 8 = 0 then (bitsOf w 0 32).setWidth 64 else (bitsOf w 32 32).setWidth 64

/-- What a read of a BAR gives (R542). -/
def barValue (fe : FrontEnd) (m : Mod) (p : Port) (bar : Bar) (off size : Nat) : Word64 :=
  match bar with
  | .bar0 => regRead fe m (if p == .a then .portA else .portB) off size
  | .bar2 => readPart (Config.bar2Reg (off / 8 * 8) m.free) off size
  | .bar4 => readPart (bar4Word (m.ports.get p) (off / 8 * 8)) off size

/-- R182: a read of a BAR: naturally aligned, 4 or 8 B, and not in D3hot; any other completes with Unsupported Request. A read of
SLOTRD_DATA has the effect of its own row. -/
def barRead (fe : FrontEnd) (p : Port) (bar : Bar) (off size : Nat) (m : Mod) : Mod :=
  if (m.ports.get p).d3hot || !(size == 4 || size == 8) || off % size != 0 || barBytes bar ≤ off then send (.unsupportedReq p) m
  else
    let m' := send (.regData p size (barValue fe m p bar off size)) m
    match bar with
    | .bar0 => if off / 8 = 0x40208 / 8 then { m' with slotSet := (slotRdSet m).elim 0 (·.setId) } else m'
    | .bar2 => { m' with free := m'.free + 1 }
    | .bar4 => m'

/-! ### Configuration requests (R154, R178) -/

/-- The lanes in which a port receives. -/
def laneRuns (q : PortSt) (l : Nat) : Bool :=
  match q.width with
  | .x16 => true
  | .x8lo => l < 8
  | .x8hi => 8 ≤ l

/-- What a port answers once boot code has finished. -/
def answerCfg (fe : FrontEnd) (p : Port) (req : CfgReq) (m : Mod) : Mod :=
  match req with
  | .read i => send (.cfgItem p (cfgItem m p i)) m
  | .setMemEnable on => send (.cfgDone p) (onPort p (fun q => { q with memEnable := on }) m)
  | .setCacheEnable on =>
    let m := send (.cfgDone p) (onPort p (fun q => { q with cacheEnable := on }) m)
    fetchPump (pumpD2h (m.ports.get p).d2hWait.length p m)
  | .setPowerState d3 => send (.cfgDone p) (onPort p (fun q => { q with d3hot := d3 }) m)
  | .clearAer => send (.cfgDone p) (onPort p (fun q => { q with aer := [] }) m)
  | .clearRas => send (.cfgDone p) (onPort p (fun q => { q with ras := [] }) m)
  | .margin lane _ _ errors =>
    send (.margin p lane.val (if laneRuns (m.ports.get p) lane.val then errors else 0)) m
  | .barRead bar off size => barRead fe p bar off size m
  | .other => send (.cfgDone p) m

/-- R178: a configuration request; Retry Status until boot code has finished, and until phase 3 of an exit from Deep sleep
ends (R492). -/
def configRequest (fe : FrontEnd) (p : Port) (req : CfgReq) (m : Mod) : Mod :=
  if !portTalks m p then m
  else
    let m := wake (msgCode p) (touch m)
    if !m.proc.bootDone || (m.power.state == 5 && m.power.last == 3 && m.power.phase ≤ 3) then send (.cfgRetry p) m
    else answerCfg fe p req m

def execConfigRequest (port : Port) (req : CfgReq) (s : State) : Res := modStep (configRequest s.fe port req) s

/-! ### The Primary Mailbox (R180) -/

/-- A mailbox command of a port; the mailbox lies behind BAR2, so it takes none in D3hot (R182). -/
def mailbox (p : Port) (answer : Mod → Mod) (s : State) : Res :=
  modStep (portAccess p (fun m => if m.proc.bootDone then answer m else m)) s

def execIdentifyMemoryDevice (port : Port) (s : State) : Res := mailbox port (send (.mboxData port 0x4000 Config.mboxIdentify)) s

def execGetSupportedLogs (port : Port) (s : State) : Res := mailbox port (send (.mboxData port 0x0400 Config.mboxLogs)) s

/-- R180: only the Command Effects Log; the answer to another log is Unsupported (DESIGN CHOICE, log entry 124). -/
def execGetLog (port : Port) (cel : Bool) (s : State) : Res :=
  mailbox port (send (if cel then .mboxData port 0x0401 Config.mboxCel else .mboxUnsupported port)) s

/-- The timestamp of a port: 0 until it is set. -/
def timestamp (m : Mod) (p : Port) : Nat :=
  let q := m.ports.get p
  if q.tsBase = 0 ∧ q.tsAt = 0 then 0 else (q.tsBase + (m.tb.now - q.tsAt)) % 2 ^ 64

def execGetTimestamp (port : Port) (s : State) : Res := mailbox port (fun m => send (.mboxData port 0x0300 (timestamp m port)) m) s

def execSetTimestamp (port : Port) (value : Word64) (s : State) : Res :=
  mailbox port (fun m => send (.mboxData port 0x0301 0) (onPort port (fun q => { q with tsBase := value.toNat, tsAt := m.tb.now }) m)) s

/-- R180: every other opcode. -/
def execMailboxUnsupported (port : Port) (opcode : BitVec 16) (s : State) : Res :=
  mailbox port (fun m =>
    if [0x4000#16, 0x0400, 0x0401, 0x0300, 0x0301].contains opcode then m else send (.mboxUnsupported port) m) s

end Sys2Proof.Machine
end

