-- ==== Sys2Proof/Machine/ImageCmds.lean ====
section
/-! DEFINITION. Machine/ImageCmds.lean: loading and activating an image set (R126, R129) and the channel test (R60 to R64). -/
namespace Sys2Proof.Machine

/-- R126: IMAGE_LOAD. Checks 0x0D and 0x0E come before the staging store is touched; a buffer that fails R164 gives 0xE1 (log
entry 20). -/
def execImageLoad (h : AdminHdr) (w : BitVec 64) (len : Nat) (s : State) : Res :=
  modStep (admin h 0x0105 true (fun c m =>
    if m.sched.load.isSome || activating m then done c 0x0D m
    else if !m.sched.runtimeLoad then done c 0x0E m
    else if !bufOk m h.port w len then done c 0xE1 m
    else
      let (ids, m) := readRange (adminBy m h.port) w len m
      { m with sched := { m.sched with load := some (c, w.toNat, len), loadIds := ids, staged := none } })) s

/-- R126: the set has been read, and the checks end the load; while a read is open it goes on. The RESULT of a failing check has the variant index in byte 0,
the tile in byte 1 and the slot number in bytes 2 and 3: R126 names the three and gives no layout (DESIGN CHOICE, log entry
103). -/
def execImageLoadEnd (tag : BitVec 64) (s : State) : Res :=
  modStep (fun m =>
    match m.sched.load with
    | none => m
    | some (c, w, len) =>
      if c.tag ≠ tag || !answered m m.sched.loadIds then m
      else
        let (src, m) := sourceBytes m.sched.loadIds (BitVec.ofNat 64 w) len m
        let m := { m with sched := { m.sched with load := none, loadIds := [] } }
        match src with
        | none => done c 0xE1 m
        | some l => match loadChecks (trainedRegs m) l len with
          | none => done c 0x00 { m with sched := { m.sched with staged := some (parseImage l) } }
          | some f => complete c f.code 0 (BitVec.ofNat 96 (f.variant + f.tile * 2 ^ 8 + f.slot * 2 ^ 16)) m) s

/-- R129: IMAGE_ACTIVATE. -/
def execImageActivate (h : AdminHdr) (setId : Word64) (s : State) : Res :=
  modStep (admin h 0x0106 true (fun c m =>
    if m.prot.reload.isSome || m.prot.stop.isSome then done c 0x22 m
    else if (m.sched.staged.elim true (fun i => i.setId != setId)) then done c 0x21 m
    else
      let on := { m with sched := { m.sched with activators := m.sched.activators ++ [c] } }
      if activating m then on else commitSwap true on)) s

/-! ### Channel test -/

/-- Pack and position of channel `k` of a tile. -/
def chanPack (t : Tile) (k : Nat) : Pack := ⟨2 * t.val + (if k < 9 then 0 else 1), by split <;> omega⟩
def chanPos (k : Nat) : Nat := k % 9

/-- Whether a channel may be tested (R60): the pack has no mark but, at most, the channel's own. -/
def testable (m : Mod) (t : Tile) (k : Nat) : Bool :=
  let p : PackSt := m.packs[chanPack t k]
  p.dieMarks.isEmpty && p.chMarks.all (· == chanPos k)

/-- Whether a channel carries its own mark. -/
def ownMark (m : Mod) (t : Tile) (k : Nat) : Bool := (m.packs[chanPack t k] : PackSt).chMarks.contains (chanPos k)

/-- The result record of a channel (R63). -/
def chanLoc (t : Tile) (k : Nat) : Word32 := locChannel (chanPack t k).val (chanPos k)

/-- Go on to the next channel that may be tested; the others are skipped. -/
def nextChan (m : Mod) (t : Tile) : Nat → ChanTest → ChanTest
  | 0, c => c
  | n + 1, c =>
    if c.done < 18 ∧ testable m t c.done = false then
      nextChan m t n { c with done := c.done + 1, records := c.records ++ [(chanLoc t c.done, 2)] }
    else { c with links := 0, next := [], failing := false, marked := ownMark m t c.done }

/-- R64: CHAN_TEST. -/
def execChanTest (h : AdminHdr) (tile rows : Nat) (s : State) : Res :=
  modStep (admin h 0x0201 (tile < 4 && 1 ≤ rows && rows ≤ 64) (fun c m =>
    let t : Tile := Fin.ofNat 4 tile
    if h.rlen < 144 || !bufOk m h.port h.rbuf 144 then done c 0xE2 m
    else if (m.tests[t] : Option ChanTest).isSome then done c 0x12 m
    else
      let x : ChanTest := { cmd := c, rbuf := h.rbuf.toNat, rows := rows, done := 0, records := [], marked := false,
                            failing := false, links := 0, next := [] }
      { m with tests := m.tests.set t (some (nextChan m t 18 x)) })) s

/-- The records go to the result buffer, and the command completes (R63, R64). -/
def chanFinish (t : Tile) (x : ChanTest) (abandoned : Bool) (m : Mod) : Mod :=
  let m := { m with tests := m.tests.set t none }
  let bytes := (x.records.map (fun r => toBytes r.1 4 ++ [BitVec.ofNat 8 r.2, 0, 0, 0])).flatten
  let w := BitVec.ofNat 64 x.rbuf
  if !bufOk m x.cmd.port w bytes.length then done x.cmd 0xE2 m
  else
    let n := (x.records.filter (fun r => r.2 == 1)).length
    let code := if abandoned then 0x13 else if n = 0 then 0x00 else 0x11
    sendResult x.cmd code (if n = 0 || abandoned then 0 else BitVec.ofNat 96 n) w bytes m

/-- A test of a pack ends early: the batts under test get their values back (R61). -/
def restoreTests (pk : Pack) (m : Mod) : Mod :=
  (m.packs[pk] : PackSt).tests.foldl (fun m x => if x.step < 2 then m else writeBatt x.da x.data false m)
    (onPack pk (fun p => { p with tests := [] }) m)

/-- Clear a channel mark, in the health record too (R52, R63). -/
def clearMark (pk : Pack) (pos : Nat) (m : Mod) : Mod :=
  let m := onPack pk (fun p => { p with chMarks := p.chMarks.filter (· != pos) }) m
  { m with flash := { m.flash with chMarks := m.flash.chMarks.filter (· != (pk.val, pos)) } }

/-- R63: the channel in hand has had its link tests and its array test, or a real fault ends the test (R522). -/
def chanTestEnd (t : Tile) (m : Mod) : Mod :=
  match (m.tests[t] : Option ChanTest) with
  | none => m
  | some x =>
    if x.done ≥ 18 then chanFinish t x false m
    else
      let k := x.done
      let pk := chanPack t k
      if !testable m t k || (ownMark m t k && !x.marked) then chanFinish t x true (restoreTests pk m)
      else if x.links < linkSlots || !((List.range 64).all (fun b => x.rows * 64 ≤ tabGet 0 x.next b)) ||
          !(m.packs[pk] : PackSt).tests.isEmpty || (m.packs[pk] : PackSt).diag.isSome then m
      else
        let m := if x.failing then (if ownMark m t k then m else channelMark pk (chanPos k) 1 m) else clearMark pk (chanPos k) m
        let x := nextChan m t 18 { x with done := k + 1, records := x.records ++ [(chanLoc t k, if x.failing then 1 else 0)] }
        if x.done ≥ 18 then chanFinish t x false m else { m with tests := m.tests.set t (some x) }

def execChanTestEnd (tile : Tile) (s : State) : Res := modStep (chanTestEnd tile) s

end Sys2Proof.Machine
end

