-- ==== Sys2Proof/Machine/Dispatch.lean ====
section
/-! DEFINITION. Machine/Dispatch.lean: exec sends each command to its meaning, one arm for each constructor. -/
namespace Sys2Proof.Machine

/-- The effect of one command on everything but the queue of waiting commands. -/
def exec (i : Instr) (s : State) : Host.Outcome State Fault Refusal :=
  match i with
  | .vinRise uvSel insDly => Sys2Proof.Machine.execVinRise uvSel insDly s
  | .vinFall => Sys2Proof.Machine.execVinFall s
  | .inputWindowChange uv inside => Sys2Proof.Machine.execInputWindowChange uv inside s
  | .enInAssert => Sys2Proof.Machine.execEnInAssert s
  | .enInDeassert => Sys2Proof.Machine.execEnInDeassert s
  | .insertionDelayExpiry => Sys2Proof.Machine.execInsertionDelayExpiry s
  | .prechargeWindowFree => Sys2Proof.Machine.execPrechargeWindowFree s
  | .prechargeDone => Sys2Proof.Machine.execPrechargeDone s
  | .prechargeTimeout => Sys2Proof.Machine.execPrechargeTimeout s
  | .rampDone => Sys2Proof.Machine.execRampDone s
  | .powergood addrSel gangEn => Sys2Proof.Machine.execPowergood addrSel gangEn s
  | .outputWindowExit => Sys2Proof.Machine.execOutputWindowExit s
  | .currentLimitEnter => Sys2Proof.Machine.execCurrentLimitEnter s
  | .currentLimitExit => Sys2Proof.Machine.execCurrentLimitExit s
  | .faultTimerExpiry => Sys2Proof.Machine.execFaultTimerExpiry s
  | .shortCircuit => Sys2Proof.Machine.execShortCircuit s
  | .fetModelUpdate model => Sys2Proof.Machine.execFetModelUpdate model s
  | .latchClear => Sys2Proof.Machine.execLatchClear s
  | .removalHoldExpiry => Sys2Proof.Machine.execRemovalHoldExpiry s
  | .bootDone => Sys2Proof.Machine.execBootDone s
  | .fillEnd tile => Sys2Proof.Machine.execFillEnd tile s
  | .thermalHoldTick => Sys2Proof.Machine.execThermalHoldTick s
  | .oscillatorSwitch cmp => Sys2Proof.Machine.execOscillatorSwitch cmp s
  | .oscillatorWarning ppm => Sys2Proof.Machine.execOscillatorWarning ppm s
  | .oscillatorLost => Sys2Proof.Machine.execOscillatorLost s
  | .islandDownResponse island => Sys2Proof.Machine.execIslandDownResponse island s
  | .frameBoundary => Sys2Proof.Machine.execFrameBoundary s
  | .setPointGapEnd => Sys2Proof.Machine.execSetPointGapEnd s
  | .dispatchPoint pack slot ahead => Sys2Proof.Machine.execDispatchPoint pack slot ahead s
  | .slotMissed pack slot => Sys2Proof.Machine.execSlotMissed pack slot s
  | .dataPhaseEnd pack errs => Sys2Proof.Machine.execDataPhaseEnd pack errs s
  | .refreshSlot pack slot => Sys2Proof.Machine.execRefreshSlot pack slot s
  | .trainSlot pack slot fails => Sys2Proof.Machine.execTrainSlot pack slot fails s
  | .scrubSlot pack slot errs => Sys2Proof.Machine.execScrubSlot pack slot errs s
  | .dieMark pack rank pos => Sys2Proof.Machine.execDieMark pack rank pos s
  | .diagnosisVerdict pack => Sys2Proof.Machine.execDiagnosisVerdict pack s
  | .chanTest h tile rows => Sys2Proof.Machine.execChanTest h tile rows s
  | .chanTestEnd tile => Sys2Proof.Machine.execChanTestEnd tile s
  | .missedSlotClear src pack => Sys2Proof.Machine.execMissedSlotClear src pack s
  | .imageLoad h w len => Sys2Proof.Machine.execImageLoad h w len s
  | .imageActivate h setId => Sys2Proof.Machine.execImageActivate h setId s
  | .memRd r => Sys2Proof.Machine.execMemRd r s
  | .memRdData r => Sys2Proof.Machine.execMemRdData r s
  | .memInv r => Sys2Proof.Machine.execMemInv r s
  | .memInvNt r => Sys2Proof.Machine.execMemInvNt r s
  | .memSpecRd r => Sys2Proof.Machine.execMemSpecRd r s
  | .memWr r => Sys2Proof.Machine.execMemWr r s
  | .memWrPtl r => Sys2Proof.Machine.execMemWrPtl r s
  | .m2sOpcodeUnsupported x opcode => Sys2Proof.Machine.execM2sOpcodeUnsupported x opcode s
  | .biRspI port tag => Sys2Proof.Machine.execBiRspI port tag s
  | .biRspS port tag => Sys2Proof.Machine.execBiRspS port tag s
  | .biRspE port tag => Sys2Proof.Machine.execBiRspE port tag s
  | .biConflict port tag w => Sys2Proof.Machine.execBiConflict port tag w s
  | .receiveBufferRelease port label write => Sys2Proof.Machine.execReceiveBufferRelease port label write s
  | .snpInv port addr => Sys2Proof.Machine.execSnpInv port addr s
  | .snpData port addr => Sys2Proof.Machine.execSnpData port addr s
  | .snpCur port addr => Sys2Proof.Machine.execSnpCur port addr s
  | .rdSharedData port addr data poison => Sys2Proof.Machine.execRdSharedData port addr data poison s
  | .rdCurrData port addr data poison => Sys2Proof.Machine.execRdCurrData port addr data poison s
  | .goWritePull port addr => Sys2Proof.Machine.execGoWritePull port addr s
  | .go port addr => Sys2Proof.Machine.execGo port addr s
  | .linkUp port rate width lopt => Sys2Proof.Machine.execLinkUp port rate width lopt s
  | .linkDown port => Sys2Proof.Machine.execLinkDown port s
  | .l0pRequest port width => Sys2Proof.Machine.execL0pRequest port width s
  | .l0pFail port width => Sys2Proof.Machine.execL0pFail port width s
  | .viralReceived port => Sys2Proof.Machine.execViralReceived port s
  | .fundamentalReset port => Sys2Proof.Machine.execFundamentalReset port s
  | .perstDeassert port => Sys2Proof.Machine.execPerstDeassert port s
  | .hotReset port => Sys2Proof.Machine.execHotReset port s
  | .cxlReset port => Sys2Proof.Machine.execCxlReset port s
  | .presenceSweepEnd port => Sys2Proof.Machine.execPresenceSweepEnd port s
  | .hdmDecoderCommit port base size ways lock => Sys2Proof.Machine.execHdmDecoderCommit port base size ways lock s
  | .configRequest port req => Sys2Proof.Machine.execConfigRequest port req s
  | .identifyMemoryDevice port => Sys2Proof.Machine.execIdentifyMemoryDevice port s
  | .getSupportedLogs port => Sys2Proof.Machine.execGetSupportedLogs port s
  | .getLog port cel => Sys2Proof.Machine.execGetLog port cel s
  | .getTimestamp port => Sys2Proof.Machine.execGetTimestamp port s
  | .setTimestamp port value => Sys2Proof.Machine.execSetTimestamp port value s
  | .mailboxUnsupported port opcode => Sys2Proof.Machine.execMailboxUnsupported port opcode s
  | .fillDecompressDone tile addr bad1 bad2 => Sys2Proof.Machine.execFillDecompressDone tile addr bad1 bad2 s
  | .slicePatrol tile found => Sys2Proof.Machine.execSlicePatrol tile found s
  | .wayDisable tile way tagErr => Sys2Proof.Machine.execWayDisable tile way tagErr s
  | .wayDrainEnd tile => Sys2Proof.Machine.execWayDrainEnd tile s
  | .invalidationSweepEnd => Sys2Proof.Machine.execInvalidationSweepEnd s
  | .flushEnd => Sys2Proof.Machine.execFlushEnd s
  | .cacheLockPrepare h tile n => Sys2Proof.Machine.execCacheLockPrepare h tile n s
  | .cachePreload h tile w len => Sys2Proof.Machine.execCachePreload h tile w len s
  | .cacheLock h tile => Sys2Proof.Machine.execCacheLock h tile s
  | .cacheUnlock h tile => Sys2Proof.Machine.execCacheUnlock h tile s
  | .wayTest h tile way => Sys2Proof.Machine.execWayTest h tile way s
  | .wayTestEnd tile pass => Sys2Proof.Machine.execWayTestEnd tile pass s
  | .tagRead h tile set way => Sys2Proof.Machine.execTagRead h tile set way s
  | .filterTest h tile => Sys2Proof.Machine.execFilterTest h tile s
  | .filterRead h tile set way => Sys2Proof.Machine.execFilterRead h tile set way s
  | .filterDrainEnd tile => Sys2Proof.Machine.execFilterDrainEnd tile s
  | .filterMarchEnd tile failP failS => Sys2Proof.Machine.execFilterMarchEnd tile failP failS s
  | .filterSweepEnd tile => Sys2Proof.Machine.execFilterSweepEnd tile s
  | .resealEnd tile => Sys2Proof.Machine.execResealEnd tile s
  | .keyLoad h id wrapped => Sys2Proof.Machine.execKeyLoad h id wrapped s
  | .keyRetire h id => Sys2Proof.Machine.execKeyRetire h id s
  | .keyRetirementDone => Sys2Proof.Machine.execKeyRetirementDone s
  | .keyZero h id => Sys2Proof.Machine.execKeyZero h id s
  | .zeroFillSweepEnd => Sys2Proof.Machine.execZeroFillSweepEnd s
  | .protReload h block => Sys2Proof.Machine.execProtReload h block s
  | .protReloadPhaseEnd => Sys2Proof.Machine.execProtReloadPhaseEnd s
  | .tierSweep tile => Sys2Proof.Machine.execTierSweep tile s
  | .tierMoveEnd tile x => Sys2Proof.Machine.execTierMoveEnd tile x s
  | .tierSet h tile param value => Sys2Proof.Machine.execTierSet h tile param value s
  | .elasticTrim h w len => Sys2Proof.Machine.execElasticTrim h w len s
  | .tierBypass h tile => Sys2Proof.Machine.execTierBypass h tile s
  | .tierResume h tile => Sys2Proof.Machine.execTierResume h tile s
  | .fullerOut h fuller => Sys2Proof.Machine.execFullerOut h fuller s
  | .fullerIn h fuller => Sys2Proof.Machine.execFullerIn h fuller s
  | .fullerTest h fuller => Sys2Proof.Machine.execFullerTest h fuller s
  | .jobDescriptor port => Sys2Proof.Machine.execJobDescriptor port s
  | .jobComplete tile unit bad1 bad2 => Sys2Proof.Machine.execJobComplete tile unit bad1 bad2 s
  | .ringEnable src q r value => Sys2Proof.Machine.execRingEnable src q r value s
  | .ringDisable src q r value => Sys2Proof.Machine.execRingDisable src q r value s
  | .doorbellPoll port => Sys2Proof.Machine.execDoorbellPoll port s
  | .shadowWriteTimer port r => Sys2Proof.Machine.execShadowWriteTimer port r s
  | .fetchWindow => Sys2Proof.Machine.execFetchWindow s
  | .modTimeExpiry port r => Sys2Proof.Machine.execModTimeExpiry port r s
  | .grantPost pool => Sys2Proof.Machine.execGrantPost pool s
  | .enqueue port => Sys2Proof.Machine.execEnqueue port s
  | .cellWriteResume tile => Sys2Proof.Machine.execCellWriteResume tile s
  | .selection => Sys2Proof.Machine.execSelection s
  | .release port => Sys2Proof.Machine.execRelease port s
  | .grantHoldSweep pool => Sys2Proof.Machine.execGrantHoldSweep pool s
  | .releaseHoldSweep pool => Sys2Proof.Machine.execReleaseHoldSweep pool s
  | .poolSet h pool w => Sys2Proof.Machine.execPoolSet h pool w s
  | .poolRead h pool => Sys2Proof.Machine.execPoolRead h pool s
  | .runRead h run => Sys2Proof.Machine.execRunRead h run s
  | .queueSet h queue w => Sys2Proof.Machine.execQueueSet h queue w s
  | .queueRead h queue => Sys2Proof.Machine.execQueueRead h queue s
  | .queueReset h queue => Sys2Proof.Machine.execQueueReset h queue s
  | .replSet h list w => Sys2Proof.Machine.execReplSet h list w s
  | .eportSet h eport w => Sys2Proof.Machine.execEportSet h eport w s
  | .creditEntry port => Sys2Proof.Machine.execCreditEntry port s
  | .wheelBucketEnd => Sys2Proof.Machine.execWheelBucketEnd s
  | .coarseWheelPeriod => Sys2Proof.Machine.execCoarseWheelPeriod s
  | .schedCommit h table first count => Sys2Proof.Machine.execSchedCommit h table first count s
  | .schedRead h table entry => Sys2Proof.Machine.execSchedRead h table entry s
  | .cpoolSet h pool w => Sys2Proof.Machine.execCpoolSet h pool w s
  | .poolEntryFree pool => Sys2Proof.Machine.execPoolEntryFree pool s
  | .gangTrainingTimeout => Sys2Proof.Machine.execGangTrainingTimeout s
  | .gangTrainingRetry => Sys2Proof.Machine.execGangTrainingRetry s
  | .hello f m => Sys2Proof.Machine.execHello f m s
  | .flitDiscard flit => Sys2Proof.Machine.execFlitDiscard flit s
  | .idle f => Sys2Proof.Machine.execIdle f s
  | .replayMarker f start => Sys2Proof.Machine.execReplayMarker f start s
  | .mwr f m data => Sys2Proof.Machine.execMwr f m data s
  | .mwrp f m data en => Sys2Proof.Machine.execMwrp f m data en s
  | .rsd f m data => Sys2Proof.Machine.execRsd f m data s
  | .zpg f m => Sys2Proof.Machine.execZpg f m s
  | .rdig f gran digests => Sys2Proof.Machine.execRdig f gran digests s
  | .mack f tag status => Sys2Proof.Machine.execMack f tag status s
  | .rack f gran differed => Sys2Proof.Machine.execRack f gran differed s
  | .suspend f => Sys2Proof.Machine.execSuspend f s
  | .resume f => Sys2Proof.Machine.execResume f s
  | .stop f => Sys2Proof.Machine.execStop f s
  | .change f width rate => Sys2Proof.Machine.execChange f width rate s
  | .resyncDone f => Sys2Proof.Machine.execResyncDone f s
  | .ackTimer => Sys2Proof.Machine.execAckTimer s
  | .replayTimer => Sys2Proof.Machine.execReplayTimer s
  | .barkPeriod => Sys2Proof.Machine.execBarkPeriod s
  | .barkTimeout => Sys2Proof.Machine.execBarkTimeout s
  | .laneLoss lanes => Sys2Proof.Machine.execLaneLoss lanes s
  | .linkLogicFault buffer => Sys2Proof.Machine.execLinkLogicFault buffer s
  | .changeComplete => Sys2Proof.Machine.execChangeComplete s
  | .changeTimeout => Sys2Proof.Machine.execChangeTimeout s
  | .errorFreeTimer => Sys2Proof.Machine.execErrorFreeTimer s
  | .gangSource h peer here => Sys2Proof.Machine.execGangSource h peer here s
  | .gangLaneTest h hi ms => Sys2Proof.Machine.execGangLaneTest h hi ms s
  | .gangLaneTestEnd fails => Sys2Proof.Machine.execGangLaneTestEnd fails s
  | .hkRoundEnd readings vin iin => Sys2Proof.Machine.execHkRoundEnd readings vin iin s
  | .graceExpiry req => Sys2Proof.Machine.execGraceExpiry req s
  | .throttleStepDown => Sys2Proof.Machine.execThrottleStepDown s
  | .sensorTest h chan => Sys2Proof.Machine.execSensorTest h chan s
  | .sensorTestEnd pass => Sys2Proof.Machine.execSensorTestEnd pass s
  | .idleEntry => Sys2Proof.Machine.execIdleEntry s
  | .idleWakeDone => Sys2Proof.Machine.execIdleWakeDone s
  | .sleep h => Sys2Proof.Machine.execSleep h s
  | .pmSleepRequest retain => Sys2Proof.Machine.execPmSleepRequest retain s
  | .pmDeepSleepRequest retain => Sys2Proof.Machine.execPmDeepSleepRequest retain s
  | .sleepEntryDone => Sys2Proof.Machine.execSleepEntryDone s
  | .deepSleepEntryDone => Sys2Proof.Machine.execDeepSleepEntryDone s
  | .sleepExitDone => Sys2Proof.Machine.execSleepExitDone s
  | .deepSleepExitPhaseEnd => Sys2Proof.Machine.execDeepSleepExitPhaseEnd s
  | .wakeN => Sys2Proof.Machine.execWakeN s
  | .sramTrap core1 => Sys2Proof.Machine.execSramTrap core1 s
  | .watchdogExpiry => Sys2Proof.Machine.execWatchdogExpiry s
  | .watchdogKick => Sys2Proof.Machine.execWatchdogKick s
  | .spSelfTestEnd pass => Sys2Proof.Machine.execSpSelfTestEnd pass s
  | .identify h => Sys2Proof.Machine.execIdentify h s
  | .healthRead h => Sys2Proof.Machine.execHealthRead h s
  | .eventCoalescedRead h => Sys2Proof.Machine.execEventCoalescedRead h s
  | .adminUnknownOpcode h opcode => Sys2Proof.Machine.execAdminUnknownOpcode h opcode s
  | .spTest h => Sys2Proof.Machine.execSpTest h s
  | .spTestEnd pass => Sys2Proof.Machine.execSpTestEnd pass s
  | .oscTest h osc => Sys2Proof.Machine.execOscTest h osc s
  | .oscTestEnd pass => Sys2Proof.Machine.execOscTestEnd pass s
  | .portLaneTest h port half ms => Sys2Proof.Machine.execPortLaneTest h port half ms s
  | .portLaneTestTick port fails => Sys2Proof.Machine.execPortLaneTestTick port fails s
  | .portLaneTestEnd port => Sys2Proof.Machine.execPortLaneTestEnd port s
  | .flashUpdate h bank w len => Sys2Proof.Machine.execFlashUpdate h bank w len s
  | .flashSelect h bank => Sys2Proof.Machine.execFlashSelect h bank s
  | .flashRead h offset len => Sys2Proof.Machine.execFlashRead h offset len s
  | .svnRaise h => Sys2Proof.Machine.execSvnRaise h s
  | .eventPost => Sys2Proof.Machine.execEventPost s
  | .perfOverflow page => Sys2Proof.Machine.execPerfOverflow page s
  | .perfSnapshot src page value => Sys2Proof.Machine.execPerfSnapshot src page value s
  | .perfCounterWrite src page ctr value => Sys2Proof.Machine.execPerfCounterWrite src page ctr value s
  | .perfSelWrite src page ctr value => Sys2Proof.Machine.execPerfSelWrite src page ctr value s
  | .bwWindowEnd half => Sys2Proof.Machine.execBwWindowEnd half s
  | .bwCfgWrite src half value => Sys2Proof.Machine.execBwCfgWrite src half value s
  | .slotrdDataRead src => Sys2Proof.Machine.execSlotrdDataRead src s
  | .registerWrite port bar offset size value => Sys2Proof.Machine.execRegisterWrite port bar offset size value s
  | .sidebandWrite header data => Sys2Proof.Machine.execSidebandWrite header data s
  | .sidebandHeader header => Sys2Proof.Machine.execSidebandHeader header s
  | .sidebandRead n => Sys2Proof.Machine.execSidebandRead n s
  | .entdaa addr => Sys2Proof.Machine.execEntdaa addr s
  | .setdasa static addr => Sys2Proof.Machine.execSetdasa static addr s
  | .setnewda addr => Sys2Proof.Machine.execSetnewda addr s
  | .rstdaa => Sys2Proof.Machine.execRstdaa s
  | .getpid => Sys2Proof.Machine.execGetpid s
  | .getbcr => Sys2Proof.Machine.execGetbcr s
  | .getdcr => Sys2Proof.Machine.execGetdcr s
  | .getstatus => Sys2Proof.Machine.execGetstatus s
  | .getmwl => Sys2Proof.Machine.execGetmwl s
  | .getmrl => Sys2Proof.Machine.execGetmrl s
  | .idcode => Sys2Proof.Machine.execIdcode s
  | .samplePreload load => Sys2Proof.Machine.execSamplePreload load s
  | .extest => Sys2Proof.Machine.execExtest s
  | .bypass code => Sys2Proof.Machine.execBypass code s
  | .trstN asserted => Sys2Proof.Machine.execTrstN asserted s
  | .bisnpCreditReturn port d2h n => Sys2Proof.Machine.execBisnpCreditReturn port d2h n s
  | .faultTimerZero => Sys2Proof.Machine.execFaultTimerZero s
  | .flashUpdateEnd result => Sys2Proof.Machine.execFlashUpdateEnd result s
  | .fullerTestEnd fuller failing => Sys2Proof.Machine.execFullerTestEnd fuller failing s
  | .imageLoadEnd tag => Sys2Proof.Machine.execImageLoadEnd tag s
  | .ganglineLinkUp width rate => Sys2Proof.Machine.execGanglineLinkUp width rate s

end Sys2Proof.Machine
end

