-- ==== Sys2Proof/Machine/Resume.lean ====
section
/-! DEFINITION. Machine/Resume.lean: work of the module's own engines goes on when what it waits for has come: admin commands
that wait for a buffer or for an earlier command of their object (R513, R585), jobs, tier moves, trims, key work
and the mirror engine; so does every request that waits in a slice. -/
namespace Sys2Proof.Machine

/-- Bytes of the source buffer that a waiting command reads. -/
def sourceLen : AdminWork → Nat
  | .poolSet _ _ | .cpoolSet _ _ => 64
  | .queueSet _ _ => 16
  | .replSet _ _ => 256
  | .eportSet _ _ => 4
  | .flashUpdate _ _ len => len
  | .poolRead _ _ | .queueRead _ _ | .queueReset _ | .schedCommit _ _ _ _ | .schedRead _ _ _ | .cpoolOff _ | .result _ _ _ _ _ | .posted _ _ _ => 0

/-- A set command whose buffer has been read runs. -/
def resumeSet (x : Parked) (w : Word64) (run : Option (List Byte) → Mod → Mod) (m : Mod) : Mod :=
  let y := sourceBytes x.ids w (sourceLen x.work) m
  run y.1 y.2

/-- A command that no longer waits runs. -/
def resumeWork (x : Parked) (m : Mod) : Mod :=
  let c := x.cmd
  match x.work with
  | .poolSet k w => resumeSet x w (poolSet c k) m
  | .poolRead k h => poolRead h c k m
  | .queueSet q w => resumeSet x w (queueSet c q) m
  | .queueRead q h => queueRead h c q m
  | .queueReset q => queueReset c q m
  | .replSet l w => resumeSet x w (replSet c l) m
  | .eportSet e w => resumeSet x w (eportSet c e) m
  | .cpoolSet k w => resumeSet x w (cpoolSet c k) m
  | .cpoolOff k => cpoolOff c k m
  | .flashUpdate b w _ => resumeSet x w (flashUpdate c b) m
  | .schedCommit t first count good => schedCommit c t first count good x.ids m
  | .schedRead t e h => schedRead h c t e m
  | .result code _ r w bytes => writeResult c code r w bytes x.ids m
  | .posted code rused r => postResult c code rused r x.ids m

/-- Whether a waiting command may run: its accesses are answered, and it is its object's turn. -/
def mayResume (m : Mod) (x : Parked) : Bool :=
  answered m x.ids && !((m.parked.takeWhile (· != x)).any (fun y =>
    (workObj x.work).1 ≤ 12 && y.cmd.port == x.cmd.port && workObj y.work == workObj x.work))

/-- A waiting command runs; one that must wait on keeps its place. -/
def resumeOne (x : Parked) (m : Mod) : Mod :=
  let before := m.parked.takeWhile (· != x)
  let after := m.parked.drop (before.length + 1)
  let m := resumeWork x { m with parked := [] }
  { m with parked := before ++ m.parked ++ after }

/-- Every waiting command that may run does, in ring order. -/
def parkedGo (m : Mod) : Mod :=
  m.parked.foldl (fun m x => if m.parked.contains x && mayResume m x then resumeOne x m else m) m

/-- What waits for nothing any more goes on; after a Critical shutdown only admin commands do (R465). -/
def enginesGo (m : Mod) : Mod :=
  if m.therm.critical then parkedGo m
  else
  let m := mirrorGo (jobsGo (parkedGo (keysGo m)))
  (List.finRange 4).foldl (fun m t => wakeTile t (trimSettle t (tierGo t m))) m

end Sys2Proof.Machine
end

