-- ==== Sys2Proof/Machine/Tick.lean ====
section
/-! DEFINITION. Machine/Tick.lean: what a step does when no command waits: 1 ns passes (log entry 9). Every other thing
that the module does at a moment of its own has a row of the table. -/
namespace Sys2Proof.Machine

/-- 1 ns passes. In a module with power (`on`) the counters count it (R532), the engines go on with what no longer waits, the ring
engines fetch what they may, and sideband writes that waited for an exit complete (R545). -/
def tick (on : Bool) (m : Mod) : Mod :=
  let m := { m with tb := { m.tb with now := m.tb.now + 1 } }
  if on then sideGo (fetchPump (enginesGo (perfTick m))) else m

end Sys2Proof.Machine
end

