-- ==== Sys2Proof/Safety.lean ====
section
/-! DEFINITION. Safety.lean: what counts as a safe run: no step ends in a fault or a refusal, and the DRAM image keeps
its canonical form. -/
namespace Sys2Proof.Safety

open Sys2Proof.Machine

/-- The step from `s` goes on. -/
def goesOn (s : State) : Prop := ∃ t, step s = .next t

/-- The DRAM image is in canonical form. -/
def memOk (s : State) : Prop := memWf s.m.mem = true

/-- `k` steps from `s` all go on. -/
def safeFor (k : Nat) (s : State) : Prop := ∃ t, Host.Core.run Sys2Proof.core k s = .next t

end Sys2Proof.Safety
end

