-- ==== Sys2Proof/Certificates/Slice0/Obligations.lean ====
section
/-! DEFINITION. Certificates/Slice0/Obligations.lean: the statements for the provers. A clause about a command says that exec
answers a next state and what that state is; `completes` adds that the front end and the queue are left as they are. -/

namespace Sys2Proof.Stmt

open Sys2Proof.Machine

/-- The command `c` completes at `s` with a module state as `P` says; the front end and the queue are left as they are. -/
def completes (c : Instr) (s : State) (P : Mod → Prop) : Prop := ∃ m', exec c s = .next { s with m := m' } ∧ P m'

end Sys2Proof.Stmt

section

open Sys2Proof Sys2Proof.Machine Sys2Proof.Stmt

/-! ### The queue of commands and the idle step -/

/-- A step takes the command at the front of the queue and runs exec on it, with the queue's rest (log entry 9). -/
def Obligations.StepRunsTheFrontCommand : Prop :=
  ∀ (c : Instr) (rest : List Instr) (s : State), step { s with pending := c :: rest } = exec c { s with pending := rest }

/-- On an empty queue a step passes 1 ns (the model's choice, log entry 9) and leaves the front end and the queue alone. Without power
only the clock moves. With power the work that waits goes on; after a Critical shutdown, with no command and no sideband write
waiting, that is none: but for the clock, the performance counters and the rings nothing changes then. -/
def Obligations.EmptyQueuePassesOneNanosecond : Prop :=
  (∀ s : State, s.pending = [] → ∃ m', step s = .next { s with m := m' }) ∧
  (∀ s : State, s.pending = [] → s.fe.powered = false →
    step s = .next { s with m := { s.m with tb := { s.m.tb with now := s.m.tb.now + 1 } } }) ∧
  (∀ s : State, s.pending = [] → s.fe.powered = true → s.m.therm.critical = true → s.m.parked = [] → s.m.conn.held = [] →
    ∃ m', step s = .next { s with m := m' } ∧ m'.tb = { s.m.tb with now := s.m.tb.now + 1 } ∧ m'.mem = s.m.mem ∧
      m'.packs = s.m.packs ∧ m'.wbuf = s.m.wbuf ∧ m'.filters = s.m.filters ∧ m'.prot = s.m.prot ∧
      m'.tiers = s.m.tiers ∧ m'.jobs = s.m.jobs ∧ m'.qs = s.m.qs ∧ m'.egress = s.m.egress ∧ m'.cpools = s.m.cpools ∧
      m'.gang = s.m.gang ∧ m'.sched = s.m.sched ∧ m'.flash.bank0 = s.m.flash.bank0 ∧ m'.flash.bank1 = s.m.flash.bank1)

/-- No command stops the block: each answers a next state from every state, and none touches the queue. -/
def Obligations.EveryCommandAnswersANextState : Prop :=
  ∀ (c : Instr) (s : State), ∃ t, exec c s = .next t ∧ t.pending = s.pending

/-! ### The power front end (*Power entry and hot insertion*) -/

/-- VIN rises through 3.0 V (R469, R473, R480): the straps are sampled, and the front end goes to QUALIFY, or to LATCHED when the
latch was kept. VIN falls below it: OFF, both switches open, and a kept latch stays. -/
def Sys2Proof.Stmt.VinRisesAndFalls : Prop :=
  (∀ (u i : BitVec 2) (s : State), s.fe.vin = false →
    exec (.vinRise u i) s = .next { s with fe := { s.fe with
      vin := true, uvOk := false, ovOk := true, uvSel := u, insDly := i, waiting := false,
      st := if s.fe.latch then .latched else .qualify } }) ∧
  (∀ s : State, ∃ f, exec .vinFall s = .next { s with fe := f } ∧ f.st = .off ∧ f.vin = false ∧ f.powered = false ∧
    (s.fe.latch = true → f.latch = true) ∧ f.uvSel = s.fe.uvSel ∧ f.insDly = s.fe.insDly ∧ f.starts = s.fe.starts)

/-- What a bounce leaves (R472, R479): QUALIFY with both switches open; a window exit takes the die's power, and the third
under limit within 10 s latches the front end with cause WINDOW. -/
def Sys2Proof.Stmt.afterBounce (s : State) (f : FrontEnd) : Prop :=
  match s.fe.st with
  | .precharge | .ramp => f.st = .qualify ∧ f.powered = s.fe.powered ∧ f.latch = s.fe.latch
  | .on | .powergood =>
    f.powered = false ∧ f.ftUp = false ∧
      if s.fe.ftUp = true ∧ 2 ≤ (s.fe.exits.filter (fun t => s.m.tb.now - t ≤ 10000000000)).length then
        f.st = .latched ∧ f.latch = true ∧ f.lastTrip = some .window
      else f.st = .qualify ∧ f.latch = s.fe.latch ∧ f.lastTrip = s.fe.lastTrip
  | _ => f.st = s.fe.st

/-- Start conditions (R471, R472, R479): the loss of the input window or of EN_IN is a bounce, which takes the front end back to
QUALIFY, or opens both switches as a window exit; a start condition that comes back changes nothing else. -/
def Sys2Proof.Stmt.StartConditionsComeAndGo : Prop :=
  (∀ (uv : Bool) (s : State), s.fe.vin = true → startOk s.fe = true →
    ∃ f, exec (.inputWindowChange uv false) s = .next { s with fe := f } ∧ startOk f = false ∧ afterBounce s f) ∧
  (∀ (uv : Bool) (s : State), s.fe.vin = true → startOk s.fe = false →
    exec (.inputWindowChange uv true) s = .next { s with fe :=
      if uv then { s.fe with uvOk := true } else { s.fe with ovOk := true } }) ∧
  (∀ s : State, startOk s.fe = true → ∃ f, exec .enInDeassert s = .next { s with fe := f } ∧ f.enIn = false ∧ afterBounce s f) ∧
  (∀ s : State, exec .enInAssert s = .next { s with fe := { s.fe with enIn := true } })

/-- VIN, the input window and EN_IN (R469, R471 to R473, R479): the straps are sampled as VIN rises; the loss of a
start condition is a bounce or a window exit. -/
def Obligations.StartConditionsAreSampledAndBounce : Prop :=
  VinRisesAndFalls ∧ StartConditionsComeAndGo

/-- The start sequence (R473, R476): the insertion delay ends in PRECHARGE while fewer than eight pre-charges have started within
10 s, and otherwise waits for the window; then RAMP, ON. -/
def Sys2Proof.Stmt.StartSequenceRuns : Prop :=
  (∀ s : State, s.fe.st = .qualify → startOk s.fe = true → s.fe.starts < 8 →
    exec .insertionDelayExpiry s = .next { s with fe := { s.fe with st := .precharge, starts := s.fe.starts + 1, waiting := false } }) ∧
  (∀ s : State, s.fe.st = .qualify → startOk s.fe = true → 8 ≤ s.fe.starts →
    exec .insertionDelayExpiry s = .next { s with fe := { s.fe with waiting := true } }) ∧
  (∀ s : State, s.fe.st = .qualify → startOk s.fe = true → s.fe.waiting = true → s.fe.starts = 8 →
    exec .prechargeWindowFree s = .next { s with fe := { s.fe with st := .precharge, waiting := false } }) ∧
  (∀ s : State, s.fe.st = .precharge → exec .prechargeDone s = .next { s with fe := { s.fe with st := .ramp } }) ∧
  (∀ s : State, s.fe.st = .ramp → exec .rampDone s = .next { s with fe := { s.fe with st := .on } })

/-- PG_OUT (R477, R13, R564): it asserts when no fault timer counts up. A die without power gets a module reset with the straps
sampled, whose flash stays; a die with power keeps its state. The output's leaving its window takes PG_OUT away. -/
def Sys2Proof.Stmt.PowerGoodAssertsAndFalls : Prop :=
  (∀ (a : BitVec 3) (g : Bool) (s : State), s.fe.st = .on → s.fe.ftUp = false → s.fe.powered = true →
    exec (.powergood a g) s = .next { s with fe := { s.fe with st := .powergood } }) ∧
  (∀ (a : BitVec 3) (g : Bool) (s : State), s.fe.st = .on → s.fe.ftUp = false → s.fe.powered = false →
    ∃ m', exec (.powergood a g) s = .next { s with fe := { s.fe with st := .powergood, powered := true }, m := m' } ∧
      m'.flash = s.m.flash ∧ m'.tb.resetAt = s.m.tb.now ∧ m'.conn.addrSel = a ∧ m'.conn.gangEn = g ∧ m'.mem = [] ∧
      m'.proc.bootDone = false ∧ m'.prot.regions = [] ∧ m'.power.ready = 0 ∧ m'.ev.fifo = [] ∧ m'.conn.daValid = false) ∧
  (∀ s : State, s.fe.st = .powergood → exec .outputWindowExit s = .next { s with fe := { s.fe with st := .on } })

/-- The start sequence from QUALIFY to POWERGOOD (R473, R476, R477), and the module reset that power-good is (R13). -/
def Obligations.StartSequenceEndsInPowerGood : Prop :=
  StartSequenceRuns ∧ PowerGoodAssertsAndFalls

/-- The fault timer (R478, R481): it counts up at 1 µs per µs in current limit and down at 1 µs per 16 µs out of it, between 0 and
2,000 µs; a count that starts up with PG_OUT asserted holds FAULT_WARN_N until the count is back at zero. Counts are in 1/16 ns. -/
def Sys2Proof.Stmt.FaultTimerCounts : Prop :=
  (∀ s : State, mainOn s.fe = true →
    ∃ f, exec .currentLimitEnter s = .next { s with fe := f } ∧ f.st = s.fe.st ∧ f.powered = s.fe.powered ∧ f.latch = s.fe.latch ∧
      (s.fe.st = .powergood → faultWarnN f = s.fe.powered) ∧
      ∀ dt, ftAtTime f (s.m.tb.now + dt) = min (ftAtTime s.fe s.m.tb.now + 16 * dt) 32000000) ∧
  (∀ s : State, s.fe.ftUp = true →
    ∃ f, exec .currentLimitExit s = .next { s with fe := f } ∧ f.st = s.fe.st ∧ f.powered = s.fe.powered ∧ f.warnTimer = s.fe.warnTimer ∧
      ∀ dt, ftAtTime f (s.m.tb.now + dt) = ftAtTime s.fe s.m.tb.now - dt) ∧
  (∀ s : State, s.fe.ftUp = false →
    ∃ f, exec .faultTimerZero s = .next { s with fe := f } ∧ f.st = s.fe.st ∧ f.warnTimer = false ∧ f.warnFet = s.fe.warnFet ∧
      ftAtTime f s.m.tb.now = 0)

/-- A trip (R480): LATCHED with its cause kept, PG_OUT gone, FAULT_N asserted, and the die without power. -/
def Sys2Proof.Stmt.tripped (c : TripCause) (f : FrontEnd) : Prop :=
  f.st = .latched ∧ f.latch = true ∧ f.lastTrip = some c ∧ f.powered = false ∧ pgOut f = false ∧ faultN f = true ∧ f.ftUp = false

/-- *Trip causes* (R480): the fault timer's expiry, a short, the pre-charge timeout, and a FET temperature of 150 °C each trip the
module, whose state behind the front end is left as it is; a FET temperature below 125 °C without a warning changes only the
temperature acted on (R482). -/
def Sys2Proof.Stmt.TripCausesLatch : Prop :=
  (∀ s : State, s.fe.ftUp = true → ∃ f, exec .faultTimerExpiry s = .next { s with fe := f } ∧ tripped .timer f) ∧
  (∀ s : State, mainOn s.fe = true → ∃ f, exec .shortCircuit s = .next { s with fe := f } ∧ tripped .short f) ∧
  (∀ s : State, s.fe.st = .precharge → ∃ f, exec .prechargeTimeout s = .next { s with fe := f } ∧ tripped .precharge f) ∧
  (∀ (t : Int) (s : State), s.fe.st ≠ .off → s.fe.st ≠ .latched → 150 * 16 ≤ max t (fetMeasured s.m) →
    ∃ f, exec (.fetModelUpdate t) s = .next { s with fe := f } ∧ tripped .fethot f ∧ f.fetT = max t (fetMeasured s.m)) ∧
  (∀ (t : Int) (s : State), s.fe.st ≠ .off → s.fe.st ≠ .latched → max t (fetMeasured s.m) < 125 * 16 → s.fe.warnFet = false →
    exec (.fetModelUpdate t) s = .next { s with fe := { s.fe with fetT := max t (fetMeasured s.m) } })

/-- The latch clears (R480): EN_IN held deasserted for 10 ms takes the front end to QUALIFY, and the removal hold clears the
latch while VIN is away. -/
def Sys2Proof.Stmt.LatchClears : Prop :=
  (∀ s : State, s.fe.st = .latched → s.fe.enIn = false →
    exec .latchClear s = .next { s with fe := { s.fe with st := .qualify, latch := false } }) ∧
  (∀ s : State, s.fe.vin = false → exec .removalHoldExpiry s = .next { s with fe := { s.fe with latch := false } })

/-- The fault timer, the trips and the clearing of the latch (R478, R480 to R482). -/
def Obligations.TripsLatchUntilCleared : Prop :=
  FaultTimerCounts ∧ TripCausesLatch ∧ LatchClears

/-- What every run keeps of the front end: the state agrees with VIN, with the start conditions, with the latch and with the
die's power, the fault timer stays within 2,000 µs, and no more than eight pre-charges are counted. -/
def Sys2Proof.Stmt.frontInv (f : FrontEnd) : Prop :=
  (f.st = .off ↔ f.vin = false) ∧
  (f.st = .precharge ∨ mainOn f = true → startOk f = true) ∧
  (f.ftUp = true → mainOn f = true) ∧
  (f.powered = true → f.st = .on ∨ f.st = .powergood) ∧ (f.st = .powergood → f.powered = true) ∧
  (f.st = .latched → f.latch = true) ∧ (f.latch = true → f.st = .latched ∨ f.st = .off) ∧
  (f.warnTimer = true → f.st = .on ∨ f.st = .powergood) ∧ (f.waiting = true → f.st = .qualify) ∧
  f.ftCount ≤ 32000000 ∧ f.starts ≤ 8

/-- The front end's invariant holds at reset. -/
def Obligations.FrontEndInvariantAtReset : Prop := frontInv State.reset.fe

/-- Every step keeps the front end's invariant, whatever the command (R472, R473, R477, R478, R480). -/
def Obligations.EveryStepKeepsTheFrontEndInvariant : Prop :=
  ∀ s t : State, frontInv s.fe → step s = .next t → frontInv t.fe

/-! ### Memory -/

/-- Storing a batt (R44, R46): its 256 bytes read back, and every byte outside it reads as before. -/
def Obligations.StoredBattsReadBack : Prop :=
  ∀ (mem : List Host.Cell) (da : Nat) (b : Batt), memBatt (memPutBatt mem da b) da = b ∧
    ∀ a, a < da ∨ da + 256 ≤ a → memByte (memPutBatt mem da b) a = memByte mem a

/-- R46, whole: pack, column, bank, rank, row and tile of a device address are the bits of *Device address map*, the bank being
DA[18:15] XOR DA[24:21]; a batt's pack, rank-bank, row and column give its address back. -/
def Obligations.DeviceAddressesMapAndRoundTrip : Prop :=
  (∀ d : BitVec 41, let da := d.toNat
    (daPack da).val = 2 * (bitsOf d 39 2).toNat + (bitsOf d 8 1).toNat ∧ daCol da = (bitsOf d 9 6).toNat ∧
    daBank da = (bitsOf d 15 4 ^^^ bitsOf d 21 4).toNat ∧ daRank da = (bitsOf d 19 2).toNat ∧ daRow da = (bitsOf d 21 18).toNat ∧
    (daTile da).val = (bitsOf d 39 2).toNat ∧ battOf da + (bitsOf d 0 8).toNat = da) ∧
  ∀ (pk : Pack) (rb row col : Nat), rb < 64 → row < 2 ^ 18 → col < 64 →
    let da := daOf pk rb row col
    daPack da = pk ∧ daTile da = packTile pk ∧ daRB da = rb ∧ daRow da = row ∧ daCol da = col ∧ battOf da = da ∧ da < 2 ^ 41

/-- The bytes that a beat's data and check bytes make (R47). -/
def Sys2Proof.Stmt.codeword (d : List Byte) : List Byte := d ++ [(checkBytes d).1, (checkBytes d).2]

/-- R48, whole: a beat is decoded from its syndromes S0 and S1 by the number of erased positions in force. With none, S0 = S1 = 0
is good; S1/S0 = α^u for a u in 0 to 17, with neither zero, puts byte 17 − u right by XOR with S0; otherwise the beat is
uncorrectable. With one, e, S1 = S0·α^(17 − e) puts byte e right by XOR with S0, and otherwise the beat is uncorrectable. With
two, v1 goes into byte e1 and v2 into byte e2. With three or more it is uncorrectable. And R47's check bytes put any one wrong
byte of a codeword right. -/
def Obligations.BeatsDecodeFromTheirSyndromes : Prop :=
  (∀ c : List Byte, c.length = 18 →
    let s0 := c.foldl (· ^^^ ·) 0#8
    let s1 := (syndromes c).2
    let alpha (u : Nat) : Byte := gfXn u 1
    (s0 = 0 → s1 = 0 → decodeBeat [] c = some (c, [])) ∧
    (∀ u, u < 18 → s0 ≠ 0 → s1 ≠ 0 → s1 = gfMul s0 (alpha u) → decodeBeat [] c = some (xorAt c (17 - u) s0, [17 - u])) ∧
    (¬ (s0 = 0 ∧ s1 = 0) → ¬ (s0 ≠ 0 ∧ s1 ≠ 0 ∧ ∃ u, u < 18 ∧ s1 = gfMul s0 (alpha u)) → decodeBeat [] c = none) ∧
    (∀ e, e < 18 → (s1 = gfMul s0 (alpha (17 - e)) → ∃ fixed, decodeBeat [e] c = some (xorAt c e s0, fixed)) ∧
      (s1 ≠ gfMul s0 (alpha (17 - e)) → decodeBeat [e] c = none)) ∧
    (∀ e1 e2, e1 < 18 → e2 < 18 → e1 ≠ e2 → ∃ v1 fixed,
      gfMul v1 (alpha (17 - e1) ^^^ alpha (17 - e2)) = s1 ^^^ gfMul s0 (alpha (17 - e2)) ∧
      decodeBeat [e1, e2] c = some (xorAt (xorAt c e1 v1) e2 (s0 ^^^ v1), fixed)) ∧
    (∀ l, 3 ≤ l.length → decodeBeat l c = none)) ∧
  (∀ d : List Byte, d.length = 16 → decodeBeat [] (codeword d) = some (codeword d, []) ∧
    ∀ (i : Nat) (v : Byte), i < 18 → v ≠ 0 → decodeBeat [] (xorAt (codeword d) i v) = some (codeword d, [i]) ∧
      decodeBeat [i] (xorAt (codeword d) i v) = some (codeword d, [i]))

/-! ### Boot and the fill frame (*Service processors, boot and the event log*, R69) -/

/-- BOOT_DONE (R508, R253, R254, R484): boot code takes the bank that verifies, loads its region table where every check
passes and locks it in any case, copies the trip record that the front end keeps, and starts the frame and the fill of every
tile. With no bank that verifies, the module is in recovery mode. It leaves the DRAM image alone. -/
def Sys2Proof.Stmt.BootCodeRuns : Prop :=
  ∀ s : State, s.fe.powered = true → s.m.proc.bootDone = false → s.m.therm.hold = false →
    ∃ m', exec .bootDone s = .next { s with m := m', fe := { s.fe with lastTrip := none, sawOv := false, sawUv := false } } ∧
      m'.proc.bootDone = true ∧ m'.filling = 15 ∧ m'.sched.running = !s.m.tb.lost ∧ m'.sched.frameStart = s.m.tb.now ∧
      m'.prot.locked = true ∧ m'.power.pwrErr = tripBits s.fe ∧ m'.mem = s.m.mem ∧ m'.conn = s.m.conn ∧ m'.rings = s.m.rings ∧
      (∀ (b : Bool) (i : BankImage), b = (if bankFault s.m.flash s.m.flash.select = 0 then s.m.flash.select else !s.m.flash.select) →
        bankFault s.m.flash b = 0 → bankOf s.m.flash b = some i →
        m'.proc.bank = b ∧ m'.proc.fwver = i.fwver ∧ m'.proc.svn = i.svn ∧ m'.proc.debug = i.debug ∧ m'.proc.wdtMs = i.wdtMs ∧
        m'.proc.recovery = s.m.proc.recovery ∧ m'.prot.kek = i.kek ∧ m'.sched.runtimeLoad = i.runtimeLoad ∧
        m'.prot.regions = if (tableCheck i.regions m'.prot.sealR m'.tiers s.m.conn.gangEn).isNone then i.regions else []) ∧
      (bankFault s.m.flash false ≠ 0 → bankFault s.m.flash true ≠ 0 →
        m'.proc.recovery = true ∧ m'.prot.regions = s.m.prot.regions ∧ m'.sched.active = s.m.sched.active)

/-- The end of a tile's fill frame (R69, R73, R276, R292): every byte of the tile reads as zero and no other byte changes, no
record of poison, root or tier entry of the tile is left, and its ready bit is set; the last tile sets Memory_Active on both
ports. Held requests then go on. Without a timebase no fill frame ends (R38). -/
def Obligations.FillFrameEnds : Prop :=
  (∀ (t : Tile) (s : State), s.m.tb.lost = true → exec (.fillEnd t) s = .next s) ∧
  ∀ (t : Tile) (s : State), s.fe.powered = true → s.m.filling.getLsbD t.val = true → s.m.tb.lost = false →
    ¬ (s.m.power.last = 3 ∧ s.m.power.phase = 4) →
    completes (.fillEnd t) s fun m' => ∃ x, m' = releaseHeld x ∧
      (∀ a, memByte x.mem a = if t.val * 2 ^ 39 ≤ a ∧ a < t.val * 2 ^ 39 + 2 ^ 39 then 0 else memByte s.m.mem a) ∧
      (∀ pk : Pack, packTile pk = t → (x.packs[pk] : PackSt).markers = [] ∧ (x.packs[pk] : PackSt).poisonList = [] ∧
        (x.packs[pk] : PackSt).plFull = (s.m.packs[pk] : PackSt).plFull) ∧
      (∀ pk : Pack, packTile pk ≠ t → (x.packs[pk] : PackSt) = s.m.packs[pk]) ∧
      (∀ i : Fin 32, x.prot.roots[i] = if i.val / 8 = t.val then 0 else s.m.prot.roots[i]) ∧
      (x.tiers[t] : TierSt).tmap = [] ∧ x.filling = putBit s.m.filling t.val false ∧ x.power.ready = putBit s.m.power.ready t.val true ∧
      (x.filling = 0 → ∀ p, (x.ports.get p).memActive = true) ∧ x.slices = s.m.slices ∧ x.rings = s.m.rings

/-- R466: while boot code holds the packs in reset for heat, one thermal-hold event is raised each second. -/
def Sys2Proof.Stmt.ThermalHoldReports : Prop :=
  ∀ s : State, s.fe.powered = true → s.m.proc.bootDone = false → s.m.therm.hold = true →
    completes .thermalHoldTick s fun m' =>
      m' = event 0x0C05 0 ((BitVec.ofInt 16 s.m.therm.dramT).toNat + (BitVec.ofInt 16 s.m.therm.dieT).toNat * 2 ^ 16) s.m

/-- Boot code (R466, R508, R253, R254, R484): it runs when its hold for heat is over, and reports the hold while it
lasts. -/
def Obligations.BootCodeRunsOrHoldsForHeat : Prop :=
  BootCodeRuns ∧ ThermalHoldReports

/-! ### Events, oscillators and islands -/

/-- The event FIFO (R516, R518, R554): an event that fits takes the next SEQ at the end of the FIFO with its kind, severity,
frame, location, DATA and time; one that does not fit takes no entry and is counted. It sets its alert bit where the mask
enables its severity, and changes nothing but the event state, the performance counters, the fatal log, the power state and
what was sent. -/
def Obligations.EventsEnterTheFifo : Prop :=
  ∀ (k : BitVec 16) (loc : Word32) (d : Nat) (m : Mod),
    let e := event k loc d m
    (evFits m.ev.fifo (evSeverity k) = true →
      e.ev.fifo = m.ev.fifo ++ [⟨m.ev.nextSeq, k, evSeverity k, m.sched.frameNo, loc, BitVec.ofNat 64 d, evTime m, false, false⟩] ∧
      e.ev.nextSeq = m.ev.nextSeq + 1 ∧ e.ev.co = m.ev.co) ∧
    (evFits m.ev.fifo (evSeverity k) = false → e.ev.fifo = m.ev.fifo ∧ e.ev.nextSeq = m.ev.nextSeq ∧
      e.ev.co.any (fun c => c.kind == k && c.key == evKey k loc (BitVec.ofNat 64 d)) = true) ∧
    e.ev.sev = (if m.ev.mask.getLsbD (evSeverity k) then putBit m.ev.sev (evSeverity k) true else m.ev.sev) ∧
    e.ev.mask = m.ev.mask ∧ e.ev.crit = m.ev.crit ∧
    ∃ a b c x y z, e = { m with ev := a, out := b, flash := { m.flash with fatal := c }, perf := x, power := y, slices := z }

/-- Oscillators (R36, R37, R38, R525): a switch takes the timebase to the twin and raises its event, unless the twin is marked
failed; then, and when both fail, the timebase is lost: the frame stops with every pack in self-refresh, and viral is set. A
switch ends an OSC_TEST under way with 0xC4. More than 200 ppm raises the warning. -/
def Sys2Proof.Stmt.OscillatorsSwitchWarnAndFail : Prop :=
  (∀ (cmp : Bool) (s : State), s.fe.powered = true → s.m.tb.lost = false → oscFailed s.m (!s.m.tb.osc1) = false →
    completes (.oscillatorSwitch cmp) s fun m' => ∃ x, m' = event 0x0105 0 (num01 (!s.m.tb.osc1) + (if cmp then 2 else 0)) x ∧
      x = { oscTestAbort s.m with tb := { s.m.tb with osc1 := !s.m.tb.osc1, test := none } }) ∧
  (∀ (cmp : Bool) (s : State), s.fe.powered = true → s.m.tb.lost = false → oscFailed s.m (!s.m.tb.osc1) = true →
    completes (.oscillatorSwitch cmp) s fun m' => m'.tb.lost = true ∧ m'.tb.test = none ∧ m'.sched.running = false ∧ m'.viral = true ∧
      (∀ pk : Pack, (m'.packs[pk] : PackSt).selfRefresh = true) ∧ m'.mem = s.m.mem) ∧
  (∀ s : State, s.fe.powered = true → s.m.tb.lost = false →
    completes .oscillatorLost s fun m' => m'.tb.lost = true ∧ m'.tb.test = none ∧ m'.tb.osc1 = s.m.tb.osc1 ∧ m'.sched.running = false ∧
      m'.viral = true ∧ (∀ pk : Pack, (m'.packs[pk] : PackSt).selfRefresh = true) ∧ m'.mem = s.m.mem) ∧
  (∀ (ppm : Nat) (s : State), s.fe.powered = true → s.m.tb.lost = false →
    completes (.oscillatorWarning ppm) s fun m' => m' = if 200 < ppm then event 0x0106 0 (min ppm 0xFFFF) s.m else s.m)

/-- R35: a transfer to an island held in reset is discarded, and the island's station answers its sender; nothing else changes. An
island that is out of reset sends no such answer. -/
def Sys2Proof.Stmt.IslandStationsAnswer : Prop :=
  (∀ (i : Fin 60) (s : State), s.fe.powered = true → islandHeld s.m i.val = true →
    exec (.islandDownResponse i) s = .next { s with m := { s.m with out := .islandDown i.val :: s.m.out } }) ∧
  (∀ (i : Fin 60) (s : State), islandHeld s.m i.val = false → exec (.islandDownResponse i) s = .next s)

/-- Oscillators (R36 to R38, R525) and the stations of islands in reset (R35). -/
def Obligations.OscillatorsAndIslandsAnswer : Prop :=
  OscillatorsSwitchWarnAndFail ∧ IslandStationsAnswer

/-! ### The frame schedule (*The frame schedule*) -/

/-- Frame boundaries (R105, R106, R129, R132): a frame that ends without a swap counts FRAME_NO, rolls the OPEN budgets and clears
what is kept per frame; a swap that waits for a later frame counts down; one whose frame has come puts its variant in force,
with a set-point gap when the data rate changes; the end of the gap starts slot 0. A frame that does not run has no end. -/
def Obligations.FramesEndAndSwap : Prop :=
  (∀ s : State, s.fe.powered = true → s.m.sched.running = true → s.m.sched.gap = false → s.m.sched.swap = none → s.m.power.state ≠ 4 →
    s.m.prot.reload = none →
    completes .frameBoundary s fun m' => m' = { s.m with
      sched := { s.m.sched with frameNo := s.m.sched.frameNo + 1, frameStart := s.m.tb.now, joining := 0 }
      packs := s.m.packs.map (fun (p : PackSt) => { p with used := p.usedNext, usedNext := [] })
      prot := { s.m.prot with keyEvents := [] }
      ports := s.m.ports.map (fun _ q => { q with overFrame := [] }) }) ∧
  (∀ (w : Swap) (s : State), s.fe.powered = true → s.m.sched.running = true → s.m.sched.gap = false → s.m.sched.swap = some w →
    1 < w.framesLeft → s.m.power.state ≠ 4 → s.m.prot.reload = none →
    completes .frameBoundary s fun m' => m'.sched = { s.m.sched with
      frameNo := s.m.sched.frameNo + 1, frameStart := s.m.tb.now, joining := 0, swap := some { w with framesLeft := w.framesLeft - 1 } } ∧
      m'.mem = s.m.mem) ∧
  (∀ (w : Swap) (s : State), s.fe.powered = true → s.m.sched.running = true → s.m.sched.gap = false → s.m.sched.swap = some w →
    w.framesLeft ≤ 1 → w.newSet = false → s.m.sched.further = none → s.m.power.state ≠ 4 → s.m.prot.reload = none →
    completes .frameBoundary s fun m' => m'.sched.variant = w.variant ∧ m'.sched.swap = none ∧ m'.sched.active = s.m.sched.active ∧
      m'.sched.staged = s.m.sched.staged ∧ m'.sched.frameNo = s.m.sched.frameNo + 1 ∧ m'.sched.running = true ∧
      m'.sched.subst = w.subst ∧
      m'.sched.gap = ((varAt s.m.sched.active s.m.sched.variant).fsp != (varAt s.m.sched.active w.variant).fsp) ∧
      m'.mem = s.m.mem ∧ m'.wbuf = s.m.wbuf) ∧
  (∀ s : State, s.fe.powered = true → s.m.sched.gap = true →
    completes .setPointGapEnd s fun m' => m' = { s.m with sched := { s.m.sched with gap := false, frameStart := s.m.tb.now } }) ∧
  (∀ s : State, s.m.sched.running = false ∨ s.m.sched.gap = true → exec .frameBoundary s = .next s) ∧
  (∀ s : State, s.m.sched.gap = false → exec .setPointGapEnd s = .next s)

/-- The head of a class's bank queue, if any, is not a read that the write buffer serves (R90). -/
def Sys2Proof.Stmt.unbuffered (m : Mod) (pk : Pack) (c : SlotClass) (bank : Nat) : Prop :=
  ∀ q, headOf (m.packs[pk] : PackSt) c bank = some q → q.write = true ∨ (reqBatts q).all (fun da => (wbFind m da).isSome) = false

/-- A data slot of a class of its own that begins a request there: a single batt's slot, or the first slot of a cell group (R83). -/
def Sys2Proof.Stmt.classSlot (w : Word64) (c : SlotClass) : Prop :=
  swData w = true ∧ SlotClass.ofCode (swClass w) = some c ∧ c ∉ [.openSlot, .scrub, .train, .refresh] ∧
    (c = .cellWr ∨ c = .cellRd → swFirst w = true)

/-- Dispatch points (R87, R89, R90, R99, R111): the slot of a class takes the head of its bank queue, a write while no diagnosis holds
it, a read with its read-return entries; an OPEN slot or group takes the winner of the classes that compete for it, which is
counted against its class; a slot for which nothing may go passes and is counted. The request leaves its queue and is bound to the
slot. A pack that takes no part in the running frame takes nothing. -/
def Sys2Proof.Stmt.DispatchPointsBind : Prop :=
  (∀ (pk : Pack) (slot : Nat) (ahead : Bool) (c : SlotClass) (q : DReq) (s : State), s.fe.powered = true → packJoins s.m pk = true →
    let w := slotWord s.m pk slot ahead
    classSlot w c → headOf (s.m.packs[pk] : PackSt) c (swBank w) = some q → unbuffered s.m pk c (swBank w) →
    (q.write = true → (s.m.packs[pk] : PackSt).diag = none) → (q.write = false → readRoom s.m (packTile pk) q = true) →
    completes (.dispatchPoint pk slot ahead) s fun m' =>
      (m'.packs[pk] : PackSt) = { (s.m.packs[pk] : PackSt) with
        queue := (s.m.packs[pk] : PackSt).queue.erase q
        bound := (s.m.packs[pk] : PackSt).bound ++ [⟨q, slot, s.m.sched.frameNo + (if ahead then 1 else 0), c.code⟩] } ∧
      m' = { s.m with packs := m'.packs } ∧ ∀ p : Pack, p ≠ pk → (m'.packs[p] : PackSt) = s.m.packs[p]) ∧
  (∀ (pk : Pack) (slot : Nat) (ahead : Bool) (c : SlotClass) (s : State), s.fe.powered = true → packJoins s.m pk = true →
    let w := slotWord s.m pk slot ahead
    classSlot w c → unbuffered s.m pk c (swBank w) →
    (∀ q, headOf (s.m.packs[pk] : PackSt) c (swBank w) = some q →
      q.write = true ∧ (s.m.packs[pk] : PackSt).diag ≠ none ∨ q.write = false ∧ readRoom s.m (packTile pk) q = false) →
    completes (.dispatchPoint pk slot ahead) s fun m' =>
      m' = countSlots pk slot c.code (if c = .cellWr ∨ c = .cellRd then 4 else 1) false none s.m) ∧
  (∀ (pk : Pack) (slot : Nat) (ahead : Bool) (q : DReq) (s : State), s.fe.powered = true → packJoins s.m pk = true →
    let w := slotWord s.m pk slot ahead
    swData w = true → swClass w = 0 → innerOpen s.m pk slot ahead = false →
    (∀ c ∈ openClasses (swFirst w), unbuffered s.m pk c (swBank w)) → openWinner s.m pk (swBank w) (swFirst w) ahead = some q →
    completes (.dispatchPoint pk slot ahead) s fun m' =>
      m' = countOpen pk slot q.cls (if swFirst w then 4 else 1) ahead (bindReq pk q slot ahead 0 s.m)) ∧
  (∀ (pk : Pack) (slot : Nat) (ahead : Bool) (s : State), packJoins s.m pk = false → exec (.dispatchPoint pk slot ahead) s = .next s)

/-- R101: the request of a missed slot goes back to the head of its bank queue, the miss is counted, and the slot-missed event
carries the slot's frame, its number and its class. The work of a missed SCRUB slot stays where it waits, and is counted and
reported in the same way. A slot of another class that holds no request changes nothing. -/
def Sys2Proof.Stmt.MissedSlotsAreReported : Prop :=
  (∀ (pk : Pack) (slot : Nat) (b : Bound) (s : State), s.fe.powered = true →
    (s.m.packs[pk] : PackSt).bound.find? (fun x => x.slot == slot) = some b →
    completes (.slotMissed pk slot) s fun m' => ∃ x, m' = raiseAt b.frame 0x0101 1 (locCode pk.val none none none none none none)
        (BitVec.ofNat 64 (slot % 65536 + b.slotCls * 65536)) x ∧
      (x.packs[pk] : PackSt) = { (s.m.packs[pk] : PackSt) with
        queue := b.req :: (s.m.packs[pk] : PackSt).queue, bound := (s.m.packs[pk] : PackSt).bound.erase b
        misses := min 0xFFFFFF ((s.m.packs[pk] : PackSt).misses + 1), lastClass := b.slotCls, sinceBand := true } ∧
      (∀ p : Pack, p ≠ pk → (x.packs[p] : PackSt) = s.m.packs[p]) ∧ ∃ pf pkk, x = { s.m with packs := pkk, perf := pf }) ∧
  (∀ (pk : Pack) (slot da : Nat) (s : State), s.fe.powered = true → packRuns s.m pk = true →
    (s.m.packs[pk] : PackSt).bound.find? (fun x => x.slot == slot) = none →
    let w := slotWord s.m pk slot false
    swData w = true → swClass w = 7 → scrubWork (s.m.packs[pk] : PackSt) (swBank w) = some da →
    completes (.slotMissed pk slot) s fun m' => ∃ x, m' = raiseAt s.m.sched.frameNo 0x0101 1 (locCode pk.val none none none none none none)
        (BitVec.ofNat 64 (slot % 65536 + 7 * 65536)) x ∧
      (x.packs[pk] : PackSt) = { (s.m.packs[pk] : PackSt) with
        misses := min 0xFFFFFF ((s.m.packs[pk] : PackSt).misses + 1), lastClass := 7, sinceBand := true } ∧
      ∃ pf pkk, x = { s.m with packs := pkk, perf := pf }) ∧
  (∀ (pk : Pack) (slot : Nat) (s : State), (s.m.packs[pk] : PackSt).bound.find? (fun x => x.slot == slot) = none →
    swClass (slotWord s.m pk slot false) ≠ 7 → exec (.slotMissed pk slot) s = .next s)

/-- Dispatch points (R87, R89, R90, R99, R111) and missed slots (R101). -/
def Obligations.DispatchPointsBindAndMissedSlotsReport : Prop :=
  DispatchPointsBind ∧ MissedSlotsAreReported

/-- Data phases (R89, R90, R54, R58, R73): a write puts its batt on the dies and its entry leaves the write buffer, with the
record of poison of the batt as the write gives it; a fill's batt arrives for its line; a read during a diagnosis is held, and a write
goes back to the head of its queue; a read of an uncorrectable batt starts a diagnosis and delivers nothing. What waits in the tile
then goes on (`wakeTile`). A pack with no request sent to it ends no data phase. -/
def Obligations.DataPhasesEnd : Prop :=
  (∀ (pk : Pack) (errs : Errs) (b : Bound) (rest : List Bound) (e : WEntry) (s : State), s.fe.powered = true →
    (s.m.packs[pk] : PackSt).bound = b :: rest → (s.m.packs[pk] : PackSt).diag = none → b.req.write = true → b.req.why = .write →
    b.req.group = false → wbFind s.m b.req.da = some e → s.m.prot.stop = none →
    rankState (s.m.packs[daPack b.req.da] : PackSt) (daRank b.req.da) ≤ 1 →
    completes (.dataPhaseEnd pk errs) s fun m' => ∃ x, m' = wakeTile (packTile pk) x ∧ x.mem = memPutBatt s.m.mem b.req.da e.data ∧
      wbFind x b.req.da = none ∧ (x.packs[pk] : PackSt).bound = rest ∧
      ((x.packs[daPack b.req.da] : PackSt).markers.contains b.req.da = e.poison) ∧
      x.slices = s.m.slices ∧ x.here = s.m.here ∧ x.rings = s.m.rings) ∧
  (∀ (pk : Pack) (errs : Errs) (b : Bound) (rest : List Bound) (sp : BitVec 2) (t : Tile) (a : Nat) (v : Batt) (s : State),
    s.fe.powered = true → (s.m.packs[pk] : PackSt).bound = b :: rest → (s.m.packs[pk] : PackSt).diag = none → b.req.write = false →
    b.req.why = .fill sp t a → b.req.group = false → wbFind s.m b.req.da = none →
    (rawRead pk b.req.da (errsOf errs 0) s.m).1 = .data v →
    completes (.dataPhaseEnd pk errs) s fun m' => ∃ x, m' = wakeTile (packTile pk) x ∧
      x.here = { own := .fill sp t a, da := b.req.da, data := v, poison := false } :: s.m.here ∧
      (x.packs[pk] : PackSt).bound = rest ∧ (x.packs[pk] : PackSt).diag = none ∧ x.mem = s.m.mem ∧ x.wbuf = s.m.wbuf ∧
      x.slices = s.m.slices) ∧
  (∀ (pk : Pack) (errs : Errs) (b : Bound) (rest : List Bound) (d : Diag) (s : State), s.fe.powered = true →
    (s.m.packs[pk] : PackSt).bound = b :: rest → b.req.write = false → (s.m.packs[pk] : PackSt).diag = some d →
    completes (.dataPhaseEnd pk errs) s fun m' => ∃ x res, m' = wakeTile (packTile pk) x ∧
      (x.packs[pk] : PackSt).diag = some { d with held := d.held ++ [⟨{ b.req with tried := b.req.tried || res.contains .bad }, res⟩] } ∧
      (x.packs[pk] : PackSt).bound = rest ∧ x.mem = s.m.mem ∧ x.slices = s.m.slices ∧ x.here = s.m.here) ∧
  (∀ (pk : Pack) (errs : Errs) (b : Bound) (rest : List Bound) (d : Diag) (s : State), s.fe.powered = true →
    (s.m.packs[pk] : PackSt).bound = b :: rest → b.req.write = true → (s.m.packs[pk] : PackSt).diag = some d →
    completes (.dataPhaseEnd pk errs) s fun m' => m' = countSlots pk b.slot b.slotCls (reqBatts b.req).length false none
      (onPack pk (fun p => { p with bound := rest, queue := b.req :: p.queue }) s.m)) ∧
  (∀ (pk : Pack) (errs : Errs) (b : Bound) (rest : List Bound) (s : State), s.fe.powered = true →
    (s.m.packs[pk] : PackSt).bound = b :: rest → b.req.write = false → b.req.group = false → b.req.tried = false →
    (s.m.packs[pk] : PackSt).diag = none → wbFind s.m b.req.da = none → (rawRead pk b.req.da (errsOf errs 0) s.m).1 = .bad →
    completes (.dataPhaseEnd pk errs) s fun m' => ∃ x, m' = wakeTile (packTile pk) x ∧
      (x.packs[pk] : PackSt).diag = some ⟨daRank b.req.da, 0, 0, [⟨{ b.req with tried := true }, [.bad]⟩]⟩ ∧
      (x.packs[pk] : PackSt).bound = rest ∧ x.mem = s.m.mem ∧ x.slices = s.m.slices ∧ x.here = s.m.here) ∧
  (∀ (pk : Pack) (errs : Errs) (s : State), (s.m.packs[pk] : PackSt).bound = [] → exec (.dataPhaseEnd pk errs) s = .next s)

/-- A TRAIN slot counts as used or as passed where it is a data slot (R97, R111). -/
def Sys2Proof.Stmt.trainCount (pk : Pack) (slot : Nat) (used : Bool) (m : Mod) : Mod :=
  if swData (slotWord m pk slot false) then countSlots pk slot 9 1 used none m else m

/-- The TRAIN slot of a pack that runs, with no test of its channels under way. -/
def Sys2Proof.Stmt.trainsNow (s : State) (pk : Pack) (slot : Nat) : Prop :=
  s.fe.powered = true ∧ packRuns s.m pk = true ∧ swClass (slotWord s.m pk slot false) = 9 ∧ (s.m.tests[packTile pk] : Option ChanTest) = none

/-- REFRESH and TRAIN slots (R95 to R97, R55): a REFRESH slot issues its REFpb, and its RFM where the rank's activations have
reached the limit, which starts their count anew; a TRAIN slot serves the next step of the diagnosis first, then MR4, the interval
oscillator that was read longest ago, and ZQ, each once; with none of them due it passes. -/
def Sys2Proof.Stmt.RefreshAndTrainSlotsServe : Prop :=
  (∀ (pk : Pack) (slot : Nat) (s : State), s.fe.powered = true → packRuns s.m pk = true →
    let w := slotWord s.m pk slot false
    swClass w = 8 → swOp w 0 = 8 → swOp w 1 ≠ 8 → swOp w 1 ≠ 9 →
    completes (.refreshSlot pk slot) s fun m' => m' = send (.dram pk slot 0 (swTgt w 0) .refPb) s.m) ∧
  (∀ (pk : Pack) (slot : Nat) (s : State), s.fe.powered = true → packRuns s.m pk = true →
    let w := slotWord s.m pk slot false
    swClass w = 8 → swOp w 0 ≠ 8 → swOp w 0 ≠ 9 → swOp w 1 = 9 →
    completes (.refreshSlot pk slot) s fun m' =>
      if Config.raaLimit ≤ tabGet 0 (s.m.packs[pk] : PackSt).raa (swTgt w 1 / 16) then
        m' = send (.dram pk slot 1 (swTgt w 1) .rfm) (onPack pk (fun p => { p with raa := tabPut p.raa (swTgt w 1 / 16) 0 }) s.m)
      else m' = s.m) ∧
  (∀ (pk : Pack) (slot : Nat) (fails : BitVec 9) (d : Diag) (s : State), trainsNow s pk slot → (s.m.packs[pk] : PackSt).diag = some d → d.steps < 4 →
    completes (.trainSlot pk slot fails) s fun m' => m' = trainCount pk slot true (send (.dram pk slot 0 (16 * d.rank) (linkCommand d.steps))
      (onPack pk (fun p => { p with diag := some { d with steps := d.steps + 1, failed := d.failed ||| fails } }) s.m))) ∧
  (∀ (pk : Pack) (slot : Nat) (fails : BitVec 9) (s : State), trainsNow s pk slot → (s.m.packs[pk] : PackSt).diag = none →
    (s.m.packs[pk] : PackSt).mr4Due = true →
    completes (.trainSlot pk slot fails) s fun m' => m' = trainCount pk slot true
      (send (.dram pk slot 0 0 (.mrr 1)) (onPack pk (fun p => { p with mr4Due := false }) s.m))) ∧
  (∀ (pk : Pack) (slot : Nat) (fails : BitVec 9) (r : Nat) (s : State), trainsNow s pk slot → (s.m.packs[pk] : PackSt).diag = none →
    (s.m.packs[pk] : PackSt).mr4Due = false → oscRank s.m (s.m.packs[pk] : PackSt) = some r →
    completes (.trainSlot pk slot fails) s fun m' => m' = trainCount pk slot true
      (send (.dram pk slot 0 (16 * r) (.mrr 2)) (onPack pk (fun p => { p with oscAt := tabPut p.oscAt r s.m.tb.now }) s.m))) ∧
  (∀ (pk : Pack) (slot : Nat) (fails : BitVec 9) (s : State), trainsNow s pk slot → (s.m.packs[pk] : PackSt).diag = none →
    (s.m.packs[pk] : PackSt).mr4Due = false → oscRank s.m (s.m.packs[pk] : PackSt) = none →
    completes (.trainSlot pk slot fails) s fun m' => m' =
      if (s.m.packs[pk] : PackSt).zqDue then
        trainCount pk slot true (send (.dram pk slot 0 0 .zqLatch) (onPack pk (fun p => { p with zqDue := false }) s.m))
      else trainCount pk slot false s.m)

/-- The credit of a pack's patrol reads at a SCRUB slot (R65, R67), in units of 2^-30 ns. -/
def Sys2Proof.Stmt.patrolCredit (m : Mod) (pk : Pack) : Nat :=
  min ((m.packs[pk] : PackSt).credit + (m.tb.now - (m.packs[pk] : PackSt).lastScrub) * 2 ^ 30) (64 * patrolInterval m)

/-- SCRUB slots (R65, R67): a queued write-back goes to the dies; with nothing queued and credit for it, the patrol reads the next
batt of the slot's bank and its pointer advances, which leaves a clean batt alone; without credit the slot passes. -/
def Sys2Proof.Stmt.ScrubSlotsPatrol : Prop :=
  (∀ (pk : Pack) (slot : Nat) (errs : Errs) (q : DReq) (b : Batt) (s : State), s.fe.powered = true → packRuns s.m pk = true →
    let w := slotWord s.m pk slot false
    let p : PackSt := s.m.packs[pk]
    swClass w = 7 → swData w = true → p.diag = none →
    p.queue.find? (fun q => q.cls == .scrub && q.bank == swBank w && q.write) = some q → q.why = .writeBack b → s.m.prot.stop = none →
    completes (.scrubSlot pk slot errs) s fun m' => m'.mem = memPutBatt s.m.mem q.da b ∧
      (m'.packs[pk] : PackSt).queue = p.queue.erase q ∧ m'.slices = s.m.slices ∧ m'.wbuf = s.m.wbuf) ∧
  (∀ (pk : Pack) (slot : Nat) (errs : Errs) (b : Batt) (s : State), s.fe.powered = true → packRuns s.m pk = true →
    let w := slotWord s.m pk slot false
    let p : PackSt := s.m.packs[pk]
    let n := tabGet 0 p.patrol (swBank w)
    let da := battOf (daOf pk (swBank w) (n / 64) (n % 64))
    swClass w = 7 → swData w = true → p.diag = none → (s.m.tests[packTile pk] : Option ChanTest) = none →
    p.queue.find? (fun q => q.cls == .scrub && q.bank == swBank w) = none → p.tests = [] →
    readRoom s.m (packTile pk) (battReq .scrub 0 false 0 0 .patrol) = true →
    (wbFind s.m da = none → rankState p (daRank da) ≠ 3 ∧ da ∉ p.poisonList ∧ da ∉ p.poisonPend ∧ da ∉ p.markers ∧
      decodeBatt (erasedAt p none da) (memBatt s.m.mem da) false (errsOf errs 0) = .good b []) →
    completes (.scrubSlot pk slot errs) s fun m' => m'.mem = s.m.mem ∧ (m'.packs[pk] : PackSt).queue = p.queue ∧
      (m'.packs[pk] : PackSt).lastScrub = s.m.tb.now ∧ m'.slices = s.m.slices ∧
      if patrolCredit s.m pk < patrolInterval s.m then
        (m'.packs[pk] : PackSt).patrol = p.patrol ∧ (m'.packs[pk] : PackSt).credit = patrolCredit s.m pk
      else (m'.packs[pk] : PackSt).patrol = tabPut p.patrol (swBank w) ((n + 1) % 2 ^ 24) ∧
        (m'.packs[pk] : PackSt).credit = patrolCredit s.m pk - patrolInterval s.m)

/-- REFRESH, TRAIN and SCRUB slots (R55, R65, R67, R95 to R97). -/
def Obligations.MaintenanceSlotsServe : Prop :=
  RefreshAndTrainSlotsServe ∧ ScrubSlotsPatrol

/-- Marks and diagnosis (R50 to R52, R56): 64 batts of a Clean rank corrected at one position within 1 s put a die mark on it, in
the pack and in the health record, with its event; fewer put none. A diagnosis of four steps that finds one failing position puts
a channel mark on it, with cause 0, and its held reads go back to the head of their queues; one that finds none only sends them
back; before its four steps there is no verdict. -/
def Obligations.MarksFollowDiagnosis : Prop :=
  (∀ (pk : Pack) (rank : Fin 4) (pos : Fin 18) (s : State), s.fe.powered = true →
    let p : PackSt := s.m.packs[pk]
    let n := (p.ceAt.filter (fun e => e.1 == rank.val * 18 + pos.val && s.m.tb.now - e.2 ≤ 1000000000)).length
    completes (.dieMark pk rank pos) s fun m' =>
      if rankState p rank.val = 0 ∧ 64 ≤ n then
        m' = event 0x0201 (locDie pk.val rank.val pos.val) 0
          { onPack pk (fun p => { p with dieMarks := (rank.val, pos.val) :: p.dieMarks }) s.m with
            flash := { s.m.flash with dieMarks := (pk.val, rank.val, pos.val) :: s.m.flash.dieMarks } }
      else m' = s.m) ∧
  (∀ (pk : Pack) (d : Diag) (s : State), s.fe.powered = true → (s.m.packs[pk] : PackSt).diag = some d → 4 ≤ d.steps → setBits d.failed = [] →
    completes (.diagnosisVerdict pk) s fun m' =>
      m' = onPack pk (fun p => { p with diag := none, queue := d.held.map (·.req) ++ p.queue }) s.m) ∧
  (∀ (pk : Pack) (d : Diag) (pos : Nat) (s : State), s.fe.powered = true → (s.m.packs[pk] : PackSt).diag = some d → 4 ≤ d.steps →
    setBits d.failed = [pos] →
    completes (.diagnosisVerdict pk) s fun m' => (m'.packs[pk] : PackSt).diag = none ∧ pos ∈ (m'.packs[pk] : PackSt).chMarks ∧
      (pk.val, pos) ∈ m'.flash.chMarks ∧ (m'.packs[pk] : PackSt).queue = d.held.map (·.req) ++ (s.m.packs[pk] : PackSt).queue ∧
      m'.mem = s.m.mem ∧ m'.wbuf = s.m.wbuf ∧ m'.ev = (event 0x0202 (locChannel pk.val pos) 0 s.m).ev) ∧
  (∀ (pk : Pack) (d : Diag) (s : State), (s.m.packs[pk] : PackSt).diag = some d → d.steps < 4 → exec (.diagnosisVerdict pk) s = .next s)

/-! ### Admin commands (*Service processors, boot and the event log*) -/

/-- An admin command's tag. -/
def Sys2Proof.Stmt.tagOf (h : AdminHdr) (op : BitVec 16) : AdminTag := ⟨h.port, h.tag, op⟩

/-- The state in which an admin command's own work begins: it stands in the admin queue as started, and counts as work (R488). -/
def Sys2Proof.Stmt.begun (h : AdminHdr) (op : BitVec 16) (m : Mod) : Mod := touch (started (tagOf h op) m)

/-- The fixed part of the entry and every parameter in range (R515, code 0xE1 otherwise). -/
def Sys2Proof.Stmt.wellPut (h : AdminHdr) (inRange : Bool) : Prop :=
  h.resv = false ∧ inRange = true ∧ h.rlen ≤ 65536 ∧ h.rbuf.toNat % 64 = 0

/-- A service processor runs the command, and neither integrity stop nor recovery mode turns it away (R502, R509, R515). -/
def Sys2Proof.Stmt.accepted (h : AdminHdr) (op : BitVec 16) (s : State) : Prop :=
  s.fe.powered = true ∧ spActive s.m = true ∧ h.resv = false ∧ h.rlen ≤ 65536 ∧ h.rbuf.toNat % 64 = 0 ∧
    (s.m.prot.stop = none ∨ stopAllowed op = true) ∧ (s.m.proc.recovery = false ∨ recoveryAllowed op = true)

/-- The commands of *Admin opcodes*: header, opcode, and whether every parameter lies in its range. -/
def Sys2Proof.Stmt.adminForm : Instr → Option (AdminHdr × BitVec 16 × Bool)
  | .identify h => some (h, 0x0001, true)
  | .healthRead h => some (h, 0x0002, true)
  | .eventCoalescedRead h => some (h, 0x0003, true)
  | .spTest h => some (h, 0x0004, true)
  | .oscTest h o => some (h, 0x0005, o ≤ 1)
  | .portLaneTest h p half ms => some (h, 0x0006, p ≤ 1 && half ≤ 1 && 1 ≤ ms && ms ≤ 1000)
  | .flashUpdate h b _ n => some (h, 0x0101, b ≤ 1 && n ≤ 48 * 2 ^ 20)
  | .flashSelect h b => some (h, 0x0102, b ≤ 1)
  | .flashRead h o n => some (h, 0x0103, n ≤ 65536 && o + n ≤ 2 ^ 27)
  | .svnRaise h => some (h, 0x0104, true)
  | .imageLoad h _ _ => some (h, 0x0105, true)
  | .imageActivate h _ => some (h, 0x0106, true)
  | .chanTest h t r => some (h, 0x0201, t < 4 && 1 ≤ r && r ≤ 64)
  | .cacheLockPrepare h t _ => some (h, 0x0301, t ≤ 3)
  | .cachePreload h t _ _ => some (h, 0x0302, t ≤ 3)
  | .cacheLock h t => some (h, 0x0303, t ≤ 3)
  | .cacheUnlock h t => some (h, 0x0304, t ≤ 3)
  | .wayTest h t w => some (h, 0x0305, t ≤ 3 && w ≤ 15)
  | .tagRead h t i w => some (h, 0x0306, t ≤ 3 && i < 16384 && w ≤ 15)
  | .filterTest h t => some (h, 0x0307, t ≤ 3)
  | .filterRead h t i w => some (h, 0x0308, t ≤ 3 && i < 65536 && w ≤ 15)
  | .protReload h _ => some (h, 0x0401, true)
  | .keyLoad h _ _ => some (h, 0x0402, true)
  | .keyRetire h _ => some (h, 0x0403, true)
  | .keyZero h _ => some (h, 0x0404, true)
  | .tierSet h t p v => some (h, 0x0501, t < 4 && p ≤ 4 &&
      (if p = 0 then 100 ≤ v && v ≤ 60000 else if p = 1 then 1 ≤ v && v ≤ 15 else if p = 2 then v ≤ 15
       else if p = 3 then 1 ≤ v && v ≤ 15 else 2 ≤ v && v ≤ 6))
  | .elasticTrim h _ _ => some (h, 0x0502, true)
  | .tierBypass h t => some (h, 0x0503, t < 4)
  | .tierResume h t => some (h, 0x0504, t < 4)
  | .fullerOut h f => some (h, 0x0505, f < 8)
  | .fullerIn h f => some (h, 0x0506, f < 8)
  | .fullerTest h f => some (h, 0x0507, f < 8)
  | .poolSet h p _ => some (h, 0x0601, p ≤ 63)
  | .poolRead h p => some (h, 0x0602, p ≤ 63)
  | .runRead h r => some (h, 0x0603, r < 2 ^ 24)
  | .queueSet h q _ => some (h, 0x0604, q ≤ 262143)
  | .queueRead h q => some (h, 0x0605, q ≤ 262143)
  | .queueReset h q => some (h, 0x0606, q ≤ 262143)
  | .replSet h l _ => some (h, 0x0607, l ≤ 4095)
  | .eportSet h e _ => some (h, 0x0608, e ≤ 127)
  | .schedCommit h _ _ n => some (h, 0x0701, 1 ≤ n && n ≤ 65536)
  | .schedRead h _ _ => some (h, 0x0702, true)
  | .cpoolSet h p _ => some (h, 0x0801, p ≤ 63)
  | .gangSource h _ _ => some (h, 0x0901, true)
  | .gangLaneTest h _ ms => some (h, 0x0902, 1 ≤ ms && ms ≤ 1000)
  | .sensorTest h _ => some (h, 0x0A01, true)
  | .sleep h => some (h, 0x0A02, true)
  | _ => none

/-- The general checks of an admin command (R502, R509, R515), for every opcode: 0xE1 before 0xE3 before 0xE4, each the
command's whole effect; with no service processor active nothing happens; an opcode of no row gives 0xE0. -/
def Obligations.AdminCommandsMeetTheGeneralChecks : Prop :=
  (∀ (c : Instr) (h : AdminHdr) (op : BitVec 16) (ok : Bool) (s : State), adminForm c = some (h, op, ok) → s.fe.powered = true →
    (spActive s.m = false → exec c s = .next s) ∧
    (spActive s.m = true →
      (¬ wellPut h ok → completes c s fun m' => m' = done (tagOf h op) 0xE1 (begun h op s.m)) ∧
      (wellPut h ok → s.m.prot.stop.isSome = true → stopAllowed op = false →
        completes c s fun m' => m' = done (tagOf h op) 0xE3 (begun h op s.m)) ∧
      (wellPut h ok → (s.m.prot.stop = none ∨ stopAllowed op = true) → s.m.proc.recovery = true → recoveryAllowed op = false →
        completes c s fun m' => m' = done (tagOf h op) 0xE4 (begun h op s.m)))) ∧
  (∀ (h : AdminHdr) (op : BitVec 16) (s : State), s.fe.powered = true → spActive s.m = true →
    completes (.adminUnknownOpcode h op) s fun m' => m' = done (tagOf h op) 0xE0 (started (tagOf h op) s.m))

/-- Completion (R513, R341): a command that stands in the admin queue leaves it, one entry goes to the admin completion ring of its
port, and nothing but the rings, the ports' credits, the counters, the power state and the admin queue changes; one that a
takeover has already completed posts nothing more (R500). Posting (R322, R324, R325): a running ring whose line the module may
write takes the entry at its producer count; one whose line is not free keeps it waiting and is full; one that does not run
discards it (R338). -/
def Obligations.CompletionsPostOneEntry : Prop :=
  (∀ (c : AdminTag) (code n : Nat) (v : BitVec 96) (m : Mod), m.proc.queue.findIdx? (fun e => e.1 == c) = none → complete c code n v m = m) ∧
  (∀ (c : AdminTag) (code n : Nat) (v : BitVec 96) (i r : Nat) (m : Mod), m.proc.queue.findIdx? (fun e => e.1 == c) = some i →
    adminPair m c.port = some r → (complete c code n v m).proc.queue = m.proc.queue.eraseIdx i ∧
    (complete c code n v m).proc.bank = m.proc.bank ∧ (complete c code n v m).ev = m.ev ∧ (complete c code n v m).flash = m.flash ∧
    ∃ a b d x y z, complete c code n v m = { m with ports := a, rings := b, out := d, perf := x, power := y, proc := z }) ∧
  (∀ (p : Port) (r : Nat) (e : RawEntry) (m : Mod), let g := ringAt m p r
    g.state = 1 → ringsRun m p (cfgType g.cfg) = true → g.wait = [] → lineFree g g.midx = true →
      ringAt (ringPost p r e m) p r = { ringPlace g e with
        wait := [], full := false, modSince := if g.modSince.isSome then g.modSince else some m.tb.now }) ∧
  (∀ (p : Port) (r : Nat) (e : RawEntry) (m : Mod), let g := ringAt m p r
    g.state = 1 → ringsRun m p (cfgType g.cfg) = true → g.wait = [] → lineFree g g.midx = false →
      ringAt (ringPost p r e m) p r = { g with wait := [e], full := true }) ∧
  (∀ (p : Port) (r : Nat) (e : RawEntry) (m : Mod), (ringAt m p r).state ≠ 1 → (ringAt m p r).state ≠ 3 → ringPost p r e m = m)

/-- IDENTIFY, HEALTH_READ and EVENT_COALESCED_READ (R515, R517): the bytes in the result buffer, and IDENTIFY's result word: part
number 0x2048, stepping, bank in force, firmware version. -/
def Sys2Proof.Stmt.IdentityAndHealthRead : Prop :=
  (∀ (h : AdminHdr) (s : State), accepted h 0x0001 s → ∃ r : BitVec 96,
    bitsOf r 0 16 = 0x2048#16 ∧ bitsOf r 16 4 = Config.stepNum ∧ bitsOf r 20 4 = Config.stepLtr ∧ bitsOf r 24 1 = bit s.m.proc.bank ∧
    bitsOf r 25 7 = 0 ∧ bitsOf r 32 32 = s.m.proc.fwver ∧ bitsOf r 64 32 = 0 ∧
    completes (.identify h) s fun m' =>
      m' = completeWith h (tagOf h 0x0001) 0 r (toBytes Config.moduleId 8) (begun h 0x0001 s.m)) ∧
  (∀ (h : AdminHdr) (s : State), accepted h 0x0002 s → completes (.healthRead h) s fun m' =>
    m' = completeWith h (tagOf h 0x0002) 0 0 (healthBytes s.m) (begun h 0x0002 s.m) ∧ (healthBytes s.m).length = 141) ∧
  (∀ (h : AdminHdr) (s : State), accepted h 0x0003 s → completes (.eventCoalescedRead h) s fun m' => ∃ l : List Byte,
    m' = completeWith h (tagOf h 0x0003) 0 0 l (begun h 0x0003 s.m) ∧ l.length = 32 * s.m.ev.co.length) ∧
  (∀ (h : AdminHdr) (c : AdminTag) (code : Nat) (r : BitVec 96) (l : List Byte) (m : Mod),
    (l.length ≤ h.rlen → bufOk m h.port h.rbuf l.length = true →
      completeWith h c code r l m = sendResult c code r h.rbuf l m) ∧
    (h.rlen < l.length → completeWith h c code r l m = done c 0xE2 (bufRefuse h.port h.rbuf l.length m)))

/-- Flash commands (R504, R505, R510 to R512): an update reads its buffer, and then erases its bank and counts the write; its end puts
the image in the bank unless it fails, with its code; the running bank, a worn bank and a busy flash are refused; a bank that verifies is
selected, one that does not is refused; SVN_RAISE raises MIN_SVN to the running image's SVN; a read outside the boot
configurations returns its bytes. -/
def Sys2Proof.Stmt.FlashCommandsActOnTheBanks : Prop :=
  (∀ (h : AdminHdr) (bank : Nat) (w : BitVec 64) (n : Nat) (s : State), accepted h 0x0101 s → bank ≤ 1 → n ≤ 48 * 2 ^ 20 →
    let b := bank == 1
    let wc := if b then s.m.flash.wcount1 else s.m.flash.wcount0
    (s.m.proc.recovery = false → b = s.m.proc.bank →
      completes (.flashUpdate h bank w n) s fun m' => m' = done (tagOf h 0x0101) 0xB1 (begun h 0x0101 s.m)) ∧
    (s.m.proc.recovery = true ∨ b ≠ s.m.proc.bank → 20000 ≤ wc →
      completes (.flashUpdate h bank w n) s fun m' => m' = done (tagOf h 0x0101) 0xB3 (begun h 0x0101 s.m)) ∧
    (s.m.proc.recovery = true ∨ b ≠ s.m.proc.bank → wc < 20000 → flashRuns s.m = true →
      completes (.flashUpdate h bank w n) s fun m' => m' = done (tagOf h 0x0101) 0xB7 (begun h 0x0101 s.m)) ∧
    (s.m.proc.recovery = true ∨ b ≠ s.m.proc.bank → wc < 20000 → flashRuns s.m = false →
      completes (.flashUpdate h bank w n) s fun m' =>
        m' = withSource h (tagOf h 0x0101) (.flashUpdate b w n) w n (flashUpdate (tagOf h 0x0101) b) (begun h 0x0101 s.m))) ∧
  (∀ (c : AdminTag) (b : Bool) (l : List Byte) (x : Mod),
    let y := flashUpdate c b (some l) x
    bankOf y.flash b = none ∧ bankOf y.flash (!b) = bankOf x.flash (!b) ∧
      y.flash.wcount0 = x.flash.wcount0 + (if b then 0 else 1) ∧ y.flash.wcount1 = x.flash.wcount1 + (if b then 1 else 0) ∧
      y.proc.flashBusy = some ⟨c, b, bankImage l⟩ ∧ y = { x with flash := y.flash, proc := y.proc } ∧
      flashUpdate c b none x = done c 0xE1 x) ∧
  (∀ (r : Fin 4) (x : FlashWork) (s : State), s.fe.powered = true → s.m.proc.flashBusy = some x →
    completes (.flashUpdateEnd r) s fun m' =>
      let y : Mod := { s.m with proc := { s.m.proc with flashBusy := none } }
      if r = 3 then m' = done x.cmd 0xB5 y else if r = 1 then m' = done x.cmd 0xB2 y
      else if r = 2 ∨ x.image.svn < s.m.flash.minSvn then m' = done x.cmd 0xB4 y
      else m' = done x.cmd 0xB0 { y with flash := if x.bank then { y.flash with bank1 := some x.image } else { y.flash with bank0 := some x.image } }) ∧
  (∀ (h : AdminHdr) (bank : Nat) (s : State), accepted h 0x0102 s → bank ≤ 1 →
    completes (.flashSelect h bank) s fun m' =>
      if bankFault s.m.flash (bank == 1) = 0 then
        m' = done (tagOf h 0x0102) 0xB0 { begun h 0x0102 s.m with flash := { s.m.flash with select := bank == 1 } }
      else m' = done (tagOf h 0x0102) 0xB2 (begun h 0x0102 s.m)) ∧
  (∀ (h : AdminHdr) (s : State), accepted h 0x0104 s → completes (.svnRaise h) s fun m' =>
    m' = done (tagOf h 0x0104) 0xB0 { begun h 0x0104 s.m with flash := { s.m.flash with minSvn := s.m.proc.svn } }) ∧
  (∀ (h : AdminHdr) (o n : Nat) (s : State), accepted h 0x0103 s → n ≤ 65536 → o + n ≤ 2 ^ 27 →
    let hits (b : Nat) : Prop := o < (Config.bootCfg b).1 + (Config.bootCfg b).2 ∧ (Config.bootCfg b).1 < o + n
    (hits 0 ∨ hits 1 → completes (.flashRead h o n) s fun m' => m' = done (tagOf h 0x0103) 0xB6 (begun h 0x0103 s.m)) ∧
    (¬ hits 0 → ¬ hits 1 → completes (.flashRead h o n) s fun m' => ∃ l : List Byte, l.length = n ∧
      m' = completeWith h (tagOf h 0x0103) 0xB0 0 l { begun h 0x0103 s.m with free := s.m.free + 1 }))

/-- IDENTIFY, HEALTH_READ, EVENT_COALESCED_READ and the flash commands (R504, R505, R510 to R512, R515, R517). -/
def Obligations.IdentityHealthAndFlashCommandsAct : Prop :=
  IdentityAndHealthRead ∧ FlashCommandsActOnTheBanks

/-- Takeover and the watchdog (R499 to R502): an SRAM trap of the active core, and the watchdog's expiry, make the standby core
active and put the other under test, with the takeover counted and its event; without a core to take over, the active core
fails. A trap of the standby core fails it, in the health record too. A kick restarts the watchdog's period. -/
def Sys2Proof.Stmt.TheStandbyCoreTakesOver : Prop :=
  (∀ s : State, s.fe.powered = true → s.m.proc.sp0 = .active → s.m.proc.sp1 = .standby → s.m.proc.sp1Active = false →
    completes (.sramTrap false) s fun m' => m'.proc.sp0 = .test ∧ m'.proc.sp1 = .active ∧ m'.proc.sp1Active = true ∧
      m'.proc.takeovers = min 0xFFFF (s.m.proc.takeovers + 1) ∧ m'.proc.kickAt = s.m.tb.now ∧ m'.proc.flashBusy = none ∧
      m'.proc.spTest = none ∧ m'.sched.load = none ∧ m'.mem = s.m.mem ∧ m'.slices.map (·.lines) = s.m.slices.map (·.lines)) ∧
  (∀ s : State, s.fe.powered = true → s.m.proc.sp0 = .active → s.m.proc.sp1 = .failed → s.m.proc.sp1Active = false →
    completes (.sramTrap false) s fun m' => m' = event 0x0D04 0 0 { s.m with proc := { s.m.proc with sp0 := .failed } }) ∧
  (∀ s : State, s.fe.powered = true → s.m.proc.sp1 = .standby →
    completes (.sramTrap true) s fun m' => m'.proc = { s.m.proc with sp1 := .failed } ∧ m'.flash.coreFail.contains 1 = true ∧
      m'.mem = s.m.mem ∧ m'.rings = s.m.rings) ∧
  (∀ s : State, s.fe.powered = true → s.m.proc.sp0 = .active → s.m.proc.sp1 = .standby → s.m.proc.sp1Active = false →
    s.m.proc.kickAt + s.m.proc.wdtMs * 1000000 ≤ s.m.tb.now →
    completes .watchdogExpiry s fun m' => m'.proc.sp0 = .test ∧ m'.proc.sp1 = .active ∧ m'.proc.sp1Active = true ∧
      m'.proc.takeovers = min 0xFFFF (s.m.proc.takeovers + 1) ∧ m'.mem = s.m.mem) ∧
  (∀ s : State, s.m.tb.now < s.m.proc.kickAt + s.m.proc.wdtMs * 1000000 → exec .watchdogExpiry s = .next s) ∧
  (∀ s : State, s.fe.powered = true → s.m.proc.sp0 = .active → s.m.proc.sp1Active = false →
    completes .watchdogKick s fun m' => m' = { s.m with proc := { s.m.proc with kickAt := s.m.tb.now } }) ∧
  (∀ s : State, s.fe.powered = true → s.m.proc.sp1Active = true → s.m.proc.sp0 = .test → s.m.proc.spTest = none →
    completes (.spSelfTestEnd true) s (fun m' => m' = { s.m with proc := { s.m.proc with sp0 := .standby } }) ∧
    completes (.spSelfTestEnd false) s (fun m' => m'.proc = { s.m.proc with sp0 := .failed } ∧ m'.flash.coreFail.contains 0 = true ∧
      m'.mem = s.m.mem ∧ m'.rings = s.m.rings))

/-- Tests of the standby core and of an oscillator (R524, R525): each starts where its subject is free for it, and
its end completes the command with 0x00, or with 0xC1 and the subject marked failed. -/
def Sys2Proof.Stmt.SubjectsAreTested : Prop :=
  (∀ (h : AdminHdr) (s : State), accepted h 0x0004 s → s.m.proc.spTest = none → s.m.proc.sp1Active = false →
    (s.m.proc.sp1 = .standby → completes (.spTest h) s fun m' =>
      m' = { begun h 0x0004 s.m with proc := { (begun h 0x0004 s.m).proc with sp1 := .test, spTest := some (tagOf h 0x0004) } }) ∧
    (s.m.proc.sp1 ≠ .standby → completes (.spTest h) s fun m' => m' = done (tagOf h 0x0004) 0xC2 (begun h 0x0004 s.m))) ∧
  (∀ (c : AdminTag) (s : State), s.fe.powered = true → s.m.proc.spTest = some c → s.m.proc.sp1Active = false →
    completes (.spTestEnd true) s (fun m' => m' = done c 0x00 { s.m with proc := { s.m.proc with sp1 := .standby, spTest := none } }) ∧
    completes (.spTestEnd false) s (fun m' => ∃ x, m' = complete c 0xC1 0 1 x ∧ x.proc = { s.m.proc with sp1 := .failed, spTest := none } ∧
      x.flash.coreFail.contains 1 = true ∧ x.mem = s.m.mem ∧ x.rings = s.m.rings)) ∧
  (∀ (h : AdminHdr) (o : Nat) (s : State), accepted h 0x0005 s → o ≤ 1 →
    completes (.oscTest h o) s fun m' =>
      if s.m.tb.test.isSome then m' = done (tagOf h 0x0005) 0xC3 (begun h 0x0005 s.m)
      else if (o == 1) = s.m.tb.osc1 then m' = done (tagOf h 0x0005) 0xC2 (begun h 0x0005 s.m)
      else m' = { begun h 0x0005 s.m with tb := { s.m.tb with test := some (tagOf h 0x0005, o == 1) } }) ∧
  (∀ (pass o : Bool) (c : AdminTag) (s : State), s.fe.powered = true → s.m.tb.test = some (c, o) →
    completes (.oscTestEnd pass) s fun m' => ∃ x, m' = (if pass then done c 0x00 x else complete c 0xC1 0 (BitVec.ofNat 96 (num01 o)) x) ∧
      x.tb.test = none ∧ oscFailed x o = !pass ∧ oscFailed x (!o) = oscFailed s.m (!o) ∧ x.flash.oscFail.contains o = !pass ∧
      x.tb.osc1 = s.m.tb.osc1 ∧ x.mem = s.m.mem ∧ x.rings = s.m.rings ∧ x.proc = s.m.proc)

/-- Takeover, the watchdog and the tests of the standby core and of an oscillator (R499 to R502, R524, R525). -/
def Obligations.StandbyCoreTakesOverAndSubjectsAreTested : Prop :=
  TheStandbyCoreTakesOver ∧ SubjectsAreTested

/-- Image sets (R126, R129): a load begins where none is under way and the boot image permits it, and reads its buffer; its end, once
the buffer is read, stages a set that passes the checks and reports the first check that fails; an activation of the staged set
commits a swap to it, any other SET_ID gives 0x21, and a protection reload or integrity stop 0x22. -/
def Obligations.ImageSetsLoadAndActivate : Prop :=
  (∀ (h : AdminHdr) (w : BitVec 64) (n : Nat) (s : State), accepted h 0x0105 s →
    completes (.imageLoad h w n) s fun m' =>
      if s.m.sched.load.isSome ∨ activating s.m = true then m' = done (tagOf h 0x0105) 0x0D (begun h 0x0105 s.m)
      else if s.m.sched.runtimeLoad = false then m' = done (tagOf h 0x0105) 0x0E (begun h 0x0105 s.m)
      else if bufOk (begun h 0x0105 s.m) h.port w n = false then m' = done (tagOf h 0x0105) 0xE1 (begun h 0x0105 s.m)
      else ∃ ids x, readRange (adminBy (begun h 0x0105 s.m) h.port) w n (begun h 0x0105 s.m) = (ids, x) ∧
        m' = { x with sched := { x.sched with load := some (tagOf h 0x0105, w.toNat, n), loadIds := ids, staged := none } }) ∧
  (∀ (c : AdminTag) (w n : Nat) (src : Option (List Byte)) (x : Mod) (s : State), s.fe.powered = true →
    s.m.sched.load = some (c, w, n) → answered s.m s.m.sched.loadIds = true →
    sourceBytes s.m.sched.loadIds (BitVec.ofNat 64 w) n s.m = (src, x) →
    completes (.imageLoadEnd c.tag) s fun m' =>
      let y : Mod := { x with sched := { x.sched with load := none, loadIds := [] } }
      match src with
      | none => m' = done c 0xE1 y
      | some l => match loadChecks (trainedRegs s.m) l n with
        | none => m' = done c 0x00 { y with sched := { y.sched with staged := some (parseImage l) } }
        | some f => m' = complete c f.code 0 (BitVec.ofNat 96 (f.variant + f.tile * 2 ^ 8 + f.slot * 2 ^ 16)) y) ∧
  (∀ (tag : BitVec 64) (s : State), (∀ x, s.m.sched.load = some x → x.1.tag ≠ tag ∨ answered s.m s.m.sched.loadIds = false) → exec (.imageLoadEnd tag) s = .next s) ∧
  (∀ (h : AdminHdr) (id : Word64) (i : ImageSet) (s : State), accepted h 0x0106 s → s.m.sched.staged = some i → i.setId = id →
    s.m.prot.reload = none → s.m.prot.stop = none → s.m.sched.swap = none → s.m.sched.further = none →
    completes (.imageActivate h id) s fun m' =>
      let v := chooseVariant i (bandInForce s.m) s.m.therm.throttle
      m' = { begun h 0x0106 s.m with sched := { s.m.sched with
        activators := s.m.sched.activators ++ [tagOf h 0x0106]
        swap := some ⟨v.1, true, swapWait s.m, v.2, bandInForce s.m, s.m.therm.throttle⟩ } }) ∧
  (∀ (h : AdminHdr) (id : Word64) (s : State), accepted h 0x0106 s → s.m.prot.reload = none → s.m.prot.stop = none →
    (∀ i, s.m.sched.staged = some i → i.setId ≠ id) →
    completes (.imageActivate h id) s fun m' => m' = done (tagOf h 0x0106) 0x21 (begun h 0x0106 s.m)) ∧
  (∀ (h : AdminHdr) (id : Word64) (s : State), accepted h 0x0106 s → s.m.prot.reload ≠ none ∨ s.m.prot.stop ≠ none →
    completes (.imageActivate h id) s fun m' => m' = done (tagOf h 0x0106) 0x22 (begun h 0x0106 s.m))

/-- The channel test (R60 to R64): CHAN_TEST takes a free tile whose result buffer it can use; the end of a test that has taken every
channel completes it with the count of failing channels; a channel in hand whose tests have run and shown no failure loses its
mark and is recorded as passing. -/
def Obligations.ChannelsAreTested : Prop :=
  (∀ (h : AdminHdr) (t r : Nat) (s : State), accepted h 0x0201 s → t < 4 → 1 ≤ r → r ≤ 64 →
    let b := begun h 0x0201 s.m
    completes (.chanTest h t r) s fun m' =>
      if h.rlen < 144 ∨ bufOk b h.port h.rbuf 144 = false then m' = done (tagOf h 0x0201) 0xE2 b
      else if (s.m.tests[Fin.ofNat 4 t] : Option ChanTest).isSome then m' = done (tagOf h 0x0201) 0x12 b
      else ∃ x : ChanTest, (m'.tests[Fin.ofNat 4 t] : Option ChanTest) = some x ∧ x.cmd = tagOf h 0x0201 ∧ x.rows = r ∧
        x.links = 0 ∧ x.failing = false ∧ x.records.length = x.done ∧ (x.done < 18 → testable b (Fin.ofNat 4 t) x.done = true) ∧
        m' = { b with tests := m'.tests }) ∧
  (∀ (t : Tile) (x : ChanTest) (s : State), s.fe.powered = true → (s.m.tests[t] : Option ChanTest) = some x → 18 ≤ x.done →
    completes (.chanTestEnd t) s fun m' => m' = chanFinish t x false s.m) ∧
  (∀ (t : Tile) (x : ChanTest) (s : State), s.fe.powered = true → (s.m.tests[t] : Option ChanTest) = some x → x.done = 17 →
    testable s.m t 17 = true → (ownMark s.m t 17 = true → x.marked = true) → linkSlots ≤ x.links → x.failing = false →
    (∀ b < 64, x.rows * 64 ≤ tabGet 0 x.next b) → (s.m.packs[chanPack t 17] : PackSt).tests = [] →
    (s.m.packs[chanPack t 17] : PackSt).diag = none →
    completes (.chanTestEnd t) s fun m' => ∃ y : ChanTest, m' = chanFinish t y false (clearMark (chanPack t 17) (chanPos 17) s.m) ∧
      y.records = x.records ++ [(chanLoc t 17, 0)] ∧ y.cmd = x.cmd ∧ y.rbuf = x.rbuf) ∧
  (∀ (t : Tile) (s : State), (s.m.tests[t] : Option ChanTest) = none → exec (.chanTestEnd t) s = .next s)

/-! ### CXL.mem (*Host ports and the address map*, *Coherence with the hosts*) -/

/-- A port with CXL.mem traffic while the module runs: it decodes, nothing is held in a receive buffer, no conflict waits. -/
def Sys2Proof.Stmt.quietPort (p : Port) (s : State) : Prop :=
  s.fe.powered = true ∧ memDecodes s.m p = true ∧ s.m.power.state = 0 ∧ (s.m.ports.get p).sweeping = false ∧
  s.m.ports.a.rxBuf = [] ∧ s.m.ports.b.rxBuf = [] ∧ (s.m.ports.get p).conflicts = []

/-- A request that meets no obstacle: its port decodes it and has a tracker entry for it, region `r` admits it, its tile takes
requests, and its line has no snoop, fill or earlier request open. -/
def Sys2Proof.Stmt.meets (q : MReq) (r : BitVec 128) (s : State) : Prop :=
  quietPort q.port s ∧ deadModule s.m = false ∧ s.m.prot.reload = none ∧ (s.m.ports.get q.port).viralRx = false ∧
  trackRoom s.m q.port (wLabel q.w) (isWrite q) = true ∧ (∀ t ∈ (s.m.ports.get q.port).tracker, t.tag ≠ q.tag) ∧
  (∀ t : Tile, (s.m.filters[t] : FilterSt).snps = []) ∧ wAper q.w = 0 ∧ regionOf s.m (wOff q.w) = some r ∧
  violation s.m q.port q.w true = none ∧ tileReady s.m (rgTile r) = true ∧ keyServes s.m (wKey q.w) = true ∧
  (s.m.slices[rgTile r] : Slice).sweep = false ∧ (s.m.filters[rgTile r] : FilterSt).broadcast = false ∧
  (s.m.filters[rgTile r] : FilterSt).waiters = [] ∧ (s.m.filters[rgTile r] : FilterSt).resv = [] ∧
  findEnt s.m.filters[rgTile r] (wLine q.w) = none ∧ findMiss s.m.slices[rgTile r] 0 (wOff q.w) = none ∧
  inService s.m (rgTile r) (wLine q.w) = false

/-- The grant of a request of a line that the other port does not hold (R224). -/
def Sys2Proof.Stmt.soleGrant (q : MReq) : Grant := (grantRow q.kind q.mv false false).2

/-- A grant needs a way: the filter set of the line has two free ones, so that no eviction starts (R233, R234). -/
def Sys2Proof.Stmt.waysFree (q : MReq) (r : BitVec 128) (s : State) : Prop :=
  soleGrant q ≠ .none → (setEnts s.m.filters[rgTile r] (filtSet (wLine q.w))).length < 15

/-- A line under the request's key id that holds the sector asked for. -/
def Sys2Proof.Stmt.holdsSector (q : MReq) (r : BitVec 128) (l : Line) (s : State) : Prop :=
  findLine s.m.slices[rgTile r] 0 (wOff q.w) = some l ∧ l.keyId = wKey q.w ∧ l.svalid.getLsbD (wOff q.w / 64 % 4) = true

/-- What a served request leaves alone: the DRAM image, the packs, the write buffer, the tracker, and everything behind the ports
but what was sent, the counters of labels and performance, the bandwidth window, the power state and the slices and filters. -/
def Sys2Proof.Stmt.servedFrame (m m' : Mod) : Prop :=
  m'.ports.a.tracker = m.ports.a.tracker ∧ m'.ports.b.tracker = m.ports.b.tracker ∧
  ∃ a b c d e f g h, m' = { m with ports := a, out := b, labels := c, perf := d, bw := e, power := f, slices := g, filters := h }

/-- What a read that hits does (R193, R224, R226, R415): the sector returns with the grant of its row, 64 read bytes of its label are
counted, the line is the most recently used; with a grant the port is present, exclusive when that is Cmp-E. -/
def Sys2Proof.Stmt.readHits (c : Instr) (q : MReq) (r : BitVec 128) (s : State) : Prop :=
  ∀ l, meets q r s → waysFree q r s → holdsSector q r l s →
    completes c s fun m' => servedFrame s.m m' ∧
      m'.out = .memData q.port q.tag (sectorOf l.data (wOff q.w / 64 % 4)) l.poison (soleGrant q) :: .credit q.port 0 :: s.m.out ∧
      m'.slices = s.m.slices.set (rgTile r) (putLine { l with rrpv := 0 } s.m.slices[rgTile r]) ∧
      (m'.labels[(wLabel q.w).toNat]'(wLabel q.w).isLt).rd = (s.m.labels[(wLabel q.w).toNat]'(wLabel q.w).isLt).rd + 64 ∧
      (soleGrant q = .none → m'.filters = s.m.filters) ∧
      (soleGrant q ≠ .none → ∃ e, findEnt m'.filters[rgTile r] (wLine q.w) = some e ∧ entPres e q.port = true ∧
        entPres e q.port.other = false ∧ entKey e q.port = wKey q.w ∧ entLabel e q.port = wLabel q.w ∧
        e.excl = decide (soleGrant q = .excl))

/-- Reads that hit (R224, R226, R193, R415): MemRd and MemRdData of a valid sector that no port holds; MemRdData without a MetaValue
is served as MemRd. -/
def Obligations.ReadsThatHitReturnTheSector : Prop :=
  (∀ (r : M2SReq) (g : BitVec 128) (s : State), readHits (.memRd r) (ofReq .memRd false r) g s) ∧
  (∀ (r : M2SReq) (g : BitVec 128) (s : State), r.mv ≠ .noOp → readHits (.memRdData r) (ofReq .memRdData false r) g s) ∧
  (∀ (r : M2SReq) (g : BitVec 128) (s : State), r.mv = .noOp → readHits (.memRdData r) (ofReq .memRd false r) g s)

/-- What a write that hits does (R150, R172, R198, R226): its enabled bytes replace those of the sector, which becomes dirty; Cmp
returns with no state. -/
def Sys2Proof.Stmt.writeHits (c : Instr) (q : MReq) (r : BitVec 128) (s : State) : Prop :=
  ∀ l, meets q r s → holdsSector q r l s → q.mv = .noOp ∨ q.mv = .invalid → rgElastic r = false → rgMirror r = false → rgWpol r = 0 →
    (s.m.slices[rgTile r] : Slice).locked = 0 → q.poison = false →
    completes c s fun m' => servedFrame s.m m' ∧ m'.out = .ndr q.port q.tag .none :: .credit q.port 1 :: s.m.out ∧
      m'.filters = s.m.filters ∧
      ∃ n, findLine m'.slices[rgTile r] 0 (wOff q.w) = some n ∧
        n.data = putSector l.data (wOff q.w / 64 % 4) (mergeBytes (sectorOf l.data (wOff q.w / 64 % 4)) q.data q.en) ∧
        n.sdirty.getLsbD (wOff q.w / 64 % 4) = true ∧ n.svalid = l.svalid ∧ n.keyId = l.keyId ∧ n.label = wLabel q.w ∧ n.rrpv = 0 ∧
        (l.poison = false → n.poison = false)

/-- Writes that hit (R150, R172, R198, R226): MemWr replaces a valid sector of a line of a write-back region, MemWrPtl its enabled
bytes. -/
def Obligations.WritesThatHitMergeTheSector : Prop :=
  (∀ (r : M2SRwD) (g : BitVec 128) (s : State), writeHits (.memWr r) (ofRwD .memWr r) g s) ∧
  (∀ (r : M2SRwD) (g : BitVec 128) (s : State), writeHits (.memWrPtl r) (ofRwD .memWrPtl r) g s)

/-- What an invalidation of a line that no port holds does (R224): Cmp with the grant of its row, and no data. -/
def Sys2Proof.Stmt.invalidates (c : Instr) (q : MReq) (r : BitVec 128) (s : State) : Prop :=
  meets q r s → waysFree q r s →
    completes c s fun m' => servedFrame s.m m' ∧ m'.out = .ndr q.port q.tag (soleGrant q) :: .credit q.port 0 :: s.m.out ∧
      m'.slices = s.m.slices

/-- MemInv, MemInvNT and MemSpecRd (R158, R170, R224): an invalidation of a line that no port holds returns Cmp with the grant of its
row and no data; MemSpecRd only returns its credit. -/
def Obligations.InvalidationsAndSpeculativeReadsAnswer : Prop :=
  (∀ (r : M2SReq) (g : BitVec 128) (s : State), invalidates (.memInv r) (ofReq .memInv false r) g s) ∧
  (∀ (r : M2SReq) (g : BitVec 128) (s : State), invalidates (.memInvNt r) (ofReq .memInvNt false r) g s) ∧
  (∀ (r : M2SReq) (s : State), s.fe.powered = true → memDecodes s.m r.port = true → s.m.power.state = 0 →
    completes (.memSpecRd r) s fun m' => m'.out = .credit r.port 0 :: s.m.out ∧
      ∃ b d f, m' = { s.m with out := b, perf := d, power := f })

/-- A request of a port that meets no obstacle before R164. -/
def Sys2Proof.Stmt.reachesChecks (p : Port) (tag : BitVec 16) (w : BitVec 53) (wr : Bool) (s : State) : Prop :=
  quietPort p s ∧ trackRoom s.m p (wLabel w) wr = true ∧ (∀ t ∈ (s.m.ports.get p).tracker, t.tag ≠ tag)

/-- What a violation of kind `k` does (R165, R186): it is answered, with nothing performed; PORT_VIOL keeps the first, VIOLCOUNT
counts it, PORT_ERR.VIOL is set. -/
def Sys2Proof.Stmt.violates (c : Instr) (p : Port) (answer : Out) (w : BitVec 53) (k : Nat) (wr : Bool) (s : State) : Prop :=
  completes c s fun m' => answer ∈ m'.out ∧
    m'.mem = s.m.mem ∧ m'.slices.map (·.lines) = s.m.slices.map (·.lines) ∧ m'.filters = s.m.filters ∧
    (m'.ports.get p).err.getLsbD 0 = true ∧
    (m'.ports.get p).violCount = min 0xFFFF_FFFF ((s.m.ports.get p).violCount + 1) ∧
    ((s.m.ports.get p).viol = none → (m'.ports.get p).viol = some ⟨w, BitVec.ofNat 3 k, wr⟩) ∧
    (∀ v, (s.m.ports.get p).viol = some v → (m'.ports.get p).viol = some v)

/-- Violations (R158, R164 to R166, R186): a request that fails a permission check is answered with poisoned data, and one with an
unsupported opcode as a MemRd, or with Cmp on M2S RwD; nothing is performed, and the violation is logged. A CXL.cache message that
no host is expected to send is a protocol error, with its event. -/
def Obligations.ViolationsAreAnsweredAndLogged : Prop :=
  (∀ (r : M2SReq) (k : Nat) (s : State), reachesChecks r.port r.tag r.w false s → violation s.m r.port r.w true = some k →
    violates (.memRd r) r.port (.memData r.port r.tag 0 true .none) r.w k false s) ∧
  (∀ (r : M2SReq) (opcode : Byte) (k : Nat) (s : State), reachesChecks r.port r.tag r.w false s → violation s.m r.port r.w false = some k →
    violates (.m2sOpcodeUnsupported (.req r) opcode) r.port (.memData r.port r.tag 0 true .none) r.w k false s) ∧
  (∀ (r : M2SReq) (opcode : Byte) (k : Nat) (s : State), reachesChecks r.port r.tag r.w true s → violation s.m r.port r.w false = some k →
    violates (.m2sOpcodeUnsupported (.rwd r) opcode) r.port (.ndr r.port r.tag .none) r.w k true s) ∧
  (∀ (p : Port) (chan : Fin 3) (opcode : Byte) (s : State), s.fe.powered = true → portTalks s.m p = true → s.m.power.state = 0 →
    completes (.m2sOpcodeUnsupported (.cache p chan) opcode) s fun m' =>
      m' = event 0x0307 0 (p.num + chan.val * 2 + opcode.toNat * 256) (setRas p .cacheProtocol (touch s.m)))

/-- A BIRsp of an open BISnp that nothing waits for. -/
def Sys2Proof.Stmt.answersSnp (p : Port) (tag : Nat) (t : Tile) (x : OpenSnp) (e : FEntry) (s : State) : Prop :=
  quietPort p s ∧ (s.m.filters[t] : FilterSt).snps = [x] ∧ x.port = p ∧ x.sent = true ∧ x.tag = tag ∧
  (∀ u : Tile, u ≠ t → (s.m.filters[u] : FilterSt).snps = []) ∧ (s.m.filters[t] : FilterSt).waiters = [] ∧
  (s.m.tiers[t] : TierSt).trims = [] ∧ findEnt s.m.filters[t] x.line = some e ∧
  (∀ y ∈ (s.m.filters[t] : FilterSt).entries, y.set = e.set → y.tag = e.tag → y = e)

/-- BIRsp (R226, R229, R233): its credit returns and its BISnp is closed; BIRspI clears the port's presence, and the entry goes when
no port is left; BIRspS leaves the port present and shared; BIRspE leaves the entry as it was. A BIRsp that answers no open
BISnp is discarded with its event. -/
def Sys2Proof.Stmt.BackInvalidateResponsesCloseSnoops : Prop :=
  (∀ (p : Port) (tag : Nat) (t : Tile) (x : OpenSnp) (e : FEntry) (s : State), answersSnp p tag t x e s →
    completes (.biRspI p tag) s (fun m' => m'.out = .credit p 2 :: s.m.out ∧ (m'.filters[t] : FilterSt).snps = [] ∧
      (entPres e p.other = false → findEnt m'.filters[t] x.line = none) ∧
      (entPres e p.other = true → ∃ y, findEnt m'.filters[t] x.line = some y ∧ entPres y p = false ∧ entPres y p.other = true ∧ y.pend = false)) ∧
    completes (.biRspS p tag) s (fun m' => m'.out = .credit p 2 :: s.m.out ∧ (m'.filters[t] : FilterSt).snps = [] ∧
      ∃ y, findEnt m'.filters[t] x.line = some y ∧ entPres y p = true ∧ y.excl = false ∧ y.pend = false) ∧
    (e.presA = true ∨ e.presB = true →
      completes (.biRspE p tag) s (fun m' => m'.out = .credit p 2 :: s.m.out ∧ (m'.filters[t] : FilterSt).snps = [] ∧
        findEnt m'.filters[t] x.line = some { e with pend := false }))) ∧
  (∀ (p : Port) (tag : Nat) (s : State), s.fe.powered = true → memDecodes s.m p = true → s.m.power.state = 0 →
    (∀ t : Tile, ∀ x ∈ (s.m.filters[t] : FilterSt).snps, ¬ (x.port = p ∧ x.sent = true ∧ x.tag = tag)) →
    completes (.biRspI p tag) s (fun m' => m' = event 0x0307 0 (p.num + 6) (send (.credit p 2) (touch s.m))) ∧
    completes (.biRspS p tag) s (fun m' => m' = event 0x0307 0 (p.num + 6 + 256) (send (.credit p 2) (touch s.m))) ∧
    completes (.biRspE p tag) s (fun m' => m' = event 0x0307 0 (p.num + 6 + 512) (send (.credit p 2) (touch s.m))))

/-- Conflicts, credits and the receive buffer (R170, R229, R232, R413, R582): BIConflict returns its credit and is acknowledged at once
when no message of its line is awaited; returned credits are held; a held request moves into the tracker when its label has an
entry; a freed dispatcher entry goes to the request that waits for it, a write's batt then enters the write buffer, and the
tile goes on. -/
def Sys2Proof.Stmt.CreditsAndHeldRequestsMove : Prop :=
  (∀ (p : Port) (tag : BitVec 16) (w : BitVec 53) (s : State), s.fe.powered = true → memDecodes s.m p = true → s.m.power.state = 0 →
    (s.m.ports.get p).conflicts = [] → conflictAwaits s.m p w = [] →
    completes (.biConflict p tag w) s fun m' => m' = send (.biConflictAck p tag) (send (.credit p 0) (touch s.m))) ∧
  (∀ (p : Port) (n : Nat) (s : State), s.fe.powered = true → (s.m.ports.get p).inReset = false → (s.m.ports.get p).linkUp = true →
    (∀ t : Tile, (s.m.filters[t] : FilterSt).snps = []) →
    completes (.bisnpCreditReturn p false n) s fun m' =>
      m' = { s.m with ports := s.m.ports.set p { s.m.ports.get p with snpCredit := (s.m.ports.get p).snpCredit + n } }) ∧
  (∀ (p : Port) (n : Nat) (s : State), s.fe.powered = true → (s.m.ports.get p).inReset = false → (s.m.ports.get p).linkUp = true →
    (s.m.ports.get p).d2hWait = [] → (∀ q, (s.m.rings.get q).rings = []) →
    completes (.bisnpCreditReturn p true n) s fun m' =>
      m' = { s.m with ports := s.m.ports.set p { s.m.ports.get p with d2hCredit := (s.m.ports.get p).d2hCredit + n } }) ∧
  (∀ (p : Port) (l : BitVec 3) (wr : Bool) (i : Nat) (q : MReq) (s : State), s.fe.powered = true → heldAnswer s.m .a = none →
    heldAnswer s.m .b = none → oldestHeld s.m p l wr = some i → (s.m.ports.get p).rxBuf[i]? = some q → trackRoom s.m p l wr = true →
    completes (.receiveBufferRelease p l wr) s fun m' => m' = track q { s.m with
      ports := s.m.ports.set p { s.m.ports.get p with rxBuf := (s.m.ports.get p).rxBuf.eraseIdx i } }) ∧
  (∀ (pk : Pack) (c : SlotClass) (q : DReq) (s : State), s.fe.powered = true → (s.m.packs[pk] : PackSt).waiting = [q] → q.cls = c →
    (dispAdmit s.m s.m.packs[pk] q).1 = true → (∀ sp t a, q.why ≠ .line sp t a) →
    (q.write = false ∨ c = .scrub ∨ writeRoom s.m (daTile q.da) c q.kind (reqBatts q).length = true) →
    let t := daTile q.da
    let mine (e : WEntry) : Bool := q.write && (reqBatts q).contains e.da
    completes (.poolEntryFree (.dispatch pk c)) s fun m' => ∃ x, m' = wakeTile t x ∧
      (x.packs[pk] : PackSt).queue = (s.m.packs[pk] : PackSt).queue ++ [q] ∧ (x.packs[pk] : PackSt).waiting = [] ∧
      (∀ p : Pack, p ≠ pk → (x.packs[p] : PackSt) = s.m.packs[p]) ∧
      x = { s.m with packs := x.packs, wbuf := s.m.wbuf.set t ((s.m.wbuf[t] : List WEntry) ++ (s.m.wbWait[t] : List WEntry).filter mine),
                     wbWait := s.m.wbWait.set t ((s.m.wbWait[t] : List WEntry).filter (fun e => !mine e)) }) ∧
  (∀ (pk : Pack) (c : SlotClass) (s : State), (s.m.packs[pk] : PackSt).waiting = [] →
    exec (.poolEntryFree (.dispatch pk c)) s = .next s) ∧
  (∀ (t : Tile) (s : State), (s.m.slices[t] : Slice).missWait = [] →
    exec (.poolEntryFree (.miss t)) s = .next s ∧ exec (.poolEntryFree (.transit t)) s = .next s)

/-- BIRsp, BIConflict, credits and the receive buffer (R170, R226, R229, R232, R233, R413, R582). -/
def Obligations.SnoopsCloseAndHeldRequestsMove : Prop :=
  BackInvalidateResponsesCloseSnoops ∧ CreditsAndHeldRequestsMove

/-! ### Doorbell lines and rings (*Rings and doorbells*; R247 to R250) -/

/-- A port that exchanges messages with its host while the module runs. -/
def Sys2Proof.Stmt.talking (p : Port) (s : State) : Prop :=
  s.fe.powered = true ∧ portTalks s.m p = true ∧ s.m.power.state = 0

/-- A talking port whose function takes memory requests: it is not in D3hot. -/
def Sys2Proof.Stmt.reachable (p : Port) (s : State) : Prop := talking p s ∧ (s.m.ports.get p).d3hot = false

/-- What SnpData and SnpCur do (R248): a held line answers RspSHitSE and stays, any other RspIHitI. -/
def Sys2Proof.Stmt.leavesLine (c : Instr) (p : Port) (a : Nat) (s : State) : Prop :=
  talking p s → completes c s fun m' =>
    m'.out = .h2dRsp p a (if (s.m.ports.get p).dbHeld.contains a then .rspSHitSE else .rspIHitI) :: s.m.out ∧
    ∃ b d f, m' = { s.m with out := b, perf := d, power := f }

/-- H2D snoops (R248, R249, R328): SnpInv takes a held doorbell line, which is read again with RdShared while a running ring has its
slot there; during an open read of the line, or with no copy, it is answered RspIHitI, no copy stays, and one more read follows an
open one. SnpData and SnpCur leave the line. -/
def Sys2Proof.Stmt.SnoopsOfDoorbellLinesAreAnswered : Prop :=
  (∀ (p : Port) (a : Nat) (s : State), talking p s → dbReading s.m p a = true ∨ a ∉ (s.m.ports.get p).dbHeld →
    completes (.snpInv p a) s fun m' => m'.out = .h2dRsp p a .rspIHitI :: s.m.out ∧ m'.rings = s.m.rings ∧
      m'.ports = s.m.ports.set p { s.m.ports.get p with
        dbHeld := (s.m.ports.get p).dbHeld.filter (· != a)
        dbOpen := (s.m.ports.get p).dbOpen.map (fun d => if d.1 == a then (a, true) else d) } ∧ m'.mem = s.m.mem) ∧
  (∀ (p : Port) (a : Nat) (s : State), talking p s → a ∈ (s.m.ports.get p).dbHeld → dbReading s.m p a = false →
    (s.m.ports.get p).d2hCredit ≠ 0 → cacheOn (s.m.ports.get p) = true → (s.m.ports.get p).viralRx = false → lineRings s.m p a ≠ [] →
    (∀ r ∈ lineRings s.m p a, phased (cfgType (ringAt s.m p r).cfg) = false) →
    completes (.snpInv p a) s fun m' => m'.out = .rdShared p a :: .h2dRsp p a .rspIHitSE :: s.m.out ∧ m'.rings = s.m.rings ∧
      m'.ports = s.m.ports.set p { s.m.ports.get p with
        dbHeld := (s.m.ports.get p).dbHeld.filter (· != a), dbOpen := (s.m.ports.get p).dbOpen ++ [(a, false)]
        d2hCredit := (s.m.ports.get p).d2hCredit - 1 } ∧ m'.mem = s.m.mem) ∧
  (∀ (p : Port) (a : Nat) (s : State), leavesLine (.snpData p a) p a s) ∧
  (∀ (p : Port) (a : Nat) (s : State), leavesLine (.snpCur p a) p a s)

/-- A doorbell line that was read once comes, for one ring of a port that is not contained. -/
def Sys2Proof.Stmt.doorbellComes (p : Port) (a r : Nat) (s : State) : Prop :=
  talking p s ∧ (s.m.ports.get p).viralRx = false ∧ (a, false) ∈ (s.m.ports.get p).dbOpen ∧
    (∀ d ∈ (s.m.ports.get p).dbOpen, d.1 = a → d = (a, false)) ∧ lineRings s.m p a = [r]

/-- Doorbell reads and entry reads (R249, R329 to R331, R337, R340, R173): a doorbell line that comes is held, and its ring takes the
producer count of its slot, or halts when the count runs past the ring; an entry line that comes gives its job ring one job and
advances its consumer count; poisoned lines halt their rings. What may be fetched then is; a line that no running ring names any
more goes. -/
def Sys2Proof.Stmt.DoorbellsAndEntriesArrive : Prop :=
  (∀ (p : Port) (a : Nat) (data : Sector) (r : Nat) (s : State), doorbellComes p a r s →
    let g := ringAt s.m p r
    let v : Word32 := bitsOf data (32 * cfgDbSlot g.cfg) 32
    g.check = 0 → moduleProduced (cfgType g.cfg) = false → g.state = 1 → (s.m.rings.get p).held = [] →
    ((v - g.midx).toNat ≤ 2 ^ cfgLog2n g.cfg → completes (.rdSharedData p a data false) s fun m' => ∃ x, m' = dropUnnamed p (fetchPump x) ∧
      ringAt x p r = { g with hidx := v } ∧ (x.ports.get p).dbHeld.contains a = true ∧ (x.ports.get p).dbOpen.all (fun d => d.1 != a) = true ∧
      x.out = s.m.out ∧ x.mem = s.m.mem) ∧
    (2 ^ cfgLog2n g.cfg < (v - g.midx).toNat → completes (.rdSharedData p a data false) s fun m' => ∃ x, m' = dropUnnamed p (fetchPump x) ∧
      (ringAt x p r).state = 2 ∧ (ringAt x p r).status = 1 ∧ x.mem = s.m.mem)) ∧
  (∀ (p : Port) (a : Nat) (data : Sector) (r : Nat) (s : State), doorbellComes p a r s →
    completes (.rdSharedData p a data true) s fun m' => ∃ x, m' = dropUnnamed p (fetchPump x) ∧
      (ringAt x p r).state = 2 ∧ (ringAt x p r).status = 5 ∧ (x.ports.get p).err.getLsbD 1 = true ∧ x.mem = s.m.mem) ∧
  (∀ (p : Port) (a : Nat) (data : Sector) (i r : Nat) (s : State), talking p s → (s.m.ports.get p).viralRx = false → r < 256 →
    let g := ringAt s.m p r
    (s.m.rings.get p).reads.findIdx? (fun x => x.2.2 == a) = some i → (s.m.rings.get p).reads[i]? = some (r, g.midx, a) →
    g.state = 1 → cfgType g.cfg = 6 → deadModule s.m = false → (s.m.rings.get p).held = [] → below g.midx g.hidx = true →
    (g.midx + 1 - g.shadowed).toNat < 2 ^ cfgLog2n g.cfg / 8 →
    completes (.rdCurrData p a data false) s fun m' => ∃ x, m' = fetchPump x ∧
      ringAt x p r = { g with midx := g.midx + 1, reread := false } ∧ (x.rings.get p).jobs = (s.m.rings.get p).jobs ++ [(r, data)] ∧
      (x.rings.get p).reads = (s.m.rings.get p).reads.eraseIdx i ∧ (x.rings.get p).held = [] ∧ x.out = s.m.out ∧ x.mem = s.m.mem) ∧
  (∀ (p : Port) (a : Nat) (data : Sector) (i : Nat) (c : Word32) (r : Nat) (s : State), talking p s → r < 256 →
    (s.m.rings.get p).reads.findIdx? (fun x => x.2.2 == a) = some i → (s.m.rings.get p).reads[i]? = some (r, c, a) →
    (ringAt s.m p r).state = 1 →
    completes (.rdCurrData p a data true) s fun m' => (ringAt m' p r).state = 2 ∧ (ringAt m' p r).status = 5 ∧
      (m'.ports.get p).err.getLsbD 1 = true ∧ m'.mem = s.m.mem)

/-- Doorbell lines and host-produced rings (R248, R249, R329 to R331, R337, R340, R173). -/
def Obligations.DoorbellLinesAreReadAndRingsFetch : Prop :=
  SnoopsOfDoorbellLinesAreAnswered ∧ DoorbellsAndEntriesArrive

/-- Line writes and interrupts (R324, R332, R335): GO_WritePull sends the line's data; GO makes its entries visible and counts them
for the ring's message; the message leaves when its time has passed; the shadow timer writes an advance that nothing has
reported. -/
def Obligations.LineWritesAndMessagesLeave : Prop :=
  (∀ (p : Port) (a i : Nat) (w : OpenWrite) (s : State), talking p s → (2, a) ∉ (s.m.ports.get p).d2hWait →
    (s.m.rings.get p).writes.findIdx? (fun w => w.addr == a && !w.pulled) = some i → (s.m.rings.get p).writes[i]? = some w →
    completes (.goWritePull p a) s fun m' => m' = send (.itoMWrData p a w.data) { touch s.m with
      rings := s.m.rings.set p { s.m.rings.get p with writes := (s.m.rings.get p).writes.modify i (fun w => { w with pulled := true }) } }) ∧
  (∀ (p : Port) (a i : Nat) (w : OpenWrite) (s : State), talking p s → s.m.power.sleepAfter = none →
    (s.m.rings.get p).writes.findIdx? (fun w => w.addr == a && w.pulled) = some i → (s.m.rings.get p).writes[i]? = some w → w.ring < 256 →
    let g := ringAt s.m p w.ring
    let n := if below g.visible w.count then (w.count - g.visible).toNat else 0
    cfgIrq g.cfg = false ∨ (g.modCount + n < cfgModCount g.cfg ∧ g.modSince = none) →
    completes (.go p a) s fun m' => (m'.rings.get p).writes = (s.m.rings.get p).writes.eraseIdx i ∧
      ringAt m' p w.ring = { g with visible := (if below g.visible w.count then w.count else g.visible), modCount := g.modCount + n } ∧
      m'.out = s.m.out ∧ m'.mem = s.m.mem) ∧
  (∀ (p : Port) (r : RingNo) (s : State), s.fe.powered = true → (s.m.ports.get p).viralRx = false →
    let g := ringAt s.m p r.val
    let e := tabGet (0, 0) (s.m.ports.get p).msixTab (cfgVector g.cfg)
    modTimeUp s.m g = true → cfgIrq g.cfg = true → g.modCount ≠ 0 →
    completes (.modTimeExpiry p r) s fun m' => (ringAt m' p r.val).modCount = 0 ∧
      ((s.m.ports.get p).inReset = false → (s.m.ports.get p).linkUp = true → (s.m.ports.get p).msixOn.contains (cfgVector g.cfg) = true →
        m'.out = .msix p (cfgVector g.cfg) e.1 e.2 :: s.m.out) ∧ m'.mem = s.m.mem) ∧
  (∀ (p : Port) (r : RingNo) (s : State), s.fe.powered = true → (s.m.ports.get p).viralRx = false →
    let g := ringAt s.m p r.val
    g.state = 1 → hostProduced (cfgType g.cfg) = true → g.shadowed ≠ g.midx →
    completes (.shadowWriteTimer p r) s fun m' => ringAt m' p r.val = { g with shadowed := g.midx } ∧
      (∃ w ∈ (m'.rings.get p).writes, w.addr = g.shadow.toNat ∧ w.data = g.midx.setWidth 512 ∧ w.count = g.midx ∧ w.pulled = false) ∧
      m'.mem = s.m.mem) ∧
  (∀ s : State, s.fe.powered = true → completes .fetchWindow s fun m' =>
    m' = { s.m with rings := s.m.rings.map (fun _ x => { x with lines := [] }) })

/-- Enabling and disabling (R336 to R338, R328, R555): a configuration that passes the checks starts its ring with both counts 0 and
reads its doorbell line; one that fails leaves STATE 0 with code 9; a write from the sideband or from the other port is an error.
A disabled host-produced ring stops. A poll reads the doorbell line of every running ring. -/
def Obligations.RingsStartAndStop : Prop :=
  (∀ (src : Source) (q : Port) (r : RingNo) (value : Word64) (s : State), reachable q s → src.port = some q →
    let v := value &&& ~~~0x0000_FFF0_0000_0000#64
    let g := ringAt s.m q r.val
    cfgEnable g.cfg = false → cfgEnable v = true → (s.m.ports.get q).viralRx = false →
    (enableOk s.m q r.val v = true → dbReading s.m q g.db.toNat = false → completes (.ringEnable src q r value) s fun m' =>
      (ringAt m' q r.val).state = 1 ∧ (ringAt m' q r.val).midx = 0 ∧ (ringAt m' q r.val).hidx = 0 ∧ (ringAt m' q r.val).cfg = v ∧
      (ringAt m' q r.val).base = g.base ∧ (ringAt m' q r.val).db = g.db ∧ dbReading m' q g.db.toNat = true ∧ m'.mem = s.m.mem ∧
      ((s.m.ports.get q).d2hCredit ≠ 0 → cacheOn (s.m.ports.get q) = true → m'.out = .rdShared q g.db.toNat :: s.m.out)) ∧
    (enableOk s.m q r.val v = false → completes (.ringEnable src q r value) s fun m' =>
      ringAt m' q r.val = { g with cfg := v &&& ~~~1#64, state := 0, status := 9 } ∧ m'.out = s.m.out ∧ m'.ports = s.m.ports)) ∧
  (∀ (q : Port) (r : RingNo) (value : Word64) (s : State), s.fe.powered = true → s.m.conn.ir ≠ 3 → s.m.power.state = 0 →
    completes (.ringEnable .sideband q r value) s (fun m' => m' = regError (ringRegOff q r.val 1) 2 6 s.m) ∧
    completes (.ringDisable .sideband q r value) s (fun m' => m' = regError (ringRegOff q r.val 1) 2 6 s.m)) ∧
  (∀ (src : Source) (q : Port) (r : RingNo) (value : Word64) (s : State), reachable q.other s → src.port = some q.other →
    completes (.ringEnable src q r value) s (fun m' => m' = regError (ringRegOff q r.val 1) src.code 2 (touch s.m)) ∧
    completes (.ringDisable src q r value) s (fun m' => m' = regError (ringRegOff q r.val 1) src.code 2 (touch s.m))) ∧
  (∀ (src : Source) (q : Port) (r : RingNo) (value : Word64) (s : State), reachable q s → src.port = some q →
    let v := value &&& ~~~0x0000_FFF0_0000_0000#64
    let g := ringAt s.m q r.val
    cfgEnable g.cfg = true → cfgEnable v = false → (v ^^^ g.cfg) &&& ~~~1#64 = 0 → cfgType g.cfg = 2 ∨ cfgType g.cfg = 4 ∨ cfgType g.cfg = 5 →
    completes (.ringDisable src q r value) s fun m' => ∃ x, m' = fetchPump x ∧ (ringAt x q r.val).state = 0 ∧ (ringAt x q r.val).cfg = v ∧
      (ringAt x q r.val).wait = [] ∧ (ringAt x q r.val).midx = g.midx ∧ (ringAt x q r.val).shadowed = g.midx ∧
      (x.rings.get q).held.all (fun y => y.1 != r.val) = true ∧ (x.rings.get q).reads.all (fun y => y.1 != r.val) = true ∧ x.mem = s.m.mem) ∧
  (∀ (p : Port) (s : State), s.fe.powered = true → portTalks s.m p = true → (s.m.ports.get p).viralRx = false →
    completes (.doorbellPoll p) s fun m' => (∀ x ∈ (s.m.rings.get p).rings, x.2.state = 1 ∨ x.2.state = 3 → dbReading m' p x.2.db.toNat = true) ∧
      m'.rings = s.m.rings ∧ m'.mem = s.m.mem ∧ (m'.ports.get p).dbHeld = (s.m.ports.get p).dbHeld)

/-! ### Links, resets, configuration and mailbox (*Host ports and the address map*) -/

/-- Links (R155 to R157, R170, R174, R175, R183, R523): a link that trains comes up at its rate and width, degraded below x16 or 16 GT/s
with its event, and the port advertises its credits; L0p changes the active width; a failed change, and viral from the host, set
their error bits with their events, and viral is sent back. -/
def Sys2Proof.Stmt.LinksTrainAndDegrade : Prop :=
  (∀ (p : Port) (rate : LinkRate) (width : LinkWidth) (lopt : Bool) (s : State), s.fe.powered = true → (s.m.ports.get p).inReset = false →
    (s.m.ports.get p).sweeping = false → (s.m.ports.get p).badHalf = none → s.m.viral = false →
    let q : PortSt := { s.m.ports.get p with
      linkUp := true, rate := rate, width := width, active := (if width == .x16 then 0 else 1), lopt := lopt, l0pReq := none
      degraded := (rate == .low || width != .x16) }
    completes (.linkUp p rate width lopt) s fun m' => m' = send (.credits p 128 64 64)
      (if rate ≠ .low ∧ width = .x16 then { s.m with ports := s.m.ports.set p q }
       else degradedEvent p 0 { s.m with ports := s.m.ports.set p { q with err := q.err ||| 64#8 } })) ∧
  (∀ (p : Port) (w : Fin 4) (s : State), s.fe.powered = true → portTalks s.m p = true → (s.m.ports.get p).laneTest = none →
    completes (.l0pRequest p w) s fun m' => m' = { s.m with ports := s.m.ports.set p { s.m.ports.get p with
      l0pReq := none, active := if (s.m.ports.get p).width == .x16 then w.val else max 1 w.val } }) ∧
  (∀ (p : Port) (w : Fin 4) (s : State), s.fe.powered = true → (s.m.ports.get p).linkUp = true →
    completes (.l0pFail p w) s fun m' => m' = event 0x0303 0 (p.num + w.val * 2) { s.m with
      ports := s.m.ports.set p { s.m.ports.get p with err := (s.m.ports.get p).err ||| 32#8, l0pReq := none } }) ∧
  (∀ (p : Port) (s : State), s.fe.powered = true → portTalks s.m p = true →
    completes (.viralReceived p) s fun m' => m' = event 0x0306 0 p.num (send (.viral p) (setRas p .viral { s.m with
      ports := s.m.ports.set p { s.m.ports.get p with viralRx := true, d2hWait := [], err := (s.m.ports.get p).err ||| 4#8 } })))

/-- Nothing of the port waits outside it: no BISnp toward it is open, no job is its, no lane test and no grant ring runs. -/
def Sys2Proof.Stmt.idlePort (p : Port) (s : State) : Prop :=
  (∀ t : Tile, ∀ x ∈ (s.m.filters[t] : FilterSt).snps, x.port ≠ p) ∧ (∀ j ∈ s.m.jobs, j.port ≠ p) ∧ (s.m.ports.get p).laneTest = none ∧
  ∀ x ∈ (s.m.rings.get p).rings, cfgEnable x.2.cfg = true → cfgType x.2.cfg ≠ 1

/-- What a reset of a port leaves (R176, R177, R227, R250): its tracker, held requests, doorbell lines and rings are gone, and a sweep
clears its presence bits; the DRAM image, the slices' lines, the other port's link and requests, and the reset port's error
registers but the bits named in `err` stay. -/
def Sys2Proof.Stmt.portCleared (p : Port) (err : BitVec 8) (m m' : Mod) : Prop :=
  let q := m'.ports.get p
  let o := m'.ports.get p.other
  q.tracker = [] ∧ q.rxBuf = [] ∧ q.conflicts = [] ∧ q.answerWr = 0 ∧ q.dbHeld = [] ∧ q.dbOpen = [] ∧ q.sweeping = true ∧
  q.err = (m.ports.get p).err ||| err ∧ q.viol = (m.ports.get p).viol ∧
  (∀ x ∈ (m'.rings.get p).rings, x.2.state = 0 ∧ cfgEnable x.2.cfg = false) ∧ (m'.rings.get p).writes = [] ∧ (m'.rings.get p).held = [] ∧
  m'.mem = m.mem ∧ m'.slices.map (·.lines) = m.slices.map (·.lines) ∧
  o.linkUp = (m.ports.get p.other).linkUp ∧ o.tracker = (m.ports.get p.other).tracker ∧ o.hdmCommitted = (m.ports.get p.other).hdmCommitted

/-- What a conventional reset leaves besides (R176): the link down, the decoder and the enables clear, no viral. -/
def Sys2Proof.Stmt.linkCleared (p : Port) (m' : Mod) : Prop :=
  let q := m'.ports.get p
  q.linkUp = false ∧ q.hdmCommitted = false ∧ q.memEnable = false ∧ q.cacheEnable = false ∧ q.viralRx = false ∧ q.d3hot = false ∧
    q.snpCredit = 0 ∧ q.d2hCredit = 0

/-- Resets of a port (R176, R177, R183, R185, R227, R562): PERST_N, hot reset and loss of the link clear link and configuration, CXL Reset
keeps them and sets its error bit; loss of the link raises its event. PERST_N's end takes the port out of reset, and wakes a module
in Deep sleep. The end of the sweep leaves no entry that names the port. -/
def Sys2Proof.Stmt.PortResetsClearThePort : Prop :=
  (∀ (p : Port) (s : State), s.fe.powered = true → idlePort p s →
    completes (.fundamentalReset p) s fun m' => portCleared p 0 s.m m' ∧ linkCleared p m' ∧ (m'.ports.get p).inReset = true ∧
      (m'.ports.get p).aer = [] ∧ (m'.ports.get p).ras = []) ∧
  (∀ (p : Port) (s : State), s.fe.powered = true → idlePort p s → (s.m.ports.get p).inReset = false →
    completes (.hotReset p) s fun m' => portCleared p 0 s.m m' ∧ linkCleared p m' ∧ (m'.ports.get p).inReset = false ∧
      (m'.ports.get p).aer = (s.m.ports.get p).aer) ∧
  (∀ (p : Port) (s : State), s.fe.powered = true → idlePort p s → (s.m.ports.get p).linkUp = true →
    completes (.linkDown p) s fun m' => ∃ x, m' = event 0x0302 0 p.num x ∧ portCleared p 8 s.m x ∧ linkCleared p x ∧
      (x.ports.get p).aer.contains .surpriseDown = true) ∧
  (∀ (p : Port) (s : State), s.fe.powered = true → idlePort p s → portTalks s.m p = true →
    completes (.cxlReset p) s fun m' => portCleared p 128 s.m m' ∧ (m'.ports.get p).linkUp = true ∧
      (m'.ports.get p).hdmCommitted = (s.m.ports.get p).hdmCommitted ∧ (m'.ports.get p).memEnable = (s.m.ports.get p).memEnable) ∧
  (∀ (p : Port) (s : State), s.fe.powered = true → s.fe.st = .powergood → s.m.power.state = 0 →
    completes (.perstDeassert p) s fun m' => m' = { s.m with ports := s.m.ports.set p { s.m.ports.get p with inReset := false } }) ∧
  (∀ (p : Port) (s : State), s.fe.powered = true → s.fe.st = .powergood → s.m.power.state = 3 → s.m.therm.critical = false →
    completes (.perstDeassert p) s fun m' => m' = { s.m with ports := s.m.ports.set p { s.m.ports.get p with inReset := false }
                                                             power := { s.m.power with state := 5, last := 3, cause := 7, phase := 1 } }) ∧
  (∀ (p : Port) (s : State), s.fe.powered = true → (s.m.ports.get p).sweeping = true →
    completes (.presenceSweepEnd p) s fun m' => (∀ t : Tile, ∀ e ∈ (m'.filters[t] : FilterSt).entries, entPres e p = false) ∧
      m' = { s.m with filters := m'.filters, ports := s.m.ports.set p { s.m.ports.get p with sweeping := false } }) ∧
  (∀ (p : Port) (s : State), (s.m.ports.get p).sweeping = false → exec (.presenceSweepEnd p) s = .next s)

/-- The HDM decoder and configuration requests (R159, R178, R179): a commit of the one range that the module supports sets COMMITTED, any
other sets the error; a request before boot code has finished is answered with Retry Status; after it a read answers its structure,
the enables and the power state take their values, error bits clear, and a read of a BAR returns its bytes or Unsupported Request. -/
def Sys2Proof.Stmt.ConfigurationRequestsAreAnswered : Prop :=
  (∀ (p : Port) (base size ways : Nat) (lock : Bool) (s : State), reachable p s →
    ¬ ((s.m.ports.get p).hdmCommitted = true ∧ (s.m.ports.get p).hdmLock = true) →
    let ok := decide (size = 2 ^ 53 ∧ base % 2 ^ 53 = 0 ∧ ways = 1)
    completes (.hdmDecoderCommit p base size ways lock) s fun m' => m' = { touch s.m with
      ports := s.m.ports.set p { s.m.ports.get p with hdmCommitted := ok, hdmError := !ok, hdmBase := base, hdmLock := ok && lock } }) ∧
  (∀ (p : Port) (req : CfgReq) (s : State), talking p s → s.m.proc.bootDone = false →
    completes (.configRequest p req) s fun m' => m' = send (.cfgRetry p) (touch s.m)) ∧
  (∀ (p : Port) (req : CfgReq) (s : State), talking p s → s.m.proc.bootDone = true →
    completes (.configRequest p req) s fun m' => match req with
      | .read i => m' = send (.cfgItem p (cfgItem s.m p i)) (touch s.m)
      | .setMemEnable on => m' = send (.cfgDone p) { touch s.m with ports := s.m.ports.set p { s.m.ports.get p with memEnable := on } }
      | .setCacheEnable on => (s.m.ports.get p).d2hWait = [] →
        m' = fetchPump (send (.cfgDone p) { touch s.m with ports := s.m.ports.set p { s.m.ports.get p with cacheEnable := on } })
      | .setPowerState d3 => m' = send (.cfgDone p) { touch s.m with ports := s.m.ports.set p { s.m.ports.get p with d3hot := d3 } }
      | .clearAer => m' = send (.cfgDone p) { touch s.m with ports := s.m.ports.set p { s.m.ports.get p with aer := [] } }
      | .clearRas => m' = send (.cfgDone p) { touch s.m with ports := s.m.ports.set p { s.m.ports.get p with ras := [] } }
      | .margin lane _ _ errors => m' = send (.margin p lane.val (if laneRuns (s.m.ports.get p) lane.val then errors else 0)) (touch s.m)
      | .barRead bar off size =>
        if (s.m.ports.get p).d3hot = true ∨ (size ≠ 4 ∧ size ≠ 8) ∨ off % size ≠ 0 ∨ barBytes bar ≤ off then
          m' = send (.unsupportedReq p) (touch s.m)
        else m'.out = .regData p size (barValue s.fe (touch s.m) p bar off size) :: s.m.out ∧ m'.mem = s.m.mem ∧ m'.ports = s.m.ports
      | .other => m' = send (.cfgDone p) (touch s.m))

/-- The mailbox (R180): each command that is supported returns its payload, the timestamp counts on from the value set, and every other
command is refused as unsupported. -/
def Sys2Proof.Stmt.MailboxCommandsAnswer : Prop :=
  ∀ (p : Port) (s : State), reachable p s → s.m.proc.bootDone = true →
    completes (.identifyMemoryDevice p) s (fun m' => m' = send (.mboxData p 0x4000 Config.mboxIdentify) (touch s.m)) ∧
    completes (.getSupportedLogs p) s (fun m' => m' = send (.mboxData p 0x0400 Config.mboxLogs) (touch s.m)) ∧
    completes (.getLog p true) s (fun m' => m' = send (.mboxData p 0x0401 Config.mboxCel) (touch s.m)) ∧
    completes (.getLog p false) s (fun m' => m' = send (.mboxUnsupported p) (touch s.m)) ∧
    completes (.getTimestamp p) s (fun m' => ∃ n, m' = send (.mboxData p 0x0300 n) (touch s.m) ∧
      ((s.m.ports.get p).tsBase = 0 → (s.m.ports.get p).tsAt = 0 → n = 0) ∧
      ((s.m.ports.get p).tsBase ≠ 0 → n = ((s.m.ports.get p).tsBase + (s.m.tb.now - (s.m.ports.get p).tsAt)) % 2 ^ 64)) ∧
    (∀ v : Word64, completes (.setTimestamp p v) s (fun m' => m' = send (.mboxData p 0x0301 0) { touch s.m with
      ports := s.m.ports.set p { s.m.ports.get p with tsBase := v.toNat, tsAt := s.m.tb.now } })) ∧
    (∀ op : BitVec 16, op ∉ [0x4000#16, 0x0400, 0x0401, 0x0300, 0x0301] →
      completes (.mailboxUnsupported p op) s (fun m' => m' = send (.mboxUnsupported p) (touch s.m)))

/-- Configuration requests, the HDM decoder and the mailbox (R159, R178 to R180). -/
def Obligations.ConfigurationAndMailboxRequestsAnswer : Prop :=
  ConfigurationRequestsAreAnswered ∧ MailboxCommandsAnswer

/-- The CXL lane test (R523): it starts on a link at x16 and asks for x8; each round collects the failing lanes of the half under test;
its end returns to x16 and completes with 0x00, or marks the half and reports its lanes with 0xC1. -/
def Sys2Proof.Stmt.PortLanesAreTested : Prop :=
  (∀ (h : AdminHdr) (n half ms : Nat) (s : State), accepted h 0x0006 s → n ≤ 1 → half ≤ 1 → 1 ≤ ms → ms ≤ 1000 →
    let p := portOf n
    let q := s.m.ports.get p
    completes (.portLaneTest h n half ms) s fun m' =>
      if q.laneTest.isSome then m' = done (tagOf h 0x0006) 0xC3 (begun h 0x0006 s.m)
      else if q.linkUp = false ∨ q.inReset = true ∨ q.width ≠ .x16 then m' = done (tagOf h 0x0006) 0xC2 (begun h 0x0006 s.m)
      else m' = send (.l0pReq p 1) { begun h 0x0006 s.m with
        ports := s.m.ports.set p { q with laneTest := some ⟨tagOf h 0x0006, half == 1, 0⟩, l0pReq := some 1, active := 1 } }) ∧
  (∀ (p : Port) (fails : BitVec 16) (t : LaneTest) (s : State), s.fe.powered = true → (s.m.ports.get p).laneTest = some t →
    completes (.portLaneTestTick p fails) s fun m' => m' = send (.l0pReq p 1) (send (.l0pReq p 0) { s.m with
      ports := s.m.ports.set p { s.m.ports.get p with
        laneTest := some { t with fails := t.fails ||| (fails &&& (if t.hi then 0xFF00 else 0x00FF)) } } })) ∧
  (∀ (p : Port) (t : LaneTest) (s : State), s.fe.powered = true → (s.m.ports.get p).laneTest = some t →
    let q : PortSt := { s.m.ports.get p with laneTest := none, l0pReq := none, active := 0 }
    completes (.portLaneTestEnd p) s fun m' =>
      if t.fails = 0 then m' = done t.cmd 0x00 (send (.l0pReq p 0) { s.m with ports := s.m.ports.set p q })
      else m' = complete t.cmd 0xC1 0 (t.fails.setWidth 96) (degradedEvent p 1 (send (.l0pReq p 0) { s.m with
        ports := s.m.ports.set p { q with degraded := true, badHalf := some t.hi } })))

/-- Links, the resets of a port and the lane test (R155 to R157, R174 to R177, R183, R185, R227, R523, R562). -/
def Obligations.LinksTrainResetAndTest : Prop :=
  LinksTrainAndDegrade ∧ PortResetsClearThePort ∧ PortLanesAreTested

/-! ### Line cache: ways, locks, sweeps (*Line cache*) -/

/-- A way that is out of service: no lock, no reservation, its drain begun, a metadata way taken from METAWAYS. -/
def Sys2Proof.Stmt.outOfService (old new : Slice) (way : Nat) : Prop :=
  new.disabled = putBit old.disabled way true ∧ new.locked = putBit old.locked way false ∧
  new.reserved = putBit old.reserved way false ∧ new.drain = putBit old.drain way true ∧ new.lines = old.lines ∧
  new.metaWays = (if (metaWayList old).contains way then old.metaWays - 1 else old.metaWays)

/-- What disabling a way leaves (R213, R214): the way is out of service, its lines begin to leave, the health record notes it, and its
event is raised with the cause. -/
def Sys2Proof.Stmt.wayDisabled (t : Tile) (way cause : Nat) (m m' : Mod) : Prop :=
  ∃ x, m' = event 0x0401 0 (t.val + way * 4 + cause * 64) (healthWay t way true (flushSel t (fun l => l.way == way) x)) ∧
    outOfService m.slices[t] x.slices[t] way ∧ x.mem = m.mem ∧ x.rings = m.rings ∧ x.prot = m.prot

/-- Failing ways (R208, R211 to R214): WAY_DISABLE, and a way's uncorrectable tag copy, take a way out of service; the ninth counted
error within 1 s is what a patrol's corrected findings add up to; a drain whose lines have left ends; WAY_TEST takes a way that is
neither locked nor reserved, the end of a passing test begins its one-way sweep, that of a failing test leaves it out with code
0x36. -/
def Sys2Proof.Stmt.WaysLeaveServiceAndReturn : Prop :=
  (∀ (t : Tile) (w : Fin 16) (tagErr : Bool) (s : State), s.fe.powered = true →
    ((s.m.slices[t] : Slice).disabled.getLsbD w = true → completes (.wayDisable t w tagErr) s fun m' => m' = s.m) ∧
    ((s.m.slices[t] : Slice).disabled.getLsbD w = false →
      completes (.wayDisable t w tagErr) s fun m' => wayDisabled t w.val (num01 tagErr) s.m m')) ∧
  (∀ (t : Tile) (set : Nat) (w : Fin 16) (cp : Bool) (s : State), s.fe.powered = true →
    ((s.m.slices[t] : Slice).wayErrs.filter (fun e => e.1 == w.val && s.m.tb.now < e.2 + 1000000000)).length < 8 →
    completes (.slicePatrol t [.tagCopy set w cp false]) s fun m' => m' = { s.m with slices := s.m.slices.set t { (s.m.slices[t] : Slice) with
      wayErrs := (w.val, s.m.tb.now) :: (s.m.slices[t] : Slice).wayErrs.filter (fun e => s.m.tb.now < e.2 + 1000000000) } }) ∧
  (∀ (t : Tile) (set : Nat) (w : Fin 16) (cp : Bool) (s : State), s.fe.powered = true →
    (s.m.slices[t] : Slice).disabled.getLsbD w = false → (s.m.slices[t] : Slice).wayErrs = [] →
    completes (.slicePatrol t [.tagCopy set w cp true]) s fun m' => wayDisabled t w.val 1 s.m m') ∧
  (∀ (t : Tile) (s : State), s.fe.powered = true → (s.m.slices[t] : Slice).drain ≠ 0 →
    (∀ l ∈ (s.m.slices[t] : Slice).lines, l.wb = 0 ∧ (s.m.slices[t] : Slice).drain.getLsbD l.way = false) →
    completes (.wayDrainEnd t) s fun m' =>
      m' = wakeTile t { s.m with slices := s.m.slices.set t { (s.m.slices[t] : Slice) with drain := 0 } }) ∧
  (∀ (h : AdminHdr) (tile way : Nat) (s : State), accepted h 0x0305 s → tile ≤ 3 → way ≤ 15 →
    let old : Slice := s.m.slices[tileOf tile]
    let b := begun h 0x0305 s.m
    completes (.wayTest h tile way) s fun m' =>
      if old.locked.getLsbD way ∨ old.reserved.getLsbD way then m' = done (tagOf h 0x0305) 0x33 b
      else if old.test.isSome then m' = done (tagOf h 0x0305) 0x35 b
      else ∃ x, m' = flushSel (tileOf tile) (fun l => l.way == way) x ∧ (x.slices[tileOf tile] : Slice).test = some (tagOf h 0x0305, way) ∧
        (x.slices[tileOf tile] : Slice).drain = putBit old.drain way true ∧ (x.slices[tileOf tile] : Slice).disabled = putBit old.disabled way true ∧
        (x.slices[tileOf tile] : Slice).lines = old.lines ∧ x.proc = b.proc ∧ x.mem = s.m.mem ∧ x.rings = s.m.rings) ∧
  (∀ (t : Tile) (c : AdminTag) (way : Nat) (s : State), s.fe.powered = true → (s.m.slices[t] : Slice).test = some (c, way) →
    (s.m.slices[t] : Slice).drain.getLsbD way = false → (s.m.slices[t] : Slice).sweep = false →
    let old : Slice := s.m.slices[t]
    completes (.wayTestEnd t true) s (fun m' => m' = { s.m with slices := s.m.slices.set t { old with sweep := true, oneWay := some way } }) ∧
    completes (.wayTestEnd t false) s (fun m' => ∃ x, m' = done c 0x36 x ∧ x.slices = s.m.slices.set t { old with test := none } ∧
      (t.val, way) ∈ x.flash.ways ∧ x = { s.m with slices := x.slices, flash := x.flash })) ∧
  (∀ (t : Tile) (pass : Bool) (s : State), (s.m.slices[t] : Slice).drain = 0 → (s.m.slices[t] : Slice).test = none →
    exec (.wayDrainEnd t) s = .next s ∧ exec (.wayTestEnd t pass) s = .next s)

/-- Locking (R204 to R207) and TAG_READ (R192): CACHE_LOCK_PREPARE reserves the lowest-numbered general ways that are not locked,
within the limits of R204, and completes once they hold no line; CACHE_LOCK turns the reservation into a lock; CACHE_UNLOCK ends
both and leaves the lines at RRPV 3; CACHE_PRELOAD takes its range's lines up in the reserved ways under the label that it names;
TAG_READ returns the tag entry. -/
def Obligations.LocksReserveHoldAndRelease : Prop :=
  (∀ (h : AdminHdr) (tile n : Nat) (s : State), accepted h 0x0301 s → tile ≤ 3 → (s.m.slices[tileOf tile] : Slice).lines = [] →
    (s.m.slices[tileOf tile] : Slice).lockCmd = none →
    let old : Slice := s.m.slices[tileOf tile]
    let b := begun h 0x0301 s.m
    let total := n + (setBits old.locked).length
    completes (.cacheLockPrepare h tile n) s fun m' =>
      if 12 < total ∨ 14 < total + old.metaWays + (setBits old.disabled).length then m' = done (tagOf h 0x0301) 0x31 b
      else if old.prep ∨ old.prepCmd.isSome then m' = done (tagOf h 0x0301) 0x32 b
      else ∃ x, m' = done (tagOf h 0x0301) 0x00 x ∧ (x.slices[tileOf tile] : Slice).prep = true ∧ (x.slices[tileOf tile] : Slice).locked = old.locked ∧
        (∀ w, (x.slices[tileOf tile] : Slice).reserved.getLsbD w = (((generalWays old).filter (fun w => !old.locked.getLsbD w)).take n).contains w) ∧
        x.proc = b.proc ∧ x.mem = s.m.mem) ∧
  (∀ (h : AdminHdr) (tile : Nat) (s : State), accepted h 0x0303 s → tile ≤ 3 →
    let old : Slice := s.m.slices[tileOf tile]
    old.prepCmd = none → (∀ l ∈ old.lines, old.reserved.getLsbD l.way = true → l.sdirty = 0) →
    completes (.cacheLock h tile) s fun m' =>
      if old.prep = false ∨ old.lockCmd.isSome then m' = done (tagOf h 0x0303) 0x32 (begun h 0x0303 s.m)
      else ∃ x, m' = done (tagOf h 0x0303) 0x00 x ∧ (x.slices[tileOf tile] : Slice).locked = old.locked ||| old.reserved ∧
        (x.slices[tileOf tile] : Slice).reserved = 0 ∧ (x.slices[tileOf tile] : Slice).prep = false ∧
        (x.slices[tileOf tile] : Slice).lines = old.lines ∧ x.mem = s.m.mem) ∧
  (∀ (h : AdminHdr) (tile : Nat) (s : State), accepted h 0x0304 s → tile ≤ 3 →
    let old : Slice := s.m.slices[tileOf tile]
    completes (.cacheUnlock h tile) s fun m' => ∃ x, m' = done (tagOf h 0x0304) 0x00 (wakeTile (tileOf tile) x) ∧
      (x.slices[tileOf tile] : Slice).locked = 0 ∧ (x.slices[tileOf tile] : Slice).reserved = 0 ∧
      (x.slices[tileOf tile] : Slice).prep = false ∧ x.mem = s.m.mem ∧
      (x.slices[tileOf tile] : Slice).lines = (old.lines.filter (fun l => l.svalid != 0 || l.busy)).map (fun l =>
        if (old.locked ||| old.reserved).getLsbD l.way then { l with rrpv := 3 } else l)) ∧
  (∀ (h : AdminHdr) (tile : Nat) (w : BitVec 64) (n : Nat) (s : State), accepted h 0x0302 s → tile ≤ 3 →
    let t := tileOf tile
    let b := begun h 0x0302 s.m
    let x : BitVec 53 := BitVec.ofNat 53 w.toNat
    completes (.cachePreload h tile w n) s fun m' =>
      if (s.m.slices[t] : Slice).prep = false then m' = done (tagOf h 0x0302) 0x32 b
      else if 2 ^ 53 ≤ w.toNat ∨ (preloadRange w n).all (preloadOk b h.port t w) = false then m' = done (tagOf h 0x0302) 0x34 b
      else m' = preloads t { b with slices := b.slices.set t { (b.slices[t] : Slice) with
        preloads := (b.slices[t] : Slice).preloads ++ [⟨tagOf h 0x0302, wKey x, wLabel x, preloadRange w n, [], 0⟩] } }) ∧
  (∀ (h : AdminHdr) (tile set way : Nat) (s : State), accepted h 0x0306 s → tile ≤ 3 → set < 16384 → way ≤ 15 →
    completes (.tagRead h tile set way) s fun m' =>
      m' = completeWith h (tagOf h 0x0306) 0 0 (toBytes ((entryAt s.m.slices[tileOf tile] set way).elim 0 tagWordOf) 8) (begun h 0x0306 s.m))

/-- Every tile goes on with what waits in it. -/
def Sys2Proof.Stmt.wakeAll (m : Mod) : Mod := (List.finRange 4).foldl (fun m t => wakeTile t m) m

/-- A line that a flush takes out of its slice without a write: clean, at rest, in no fill. -/
def Sys2Proof.Stmt.atRest (x : Slice) (l : Line) : Prop :=
  l.busy = false ∧ l.wb = 0 ∧ l.sdirty = 0 ∧ l.svalid = 15 ∧ findMiss x l.space (lineAddr l) = none

/-- Sweeps and flushes (R208 to R210, R266): the invalidation sweep's end leaves no line in a slice that swept, and what was held goes
on; the sweep of one way returns it to service, with no line in it and METAWAYS as it was, and completes its test with 0x00; a full
flush of lines at rest ends with every slice empty; with no flush under way nothing changes. -/
def Sys2Proof.Stmt.SweepsAndFlushesEmptyTheSlices : Prop :=
  (∀ s : State, s.fe.powered = true → (∀ t : Tile, (s.m.slices[t] : Slice).sweep = true → (s.m.slices[t] : Slice).oneWay = none) →
    completes .invalidationSweepEnd s fun m' => m' = wakeAll (releaseHeld { s.m with slices := s.m.slices.map (fun (x : Slice) =>
      if x.sweep then { x with sweep := false, lines := [] } else x) })) ∧
  (∀ (t : Tile) (c : AdminTag) (way v : Nat) (s : State), s.fe.powered = true → (s.m.slices[t] : Slice).sweep = true →
    (s.m.slices[t] : Slice).oneWay = some way → (s.m.slices[t] : Slice).test = some (c, v) →
    (∀ u : Tile, u ≠ t → (s.m.slices[u] : Slice).sweep = false) →
    let old : Slice := s.m.slices[t]
    completes .invalidationSweepEnd s fun m' => ∃ x, m' = wakeAll (releaseHeld (done c 0x00 x)) ∧
      (x.slices[t] : Slice).disabled = putBit old.disabled way false ∧ (x.slices[t] : Slice).test = none ∧
      (x.slices[t] : Slice).sweep = false ∧ (x.slices[t] : Slice).lines = old.lines.filter (fun l => l.way != way) ∧
      (x.slices[t] : Slice).metaWays = old.metaWays ∧ (t.val, way) ∉ x.flash.ways ∧ x.mem = s.m.mem) ∧
  (∀ s : State, s.fe.powered = true → flushing s.m = true → s.m.power.state ≠ 4 → (∃ t : Tile, (s.m.slices[t] : Slice).flush = true) →
    (∀ t : Tile, (s.m.slices[t] : Slice).transits = [] ∧ ∀ l ∈ (s.m.slices[t] : Slice).lines, atRest s.m.slices[t] l) →
    completes .flushEnd s fun m' => m' = { s.m with slices := m'.slices } ∧
      ∀ t : Tile, (m'.slices[t] : Slice).lines = [] ∧ (m'.slices[t] : Slice).flush = false) ∧
  (∀ s : State, (∀ t : Tile, (s.m.slices[t] : Slice).flush = false) → exec .flushEnd s = .next s)

/-- Failing ways, sweeps and flushes (R208 to R214, R266). -/
def Obligations.WaysLeaveServiceAndSlicesEmpty : Prop :=
  WaysLeaveServiceAndReturn ∧ SweepsAndFlushesEmptyTheSlices

/-- The fill of a fulled page's line whose fuller runs it, with the stored page and its metadata at hand. -/
def Sys2Proof.Stmt.fillComes (t : Tile) (addr : Nat) (d : Decomp) (x : Miss) (f : FullerNo) (r : BitVec 128) (s : State) : Prop :=
  s.fe.powered = true ∧ s.m.therm.critical = false ∧ (s.m.slices[t] : Slice).decomps.find? (fun d => d.addr == lineOf addr) = some d ∧
  findMiss s.m.slices[t] 0 (lineOf addr) = some x ∧ fullerRuns s.m (.fill t (lineOf addr)) = some f ∧
  x.das.all (atHand s.m) = true ∧ fillNeeds s.m 0 (lineOf addr) x.das = [] ∧ regionOf s.m (lineOf addr) = some r

/-- Fills and reseals that end (R281, R282, R293, R297): a decoded page gives its line to the fill that waits for it; a page that does not
decode, or fails its check on both fullers, gives poison, with its event, and one that fails on the first alone takes that fuller out
of service, hands its work over and counts it. A reseal whose children are at hand, none of which has been written, leaves its node
with MAJOR raised, and what waits goes on. A fill that no fuller runs, and a tile without a reseal, change nothing. -/
def Obligations.DecompressionsAndResealsEnd : Prop :=
  (∀ (t : Tile) (addr : Nat) (b1 b2 : Bool) (d : Decomp) (x : Miss) (f : FullerNo) (r : BitVec 128) (u : Batt) (bytes : List Byte) (s : State),
    fillComes t addr d x f r s →
    let a := lineOf addr
    let y := fullerEnd (.fill t a) { s.m with slices := s.m.slices.set t { (s.m.slices[t] : Slice) with
      decomps := (s.m.slices[t] : Slice).decomps.erase d } }
    let z := metaUsed r x.das y
    let da := x.das.headD 0
    readStored y r d.keyId da x.das.length = (.ok u, bytes) →
    let page := unfullPage bytes
    let line := ofBytes 2048 (((page.getD []).drop (a / 256 % 16 * 256)).take 256)
    completes (.fillDecompressDone t addr b1 b2) s fun m' =>
      if page = none ∨ (b1 ∧ b2) then m' = wakeTile t (fillEnd t 0 a .poison
        (event 0x0601 (locBatt da) (da % 2 ^ 41 + x.das.length * 2 ^ 41 + f.val * 2 ^ 45) z))
      else if b1 then m' = wakeTile t (fillEnd t 0 a (.ok line) (handOver f (fullerMismatch f z)))
      else m' = wakeTile t (fillEnd t 0 a (.ok line) z)) ∧
  (∀ (t : Tile) (addr : Nat) (b1 b2 : Bool) (s : State), fullerRuns s.m (.fill t (lineOf addr)) = none →
    exec (.fillDecompressDone t addr b1 b2) s = .next s) ∧
  (∀ (t : Tile) (r : Reseal) (n : Batt) (s : State), s.fe.powered = true → s.m.therm.critical = false → s.m.prot.stop = none →
    s.m.prot.reseals = [r] → r.tile = t.val → r.waiters = [] → ownerLine r.own = false → resealNeeds s.m r = [] →
    getNode s.m t r.level r.index = .ok n → (∀ i < 128, nodeMinor n i = 0) → nodeMajor (resealNode n r.child) ≠ 2 ^ 64 - 1 →
    completes (.resealEnd t) s fun m' => ∃ y, y = nodeWrite t 5 r.level r.index (resealNode n r.child) s.m ∧
      m' = wakeTile t { y with prot := { y.prot with reseals := y.prot.reseals.eraseIdx 0 } }) ∧
  (∀ (t : Tile) (s : State), (∀ r ∈ s.m.prot.reseals, r.tile ≠ t.val) → exec (.resealEnd t) s = .next s)

/-! ### Filter faults (*Coherence with the hosts*) -/

/-- The filter test and broadcast mode (R222, R241, R243 to R245): FILTER_TEST puts a slice into broadcast mode, one slice at a time;
the drain's end with every entry gone begins the march; the march's end takes a failing copy out of service and fails the test
with 0x38; the sweep's end leaves the filter empty and broadcast mode, unless it stays for ever, and completes the test with
0x00; FILTER_READ returns both copies. -/
def Obligations.FiltersDrainTestAndReturn : Prop :=
  (∀ (h : AdminHdr) (tile : Nat) (s : State), accepted h 0x0307 s → tile ≤ 3 →
    let t := tileOf tile
    let b := begun h 0x0307 s.m
    (s.m.filters.any (fun f => f.test.isSome) = true →
      completes (.filterTest h tile) s fun m' => m' = done (tagOf h 0x0307) 0x37 b) ∧
    (s.m.filters.any (fun f => f.test.isSome) = false → (s.m.filters[t] : FilterSt).entries = [] →
      completes (.filterTest h tile) s fun m' => m' = { b with filters := b.filters.set t { (s.m.filters[t] : FilterSt) with
        test := some (tagOf h 0x0307), broadcast := true, cause := 1, phase := 0 } })) ∧
  (∀ (t : Tile) (s : State), s.fe.powered = true → (s.m.filters[t] : FilterSt).broadcast = true → (s.m.filters[t] : FilterSt).phase = 0 →
    ((s.m.filters[t] : FilterSt).entries = [] → completes (.filterDrainEnd t) s fun m' =>
      m' = { s.m with filters := s.m.filters.set t { (s.m.filters[t] : FilterSt) with phase := 1 } }) ∧
    ((s.m.filters[t] : FilterSt).entries ≠ [] → (∀ e ∈ (s.m.filters[t] : FilterSt).entries, e.pend = true) →
      completes (.filterDrainEnd t) s fun m' => m' = s.m)) ∧
  (∀ (t : Tile) (p q : Bool) (s : State), s.fe.powered = true → (s.m.filters[t] : FilterSt).broadcast = true → (s.m.filters[t] : FilterSt).phase = 1 →
    let old : FilterSt := s.m.filters[t]
    completes (.filterMarchEnd t p q) s fun m' => (m'.filters[t] : FilterSt) = { old with
      copyFailP := old.copyFailP || p, copyFailS := old.copyFailS || q, test := if p || q then none else old.test, phase := 2
      forever := old.forever || ((old.copyFailP || p) && (old.copyFailS || q)) } ∧ m'.mem = s.m.mem ∧
      (p = false → q = false → m' = { s.m with filters := m'.filters })) ∧
  (∀ (t : Tile) (s : State), s.fe.powered = true → (s.m.filters[t] : FilterSt).broadcast = true → (s.m.filters[t] : FilterSt).phase = 2 →
    (s.m.filters[t] : FilterSt).waiters = [] → (s.m.filters[t] : FilterSt).resv = [] →
    let old : FilterSt := s.m.filters[t]
    let x : Mod := { s.m with filters := s.m.filters.set t { old with entries := [], badP := [], badS := [], broadcast := old.forever, test := none } }
    completes (.filterSweepEnd t) s fun m' => m' = old.test.elim x (fun c => done c 0x00 x)) ∧
  (∀ (t : Tile) (p q : Bool) (s : State), (s.m.filters[t] : FilterSt).broadcast = false →
    exec (.filterDrainEnd t) s = .next s ∧ exec (.filterMarchEnd t p q) s = .next s ∧ exec (.filterSweepEnd t) s = .next s) ∧
  (∀ (h : AdminHdr) (tile set way : Nat) (s : State), accepted h 0x0308 s → tile ≤ 3 → set < 65536 → way ≤ 15 →
    let e := ((s.m.filters[tileOf tile] : FilterSt).entries.find? (fun e => e.set == set && e.way == way)).elim 0 filtWordOf
    completes (.filterRead h tile set way) s fun m' =>
      m' = completeWith h (tagOf h 0x0308) 0 0 (toBytes e 8 ++ toBytes e 8) (begun h 0x0308 s.m))

/-! ### Keys and protection reload (*Regions, keys and integrity*) -/

/-- A state in which key `id` reads `k` and nothing else of the keys differs. -/
def Sys2Proof.Stmt.keyPut (m x : Mod) (id : Nat) (k : KeySlot) : Prop :=
  keyAt x id = k ∧ ∀ j, j ≠ id → keyAt x j = keyAt m j

/-- No host copy, no cached line, no trim and no elastic region. -/
def Sys2Proof.Stmt.nothingCached (m : Mod) : Prop :=
  ∀ t : Tile, (m.filters[t] : FilterSt).entries = [] ∧ (m.slices[t] : Slice).lines = [] ∧ (m.tiers[t] : TierSt).trims = []

/-- Key slots (R263 to R268, R283): KEY_LOAD fills an empty slot with the unwrapped keys; KEY_RETIRE and KEY_ZERO begin one at a time, on
an active and on a retired slot, and KEY_RETIRE with a flush; a retirement that nothing uses any more, that of an exhausted counter
among them, zeroes both keys, and a sweep whose regions hold nothing leaves the slot empty. Key id 0 and one above 63 give 0x43. -/
def Obligations.KeySlotsFollowTheirStates : Prop :=
  (∀ (h : AdminHdr) (id : Nat) (w : BitVec 576) (s : State), accepted h 0x0402 s →
    let b := begun h 0x0402 s.m
    completes (.keyLoad h id w) s fun m' =>
      if id = 0 ∨ 63 < id then m' = done (tagOf h 0x0402) 0x43 b
      else if (keyAt s.m id).st ≠ .empty then m' = done (tagOf h 0x0402) 0x42 b
      else match unwrapKey s.m.prot.kek w with
        | none => m' = done (tagOf h 0x0402) 0x41 b
        | some (e, a) => ∃ x, m' = done (tagOf h 0x0402) 0x40 x ∧
          keyPut s.m x id { keyAt s.m id with st := .active, kEnc := e, kMac := a, loads := (keyAt s.m id).loads + 1 } ∧
          x = { b with prot := { b.prot with keys := x.prot.keys } }) ∧
  (∀ (h : AdminHdr) (id : Nat) (s : State), accepted h 0x0403 s → (∀ t : Tile, (s.m.filters[t] : FilterSt).entries = []) →
    let b := begun h 0x0403 s.m
    completes (.keyRetire h id) s fun m' =>
      if id = 0 ∨ 63 < id then m' = done (tagOf h 0x0403) 0x43 b
      else if keyWorkRuns s.m then m' = done (tagOf h 0x0403) 0x46 b
      else if (keyAt s.m id).st ≠ .active then m' = done (tagOf h 0x0403) 0x42 b
      else ∃ x, m' = beginFlush x ∧ keyPut s.m x id { keyAt s.m id with st := .retiring } ∧
        x = { b with prot := { b.prot with keys := x.prot.keys, keyWork := some (id, false, tagOf h 0x0403) } }) ∧
  (∀ (id : Nat) (c : AdminTag) (s : State), s.fe.powered = true → s.m.prot.keyWork = some (id, false, c) → id < 64 →
    (keyBusy id s.m = false → keyCached id s.m = false ∨ s.m.prot.stop.isSome = true → completes .keyRetirementDone s fun m' => ∃ x,
      m' = done c (if s.m.prot.stop.isSome then 0x45 else 0x40) x ∧
      keyPut s.m x id { keyAt s.m id with st := .retired, kEnc := 0, kMac := 0 } ∧
      x = { s.m with prot := { s.m.prot with keys := x.prot.keys, keyWork := none } }) ∧
    (keyBusy id s.m = true → keyCached id s.m = false ∨ s.m.prot.stop.isSome = true → exec .keyRetirementDone s = .next s)) ∧
  (∀ (id : Nat) (s : State), s.fe.powered = true → s.m.prot.keyWork = none → retiring s.m = some (id, none) → keyBusy id s.m = false →
    keyCached id s.m = false → completes .keyRetirementDone s fun m' =>
      keyPut s.m m' id { keyAt s.m id with st := .retired, kEnc := 0, kMac := 0 } ∧
      m' = { s.m with prot := { s.m.prot with keys := m'.prot.keys } }) ∧
  (∀ (h : AdminHdr) (id : Nat) (s : State), accepted h 0x0404 s → nothingCached s.m → (∀ r ∈ s.m.prot.regions, rgElastic r = false) →
    let b := begun h 0x0404 s.m
    completes (.keyZero h id) s fun m' =>
      if id = 0 ∨ 63 < id then m' = done (tagOf h 0x0404) 0x43 b
      else if keyWorkRuns s.m then m' = done (tagOf h 0x0404) 0x46 b
      else if (keyAt s.m id).st ≠ .retired then m' = done (tagOf h 0x0404) 0x44 b
      else keyPut s.m m' id { keyAt s.m id with st := .zeroing } ∧
        m' = { b with prot := { b.prot with keys := m'.prot.keys, keyWork := some (id, true, tagOf h 0x0404), zeroWritten := []
                                            zeroLeft := zeroNodes id s.m } }) ∧
  (∀ (id : Nat) (c : AdminTag) (s : State), s.fe.powered = true → s.m.prot.keyWork = some (id, true, c) → id < 64 → zeroBusy id s.m = false →
    s.m.prot.stop = none → s.m.prot.zeroWritten = [] → s.m.prot.zeroLeft = [] → nothingCached s.m →
    completes .zeroFillSweepEnd s fun m' => ∃ x, m' = done c 0x40 x ∧ keyPut s.m x id { keyAt s.m id with st := .empty } ∧
      x = { s.m with prot := { s.m.prot with keys := x.prot.keys, keyWork := none } }) ∧
  (∀ s : State, s.m.prot.keyWork = none → retiring s.m = none →
    exec .keyRetirementDone s = .next s ∧ exec .zeroFillSweepEnd s = .next s)

/-- Protection reload (R256 to R259): PROT_RELOAD meets its codes in order and begins phase 1; the phases follow one another when their
conditions hold, phase 4 with a full flush, phase 6 without the staging store; the new table is in force from the end of phase 6,
and the end of phase 7 raises the generation, starts the frame and completes with 0x40; integrity stop ends it with 0x45. -/
def Obligations.ProtectionReloadRunsItsPhases : Prop :=
  (∀ (h : AdminHdr) (d : ProtData) (s : State), accepted h 0x0401 s →
    let b := begun h 0x0401 s.m
    let c := tagOf h 0x0401
    completes (.protReload h d) s fun m' =>
      if s.m.prot.stop.isSome then m' = done c 0x45 b
      else if s.m.prot.reload.isSome then m' = done c 0x4B b
      else if d.sigOk = false then m' = done c 0x48 b
      else if d.seals ≠ s.m.prot.sealR.toList.map (fun r => (r.base, r.gran, r.metaBase)) then m' = done c 0x4A b
      else match tableCheck d.regions s.m.prot.sealR s.m.tiers s.m.conn.gangEn with
        | some x => m' = complete c 0x49 0 (checkResult x) b
        | none => m' = { b with prot := { b.prot with reload := some ⟨c, 1, ⟨d.regions, d.metaWays⟩⟩ } }) ∧
  (∀ (l : Reload) (s : State), s.fe.powered = true → s.m.prot.reload = some l → s.m.prot.stop = none →
    let next (n : Nat) : Protect := { s.m.prot with reload := some { l with phase := n } }
    (l.phase = 1 → (∀ r ∈ s.m.prot.regions, rgElastic r = false) → nothingCached s.m →
      completes .protReloadPhaseEnd s fun m' => m' = { s.m with prot := next 2 }) ∧
    (l.phase = 2 → changedCopies l.block.regions s.m = false → keyWorkRuns s.m = false → trimming s.m = false →
      completes .protReloadPhaseEnd s fun m' => m' = gangTx false .suspend { s.m with prot := next 3 }) ∧
    (l.phase = 2 → changedCopies l.block.regions s.m = false → keyWorkRuns s.m = true ∨ trimming s.m = true →
      exec .protReloadPhaseEnd s = .next s) ∧
    (l.phase = 3 → requestsAbout s.m = false → completes .protReloadPhaseEnd s fun m' => m' = beginFlush { s.m with prot := next 4 }) ∧
    (l.phase = 3 → requestsAbout s.m = true → exec .protReloadPhaseEnd s = .next s) ∧
    (l.phase = 4 → s.m.slices.any (·.flush) = false → drained s.m = true →
      completes .protReloadPhaseEnd s fun m' => m' = { s.m with prot := next 5 }) ∧
    (l.phase = 5 → s.m.sched.running = false → s.m.sched.activators = [] → s.m.sched.load = none →
      completes .protReloadPhaseEnd s fun m' => m' = { s.m with prot := next 6, proc := m'.proc, sched := m'.sched } ∧
        m'.sched.staged = none ∧ m'.sched.active = s.m.sched.active ∧
        (m'.proc.sp0 = if s.m.proc.sp0 = .failed ∨ s.m.proc.sp0 = .off then s.m.proc.sp0 else .booting) ∧
        (m'.proc.sp1 = if s.m.proc.sp1 = .failed ∨ s.m.proc.sp1 = .off then s.m.proc.sp1 else .booting)) ∧
    (l.phase = 6 → completes .protReloadPhaseEnd s fun m' => m'.prot.regions = l.block.regions ∧ m'.prot.locked = true ∧
      m'.prot.reload = some { l with phase := 7 } ∧ m'.prot.keys = s.m.prot.keys ∧ (∀ t : Tile, (m'.slices[t] : Slice).sweep = true) ∧ m'.mem = s.m.mem) ∧
    (l.phase = 7 → s.m.gang.link ≠ 3 → s.m.prot.held = [] → s.m.tb.lost = false → s.m.therm.critical = false →
      (∀ t : Tile, (s.m.slices[t] : Slice).oneWay = none) →
      completes .protReloadPhaseEnd s fun m' => ∃ x, m' = done l.cmd 0x40 x ∧
        x.prot.gen = s.m.prot.gen + 1 ∧ x.prot.reload = none ∧ x.prot.regions = s.m.prot.regions ∧ x.sched.running = true ∧
        (∀ t : Tile, (x.slices[t] : Slice).sweep = false ∧ ((s.m.slices[t] : Slice).sweep = true → (x.slices[t] : Slice).lines = [])))) ∧
  (∀ (l : Reload) (s : State), s.fe.powered = true → s.m.prot.reload = some l → s.m.prot.stop.isSome = true → l.phase ≤ 5 → s.m.prot.held = [] →
    completes .protReloadPhaseEnd s fun m' => m' = done l.cmd 0x45 { s.m with
      prot := { s.m.prot with reload := none }, slices := s.m.slices.map (fun (x : Slice) => { x with sweep := false, flush := false }) }) ∧
  (∀ s : State, s.m.prot.reload = none → exec .protReloadPhaseEnd s = .next s)

/-! ### Elastic capacity, fullers and jobs (*Fulled pages, elastic capacity and compression jobs*) -/

/-- What TIER_BYPASS and TIER_RESUME do (R317, R319): the tile's bypass takes its value; a tile without a pool gives 0xD6. -/
def Sys2Proof.Stmt.setsBypass (c : Instr) (h : AdminHdr) (op : BitVec 16) (tile : Nat) (on : Bool) (s : State) : Prop :=
  accepted h op s → tile < 4 →
    let old : TierSt := s.m.tiers[Fin.ofNat 4 tile]
    completes c s fun m' =>
      if old.poolSize = 0 then m' = done (tagOf h op) 0xD6 (begun h op s.m)
      else m' = done (tagOf h op) 0x00 { begun h op s.m with tiers := s.m.tiers.set (Fin.ofNat 4 tile : Tile) { old with bypass := on } }

/-- A fuller without work. -/
def Sys2Proof.Stmt.idleFuller (g : Fuller) : Prop := g.run = none ∧ g.paused = none ∧ g.queue = []

/-- Tier parameters and fullers (R298, R314 to R319): TIER_SET sets one parameter of a tile that has a pool, for the next sweep, TIER_BYPASS
and TIER_RESUME its bypass; a fuller goes out one at a time and its job goes to its twin in service; it comes back unless it is in
service or under test; a test that fails names its vector in the result. -/
def Sys2Proof.Stmt.TierParametersAndFullersAreSet : Prop :=
  (∀ (h : AdminHdr) (tile p v : Nat) (s : State), accepted h 0x0501 s → adminForm (.tierSet h tile p v) = some (h, 0x0501, true) →
    let old : TierSt := s.m.tiers[Fin.ofNat 4 tile]
    let b := begun h 0x0501 s.m
    completes (.tierSet h tile p v) s fun m' =>
      if p = 4 then m' = done (tagOf h 0x0501) 0xD5 b
      else if old.poolSize = 0 then m' = done (tagOf h 0x0501) 0xD6 b
      else m' = done (tagOf h 0x0501) 0x00 { b with tiers := b.tiers.set (Fin.ofNat 4 tile : Tile) { old with setNext := old.setNext ++ [(p, v)] } }) ∧
  (∀ (h : AdminHdr) (tile : Nat) (s : State), setsBypass (.tierBypass h tile) h 0x0503 tile true s) ∧
  (∀ (h : AdminHdr) (tile : Nat) (s : State), setsBypass (.tierResume h tile) h 0x0504 tile false s) ∧
  (∀ (h : AdminHdr) (n : Nat) (s : State), accepted h 0x0505 s → n < 8 →
    let f : FullerNo := Fin.ofNat 8 n
    let g : Fuller := s.m.fullers[f]
    let b := begun h 0x0505 s.m
    (s.m.fullers.toList.any (fun g => g.mode == 1) = true ∨ g.mode ≠ 0 →
      completes (.fullerOut h n) s fun m' => m' = done (tagOf h 0x0505) 0xD1 b) ∧
    (s.m.fullers.toList.any (fun g => g.mode == 1) = false → g.mode = 0 → idleFuller g →
      completes (.fullerOut h n) s fun m' => m' = done (tagOf h 0x0505) 0x00 { b with fullers := s.m.fullers.set f { g with mode := 1 } }) ∧
    (∀ id, s.m.fullers.toList.any (fun g => g.mode == 1) = false → g.mode = 0 → g.run = some (.job id) → g.paused = none → g.queue = [] →
      (s.m.fullers[twin f] : Fuller).mode = 0 → (∀ k : FullerNo, k ≠ f → fullerHolds s.m.fullers[k] (.job id) = false) →
      completes (.fullerOut h n) s fun m' => ∃ x, m' = done (tagOf h 0x0505) 0x00 x ∧ (x.fullers[f] : Fuller) = { g with mode := 1, run := none } ∧
        fullerHolds x.fullers[twin f] (.job id) = true ∧
        x.jobs = s.m.jobs.map (fun j => if j.id = id then { j with fuller := (twin f).val } else j) ∧ x.mem = s.m.mem)) ∧
  (∀ (h : AdminHdr) (n : Nat) (s : State), accepted h 0x0506 s → n < 8 →
    let f : FullerNo := Fin.ofNat 8 n
    let g : Fuller := s.m.fullers[f]
    let b := begun h 0x0506 s.m
    (g.mode = 0 ∨ g.test.isSome = true → completes (.fullerIn h n) s fun m' => m' = done (tagOf h 0x0506) 0xD2 b) ∧
    (g.mode ≠ 0 → g.test = none → (∀ k : FullerNo, idleFuller s.m.fullers[k]) →
      completes (.fullerIn h n) s fun m' => m' = done (tagOf h 0x0506) 0x00 { b with fullers := s.m.fullers.set f { g with mode := 0 } })) ∧
  (∀ (h : AdminHdr) (n : Nat) (s : State), accepted h 0x0507 s → n < 8 →
    let f : FullerNo := Fin.ofNat 8 n
    let g : Fuller := s.m.fullers[f]
    completes (.fullerTest h n) s fun m' =>
      if g.mode = 0 ∨ g.test.isSome then m' = done (tagOf h 0x0507) 0xD2 (begun h 0x0507 s.m)
      else m' = { begun h 0x0507 s.m with fullers := s.m.fullers.set f { g with test := some (tagOf h 0x0507) } }) ∧
  (∀ (f : FullerNo) (c : AdminTag) (s : State), s.fe.powered = true → (s.m.fullers[f] : Fuller).test = some c →
    ((∀ k : FullerNo, idleFuller s.m.fullers[k]) → completes (.fullerTestEnd f none) s fun m' => m' = done c 0x00
      { s.m with fullers := s.m.fullers.set f { (s.m.fullers[f] : Fuller) with mode := 0, test := none } }) ∧
    ∀ v : Byte, completes (.fullerTestEnd f (some v)) s fun m' => m' = complete c 0xD3 0 (v.setWidth 96)
      { s.m with fullers := s.m.fullers.set f { (s.m.fullers[f] : Fuller) with test := none } }) ∧
  (∀ (f : FullerNo) (v : Option Byte) (s : State), (s.m.fullers[f] : Fuller).test = none → exec (.fullerTestEnd f v) s = .next s)

/-- A sweep may run: neither integrity stop nor a Critical shutdown, and none under way. -/
def Sys2Proof.Stmt.sweepsNow (t : Tile) (s : State) : Prop :=
  s.fe.powered = true ∧ s.m.prot.stop = none ∧ s.m.therm.critical = false ∧ (s.m.tiers[t] : TierSt).sweep = []

/-- A move of page `q` of a region that ends now has everything that it reads, and is the page's only one. -/
def Sys2Proof.Stmt.moveReady (t : Tile) (q : Nat) (v : Move) (r : BitVec 128) (l : List Byte) (s : State) : Prop :=
  s.fe.powered = true ∧ s.m.therm.critical = false ∧ (s.m.tiers[t] : TierSt).moves.filter (fun v => v.page == q) = [v] ∧
  pageRegion s.m t q = some r ∧ rgCrypt r = 0 ∧ moveHere s.m t r v = true ∧
  ∃ u, readStored s.m r v.key ((moveReads s.m t v).headD 0) (moveReads s.m t v).length = (.ok u, l)

/-- Sweeps, moves and trims (R298 to R301, R305): a sweep takes up what TIER_SET has set, ages every page, clears ACC and the counts of
reads, and starts no move for a page that was read since the last; a move whose last batt the write buffer has ends with its
page's entry in the new place; a demoted page of zeros is unbacked, and one that FULL_MAX batts do not hold is marked INCOMP; a page that is
trimmed is unbacked and leaves no line. -/
def Sys2Proof.Stmt.PagesAgeMoveAndTrim : Prop :=
  (∀ (t : Tile) (p v : Nat) (s : State), sweepsNow t s → (s.m.tiers[t] : TierSt).tmap = [] → (s.m.tiers[t] : TierSt).setNext = [(p, v)] → p < 4 →
    let old : TierSt := s.m.tiers[t]
    let new : TierSt := match p with
      | 0 => { old with sweepMs := v }
      | 1 => { old with demoteAge := v }
      | 2 => { old with promoteReads := v }
      | _ => { old with fullMax := v }
    completes (.tierSweep t) s fun m' => m' = { s.m with tiers := s.m.tiers.set t { new with setNext := [], fills := [] } }) ∧
  (∀ (t : Tile) (g : Nat) (s : State), sweepsNow t s → (s.m.tiers[t] : TierSt).setNext = [] → (s.m.tiers[t] : TierSt).moves = [] →
    1 ≤ (s.m.tiers[t] : TierSt).demoteAge → (∀ e ∈ (s.m.tiers[t] : TierSt).tmap, e.1 / 32 = g ∧ teState e.2 = 1 ∧ teAcc e.2 = true) →
    (metaLine s.m (tmapBatt s.m.tiers[t] (32 * g))).isSome = true → teBad s.m t (32 * g) = false →
    completes (.tierSweep t) s fun m' => (m'.tiers[t] : TierSt) = { (s.m.tiers[t] : TierSt) with
      tmap := (s.m.tiers[t] : TierSt).tmap.map (fun e => (e.1, ageEntry e.2)), fills := [] } ∧ m'.mem = s.m.mem) ∧
  (∀ (t : Tile) (s : State), s.m.prot.stop.isSome = true ∨ s.m.therm.critical = true → exec (.tierSweep t) s = .next s) ∧
  (∀ (t : Tile) (q : Nat) (v : Move) (r : BitVec 128) (b1 b2 : Bool) (s : State), s.fe.powered = true → s.m.therm.critical = false →
    moveOf s.m t q = some v → pageRegion s.m t q = some r → v.todo = some [] → (s.m.wbWait[t] : List WEntry) = [] → teHere s.m t q = true →
    (needsFuller v.kind = true → (fullerOf s.m (.move t q)).isSome = true) →
    completes (.tierMoveEnd t ⟨q, b1, b2⟩) s fun m' => ∃ x y, y = wakeTile t (capHeel t x) ∧ (m' = y ∨ m' = wakeTile t (capHeel t y)) ∧
      (x.tiers[t] : TierSt).moves = (s.m.tiers[t] : TierSt).moves.erase v ∧
      teGet x t q = (if v.kind = .backing ∨ v.kind = .promotion then tePlace (teGet s.m t q) 1 0 0 v.frame
                     else tePlace (teGet s.m t q) 2 v.len v.start v.frame)) ∧
  (∀ (t : Tile) (q : Nat) (v : Move) (r : BitVec 128) (l : List Byte) (b2 : Bool) (s : State), moveReady t q v r l s → v.kind = .demotion →
    (l.all (· == 0) = true → completes (.tierMoveEnd t ⟨q, false, b2⟩) s fun m' => ∃ x, m' = wakeTile t (capHeel t x) ∧
      teGet x t q = tePlace (teGet s.m t q) 0 0 0 0 ∧ (x.tiers[t] : TierSt).moves = (s.m.tiers[t] : TierSt).moves.erase v) ∧
    (l.all (· == 0) = false → (∀ st, fullPage l = some st → (s.m.tiers[t] : TierSt).fullMax < st.length / 256) → completes (.tierMoveEnd t ⟨q, false, b2⟩) s fun m' => ∃ x, m' = wakeTile t (capHeel t x) ∧
      teGet x t q = putBit (teGet s.m t q) 42 true ∧ (x.tiers[t] : TierSt).moves = (s.m.tiers[t] : TierSt).moves.erase v)) ∧
  (∀ (t : Tile) (q : Nat) (b1 b2 : Bool) (s : State), (∀ v ∈ (s.m.tiers[t] : TierSt).moves, v.page ≠ q) →
    exec (.tierMoveEnd t ⟨q, b1, b2⟩) s = .next s) ∧
  (∀ (h : AdminHdr) (w : BitVec 64) (n : Nat) (s : State), accepted h 0x0502 s →
    let off := wOff (w.setWidth 53)
    let b := begun h 0x0502 s.m
    (regionOf s.m off = none ∨ off % 4096 ≠ 0 ∨ n % 4096 ≠ 0 ∨ n = 0 ∨ 2 ^ 53 ≤ w.toNat →
      completes (.elasticTrim h w n) s fun m' => m' = done (tagOf h 0x0502) 0xD4 b) ∧
    (∀ r, regionOf s.m off = some r → rgElastic r = false ∨ rgPort r h.port = false →
      completes (.elasticTrim h w n) s fun m' => m' = done (tagOf h 0x0502) 0xD4 b) ∧
    (∀ r, regionOf s.m off = some r → rgElastic r = true → rgPort r h.port = true → w.toNat < 2 ^ 53 → wAper (w.setWidth 53) = 0 → off % 4096 = 0 →
      n = 4096 → off + n ≤ (rgLBase r + rgCount r) * 2 ^ 26 →
      let t := rgTile r
      let q := pageOf s.m.tiers[t] off
      (s.m.filters[t] : FilterSt).entries = [] → (s.m.filters[t] : FilterSt).snps = [] → (s.m.tiers[t] : TierSt).trims = [] →
      pageBusy s.m t q = false → teHere s.m t (32 * (q / 32)) = true →
      completes (.elasticTrim h w n) s fun m' => teGet m' t q = 0 ∧ (m'.tiers[t] : TierSt).trims = [] ∧ m'.mem = s.m.mem ∧
        (∀ l ∈ (m'.slices[t] : Slice).lines, ¬ (l.space = 0 ∧ lineAddr l / 4096 = pageOff s.m.tiers[t] q / 4096)) ∧
        (∀ p, p ≠ q → teGet m' t p = teGet s.m t p)))

/-- Tier parameters, fullers and pages (R298 to R301, R305, R314 to R319). -/
def Obligations.TiersAreSetSweptAndTrimmed : Prop :=
  TierParametersAndFullersAreSet ∧ PagesAgeMoveAndTrim

/-- Compression jobs (R307, R308, R311, R313, R316): the first descriptor of a port that need not wait is taken up: one that passes its
checks becomes a job of the fuller chosen for it, one that fails leaves its completion, under a key that serves no access with its
ring halted; a job whose computation ends goes on with its output; a compression whose self-verification fails goes to the tile's
other fuller, which is the last to fail it with code 0x06. Every job then goes on as far as it can. -/
def Obligations.JobsStartAndEnd : Prop :=
  (∀ (p : Port) (i : Nat) (x : Nat × RawEntry) (s : State), s.fe.powered = true → s.m.therm.critical = false →
    (List.range (s.m.rings.get p).jobs.length).find? (fun i => !jobWaits p s.m (s.m.rings.get p).jobs i) = some i →
    (s.m.rings.get p).jobs[i]? = some x →
    let j := parseJob p x.1 x.2
    let y := touch { s.m with rings := s.m.rings.set p { s.m.rings.get p with jobs := (s.m.rings.get p).jobs.eraseIdx i } }
    (jobOk j x.2 = false → completes (.jobDescriptor p) s fun m' => m' = jobsGo (jobFail j 0x02 0 y)) ∧
    (∀ f, jobStart s.m j x.2 = .run f → completes (.jobDescriptor p) s fun m' => m' = jobsGo (fullerGive f (.job s.m.accId)
      { y with accId := s.m.accId + 1, jobs := s.m.jobs ++ [{ j with id := s.m.accId, fuller := f.val }] })) ∧
    (∀ code d, jobStart s.m j x.2 = .fail code d 0 → code ≠ 0x08 → completes (.jobDescriptor p) s fun m' => m' = jobsGo (jobFail j code d y)) ∧
    (∀ k, jobStart s.m j x.2 = .fail 0x08 0 0x07 → jobKeyBad s.m j = some k →
      completes (.jobDescriptor p) s fun m' => m' = jobsGo (ringHalt p j.ring 0x07 (jobFail j 0x08 0 (keyRefused true p k y))))) ∧
  (∀ (p : Port) (s : State), s.m.jobs = [] → (∀ i < (s.m.rings.get p).jobs.length, jobWaits p s.m (s.m.rings.get p).jobs i = true) →
    exec (.jobDescriptor p) s = .next s) ∧
  (∀ (t : Tile) (u : Fin 2) (b1 b2 : Bool) (id : Nat) (j : Job) (src ctx : List Nat) (s : State), s.fe.powered = true → s.m.therm.critical = false →
    let f := fullerAt t u
    (s.m.fullers[f] : Fuller).run = some (.job id) → s.m.jobs.find? (fun j => j.id == id) = some j → j.stage = .reads src ctx →
    answered s.m (src ++ ctx) = true →
    let y := fullerEnd (.job id) (touch s.m)
    (j.op ≠ 1 ∨ b1 = false → completes (.jobComplete t u b1 b2) s fun m' => m' = jobsGo (jobOut j src ctx y)) ∧
    (j.op = 1 → b1 = true → b2 = true ∨ (y.fullers[twin f] : Fuller).mode ≠ 0 →
      completes (.jobComplete t u b1 b2) s fun m' => m' = jobsGo (jobFails j 0x06 0 0 (dropAcc (src ++ ctx) y))) ∧
    (j.op = 1 → b1 = true → b2 = false → (y.fullers[twin f] : Fuller).mode = 0 →
      completes (.jobComplete t u b1 b2) s fun m' => m' = jobsGo (jobOut { j with fuller := (twin f).val } src ctx (handOver f (fullerMismatch f
        { y with jobs := y.jobs.map (fun (k : Job) => if k.id == id then { k with fuller := (twin f).val } else k) })))) ) ∧
  (∀ (t : Tile) (u : Fin 2) (b1 b2 : Bool) (s : State), s.m.jobs = [] → exec (.jobComplete t u b1 b2) s = .next s)

/-! ### Packet buffer service and egress scheduler -/

/-- A command that reads a source buffer of `n` bytes (R585): a buffer that fails R164 ends it with `bad`, an access under a key id that
serves none with the event of R264; with its reads answered and its object's turn (R513) it goes on with the bytes, or ends with
`bad` when one was poisoned; else it waits. -/
def Sys2Proof.Stmt.setsFrom (c : Instr) (h : AdminHdr) (op : BitVec 16) (work : AdminWork) (w : BitVec 64) (n bad : Nat) (s : State)
    (P : List Byte → Mod → Mod → Prop) : Prop :=
  accepted h op s →
    let b := begun h op s.m
    (bufOk b h.port w n = false → completes c s fun m' => m' = done (tagOf h op) bad (bufRefuse h.port w n b)) ∧
    (bufOk b h.port w n = true → ∀ ids x, readRange (adminBy b h.port) w n b = (ids, x) →
      (answered x ids = false ∨ objectBusy x (tagOf h op) work = true → completes c s fun m' => m' = park (tagOf h op) work ids x) ∧
      (answered x ids = true → objectBusy x (tagOf h op) work = false →
        (anyBad x ids = true → completes c s fun m' => m' = done (tagOf h op) bad (dropAcc ids x)) ∧
        (anyBad x ids = false → completes c s (P (rangeBytes x ids w n) (dropAcc ids x)))))

/-- Set-up (R343, R344, R357, R359, R361, R396, R397): POOL_SET, QUEUE_SET, REPL_SET, EPORT_SET and CPOOL_SET take their entry from the
source buffer, refuse one that breaks a range, an overlap or a change that must not be made, each with its code, and otherwise put
it in force and complete with 0x00; a pool that is enabled starts with every run of it in service free. CPOOL_SET writes back the
counter lines of a pool that it disables first. -/
def Obligations.SetUpCommandsPutTheirEntryInForce : Prop :=
  (∀ (h : AdminHdr) (k : Nat) (w : BitVec 64) (s : State), k ≤ 63 →
    setsFrom (.poolSet h k w) h 0x0601 (.poolSet k w) w 64 0x55 s fun l x m' =>
      let old := poolAt x k
      let p := poolFrom l old
      let starts : Bool := p.enable && !old.enable
      if poolRanges l = false then m' = done (tagOf h 0x0601) 0x51 x
      else if poolPlaced x k p = false then m' = done (tagOf h 0x0601) 0x52 x
      else if tabHas x.qs.pools k = true ∧ sameGeometry old p = false ∧
          (old.enable = true ∨ heldRuns x k (fun r => r.st != .free) ≠ []) then m' = done (tagOf h 0x0601) 0x53 x
      else ∃ y, m' = done (tagOf h 0x0601) 0x00 y ∧ poolAt y k = (if starts then { p with posted := [] } else p) ∧
        (∀ j, j ≠ k → poolAt y j = poolAt x j) ∧ y.mem = x.mem ∧
        (starts = false → y = { x with qs := { x.qs with pools := y.qs.pools } }) ∧
        (starts = true → ∀ n, runAt y n = if p.runBase ≤ n ∧ n < p.runBase + p.runCount then { initRun with dead := (runAt x n).dead }
          else runAt x n)) ∧
  (∀ (h : AdminHdr) (q : Nat) (w : BitVec 64) (s : State), q ≤ 262143 →
    setsFrom (.queueSet h q w) h 0x0604 (.queueSet q w) w 16 0x55 s fun l x m' =>
      if 1 < fld l 9 1 ∨ fld l 10 6 ≠ 0 then m' = done (tagOf h 0x0604) 0x51 x
      else m' = done (tagOf h 0x0604) 0x00 (onQueue q (fun y => { y with limG := fld l 0 3, limY := fld l 3 3, limR := fld l 6 3
                                                                         st := if y.st = 2 then 2 else fld l 9 1 }) x)) ∧
  (∀ (h : AdminHdr) (n : Nat) (w : BitVec 64) (s : State), n ≤ 4095 →
    setsFrom (.replSet h n w) h 0x0607 (.replSet n w) w 256 0x55 s fun l x m' =>
      let word (i : Nat) : Word32 := BitVec.ofNat 32 (fld l (4 * i) 4)
      if (List.range 64).any (fun i => bitsOf (word i) 18 13 != 0#13) then m' = done (tagOf h 0x0607) 0x51 x
      else ∃ y, m' = done (tagOf h 0x0607) 0x00 y ∧ y = { x with qs := { x.qs with repl := y.qs.repl } } ∧
        (∀ i < 64, tabGet 0 y.qs.repl (n * 64 + i) = word i) ∧ (∀ j, j / 64 ≠ n → tabGet 0 y.qs.repl j = tabGet 0 x.qs.repl j)) ∧
  (∀ (h : AdminHdr) (n : Nat) (w : BitVec 64) (s : State), n ≤ 127 →
    setsFrom (.eportSet h n w) h 0x0608 (.eportSet n w) w 4 0x55 s fun l x m' =>
      let v : Word32 := BitVec.ofNat 32 (fld l 0 4)
      if bitsOf v 9 22 ≠ 0#22 then m' = done (tagOf h 0x0608) 0x51 x
      else ∃ y, m' = done (tagOf h 0x0608) 0x00 y ∧ y = { x with qs := { x.qs with eports := y.qs.eports } } ∧
        tabGet 0 y.qs.eports n = v ∧ (∀ j, j ≠ n → tabGet 0 y.qs.eports j = tabGet 0 x.qs.eports j)) ∧
  (∀ (h : AdminHdr) (k : Nat) (w : BitVec 64) (s : State), k ≤ 63 →
    setsFrom (.cpoolSet h k w) h 0x0801 (.cpoolSet k w) w 64 0x74 s fun l x m' =>
      let old := cpoolAt x k
      let p : CounterPool := { old with cbase := fld l 0 4, ccount := fld l 4 4, dgran := fld l 8 2, mode := fld l 10 1, enable := fld l 11 1 == 1 }
      let y : Mod := { x with cpools := tabPut x.cpools k p }
      if cpoolRanges l = false then m' = done (tagOf h 0x0801) 0x71 x
      else if cpoolPlaced x k p = false then m' = done (tagOf h 0x0801) 0x72 x
      else if old.enable = true ∧ (p.cbase ≠ old.cbase ∨ p.ccount ≠ old.ccount ∨ p.dgran ≠ old.dgran) then m' = done (tagOf h 0x0801) 0x73 x
      else (cpoolAt y k = p ∧ ∀ j, j ≠ k → cpoolAt y j = cpoolAt x j) ∧
        m' = if old.enable = true ∧ p.enable = false then cpoolOff (tagOf h 0x0801) k (flushSel (tileOf (p.dgran / 2 ^ 13)) (cpoolLine p) y)
          else done (tagOf h 0x0801) 0x00 y)

/-- A command without a source buffer runs in the order of its object (R513): behind an earlier one it waits. -/
def Sys2Proof.Stmt.runsInTurn (c : Instr) (h : AdminHdr) (op : BitVec 16) (work : AdminWork) (s : State) (P : Mod → Mod → Prop) : Prop :=
  accepted h op s →
    (objectBusy (begun h op s.m) (tagOf h op) work = true → completes c s fun m' => m' = park (tagOf h op) work [] (begun h op s.m)) ∧
    (objectBusy (begun h op s.m) (tagOf h op) work = false → completes c s (P (begun h op s.m)))

/-- Readback and reset (R345, R359, R368, R371, R394): POOL_READ, RUN_READ, QUEUE_READ and SCHED_READ return their words; QUEUE_RESET takes a
halted queue, releases what it can reach, and leaves it empty and in service, once the run-header blocks that it walks are at hand
(the model's choice, log entry 115); a queue that is not halted gives 0x54. -/
def Obligations.QueueServiceReadsBackAndResets : Prop :=
  (∀ (h : AdminHdr) (k : Nat) (s : State), k ≤ 63 → runsInTurn (.poolRead h k) h 0x0602 (.poolRead k h) s fun b m' =>
    m' = completeWith h (tagOf h 0x0602) 0 0 (poolCounts s.m (poolAt s.m k)) b ∧
    (poolCounts s.m (poolAt s.m k)).take 4 = toBytes (BitVec.ofNat 32 (freeRuns s.m (poolAt s.m k))) 4) ∧
  (∀ (h : AdminHdr) (n : Nat) (s : State), accepted h 0x0603 s → n < 2 ^ 24 → completes (.runRead h n) s fun m' => ∃ v : Word32,
    m' = completeWith h (tagOf h 0x0603) 0 0 (toBytes v 4) (begun h 0x0603 s.m) ∧ bitsOf v 8 8 = (runAt s.m n).live ∧
    ((runAt s.m n).nextCell < 16 → (bitsOf v 4 4).toNat = (runAt s.m n).nextCell) ∧ ((runAt s.m n).refs < 128 → (bitsOf v 16 7).toNat = (runAt s.m n).refs) ∧
    (v.getLsbD 2 = (runAt s.m n).repl) ∧ v.getLsbD 3 = (runAt s.m n).stored) ∧
  (∀ (h : AdminHdr) (q : Nat) (s : State), q ≤ 262143 → runsInTurn (.queueRead h q) h 0x0605 (.queueRead q h) s fun b m' =>
    m' = completeWith h (tagOf h 0x0605) 0 0 (queueWords (queueAt s.m q)) b) ∧
  (∀ (h : AdminHdr) (q : Nat) (s : State), q ≤ 262143 → runsInTurn (.queueReset h q) h 0x0606 (.queueReset q) s fun b m' =>
    let y := hdrSettle (queueLabel b q) b (walkQueue h.port (queueAt s.m q).pkts q ([], b))
    ((queueAt s.m q).st ≠ 2 → m' = done (tagOf h 0x0606) 0x54 b) ∧
    ((queueAt s.m q).st = 2 → y.1 = true →
      (queueAt m' q).head = 0xFFFF_FFFF ∧ (queueAt m' q).tail = 0xFFFF_FFFF ∧ (queueAt m' q).pkts = 0 ∧ (queueAt m' q).cells = 0 ∧
      (queueAt m' q).st = 1 ∧ (queueAt m' q).halt = 0) ∧
    ((queueAt s.m q).st = 2 → y.1 = false → m' = park (tagOf h 0x0606) (.queueReset q) [] y.2) ∧
    ((queueAt s.m q).st = 2 → (queueAt s.m q).pkts = 0 → ∃ x, m' = done (tagOf h 0x0606) 0x00 x ∧
      x = { b with qs := x.qs, egress := x.egress } ∧ ∀ j, j ≠ q → queueAt x j = queueAt s.m j)) ∧
  (∀ (h : AdminHdr) (t e : Nat) (s : State),
    (accepted h 0x0702 s → 4 < t ∨ (t ≤ 4 ∧ tableSize t ≤ e) →
      completes (.schedRead h t e) s fun m' => m' = done (tagOf h 0x0702) 0x62 (begun h 0x0702 s.m)) ∧
    (t ≤ 4 → e < tableSize t → runsInTurn (.schedRead h t e) h 0x0702 (.schedRead t e h) s fun b m' =>
      m' = if h.rlen < 32 then done (tagOf h 0x0702) 0xE2 b
        else if bufOk b h.port h.rbuf 32 = false then done (tagOf h 0x0702) 0x65 (bufRefuse h.port h.rbuf 32 b)
        else completeWith h (tagOf h 0x0702) 0 0 (if t = 4 then polState b e else nodeState b (nodeKey t e)) b))

/-- A cell write at or above its open run's NEXTCELL merges its bytes into the cell, with an assembly entry, and answers (R351). -/
def Sys2Proof.Stmt.cellMerged (q : MReq) (m m' : Mod) : Prop :=
  let n := wOff q.w / 2048
  let c := wOff q.w / 256 % 8
  let r := runAt m n
  r.st = .open_ → r.dead = false → r.nextCell ≤ c → (r.cells.isSome = true ∨ assemblyUsed m (runTile n) < 8192) →
    ∃ y, m' = sendNdr q .none y ∧ (runAt y n).cells = some (mergeCell (r.cells.getD (List.replicate 8 0)) c (wOff q.w / 64 % 4) q.data q.en) ∧
      (runAt y n).refs = r.refs ∧ (runAt y n).st = .open_ ∧ (∀ j, j ≠ n → runAt y j = runAt m j) ∧ y = { m with qs := { m.qs with runs := y.qs.runs } }

/-- Grants, holds and releases (R348, R350, R351, R363 to R366): a grant goes to the pool's ring, its run OPEN; the release of a closed
run's last reference frees it, and a release of what is not live only counts and is reported; a hold sweep ages its runs and
expires those of age 3; a cell write that waited for an assembly entry goes on. -/
def Obligations.RunsAreGrantedHeldAndReleased : Prop :=
  (∀ (k : Fin 64) (bank next : Nat) (s : State), s.fe.powered = true → s.m.therm.critical = false →
    let p := poolAt s.m k
    p.enable = true → ringRoom s.m p.grantPort p.grantRing = true → cfgType (ringAt s.m p.grantPort p.grantRing).cfg = 1 →
    (bankOrder s.m (runTile p.runBase) p.grantPos).find? (fun b => !(bankList s.m p b.1).isEmpty) = some (bank, next) →
    completes (.grantPost k) s fun m' => ∃ x, ∃ n ∈ bankList s.m p bank, m' = ringPost p.grantPort p.grantRing (grantEntry n k) x ∧
      runAt x n = { runAt s.m n with st := .open_ } ∧ (∀ j, j ≠ n → runAt x j = runAt s.m j) ∧
      poolAt x k = { p with grantPos := next, posted := p.posted ++ [(n, ringKey p.grantPort p.grantRing, (ringAt s.m p.grantPort p.grantRing).midx)] } ∧
      x = { s.m with free := s.m.free + 1, qs := { s.m.qs with runs := x.qs.runs, pools := x.qs.pools } }) ∧
  (∀ (k : Fin 64) (s : State), (poolAt s.m k).enable = false → exec (.grantPost k) s = .next s) ∧
  (∀ (p : Port) (ring : Nat) (e : RawEntry) (rest : List (Nat × RawEntry)) (s : State), s.fe.powered = true → s.m.therm.critical = false →
    (s.m.rings.get p).rel = (ring, e) :: rest → (byteOf e 20).toNat = 1 →
    let n := refRun (entRef e 0 0)
    let f := refFirst (entRef e 0 0)
    let r := runAt s.m n
    (r.dead = false → r.st = .closed → r.live.getLsbD f = true → r.repl = false → r.refs = 1 → completes (.release p) s fun m' =>
      runAt m' n = initRun ∧ (∀ j, j ≠ n → runAt m' j = runAt s.m j) ∧ m'.mem = s.m.mem ∧ m'.qs.queues = s.m.qs.queues ∧
      m'.qs.pools = s.m.qs.pools ∧ (m'.rings.get p).rel = rest) ∧
    (r.dead = false → r.st = .closed → r.live.getLsbD f = true → r.repl = false → 1 < r.refs → completes (.release p) s fun m' =>
      runAt m' n = { r with refs := r.refs - 1, live := putBit r.live f false } ∧ (∀ j, j ≠ n → runAt m' j = runAt s.m j) ∧
      m'.mem = s.m.mem ∧ m'.qs.queues = s.m.qs.queues ∧ m'.qs.pools = s.m.qs.pools ∧ (m'.rings.get p).rel = rest) ∧
    (r.live.getLsbD f = false → completes (.release p) s fun m' => ∃ x, m' = doubleEvent p n f 0 x ∧ x.qs.runs = s.m.qs.runs ∧
      ∀ k, (poolAt x k).double = if (poolHolding s.m n).map (·.1) = some k then min 0xFFFFFFFF ((poolAt s.m k).double + 1)
        else (poolAt s.m k).double)) ∧
  (∀ (p : Port) (s : State), (s.m.rings.get p).rel = [] → exec (.release p) s = .next s) ∧
  (∀ (k : Fin 64) (s : State), s.fe.powered = true → s.m.therm.critical = false → (poolAt s.m k).grantHold ≠ 0 →
    let held := heldRuns s.m k (fun r => r.st == .open_ && r.taken && !r.dead)
    (held = [] → exec (.grantHoldSweep k) s = .next s) ∧
    (∀ n, held = [n] → (runAt s.m n).age < 3 →
      completes (.grantHoldSweep k) s fun m' => m' = onRun n (fun r => { r with age := r.age + 1 }) s.m) ∧
    (∀ n, held = [n] → 3 ≤ (runAt s.m n).age → completes (.grantHoldSweep k) s fun m' => ∃ x, m' = event 0x0805 0 (n + k.val * 2 ^ 24) x ∧
      (poolAt x k).grantExp = min 0xFFFFFFFF ((poolAt s.m k).grantExp + 1) ∧ (∀ j, j ≠ n → runAt x j = runAt s.m j) ∧
      ((runAt s.m n).st = .open_ → (runAt x n).st = if (runAt s.m n).refs = 0 then .free else .closed))) ∧
  (∀ (k : Fin 64) (s : State), s.fe.powered = true → s.m.therm.critical = false → (poolAt s.m k).relHold ≠ 0 →
    let held := heldRuns s.m k (fun r => r.st == .closed && 0 < r.refs && r.qrefs == 0 && !r.dead)
    (held = [] → exec (.releaseHoldSweep k) s = .next s) ∧
    (∀ n, held = [n] → (runAt s.m n).age < 3 →
      completes (.releaseHoldSweep k) s fun m' => m' = onRun n (fun r => { r with age := r.age + 1 }) s.m) ∧
    (∀ n, held = [n] → 3 ≤ (runAt s.m n).age → completes (.releaseHoldSweep k) s fun m' => ∃ x, m' = event 0x0806 0 (n + k.val * 2 ^ 24) x ∧
      runAt x n = { initRun with dead := (runAt s.m n).dead } ∧ (∀ j, j ≠ n → runAt x j = runAt s.m j) ∧
      (poolAt x k).relExp = min 0xFFFFFFFF ((poolAt s.m k).relExp + 1))) ∧
  (∀ (k : Fin 64) (s : State), s.fe.powered = true →
    ((poolAt s.m k).grantHold = 0 → completes (.grantHoldSweep k) s fun m' => m' = s.m) ∧
    ((poolAt s.m k).relHold = 0 → completes (.releaseHoldSweep k) s fun m' => m' = s.m)) ∧
  (∀ (t : Tile) (i : Nat) (q : MReq) (s : State), s.fe.powered = true → s.m.therm.critical = false →
    s.m.qs.writeWaits.findIdx? (fun q => runTile (wOff q.w / 2048) == t) = some i → s.m.qs.writeWaits[i]? = some q →
    let r := runAt s.m (wOff q.w / 2048)
    let x : Mod := { s.m with qs := { s.m.qs with writeWaits := s.m.qs.writeWaits.eraseIdx i } }
    (assemblyUsed s.m t < 8192 ∨ r.st ≠ .open_ ∨ r.dead = true ∨ r.cells.isSome = true →
      completes (.cellWriteResume t) s fun m' => m' = cellWrite q x ∧ cellMerged q x m') ∧
    (8192 ≤ assemblyUsed s.m t → r.st = .open_ → r.dead = false → r.cells = none → exec (.cellWriteResume t) s = .next s)) ∧
  (∀ (t : Tile) (s : State), (∀ q ∈ s.m.qs.writeWaits, runTile (wOff q.w / 2048) ≠ t) → exec (.cellWriteResume t) s = .next s)

/-- Enqueue and selection (R354 to R356, R361, R367, R375, R377, R395): an entry that fails a check is reported with its code; a valid
one queues its copy and references its run; a selection posts the packet at the head of the chosen queue and charges the nodes of
its path; a header that cannot be used halts its queue. Either waits while a run-header block that it uses is in DRAM (log entry
115). Nothing moves during integrity stop or critical shutdown. -/
def Sys2Proof.Stmt.PacketsAreQueuedAndSelected : Prop :=
  (∀ (p : Port) (ring : Nat) (e : RawEntry) (rest : List (Nat × RawEntry)) (s : State), s.fe.powered = true → s.m.prot.stop = none →
    s.m.therm.critical = false → (s.m.rings.get p).enq = (ring, e) :: rest →
    let y := touch { s.m with rings := s.m.rings.set p { s.m.rings.get p with enq := rest } }
    (enqueueCheck s.m e ≠ 0 → completes (.enqueue p) s fun m' => m' = fetchPump (enqueueInvalid p ring (enqueueCheck s.m e) e y)) ∧
    (let q := (bitsOf (enqDest e) 0 18).toNat
     let n := refRun (entRef e 4 0)
     enqueueCheck s.m e = 0 → (enqDest e).getLsbD 31 = false → runsOf (enqLen e) = 1 → (enqPol e).getLsbD 22 = false →
     s.m.qs.spilled = [] → s.m.qs.hdrs.length < 8192 →
     let k := (poolOfRun s.m n).elim 0 (·.1)
     let c := (bitsOf (enqPol e) 20 2).toNat
     ((queueAt s.m q).st = 1 → floorOf (poolAt s.m k) c ≤ freeRuns s.m (poolAt s.m k) → (poolAt s.m k).hdrUsed.length < (poolAt s.m k).hdrCount →
       (queueAt s.m q).cells + cellsOf (enqLen e) ≤ limitOf (queueAt s.m q) c →
       completes (.enqueue p) s fun m' => ∃ x, m' = fetchPump x ∧ (queueAt x q).pkts = (queueAt s.m q).pkts + 1 ∧
         (queueAt x q).cells = (queueAt s.m q).cells + cellsOf (enqLen e) ∧ (queueAt x q).enq = (queueAt s.m q).enq + 1 ∧
         (∀ j, j ≠ q → queueAt x j = queueAt s.m j) ∧ (runAt x n).refs = (runAt s.m n).refs + 1 ∧ (runAt x n).qrefs = (runAt s.m n).qrefs + 1 ∧
         (runAt x n).nextCell = refFirst (entRef e 4 0) + cellsOf (enqLen e)) ∧
     ((queueAt s.m q).st ≠ 1 → completes (.enqueue p) s fun m' => ∃ x, m' = fetchPump x ∧
       (queueAt x q).dropHalt = min 0xFFFFFFFF ((queueAt s.m q).dropHalt + 1) ∧ (queueAt x q).pkts = (queueAt s.m q).pkts ∧
       (∀ j, j ≠ q → queueAt x j = queueAt s.m j))) ∧
    (let w := hdrSettle (queueLabel s.m ((destQueues s.m (enqDest e)).headD 0)) s.m (enqueueValid (cfgLabel (ringAt s.m p ring).cfg) e y)
     enqueueCheck s.m e = 0 → completes (.enqueue p) s fun m' => m' = if w.1 = true then fetchPump w.2 else touch w.2)) ∧
  (∀ (p : Port) (s : State), s.m.prot.stop.isSome = true ∨ s.m.therm.critical = true ∨ (s.m.rings.get p).enq = [] → exec (.enqueue p) s = .next s) ∧
  (∀ (p g c k : Nat) (m1 m2 m3 : Mod) (s : State), s.fe.powered = true → s.m.prot.stop = none → s.m.therm.critical = false →
    nextPort s.m = some p → chooseChild (nodeKey 3 p) { s.m with egress := { s.m.egress with lastPort := p } } = (some g, m1) →
    chooseChild g m1 = (some c, m2) → chooseChild c m2 = (some k, m3) →
    let q := keyNum k
    let ref := (queueAt m3 q).head.toNat
    let y := hdrSettle (queueLabel m3 q) s.m (hdrFetch ref [] ([], m3))
    (y.1 = false → completes .selection s fun m' => m' = y.2) ∧
    (m3.qs.spilled = [] →
      let r := readHdr m3 ref
      let w := tabGet 0 s.m.qs.eports p
      let path := [k, c, g, nodeKey 3 p]
      completes .selection s fun m' =>
        if r.2 ≠ 0 then m' = haltQueue q r.2 m3
        else ∃ x, (x.qs.eports = s.m.qs.eports ∧ x.egress = m3.egress ∧ (queueAt x q).pkts = (queueAt m3 q).pkts - 1 ∧ x.mem = s.m.mem ∧
            x.rings = s.m.rings) ∧
          m' = examineAll path (path.foldl (fun m a => chargeNode r.1.len a m)
            (perfCount devPage (perfPlain 3 15) none (perfCount devPage (perfPlain 5 15) none
              (ringPost (epPort w) (epRing w) (notifyEntry q p r.1) x)))) ∧
          ∀ a, 3 ≠ keyLevel a → (schedNode (chargeNode r.1.len a x) a).deficit = (schedNode x a).deficit - max ((r.1.len : Int) + (schedNode x a).ovh) 1)) ∧
  (∀ s : State, s.m.prot.stop.isSome = true ∨ s.m.therm.critical = true ∨ nextPort s.m = none → exec .selection s = .next s)

/-- Credits, wheels and tables (R382, R386, R387, R390 to R394): a credit entry adds to TXCREDIT and saturates with its event, and one for
no egress port is reported; the wheels serve what is due; SCHED_COMMIT refuses a range or a disabled table, reads its entries, reports
the first that cannot be read or breaks a range, and otherwise puts them in force in order. -/
def Sys2Proof.Stmt.SchedulerTakesCreditsAndTables : Prop :=
  (∀ (p : Port) (ring : Nat) (e : RawEntry) (rest : List (Nat × RawEntry)) (s : State), s.fe.powered = true → s.m.therm.critical = false →
    (s.m.rings.get p).cred = (ring, e) :: rest →
    let y := touch { s.m with rings := s.m.rings.set p { s.m.rings.get p with cred := rest } }
    let ep := (byteOf e 0).toNat
    let old := schedNode s.m (nodeKey 3 ep)
    let sum : Int := old.txCredit + ((bitsOf e 32 32).toNat : Int)
    completes (.creditEntry p) s fun m' =>
      if 128 ≤ ep then m' = event 0x0902 0 (ep + p.num * 2 ^ 8 + ring * 2 ^ 9) y
      else ∃ x, schedNode x (nodeKey 3 ep) = { old with txCredit := min sum 0x7FFFFFFF } ∧
        (∀ j, j ≠ nodeKey 3 ep → schedNode x j = schedNode s.m j) ∧ x = { y with egress := { y.egress with nodes := x.egress.nodes } } ∧
        m' = if 0x7FFFFFFF < sum then event 0x0901 0 (ep + p.num * 2 ^ 8 + ring * 2 ^ 9) x else x) ∧
  (∀ (p : Port) (s : State), (s.m.rings.get p).cred = [] → exec (.creditEntry p) s = .next s) ∧
  (∀ s : State, s.fe.powered = true →
    (∀ e ∈ s.m.egress.nodes, ∀ d, e.2.wheel = some (d, false) → upTime s.m < d) →
    completes .wheelBucketEnd s fun m' => m' = s.m) ∧
  (∀ (k d : Nat) (n : Node) (s : State), s.fe.powered = true → s.m.therm.critical = false → s.m.egress.nodes = [(k, n)] →
    n.wheel = some (d, false) → (d + 31) / 32 * 32 ≤ upTime s.m →
    completes .wheelBucketEnd s fun m' => m' = resched k (onNode k (fun n => { n with wheel := none }) s.m)) ∧
  (∀ s : State, s.fe.powered = true → s.m.therm.critical = false → completes .coarseWheelPeriod s fun m' =>
    m' = { s.m with egress := { s.m.egress with nodes := m'.egress.nodes } } ∧
    ∀ k, let n := schedNode s.m k
      schedNode m' k = match n.wheel with
        | some (d, true) => if d / 2097152 ≤ upTime s.m / 2097152 then { n with wheel := some (d, false) } else n
        | _ => n) ∧
  (∀ (h : AdminHdr) (t first n : Nat) (s : State), accepted h 0x0701 s → 1 ≤ n → n ≤ 65536 →
    let b := begun h 0x0701 s.m
    let tag := tagOf h 0x0701
    let good := ((List.range n).takeWhile (fun i => entryOk b h.port (entryW b t (first + i)))).length
    (4 < t ∨ (t ≤ 4 ∧ tableSize t < first + n) → completes (.schedCommit h t first n) s fun m' => m' = done tag 0x62 b) ∧
    (t ≤ 4 → first + n ≤ tableSize t → (s.m.egress.tbase.toList.getD t 0).getLsbD 0 = false →
      completes (.schedCommit h t first n) s fun m' => m' = done tag 0x63 b) ∧
    (t ≤ 4 → first + n ≤ tableSize t → (s.m.egress.tbase.toList.getD t 0).getLsbD 0 = true → ∀ ids x,
      accesses good (fun i m => access (adminBy m h.port) .memRd (rangeW (entryW m t (first + i)) 0) 0 0 false m)
        (if good = n then b else bufRefuse h.port (entryW b t (first + good)) 32 b) = (ids, x) →
      let busy := objectBusy x tag (.schedCommit t first n good)
      (answered x ids = false ∨ busy = true →
        completes (.schedCommit h t first n) s fun m' => m' = park tag (.schedCommit t first n good) ids x) ∧
      (∀ code i, answered x ids = true → busy = false → readEntries x t first good ids n 0 = .error (code, i) →
        completes (.schedCommit h t first n) s fun m' => m' = complete tag code 0 (BitVec.ofNat 96 i) (dropAcc ids x)) ∧
      (∀ y, n = 1 → answered x ids = true → busy = false → readEntries x t first good ids n 0 = .ok [.node y] →
        completes (.schedCommit h t first n) s fun m' => m' = done tag 0x00 (commitNode t first y (dropAcc ids x))) ∧
      (∀ y, n = 1 → answered x ids = true → busy = false → readEntries x t first good ids n 0 = .ok [.pol y] →
        completes (.schedCommit h t first n) s fun m' => ∃ z, m' = done tag 0x00 z ∧
          tabGet initPolicer z.egress.policers first = polMerge (upTime x) (tabGet initPolicer x.egress.policers first) y ∧
          (∀ j, j ≠ first → tabGet initPolicer z.egress.policers j = tabGet initPolicer x.egress.policers j) ∧
          z = { dropAcc ids x with egress := { x.egress with policers := z.egress.policers } })))

/-- Enqueue, selection, credits, wheels and tables (R354 to R356, R361, R367, R375, R377, R382, R386 to R395). -/
def Obligations.PacketsAreQueuedScheduledAndPaid : Prop :=
  PacketsAreQueuedAndSelected ∧ SchedulerTakesCreditsAndTables

/-! ### Gangline (*Gangline peer link and mirroring*) -/

/-- The gangline with `f` of its fields changed. -/
def Sys2Proof.Stmt.gangSet (m : Mod) (f : GangSt → GangSt) : Mod := { m with gang := f m.gang }

/-- A sequenced flit that is the next one expected, of the epoch in force, with no message waiting to leave and no acknowledgement. -/
def Sys2Proof.Stmt.expected (f : FlitHdr) (s : State) : Prop :=
  s.fe.powered = true ∧ s.m.gang.link = 3 ∧ f.epoch % 64 = s.m.gang.epoch.toNat % 64 ∧ s.m.gang.parity = false ∧
  s.m.gang.rxNum = s.m.gang.expect ∧ s.m.gang.txWait = [] ∧ f.ackV = false

/-- What the header and the count of such a flit leave, before its message (R431 to R434, R441). -/
def Sys2Proof.Stmt.recvd (f : FlitHdr) (m : Mod) : Mod :=
  gangSet m fun g => { g with rxNum := (g.rxNum + 1) % 4096, barkAt := if f.bark then m.tb.now else g.barkAt, reqRet := f.cred % 1024
                              expect := (g.expect + 1) % 4096, unacked := g.unacked + 1, ackV := true }

/-- The end of a flit's service: the sixteenth accepted flit that no ACK covers is answered with an idle flit (R433). -/
def Sys2Proof.Stmt.flitTail (m m' : Mod) : Prop :=
  m' = if 16 ≤ m.gang.unacked then gangPlain (.idle ((m.gang.expect + 4095) % 4096)) m else m

/-- No mirrored write awaits a MACK or a RACK, and the mirror engine has nothing under way. -/
def Sys2Proof.Stmt.mirrorIdle (g : GangSt) : Prop := g.waits = [] ∧ g.held = [] ∧ g.rxWait = [] ∧ g.reading = none

/-- A resynchronisation that has ended, with the mirror state `x` (R443, R451). -/
def Sys2Proof.Stmt.resyncEnded (x : MirrorState) (m : Mod) : Mod :=
  gangSet m fun g => { g with mirror := x, waits := [], held := [], copying := none, left := [], toCopy := [], digOut := [], donePass := []
                              pass := 0, rxDone := false, reading := none }

/-- Training and the epoch's opening (R423 to R425, R436, R437, R448): an attempt that times out goes on at the next width, then at the
lower rate, and after the last waits to retry; link-up sends HELLO; a HELLO of another module opens the epoch above both, in
lane-parity mode where a side needs it, and with equal digests the source is chosen; one of this module's own id stops the
gangline with its event; one that comes while the link is up reports the digest anew. -/
def Obligations.GanglineTrainsAndOpensAnEpoch : Prop :=
  (∀ s : State, s.fe.powered = true → s.m.gang.link = 2 → s.m.gang.change = none → completes .gangTrainingTimeout s fun m' =>
    m' = gangSet s.m fun g =>
      if g.width < 2 then { g with width := g.width + 1 } else if g.rate = 0 then { g with width := 0, rate := 1 }
      else { g with link := 1, width := 0, rate := 0 }) ∧
  (∀ s : State, s.m.gang.link ≠ 2 → exec .gangTrainingTimeout s = .next s) ∧
  (∀ s : State, s.fe.powered = true → s.m.gang.link = 1 → s.m.gang.dead = false → s.m.proc.bootDone = true → s.m.therm.critical = false →
    s.m.power.state ≠ 3 → completes .gangTrainingRetry s fun m' => m' = gangSet s.m fun g => { g with link := 2, width := 0, rate := 0 }) ∧
  (∀ s : State, s.m.gang.link ≠ 1 ∨ s.m.gang.dead = true → exec .gangTrainingRetry s = .next s) ∧
  (∀ (w : Fin 3) (r : Fin 2) (s : State), s.fe.powered = true → s.m.gang.link = 2 → s.m.gang.change = none →
    completes (.ganglineLinkUp w r) s fun m' =>
      let x : GangOut := .hello s.m.gang.topEpoch s.m.gang.fresh (!s.m.gang.bitmap.isEmpty) s.m.gang.needPar (regionDigest s.m)
      m'.gang = { s.m.gang with width := w.val, rate := r.val } ∧ m'.out = .gang s.m.gang.epoch.toNat 0 x (gangFlit m'.gang 0 x) :: s.m.out ∧
      m' = { s.m with gang := m'.gang, out := m'.out, perf := m'.perf }) ∧
  (∀ (f : FlitHdr) (x : HelloMsg) (s : State), s.fe.powered = true → s.m.gang.link = 2 → s.m.gang.change = none → s.m.gang.dead = false →
    (x.moduleId = Config.moduleId → completes (.hello f x) s fun m' => m' = event 0x0B01 0 1 (gangSet s.m fun g =>
      { g with dead := true, link := 1, peerId := x.moduleId, err := putBit g.err 7 true })) ∧
    (x.moduleId ≠ Config.moduleId → s.m.gang.fresh = true → x.fresh = true → x.digest = regionDigest s.m → completes (.hello f x) s fun m' =>
      let g := s.m.gang
      m'.gang.link = 3 ∧ m'.gang.mirror = .mirroring ∧ m'.gang.topEpoch = max g.topEpoch x.epoch + 1 ∧
      m'.gang.epoch = BitVec.ofNat 32 (max g.topEpoch x.epoch + 1) ∧ m'.gang.parity = (g.needPar || x.parity) ∧
      m'.gang.primary = decide (Config.moduleId.toNat < x.moduleId.toNat) ∧ m'.gang.peerId = x.moduleId ∧ m'.gang.sent = [] ∧ m'.gang.txWait = [] ∧
      m'.gang.nextSeq = 0 ∧ m'.gang.expect = 0 ∧ m'.gang.reqSent = 0 ∧ m'.gang.barkAt = s.m.tb.now ∧ m' = { s.m with gang := m'.gang }) ∧
    (x.moduleId ≠ Config.moduleId → x.digest = regionDigest s.m → completes (.hello f x) s fun m' =>
      let g := s.m.gang
      let y := openEpoch x s.m
      m' = if g.fresh && x.fresh then gangSet y fun g => { g with mirror := .mirroring }
        else if g.fresh then startDest y
        else if x.fresh then startSource false y
        else if !g.bitmap.isEmpty && x.dirty then gangSet y fun g => { g with mirror := .split }
        else if !g.bitmap.isEmpty then startSource false y
        else if x.dirty then startDest y
        else if Config.moduleId.toNat < x.moduleId.toNat then startSource true y
        else startDest y) ∧
    (x.moduleId ≠ Config.moduleId → x.digest ≠ regionDigest s.m → mirrorIdle s.m.gang → completes (.hello f x) s fun m' =>
      ∃ y, m' = event 0x0B02 0 x.digest.toNat y ∧ y.gang.mirror = .mismatch ∧ y.gang.err.getLsbD 8 = true ∧ y.gang.link = 3 ∧
        y = { s.m with gang := y.gang })) ∧
  (∀ (f : FlitHdr) (x : HelloMsg) (s : State), expected f s → s.m.gang.dead = false → x.digest = regionDigest s.m →
    let y := gangSet (recvd f s.m) fun g => { g with peer := some x }
    completes (.hello f x) s (flitTail (if s.m.gang.mirror = .mismatch then chooseSource x y else y))) ∧
  (∀ (f : FlitHdr) (x : HelloMsg) (s : State), s.m.gang.dead = true ∨ s.m.gang.link < 2 → exec (.hello f x) s = .next s)

/-- The end of an epoch (R443): the link is down or trains again, mirroring is down, nothing waits to be sent or replayed, and the event
gives the epoch and the cause. -/
def Sys2Proof.Stmt.epochOver (cause : Nat) (m m' : Mod) : Prop :=
  ∃ x, m' = event 0x0B03 0 (m.gang.epoch.toNat + cause * 2 ^ 32) x ∧ x.gang.link = (if m.gang.dead then 1 else 2) ∧ x.gang.mirror = .down ∧
    x.gang.sent = [] ∧ x.gang.txWait = [] ∧ x.gang.change = none ∧ x.gang.waits = [] ∧ x.gang.epoch = m.gang.epoch ∧
    x.gang.needPar = m.gang.needPar ∧ x.gang.bitmap = m.gang.bitmap ∧ x = { m with gang := x.gang }

/-- A change of width or rate begins: this module has asked the peer for it (R438, R439). -/
def Sys2Proof.Stmt.changeAsked (w r : Nat) (m m' : Mod) : Prop :=
  m' = gangSet (gangTx false (.change w r) m) fun g => { g with link := 2, change := some (w, r), changeOwn := true }

/-- Link layer (R428, R431 to R442): headers of idle flits return credits and acknowledge; a marker sets the number expected next, and one
too far back ends the epoch; a flit that fails its check is counted and discarded, or ends an epoch of lane-parity mode; the timers
acknowledge, replay and bark; a loss of lanes asks for the half that is left; a loss of all lanes, the third replay expiry in a row,
no bark for 35 µs, a link-logic fault and a change that does not end take the epoch down with their causes. -/
def Sys2Proof.Stmt.GanglineFlitsTimersAndFaultsAct : Prop :=
  (∀ (f : FlitHdr) (s : State), s.fe.powered = true → gangEpoch f s.m = true → s.m.gang.txWait = [] → completes (.idle f) s fun m' =>
    m' = gangSet s.m fun g =>
      let acked := f.ackV && g.sent.any (fun x => x.seq == f.ack)
      { g with barkAt := if f.bark then s.m.tb.now else g.barkAt, reqRet := f.cred % 1024
               sent := if acked then (g.sent.dropWhile (fun x => x.seq != f.ack)).drop 1 else g.sent
               expiries := if acked then 0 else g.expiries }) ∧
  (∀ (f : FlitHdr) (n : Fin 4096) (s : State), s.fe.powered = true → gangEpoch f s.m = true → s.m.gang.txWait = [] → f.ackV = false →
    let back := (s.m.gang.expect + 4096 - n.val) % 4096
    let y := gangSet s.m fun g => { g with barkAt := if f.bark then s.m.tb.now else g.barkAt, reqRet := f.cred % 1024 }
    (back ≤ 1024 → completes (.replayMarker f n) s fun m' => m' = gangSet y fun g => { g with rxNum := n.val }) ∧
    (1024 < back → s.m.gang.link = 3 → mirrorIdle s.m.gang → s.m.gang.laneTest = none → completes (.replayMarker f n) s fun m' =>
      epochOver 5 (event 0x0B01 0 2 (gangSet y fun g => { g with err := putBit g.err 7 true })) m')) ∧
  (∀ (f : FlitHdr) (n : Fin 4096) (s : State), gangEpoch f s.m = false → exec (.idle f) s = .next s ∧ exec (.replayMarker f n) s = .next s) ∧
  (∀ (flit : BitVec 1024) (s : State), s.fe.powered = true → s.m.gang.link = 3 ∨ s.m.gang.link = 2 ∧ s.m.gang.change.isSome = true →
    flitPasses s.m.gang flit = false →
    let old := s.m.gang.crcAt.filter (fun t => s.m.tb.now < t + 1000000)
    let y := gangSet s.m fun g => { g with crcFail := min 0xFFFFFFFF (g.crcFail + 1), err := putBit g.err 0 true, crcAt := s.m.tb.now :: old }
    (s.m.gang.parity = false → old.length < 15 ∨ s.m.gang.change.isSome = true → completes (.flitDiscard flit) s fun m' => m' = y) ∧
    (s.m.gang.parity = false → 15 ≤ old.length → s.m.gang.change = none → completes (.flitDiscard flit) s fun m' =>
      if s.m.gang.width = 0 then changeAsked 1 s.m.gang.rate y m' else if s.m.gang.rate = 0 then changeAsked s.m.gang.width 1 y m' else m' = y) ∧
    (s.m.gang.parity = true → mirrorIdle s.m.gang → s.m.gang.laneTest = none → completes (.flitDiscard flit) s fun m' =>
      epochOver 7 (gangSet s.m fun g => { g with err := putBit g.err 3 true }) m')) ∧
  (∀ (flit : BitVec 1024) (s : State), flitPasses s.m.gang flit = true ∨ s.m.gang.link < 2 → exec (.flitDiscard flit) s = .next s) ∧
  (∀ s : State, s.fe.powered = true → s.m.gang.link = 3 →
    let sends (x : GangOut) (m' : Mod) : Prop := m'.out = .gang s.m.gang.epoch.toNat 0 x (gangFlit s.m.gang 0 x) :: s.m.out ∧
      m' = { s.m with out := m'.out, perf := m'.perf, gang := { s.m.gang with unacked := 0 } }
    (s.m.gang.unacked ≠ 0 → s.m.gang.parity = false → completes .ackTimer s (sends (.idle ((s.m.gang.expect + 4095) % 4096)))) ∧
    completes .barkPeriod s (sends .bark) ∧
    (s.m.gang.sent ≠ [] → s.m.gang.expiries < 3 → completes .replayTimer s fun m' =>
      let first : GangOut := .marker ((s.m.gang.sent.map (·.seq)).headD 0)
      m'.gang = { s.m.gang with expiries := s.m.gang.expiries + 1, replays := min 0xFFFFFFFF (s.m.gang.replays + 1)
                                err := putBit s.m.gang.err 1 true, unacked := 0 } ∧
      m'.out = (s.m.gang.sent.map (fun y => Out.gang s.m.gang.epoch.toNat y.seq y.msg (gangFlit s.m.gang y.seq y.msg))).reverse ++
        .gang s.m.gang.epoch.toNat 0 first (gangFlit s.m.gang 0 first) :: s.m.out ∧
      m' = { s.m with out := m'.out, perf := m'.perf, gang := m'.gang }) ∧
    (mirrorIdle s.m.gang → s.m.gang.laneTest = none →
      (s.m.gang.sent ≠ [] → 3 ≤ s.m.gang.expiries → completes .replayTimer s fun m' => epochOver 3 s.m m') ∧
      (s.m.gang.barkAt + 35000 ≤ s.m.tb.now → completes .barkTimeout s fun m' =>
        epochOver 2 (gangSet s.m fun g => { g with err := putBit g.err 5 true }) m') ∧
      (∀ l, l &&& activeLanes s.m.gang.width = activeLanes s.m.gang.width → completes (.laneLoss l) s fun m' => epochOver 1 s.m m'))) ∧
  (∀ (l : BitVec 8) (s : State), s.fe.powered = true → s.m.gang.link = 3 → s.m.gang.change = none → s.m.gang.width = 0 → l ≠ 0 → l ≠ 0xFF →
    completes (.laneLoss l) s fun m' =>
      if l &&& 0x0F = 0 then changeAsked 1 s.m.gang.rate s.m m' else if l &&& 0xF0 = 0 then changeAsked 2 s.m.gang.rate s.m m'
      else changeAsked 0 1 s.m m') ∧
  (∀ (l : BitVec 8) (s : State), s.m.gang.link ≠ 3 ∨ l &&& activeLanes s.m.gang.width = 0 → exec (.laneLoss l) s = .next s) ∧
  (∀ (b : Bool) (s : State), s.fe.powered = true → s.m.gang.link = 3 → mirrorIdle s.m.gang → s.m.gang.laneTest = none →
    completes (.linkLogicFault b) s fun m' => ∃ y, y = event 0x0B04 0 (if b then 1 else 0) (gangSet s.m fun g => { g with err := putBit g.err 4 true }) ∧
      epochOver 6 (gangSet y fun g => { g with needPar := true }) m') ∧
  (∀ s : State, s.m.gang.link = 0 → ∀ b, exec (.linkLogicFault b) s = .next s) ∧
  (∀ (w r : Nat) (s : State), s.fe.powered = true → s.m.gang.link = 2 → s.m.gang.change = some (w, r) →
    (mirrorIdle s.m.gang → s.m.gang.laneTest = none → completes .changeTimeout s (fun m' => epochOver 4 s.m m')) ∧
    (let y := gangSet s.m fun g => { g with link := 3, width := w, rate := r, change := none, changeOwn := false, changeWait := none, crcAt := [] }
     completes .changeComplete s fun m' =>
       (s.m.gang.sent = [] → s.m.gang.txWait = [] → s.m.gang.changeWait = none → m' = y) ∧
       m' = match s.m.gang.changeWait with
         | none => gangPump (resend y)
         | some (w', r', true) => askChange w' r' (gangPump (resend y))
         | some (w', r', false) => gangSet (gangPump (resend y)) fun g => { g with link := 2, change := some (w', r'), changeOwn := false })) ∧
  (∀ s : State, s.m.gang.change = none → exec .changeTimeout s = .next s ∧ exec .changeComplete s = .next s) ∧
  (∀ s : State, s.fe.powered = true → s.m.gang.link = 3 → s.m.gang.change = none → s.m.gang.width ≠ 0 ∨ s.m.gang.rate ≠ 0 → s.m.gang.laneTest = none →
    s.m.gang.keepX4 = false → completes .errorFreeTimer s (changeAsked 0 0 s.m))

/-- Received requests of the mirror engine (R445, R449): a mirrored write is stored, or refused with its status, and answered with a MACK;
one of status 0 recalls the hosts' copies; sectors, pages of zeros and digests of a resynchronisation are taken up; in SPLIT the first
of them shows that the peer is the source (log entry 100). -/
def Sys2Proof.Stmt.MirrorRequestsAreServed : Prop :=
  (∀ (f : FlitHdr) (s : State), expected f s →
    let q := wake 4 (touch (recvd f s.m))
    let d := asDest q
    let serves (c : Instr) (x : Mod) : Prop := completes c s (flitTail (mirrorGo x))
    (∀ (x : MirrorMsg) (data : Sector) (en : BitVec 64) (st : Nat), mirrorRefuses q x.keyId (x.sector.toNat * 64) = some st →
      let y := gangCredit (sendMack x.tag st (if st = 1 then keyRefused true .a x.keyId q else q))
      serves (.mwr f x data) y ∧ serves (.mwrp f x data en) y) ∧
    (∀ (x : MirrorMsg) (data : Sector) (id : Nat) (y : Mod), mirrorRefuses q x.keyId (x.sector.toNat * 64) = none →
      mirrorAccess false x.keyId (x.sector.toNat * 64) data (BitVec.allOnes 64) x.poison q = (id, y) →
      serves (.mwr f x data) (rxPut (.write x.tag (x.sector.toNat * 64)) [id] y)) ∧
    (∀ (x : MirrorMsg) (data : Sector) (en : BitVec 64) (id : Nat) (y : Mod), mirrorRefuses q x.keyId (x.sector.toNat * 64) = none →
      mirrorAccess false x.keyId (x.sector.toNat * 64) data en x.poison q = (id, y) →
      serves (.mwrp f x data en) (rxPut (.write x.tag (x.sector.toNat * 64)) [id] y)) ∧
    (∀ (x : MirrorMsg) (data : Sector), let off := x.sector.toNat * 64
      (mirrorRefuses d x.keyId off ≠ none → serves (.rsd f x data) (rxPut (.sectors off 1) [] d)) ∧
      (∀ id y, mirrorRefuses d x.keyId off = none → mirrorAccess true x.keyId off data (BitVec.allOnes 64) x.poison d = (id, y) →
        serves (.rsd f x data) (rxPut (.sectors off 1) [id] y))) ∧
    (∀ (x : MirrorMsg), let off := x.sector.toNat * 64 / 4096 * 4096
      (regionOf d off = none → serves (.zpg f x) (rxPut (.sectors off 64) [] d)) ∧
      (∀ r, regionOf d off = some r → mirrorRefuses d (engineKey r) off ≠ none → serves (.zpg f x) (rxPut (.sectors off 64) [] d)) ∧
      (∀ r, regionOf d off = some r → mirrorRefuses d (engineKey r) off = none → rgElastic r = true →
        serves (.zpg f x) (rxPut (.page off) [] d)) ∧
      (∀ r ids y, regionOf d off = some r → mirrorRefuses d (engineKey r) off = none → rgElastic r = false →
        accesses 64 (fun i m => mirrorAccess true (engineKey r) (off + 64 * i) 0 (BitVec.allOnes 64) false m) d = (ids, y) →
        serves (.zpg f x) (rxPut (.sectors off 64) ids y))) ∧
    (∀ (n : Nat) (l : List Word64), serves (.rdig f n l) (startDigests l n d)) ∧
    (∀ (n : Nat) (w : Word64), s.m.gang.fresh = true → serves (.rdig f n [w]) (destOver (gangCredit (gangTx false (.rack n (zeroDigest != w))
      (gangSet d fun g => { g with rxDiff := if zeroDigest != w then g.rxDiff ++ [n] else g.rxDiff, rxLast := g.rxLast || n + 1 == granCount d }))))) ∧
    (∀ (n : Nat) (w : Word64) (ids : List Nat) (y : Mod), s.m.gang.fresh = false → readGranule n d = (ids, y) →
      serves (.rdig f n [w]) (rxPut (.digests n [w]) ids y))) ∧
  (∀ (tag off : Nat) (ids : List Nat) (m : Mod), m.gang.rxWait = [⟨.write tag off, ids⟩] → answered m ids = true →
    let z := dropAcc ids (gangSet m fun g => { g with rxWait := [] })
    (anyBad m ids = false → mirrorGo m = granRead (mirrorRecall ((regionOf z off).elim 0 engineKey) off
      (gangCredit (gangTx false (.mack tag 0) (gangSet z fun g => { g with fresh := false }))))) ∧
    (anyBad m ids = true → mirrorGo m = granRead (gangCredit (gangTx false (.mack tag (if m.prot.stop.isSome then 3 else 4)) z)))) ∧
  (∀ (off n : Nat) (ids : List Nat) (m : Mod), m.gang.rxWait = [⟨.sectors off n, ids⟩] → answered m ids = true →
    mirrorGo m = granRead (gangCredit (granArrive off n (dropAcc ids (gangSet m fun g => { g with rxWait := [] })))))

/-- Mirroring (R443 to R451): received requests are served; a MACK of status 0 completes its write, and another is reported and marks the
granule; RACK and RESYNC_DONE move the source on; SUSPEND, STOP and RESUME set the mirror state; a change that the peer asks for
begins, or meets this module's own; a flit of another epoch does nothing. -/
def Obligations.MirrorMessagesAreServed : Prop :=
  MirrorRequestsAreServed ∧
  (∀ (f : FlitHdr) (s : State), expected f s →
    let r := recvd f s.m
    (∀ (tag : Nat) (w : MirrorWait), s.m.gang.waits.find? (fun w => w.tag == tag) = some w →
      let y := gangSet r fun g => { g with waits := g.waits.erase w, fresh := false }
      completes (.mack f tag 0) s (flitTail (resyncOver (w.req.elim y (fun q => sendNdr q .none y)))) ∧
      ∀ st : Fin 5, st ≠ 0 →
        let z := event 0x0B05 0 (st.val + w.off / 64 * 64) (gangSet (setDirty w.off y) fun g => { g with err := putBit g.err 6 true })
        completes (.mack f tag st) s (flitTail (resyncOver (w.req.elim z (fun q => sendNdr q .none z))))) ∧
    (∀ (tag : Nat) (st : Fin 5), s.m.gang.waits.find? (fun w => w.tag == tag) = none → completes (.mack f tag st) s (flitTail r)) ∧
    (∀ (n : Nat) (b : Bool), s.m.gang.copying = some n → completes (.rack f n b) s (flitTail (resyncNext 4 (serveAll s.m.gang.held (gangSet r fun g =>
      { g with copying := none, held := [], donePass := n :: g.donePass, bitmap := g.bitmap.filter (· != n) }))))) ∧
    (∀ (n : Nat) (b : Bool), s.m.gang.copying ≠ some n →
      completes (.rack f n b) s (flitTail (if s.m.gang.digOut.contains n then resyncNext 4 (gangSet r fun g =>
        { g with digOut := g.digOut.filter (· != n), toCopy := if b then g.toCopy ++ [n] else g.toCopy
                 donePass := if b then g.donePass else n :: g.donePass }) else r))) ∧
    (s.m.gang.mirror = .source → completes (.resyncDone f) s (flitTail (resyncOver (gangSet r fun g => { g with rxDone := true })))) ∧
    (s.m.gang.mirror ≠ .source → completes (.resyncDone f) s (flitTail r)) ∧
    (s.m.gang.mirror ≠ .suspended → completes (.resume f) s (flitTail r)) ∧
    (∀ x, s.m.gang.mirror = .suspended → s.m.gang.peer = some x → x.digest = regionDigest s.m →
      completes (.resume f) s (flitTail (startSource false r))) ∧
    (mirrorIdle s.m.gang →
      completes (.suspend f) s (flitTail (resyncEnded .suspended r)) ∧ completes (.stop f) s (flitTail (resyncEnded .peerstop r)) ∧
      ∀ x, s.m.gang.mirror = .suspended → s.m.gang.peer = some x → x.digest ≠ regionDigest s.m →
        completes (.resume f) s (flitTail (event 0x0B02 0 x.digest.toNat (gangSet (resyncEnded .mismatch r) fun g => { g with err := putBit g.err 8 true })))) ∧
    (∀ (w : Fin 3) (rt : Fin 2),
      let begins := gangSet r fun g => { g with link := 2, change := some (w.val, rt.val), changeOwn := false }
      completes (.change f w rt) s (flitTail (
        if s.m.gang.change = none then begins
        else if s.m.gang.changeOwn = false then gangSet r fun g => { g with changeWait := some (w.val, rt.val, false) }
        else if s.m.gang.primary then r else begins)))) ∧
  (∀ (f : FlitHdr) (x : MirrorMsg) (d : Sector) (en : BitVec 64) (n : Nat) (l : List Word64) (st : Fin 5) (b : Bool) (w : Fin 3) (rt : Fin 2) (s : State),
    gangEpoch f s.m = false → ∀ c ∈ [Instr.mwr f x d, .mwrp f x d en, .rsd f x d, .zpg f x, .rdig f n l, .mack f n st, .rack f n b, .suspend f, .resume f,
      .stop f, .change f w rt, .resyncDone f], exec c s = .next s)

/-- GANG_SOURCE and GANG_LANE_TEST (R448, R453): each meets its codes in order; a split pair gets its source, and the destination's bitmap
joins the source's (log entry 100: the peer's bits are a free value); a lane test asks for the other half of the lanes, and its end
goes back to the full width, or leaves it out with the failing lanes in its result. -/
def Sys2Proof.Stmt.GangCommandsAct : Prop :=
  (∀ (h : AdminHdr) (peer : Word64) (here : Bool) (s : State), accepted h 0x0901 s →
    let b := begun h 0x0901 s.m
    completes (.gangSource h peer here) s fun m' =>
      if s.m.gang.link ≠ 3 then m' = done (tagOf h 0x0901) 0x82 b
      else if s.m.gang.mirror ≠ .split then m' = done (tagOf h 0x0901) 0x81 b
      else if s.m.gang.peerId ≠ peer then m' = done (tagOf h 0x0901) 0x85 b
      else if here then m' = done (tagOf h 0x0901) 0x80 (startSource false (gangSet { b with free := b.free + 1 } fun g =>
        { g with bitmap := (List.range (granCount b)).filter (fun i => g.bitmap.contains i ||
                             ((Config.peerBits b.free).filter (· < granCount b)).contains i) }))
      else m' = done (tagOf h 0x0901) 0x80 (gangSet (send (.gangBitmap s.m.gang.bitmap) b) fun g =>
        { g with mirror := .dest, rxGran := [], rxDiff := [], rxLast := false })) ∧
  (∀ (h : AdminHdr) (hi : Bool) (ms : Nat) (s : State), accepted h 0x0902 s → 1 ≤ ms → ms ≤ 1000 →
    let b := begun h 0x0902 s.m
    completes (.gangLaneTest h hi ms) s fun m' =>
      if s.m.gang.change.isSome ∨ s.m.gang.laneTest.isSome then m' = done (tagOf h 0x0902) 0x83 b
      else if s.m.gang.link ≠ 3 then m' = done (tagOf h 0x0902) 0x82 b
      else changeAsked (if hi then 1 else 2) s.m.gang.rate (gangSet b fun g => { g with laneTest := some (tagOf h 0x0902, hi) }) m') ∧
  (∀ (fails : BitVec 8) (c : AdminTag) (hi : Bool) (s : State), s.fe.powered = true → s.m.gang.laneTest = some (c, hi) →
    let bad := fails &&& (if hi then 0xF0 else 0x0F)
    let y := done c 0x80 (gangSet s.m fun g => { g with laneTest := none })
    (bad = 0 → s.m.gang.link < 2 → completes (.gangLaneTestEnd fails) s fun m' => m' = y) ∧
    (bad = 0 → s.m.gang.link = 3 → s.m.gang.change = none → completes (.gangLaneTestEnd fails) s (changeAsked 0 0 y)) ∧
    (bad ≠ 0 → completes (.gangLaneTestEnd fails) s fun m' => m' = complete c 0x84 0 (bad.setWidth 96) (gangSet s.m fun g =>
      { g with laneTest := none, keepX4 := true }))) ∧
  (∀ (fails : BitVec 8) (s : State), s.m.gang.laneTest = none → exec (.gangLaneTestEnd fails) s = .next s)

/-- The gangline's link layer and its commands (R428, R431 to R442, R448, R453). -/
def Obligations.GanglineLinkAndCommandsAct : Prop :=
  GanglineFlitsTimersAndFaultsAct ∧ GangCommandsAct

/-! ### Temperature and heel requests -/

/-- Housekeeping rounds (R41, R454, R455, R465): a round is counted, its input readings are kept, the grace time written takes effect, and MR4
and ZQ work fall due in every pack (the round as the ZQ interval is the model's choice, log entry 104); a reading is taken where its channel is not under test, and a third failure in a
row breaks its channel; a DRAM temperature above 105 °C at two round ends in a row is Critical shutdown (said where the mirror engine has nothing under way). An MR4 channel
reads the hotter of two readings (R41). -/
def Sys2Proof.Stmt.RoundsTakeReadings : Prop :=
  (∀ (l : List (Fin 59 × Option Int)) (v i : Nat) (s : State), s.fe.powered = true → mirrorIdle s.m.gang → completes (.hkRoundEnd l v i) s fun m' =>
    m'.therm.rounds = s.m.therm.rounds + 1 ∧ m'.therm.graceIn = s.m.therm.grace ∧ m'.power.vinMv = v ∧ m'.power.iin = i ∧ m'.power.fetT = s.fe.fetT ∧
    (∀ p : Pack, (m'.packs[p] : PackSt).mr4Due = true ∧ (m'.packs[p] : PackSt).zqDue = true) ∧ m'.mem = s.m.mem) ∧
  (∀ (c : Fin 59) (t : Int) (v i : Nat) (s : State), s.fe.powered = true → mirrorIdle s.m.gang → s.m.therm.test = none → -40 * 16 ≤ t → t ≤ 150 * 16 →
    completes (.hkRoundEnd [(c, some t)] v i) s fun m' => sensorAt m' c.val = { sensorAt s.m c.val with temp := t, fails := 0 } ∧
      ∀ d, d ≠ c.val → sensorAt m' d = sensorAt s.m d) ∧
  (∀ (c : Fin 59) (t u : Int) (v i : Nat) (s : State), s.fe.powered = true → mirrorIdle s.m.gang → s.m.therm.test = none →
    -40 * 16 ≤ max t u → max t u ≤ 150 * 16 → completes (.hkRoundEnd [(c, some t), (c, some u)] v i) s fun m' =>
      sensorAt m' c.val = { sensorAt s.m c.val with temp := max t u, fails := 0 }) ∧
  (∀ (c : Fin 59) (v i : Nat) (s : State), s.fe.powered = true → mirrorIdle s.m.gang → s.m.therm.test = none → 2 ≤ (sensorAt s.m c.val).fails →
    completes (.hkRoundEnd [(c, none)] v i) s fun m' => sensorAt m' c.val = { sensorAt s.m c.val with fails := 3, broken := true }) ∧
  (∀ (t : Int) (v i : Nat) (s : State), s.fe.powered = true → mirrorIdle s.m.gang → s.m.therm.test = none → s.m.therm.critical = false → s.m.therm.dramOver = true →
    (sensorAt s.m 16).broken = false → 105 * 16 < t → t ≤ 150 * 16 →
    completes (.hkRoundEnd [(16, some t)] v i) s fun m' => m'.therm.critical = true ∧ m'.viral = true ∧ m'.sched.running = false ∧ m'.ev.crit = true ∧
      m'.sched.swap = none ∧ m'.gang.link ≤ 1 ∧ (∀ u : Tile, (m'.wbuf[u] : List WEntry) = [] ∧ (m'.wbWait[u] : List WEntry) = [] ∧ ∀ x ∈ (m'.slices[u] : Slice).lines, x.sdirty = 0))

/-- Heel requests and sensor tests (R461 to R463, R467): a request whose grace time has expired is enforced and raises the throttle level,
not twice within a grace time; a grace time without a thermal request lowers it; SENSOR_TEST takes one channel at a time, a test
that passes mends its channel and one that fails breaks it. -/
def Sys2Proof.Stmt.HeelRequestsAndSensorTestsAct : Prop :=
  (∀ (dram : Bool) (s : State), s.fe.powered = true → s.m.therm.critical = false →
    let c : Instr := .graceExpiry (if dram then .dram else .die)
    let h := if dram then s.m.therm.dramHeel else s.m.therm.dieHeel
    (h.raised = true → h.deadline ≤ s.m.tb.now → completes c s fun m' =>
      (if dram then m'.therm.dramHeel else m'.therm.dieHeel) = ⟨true, true, s.m.tb.now + s.m.therm.graceIn * 1000000⟩ ∧
      m'.therm.throttle = (if (s.m.therm.stepUpAt.any (fun t => s.m.tb.now < t + s.m.therm.graceIn * 1000000)) = true ∨ 3 ≤ s.m.therm.throttle then s.m.therm.throttle
        else s.m.therm.throttle + 1) ∧ m'.mem = s.m.mem) ∧
    (h.raised = false ∨ s.m.tb.now < h.deadline → completes c s fun m' => m' = s.m)) ∧
  (∀ (t : Tile) (s : State), s.fe.powered = true → s.m.therm.critical = false → (s.m.therm.capHeel[t] : Heel).raised = true →
    (s.m.therm.capHeel[t] : Heel).enforced = false → (s.m.therm.capHeel[t] : Heel).deadline ≤ s.m.tb.now → completes (.graceExpiry (.cap t)) s fun m' => ∃ x,
      m' = event 0x0C03 0 (heelData x 2 t.val 2 0 0) x ∧ (x.therm.capHeel[t] : Heel) = { (s.m.therm.capHeel[t] : Heel) with enforced := true } ∧
      (x.tiers[t] : TierSt) = { (s.m.tiers[t] : TierSt) with enforce := true } ∧ x = { s.m with therm := x.therm, tiers := x.tiers }) ∧
  (∀ (q : HeelReq) (s : State), s.m.therm.critical = true → exec (.graceExpiry q) s = .next s) ∧
  (∀ s : State, s.fe.powered = true → s.m.therm.critical = false → s.m.therm.dieHeel.raised = false → s.m.therm.dramHeel.raised = false →
    0 < s.m.therm.throttle → s.m.therm.downFrom + s.m.therm.graceIn * 1000000 ≤ s.m.tb.now → completes .throttleStepDown s fun m' =>
      m'.therm = { s.m.therm with throttle := s.m.therm.throttle - 1, downFrom := s.m.tb.now } ∧ m'.mem = s.m.mem) ∧
  (∀ s : State, s.m.therm.critical = true ∨ s.m.therm.dieHeel.raised = true ∨ s.m.therm.dramHeel.raised = true ∨ s.m.therm.throttle = 0 ∨
    s.m.tb.now < s.m.therm.downFrom + s.m.therm.graceIn * 1000000 → exec .throttleStepDown s = .next s) ∧
  (∀ (h : AdminHdr) (c : Nat) (s : State), accepted h 0x0A01 s →
    let b := begun h 0x0A01 s.m
    completes (.sensorTest h c) s fun m' =>
      if 58 < c then m' = done (tagOf h 0x0A01) 0x93 b
      else if s.m.therm.test.isSome then m' = done (tagOf h 0x0A01) 0x92 b
      else m'.therm.test = some (tagOf h 0x0A01, c) ∧ m' = { b with therm := { s.m.therm with test := m'.therm.test, sensors := m'.therm.sensors } }) ∧
  (∀ (c : AdminTag) (ch : Nat) (s : State), s.fe.powered = true → s.m.therm.test = some (c, ch) →
    (completes (.sensorTestEnd true) s fun m' => ∃ x, m' = done c 0x90 x ∧ sensorAt x ch = { sensorAt s.m ch with broken := false, fails := 0 } ∧
      (∀ d, d ≠ ch → sensorAt x d = sensorAt s.m d) ∧ x = { s.m with therm := { s.m.therm with test := none, sensors := x.therm.sensors } }) ∧
    (completes (.sensorTestEnd false) s fun m' => ∃ x, m' = done c 0x91 x ∧ (sensorAt x ch).broken = true ∧ x.therm.test = none ∧
      (∀ d, d ≠ ch → sensorAt x d = sensorAt s.m d) ∧ x.mem = s.m.mem)) ∧
  (∀ (pass : Bool) (s : State), s.m.therm.test = none → exec (.sensorTestEnd pass) s = .next s)

/-- Housekeeping rounds, heel requests and sensor tests (R454, R455, R461 to R463, R465, R467). -/
def Obligations.RoundsReadAndHeelRequestsAct : Prop :=
  RoundsTakeReadings ∧ HeelRequestsAndSensorTestsAct

/-! ### Power states -/

/-- Idle and Sleep (R488 to R490, R493, R495): entry after IDLE_US without work, exit to Run when the last domain is awake; SLEEP and the
sideband's request enter where R490's conditions hold and are refused with ENTRY 2 otherwise; the end of an entry counts it, or
turns at once into an exit when a wake cause waited; the exit restarts the frame; WAKE_N wakes; a write of PM_CTL that meets Sleep wakes and waits for the exit (R545). -/
def Obligations.IdleAndSleepEnterAndLeave : Prop :=
  (∀ s : State, s.fe.powered = true → s.m.power.state = 0 → s.m.power.idleUs ≠ 0 → s.m.power.workAt + s.m.power.idleUs * 1000 ≤ s.m.tb.now →
    idleWork s.m = false → s.m.power.sleepAfter = none → completes .idleEntry s fun m' => m' = { s.m with power := { s.m.power with state := 1 } }) ∧
  (∀ s : State, s.m.power.state ≠ 0 ∨ s.m.power.idleUs = 0 ∨ idleWork s.m = true ∨ s.m.tb.now < s.m.power.workAt + s.m.power.idleUs * 1000 →
    exec .idleEntry s = .next s) ∧
  (∀ s : State, s.fe.powered = true → s.m.power.state = 5 → s.m.power.last = 1 → s.m.prot.held = [] → completes .idleWakeDone s fun m' =>
    m' = fetchPump { s.m with power := { s.m.power with state := 0, phase := 0, target := 0, workAt := s.m.tb.now } }) ∧
  (∀ (h : AdminHdr) (s : State), accepted h 0x0A02 s →
    let b := begun h 0x0A02 s.m
    completes (.sleep h) s fun m' =>
      if sleepOk s.m = false then m' = done (tagOf h 0x0A02) 0xA1 { b with power := { b.power with entry := 2 } }
      else m' = sleepGo h.port (done (tagOf h 0x0A02) 0xA0 { b with power := { b.power with sleepAfter := some h.port } })) ∧
  (∀ (r : BitVec 4) (s : State), s.fe.powered = true → s.m.conn.ir ≠ 3 → s.m.power.state = 0 →
    let p := s.m.power
    let q : PowerSt := if sleepOk s.m then { p with retain := r, state := 4, target := 2, phase := 0 } else { p with retain := r, entry := 2 }
    completes (.pmSleepRequest r) s fun m' => m' = { s.m with power := q }) ∧
  (∀ (r : BitVec 4) (s : State), s.fe.powered = true → s.m.conn.ir ≠ 3 → s.m.power.state = 2 → s.m.therm.critical = false →
    completes (.pmSleepRequest r) s fun m' => m' = { s.m with
      power := { s.m.power with state := 5, last := 2, cause := 6 }
      conn := { s.m.conn with held := s.m.conn.held ++ [(0xA0308, 8, BitVec.ofNat 64 (1 + 4 * r.toNat))] } }) ∧
  (∀ (r : BitVec 4) (s : State), s.m.conn.ir = 3 → exec (.pmSleepRequest r) s = .next s ∧ exec (.pmDeepSleepRequest r) s = .next s) ∧
  (∀ s : State, s.fe.powered = true → s.m.power.state = 4 → s.m.power.target = 2 → s.m.power.phase = 1 →
    let p : PowerSt := { s.m.power with state := 2, entry := 1, entries := s.m.power.entries + 1, target := 0, phase := 0, wakePend := false }
    let q : PowerSt := if s.m.power.wakePend = true ∧ s.m.therm.critical = false then { p with state := 5, last := 2 } else p
    completes .sleepEntryDone s fun m' => m' = { s.m with power := q }) ∧
  (∀ s : State, s.m.power.state ≠ 4 → exec .sleepEntryDone s = .next s ∧ exec .deepSleepEntryDone s = .next s) ∧
  (∀ s : State, s.fe.powered = true → s.m.power.state = 5 → s.m.power.last = 2 → s.m.prot.held = [] → s.m.tb.lost = false →
    s.m.therm.critical = false → completes .sleepExitDone s fun m' => ∃ x,
    m' = fetchPump x ∧ x.power.state = 0 ∧ x.sched.running = true ∧ x.sched.gap = false ∧ x.sched.frameNo = s.m.sched.frameNo + 1 ∧
    x.sched.frameStart = s.m.tb.now ∧ x.mem = s.m.mem) ∧
  (∀ s : State, s.m.power.state ≠ 5 → exec .idleWakeDone s = .next s ∧ exec .sleepExitDone s = .next s ∧ exec .deepSleepExitPhaseEnd s = .next s) ∧
  (∀ s : State, s.fe.powered = true → s.m.therm.critical = false →
    (s.m.power.state = 2 → completes .wakeN s fun m' => m' = { s.m with power := { s.m.power with state := 5, last := 2, cause := 5 } }) ∧
    (s.m.power.state = 3 → completes .wakeN s fun m' => m' = { s.m with power := { s.m.power with state := 5, last := 3, cause := 5, phase := 1 } }) ∧
    (s.m.power.state ≤ 1 → completes .wakeN s fun m' => m' = s.m))

/-- Deep sleep (R241, R486, R491, R492): entry needs both ports in reset, the conditions of R490 and every mirrored region retained;
a full flush begins in every slice; its end loses what *Contents by state* loses; the exit goes through its phases to Run, with every tile ready at once when all
were retained. -/
def Obligations.DeepSleepEntersAndLeavesByPhases : Prop :=
  (∀ (r : BitVec 4) (s : State), s.fe.powered = true → s.m.conn.ir ≠ 3 → s.m.power.state = 0 →
    let ok := s.m.ports.a.inReset && s.m.ports.b.inReset && sleepOk s.m && mirrorsRetained r s.m
    (ok = false → completes (.pmDeepSleepRequest r) s fun m' => m' = { s.m with power := { s.m.power with retain := r, entry := 3 } }) ∧
    (ok = true → s.m.gang.link ≤ 1 → (∀ t : Tile, (s.m.filters[t] : FilterSt).entries = []) →
      completes (.pmDeepSleepRequest r) s fun m' =>
        m' = beginFlush { s.m with power := { s.m.power with retain := r, state := 4, target := 3, phase := 0 } } ∧
        ((∀ t : Tile, (s.m.slices[t] : Slice).lines = [] ∧ (s.m.slices[t] : Slice).transits = []) → m' = { s.m with
          power := { s.m.power with retain := r, state := 4, target := 3, phase := 0 }
          slices := s.m.slices.map (fun (x : Slice) => { x with flush := true }) }))) ∧
  (∀ s : State, s.fe.powered = true → s.m.power.state = 4 → s.m.power.target = 3 → s.m.power.phase = 1 → s.m.power.wakePend = false →
    completes .deepSleepEntryDone s fun m' => m'.power = { s.m.power with state := 3, entry := 1, entries := s.m.power.entries + 1, target := 0, phase := 0
                                                                          retained := s.m.power.retain, ready := 0 } ∧
      (∀ t : Tile, (m'.slices[t] : Slice).lines = [] ∧ (m'.slices[t] : Slice).disabled = (s.m.slices[t] : Slice).disabled ∧ (m'.filters[t] : FilterSt).entries = []) ∧
      m'.qs = initQueues ∧ m'.egress = initEgress ∧ m'.cpools = [] ∧ m'.rings = ⟨initRings, initRings⟩ ∧ m'.mem = s.m.mem ∧ m'.prot = s.m.prot ∧
      m'.tiers = s.m.tiers ∧ m'.flash = s.m.flash ∧ m'.proc.queue = [] ∧ ∀ p, (m'.ports.get p).inReset = (s.m.ports.get p).inReset ∧ (m'.ports.get p).err = (s.m.ports.get p).err) ∧
  (∀ s : State, s.fe.powered = true → s.m.power.state = 5 → s.m.power.last = 3 →
    (s.m.power.phase = 1 → completes .deepSleepExitPhaseEnd s fun m' => m'.power = { s.m.power with phase := 2 } ∧ m'.perf = initPerf ∧
      (m'.proc.sp0 = if s.m.proc.sp0 = .failed then .failed else .booting) ∧ (m'.proc.sp1 = if s.m.proc.sp1 = .failed then .failed else .booting) ∧
      m' = { s.m with power := m'.power, perf := m'.perf, proc := m'.proc }) ∧
    (s.m.power.phase = 2 → completes .deepSleepExitPhaseEnd s fun m' => m'.power = { s.m.power with phase := 3 } ∧ m'.proc.kickAt = s.m.tb.now ∧
      (∀ t : Tile, (m'.slices[t] : Slice) = { (s.m.slices[t] : Slice) with sweep := true, oneWay := none }) ∧ m' = { s.m with power := m'.power, proc := m'.proc, slices := m'.slices }) ∧
    (s.m.power.phase = 3 → s.m.power.retained ≠ 15 → s.m.tb.lost = false → s.m.therm.critical = false → completes .deepSleepExitPhaseEnd s fun m' => m'.power.phase = 4 ∧ m'.power.state = 5 ∧
      m'.power.ready = s.m.power.retained ∧ m'.filling = ~~~s.m.power.retained ∧ m'.sched.running = true ∧ m'.mem = s.m.mem ∧
      ∀ t : Tile, (m'.slices[t] : Slice).locked = 0 ∧ (m'.slices[t] : Slice).sweep = false) ∧
    (s.m.power.phase = 3 → s.m.power.retained = 15 → s.m.tb.lost = false → s.m.therm.critical = false → s.m.prot.held = [] → completes .deepSleepExitPhaseEnd s fun m' => ∃ x, m' = fetchPump x ∧
      x.power.state = 0 ∧ x.power.ready = 15 ∧ x.filling = 0 ∧ x.sched.running = true ∧ x.mem = s.m.mem ∧ ∀ p, (x.ports.get p).memActive = true) ∧
    (s.m.power.phase = 4 → completes .deepSleepExitPhaseEnd s fun m' => m'.power.phase = 5 ∧ m'.power.state = 5 ∧ m'.filling = s.m.filling ∧ m'.mem = s.m.mem) ∧
    (s.m.power.phase = 5 → s.m.prot.held = [] → completes .deepSleepExitPhaseEnd s fun m' => ∃ x, m' = fetchPump x ∧
      x.power.state = 0 ∧ x.filling = 0 ∧ x.power.ready = s.m.power.ready ||| s.m.filling ∧ (s.m.filling = 0 → x.mem = s.m.mem) ∧
      ∀ p, (x.ports.get p).memActive = true))

/-! ### Performance counters, registers and the event rings -/

/-- A port whose BAR accesses arrive in Run. -/
def Sys2Proof.Stmt.barOpen (p : Port) (s : State) : Prop :=
  s.fe.powered = true ∧ portTalks s.m p = true ∧ (s.m.ports.get p).d3hot = false ∧ s.m.power.state = 0

/-- The source that a port's BAR0 is. -/
def Sys2Proof.Stmt.barOf (p : Port) : Source := if p = .a then .portA else .portB

/-- A page that is open to the ports (R530). -/
def Sys2Proof.Stmt.pageOpen (m : Mod) (g : Fin 7) : Prop := g.val < 4 → m.perfUser.getLsbD g.val = true

/-- The state with one page of counters replaced. -/
def Sys2Proof.Stmt.pagePut (m : Mod) (g : Fin 7) (p : PerfPage) : Mod := { m with perf := m.perf.set g p }

/-- Performance counters (R529 to R539, R542): SNAP takes the counts of all eight counters of a page at one instant; a write to PERF_CNT
or PERF_SEL sets that counter alone; a write of BW_CFG ends the running window without a result; the sideband may write none
of them, and a closed tile page discards a write without an event. -/
def Sys2Proof.Stmt.CounterPagesAreWritten : Prop :=
  (∀ (p : Port) (g : Fin 7) (v : Word64) (s : State), barOpen p s → pageOpen s.m g → completes (.perfSnapshot (barOf p) g v) s fun m' =>
    let old : PerfPage := s.m.perf[g]
    let taken : Vector PerfCtr 8 := if v.getLsbD 2 then old.ctrs.map (fun (c : PerfCtr) => { c with snap := c.count }) else old.ctrs
    m' = pagePut (touch s.m) g { old with ctrs := taken, freeze := v.getLsbD 0, frzOnOvf := v.getLsbD 1 }) ∧
  (∀ (p : Port) (g : Fin 7) (i : Fin 8) (v : Word64) (s : State), barOpen p s → pageOpen s.m g → completes (.perfCounterWrite (barOf p) g i v) s fun m' =>
    let old : PerfPage := s.m.perf[g]
    m' = pagePut (touch s.m) g { old with ctrs := old.ctrs.set i { (old.ctrs[i] : PerfCtr) with count := (bitsOf v 0 48).toNat } }) ∧
  (∀ (p : Port) (g : Fin 7) (i : Fin 8) (v : Word64) (s : State), barOpen p s → pageOpen s.m g →
    (v.getLsbD 29 = false → inRange 0x01 0x04 (bitsOf v 0 8).toNat = true → g.val < 4 → bitsOf v 8 4 = 15 → bitsOf v 12 2 = 2 → bitsOf v 14 2 = 0 →
      completes (.perfSelWrite (barOf p) g i v) s fun m' => ∃ c : PerfCtr, m' = pagePut (touch s.m) g { (s.m.perf[g] : PerfPage) with ctrs := (s.m.perf[g] : PerfPage).ctrs.set i c } ∧ c.event = (bitsOf v 0 8).toNat ∧ c.qual = 15 ∧ c.pack = 2 ∧ c.occ = 0 ∧ c.chain = false ∧
        c.thresh = (bitsOf v 16 13).toNat ∧ c.irq = v.getLsbD 30 ∧ c.sample = v.getLsbD 31 ∧ c.en = v.getLsbD 32 ∧
        c.count = ((s.m.perf[g] : PerfPage).ctrs[i] : PerfCtr).count ∧ c.snap = ((s.m.perf[g] : PerfPage).ctrs[i] : PerfCtr).snap) ∧
    (v.getLsbD 29 = true → i.val % 2 = 0 → completes (.perfSelWrite (barOf p) g i v) s fun m' =>
      m' = regError (pageBase g + 0x10 * i.val) p.num 0 (touch s.m))) ∧
  (∀ (p : Port) (half : Fin 2) (v : Word64) (s : State), barOpen p s → completes (.bwCfgWrite (barOf p) half v) s fun m' =>
    let n := (bitsOf v 0 20).toNat
    let w := s.m.bw.get (halfPort half)
    if 1 ≤ n ∧ n ≤ 1000000 then m' = { touch s.m with bw := s.m.bw.set (halfPort half) { w with us := n, accRd := 0, accWr := 0 } }
    else m' = regError (0xB8300 + 0x1000 * half.val) p.num 0 (touch s.m)) ∧
  (∀ (g : Fin 7) (i : Fin 8) (v : Word64) (s : State), s.fe.powered = true → s.m.conn.ir ≠ 3 → s.m.power.state = 0 → pageOpen s.m g →
    completes (.perfSnapshot .sideband g v) s (fun m' => m' = regError (pageBase g + 0x108) 2 6 s.m) ∧
    completes (.perfCounterWrite .sideband g i v) s (fun m' => m' = regError (pageBase g + 0x10 * i.val + 8) 2 6 s.m)) ∧
  (∀ (p : Port) (g : Fin 7) (i : Fin 8) (v : Word64) (s : State), barOpen p s → g.val < 4 → s.m.perfUser.getLsbD g.val = false →
    completes (.perfSnapshot (barOf p) g v) s (fun m' => m' = touch s.m) ∧ completes (.perfCounterWrite (barOf p) g i v) s (fun m' => m' = touch s.m) ∧
    completes (.perfSelWrite (barOf p) g i v) s (fun m' => m' = touch s.m))

/-- Overflows and windows (R533, R536, R537, R539): a pending overflow sets its OVF bit, is captured when VALID is 0 and counted in MISSED
otherwise, freezes the page where FRZ_ON_OVF asks, and sends the page's message; the results of a bandwidth window change
together at its end. -/
def Sys2Proof.Stmt.OverflowsAndWindowsReport : Prop :=
  (∀ (g : Fin 7) (i : Fin 8) (e : PerfEvt) (s : State), s.fe.powered = true → (s.m.perf[g] : PerfPage).pend = [(i.val, e)] →
    let p : PerfPage := s.m.perf[g]
    let c : PerfCtr := p.ctrs[i]
    completes (.perfOverflow g) s fun m' => ∃ q : PerfPage, (m'.perf[g] : PerfPage) = q ∧ q.pend = [] ∧ q.ovf = putBit p.ovf i.val true ∧ q.ctrs = p.ctrs ∧
      q.freeze = (p.freeze || ((c.irq || c.sample) && p.frzOnOvf)) ∧ (c.sample = false → q.sample0 = p.sample0 ∧ q.sample1 = p.sample1) ∧
      (c.sample = true → p.sample0.getLsbD 3 = true → q.sample1 = p.sample1 ∧
        (bitsOf q.sample0 24 8).toNat = min 255 ((bitsOf p.sample0 24 8).toNat + 1)) ∧
      (c.sample = true → p.sample0.getLsbD 3 = false → i.val < 8 → e.event < 256 → e.qual < 16 → e.keyId < 64 → q.sample0.getLsbD 3 = true ∧
        (bitsOf q.sample0 0 3).toNat = i.val ∧ (bitsOf q.sample0 8 8).toNat = e.event ∧ (bitsOf q.sample0 4 4).toNat = e.qual ∧
        bitsOf q.sample0 32 32 = s.m.sched.frameNo) ∧
      m' = (if c.irq && p.irqEn then msix p.irqPort p.irqVec else id) (pagePut s.m g q)) ∧
  (∀ (g : Fin 7) (s : State), s.fe.powered = true → (s.m.perf[g] : PerfPage).pend = [] → completes (.perfOverflow g) s fun m' => m' = s.m) ∧
  (∀ (half : Fin 2) (s : State), s.fe.powered = true → completes (.bwWindowEnd half) s fun m' =>
    let w := s.m.bw.get (halfPort half)
    ∃ rx tx, let done : BwWindow := { w with rd := w.accRd % 2 ^ 48, wr := w.accWr % 2 ^ 48, rx := rx, tx := tx, seq := w.seq + 1, accRd := 0, accWr := 0 }
      m' = { s.m with free := s.m.free + 1, bw := s.m.bw.set (halfPort half) done })

/-- Performance counters: writes, snapshots, overflows and bandwidth windows (R529 to R539, R542). -/
def Obligations.CounterPagesWriteOverflowAndReport : Prop :=
  CounterPagesAreWritten ∧ OverflowsAndWindowsReport

/-- Register accesses (R12, R103, R104, R179, R182, R218, R335, R409, R541, R542, R544, R550, R551, R555): a write sets its register's writable
fields; one that is misaligned, unassigned, not allowed or reserved is discarded with its reason in REGERR; a 4 B write does not
reach a field of the other half; SLOTRD_DATA returns the slot word and notes its set, and zeros over the sideband; CLEAR clears a pack's missed-slot word; the
MSI-X table takes its words; poisoned data is recorded and not written (the model's choice, log entry 117); in D3hot nothing is written. -/
def Obligations.RegisterWritesFollowTheRules : Prop :=
  (∀ (p : Port) (v : Word64) (s : State), barOpen p s →
    let w (off size : Nat) : Instr := .registerWrite p .bar0 off size (some v)
    let t := touch s.m
    (completes (w 0x50200 8) s fun m' => m' = { t with insert := bitsOf v 0 16 }) ∧
    (completes (w 0x50204 4) s fun m' => m' = t) ∧
    (completes (w 0x1010 8) s fun m' => m' = { t with proc := { t.proc with scratch := t.proc.scratch.set 0 v } }) ∧
    (completes (w 0x1010 4) s fun m' => m' = t) ∧
    (completes (w 0x40200 8) s fun m' => m' = { t with slotSel := bitsOf v 0 22 }) ∧
    (∀ l : Fin 8, completes (w (0x1300 + 8 * l.val) 8) s fun m' =>
      if (bitsOf v 0 7).toNat ≤ 64 ∧ (bitsOf v 8 6).toNat ≤ 32 then
        m' = { t with labels := t.labels.set l { (t.labels[l] : LabelSt) with cshare := (bitsOf v 0 7).toNat, qshare := (bitsOf v 8 6).toNat } }
      else m' = regError (0x1300 + 8 * l.val) p.num 0 t) ∧
    (completes (w 0x10008 8) s fun m' => if p = .a then
        let q := t.ports.get .a
        m' = { t with ports := t.ports.set .a { q with err := q.err &&& ~~~(bitsOf v 0 _), viol := if v.getLsbD 0 then none else q.viol } }
      else m' = regError 0x10008 1 6 t) ∧
    (completes (w 0 8) s fun m' => m' = regError 0 p.num 6 t) ∧ (completes (w 0x28 8) s fun m' => m' = regError 0x28 p.num 4 t) ∧
    (∀ off size, size ≠ 4 → size ≠ 8 → ¬ (0xB0000 ≤ off ∧ off < 0xC0000) → completes (w off size) s fun m' => m' = regError off p.num 1 t) ∧
    (∀ off, off % 8 = 4 → ¬ (0xB0000 ≤ off ∧ off < 0xC0000) → completes (w off 8) s fun m' => m' = regError off p.num 1 t)) ∧
  (∀ (p : Port) (v : Word64) (s : State), barOpen p s → (s.m.ports.get p).msixOn = [] → (s.m.ports.get p).msixPend = [] → v.getLsbD 0 = false →
    completes (.registerWrite p .bar4 0x5C 4 (some v)) s fun m' =>
      m' = { touch s.m with ports := s.m.ports.set p { s.m.ports.get p with msixOn := [5], msixPend := [] } }) ∧
  (∀ (p : Port) (k : Nat) (v : Word64) (s : State), barOpen p s → k < 1024 →
    let q := s.m.ports.get p
    let old := tabGet (0, 0) q.msixTab k
    completes (.registerWrite p .bar4 (16 * k) 8 (some v)) s (fun m' => ∃ t, m' = { touch s.m with ports := s.m.ports.set p { q with msixTab := t } } ∧
      tabGet (0, 0) t k = (v, old.2) ∧ ∀ j, j ≠ k → tabGet (0, 0) t j = tabGet (0, 0) q.msixTab j) ∧
    completes (.registerWrite p .bar4 (16 * k + 8) 4 (some v)) s fun m' => ∃ t, m' = { touch s.m with ports := s.m.ports.set p { q with msixTab := t } } ∧
      tabGet (0, 0) t k = (old.1, bitsOf v 0 32) ∧ ∀ j, j ≠ k → tabGet (0, 0) t j = tabGet (0, 0) q.msixTab j) ∧
  (∀ (p : Port) (off size : Nat) (v : Word64) (s : State), barOpen p s → size = 4 ∨ size = 8 → off % size = 0 →
    completes (.registerWrite p .bar2 off size (some v)) s fun m' => m' = touch s.m) ∧
  (∀ (p : Port) (bar : Bar) (off size : Nat) (s : State), barOpen p s →
    completes (.registerWrite p bar off size none) s fun m' => ∃ x, m' = event 0x0308 0 (p.num + 4) x ∧
      (x.ports.get p).err = (s.m.ports.get p).err ||| 2#8 ∧ x.mem = s.m.mem ∧ x.rings = s.m.rings ∧ x.proc = s.m.proc ∧
      x = { touch s.m with ports := x.ports }) ∧
  (∀ (p : Port) (bar : Bar) (off size : Nat) (v : Option Word64) (s : State), s.fe.powered = true → portTalks s.m p = true →
    (s.m.ports.get p).d3hot = true → completes (.registerWrite p bar off size v) s fun m' => m' = wake (msgCode p) (touch s.m)) ∧
  (∀ (k : Pack) (p : Port) (s : State), barOpen p s → completes (.missedSlotClear (barOf p) k) s fun m' =>
    m' = { touch s.m with packs := s.m.packs.set k { (s.m.packs[k] : PackSt) with misses := 0, sinceBand := false } }) ∧
  (∀ (k : Pack) (s : State), s.fe.powered = true → s.m.conn.ir ≠ 3 → s.m.power.state = 0 → completes (.missedSlotClear .sideband k) s fun m' =>
    m' = regError (0x40100 + 8 * k.val) 2 6 s.m) ∧
  (∀ (p : Port) (s : State), barOpen p s → completes (.slotrdDataRead (barOf p)) s fun m' =>
    m' = { send (.regData p 8 (slotRdData (touch s.m))) (touch s.m) with slotSet := (slotRdSet s.m).elim 0 (·.setId) }) ∧
  (∀ s : State, s.fe.powered = true → s.m.conn.ir ≠ 3 → s.m.power.state = 0 → completes (.slotrdDataRead .sideband) s fun m' =>
    m' = send (.sideData (List.replicate 8 0)) { s.m with conn := { s.m.conn with header := some 0x04040208#32, posted := some (List.replicate 8 0) } })

/-- Event rings (R342, R516): an entry goes to each enabled event ring that has room and has not taken it, in SEQ order, and leaves the
FIFO once every enabled ring has it; with no ring enabled none leaves. -/
def Obligations.EventsArePostedInOrder : Prop :=
  (∀ s : State, s.fe.powered = true → eventRing s.m .a = none → eventRing s.m .b = none → completes .eventPost s fun m' => m' = s.m) ∧
  (∀ (p : Port) (r : Nat) (e : EvEntry) (rest : List EvEntry) (s : State), s.fe.powered = true → eventRing s.m p = some r →
    eventRing s.m p.other = none → ringRoom s.m p r = true → s.m.ev.fifo = e :: rest → (if p = .a then e.takenA else e.takenB) = false → s.m.ev.co = [] →
    (∀ x ∈ rest.head?, (if p = .a then x.takenA else x.takenB) = false) →
    completes .eventPost s fun m' => m'.ev.fifo = rest ∧ m'.ev.nextSeq = s.m.ev.nextSeq ∧ m'.ev.co = [] ∧ m'.mem = s.m.mem ∧
      m'.rings = (ringPost p r (evRaw e.seq e.kind e.sev e.frame e.loc e.data e.time) s.m).rings ∧
      m'.out = (ringPost p r (evRaw e.seq e.kind e.sev e.frame e.loc e.data e.time) s.m).out)

/-! ### The connector (*Card edge, signals and straps*) -/

/-- Sideband transfers (R545, R567 to R569): a write transfer writes its register as source sideband, or waits for the exit of a low-power state that it begins or meets; the header of a read posts its data, in
Run, and the read returns it. -/
def Obligations.SidebandTransfersReadAndWrite : Prop :=
  (∀ (h : BitVec 32) (l : List Byte) (s : State), s.fe.powered = true → s.m.conn.ir ≠ 3 → s.m.power.state = 0 → hdrBad h = false → l.length = hdrSize h →
    completes (.sidebandWrite h l) s fun m' => m' = regWrite .sideband (hdrOffset h) (hdrSize h) (ofBytes 64 l) s.m) ∧
  (∀ (h : BitVec 32) (l : List Byte) (s : State), s.fe.powered = true → s.m.conn.ir ≠ 3 → s.m.power.state = 0 → h = 0x040A_0010#32 → l.length = 8 →
    completes (.sidebandWrite h l) s fun m' => m' =
      if 1 ≤ (bitsOf (ofBytes 64 l) 0 7).toNat ∧ (bitsOf (ofBytes 64 l) 0 7).toNat ≤ 100 then { s.m with therm := { s.m.therm with grace := (bitsOf (ofBytes 64 l) 0 7).toNat } }
      else regError 0xA0010 2 0 s.m) ∧
  (∀ (h : BitVec 32) (n : Nat) (s : State), s.fe.powered = true → s.m.conn.ir ≠ 3 → s.m.power.state = 0 → hdrBad h = false →
    let data := toBytes (regRead s.fe s.m .sideband (hdrOffset h) (hdrSize h)) (hdrSize h)
    completes (.sidebandHeader h) s (fun m' => m' = { s.m with conn := { s.m.conn with header := some h, posted := some data } }) ∧
    (∀ l, s.m.conn.header = some h → s.m.conn.posted = some l → completes (.sidebandRead n) s fun m' =>
      m' = send (.sideData ((l ++ List.replicate n 0xFF).take n)) s.m)) ∧
  (∀ (h : BitVec 32) (n : Nat) (s : State), s.fe.powered = true → s.m.conn.ir ≠ 3 → 1 < s.m.power.state → s.m.conn.header = some h → s.m.conn.posted = none →
    completes (.sidebandRead n) s fun m' => m' = send .sideNack s.m) ∧
  (∀ (h : BitVec 32) (l : List Byte) (s : State), s.fe.powered = true → s.m.conn.ir ≠ 3 → s.m.power.state = 2 ∨ s.m.power.state = 5 → hdrBad h = false →
    l.length = hdrSize h → completes (.sidebandWrite h l) s fun m' => m' = { wake 6 s.m with
      conn := { s.m.conn with held := s.m.conn.held ++ [(hdrOffset h, hdrSize h, ofBytes 64 l)] } }) ∧
  (∀ (h : BitVec 32) (l : List Byte) (s : State), s.m.conn.ir = 3 → exec (.sidebandWrite h l) s = .next s ∧ exec (.sidebandHeader h) s = .next s)

/-- R568, whole: a transfer whose header sets a reserved bit, whose data length differs from SIZE, or whose OFFSET is not aligned for
SIZE is discarded and recorded in REGERR with reason 1 and source 2; a read of more bytes than SIZE returns 0xFF for the excess;
a read with no header since the last module reset returns zeros. A transfer reaches the module unless EXTEST holds its pins. -/
def Obligations.BrokenSidebandTransfersAreRecorded : Prop :=
  (∀ (h : BitVec 32) (l : List Byte) (s : State), s.fe.powered = true → s.m.conn.ir ≠ 3 →
    let size := if h.getLsbD 26 then 8 else 4
    let off := (bitsOf h 0 26).toNat
    (bitsOf h 27 5 ≠ 0 ∨ l.length ≠ size ∨ off % size ≠ 0 → completes (.sidebandWrite h l) s fun m' => m' = regError off 2 1 (wake 6 s.m)) ∧
    (bitsOf h 27 5 ≠ 0 ∨ off % size ≠ 0 → completes (.sidebandHeader h) s fun m' => m' = regError off 2 1 (wake 6 s.m))) ∧
  (∀ (off : Nat) (m : Mod), let x := regError off 2 1 m
    (m.ev.reValid = false → x.ev.reReason = 1 ∧ x.ev.reSource = 2 ∧ x.ev.reOffset = BitVec.ofNat 26 off ∧ x.ev.reValid = true) ∧
    (m.ev.reValid = true → x.ev.reReason = m.ev.reReason ∧ x.ev.reSource = m.ev.reSource ∧ x.ev.reOffset = m.ev.reOffset ∧ x.ev.reValid = true) ∧
    x.ev.reCount = min 0xFFFFFFFF (m.ev.reCount + 1) ∧ x.mem = m.mem ∧ x.conn = m.conn ∧ x.therm = m.therm ∧ x.prot = m.prot ∧ x.rings = m.rings) ∧
  (∀ (h : BitVec 32) (posted : List Byte) (n : Nat) (s : State), s.fe.powered = true → s.m.conn.ir ≠ 3 → s.m.conn.header = some h →
    posted.length = hdrSize h → s.m.conn.posted = some posted ∨
      (s.m.conn.posted = none ∧ s.m.power.state = 0 ∧ posted = toBytes (regRead s.fe s.m .sideband (hdrOffset h) (hdrSize h)) (hdrSize h)) →
    completes (.sidebandRead n) s fun m' => ∃ l : List Byte, m'.out = .sideData l :: s.m.out ∧ m' = { s.m with conn := m'.conn, out := m'.out } ∧
      l.length = n ∧ l.take (hdrSize h) = posted.take n ∧ ∀ b ∈ l.drop (hdrSize h), b = 0xFF) ∧
  (∀ (n : Nat) (s : State), s.fe.powered = true → s.m.conn.ir ≠ 3 → s.m.conn.header = none →
    completes (.sidebandRead n) s fun m' => m' = send (.sideData (List.replicate n 0)) s.m)

/-- I3C common command codes (R565, R566): the address commands assign, change and drop the dynamic address, SETDASA at the static address
0x60 + ADDR_SEL alone; GETPID carries 0x2048 in its part field and ADDR_SEL in its instance field; the others return their words. -/
def Sys2Proof.Stmt.CommonCommandCodesAnswer : Prop :=
  (∀ (a : BitVec 7) (s : State), s.fe.powered = true → s.m.conn.ir ≠ 3 → s.m.power.state = 0 →
    (s.m.conn.daValid = false → (completes (.entdaa a) s fun m' => m'.conn = { s.m.conn with da := a, daValid := true } ∧
        m' = { s.m with conn := m'.conn, out := m'.out }) ∧
      (completes (.setdasa (0x60 + s.m.conn.addrSel.setWidth 7) a) s fun m' => m' = { s.m with conn := { s.m.conn with da := a, daValid := true } }) ∧
      completes (.setnewda a) s (fun m' => m' = s.m)) ∧
    (s.m.conn.daValid = true → (completes (.setnewda a) s fun m' => m' = { s.m with conn := { s.m.conn with da := a, daValid := true } }) ∧
      completes (.entdaa a) s (fun m' => m' = s.m) ∧ ∀ st, completes (.setdasa st a) s fun m' => m' = s.m) ∧
    (∀ st, st ≠ 0x60 + s.m.conn.addrSel.setWidth 7 → completes (.setdasa st a) s fun m' => m' = s.m) ∧
    (completes .rstdaa s fun m' => m' = { s.m with conn := { s.m.conn with da := 0, daValid := false } })) ∧
  (∀ s : State, s.fe.powered = true → s.m.conn.ir ≠ 3 → s.m.power.state = 0 →
    (completes .getpid s fun m' => ∃ v : Nat, m' = send (.i3c v) s.m ∧ v / 2 ^ 16 % 2 ^ 16 = 0x2048 ∧ v / 2 ^ 12 % 16 = s.m.conn.addrSel.toNat) ∧
    completes .getbcr s (fun m' => m' = send (.i3c Config.bcr) s.m) ∧ completes .getdcr s (fun m' => m' = send (.i3c Config.dcr) s.m) ∧
    completes .getstatus s (fun m' => m' = send (.i3c Config.i3cStatus) s.m) ∧ completes .getmwl s (fun m' => m' = send (.i3c Config.mwl) s.m) ∧
    completes .getmrl s (fun m' => m' = send (.i3c Config.mrl) s.m)) ∧
  (∀ (st a : BitVec 7) (s : State), s.m.conn.ir = 3 → ∀ c ∈ [Instr.entdaa a, .setdasa st a, .setnewda a, .rstdaa, .getpid, .getbcr, .getdcr, .getstatus, .getmwl,
    .getmrl], exec c s = .next s)

/-- The TAP (R560, R570): IDCODE shows 1, the company's code, part 0x2048 and the stepping; PRELOAD loads the boundary register and SAMPLE
captures it, with PERST_N and ALERT_N as they stand; EXTEST drives the pins from it; another code is BYPASS unless debug is
enabled; TRST_N selects IDCODE and holds the TAP. -/
def Sys2Proof.Stmt.TapInstructionsTakeForce : Prop :=
  (∀ s : State, s.fe.powered = true → s.m.conn.tapReset = false → s.m.power.state ≠ 3 →
    let ir (c : BitVec 8) : Mod := { s.m with conn := { s.m.conn with ir := c } }
    (completes .idcode s fun m' => ∃ v : Nat, m' = send (.tdo v) (ir 1) ∧ v % 2 = 1 ∧ v / 2 ^ 12 % 2 ^ 16 = 0x2048) ∧
    (∀ v, completes (.samplePreload (some v)) s fun m' => m' = { s.m with conn := { s.m.conn with ir := 2, boundary := v } }) ∧
    (completes (.samplePreload none) s fun m' => ∃ v : BitVec 12, m' = { send (.tdo v.toNat) { s.m with conn := { s.m.conn with ir := 2, boundary := v } } with
      free := s.m.free + 1 } ∧ v.getLsbD 0 = !s.m.ports.a.inReset ∧ v.getLsbD 1 = !s.m.ports.b.inReset) ∧
    (completes .extest s fun m' => m' = send (.pins s.m.conn.boundary.toNat) (ir 3)) ∧
    (∀ c, completes (.bypass c) s fun m' => m' = ir (if c = 1 ∨ c = 2 ∨ c = 3 ∨ s.m.proc.debug then c else 0xFF))) ∧
  (∀ s : State, s.fe.powered = true →
    (completes (.trstN true) s fun m' => m' = { s.m with conn := { s.m.conn with tapReset := true, ir := 1 } }) ∧
    completes (.trstN false) s fun m' => m' = { s.m with conn := { s.m.conn with tapReset := false } }) ∧
  (∀ (v : Option (BitVec 12)) (b : BitVec 8) (s : State), s.m.conn.tapReset = true ∨ s.m.power.state = 3 →
    ∀ c ∈ [Instr.idcode, .samplePreload v, .extest, .bypass b], exec c s = .next s)

/-- I3C common command codes and the TAP (R560, R565, R566, R570). -/
def Obligations.CommonCodesAnswerAndTapInstructionsAct : Prop :=
  CommonCommandCodesAnswer ∧ TapInstructionsTakeForce

end
end

