-- ==== Sys2Proof/Laws/State.lean ====
section
/-! SUPPORT. Laws/State.lean: what each named update of the module leaves alone, field by field, and what it writes. -/
namespace Sys2Proof.Machine

variable (m : Mod)

/-! ### send -/

@[simp] theorem send_tb (o : Out) : (send o m).tb = m.tb := rfl
@[simp] theorem send_ev (o : Out) : (send o m).ev = m.ev := rfl
@[simp] theorem send_sched (o : Out) : (send o m).sched = m.sched := rfl
@[simp] theorem send_packs (o : Out) : (send o m).packs = m.packs := rfl
@[simp] theorem send_tests (o : Out) : (send o m).tests = m.tests := rfl
@[simp] theorem send_wbuf (o : Out) : (send o m).wbuf = m.wbuf := rfl
@[simp] theorem send_wbWait (o : Out) : (send o m).wbWait = m.wbWait := rfl
@[simp] theorem send_here (o : Out) : (send o m).here = m.here := rfl
@[simp] theorem send_acc (o : Out) : (send o m).acc = m.acc := rfl
@[simp] theorem send_accId (o : Out) : (send o m).accId = m.accId := rfl
@[simp] theorem send_parked (o : Out) : (send o m).parked = m.parked := rfl
@[simp] theorem send_filling (o : Out) : (send o m).filling = m.filling := rfl
@[simp] theorem send_mem (o : Out) : (send o m).mem = m.mem := rfl
@[simp] theorem send_slices (o : Out) : (send o m).slices = m.slices := rfl
@[simp] theorem send_insert (o : Out) : (send o m).insert = m.insert := rfl
@[simp] theorem send_filters (o : Out) : (send o m).filters = m.filters := rfl
@[simp] theorem send_snpTag (o : Out) : (send o m).snpTag = m.snpTag := rfl
@[simp] theorem send_ports (o : Out) : (send o m).ports = m.ports := rfl
@[simp] theorem send_viral (o : Out) : (send o m).viral = m.viral := rfl
@[simp] theorem send_prot (o : Out) : (send o m).prot = m.prot := rfl
@[simp] theorem send_tiers (o : Out) : (send o m).tiers = m.tiers := rfl
@[simp] theorem send_fullers (o : Out) : (send o m).fullers = m.fullers := rfl
@[simp] theorem send_jobs (o : Out) : (send o m).jobs = m.jobs := rfl
@[simp] theorem send_ctxs (o : Out) : (send o m).ctxs = m.ctxs := rfl
@[simp] theorem send_rings (o : Out) : (send o m).rings = m.rings := rfl
@[simp] theorem send_qs (o : Out) : (send o m).qs = m.qs := rfl
@[simp] theorem send_egress (o : Out) : (send o m).egress = m.egress := rfl
@[simp] theorem send_cpools (o : Out) : (send o m).cpools = m.cpools := rfl
@[simp] theorem send_gang (o : Out) : (send o m).gang = m.gang := rfl
@[simp] theorem send_perf (o : Out) : (send o m).perf = m.perf := rfl
@[simp] theorem send_perfUser (o : Out) : (send o m).perfUser = m.perfUser := rfl
@[simp] theorem send_bw (o : Out) : (send o m).bw = m.bw := rfl
@[simp] theorem send_labels (o : Out) : (send o m).labels = m.labels := rfl
@[simp] theorem send_therm (o : Out) : (send o m).therm = m.therm := rfl
@[simp] theorem send_power (o : Out) : (send o m).power = m.power := rfl
@[simp] theorem send_proc (o : Out) : (send o m).proc = m.proc := rfl
@[simp] theorem send_flash (o : Out) : (send o m).flash = m.flash := rfl
@[simp] theorem send_conn (o : Out) : (send o m).conn = m.conn := rfl
@[simp] theorem send_slotSel (o : Out) : (send o m).slotSel = m.slotSel := rfl
@[simp] theorem send_slotSet (o : Out) : (send o m).slotSet = m.slotSet := rfl
@[simp] theorem send_free (o : Out) : (send o m).free = m.free := rfl

/-! ### touch -/

@[simp] theorem touch_tb : (touch m).tb = m.tb := rfl
@[simp] theorem touch_ev : (touch m).ev = m.ev := rfl
@[simp] theorem touch_out : (touch m).out = m.out := rfl
@[simp] theorem touch_sched : (touch m).sched = m.sched := rfl
@[simp] theorem touch_packs : (touch m).packs = m.packs := rfl
@[simp] theorem touch_tests : (touch m).tests = m.tests := rfl
@[simp] theorem touch_wbuf : (touch m).wbuf = m.wbuf := rfl
@[simp] theorem touch_wbWait : (touch m).wbWait = m.wbWait := rfl
@[simp] theorem touch_here : (touch m).here = m.here := rfl
@[simp] theorem touch_acc : (touch m).acc = m.acc := rfl
@[simp] theorem touch_accId : (touch m).accId = m.accId := rfl
@[simp] theorem touch_parked : (touch m).parked = m.parked := rfl
@[simp] theorem touch_filling : (touch m).filling = m.filling := rfl
@[simp] theorem touch_mem : (touch m).mem = m.mem := rfl
@[simp] theorem touch_slices : (touch m).slices = m.slices := rfl
@[simp] theorem touch_insert : (touch m).insert = m.insert := rfl
@[simp] theorem touch_filters : (touch m).filters = m.filters := rfl
@[simp] theorem touch_snpTag : (touch m).snpTag = m.snpTag := rfl
@[simp] theorem touch_ports : (touch m).ports = m.ports := rfl
@[simp] theorem touch_viral : (touch m).viral = m.viral := rfl
@[simp] theorem touch_prot : (touch m).prot = m.prot := rfl
@[simp] theorem touch_tiers : (touch m).tiers = m.tiers := rfl
@[simp] theorem touch_fullers : (touch m).fullers = m.fullers := rfl
@[simp] theorem touch_jobs : (touch m).jobs = m.jobs := rfl
@[simp] theorem touch_ctxs : (touch m).ctxs = m.ctxs := rfl
@[simp] theorem touch_rings : (touch m).rings = m.rings := rfl
@[simp] theorem touch_qs : (touch m).qs = m.qs := rfl
@[simp] theorem touch_egress : (touch m).egress = m.egress := rfl
@[simp] theorem touch_cpools : (touch m).cpools = m.cpools := rfl
@[simp] theorem touch_gang : (touch m).gang = m.gang := rfl
@[simp] theorem touch_perf : (touch m).perf = m.perf := rfl
@[simp] theorem touch_perfUser : (touch m).perfUser = m.perfUser := rfl
@[simp] theorem touch_bw : (touch m).bw = m.bw := rfl
@[simp] theorem touch_labels : (touch m).labels = m.labels := rfl
@[simp] theorem touch_therm : (touch m).therm = m.therm := rfl
@[simp] theorem touch_proc : (touch m).proc = m.proc := rfl
@[simp] theorem touch_flash : (touch m).flash = m.flash := rfl
@[simp] theorem touch_conn : (touch m).conn = m.conn := rfl
@[simp] theorem touch_slotSel : (touch m).slotSel = m.slotSel := rfl
@[simp] theorem touch_slotSet : (touch m).slotSet = m.slotSet := rfl
@[simp] theorem touch_free : (touch m).free = m.free := rfl

/-! ### onPort -/

@[simp] theorem onPort_tb (p : Port) (f : PortSt → PortSt) : (onPort p f m).tb = m.tb := rfl
@[simp] theorem onPort_ev (p : Port) (f : PortSt → PortSt) : (onPort p f m).ev = m.ev := rfl
@[simp] theorem onPort_out (p : Port) (f : PortSt → PortSt) : (onPort p f m).out = m.out := rfl
@[simp] theorem onPort_sched (p : Port) (f : PortSt → PortSt) : (onPort p f m).sched = m.sched := rfl
@[simp] theorem onPort_packs (p : Port) (f : PortSt → PortSt) : (onPort p f m).packs = m.packs := rfl
@[simp] theorem onPort_tests (p : Port) (f : PortSt → PortSt) : (onPort p f m).tests = m.tests := rfl
@[simp] theorem onPort_wbuf (p : Port) (f : PortSt → PortSt) : (onPort p f m).wbuf = m.wbuf := rfl
@[simp] theorem onPort_wbWait (p : Port) (f : PortSt → PortSt) : (onPort p f m).wbWait = m.wbWait := rfl
@[simp] theorem onPort_here (p : Port) (f : PortSt → PortSt) : (onPort p f m).here = m.here := rfl
@[simp] theorem onPort_acc (p : Port) (f : PortSt → PortSt) : (onPort p f m).acc = m.acc := rfl
@[simp] theorem onPort_accId (p : Port) (f : PortSt → PortSt) : (onPort p f m).accId = m.accId := rfl
@[simp] theorem onPort_parked (p : Port) (f : PortSt → PortSt) : (onPort p f m).parked = m.parked := rfl
@[simp] theorem onPort_filling (p : Port) (f : PortSt → PortSt) : (onPort p f m).filling = m.filling := rfl
@[simp] theorem onPort_mem (p : Port) (f : PortSt → PortSt) : (onPort p f m).mem = m.mem := rfl
@[simp] theorem onPort_slices (p : Port) (f : PortSt → PortSt) : (onPort p f m).slices = m.slices := rfl
@[simp] theorem onPort_insert (p : Port) (f : PortSt → PortSt) : (onPort p f m).insert = m.insert := rfl
@[simp] theorem onPort_filters (p : Port) (f : PortSt → PortSt) : (onPort p f m).filters = m.filters := rfl
@[simp] theorem onPort_snpTag (p : Port) (f : PortSt → PortSt) : (onPort p f m).snpTag = m.snpTag := rfl
@[simp] theorem onPort_viral (p : Port) (f : PortSt → PortSt) : (onPort p f m).viral = m.viral := rfl
@[simp] theorem onPort_prot (p : Port) (f : PortSt → PortSt) : (onPort p f m).prot = m.prot := rfl
@[simp] theorem onPort_tiers (p : Port) (f : PortSt → PortSt) : (onPort p f m).tiers = m.tiers := rfl
@[simp] theorem onPort_fullers (p : Port) (f : PortSt → PortSt) : (onPort p f m).fullers = m.fullers := rfl
@[simp] theorem onPort_jobs (p : Port) (f : PortSt → PortSt) : (onPort p f m).jobs = m.jobs := rfl
@[simp] theorem onPort_ctxs (p : Port) (f : PortSt → PortSt) : (onPort p f m).ctxs = m.ctxs := rfl
@[simp] theorem onPort_rings (p : Port) (f : PortSt → PortSt) : (onPort p f m).rings = m.rings := rfl
@[simp] theorem onPort_qs (p : Port) (f : PortSt → PortSt) : (onPort p f m).qs = m.qs := rfl
@[simp] theorem onPort_egress (p : Port) (f : PortSt → PortSt) : (onPort p f m).egress = m.egress := rfl
@[simp] theorem onPort_cpools (p : Port) (f : PortSt → PortSt) : (onPort p f m).cpools = m.cpools := rfl
@[simp] theorem onPort_gang (p : Port) (f : PortSt → PortSt) : (onPort p f m).gang = m.gang := rfl
@[simp] theorem onPort_perf (p : Port) (f : PortSt → PortSt) : (onPort p f m).perf = m.perf := rfl
@[simp] theorem onPort_perfUser (p : Port) (f : PortSt → PortSt) : (onPort p f m).perfUser = m.perfUser := rfl
@[simp] theorem onPort_bw (p : Port) (f : PortSt → PortSt) : (onPort p f m).bw = m.bw := rfl
@[simp] theorem onPort_labels (p : Port) (f : PortSt → PortSt) : (onPort p f m).labels = m.labels := rfl
@[simp] theorem onPort_therm (p : Port) (f : PortSt → PortSt) : (onPort p f m).therm = m.therm := rfl
@[simp] theorem onPort_power (p : Port) (f : PortSt → PortSt) : (onPort p f m).power = m.power := rfl
@[simp] theorem onPort_proc (p : Port) (f : PortSt → PortSt) : (onPort p f m).proc = m.proc := rfl
@[simp] theorem onPort_flash (p : Port) (f : PortSt → PortSt) : (onPort p f m).flash = m.flash := rfl
@[simp] theorem onPort_conn (p : Port) (f : PortSt → PortSt) : (onPort p f m).conn = m.conn := rfl
@[simp] theorem onPort_slotSel (p : Port) (f : PortSt → PortSt) : (onPort p f m).slotSel = m.slotSel := rfl
@[simp] theorem onPort_slotSet (p : Port) (f : PortSt → PortSt) : (onPort p f m).slotSet = m.slotSet := rfl
@[simp] theorem onPort_free (p : Port) (f : PortSt → PortSt) : (onPort p f m).free = m.free := rfl

/-! ### onPack -/

@[simp] theorem onPack_tb (p : Pack) (f : PackSt → PackSt) : (onPack p f m).tb = m.tb := rfl
@[simp] theorem onPack_ev (p : Pack) (f : PackSt → PackSt) : (onPack p f m).ev = m.ev := rfl
@[simp] theorem onPack_out (p : Pack) (f : PackSt → PackSt) : (onPack p f m).out = m.out := rfl
@[simp] theorem onPack_sched (p : Pack) (f : PackSt → PackSt) : (onPack p f m).sched = m.sched := rfl
@[simp] theorem onPack_tests (p : Pack) (f : PackSt → PackSt) : (onPack p f m).tests = m.tests := rfl
@[simp] theorem onPack_wbuf (p : Pack) (f : PackSt → PackSt) : (onPack p f m).wbuf = m.wbuf := rfl
@[simp] theorem onPack_wbWait (p : Pack) (f : PackSt → PackSt) : (onPack p f m).wbWait = m.wbWait := rfl
@[simp] theorem onPack_here (p : Pack) (f : PackSt → PackSt) : (onPack p f m).here = m.here := rfl
@[simp] theorem onPack_acc (p : Pack) (f : PackSt → PackSt) : (onPack p f m).acc = m.acc := rfl
@[simp] theorem onPack_accId (p : Pack) (f : PackSt → PackSt) : (onPack p f m).accId = m.accId := rfl
@[simp] theorem onPack_parked (p : Pack) (f : PackSt → PackSt) : (onPack p f m).parked = m.parked := rfl
@[simp] theorem onPack_filling (p : Pack) (f : PackSt → PackSt) : (onPack p f m).filling = m.filling := rfl
@[simp] theorem onPack_mem (p : Pack) (f : PackSt → PackSt) : (onPack p f m).mem = m.mem := rfl
@[simp] theorem onPack_slices (p : Pack) (f : PackSt → PackSt) : (onPack p f m).slices = m.slices := rfl
@[simp] theorem onPack_insert (p : Pack) (f : PackSt → PackSt) : (onPack p f m).insert = m.insert := rfl
@[simp] theorem onPack_filters (p : Pack) (f : PackSt → PackSt) : (onPack p f m).filters = m.filters := rfl
@[simp] theorem onPack_snpTag (p : Pack) (f : PackSt → PackSt) : (onPack p f m).snpTag = m.snpTag := rfl
@[simp] theorem onPack_ports (p : Pack) (f : PackSt → PackSt) : (onPack p f m).ports = m.ports := rfl
@[simp] theorem onPack_viral (p : Pack) (f : PackSt → PackSt) : (onPack p f m).viral = m.viral := rfl
@[simp] theorem onPack_prot (p : Pack) (f : PackSt → PackSt) : (onPack p f m).prot = m.prot := rfl
@[simp] theorem onPack_tiers (p : Pack) (f : PackSt → PackSt) : (onPack p f m).tiers = m.tiers := rfl
@[simp] theorem onPack_fullers (p : Pack) (f : PackSt → PackSt) : (onPack p f m).fullers = m.fullers := rfl
@[simp] theorem onPack_jobs (p : Pack) (f : PackSt → PackSt) : (onPack p f m).jobs = m.jobs := rfl
@[simp] theorem onPack_ctxs (p : Pack) (f : PackSt → PackSt) : (onPack p f m).ctxs = m.ctxs := rfl
@[simp] theorem onPack_rings (p : Pack) (f : PackSt → PackSt) : (onPack p f m).rings = m.rings := rfl
@[simp] theorem onPack_qs (p : Pack) (f : PackSt → PackSt) : (onPack p f m).qs = m.qs := rfl
@[simp] theorem onPack_egress (p : Pack) (f : PackSt → PackSt) : (onPack p f m).egress = m.egress := rfl
@[simp] theorem onPack_cpools (p : Pack) (f : PackSt → PackSt) : (onPack p f m).cpools = m.cpools := rfl
@[simp] theorem onPack_gang (p : Pack) (f : PackSt → PackSt) : (onPack p f m).gang = m.gang := rfl
@[simp] theorem onPack_perf (p : Pack) (f : PackSt → PackSt) : (onPack p f m).perf = m.perf := rfl
@[simp] theorem onPack_perfUser (p : Pack) (f : PackSt → PackSt) : (onPack p f m).perfUser = m.perfUser := rfl
@[simp] theorem onPack_bw (p : Pack) (f : PackSt → PackSt) : (onPack p f m).bw = m.bw := rfl
@[simp] theorem onPack_labels (p : Pack) (f : PackSt → PackSt) : (onPack p f m).labels = m.labels := rfl
@[simp] theorem onPack_therm (p : Pack) (f : PackSt → PackSt) : (onPack p f m).therm = m.therm := rfl
@[simp] theorem onPack_power (p : Pack) (f : PackSt → PackSt) : (onPack p f m).power = m.power := rfl
@[simp] theorem onPack_proc (p : Pack) (f : PackSt → PackSt) : (onPack p f m).proc = m.proc := rfl
@[simp] theorem onPack_flash (p : Pack) (f : PackSt → PackSt) : (onPack p f m).flash = m.flash := rfl
@[simp] theorem onPack_conn (p : Pack) (f : PackSt → PackSt) : (onPack p f m).conn = m.conn := rfl
@[simp] theorem onPack_slotSel (p : Pack) (f : PackSt → PackSt) : (onPack p f m).slotSel = m.slotSel := rfl
@[simp] theorem onPack_slotSet (p : Pack) (f : PackSt → PackSt) : (onPack p f m).slotSet = m.slotSet := rfl
@[simp] theorem onPack_free (p : Pack) (f : PackSt → PackSt) : (onPack p f m).free = m.free := rfl

/-! ### onSlice -/

@[simp] theorem onSlice_tb (t : Tile) (f : Slice → Slice) : (onSlice t f m).tb = m.tb := rfl
@[simp] theorem onSlice_ev (t : Tile) (f : Slice → Slice) : (onSlice t f m).ev = m.ev := rfl
@[simp] theorem onSlice_out (t : Tile) (f : Slice → Slice) : (onSlice t f m).out = m.out := rfl
@[simp] theorem onSlice_sched (t : Tile) (f : Slice → Slice) : (onSlice t f m).sched = m.sched := rfl
@[simp] theorem onSlice_packs (t : Tile) (f : Slice → Slice) : (onSlice t f m).packs = m.packs := rfl
@[simp] theorem onSlice_tests (t : Tile) (f : Slice → Slice) : (onSlice t f m).tests = m.tests := rfl
@[simp] theorem onSlice_wbuf (t : Tile) (f : Slice → Slice) : (onSlice t f m).wbuf = m.wbuf := rfl
@[simp] theorem onSlice_wbWait (t : Tile) (f : Slice → Slice) : (onSlice t f m).wbWait = m.wbWait := rfl
@[simp] theorem onSlice_here (t : Tile) (f : Slice → Slice) : (onSlice t f m).here = m.here := rfl
@[simp] theorem onSlice_acc (t : Tile) (f : Slice → Slice) : (onSlice t f m).acc = m.acc := rfl
@[simp] theorem onSlice_accId (t : Tile) (f : Slice → Slice) : (onSlice t f m).accId = m.accId := rfl
@[simp] theorem onSlice_parked (t : Tile) (f : Slice → Slice) : (onSlice t f m).parked = m.parked := rfl
@[simp] theorem onSlice_filling (t : Tile) (f : Slice → Slice) : (onSlice t f m).filling = m.filling := rfl
@[simp] theorem onSlice_mem (t : Tile) (f : Slice → Slice) : (onSlice t f m).mem = m.mem := rfl
@[simp] theorem onSlice_insert (t : Tile) (f : Slice → Slice) : (onSlice t f m).insert = m.insert := rfl
@[simp] theorem onSlice_filters (t : Tile) (f : Slice → Slice) : (onSlice t f m).filters = m.filters := rfl
@[simp] theorem onSlice_snpTag (t : Tile) (f : Slice → Slice) : (onSlice t f m).snpTag = m.snpTag := rfl
@[simp] theorem onSlice_ports (t : Tile) (f : Slice → Slice) : (onSlice t f m).ports = m.ports := rfl
@[simp] theorem onSlice_viral (t : Tile) (f : Slice → Slice) : (onSlice t f m).viral = m.viral := rfl
@[simp] theorem onSlice_prot (t : Tile) (f : Slice → Slice) : (onSlice t f m).prot = m.prot := rfl
@[simp] theorem onSlice_tiers (t : Tile) (f : Slice → Slice) : (onSlice t f m).tiers = m.tiers := rfl
@[simp] theorem onSlice_fullers (t : Tile) (f : Slice → Slice) : (onSlice t f m).fullers = m.fullers := rfl
@[simp] theorem onSlice_jobs (t : Tile) (f : Slice → Slice) : (onSlice t f m).jobs = m.jobs := rfl
@[simp] theorem onSlice_ctxs (t : Tile) (f : Slice → Slice) : (onSlice t f m).ctxs = m.ctxs := rfl
@[simp] theorem onSlice_rings (t : Tile) (f : Slice → Slice) : (onSlice t f m).rings = m.rings := rfl
@[simp] theorem onSlice_qs (t : Tile) (f : Slice → Slice) : (onSlice t f m).qs = m.qs := rfl
@[simp] theorem onSlice_egress (t : Tile) (f : Slice → Slice) : (onSlice t f m).egress = m.egress := rfl
@[simp] theorem onSlice_cpools (t : Tile) (f : Slice → Slice) : (onSlice t f m).cpools = m.cpools := rfl
@[simp] theorem onSlice_gang (t : Tile) (f : Slice → Slice) : (onSlice t f m).gang = m.gang := rfl
@[simp] theorem onSlice_perf (t : Tile) (f : Slice → Slice) : (onSlice t f m).perf = m.perf := rfl
@[simp] theorem onSlice_perfUser (t : Tile) (f : Slice → Slice) : (onSlice t f m).perfUser = m.perfUser := rfl
@[simp] theorem onSlice_bw (t : Tile) (f : Slice → Slice) : (onSlice t f m).bw = m.bw := rfl
@[simp] theorem onSlice_labels (t : Tile) (f : Slice → Slice) : (onSlice t f m).labels = m.labels := rfl
@[simp] theorem onSlice_therm (t : Tile) (f : Slice → Slice) : (onSlice t f m).therm = m.therm := rfl
@[simp] theorem onSlice_power (t : Tile) (f : Slice → Slice) : (onSlice t f m).power = m.power := rfl
@[simp] theorem onSlice_proc (t : Tile) (f : Slice → Slice) : (onSlice t f m).proc = m.proc := rfl
@[simp] theorem onSlice_flash (t : Tile) (f : Slice → Slice) : (onSlice t f m).flash = m.flash := rfl
@[simp] theorem onSlice_conn (t : Tile) (f : Slice → Slice) : (onSlice t f m).conn = m.conn := rfl
@[simp] theorem onSlice_slotSel (t : Tile) (f : Slice → Slice) : (onSlice t f m).slotSel = m.slotSel := rfl
@[simp] theorem onSlice_slotSet (t : Tile) (f : Slice → Slice) : (onSlice t f m).slotSet = m.slotSet := rfl
@[simp] theorem onSlice_free (t : Tile) (f : Slice → Slice) : (onSlice t f m).free = m.free := rfl

/-! ### onFilter -/

@[simp] theorem onFilter_tb (t : Tile) (f : FilterSt → FilterSt) : (onFilter t f m).tb = m.tb := rfl
@[simp] theorem onFilter_ev (t : Tile) (f : FilterSt → FilterSt) : (onFilter t f m).ev = m.ev := rfl
@[simp] theorem onFilter_out (t : Tile) (f : FilterSt → FilterSt) : (onFilter t f m).out = m.out := rfl
@[simp] theorem onFilter_sched (t : Tile) (f : FilterSt → FilterSt) : (onFilter t f m).sched = m.sched := rfl
@[simp] theorem onFilter_packs (t : Tile) (f : FilterSt → FilterSt) : (onFilter t f m).packs = m.packs := rfl
@[simp] theorem onFilter_tests (t : Tile) (f : FilterSt → FilterSt) : (onFilter t f m).tests = m.tests := rfl
@[simp] theorem onFilter_wbuf (t : Tile) (f : FilterSt → FilterSt) : (onFilter t f m).wbuf = m.wbuf := rfl
@[simp] theorem onFilter_wbWait (t : Tile) (f : FilterSt → FilterSt) : (onFilter t f m).wbWait = m.wbWait := rfl
@[simp] theorem onFilter_here (t : Tile) (f : FilterSt → FilterSt) : (onFilter t f m).here = m.here := rfl
@[simp] theorem onFilter_acc (t : Tile) (f : FilterSt → FilterSt) : (onFilter t f m).acc = m.acc := rfl
@[simp] theorem onFilter_accId (t : Tile) (f : FilterSt → FilterSt) : (onFilter t f m).accId = m.accId := rfl
@[simp] theorem onFilter_parked (t : Tile) (f : FilterSt → FilterSt) : (onFilter t f m).parked = m.parked := rfl
@[simp] theorem onFilter_filling (t : Tile) (f : FilterSt → FilterSt) : (onFilter t f m).filling = m.filling := rfl
@[simp] theorem onFilter_mem (t : Tile) (f : FilterSt → FilterSt) : (onFilter t f m).mem = m.mem := rfl
@[simp] theorem onFilter_slices (t : Tile) (f : FilterSt → FilterSt) : (onFilter t f m).slices = m.slices := rfl
@[simp] theorem onFilter_insert (t : Tile) (f : FilterSt → FilterSt) : (onFilter t f m).insert = m.insert := rfl
@[simp] theorem onFilter_snpTag (t : Tile) (f : FilterSt → FilterSt) : (onFilter t f m).snpTag = m.snpTag := rfl
@[simp] theorem onFilter_ports (t : Tile) (f : FilterSt → FilterSt) : (onFilter t f m).ports = m.ports := rfl
@[simp] theorem onFilter_viral (t : Tile) (f : FilterSt → FilterSt) : (onFilter t f m).viral = m.viral := rfl
@[simp] theorem onFilter_prot (t : Tile) (f : FilterSt → FilterSt) : (onFilter t f m).prot = m.prot := rfl
@[simp] theorem onFilter_tiers (t : Tile) (f : FilterSt → FilterSt) : (onFilter t f m).tiers = m.tiers := rfl
@[simp] theorem onFilter_fullers (t : Tile) (f : FilterSt → FilterSt) : (onFilter t f m).fullers = m.fullers := rfl
@[simp] theorem onFilter_jobs (t : Tile) (f : FilterSt → FilterSt) : (onFilter t f m).jobs = m.jobs := rfl
@[simp] theorem onFilter_ctxs (t : Tile) (f : FilterSt → FilterSt) : (onFilter t f m).ctxs = m.ctxs := rfl
@[simp] theorem onFilter_rings (t : Tile) (f : FilterSt → FilterSt) : (onFilter t f m).rings = m.rings := rfl
@[simp] theorem onFilter_qs (t : Tile) (f : FilterSt → FilterSt) : (onFilter t f m).qs = m.qs := rfl
@[simp] theorem onFilter_egress (t : Tile) (f : FilterSt → FilterSt) : (onFilter t f m).egress = m.egress := rfl
@[simp] theorem onFilter_cpools (t : Tile) (f : FilterSt → FilterSt) : (onFilter t f m).cpools = m.cpools := rfl
@[simp] theorem onFilter_gang (t : Tile) (f : FilterSt → FilterSt) : (onFilter t f m).gang = m.gang := rfl
@[simp] theorem onFilter_perf (t : Tile) (f : FilterSt → FilterSt) : (onFilter t f m).perf = m.perf := rfl
@[simp] theorem onFilter_perfUser (t : Tile) (f : FilterSt → FilterSt) : (onFilter t f m).perfUser = m.perfUser := rfl
@[simp] theorem onFilter_bw (t : Tile) (f : FilterSt → FilterSt) : (onFilter t f m).bw = m.bw := rfl
@[simp] theorem onFilter_labels (t : Tile) (f : FilterSt → FilterSt) : (onFilter t f m).labels = m.labels := rfl
@[simp] theorem onFilter_therm (t : Tile) (f : FilterSt → FilterSt) : (onFilter t f m).therm = m.therm := rfl
@[simp] theorem onFilter_power (t : Tile) (f : FilterSt → FilterSt) : (onFilter t f m).power = m.power := rfl
@[simp] theorem onFilter_proc (t : Tile) (f : FilterSt → FilterSt) : (onFilter t f m).proc = m.proc := rfl
@[simp] theorem onFilter_flash (t : Tile) (f : FilterSt → FilterSt) : (onFilter t f m).flash = m.flash := rfl
@[simp] theorem onFilter_conn (t : Tile) (f : FilterSt → FilterSt) : (onFilter t f m).conn = m.conn := rfl
@[simp] theorem onFilter_slotSel (t : Tile) (f : FilterSt → FilterSt) : (onFilter t f m).slotSel = m.slotSel := rfl
@[simp] theorem onFilter_slotSet (t : Tile) (f : FilterSt → FilterSt) : (onFilter t f m).slotSet = m.slotSet := rfl
@[simp] theorem onFilter_free (t : Tile) (f : FilterSt → FilterSt) : (onFilter t f m).free = m.free := rfl

/-! ### onTier -/

@[simp] theorem onTier_tb (t : Tile) (f : TierSt → TierSt) : (onTier t f m).tb = m.tb := rfl
@[simp] theorem onTier_ev (t : Tile) (f : TierSt → TierSt) : (onTier t f m).ev = m.ev := rfl
@[simp] theorem onTier_out (t : Tile) (f : TierSt → TierSt) : (onTier t f m).out = m.out := rfl
@[simp] theorem onTier_sched (t : Tile) (f : TierSt → TierSt) : (onTier t f m).sched = m.sched := rfl
@[simp] theorem onTier_packs (t : Tile) (f : TierSt → TierSt) : (onTier t f m).packs = m.packs := rfl
@[simp] theorem onTier_tests (t : Tile) (f : TierSt → TierSt) : (onTier t f m).tests = m.tests := rfl
@[simp] theorem onTier_wbuf (t : Tile) (f : TierSt → TierSt) : (onTier t f m).wbuf = m.wbuf := rfl
@[simp] theorem onTier_wbWait (t : Tile) (f : TierSt → TierSt) : (onTier t f m).wbWait = m.wbWait := rfl
@[simp] theorem onTier_here (t : Tile) (f : TierSt → TierSt) : (onTier t f m).here = m.here := rfl
@[simp] theorem onTier_acc (t : Tile) (f : TierSt → TierSt) : (onTier t f m).acc = m.acc := rfl
@[simp] theorem onTier_accId (t : Tile) (f : TierSt → TierSt) : (onTier t f m).accId = m.accId := rfl
@[simp] theorem onTier_parked (t : Tile) (f : TierSt → TierSt) : (onTier t f m).parked = m.parked := rfl
@[simp] theorem onTier_filling (t : Tile) (f : TierSt → TierSt) : (onTier t f m).filling = m.filling := rfl
@[simp] theorem onTier_mem (t : Tile) (f : TierSt → TierSt) : (onTier t f m).mem = m.mem := rfl
@[simp] theorem onTier_slices (t : Tile) (f : TierSt → TierSt) : (onTier t f m).slices = m.slices := rfl
@[simp] theorem onTier_insert (t : Tile) (f : TierSt → TierSt) : (onTier t f m).insert = m.insert := rfl
@[simp] theorem onTier_filters (t : Tile) (f : TierSt → TierSt) : (onTier t f m).filters = m.filters := rfl
@[simp] theorem onTier_snpTag (t : Tile) (f : TierSt → TierSt) : (onTier t f m).snpTag = m.snpTag := rfl
@[simp] theorem onTier_ports (t : Tile) (f : TierSt → TierSt) : (onTier t f m).ports = m.ports := rfl
@[simp] theorem onTier_viral (t : Tile) (f : TierSt → TierSt) : (onTier t f m).viral = m.viral := rfl
@[simp] theorem onTier_prot (t : Tile) (f : TierSt → TierSt) : (onTier t f m).prot = m.prot := rfl
@[simp] theorem onTier_fullers (t : Tile) (f : TierSt → TierSt) : (onTier t f m).fullers = m.fullers := rfl
@[simp] theorem onTier_jobs (t : Tile) (f : TierSt → TierSt) : (onTier t f m).jobs = m.jobs := rfl
@[simp] theorem onTier_ctxs (t : Tile) (f : TierSt → TierSt) : (onTier t f m).ctxs = m.ctxs := rfl
@[simp] theorem onTier_rings (t : Tile) (f : TierSt → TierSt) : (onTier t f m).rings = m.rings := rfl
@[simp] theorem onTier_qs (t : Tile) (f : TierSt → TierSt) : (onTier t f m).qs = m.qs := rfl
@[simp] theorem onTier_egress (t : Tile) (f : TierSt → TierSt) : (onTier t f m).egress = m.egress := rfl
@[simp] theorem onTier_cpools (t : Tile) (f : TierSt → TierSt) : (onTier t f m).cpools = m.cpools := rfl
@[simp] theorem onTier_gang (t : Tile) (f : TierSt → TierSt) : (onTier t f m).gang = m.gang := rfl
@[simp] theorem onTier_perf (t : Tile) (f : TierSt → TierSt) : (onTier t f m).perf = m.perf := rfl
@[simp] theorem onTier_perfUser (t : Tile) (f : TierSt → TierSt) : (onTier t f m).perfUser = m.perfUser := rfl
@[simp] theorem onTier_bw (t : Tile) (f : TierSt → TierSt) : (onTier t f m).bw = m.bw := rfl
@[simp] theorem onTier_labels (t : Tile) (f : TierSt → TierSt) : (onTier t f m).labels = m.labels := rfl
@[simp] theorem onTier_therm (t : Tile) (f : TierSt → TierSt) : (onTier t f m).therm = m.therm := rfl
@[simp] theorem onTier_power (t : Tile) (f : TierSt → TierSt) : (onTier t f m).power = m.power := rfl
@[simp] theorem onTier_proc (t : Tile) (f : TierSt → TierSt) : (onTier t f m).proc = m.proc := rfl
@[simp] theorem onTier_flash (t : Tile) (f : TierSt → TierSt) : (onTier t f m).flash = m.flash := rfl
@[simp] theorem onTier_conn (t : Tile) (f : TierSt → TierSt) : (onTier t f m).conn = m.conn := rfl
@[simp] theorem onTier_slotSel (t : Tile) (f : TierSt → TierSt) : (onTier t f m).slotSel = m.slotSel := rfl
@[simp] theorem onTier_slotSet (t : Tile) (f : TierSt → TierSt) : (onTier t f m).slotSet = m.slotSet := rfl
@[simp] theorem onTier_free (t : Tile) (f : TierSt → TierSt) : (onTier t f m).free = m.free := rfl

/-! ### onRings -/

@[simp] theorem onRings_tb (p : Port) (f : RingsSt → RingsSt) : (onRings p f m).tb = m.tb := rfl
@[simp] theorem onRings_ev (p : Port) (f : RingsSt → RingsSt) : (onRings p f m).ev = m.ev := rfl
@[simp] theorem onRings_out (p : Port) (f : RingsSt → RingsSt) : (onRings p f m).out = m.out := rfl
@[simp] theorem onRings_sched (p : Port) (f : RingsSt → RingsSt) : (onRings p f m).sched = m.sched := rfl
@[simp] theorem onRings_packs (p : Port) (f : RingsSt → RingsSt) : (onRings p f m).packs = m.packs := rfl
@[simp] theorem onRings_tests (p : Port) (f : RingsSt → RingsSt) : (onRings p f m).tests = m.tests := rfl
@[simp] theorem onRings_wbuf (p : Port) (f : RingsSt → RingsSt) : (onRings p f m).wbuf = m.wbuf := rfl
@[simp] theorem onRings_wbWait (p : Port) (f : RingsSt → RingsSt) : (onRings p f m).wbWait = m.wbWait := rfl
@[simp] theorem onRings_here (p : Port) (f : RingsSt → RingsSt) : (onRings p f m).here = m.here := rfl
@[simp] theorem onRings_acc (p : Port) (f : RingsSt → RingsSt) : (onRings p f m).acc = m.acc := rfl
@[simp] theorem onRings_accId (p : Port) (f : RingsSt → RingsSt) : (onRings p f m).accId = m.accId := rfl
@[simp] theorem onRings_parked (p : Port) (f : RingsSt → RingsSt) : (onRings p f m).parked = m.parked := rfl
@[simp] theorem onRings_filling (p : Port) (f : RingsSt → RingsSt) : (onRings p f m).filling = m.filling := rfl
@[simp] theorem onRings_mem (p : Port) (f : RingsSt → RingsSt) : (onRings p f m).mem = m.mem := rfl
@[simp] theorem onRings_slices (p : Port) (f : RingsSt → RingsSt) : (onRings p f m).slices = m.slices := rfl
@[simp] theorem onRings_insert (p : Port) (f : RingsSt → RingsSt) : (onRings p f m).insert = m.insert := rfl
@[simp] theorem onRings_filters (p : Port) (f : RingsSt → RingsSt) : (onRings p f m).filters = m.filters := rfl
@[simp] theorem onRings_snpTag (p : Port) (f : RingsSt → RingsSt) : (onRings p f m).snpTag = m.snpTag := rfl
@[simp] theorem onRings_ports (p : Port) (f : RingsSt → RingsSt) : (onRings p f m).ports = m.ports := rfl
@[simp] theorem onRings_viral (p : Port) (f : RingsSt → RingsSt) : (onRings p f m).viral = m.viral := rfl
@[simp] theorem onRings_prot (p : Port) (f : RingsSt → RingsSt) : (onRings p f m).prot = m.prot := rfl
@[simp] theorem onRings_tiers (p : Port) (f : RingsSt → RingsSt) : (onRings p f m).tiers = m.tiers := rfl
@[simp] theorem onRings_fullers (p : Port) (f : RingsSt → RingsSt) : (onRings p f m).fullers = m.fullers := rfl
@[simp] theorem onRings_jobs (p : Port) (f : RingsSt → RingsSt) : (onRings p f m).jobs = m.jobs := rfl
@[simp] theorem onRings_ctxs (p : Port) (f : RingsSt → RingsSt) : (onRings p f m).ctxs = m.ctxs := rfl
@[simp] theorem onRings_qs (p : Port) (f : RingsSt → RingsSt) : (onRings p f m).qs = m.qs := rfl
@[simp] theorem onRings_egress (p : Port) (f : RingsSt → RingsSt) : (onRings p f m).egress = m.egress := rfl
@[simp] theorem onRings_cpools (p : Port) (f : RingsSt → RingsSt) : (onRings p f m).cpools = m.cpools := rfl
@[simp] theorem onRings_gang (p : Port) (f : RingsSt → RingsSt) : (onRings p f m).gang = m.gang := rfl
@[simp] theorem onRings_perf (p : Port) (f : RingsSt → RingsSt) : (onRings p f m).perf = m.perf := rfl
@[simp] theorem onRings_perfUser (p : Port) (f : RingsSt → RingsSt) : (onRings p f m).perfUser = m.perfUser := rfl
@[simp] theorem onRings_bw (p : Port) (f : RingsSt → RingsSt) : (onRings p f m).bw = m.bw := rfl
@[simp] theorem onRings_labels (p : Port) (f : RingsSt → RingsSt) : (onRings p f m).labels = m.labels := rfl
@[simp] theorem onRings_therm (p : Port) (f : RingsSt → RingsSt) : (onRings p f m).therm = m.therm := rfl
@[simp] theorem onRings_power (p : Port) (f : RingsSt → RingsSt) : (onRings p f m).power = m.power := rfl
@[simp] theorem onRings_proc (p : Port) (f : RingsSt → RingsSt) : (onRings p f m).proc = m.proc := rfl
@[simp] theorem onRings_flash (p : Port) (f : RingsSt → RingsSt) : (onRings p f m).flash = m.flash := rfl
@[simp] theorem onRings_conn (p : Port) (f : RingsSt → RingsSt) : (onRings p f m).conn = m.conn := rfl
@[simp] theorem onRings_slotSel (p : Port) (f : RingsSt → RingsSt) : (onRings p f m).slotSel = m.slotSel := rfl
@[simp] theorem onRings_slotSet (p : Port) (f : RingsSt → RingsSt) : (onRings p f m).slotSet = m.slotSet := rfl
@[simp] theorem onRings_free (p : Port) (f : RingsSt → RingsSt) : (onRings p f m).free = m.free := rfl

/-! ### onLabel -/

@[simp] theorem onLabel_tb (n : BitVec 3) (f : LabelSt → LabelSt) : (onLabel n f m).tb = m.tb := rfl
@[simp] theorem onLabel_ev (n : BitVec 3) (f : LabelSt → LabelSt) : (onLabel n f m).ev = m.ev := rfl
@[simp] theorem onLabel_out (n : BitVec 3) (f : LabelSt → LabelSt) : (onLabel n f m).out = m.out := rfl
@[simp] theorem onLabel_sched (n : BitVec 3) (f : LabelSt → LabelSt) : (onLabel n f m).sched = m.sched := rfl
@[simp] theorem onLabel_packs (n : BitVec 3) (f : LabelSt → LabelSt) : (onLabel n f m).packs = m.packs := rfl
@[simp] theorem onLabel_tests (n : BitVec 3) (f : LabelSt → LabelSt) : (onLabel n f m).tests = m.tests := rfl
@[simp] theorem onLabel_wbuf (n : BitVec 3) (f : LabelSt → LabelSt) : (onLabel n f m).wbuf = m.wbuf := rfl
@[simp] theorem onLabel_wbWait (n : BitVec 3) (f : LabelSt → LabelSt) : (onLabel n f m).wbWait = m.wbWait := rfl
@[simp] theorem onLabel_here (n : BitVec 3) (f : LabelSt → LabelSt) : (onLabel n f m).here = m.here := rfl
@[simp] theorem onLabel_acc (n : BitVec 3) (f : LabelSt → LabelSt) : (onLabel n f m).acc = m.acc := rfl
@[simp] theorem onLabel_accId (n : BitVec 3) (f : LabelSt → LabelSt) : (onLabel n f m).accId = m.accId := rfl
@[simp] theorem onLabel_parked (n : BitVec 3) (f : LabelSt → LabelSt) : (onLabel n f m).parked = m.parked := rfl
@[simp] theorem onLabel_filling (n : BitVec 3) (f : LabelSt → LabelSt) : (onLabel n f m).filling = m.filling := rfl
@[simp] theorem onLabel_mem (n : BitVec 3) (f : LabelSt → LabelSt) : (onLabel n f m).mem = m.mem := rfl
@[simp] theorem onLabel_slices (n : BitVec 3) (f : LabelSt → LabelSt) : (onLabel n f m).slices = m.slices := rfl
@[simp] theorem onLabel_insert (n : BitVec 3) (f : LabelSt → LabelSt) : (onLabel n f m).insert = m.insert := rfl
@[simp] theorem onLabel_filters (n : BitVec 3) (f : LabelSt → LabelSt) : (onLabel n f m).filters = m.filters := rfl
@[simp] theorem onLabel_snpTag (n : BitVec 3) (f : LabelSt → LabelSt) : (onLabel n f m).snpTag = m.snpTag := rfl
@[simp] theorem onLabel_ports (n : BitVec 3) (f : LabelSt → LabelSt) : (onLabel n f m).ports = m.ports := rfl
@[simp] theorem onLabel_viral (n : BitVec 3) (f : LabelSt → LabelSt) : (onLabel n f m).viral = m.viral := rfl
@[simp] theorem onLabel_prot (n : BitVec 3) (f : LabelSt → LabelSt) : (onLabel n f m).prot = m.prot := rfl
@[simp] theorem onLabel_tiers (n : BitVec 3) (f : LabelSt → LabelSt) : (onLabel n f m).tiers = m.tiers := rfl
@[simp] theorem onLabel_fullers (n : BitVec 3) (f : LabelSt → LabelSt) : (onLabel n f m).fullers = m.fullers := rfl
@[simp] theorem onLabel_jobs (n : BitVec 3) (f : LabelSt → LabelSt) : (onLabel n f m).jobs = m.jobs := rfl
@[simp] theorem onLabel_ctxs (n : BitVec 3) (f : LabelSt → LabelSt) : (onLabel n f m).ctxs = m.ctxs := rfl
@[simp] theorem onLabel_rings (n : BitVec 3) (f : LabelSt → LabelSt) : (onLabel n f m).rings = m.rings := rfl
@[simp] theorem onLabel_qs (n : BitVec 3) (f : LabelSt → LabelSt) : (onLabel n f m).qs = m.qs := rfl
@[simp] theorem onLabel_egress (n : BitVec 3) (f : LabelSt → LabelSt) : (onLabel n f m).egress = m.egress := rfl
@[simp] theorem onLabel_cpools (n : BitVec 3) (f : LabelSt → LabelSt) : (onLabel n f m).cpools = m.cpools := rfl
@[simp] theorem onLabel_gang (n : BitVec 3) (f : LabelSt → LabelSt) : (onLabel n f m).gang = m.gang := rfl
@[simp] theorem onLabel_perf (n : BitVec 3) (f : LabelSt → LabelSt) : (onLabel n f m).perf = m.perf := rfl
@[simp] theorem onLabel_perfUser (n : BitVec 3) (f : LabelSt → LabelSt) : (onLabel n f m).perfUser = m.perfUser := rfl
@[simp] theorem onLabel_bw (n : BitVec 3) (f : LabelSt → LabelSt) : (onLabel n f m).bw = m.bw := rfl
@[simp] theorem onLabel_therm (n : BitVec 3) (f : LabelSt → LabelSt) : (onLabel n f m).therm = m.therm := rfl
@[simp] theorem onLabel_power (n : BitVec 3) (f : LabelSt → LabelSt) : (onLabel n f m).power = m.power := rfl
@[simp] theorem onLabel_proc (n : BitVec 3) (f : LabelSt → LabelSt) : (onLabel n f m).proc = m.proc := rfl
@[simp] theorem onLabel_flash (n : BitVec 3) (f : LabelSt → LabelSt) : (onLabel n f m).flash = m.flash := rfl
@[simp] theorem onLabel_conn (n : BitVec 3) (f : LabelSt → LabelSt) : (onLabel n f m).conn = m.conn := rfl
@[simp] theorem onLabel_slotSel (n : BitVec 3) (f : LabelSt → LabelSt) : (onLabel n f m).slotSel = m.slotSel := rfl
@[simp] theorem onLabel_slotSet (n : BitVec 3) (f : LabelSt → LabelSt) : (onLabel n f m).slotSet = m.slotSet := rfl
@[simp] theorem onLabel_free (n : BitVec 3) (f : LabelSt → LabelSt) : (onLabel n f m).free = m.free := rfl

@[simp] theorem send_out (o : Out) : (send o m).out = o :: m.out := rfl
@[simp] theorem touch_power : (touch m).power = { m.power with workAt := m.tb.now } := rfl
@[simp] theorem onPort_ports (p : Port) (f : PortSt → PortSt) : (onPort p f m).ports = m.ports.set p (f (m.ports.get p)) := rfl
@[simp] theorem onPack_packs (p : Pack) (f : PackSt → PackSt) : (onPack p f m).packs = m.packs.set p (f m.packs[p]) := rfl
@[simp] theorem onSlice_slices (t : Tile) (f : Slice → Slice) : (onSlice t f m).slices = m.slices.set t (f m.slices[t]) := rfl
@[simp] theorem onFilter_filters (t : Tile) (f : FilterSt → FilterSt) :
    (onFilter t f m).filters = m.filters.set t (f m.filters[t]) := rfl
@[simp] theorem onTier_tiers (t : Tile) (f : TierSt → TierSt) : (onTier t f m).tiers = m.tiers.set t (f m.tiers[t]) := rfl
@[simp] theorem onRings_rings (p : Port) (f : RingsSt → RingsSt) :
    (onRings p f m).rings = m.rings.set p (f (m.rings.get p)) := rfl

/-! ### One value per port -/

@[simp] theorem Two_get_set {α : Type} (t : Two α) (p : Port) (v : α) : (t.set p v).get p = v := by cases p <;> rfl
theorem Two_get_set_ne {α : Type} (t : Two α) (p q : Port) (v : α) (h : p ≠ q) : (t.set p v).get q = t.get q := by
  cases p <;> cases q <;> first | rfl | exact absurd rfl h
@[simp] theorem Two_set_get {α : Type} (t : Two α) (p : Port) : t.set p (t.get p) = t := by cases p <;> rfl
@[simp] theorem Two_set_set {α : Type} (t : Two α) (p : Port) (v w : α) : (t.set p v).set p w = t.set p w := by cases p <;> rfl
@[simp] theorem Two_get_map {α : Type} (t : Two α) (f : Port → α → α) (p : Port) : (t.map f).get p = f p (t.get p) := by
  cases p <;> rfl

/-! ### perfCount -/

theorem perfCount_eq (g : Fin 7) (e : PerfEvt) (o : Option Bool) : ∃ v, perfCount g e o m = { m with perf := v } := by
  unfold perfCount; split
  · exact ⟨m.perf, rfl⟩
  · exact ⟨_, rfl⟩

@[simp] theorem perfCount_tb (g : Fin 7) (e : PerfEvt) (o : Option Bool) : (perfCount g e o m).tb = m.tb := by obtain ⟨_, h⟩ := perfCount_eq m g e o; rw [h]
@[simp] theorem perfCount_ev (g : Fin 7) (e : PerfEvt) (o : Option Bool) : (perfCount g e o m).ev = m.ev := by obtain ⟨_, h⟩ := perfCount_eq m g e o; rw [h]
@[simp] theorem perfCount_out (g : Fin 7) (e : PerfEvt) (o : Option Bool) : (perfCount g e o m).out = m.out := by obtain ⟨_, h⟩ := perfCount_eq m g e o; rw [h]
@[simp] theorem perfCount_sched (g : Fin 7) (e : PerfEvt) (o : Option Bool) : (perfCount g e o m).sched = m.sched := by obtain ⟨_, h⟩ := perfCount_eq m g e o; rw [h]
@[simp] theorem perfCount_packs (g : Fin 7) (e : PerfEvt) (o : Option Bool) : (perfCount g e o m).packs = m.packs := by obtain ⟨_, h⟩ := perfCount_eq m g e o; rw [h]
@[simp] theorem perfCount_tests (g : Fin 7) (e : PerfEvt) (o : Option Bool) : (perfCount g e o m).tests = m.tests := by obtain ⟨_, h⟩ := perfCount_eq m g e o; rw [h]
@[simp] theorem perfCount_wbuf (g : Fin 7) (e : PerfEvt) (o : Option Bool) : (perfCount g e o m).wbuf = m.wbuf := by obtain ⟨_, h⟩ := perfCount_eq m g e o; rw [h]
@[simp] theorem perfCount_wbWait (g : Fin 7) (e : PerfEvt) (o : Option Bool) : (perfCount g e o m).wbWait = m.wbWait := by obtain ⟨_, h⟩ := perfCount_eq m g e o; rw [h]
@[simp] theorem perfCount_here (g : Fin 7) (e : PerfEvt) (o : Option Bool) : (perfCount g e o m).here = m.here := by obtain ⟨_, h⟩ := perfCount_eq m g e o; rw [h]
@[simp] theorem perfCount_acc (g : Fin 7) (e : PerfEvt) (o : Option Bool) : (perfCount g e o m).acc = m.acc := by obtain ⟨_, h⟩ := perfCount_eq m g e o; rw [h]
@[simp] theorem perfCount_accId (g : Fin 7) (e : PerfEvt) (o : Option Bool) : (perfCount g e o m).accId = m.accId := by obtain ⟨_, h⟩ := perfCount_eq m g e o; rw [h]
@[simp] theorem perfCount_parked (g : Fin 7) (e : PerfEvt) (o : Option Bool) : (perfCount g e o m).parked = m.parked := by obtain ⟨_, h⟩ := perfCount_eq m g e o; rw [h]
@[simp] theorem perfCount_filling (g : Fin 7) (e : PerfEvt) (o : Option Bool) : (perfCount g e o m).filling = m.filling := by obtain ⟨_, h⟩ := perfCount_eq m g e o; rw [h]
@[simp] theorem perfCount_mem (g : Fin 7) (e : PerfEvt) (o : Option Bool) : (perfCount g e o m).mem = m.mem := by obtain ⟨_, h⟩ := perfCount_eq m g e o; rw [h]
@[simp] theorem perfCount_slices (g : Fin 7) (e : PerfEvt) (o : Option Bool) : (perfCount g e o m).slices = m.slices := by obtain ⟨_, h⟩ := perfCount_eq m g e o; rw [h]
@[simp] theorem perfCount_insert (g : Fin 7) (e : PerfEvt) (o : Option Bool) : (perfCount g e o m).insert = m.insert := by obtain ⟨_, h⟩ := perfCount_eq m g e o; rw [h]
@[simp] theorem perfCount_filters (g : Fin 7) (e : PerfEvt) (o : Option Bool) : (perfCount g e o m).filters = m.filters := by obtain ⟨_, h⟩ := perfCount_eq m g e o; rw [h]
@[simp] theorem perfCount_snpTag (g : Fin 7) (e : PerfEvt) (o : Option Bool) : (perfCount g e o m).snpTag = m.snpTag := by obtain ⟨_, h⟩ := perfCount_eq m g e o; rw [h]
@[simp] theorem perfCount_ports (g : Fin 7) (e : PerfEvt) (o : Option Bool) : (perfCount g e o m).ports = m.ports := by obtain ⟨_, h⟩ := perfCount_eq m g e o; rw [h]
@[simp] theorem perfCount_viral (g : Fin 7) (e : PerfEvt) (o : Option Bool) : (perfCount g e o m).viral = m.viral := by obtain ⟨_, h⟩ := perfCount_eq m g e o; rw [h]
@[simp] theorem perfCount_prot (g : Fin 7) (e : PerfEvt) (o : Option Bool) : (perfCount g e o m).prot = m.prot := by obtain ⟨_, h⟩ := perfCount_eq m g e o; rw [h]
@[simp] theorem perfCount_tiers (g : Fin 7) (e : PerfEvt) (o : Option Bool) : (perfCount g e o m).tiers = m.tiers := by obtain ⟨_, h⟩ := perfCount_eq m g e o; rw [h]
@[simp] theorem perfCount_fullers (g : Fin 7) (e : PerfEvt) (o : Option Bool) : (perfCount g e o m).fullers = m.fullers := by obtain ⟨_, h⟩ := perfCount_eq m g e o; rw [h]
@[simp] theorem perfCount_jobs (g : Fin 7) (e : PerfEvt) (o : Option Bool) : (perfCount g e o m).jobs = m.jobs := by obtain ⟨_, h⟩ := perfCount_eq m g e o; rw [h]
@[simp] theorem perfCount_ctxs (g : Fin 7) (e : PerfEvt) (o : Option Bool) : (perfCount g e o m).ctxs = m.ctxs := by obtain ⟨_, h⟩ := perfCount_eq m g e o; rw [h]
@[simp] theorem perfCount_rings (g : Fin 7) (e : PerfEvt) (o : Option Bool) : (perfCount g e o m).rings = m.rings := by obtain ⟨_, h⟩ := perfCount_eq m g e o; rw [h]
@[simp] theorem perfCount_qs (g : Fin 7) (e : PerfEvt) (o : Option Bool) : (perfCount g e o m).qs = m.qs := by obtain ⟨_, h⟩ := perfCount_eq m g e o; rw [h]
@[simp] theorem perfCount_egress (g : Fin 7) (e : PerfEvt) (o : Option Bool) : (perfCount g e o m).egress = m.egress := by obtain ⟨_, h⟩ := perfCount_eq m g e o; rw [h]
@[simp] theorem perfCount_cpools (g : Fin 7) (e : PerfEvt) (o : Option Bool) : (perfCount g e o m).cpools = m.cpools := by obtain ⟨_, h⟩ := perfCount_eq m g e o; rw [h]
@[simp] theorem perfCount_gang (g : Fin 7) (e : PerfEvt) (o : Option Bool) : (perfCount g e o m).gang = m.gang := by obtain ⟨_, h⟩ := perfCount_eq m g e o; rw [h]
@[simp] theorem perfCount_perfUser (g : Fin 7) (e : PerfEvt) (o : Option Bool) : (perfCount g e o m).perfUser = m.perfUser := by obtain ⟨_, h⟩ := perfCount_eq m g e o; rw [h]
@[simp] theorem perfCount_bw (g : Fin 7) (e : PerfEvt) (o : Option Bool) : (perfCount g e o m).bw = m.bw := by obtain ⟨_, h⟩ := perfCount_eq m g e o; rw [h]
@[simp] theorem perfCount_labels (g : Fin 7) (e : PerfEvt) (o : Option Bool) : (perfCount g e o m).labels = m.labels := by obtain ⟨_, h⟩ := perfCount_eq m g e o; rw [h]
@[simp] theorem perfCount_therm (g : Fin 7) (e : PerfEvt) (o : Option Bool) : (perfCount g e o m).therm = m.therm := by obtain ⟨_, h⟩ := perfCount_eq m g e o; rw [h]
@[simp] theorem perfCount_power (g : Fin 7) (e : PerfEvt) (o : Option Bool) : (perfCount g e o m).power = m.power := by obtain ⟨_, h⟩ := perfCount_eq m g e o; rw [h]
@[simp] theorem perfCount_proc (g : Fin 7) (e : PerfEvt) (o : Option Bool) : (perfCount g e o m).proc = m.proc := by obtain ⟨_, h⟩ := perfCount_eq m g e o; rw [h]
@[simp] theorem perfCount_flash (g : Fin 7) (e : PerfEvt) (o : Option Bool) : (perfCount g e o m).flash = m.flash := by obtain ⟨_, h⟩ := perfCount_eq m g e o; rw [h]
@[simp] theorem perfCount_conn (g : Fin 7) (e : PerfEvt) (o : Option Bool) : (perfCount g e o m).conn = m.conn := by obtain ⟨_, h⟩ := perfCount_eq m g e o; rw [h]
@[simp] theorem perfCount_slotSel (g : Fin 7) (e : PerfEvt) (o : Option Bool) : (perfCount g e o m).slotSel = m.slotSel := by obtain ⟨_, h⟩ := perfCount_eq m g e o; rw [h]
@[simp] theorem perfCount_slotSet (g : Fin 7) (e : PerfEvt) (o : Option Bool) : (perfCount g e o m).slotSet = m.slotSet := by obtain ⟨_, h⟩ := perfCount_eq m g e o; rw [h]
@[simp] theorem perfCount_free (g : Fin 7) (e : PerfEvt) (o : Option Bool) : (perfCount g e o m).free = m.free := by obtain ⟨_, h⟩ := perfCount_eq m g e o; rw [h]

/-! ### msix -/

/-- An MSI-X message changes the record of what was sent, or the pending bits of its port. -/
theorem msix_eq (p : Port) (v : Nat) : ∃ q o, msix p v m = { m with ports := q, out := o } := by
  unfold msix; split
  · exact ⟨_, _, rfl⟩
  · split <;> exact ⟨_, _, rfl⟩

@[simp] theorem msix_tb (p : Port) (v : Nat) : (msix p v m).tb = m.tb := by obtain ⟨_, _, h⟩ := msix_eq m p v; rw [h]
@[simp] theorem msix_ev (p : Port) (v : Nat) : (msix p v m).ev = m.ev := by obtain ⟨_, _, h⟩ := msix_eq m p v; rw [h]
@[simp] theorem msix_sched (p : Port) (v : Nat) : (msix p v m).sched = m.sched := by obtain ⟨_, _, h⟩ := msix_eq m p v; rw [h]
@[simp] theorem msix_packs (p : Port) (v : Nat) : (msix p v m).packs = m.packs := by obtain ⟨_, _, h⟩ := msix_eq m p v; rw [h]
@[simp] theorem msix_tests (p : Port) (v : Nat) : (msix p v m).tests = m.tests := by obtain ⟨_, _, h⟩ := msix_eq m p v; rw [h]
@[simp] theorem msix_wbuf (p : Port) (v : Nat) : (msix p v m).wbuf = m.wbuf := by obtain ⟨_, _, h⟩ := msix_eq m p v; rw [h]
@[simp] theorem msix_wbWait (p : Port) (v : Nat) : (msix p v m).wbWait = m.wbWait := by obtain ⟨_, _, h⟩ := msix_eq m p v; rw [h]
@[simp] theorem msix_here (p : Port) (v : Nat) : (msix p v m).here = m.here := by obtain ⟨_, _, h⟩ := msix_eq m p v; rw [h]
@[simp] theorem msix_acc (p : Port) (v : Nat) : (msix p v m).acc = m.acc := by obtain ⟨_, _, h⟩ := msix_eq m p v; rw [h]
@[simp] theorem msix_accId (p : Port) (v : Nat) : (msix p v m).accId = m.accId := by obtain ⟨_, _, h⟩ := msix_eq m p v; rw [h]
@[simp] theorem msix_parked (p : Port) (v : Nat) : (msix p v m).parked = m.parked := by obtain ⟨_, _, h⟩ := msix_eq m p v; rw [h]
@[simp] theorem msix_filling (p : Port) (v : Nat) : (msix p v m).filling = m.filling := by obtain ⟨_, _, h⟩ := msix_eq m p v; rw [h]
@[simp] theorem msix_mem (p : Port) (v : Nat) : (msix p v m).mem = m.mem := by obtain ⟨_, _, h⟩ := msix_eq m p v; rw [h]
@[simp] theorem msix_slices (p : Port) (v : Nat) : (msix p v m).slices = m.slices := by obtain ⟨_, _, h⟩ := msix_eq m p v; rw [h]
@[simp] theorem msix_insert (p : Port) (v : Nat) : (msix p v m).insert = m.insert := by obtain ⟨_, _, h⟩ := msix_eq m p v; rw [h]
@[simp] theorem msix_filters (p : Port) (v : Nat) : (msix p v m).filters = m.filters := by obtain ⟨_, _, h⟩ := msix_eq m p v; rw [h]
@[simp] theorem msix_snpTag (p : Port) (v : Nat) : (msix p v m).snpTag = m.snpTag := by obtain ⟨_, _, h⟩ := msix_eq m p v; rw [h]
@[simp] theorem msix_viral (p : Port) (v : Nat) : (msix p v m).viral = m.viral := by obtain ⟨_, _, h⟩ := msix_eq m p v; rw [h]
@[simp] theorem msix_prot (p : Port) (v : Nat) : (msix p v m).prot = m.prot := by obtain ⟨_, _, h⟩ := msix_eq m p v; rw [h]
@[simp] theorem msix_tiers (p : Port) (v : Nat) : (msix p v m).tiers = m.tiers := by obtain ⟨_, _, h⟩ := msix_eq m p v; rw [h]
@[simp] theorem msix_fullers (p : Port) (v : Nat) : (msix p v m).fullers = m.fullers := by obtain ⟨_, _, h⟩ := msix_eq m p v; rw [h]
@[simp] theorem msix_jobs (p : Port) (v : Nat) : (msix p v m).jobs = m.jobs := by obtain ⟨_, _, h⟩ := msix_eq m p v; rw [h]
@[simp] theorem msix_ctxs (p : Port) (v : Nat) : (msix p v m).ctxs = m.ctxs := by obtain ⟨_, _, h⟩ := msix_eq m p v; rw [h]
@[simp] theorem msix_rings (p : Port) (v : Nat) : (msix p v m).rings = m.rings := by obtain ⟨_, _, h⟩ := msix_eq m p v; rw [h]
@[simp] theorem msix_qs (p : Port) (v : Nat) : (msix p v m).qs = m.qs := by obtain ⟨_, _, h⟩ := msix_eq m p v; rw [h]
@[simp] theorem msix_egress (p : Port) (v : Nat) : (msix p v m).egress = m.egress := by obtain ⟨_, _, h⟩ := msix_eq m p v; rw [h]
@[simp] theorem msix_cpools (p : Port) (v : Nat) : (msix p v m).cpools = m.cpools := by obtain ⟨_, _, h⟩ := msix_eq m p v; rw [h]
@[simp] theorem msix_gang (p : Port) (v : Nat) : (msix p v m).gang = m.gang := by obtain ⟨_, _, h⟩ := msix_eq m p v; rw [h]
@[simp] theorem msix_perf (p : Port) (v : Nat) : (msix p v m).perf = m.perf := by obtain ⟨_, _, h⟩ := msix_eq m p v; rw [h]
@[simp] theorem msix_perfUser (p : Port) (v : Nat) : (msix p v m).perfUser = m.perfUser := by obtain ⟨_, _, h⟩ := msix_eq m p v; rw [h]
@[simp] theorem msix_bw (p : Port) (v : Nat) : (msix p v m).bw = m.bw := by obtain ⟨_, _, h⟩ := msix_eq m p v; rw [h]
@[simp] theorem msix_labels (p : Port) (v : Nat) : (msix p v m).labels = m.labels := by obtain ⟨_, _, h⟩ := msix_eq m p v; rw [h]
@[simp] theorem msix_therm (p : Port) (v : Nat) : (msix p v m).therm = m.therm := by obtain ⟨_, _, h⟩ := msix_eq m p v; rw [h]
@[simp] theorem msix_power (p : Port) (v : Nat) : (msix p v m).power = m.power := by obtain ⟨_, _, h⟩ := msix_eq m p v; rw [h]
@[simp] theorem msix_proc (p : Port) (v : Nat) : (msix p v m).proc = m.proc := by obtain ⟨_, _, h⟩ := msix_eq m p v; rw [h]
@[simp] theorem msix_flash (p : Port) (v : Nat) : (msix p v m).flash = m.flash := by obtain ⟨_, _, h⟩ := msix_eq m p v; rw [h]
@[simp] theorem msix_conn (p : Port) (v : Nat) : (msix p v m).conn = m.conn := by obtain ⟨_, _, h⟩ := msix_eq m p v; rw [h]
@[simp] theorem msix_slotSel (p : Port) (v : Nat) : (msix p v m).slotSel = m.slotSel := by obtain ⟨_, _, h⟩ := msix_eq m p v; rw [h]
@[simp] theorem msix_slotSet (p : Port) (v : Nat) : (msix p v m).slotSet = m.slotSet := by obtain ⟨_, _, h⟩ := msix_eq m p v; rw [h]
@[simp] theorem msix_free (p : Port) (v : Nat) : (msix p v m).free = m.free := by obtain ⟨_, _, h⟩ := msix_eq m p v; rw [h]

/-! ### wake -/

/-- A wake cause changes the power state alone, but for the sweep flags of an entry that it abandons. -/
theorem wake_eq (c : Nat) : ∃ q z, wake c m = { m with power := q, slices := z } := by
  unfold wake; dsimp only
  repeat' split
  all_goals exact ⟨_, _, rfl⟩

@[simp] theorem wake_tb (c : Nat) : (wake c m).tb = m.tb := by obtain ⟨_, _, h⟩ := wake_eq m c; rw [h]
@[simp] theorem wake_ev (c : Nat) : (wake c m).ev = m.ev := by obtain ⟨_, _, h⟩ := wake_eq m c; rw [h]
@[simp] theorem wake_out (c : Nat) : (wake c m).out = m.out := by obtain ⟨_, _, h⟩ := wake_eq m c; rw [h]
@[simp] theorem wake_sched (c : Nat) : (wake c m).sched = m.sched := by obtain ⟨_, _, h⟩ := wake_eq m c; rw [h]
@[simp] theorem wake_packs (c : Nat) : (wake c m).packs = m.packs := by obtain ⟨_, _, h⟩ := wake_eq m c; rw [h]
@[simp] theorem wake_tests (c : Nat) : (wake c m).tests = m.tests := by obtain ⟨_, _, h⟩ := wake_eq m c; rw [h]
@[simp] theorem wake_wbuf (c : Nat) : (wake c m).wbuf = m.wbuf := by obtain ⟨_, _, h⟩ := wake_eq m c; rw [h]
@[simp] theorem wake_wbWait (c : Nat) : (wake c m).wbWait = m.wbWait := by obtain ⟨_, _, h⟩ := wake_eq m c; rw [h]
@[simp] theorem wake_here (c : Nat) : (wake c m).here = m.here := by obtain ⟨_, _, h⟩ := wake_eq m c; rw [h]
@[simp] theorem wake_acc (c : Nat) : (wake c m).acc = m.acc := by obtain ⟨_, _, h⟩ := wake_eq m c; rw [h]
@[simp] theorem wake_accId (c : Nat) : (wake c m).accId = m.accId := by obtain ⟨_, _, h⟩ := wake_eq m c; rw [h]
@[simp] theorem wake_parked (c : Nat) : (wake c m).parked = m.parked := by obtain ⟨_, _, h⟩ := wake_eq m c; rw [h]
@[simp] theorem wake_filling (c : Nat) : (wake c m).filling = m.filling := by obtain ⟨_, _, h⟩ := wake_eq m c; rw [h]
@[simp] theorem wake_mem (c : Nat) : (wake c m).mem = m.mem := by obtain ⟨_, _, h⟩ := wake_eq m c; rw [h]
@[simp] theorem wake_insert (c : Nat) : (wake c m).insert = m.insert := by obtain ⟨_, _, h⟩ := wake_eq m c; rw [h]
@[simp] theorem wake_filters (c : Nat) : (wake c m).filters = m.filters := by obtain ⟨_, _, h⟩ := wake_eq m c; rw [h]
@[simp] theorem wake_snpTag (c : Nat) : (wake c m).snpTag = m.snpTag := by obtain ⟨_, _, h⟩ := wake_eq m c; rw [h]
@[simp] theorem wake_ports (c : Nat) : (wake c m).ports = m.ports := by obtain ⟨_, _, h⟩ := wake_eq m c; rw [h]
@[simp] theorem wake_viral (c : Nat) : (wake c m).viral = m.viral := by obtain ⟨_, _, h⟩ := wake_eq m c; rw [h]
@[simp] theorem wake_prot (c : Nat) : (wake c m).prot = m.prot := by obtain ⟨_, _, h⟩ := wake_eq m c; rw [h]
@[simp] theorem wake_tiers (c : Nat) : (wake c m).tiers = m.tiers := by obtain ⟨_, _, h⟩ := wake_eq m c; rw [h]
@[simp] theorem wake_fullers (c : Nat) : (wake c m).fullers = m.fullers := by obtain ⟨_, _, h⟩ := wake_eq m c; rw [h]
@[simp] theorem wake_jobs (c : Nat) : (wake c m).jobs = m.jobs := by obtain ⟨_, _, h⟩ := wake_eq m c; rw [h]
@[simp] theorem wake_ctxs (c : Nat) : (wake c m).ctxs = m.ctxs := by obtain ⟨_, _, h⟩ := wake_eq m c; rw [h]
@[simp] theorem wake_rings (c : Nat) : (wake c m).rings = m.rings := by obtain ⟨_, _, h⟩ := wake_eq m c; rw [h]
@[simp] theorem wake_qs (c : Nat) : (wake c m).qs = m.qs := by obtain ⟨_, _, h⟩ := wake_eq m c; rw [h]
@[simp] theorem wake_egress (c : Nat) : (wake c m).egress = m.egress := by obtain ⟨_, _, h⟩ := wake_eq m c; rw [h]
@[simp] theorem wake_cpools (c : Nat) : (wake c m).cpools = m.cpools := by obtain ⟨_, _, h⟩ := wake_eq m c; rw [h]
@[simp] theorem wake_gang (c : Nat) : (wake c m).gang = m.gang := by obtain ⟨_, _, h⟩ := wake_eq m c; rw [h]
@[simp] theorem wake_perf (c : Nat) : (wake c m).perf = m.perf := by obtain ⟨_, _, h⟩ := wake_eq m c; rw [h]
@[simp] theorem wake_perfUser (c : Nat) : (wake c m).perfUser = m.perfUser := by obtain ⟨_, _, h⟩ := wake_eq m c; rw [h]
@[simp] theorem wake_bw (c : Nat) : (wake c m).bw = m.bw := by obtain ⟨_, _, h⟩ := wake_eq m c; rw [h]
@[simp] theorem wake_labels (c : Nat) : (wake c m).labels = m.labels := by obtain ⟨_, _, h⟩ := wake_eq m c; rw [h]
@[simp] theorem wake_therm (c : Nat) : (wake c m).therm = m.therm := by obtain ⟨_, _, h⟩ := wake_eq m c; rw [h]
@[simp] theorem wake_proc (c : Nat) : (wake c m).proc = m.proc := by obtain ⟨_, _, h⟩ := wake_eq m c; rw [h]
@[simp] theorem wake_flash (c : Nat) : (wake c m).flash = m.flash := by obtain ⟨_, _, h⟩ := wake_eq m c; rw [h]
@[simp] theorem wake_conn (c : Nat) : (wake c m).conn = m.conn := by obtain ⟨_, _, h⟩ := wake_eq m c; rw [h]
@[simp] theorem wake_slotSel (c : Nat) : (wake c m).slotSel = m.slotSel := by obtain ⟨_, _, h⟩ := wake_eq m c; rw [h]
@[simp] theorem wake_slotSet (c : Nat) : (wake c m).slotSet = m.slotSet := by obtain ⟨_, _, h⟩ := wake_eq m c; rw [h]
@[simp] theorem wake_free (c : Nat) : (wake c m).free = m.free := by obtain ⟨_, _, h⟩ := wake_eq m c; rw [h]

/-! ### raiseAt -/

/-- An event changes the event state, what was sent, the fatal log, the performance counters and, as a wake cause, the
power state. -/
theorem raiseAt_eq (fr : Word32) (k : BitVec 16) (sv : Nat) (l : Word32) (d : Word64) :
    ∃ a b c e f g, raiseAt fr k sv l d m = { m with ev := a, out := b, flash := c, perf := e, power := f, slices := g } := by
  have ho : ∃ b, (if (2 ≤ sv && (m.proc.sp0 == .active || m.proc.sp1 == .active) && m.conn.ir != 3) then send (.uart k) m else m) =
      { m with out := b } := by split <;> exact ⟨_, rfl⟩
  obtain ⟨b, ho⟩ := ho
  unfold raiseAt; dsimp only; simp only [ho]
  cases sv == 3 <;> cases m.ev.mask.getLsbD sv <;> simp only [if_true, if_false, Bool.false_eq_true] <;> split
  all_goals first
    | (split
       · rw [(wake_eq _ _).choose_spec.choose_spec, (perfCount_eq _ _ _ _).choose_spec]; exact ⟨_, _, _, _, _, _, rfl⟩
       · rw [(perfCount_eq _ _ _ _).choose_spec]; exact ⟨_, _, _, _, _, _, rfl⟩)
    | (rw [(perfCount_eq _ _ _ _).choose_spec]; exact ⟨_, _, _, _, _, _, rfl⟩)

@[simp] theorem raiseAt_tb (fr : Word32) (k : BitVec 16) (sv : Nat) (l : Word32) (d : Word64) : (raiseAt fr k sv l d m).tb = m.tb := by obtain ⟨_, _, _, _, _, _, h⟩ := raiseAt_eq m fr k sv l d; rw [h]
@[simp] theorem raiseAt_sched (fr : Word32) (k : BitVec 16) (sv : Nat) (l : Word32) (d : Word64) : (raiseAt fr k sv l d m).sched = m.sched := by obtain ⟨_, _, _, _, _, _, h⟩ := raiseAt_eq m fr k sv l d; rw [h]
@[simp] theorem raiseAt_packs (fr : Word32) (k : BitVec 16) (sv : Nat) (l : Word32) (d : Word64) : (raiseAt fr k sv l d m).packs = m.packs := by obtain ⟨_, _, _, _, _, _, h⟩ := raiseAt_eq m fr k sv l d; rw [h]
@[simp] theorem raiseAt_tests (fr : Word32) (k : BitVec 16) (sv : Nat) (l : Word32) (d : Word64) : (raiseAt fr k sv l d m).tests = m.tests := by obtain ⟨_, _, _, _, _, _, h⟩ := raiseAt_eq m fr k sv l d; rw [h]
@[simp] theorem raiseAt_wbuf (fr : Word32) (k : BitVec 16) (sv : Nat) (l : Word32) (d : Word64) : (raiseAt fr k sv l d m).wbuf = m.wbuf := by obtain ⟨_, _, _, _, _, _, h⟩ := raiseAt_eq m fr k sv l d; rw [h]
@[simp] theorem raiseAt_wbWait (fr : Word32) (k : BitVec 16) (sv : Nat) (l : Word32) (d : Word64) : (raiseAt fr k sv l d m).wbWait = m.wbWait := by obtain ⟨_, _, _, _, _, _, h⟩ := raiseAt_eq m fr k sv l d; rw [h]
@[simp] theorem raiseAt_here (fr : Word32) (k : BitVec 16) (sv : Nat) (l : Word32) (d : Word64) : (raiseAt fr k sv l d m).here = m.here := by obtain ⟨_, _, _, _, _, _, h⟩ := raiseAt_eq m fr k sv l d; rw [h]
@[simp] theorem raiseAt_acc (fr : Word32) (k : BitVec 16) (sv : Nat) (l : Word32) (d : Word64) : (raiseAt fr k sv l d m).acc = m.acc := by obtain ⟨_, _, _, _, _, _, h⟩ := raiseAt_eq m fr k sv l d; rw [h]
@[simp] theorem raiseAt_accId (fr : Word32) (k : BitVec 16) (sv : Nat) (l : Word32) (d : Word64) : (raiseAt fr k sv l d m).accId = m.accId := by obtain ⟨_, _, _, _, _, _, h⟩ := raiseAt_eq m fr k sv l d; rw [h]
@[simp] theorem raiseAt_parked (fr : Word32) (k : BitVec 16) (sv : Nat) (l : Word32) (d : Word64) : (raiseAt fr k sv l d m).parked = m.parked := by obtain ⟨_, _, _, _, _, _, h⟩ := raiseAt_eq m fr k sv l d; rw [h]
@[simp] theorem raiseAt_filling (fr : Word32) (k : BitVec 16) (sv : Nat) (l : Word32) (d : Word64) : (raiseAt fr k sv l d m).filling = m.filling := by obtain ⟨_, _, _, _, _, _, h⟩ := raiseAt_eq m fr k sv l d; rw [h]
@[simp] theorem raiseAt_mem (fr : Word32) (k : BitVec 16) (sv : Nat) (l : Word32) (d : Word64) : (raiseAt fr k sv l d m).mem = m.mem := by obtain ⟨_, _, _, _, _, _, h⟩ := raiseAt_eq m fr k sv l d; rw [h]
@[simp] theorem raiseAt_insert (fr : Word32) (k : BitVec 16) (sv : Nat) (l : Word32) (d : Word64) : (raiseAt fr k sv l d m).insert = m.insert := by obtain ⟨_, _, _, _, _, _, h⟩ := raiseAt_eq m fr k sv l d; rw [h]
@[simp] theorem raiseAt_filters (fr : Word32) (k : BitVec 16) (sv : Nat) (l : Word32) (d : Word64) : (raiseAt fr k sv l d m).filters = m.filters := by obtain ⟨_, _, _, _, _, _, h⟩ := raiseAt_eq m fr k sv l d; rw [h]
@[simp] theorem raiseAt_snpTag (fr : Word32) (k : BitVec 16) (sv : Nat) (l : Word32) (d : Word64) : (raiseAt fr k sv l d m).snpTag = m.snpTag := by obtain ⟨_, _, _, _, _, _, h⟩ := raiseAt_eq m fr k sv l d; rw [h]
@[simp] theorem raiseAt_ports (fr : Word32) (k : BitVec 16) (sv : Nat) (l : Word32) (d : Word64) : (raiseAt fr k sv l d m).ports = m.ports := by obtain ⟨_, _, _, _, _, _, h⟩ := raiseAt_eq m fr k sv l d; rw [h]
@[simp] theorem raiseAt_viral (fr : Word32) (k : BitVec 16) (sv : Nat) (l : Word32) (d : Word64) : (raiseAt fr k sv l d m).viral = m.viral := by obtain ⟨_, _, _, _, _, _, h⟩ := raiseAt_eq m fr k sv l d; rw [h]
@[simp] theorem raiseAt_prot (fr : Word32) (k : BitVec 16) (sv : Nat) (l : Word32) (d : Word64) : (raiseAt fr k sv l d m).prot = m.prot := by obtain ⟨_, _, _, _, _, _, h⟩ := raiseAt_eq m fr k sv l d; rw [h]
@[simp] theorem raiseAt_tiers (fr : Word32) (k : BitVec 16) (sv : Nat) (l : Word32) (d : Word64) : (raiseAt fr k sv l d m).tiers = m.tiers := by obtain ⟨_, _, _, _, _, _, h⟩ := raiseAt_eq m fr k sv l d; rw [h]
@[simp] theorem raiseAt_fullers (fr : Word32) (k : BitVec 16) (sv : Nat) (l : Word32) (d : Word64) : (raiseAt fr k sv l d m).fullers = m.fullers := by obtain ⟨_, _, _, _, _, _, h⟩ := raiseAt_eq m fr k sv l d; rw [h]
@[simp] theorem raiseAt_jobs (fr : Word32) (k : BitVec 16) (sv : Nat) (l : Word32) (d : Word64) : (raiseAt fr k sv l d m).jobs = m.jobs := by obtain ⟨_, _, _, _, _, _, h⟩ := raiseAt_eq m fr k sv l d; rw [h]
@[simp] theorem raiseAt_ctxs (fr : Word32) (k : BitVec 16) (sv : Nat) (l : Word32) (d : Word64) : (raiseAt fr k sv l d m).ctxs = m.ctxs := by obtain ⟨_, _, _, _, _, _, h⟩ := raiseAt_eq m fr k sv l d; rw [h]
@[simp] theorem raiseAt_rings (fr : Word32) (k : BitVec 16) (sv : Nat) (l : Word32) (d : Word64) : (raiseAt fr k sv l d m).rings = m.rings := by obtain ⟨_, _, _, _, _, _, h⟩ := raiseAt_eq m fr k sv l d; rw [h]
@[simp] theorem raiseAt_qs (fr : Word32) (k : BitVec 16) (sv : Nat) (l : Word32) (d : Word64) : (raiseAt fr k sv l d m).qs = m.qs := by obtain ⟨_, _, _, _, _, _, h⟩ := raiseAt_eq m fr k sv l d; rw [h]
@[simp] theorem raiseAt_egress (fr : Word32) (k : BitVec 16) (sv : Nat) (l : Word32) (d : Word64) : (raiseAt fr k sv l d m).egress = m.egress := by obtain ⟨_, _, _, _, _, _, h⟩ := raiseAt_eq m fr k sv l d; rw [h]
@[simp] theorem raiseAt_cpools (fr : Word32) (k : BitVec 16) (sv : Nat) (l : Word32) (d : Word64) : (raiseAt fr k sv l d m).cpools = m.cpools := by obtain ⟨_, _, _, _, _, _, h⟩ := raiseAt_eq m fr k sv l d; rw [h]
@[simp] theorem raiseAt_gang (fr : Word32) (k : BitVec 16) (sv : Nat) (l : Word32) (d : Word64) : (raiseAt fr k sv l d m).gang = m.gang := by obtain ⟨_, _, _, _, _, _, h⟩ := raiseAt_eq m fr k sv l d; rw [h]
@[simp] theorem raiseAt_perfUser (fr : Word32) (k : BitVec 16) (sv : Nat) (l : Word32) (d : Word64) : (raiseAt fr k sv l d m).perfUser = m.perfUser := by obtain ⟨_, _, _, _, _, _, h⟩ := raiseAt_eq m fr k sv l d; rw [h]
@[simp] theorem raiseAt_bw (fr : Word32) (k : BitVec 16) (sv : Nat) (l : Word32) (d : Word64) : (raiseAt fr k sv l d m).bw = m.bw := by obtain ⟨_, _, _, _, _, _, h⟩ := raiseAt_eq m fr k sv l d; rw [h]
@[simp] theorem raiseAt_labels (fr : Word32) (k : BitVec 16) (sv : Nat) (l : Word32) (d : Word64) : (raiseAt fr k sv l d m).labels = m.labels := by obtain ⟨_, _, _, _, _, _, h⟩ := raiseAt_eq m fr k sv l d; rw [h]
@[simp] theorem raiseAt_therm (fr : Word32) (k : BitVec 16) (sv : Nat) (l : Word32) (d : Word64) : (raiseAt fr k sv l d m).therm = m.therm := by obtain ⟨_, _, _, _, _, _, h⟩ := raiseAt_eq m fr k sv l d; rw [h]
@[simp] theorem raiseAt_proc (fr : Word32) (k : BitVec 16) (sv : Nat) (l : Word32) (d : Word64) : (raiseAt fr k sv l d m).proc = m.proc := by obtain ⟨_, _, _, _, _, _, h⟩ := raiseAt_eq m fr k sv l d; rw [h]
@[simp] theorem raiseAt_conn (fr : Word32) (k : BitVec 16) (sv : Nat) (l : Word32) (d : Word64) : (raiseAt fr k sv l d m).conn = m.conn := by obtain ⟨_, _, _, _, _, _, h⟩ := raiseAt_eq m fr k sv l d; rw [h]
@[simp] theorem raiseAt_slotSel (fr : Word32) (k : BitVec 16) (sv : Nat) (l : Word32) (d : Word64) : (raiseAt fr k sv l d m).slotSel = m.slotSel := by obtain ⟨_, _, _, _, _, _, h⟩ := raiseAt_eq m fr k sv l d; rw [h]
@[simp] theorem raiseAt_slotSet (fr : Word32) (k : BitVec 16) (sv : Nat) (l : Word32) (d : Word64) : (raiseAt fr k sv l d m).slotSet = m.slotSet := by obtain ⟨_, _, _, _, _, _, h⟩ := raiseAt_eq m fr k sv l d; rw [h]
@[simp] theorem raiseAt_free (fr : Word32) (k : BitVec 16) (sv : Nat) (l : Word32) (d : Word64) : (raiseAt fr k sv l d m).free = m.free := by obtain ⟨_, _, _, _, _, _, h⟩ := raiseAt_eq m fr k sv l d; rw [h]

/-! ### raise -/

@[simp] theorem raise_tb (k : BitVec 16) (sv : Nat) (l : Word32) (d : Word64) : (raise k sv l d m).tb = m.tb := raiseAt_tb ..
@[simp] theorem raise_sched (k : BitVec 16) (sv : Nat) (l : Word32) (d : Word64) : (raise k sv l d m).sched = m.sched := raiseAt_sched ..
@[simp] theorem raise_packs (k : BitVec 16) (sv : Nat) (l : Word32) (d : Word64) : (raise k sv l d m).packs = m.packs := raiseAt_packs ..
@[simp] theorem raise_tests (k : BitVec 16) (sv : Nat) (l : Word32) (d : Word64) : (raise k sv l d m).tests = m.tests := raiseAt_tests ..
@[simp] theorem raise_wbuf (k : BitVec 16) (sv : Nat) (l : Word32) (d : Word64) : (raise k sv l d m).wbuf = m.wbuf := raiseAt_wbuf ..
@[simp] theorem raise_wbWait (k : BitVec 16) (sv : Nat) (l : Word32) (d : Word64) : (raise k sv l d m).wbWait = m.wbWait := raiseAt_wbWait ..
@[simp] theorem raise_here (k : BitVec 16) (sv : Nat) (l : Word32) (d : Word64) : (raise k sv l d m).here = m.here := raiseAt_here ..
@[simp] theorem raise_acc (k : BitVec 16) (sv : Nat) (l : Word32) (d : Word64) : (raise k sv l d m).acc = m.acc := raiseAt_acc ..
@[simp] theorem raise_accId (k : BitVec 16) (sv : Nat) (l : Word32) (d : Word64) : (raise k sv l d m).accId = m.accId := raiseAt_accId ..
@[simp] theorem raise_parked (k : BitVec 16) (sv : Nat) (l : Word32) (d : Word64) : (raise k sv l d m).parked = m.parked := raiseAt_parked ..
@[simp] theorem raise_filling (k : BitVec 16) (sv : Nat) (l : Word32) (d : Word64) : (raise k sv l d m).filling = m.filling := raiseAt_filling ..
@[simp] theorem raise_mem (k : BitVec 16) (sv : Nat) (l : Word32) (d : Word64) : (raise k sv l d m).mem = m.mem := raiseAt_mem ..
@[simp] theorem raise_insert (k : BitVec 16) (sv : Nat) (l : Word32) (d : Word64) : (raise k sv l d m).insert = m.insert := raiseAt_insert ..
@[simp] theorem raise_filters (k : BitVec 16) (sv : Nat) (l : Word32) (d : Word64) : (raise k sv l d m).filters = m.filters := raiseAt_filters ..
@[simp] theorem raise_snpTag (k : BitVec 16) (sv : Nat) (l : Word32) (d : Word64) : (raise k sv l d m).snpTag = m.snpTag := raiseAt_snpTag ..
@[simp] theorem raise_ports (k : BitVec 16) (sv : Nat) (l : Word32) (d : Word64) : (raise k sv l d m).ports = m.ports := raiseAt_ports ..
@[simp] theorem raise_viral (k : BitVec 16) (sv : Nat) (l : Word32) (d : Word64) : (raise k sv l d m).viral = m.viral := raiseAt_viral ..
@[simp] theorem raise_prot (k : BitVec 16) (sv : Nat) (l : Word32) (d : Word64) : (raise k sv l d m).prot = m.prot := raiseAt_prot ..
@[simp] theorem raise_tiers (k : BitVec 16) (sv : Nat) (l : Word32) (d : Word64) : (raise k sv l d m).tiers = m.tiers := raiseAt_tiers ..
@[simp] theorem raise_fullers (k : BitVec 16) (sv : Nat) (l : Word32) (d : Word64) : (raise k sv l d m).fullers = m.fullers := raiseAt_fullers ..
@[simp] theorem raise_jobs (k : BitVec 16) (sv : Nat) (l : Word32) (d : Word64) : (raise k sv l d m).jobs = m.jobs := raiseAt_jobs ..
@[simp] theorem raise_ctxs (k : BitVec 16) (sv : Nat) (l : Word32) (d : Word64) : (raise k sv l d m).ctxs = m.ctxs := raiseAt_ctxs ..
@[simp] theorem raise_rings (k : BitVec 16) (sv : Nat) (l : Word32) (d : Word64) : (raise k sv l d m).rings = m.rings := raiseAt_rings ..
@[simp] theorem raise_qs (k : BitVec 16) (sv : Nat) (l : Word32) (d : Word64) : (raise k sv l d m).qs = m.qs := raiseAt_qs ..
@[simp] theorem raise_egress (k : BitVec 16) (sv : Nat) (l : Word32) (d : Word64) : (raise k sv l d m).egress = m.egress := raiseAt_egress ..
@[simp] theorem raise_cpools (k : BitVec 16) (sv : Nat) (l : Word32) (d : Word64) : (raise k sv l d m).cpools = m.cpools := raiseAt_cpools ..
@[simp] theorem raise_gang (k : BitVec 16) (sv : Nat) (l : Word32) (d : Word64) : (raise k sv l d m).gang = m.gang := raiseAt_gang ..
@[simp] theorem raise_perfUser (k : BitVec 16) (sv : Nat) (l : Word32) (d : Word64) : (raise k sv l d m).perfUser = m.perfUser := raiseAt_perfUser ..
@[simp] theorem raise_bw (k : BitVec 16) (sv : Nat) (l : Word32) (d : Word64) : (raise k sv l d m).bw = m.bw := raiseAt_bw ..
@[simp] theorem raise_labels (k : BitVec 16) (sv : Nat) (l : Word32) (d : Word64) : (raise k sv l d m).labels = m.labels := raiseAt_labels ..
@[simp] theorem raise_therm (k : BitVec 16) (sv : Nat) (l : Word32) (d : Word64) : (raise k sv l d m).therm = m.therm := raiseAt_therm ..
@[simp] theorem raise_proc (k : BitVec 16) (sv : Nat) (l : Word32) (d : Word64) : (raise k sv l d m).proc = m.proc := raiseAt_proc ..
@[simp] theorem raise_conn (k : BitVec 16) (sv : Nat) (l : Word32) (d : Word64) : (raise k sv l d m).conn = m.conn := raiseAt_conn ..
@[simp] theorem raise_slotSel (k : BitVec 16) (sv : Nat) (l : Word32) (d : Word64) : (raise k sv l d m).slotSel = m.slotSel := raiseAt_slotSel ..
@[simp] theorem raise_slotSet (k : BitVec 16) (sv : Nat) (l : Word32) (d : Word64) : (raise k sv l d m).slotSet = m.slotSet := raiseAt_slotSet ..
@[simp] theorem raise_free (k : BitVec 16) (sv : Nat) (l : Word32) (d : Word64) : (raise k sv l d m).free = m.free := raiseAt_free ..

/-! ### event -/

@[simp] theorem event_tb (k : BitVec 16) (l : Word32) (d : Nat) : (event k l d m).tb = m.tb := raise_tb ..
@[simp] theorem event_sched (k : BitVec 16) (l : Word32) (d : Nat) : (event k l d m).sched = m.sched := raise_sched ..
@[simp] theorem event_packs (k : BitVec 16) (l : Word32) (d : Nat) : (event k l d m).packs = m.packs := raise_packs ..
@[simp] theorem event_tests (k : BitVec 16) (l : Word32) (d : Nat) : (event k l d m).tests = m.tests := raise_tests ..
@[simp] theorem event_wbuf (k : BitVec 16) (l : Word32) (d : Nat) : (event k l d m).wbuf = m.wbuf := raise_wbuf ..
@[simp] theorem event_wbWait (k : BitVec 16) (l : Word32) (d : Nat) : (event k l d m).wbWait = m.wbWait := raise_wbWait ..
@[simp] theorem event_here (k : BitVec 16) (l : Word32) (d : Nat) : (event k l d m).here = m.here := raise_here ..
@[simp] theorem event_acc (k : BitVec 16) (l : Word32) (d : Nat) : (event k l d m).acc = m.acc := raise_acc ..
@[simp] theorem event_accId (k : BitVec 16) (l : Word32) (d : Nat) : (event k l d m).accId = m.accId := raise_accId ..
@[simp] theorem event_parked (k : BitVec 16) (l : Word32) (d : Nat) : (event k l d m).parked = m.parked := raise_parked ..
@[simp] theorem event_filling (k : BitVec 16) (l : Word32) (d : Nat) : (event k l d m).filling = m.filling := raise_filling ..
@[simp] theorem event_mem (k : BitVec 16) (l : Word32) (d : Nat) : (event k l d m).mem = m.mem := raise_mem ..
@[simp] theorem event_insert (k : BitVec 16) (l : Word32) (d : Nat) : (event k l d m).insert = m.insert := raise_insert ..
@[simp] theorem event_filters (k : BitVec 16) (l : Word32) (d : Nat) : (event k l d m).filters = m.filters := raise_filters ..
@[simp] theorem event_snpTag (k : BitVec 16) (l : Word32) (d : Nat) : (event k l d m).snpTag = m.snpTag := raise_snpTag ..
@[simp] theorem event_ports (k : BitVec 16) (l : Word32) (d : Nat) : (event k l d m).ports = m.ports := raise_ports ..
@[simp] theorem event_viral (k : BitVec 16) (l : Word32) (d : Nat) : (event k l d m).viral = m.viral := raise_viral ..
@[simp] theorem event_prot (k : BitVec 16) (l : Word32) (d : Nat) : (event k l d m).prot = m.prot := raise_prot ..
@[simp] theorem event_tiers (k : BitVec 16) (l : Word32) (d : Nat) : (event k l d m).tiers = m.tiers := raise_tiers ..
@[simp] theorem event_fullers (k : BitVec 16) (l : Word32) (d : Nat) : (event k l d m).fullers = m.fullers := raise_fullers ..
@[simp] theorem event_jobs (k : BitVec 16) (l : Word32) (d : Nat) : (event k l d m).jobs = m.jobs := raise_jobs ..
@[simp] theorem event_ctxs (k : BitVec 16) (l : Word32) (d : Nat) : (event k l d m).ctxs = m.ctxs := raise_ctxs ..
@[simp] theorem event_rings (k : BitVec 16) (l : Word32) (d : Nat) : (event k l d m).rings = m.rings := raise_rings ..
@[simp] theorem event_qs (k : BitVec 16) (l : Word32) (d : Nat) : (event k l d m).qs = m.qs := raise_qs ..
@[simp] theorem event_egress (k : BitVec 16) (l : Word32) (d : Nat) : (event k l d m).egress = m.egress := raise_egress ..
@[simp] theorem event_cpools (k : BitVec 16) (l : Word32) (d : Nat) : (event k l d m).cpools = m.cpools := raise_cpools ..
@[simp] theorem event_gang (k : BitVec 16) (l : Word32) (d : Nat) : (event k l d m).gang = m.gang := raise_gang ..
@[simp] theorem event_perfUser (k : BitVec 16) (l : Word32) (d : Nat) : (event k l d m).perfUser = m.perfUser := raise_perfUser ..
@[simp] theorem event_bw (k : BitVec 16) (l : Word32) (d : Nat) : (event k l d m).bw = m.bw := raise_bw ..
@[simp] theorem event_labels (k : BitVec 16) (l : Word32) (d : Nat) : (event k l d m).labels = m.labels := raise_labels ..
@[simp] theorem event_therm (k : BitVec 16) (l : Word32) (d : Nat) : (event k l d m).therm = m.therm := raise_therm ..
@[simp] theorem event_proc (k : BitVec 16) (l : Word32) (d : Nat) : (event k l d m).proc = m.proc := raise_proc ..
@[simp] theorem event_conn (k : BitVec 16) (l : Word32) (d : Nat) : (event k l d m).conn = m.conn := raise_conn ..
@[simp] theorem event_slotSel (k : BitVec 16) (l : Word32) (d : Nat) : (event k l d m).slotSel = m.slotSel := raise_slotSel ..
@[simp] theorem event_slotSet (k : BitVec 16) (l : Word32) (d : Nat) : (event k l d m).slotSet = m.slotSet := raise_slotSet ..
@[simp] theorem event_free (k : BitVec 16) (l : Word32) (d : Nat) : (event k l d m).free = m.free := raise_free ..

/-! ### Registers of the power state that a wake cause leaves alone -/

@[simp] theorem wake_power_idleUs (c : Nat) : (wake c m).power.idleUs = m.power.idleUs := by
  unfold wake; dsimp only; repeat' split
  all_goals rfl
@[simp] theorem raiseAt_power_idleUs (fr : Word32) (k : BitVec 16) (sv : Nat) (l : Word32) (d : Word64) :
    (raiseAt fr k sv l d m).power.idleUs = m.power.idleUs := by
  unfold raiseAt; dsimp only; repeat' split
  all_goals simp
@[simp] theorem event_power_idleUs (k : BitVec 16) (l : Word32) (d : Nat) : (event k l d m).power.idleUs = m.power.idleUs := raiseAt_power_idleUs ..

@[simp] theorem wake_power_retain (c : Nat) : (wake c m).power.retain = m.power.retain := by
  unfold wake; dsimp only; repeat' split
  all_goals rfl
@[simp] theorem raiseAt_power_retain (fr : Word32) (k : BitVec 16) (sv : Nat) (l : Word32) (d : Word64) :
    (raiseAt fr k sv l d m).power.retain = m.power.retain := by
  unfold raiseAt; dsimp only; repeat' split
  all_goals simp
@[simp] theorem event_power_retain (k : BitVec 16) (l : Word32) (d : Nat) : (event k l d m).power.retain = m.power.retain := raiseAt_power_retain ..

@[simp] theorem wake_power_retained (c : Nat) : (wake c m).power.retained = m.power.retained := by
  unfold wake; dsimp only; repeat' split
  all_goals rfl
@[simp] theorem raiseAt_power_retained (fr : Word32) (k : BitVec 16) (sv : Nat) (l : Word32) (d : Word64) :
    (raiseAt fr k sv l d m).power.retained = m.power.retained := by
  unfold raiseAt; dsimp only; repeat' split
  all_goals simp
@[simp] theorem event_power_retained (k : BitVec 16) (l : Word32) (d : Nat) : (event k l d m).power.retained = m.power.retained := raiseAt_power_retained ..

@[simp] theorem wake_power_ready (c : Nat) : (wake c m).power.ready = m.power.ready := by
  unfold wake; dsimp only; repeat' split
  all_goals rfl
@[simp] theorem raiseAt_power_ready (fr : Word32) (k : BitVec 16) (sv : Nat) (l : Word32) (d : Word64) :
    (raiseAt fr k sv l d m).power.ready = m.power.ready := by
  unfold raiseAt; dsimp only; repeat' split
  all_goals simp
@[simp] theorem event_power_ready (k : BitVec 16) (l : Word32) (d : Nat) : (event k l d m).power.ready = m.power.ready := raiseAt_power_ready ..

@[simp] theorem wake_power_entries (c : Nat) : (wake c m).power.entries = m.power.entries := by
  unfold wake; dsimp only; repeat' split
  all_goals rfl
@[simp] theorem raiseAt_power_entries (fr : Word32) (k : BitVec 16) (sv : Nat) (l : Word32) (d : Word64) :
    (raiseAt fr k sv l d m).power.entries = m.power.entries := by
  unfold raiseAt; dsimp only; repeat' split
  all_goals simp
@[simp] theorem event_power_entries (k : BitVec 16) (l : Word32) (d : Nat) : (event k l d m).power.entries = m.power.entries := raiseAt_power_entries ..

@[simp] theorem wake_power_ilim (c : Nat) : (wake c m).power.ilim = m.power.ilim := by
  unfold wake; dsimp only; repeat' split
  all_goals rfl
@[simp] theorem raiseAt_power_ilim (fr : Word32) (k : BitVec 16) (sv : Nat) (l : Word32) (d : Word64) :
    (raiseAt fr k sv l d m).power.ilim = m.power.ilim := by
  unfold raiseAt; dsimp only; repeat' split
  all_goals simp
@[simp] theorem event_power_ilim (k : BitVec 16) (l : Word32) (d : Nat) : (event k l d m).power.ilim = m.power.ilim := raiseAt_power_ilim ..

@[simp] theorem wake_power_pwrErr (c : Nat) : (wake c m).power.pwrErr = m.power.pwrErr := by
  unfold wake; dsimp only; repeat' split
  all_goals rfl
@[simp] theorem raiseAt_power_pwrErr (fr : Word32) (k : BitVec 16) (sv : Nat) (l : Word32) (d : Word64) :
    (raiseAt fr k sv l d m).power.pwrErr = m.power.pwrErr := by
  unfold raiseAt; dsimp only; repeat' split
  all_goals simp
@[simp] theorem event_power_pwrErr (k : BitVec 16) (l : Word32) (d : Nat) : (event k l d m).power.pwrErr = m.power.pwrErr := raiseAt_power_pwrErr ..

@[simp] theorem wake_power_vinMv (c : Nat) : (wake c m).power.vinMv = m.power.vinMv := by
  unfold wake; dsimp only; repeat' split
  all_goals rfl
@[simp] theorem raiseAt_power_vinMv (fr : Word32) (k : BitVec 16) (sv : Nat) (l : Word32) (d : Word64) :
    (raiseAt fr k sv l d m).power.vinMv = m.power.vinMv := by
  unfold raiseAt; dsimp only; repeat' split
  all_goals simp
@[simp] theorem event_power_vinMv (k : BitVec 16) (l : Word32) (d : Nat) : (event k l d m).power.vinMv = m.power.vinMv := raiseAt_power_vinMv ..

@[simp] theorem wake_power_iin (c : Nat) : (wake c m).power.iin = m.power.iin := by
  unfold wake; dsimp only; repeat' split
  all_goals rfl
@[simp] theorem raiseAt_power_iin (fr : Word32) (k : BitVec 16) (sv : Nat) (l : Word32) (d : Word64) :
    (raiseAt fr k sv l d m).power.iin = m.power.iin := by
  unfold raiseAt; dsimp only; repeat' split
  all_goals simp
@[simp] theorem event_power_iin (k : BitVec 16) (l : Word32) (d : Nat) : (event k l d m).power.iin = m.power.iin := raiseAt_power_iin ..

@[simp] theorem wake_power_fetT (c : Nat) : (wake c m).power.fetT = m.power.fetT := by
  unfold wake; dsimp only; repeat' split
  all_goals rfl
@[simp] theorem raiseAt_power_fetT (fr : Word32) (k : BitVec 16) (sv : Nat) (l : Word32) (d : Word64) :
    (raiseAt fr k sv l d m).power.fetT = m.power.fetT := by
  unfold raiseAt; dsimp only; repeat' split
  all_goals simp
@[simp] theorem event_power_fetT (k : BitVec 16) (l : Word32) (d : Nat) : (event k l d m).power.fetT = m.power.fetT := raiseAt_power_fetT ..

@[simp] theorem wake_power_workAt (c : Nat) : (wake c m).power.workAt = m.power.workAt := by
  unfold wake; dsimp only; repeat' split
  all_goals rfl
@[simp] theorem raiseAt_power_workAt (fr : Word32) (k : BitVec 16) (sv : Nat) (l : Word32) (d : Word64) :
    (raiseAt fr k sv l d m).power.workAt = m.power.workAt := by
  unfold raiseAt; dsimp only; repeat' split
  all_goals simp
@[simp] theorem event_power_workAt (k : BitVec 16) (l : Word32) (d : Nat) : (event k l d m).power.workAt = m.power.workAt := raiseAt_power_workAt ..

/-- What an event leaves in the event state (R516 to R518, R554). -/
theorem raiseAt_ev (fr : Word32) (k : BitVec 16) (sv : Nat) (l : Word32) (d : Word64) :
    (raiseAt fr k sv l d m).ev =
      let sev := if m.ev.mask.getLsbD sv then putBit m.ev.sev sv true else m.ev.sev
      if evFits m.ev.fifo sv then
        { m.ev with sev := sev, nextSeq := m.ev.nextSeq + 1, fifo := m.ev.fifo ++ [⟨m.ev.nextSeq, k, sv, fr, l, d, evTime m, false, false⟩] }
      else { m.ev with sev := sev, co := evMerge k (evKey k l d) sv l fr (evTime m) m.ev.co } := by
  have ho : ∃ b, (if (2 ≤ sv && (m.proc.sp0 == .active || m.proc.sp1 == .active) && m.conn.ir != 3) then send (.uart k) m else m) =
      { m with out := b } := by split <;> exact ⟨_, rfl⟩
  obtain ⟨b, ho⟩ := ho
  unfold raiseAt; dsimp only; simp only [ho]
  cases sv == 3 <;> cases m.ev.mask.getLsbD sv <;> simp only [if_true, if_false, Bool.false_eq_true] <;> split <;> (try split) <;>
    simp <;> rfl

/-- Below severity 3 an event leaves the flash alone. -/
theorem raiseAt_flash (fr : Word32) (k : BitVec 16) (sv : Nat) (l : Word32) (d : Word64) (h : sv ≠ 3) : (raiseAt fr k sv l d m).flash = m.flash := by
  unfold raiseAt; dsimp only; rw [if_neg (show ¬ (sv == 3) = true by simpa using h)]
  repeat' split
  all_goals simp

/-- An event leaves everything in the flash alone but the fatal log. -/
theorem event_flash (k : BitVec 16) (l : Word32) (d : Nat) : ∃ x, (event k l d m).flash = { m.flash with fatal := x } := by
  unfold event raise
  by_cases h : evSeverity k = 3
  · unfold raiseAt; dsimp only; rw [if_pos (show (evSeverity k == 3) = true by simpa using h)]
    repeat' split
    all_goals exact ⟨_, by simp; rfl⟩
  · exact ⟨m.flash.fatal, by rw [raiseAt_flash _ _ _ _ _ _ h]⟩

end Sys2Proof.Machine
end

