-- ==== Sys2Proof/Laws/Frames.lean ====
section
/-! SUPPORT. Laws/Frames.lean: one lemma per shared operation that says everything the operation may change. A prover takes the
equation `m' = …` from it and reads every other field off, in place of unfolding the operation. -/
namespace Sys2Proof.Machine

/-- A fold of steps that each keep a value keeps it. -/
theorem foldl_keep {α β γ : Type} (g : β → γ) (f : β → α → β) (h : ∀ b a, g (f b a) = g b) (l : List α) (b : β) :
    g (l.foldl f b) = g b := by
  induction l generalizing b with
  | nil => rfl
  | cons x l ih => rw [List.foldl_cons, ih, h]

/-- A fold of steps that each stand in a reflexive and transitive relation to what they start from does so too. -/
theorem foldl_rel {α β : Type} (R : β → β → Prop) (hr : ∀ b, R b b) (ht : ∀ a b c, R a b → R b c → R a c) (f : β → α → β)
    (h : ∀ b a, R b (f b a)) (l : List α) (b : β) : R b (l.foldl f b) := by
  induction l generalizing b with
  | nil => exact hr b
  | cons x l ih => rw [List.foldl_cons]; exact ht _ _ _ (h b x) (ih _)

/-! ### Reports: what events, performance counts and wake causes may change -/

/-- `m'` is `m` but for the event state, what was sent, the performance counters, the power state, the fatal log and a flush of the
slices that an abandoned entry ends. -/
def reports (m m' : Mod) : Prop :=
  ∃ ev out perf power fatal flushed, m' = { m with
    ev := ev, out := out, perf := perf, power := power, flash := { m.flash with fatal := fatal },
    slices := if flushed = true then m.slices.map (fun s => { s with flush := false }) else m.slices }

theorem reports_refl (m : Mod) : reports m m := ⟨m.ev, m.out, m.perf, m.power, m.flash.fatal, false, rfl⟩

theorem reports_trans (a b c : Mod) (h : reports a b) (k : reports b c) : reports a c := by
  obtain ⟨ev, out, perf, power, fatal, f, rfl⟩ := h
  obtain ⟨ev', out', perf', power', fatal', f', rfl⟩ := k
  refine ⟨ev', out', perf', power', fatal', f || f', ?_⟩
  cases f <;> cases f' <;> simp

theorem send_reports (o : Out) (m : Mod) : reports m (send o m) := ⟨m.ev, o :: m.out, m.perf, m.power, m.flash.fatal, false, rfl⟩

theorem touch_reports (m : Mod) : reports m (touch m) := ⟨m.ev, m.out, m.perf, _, m.flash.fatal, false, rfl⟩

theorem perfCount_reports (page : Fin 7) (e : PerfEvt) (odd : Option Bool) (m : Mod) : reports m (perfCount page e odd m) := by
  unfold perfCount; split
  · exact reports_refl m
  · exact ⟨m.ev, m.out, _, m.power, m.flash.fatal, false, rfl⟩

theorem wake_reports (c : Nat) (m : Mod) : reports m (wake c m) := by
  unfold wake; dsimp only
  repeat' split
  all_goals first
    | exact reports_refl m
    | exact ⟨m.ev, m.out, m.perf, _, m.flash.fatal, false, rfl⟩
    | exact ⟨m.ev, m.out, m.perf, _, m.flash.fatal, true, rfl⟩

theorem raiseAt_reports (fr : Word32) (k : BitVec 16) (sv : Nat) (l : Word32) (d : Word64) (m : Mod) : reports m (raiseAt fr k sv l d m) := by
  have key : ∀ m x : Mod, reports m x → ∀ e, reports m { x with ev := e } := fun m x h e =>
    reports_trans _ _ _ h ⟨e, x.out, x.perf, x.power, x.flash.fatal, false, rfl⟩
  have hu : reports m (if (2 ≤ sv && (m.proc.sp0 == .active || m.proc.sp1 == .active) && m.conn.ir != 3) then send (.uart k) m else m) := by
    split
    · exact send_reports _ m
    · exact reports_refl m
  have hf : ∀ x : Mod, reports x (if (sv == 3) = true then { x with flash := { x.flash with fatal := (k :: x.flash.fatal).take 1024 } } else x) := by
    intro x; split
    · exact ⟨x.ev, x.out, x.perf, x.power, _, false, rfl⟩
    · exact reports_refl x
  unfold raiseAt; dsimp only
  generalize (if m.ev.mask.getLsbD sv = true then { m.ev with sev := putBit m.ev.sev sv true } else m.ev) = ev
  generalize (if (2 ≤ sv && (m.proc.sp0 == .active || m.proc.sp1 == .active) && m.conn.ir != 3) then send (.uart k) m else m) = x at hu ⊢
  have h := reports_trans _ _ _ hu (hf x)
  generalize (if (sv == 3) = true then { x with flash := { x.flash with fatal := (k :: x.flash.fatal).take 1024 } } else x) = y at h ⊢
  have pc : ∀ pg e o v, reports m (perfCount pg e o { y with ev := v }) := fun pg e o v =>
    reports_trans _ _ _ (key _ _ h v) (perfCount_reports pg e o _)
  split
  · split
    · exact reports_trans _ _ _ (pc ..) (wake_reports ..)
    · exact pc ..
  · exact pc ..

theorem raise_reports (k : BitVec 16) (sv : Nat) (l : Word32) (d : Word64) (m : Mod) : reports m (raise k sv l d m) := raiseAt_reports ..

theorem event_reports (k : BitVec 16) (l : Word32) (d : Nat) (m : Mod) : reports m (event k l d m) := raiseAt_reports ..

/-! ### Rings: what fetching, posting and completing may change -/

/-- `m'` is `m` but for the ports' credit and waiting D2H requests, the rings, the service processors' queue, and reports. -/
def ringsOnly (m m' : Mod) : Prop := ∃ ports rings proc, reports { m with ports := ports, rings := rings, proc := proc } m'

theorem reports_ringsOnly {m m' : Mod} (h : reports m m') : ringsOnly m m' := ⟨m.ports, m.rings, m.proc, h⟩

theorem ringsOnly_refl (m : Mod) : ringsOnly m m := reports_ringsOnly (reports_refl m)

theorem ringsOnly_trans (a b c : Mod) (h : ringsOnly a b) (k : ringsOnly b c) : ringsOnly a c := by
  obtain ⟨p, r, q, ev, out, perf, power, fatal, f, rfl⟩ := h
  obtain ⟨p', r', q', ev', out', perf', power', fatal', f', rfl⟩ := k
  refine ⟨p', r', q', ev', out', perf', power', fatal', f || f', ?_⟩
  cases f <;> cases f' <;> simp

theorem onPort_ringsOnly (p : Port) (f : PortSt → PortSt) (m : Mod) : ringsOnly m (onPort p f m) := ⟨_, m.rings, m.proc, reports_refl _⟩

theorem onRings_ringsOnly (p : Port) (f : RingsSt → RingsSt) (m : Mod) : ringsOnly m (onRings p f m) := ⟨m.ports, _, m.proc, reports_refl _⟩

theorem onRing_ringsOnly (p : Port) (r : Nat) (f : Ring → Ring) (m : Mod) : ringsOnly m (onRing p r f m) := onRings_ringsOnly ..

theorem proc_ringsOnly (q : ProcSt) (m : Mod) : ringsOnly m { m with proc := q } := ⟨m.ports, m.rings, q, reports_refl _⟩

theorem d2hSend_ringsOnly (p : Port) (k a : Nat) (m : Mod) : ringsOnly m (d2hSend p k a m) := by
  unfold d2hSend
  repeat' split
  all_goals first
    | exact ringsOnly_refl m
    | exact onPort_ringsOnly ..
    | exact ringsOnly_trans _ _ _ (onPort_ringsOnly ..) (reports_ringsOnly (send_reports ..))

theorem itoMWr_ringsOnly (p : Port) (w : OpenWrite) (m : Mod) : ringsOnly m (itoMWr p w m) := by
  unfold itoMWr; dsimp only
  repeat' split
  · exact ringsOnly_refl m
  · exact onRings_ringsOnly ..
  · exact ringsOnly_trans _ _ _ (ringsOnly_trans _ _ _ (onRings_ringsOnly ..) (d2hSend_ringsOnly ..)) (reports_ringsOnly (perfCount_reports ..))

theorem shadowWrite_ringsOnly (p : Port) (r : Nat) (m : Mod) : ringsOnly m (shadowWrite p r m) :=
  ringsOnly_trans _ _ _ (onRing_ringsOnly ..) (itoMWr_ringsOnly ..)

theorem ringHalt_ringsOnly (p : Port) (r code : Nat) (m : Mod) : ringsOnly m (ringHalt p r code m) := by
  unfold ringHalt; dsimp only
  split
  · refine ringsOnly_trans _ _ _ ?_ (reports_ringsOnly (raise_reports ..))
    split
    · exact onRing_ringsOnly ..
    · exact ringsOnly_trans _ _ _ (onRing_ringsOnly ..) (shadowWrite_ringsOnly ..)
  · exact ringsOnly_refl m

theorem drainRing_ringsOnly (p : Port) (r : Nat) (m : Mod) : ringsOnly m (drainRing p r m) := by
  unfold drainRing; split
  · exact onRing_ringsOnly ..
  · exact ringsOnly_refl m

theorem ringFlush_ringsOnly (k : Nat) (p : Port) (r : Nat) (m : Mod) : ringsOnly m (ringFlush k p r m) := by
  induction k generalizing m with
  | zero => exact ringsOnly_refl m
  | succ k ih =>
    unfold ringFlush; dsimp only
    repeat' split
    all_goals first
      | exact ringsOnly_refl m
      | exact ringsOnly_trans _ _ _ (onRing_ringsOnly ..) (drainRing_ringsOnly ..)
      | exact onRing_ringsOnly ..
      | exact ringsOnly_trans _ _ _ (ringsOnly_trans _ _ _ (onRing_ringsOnly ..) (itoMWr_ringsOnly ..)) (ih _)

theorem ringPost_ringsOnly (p : Port) (r : Nat) (e : RawEntry) (m : Mod) : ringsOnly m (ringPost p r e m) := by
  unfold ringPost; dsimp only
  split
  · exact ringsOnly_trans _ _ _ (ringsOnly_trans _ _ _ (onRing_ringsOnly ..) (reports_ringsOnly (touch_reports _))) (ringFlush_ringsOnly ..)
  · exact ringsOnly_refl m

theorem issueRead_ringsOnly (p : Port) (r : Nat) (c : Word32) (m : Mod) : ringsOnly m (issueRead p r c m) := by
  unfold issueRead; dsimp only
  exact ringsOnly_trans _ _ _ (ringsOnly_trans _ _ _ (ringsOnly_trans _ _ _ (ringsOnly_trans _ _ _ (onRings_ringsOnly ..) (onRing_ringsOnly ..))
    (reports_ringsOnly (perfCount_reports ..))) (d2hSend_ringsOnly ..)) (reports_ringsOnly (touch_reports _))

theorem fetchLoop_ringsOnly (k : Nat) (p : Port) (m : Mod) : ringsOnly m (fetchLoop k p m) := by
  induction k generalizing m with
  | zero => exact ringsOnly_refl m
  | succ k ih =>
    unfold fetchLoop; dsimp only
    split
    · exact ringsOnly_refl m
    · split
      · exact ringsOnly_refl m
      · refine ringsOnly_trans _ _ _ (ringsOnly_trans _ _ _ ?_ (issueRead_ringsOnly ..)) (ih _)
        split <;> split
        all_goals first
          | exact ringsOnly_refl m
          | exact onRing_ringsOnly ..
          | exact proc_ringsOnly ..

theorem fetchPump_ringsOnly (m : Mod) : ringsOnly m (fetchPump m) := by
  unfold fetchPump
  refine foldl_rel ringsOnly ringsOnly_refl ringsOnly_trans _ (fun b _ => ?_) _ m
  split
  · exact ringsOnly_refl b
  · exact ringsOnly_trans _ _ _ (fetchLoop_ringsOnly ..) (fetchLoop_ringsOnly ..)

theorem complete_ringsOnly (c : AdminTag) (code rused : Nat) (result : BitVec 96) (m : Mod) : ringsOnly m (complete c code rused result m) := by
  unfold complete; dsimp only
  repeat' split
  · exact ringsOnly_refl m
  · exact proc_ringsOnly ..
  · exact ringsOnly_trans _ _ _ (ringsOnly_trans _ _ _ (ringsOnly_trans _ _ _ (proc_ringsOnly ..) (onRing_ringsOnly ..)) (ringPost_ringsOnly ..)) (fetchPump_ringsOnly _)

theorem done_ringsOnly (c : AdminTag) (code : Nat) (m : Mod) : ringsOnly m (done c code m) := complete_ringsOnly ..

theorem started_ringsOnly (c : AdminTag) (m : Mod) : ringsOnly m (started c m) := proc_ringsOnly ..

/-- The general checks of an admin command change the rings alone, or leave the command to its own effect. -/
theorem admin_cases (h : AdminHdr) (op : BitVec 16) (ok : Bool) (own : AdminTag → Mod → Mod) (m : Mod) :
    ringsOnly m (admin h op ok own m) ∨
      ∃ c x, c = { port := h.port, tag := h.tag, opcode := op } ∧ ringsOnly m x ∧ admin h op ok own m = own c x := by
  have ht : ∀ c, ringsOnly m (touch (started c m)) := fun c =>
    ringsOnly_trans _ _ _ (started_ringsOnly ..) (reports_ringsOnly (touch_reports _))
  unfold admin; dsimp only
  split
  · exact .inl (ringsOnly_refl m)
  · repeat' split
    all_goals first
      | exact .inl (ringsOnly_trans _ _ _ (ht _) (done_ringsOnly ..))
      | exact .inr ⟨_, _, rfl, ht _, rfl⟩

/-! ### The frame, viral and marks -/

theorem setViral_eq (m : Mod) : ∃ out, setViral m = { m with viral := true, out := out } := by
  unfold setViral; split
  · rename_i h; exact ⟨m.out, by rw [← h]⟩
  · exact ⟨_, rfl⟩

theorem passCheck_reports (t : Tile) (m : Mod) : ∃ x, reports { m with slices := x } (passCheck t m) := by
  unfold passCheck; dsimp only; split
  · exact ⟨_, event_reports ..⟩
  · exact ⟨_, reports_refl _⟩

theorem sendAll_out {α : Type} (f : α → Out) (l : List α) (m : Mod) : ∃ out, l.foldl (fun m a => send (f a) m) m = { m with out := out } := by
  induction l generalizing m with
  | nil => exact ⟨m.out, rfl⟩
  | cons a l ih => obtain ⟨o, h⟩ := ih (send (f a) m); exact ⟨o, by rw [List.foldl_cons, h]; rfl⟩

/-- R41, R108: stopping the frame sets self-refresh in every pack and sends the commands for it. -/
theorem stopFrame_eq (m : Mod) : ∃ out, stopFrame m =
    { m with sched := { m.sched with running := false }, packs := m.packs.map (fun p => { p with selfRefresh := true }), out := out } := by
  have key : ∀ (l : List Pack) (x : Mod), ∃ out, l.foldl (fun m p =>
      (List.range 4).foldl (fun m r => send (.dram p 0 0 (16 * r) .selfRefreshEntry) m)
        ((List.range 4).foldl (fun m r => send (.dram p 0 0 (16 * r) .refAb) m) m)) x = { x with out := out } := by
    intro l
    induction l with
    | nil => exact fun x => ⟨x.out, rfl⟩
    | cons p l ih =>
      intro x
      obtain ⟨o1, h1⟩ := sendAll_out (fun r : Nat => Out.dram p 0 0 (16 * r) .refAb) (List.range 4) x
      obtain ⟨o2, h2⟩ := sendAll_out (fun r : Nat => Out.dram p 0 0 (16 * r) .selfRefreshEntry) (List.range 4) { x with out := o1 }
      obtain ⟨o3, h3⟩ := ih { x with out := o2 }
      exact ⟨o3, by rw [List.foldl_cons, h1, h2]; exact h3⟩
  obtain ⟨o, h⟩ := key (List.finRange 8) { m with sched := { m.sched with running := false }, packs := m.packs.map (fun p => { p with selfRefresh := true }) }
  exact ⟨o, h⟩

/-- R50, R52: a channel mark changes its pack, the health record, and reports. -/
theorem channelMark_reports (pk : Pack) (pos cause : Nat) (m : Mod) :
    ∃ x f, reports { m with packs := x, flash := { m.flash with chMarks := f } } (channelMark pk pos cause m) :=
  ⟨_, _, event_reports ..⟩

end Sys2Proof.Machine
end

