-- ==== Sys2Proof/Laws/Memory.lean ====
section
/-! SUPPORT. Laws/Memory.lean: the DRAM image: its canonical form, read after write, and that every operation keeps the form. -/
namespace Sys2Proof.Machine

/-- The canonical form as a relation between any two cells. -/
theorem memWf_iff (m : List Host.Cell) : memWf m = true ↔ m.Pairwise (fun c d => c.1 < d.1) ∧ ∀ c ∈ m, c.2 ≠ 0 := by
  have h : ∀ l : List Host.Cell, (l.zip l.tail).all (fun p => decide (p.1.1 < p.2.1)) = true ↔ l.Pairwise (fun c d => c.1 < d.1) := by
    intro l
    induction l with
    | nil => simp
    | cons x l ih =>
      cases l with
      | nil => simp
      | cons y l =>
        simp only [List.tail_cons, List.zip_cons_cons, List.all_cons, Bool.and_eq_true, decide_eq_true_eq] at ih ⊢
        rw [List.pairwise_cons, ih]
        constructor
        · rintro ⟨hxy, hp⟩
          refine ⟨fun z hz => ?_, hp⟩
          rcases List.mem_cons.mp hz with rfl | hz
          · exact hxy
          · exact Nat.lt_trans hxy ((List.pairwise_cons.mp hp).1 z hz)
        · rintro ⟨hx, hp⟩
          exact ⟨hx y (List.mem_cons_self ..), hp⟩
  unfold memWf
  rw [Bool.and_eq_true, h, List.all_eq_true]
  simp

/-- Reading a byte of two memories one after the other. -/
theorem memByte_append (l r : List Host.Cell) (x : Nat) :
    memByte (l ++ r) x = if tabHas l x then memByte l x else memByte r x := by
  unfold memByte tabGet tabHas
  rw [List.find?_append]
  cases h : l.find? (fun e => e.1 == x) with
  | none =>
    have : l.any (fun e => e.1 == x) = false := by
      rw [List.any_eq_false]; intro e he; simpa using List.find?_eq_none.mp h e he
    simp [this]
  | some e =>
    have : l.any (fun e => e.1 == x) = true := by
      rw [List.any_eq_true]; exact ⟨e, List.mem_of_find?_eq_some h, by simpa using List.find?_some h⟩
    simp [this]

/-- Reading a byte of the cells whose addresses meet a condition. -/
theorem memByte_filter (l : List Host.Cell) (p : Nat → Bool) (x : Nat) :
    memByte (l.filter (fun c => p c.1)) x = if p x then memByte l x else 0 := by
  induction l with
  | nil => simp [memByte, tabGet]
  | cons e l ih =>
    unfold memByte tabGet at ih ⊢
    by_cases he : p e.1 <;> by_cases hx : e.1 = x
    · subst hx; simp [he]
    · rw [List.filter_cons_of_pos (by simpa using he), List.find?_cons_of_neg (by simpa using hx), List.find?_cons_of_neg (by simpa using hx), ih]
    · subst hx
      rw [List.filter_cons_of_neg (by simpa using he), ih]; simp [he]
    · rw [List.filter_cons_of_neg (by simpa using he), ih]; simp [hx]

theorem tabHas_filter (l : List Host.Cell) (p : Nat → Bool) (x : Nat) (h : p x = false) : tabHas (l.filter (fun c => p c.1)) x = false := by
  unfold tabHas
  rw [List.any_eq_false]
  intro e he
  have := (List.mem_filter.mp he).2
  simp only [beq_iff_eq]
  rintro rfl
  simp [h] at this

theorem memByte_not_has (l : List Host.Cell) (x : Nat) (h : tabHas l x = false) : memByte l x = 0 := by
  unfold memByte tabGet
  rw [List.find?_eq_none.mpr]
  intro e he
  simpa using List.any_eq_false.mp h e he

/-- The cells of a byte string, read back. -/
theorem memByte_memCells (a : Nat) (l : List Byte) (x : Nat) :
    memByte (memCells a l) x = if a ≤ x then l.getD (x - a) 0 else 0 := by
  induction l generalizing a with
  | nil => simp [memCells, memByte, tabGet]
  | cons b l ih =>
    have hc : memCells a (b :: l) = (if b = 0 then [] else [(a, b)]) ++ memCells (a + 1) l := by
      unfold memCells
      rw [List.mapIdx_cons]
      by_cases hb : b = 0
      · simp [hb, Nat.add_assoc, Nat.add_comm 1]
      · have hb' : ¬ b = 0#8 := hb
        simp [hb', Nat.add_assoc, Nat.add_comm 1]
    rw [hc, memByte_append, ih]
    by_cases hb : b = 0
    · simp only [hb, if_true]
      rw [if_neg (by simp [tabHas])]
      rcases Nat.lt_trichotomy a x with h | h | h
      · rw [if_pos (by omega), if_pos (by omega)]
        obtain ⟨k, hk⟩ : ∃ k, x - a = k + 1 := ⟨x - a - 1, by omega⟩
        rw [hk, show x - (a + 1) = k by omega]; simp
      · subst h; rw [if_neg (by omega), if_pos (Nat.le_refl _)]; simp
      · rw [if_neg (by omega), if_neg (by omega)]
    · simp only [hb, if_false]
      rcases Nat.lt_trichotomy a x with h | h | h
      · rw [if_neg (by simp [tabHas]; omega), if_pos (by omega), if_pos (by omega)]
        obtain ⟨k, hk⟩ : ∃ k, x - a = k + 1 := ⟨x - a - 1, by omega⟩
        rw [hk, show x - (a + 1) = k by omega]; simp
      · subst h; simp [tabHas, memByte, tabGet]
      · rw [if_neg (by simp [tabHas]; omega), if_neg (by omega), if_neg (by omega)]

theorem tabHas_memCells (a : Nat) (l : List Byte) (x : Nat) (h : x < a ∨ a + l.length ≤ x) : tabHas (memCells a l) x = false := by
  unfold tabHas memCells
  rw [List.any_eq_false]
  intro e he
  obtain ⟨i, hi, rfl⟩ := List.mem_mapIdx.mp (List.mem_filter.mp he).1
  simp only [beq_iff_eq]
  omega

/-- Read after write: the bytes stored, and every other byte as it was. -/
theorem memByte_memWrite (m : List Host.Cell) (a : Nat) (l : List Byte) (x : Nat) :
    memByte (memWrite m a l) x = if a ≤ x ∧ x < a + l.length then l.getD (x - a) 0 else memByte m x := by
  have hlo := memByte_filter m (fun c => decide (c < a)) x
  have hhi := memByte_filter m (fun c => decide (a + l.length ≤ c)) x
  have hin : memByte (m.filter (fun c => decide (c.1 < a)) ++ memCells a l) x =
      if x < a then memByte m x else if x < a + l.length then l.getD (x - a) 0 else 0 := by
    rw [memByte_append, memByte_memCells]
    by_cases h1 : x < a
    · rw [if_pos h1]
      split
      · rw [hlo, if_pos (by simpa using h1)]
      · next h2 =>
        have := memByte_not_has _ _ (by simpa using h2 : tabHas (m.filter (fun c => decide (c.1 < a))) x = false)
        rw [hlo, if_pos (by simpa using h1)] at this
        rw [if_neg (by omega), this]
    · rw [if_neg (by rw [tabHas_filter m (fun c => decide (c < a)) x (by simpa using h1)]; simp), if_pos (by omega), if_neg h1]
      split
      · rfl
      · rw [List.getD_eq_getElem?_getD, List.getElem?_eq_none (by omega)]; rfl
  unfold memWrite
  rw [memByte_append (m.filter _ ++ _)]
  by_cases h2 : tabHas (m.filter (fun c => decide (c.1 < a)) ++ memCells a l) x
  · rw [if_pos h2, hin]
    have h1 : x < a + l.length := by
      refine Classical.byContradiction (fun h1 => ?_)
      have e1 := tabHas_filter m (fun c => decide (c < a)) x (by simp; omega)
      have e2 := tabHas_memCells a l x (Or.inr (by omega))
      unfold tabHas at e1 e2 h2
      rw [List.any_append, e1, e2] at h2
      exact absurd h2 (by simp)
    by_cases h3 : x < a
    · rw [if_pos h3, if_neg (by omega)]
    · rw [if_neg h3, if_pos h1, if_pos ⟨by omega, h1⟩]
  · rw [if_neg h2, hhi]
    have h0 := memByte_not_has _ _ (by simpa using h2 : tabHas (m.filter (fun c => decide (c.1 < a)) ++ memCells a l) x = false)
    rw [hin] at h0
    by_cases h3 : x < a
    · rw [if_pos h3] at h0
      rw [if_neg (by simp; omega), if_neg (by omega), h0]
    · rw [if_neg h3] at h0
      by_cases h1 : x < a + l.length
      · rw [if_pos h1] at h0
        rw [if_neg (by simpa using h1), if_pos ⟨by omega, h1⟩, h0]
      · rw [if_pos (by simpa using h1), if_neg (by omega)]

/-- Zeroing: the bytes of the range read as zero, and every other byte as it was. -/
theorem memByte_memZero (m : List Host.Cell) (a n x : Nat) :
    memByte (memZero m a n) x = if a ≤ x ∧ x < a + n then 0 else memByte m x := by
  have hlo := memByte_filter m (fun c => decide (c < a)) x
  have hhi := memByte_filter m (fun c => decide (a + n ≤ c)) x
  unfold memZero
  rw [memByte_append]
  by_cases h2 : tabHas (m.filter (fun c => decide (c.1 < a))) x
  · have h1 : x < a := by
      refine Classical.byContradiction (fun h1 => ?_)
      rw [tabHas_filter m (fun c => decide (c < a)) x (by simpa using h1)] at h2
      exact absurd h2 (by simp)
    rw [if_pos h2, hlo, if_pos (by simpa using h1), if_neg (by omega)]
  · rw [if_neg h2, hhi]
    have h0 := memByte_not_has _ _ (by simpa using h2 : tabHas (m.filter (fun c => decide (c.1 < a))) x = false)
    rw [hlo] at h0
    by_cases h1 : x < a
    · rw [if_pos (by simpa using h1)] at h0
      rw [if_neg (by simp; omega), if_neg (by omega), h0]
    · by_cases h3 : a + n ≤ x
      · rw [if_pos (by simpa using h3), if_neg (by omega)]
      · rw [if_neg (by simpa using h3), if_pos (by omega)]

/-- A write keeps the canonical form. -/
theorem memWf_memWrite (m : List Host.Cell) (a : Nat) (l : List Byte) (h : memWf m = true) : memWf (memWrite m a l) = true := by
  rw [memWf_iff] at h ⊢
  have hc : (memCells a l).Pairwise (fun c d => c.1 < d.1) := by
    unfold memCells
    refine List.Pairwise.filter _ ?_
    rw [List.pairwise_iff_getElem]
    intro i j hi hj hij
    simp only [List.getElem_mapIdx]; omega
  have hin : ∀ c ∈ memCells a l, a ≤ c.1 ∧ c.1 < a + l.length ∧ c.2 ≠ 0 := by
    intro c hc
    obtain ⟨h1, h2⟩ := List.mem_filter.mp hc
    obtain ⟨i, hi, rfl⟩ := List.mem_mapIdx.mp h1
    exact ⟨by simp, by simpa using hi, by simpa using h2⟩
  unfold memWrite
  refine ⟨?_, ?_⟩
  · rw [List.pairwise_append, List.pairwise_append]
    refine ⟨⟨h.1.filter _, hc, ?_⟩, h.1.filter _, ?_⟩
    · intro c hc d hd
      have := (List.mem_filter.mp hc).2
      have := (hin d hd).1
      simp at *; omega
    · intro c hc d hd
      have hd2 := (List.mem_filter.mp hd).2
      rcases List.mem_append.mp hc with hc | hc
      · have := (List.mem_filter.mp hc).2
        simp at *; omega
      · have := (hin c hc).2.1
        simp at *; omega
  · intro c hc
    rcases List.mem_append.mp hc with hc | hc
    · rcases List.mem_append.mp hc with hc | hc
      · exact h.2 c (List.mem_filter.mp hc).1
      · exact (hin c hc).2.2
    · exact h.2 c (List.mem_filter.mp hc).1

/-- Zeroing keeps the canonical form. -/
theorem memWf_memZero (m : List Host.Cell) (a n : Nat) (h : memWf m = true) : memWf (memZero m a n) = true := by
  rw [memWf_iff] at h ⊢
  unfold memZero
  refine ⟨?_, ?_⟩
  · rw [List.pairwise_append]
    refine ⟨h.1.filter _, h.1.filter _, ?_⟩
    intro c hc d hd
    have h1 := (List.mem_filter.mp hc).2
    have h2 := (List.mem_filter.mp hd).2
    simp at *; omega
  · intro c hc
    rcases List.mem_append.mp hc with hc | hc
    · exact h.2 c (List.mem_filter.mp hc).1
    · exact h.2 c (List.mem_filter.mp hc).1

/-- Storing a batt keeps the canonical form. -/
theorem memWf_memPutBatt (m : List Host.Cell) (da : Nat) (b : Batt) (h : memWf m = true) : memWf (memPutBatt m da b) = true :=
  memWf_memWrite m da _ h

/-- The memory of the reset state is in canonical form. -/
theorem memWf_reset : memWf State.reset.m.mem = true := by decide

end Sys2Proof.Machine
end

