-- ==== Sys2Proof/WellFormed.lean ====
section
/-! DEFINITION. WellFormed.lean: which commands a sender can form at all: operands inside the width of the field that
carries them. exec gives every command its meaning, well-formed or not; a value out of a parameter's range that the
spec answers with a code (R515) is well-formed. -/
namespace Sys2Proof.WellFormed

/-- A slot number of a frame of at most 65,536 slots (R78). -/
def slotOk (slot : Nat) : Bool := slot < 65536

/-- A sector address of the device: 42 bits (R34). -/
def daOk (a : Nat) : Bool := a < 2 ^ 42

/-- A host physical address in a 64-bit address space. -/
def hpaOk (a : Nat) : Bool := a < 2 ^ 64

/-- The fixed part of an admin command: a 32-bit length. -/
def adminOk (h : AdminHdr) : Bool := h.rlen < 2 ^ 32

/-- A flit header: a 12-bit ACK and a credit count that fits its field (R430). -/
def flitOk (f : FlitHdr) : Bool := f.ack < 4096 && f.epoch < 2 ^ 32

/-- An access size of R541. -/
def sizeOk (n : Nat) : Bool := n == 1 || n == 2 || n == 4 || n == 8

/-- Whether a sender can form the command. -/
def wf : Instr → Bool
  | .dispatchPoint _ slot _ => slotOk slot
  | .slotMissed _ slot => slotOk slot
  | .refreshSlot _ slot => slotOk slot
  | .trainSlot _ slot _ => slotOk slot
  | .scrubSlot _ slot _ => slotOk slot
  | .biRspI _ t => t < 65536
  | .biRspS _ t => t < 65536
  | .biRspE _ t => t < 65536
  | .snpInv _ a => hpaOk a
  | .snpData _ a => hpaOk a
  | .snpCur _ a => hpaOk a
  | .rdSharedData _ a _ _ => hpaOk a
  | .rdCurrData _ a _ _ => hpaOk a
  | .goWritePull _ a => hpaOk a
  | .go _ a => hpaOk a
  | .hdmDecoderCommit _ base size _ _ => hpaOk base && size ≤ 2 ^ 64
  | .chanTest h _ _ => adminOk h
  | .identify h => adminOk h
  | .healthRead h => adminOk h
  | .fillDecompressDone _ a _ _ => daOk a
  | .idle f => flitOk f
  | .suspend f => flitOk f
  | .resume f => flitOk f
  | .stop f => flitOk f
  | .registerWrite _ _ _ size _ => sizeOk size
  | .bisnpCreditReturn _ _ n => n != 0
  | _ => true

end Sys2Proof.WellFormed
end

