-- ==== Sys2Proof/Tests/Slice0.lean ====
section
/-! SUPPORT. Tests/Slice0.lean: ill-formed terms that WellFormed refuses; states that meet the hypotheses of the statements
(`test_hyp_…`, one theorem per statement or part, one group per clause); single steps with results taken from the spec. -/
set_option maxRecDepth 20000
set_option Elab.async false
namespace Sys2Proof.Tests

open Sys2Proof Sys2Proof.Machine Sys2Proof.Stmt

/-- The state after reset with its module changed. -/
def atMod (f : Mod → Mod) : State := { State.reset with m := f State.reset.m }

/-- The state after reset with its front end changed. -/
def atFe (f : FrontEnd → FrontEnd) : State := { State.reset with fe := f State.reset.fe }

/-- Pack 0 changed. -/
def atPack (f : PackSt → PackSt) (m : Mod) : Mod := onPack 0 f m

/-- An image of one variant with one slot per frame, whose word of tile 0 is `w` (R123). -/
def oneSlot (w : Nat) : ImageSet :=
  { rom := false, setId := 1, dieProfile := 0, qxcVersion := 0, scrubHours := 24,
    variants := [{ bands := 2, throttle := 0, fsp := false, refreshM := 1, frame := 1, bindLead := 24, secOffset := 0, secLength := 64 }],
    bytes := (List.range 8).map (fun i => BitVec.ofNat 8 (w / 256 ^ i)) }

/-- A frame that runs an image of one slot, with every tile ready. -/
def running (w : Nat) (m : Mod) : Mod :=
  { m with sched := { m.sched with active := oneSlot w, variant := 0, running := true }, proc := { m.proc with bootDone := true }, power := { m.power with ready := 15 } }

/-! ### Hypotheses of the statements: the front end -/

theorem test_hyp_EmptyQueuePassesOneNanosecond : State.reset.pending = [] := rfl

/-- No VIN; QUALIFY and the other states with every start condition. -/
def feAt (st : FeState) : State := atFe (fun f => { f with st := st, powered := false, latch := false })

theorem test_hyp_StartConditionsAreSampledAndBounce :
    (atFe (fun f => { f with vin := false })).fe.vin = false ∧ (State.reset.fe.vin = true ∧ startOk State.reset.fe = true) ∧
    (let s := atFe (fun f => { f with uvOk := false }); s.fe.vin = true ∧ startOk s.fe = false) := by
  repeat' apply And.intro
  all_goals first | rfl | decide

theorem test_hyp_StartSequenceEndsInPowerGood :
    (let s := { feAt .qualify with fe := { (feAt .qualify).fe with starts := 7 } }; s.fe.st = .qualify ∧ startOk s.fe = true ∧ s.fe.starts < 8) ∧
    (let s := { feAt .qualify with fe := { (feAt .qualify).fe with starts := 8, waiting := true } };
      s.fe.st = .qualify ∧ startOk s.fe = true ∧ 8 ≤ s.fe.starts ∧ s.fe.waiting = true ∧ s.fe.starts = 8) ∧
    (feAt .precharge).fe.st = .precharge ∧ (feAt .ramp).fe.st = .ramp ∧
    ((feAt .on).fe.st = .on ∧ (feAt .on).fe.ftUp = false ∧ (feAt .on).fe.powered = false) ∧
    (let s := atFe (fun f => { f with st := .on }); s.fe.st = .on ∧ s.fe.ftUp = false ∧ s.fe.powered = true) ∧
    State.reset.fe.st = .powergood := by
  repeat' apply And.intro
  all_goals first | rfl | decide

theorem test_hyp_TripsLatchUntilCleared :
    mainOn State.reset.fe = true ∧ (atFe (fun f => { f with ftUp := true })).fe.ftUp = true ∧ State.reset.fe.ftUp = false ∧
    (feAt .precharge).fe.st = .precharge ∧
    (State.reset.fe.st ≠ .off ∧ State.reset.fe.st ≠ .latched ∧ 150 * 16 ≤ max (2400 : Int) (fetMeasured State.reset.m)) ∧
    (let s := atMod (fun m => { m with therm := { m.therm with sensors := [(52, { temp := 640, broken := false, fails := 0 })] } });
      max (1999 : Int) (fetMeasured s.m) < 125 * 16 ∧ s.fe.warnFet = false) ∧
    (let s := atFe (fun f => { f with st := .latched, enIn := false, latch := true }); s.fe.st = .latched ∧ s.fe.enIn = false) ∧
    (atFe (fun f => { f with vin := false, latch := true })).fe.vin = false := by
  repeat' apply And.intro
  all_goals first | rfl | decide

theorem test_hyp_EveryStepKeepsTheFrontEndInvariant :
    frontInv State.reset.fe ∧ ∃ t, step { State.reset with pending := [.fetModelUpdate 0] } = .next t := by
  constructor
  · unfold frontInv; decide
  · exact ⟨_, rfl⟩

/-! ### Memory, boot, events -/

theorem test_hyp_DeviceAddressesMapAndRoundTrip : (63 : Nat) < 64 ∧ (262143 : Nat) < 2 ^ 18 ∧ (0 : Nat) < 64 := by decide

theorem test_hyp_BeatsDecodeFromTheirSyndromes :
    (let c : List Byte := List.replicate 18 0; c.length = 18 ∧ c.foldl (· ^^^ ·) 0#8 = 0 ∧ (syndromes c).2 = 0) ∧
    (let c : List Byte := xorAt (List.replicate 18 0) 17 1; c.length = 18 ∧ c.foldl (· ^^^ ·) 0#8 ≠ 0 ∧ (syndromes c).2 ≠ 0 ∧
      (syndromes c).2 = gfMul (c.foldl (· ^^^ ·) 0#8) (gfXn 0 1) ∧ (syndromes c).2 ≠ gfMul (c.foldl (· ^^^ ·) 0#8) (gfXn (17 - 0) 1)) ∧
    (let c : List Byte := xorAt (xorAt (List.replicate 18 0) 0 1) 1 1; c.length = 18 ∧
      ¬ (c.foldl (· ^^^ ·) 0#8 = 0 ∧ (syndromes c).2 = 0) ∧
      ¬ (c.foldl (· ^^^ ·) 0#8 ≠ 0 ∧ (syndromes c).2 ≠ 0 ∧ ∃ u, u < 18 ∧ (syndromes c).2 = gfMul (c.foldl (· ^^^ ·) 0#8) (gfXn u 1))) ∧
    (List.replicate 16 (0 : Byte)).length = 16 ∧ (255 : Byte) ≠ 0 ∧ 3 ≤ [0, 1, 2].length := by
  refine ⟨⟨rfl, rfl, rfl⟩, ⟨rfl, by decide, by decide, rfl, by decide⟩, ⟨rfl, by decide, fun h => absurd rfl h.1⟩, rfl, by decide, by decide⟩

theorem test_hyp_BootCodeRunsOrHoldsForHeat :
    (State.reset.fe.powered = true ∧ State.reset.m.proc.bootDone = false ∧ State.reset.m.therm.hold = false) ∧
    (bankFault State.reset.m.flash State.reset.m.flash.select = 0 ∧ bankOf State.reset.m.flash false = some emptyBank) ∧
    (let f := { initFlash with bank0 := none }; bankFault f false ≠ 0 ∧ bankFault f true ≠ 0) ∧
    (let s := atMod (fun m => { m with therm := { m.therm with hold := true } });
      s.fe.powered = true ∧ s.m.proc.bootDone = false ∧ s.m.therm.hold = true) := by
  repeat' apply And.intro
  all_goals first | rfl | decide

theorem test_hyp_FillFrameEnds :
    (atMod (fun m => { m with tb := { m.tb with lost := true } })).m.tb.lost = true ∧
    (let s := atMod (fun m => { m with filling := 15 });
     s.fe.powered = true ∧ s.m.filling.getLsbD (3 : Tile).val = true ∧ s.m.tb.lost = false ∧ ¬ (s.m.power.last = 3 ∧ s.m.power.phase = 4)) := by
  repeat' apply And.intro
  all_goals first | rfl | decide

theorem test_hyp_EventsEnterTheFifo :
    evFits State.reset.m.ev.fifo (evSeverity 0x0102) = true ∧
    (let f : List EvEntry := List.replicate 4080 default; evFits f 1 = false) := by
  constructor <;> decide +kernel

theorem test_hyp_OscillatorsAndIslandsAnswer :
    (State.reset.fe.powered = true ∧ State.reset.m.tb.lost = false ∧ oscFailed State.reset.m (!State.reset.m.tb.osc1) = false) ∧
    (let s := atMod (fun m => { m with tb := { m.tb with fail1 := true } }); s.m.tb.lost = false ∧ oscFailed s.m (!s.m.tb.osc1) = true) ∧
    islandHeld (atMod (fun m => { m with conn := { m.conn with gangEn := false } })).m 55 = true ∧ islandHeld State.reset.m 56 = false := by
  repeat' apply And.intro
  all_goals first | rfl | decide

/-! ### The frame schedule -/

/-- A variant swap of the running set that waits. -/
def swapping (n : Nat) (m : Mod) : Mod :=
  { m with sched := { m.sched with running := true, swap := some { variant := 2, newSet := false, framesLeft := n, subst := false, band := 2, level := 0 } } }

theorem test_hyp_FramesEndAndSwap :
    (let s := atMod (fun m => { m with sched := { m.sched with running := true } });
      s.fe.powered = true ∧ s.m.sched.running = true ∧ s.m.sched.gap = false ∧ s.m.sched.swap = none ∧ s.m.power.state ≠ 4 ∧ s.m.prot.reload = none) ∧
    (let s := atMod (swapping 2); let w : Swap := { variant := 2, newSet := false, framesLeft := 2, subst := false, band := 2, level := 0 };
      s.m.sched.running = true ∧ s.m.sched.gap = false ∧ s.m.sched.swap = some w ∧ 1 < w.framesLeft ∧ s.m.power.state ≠ 4 ∧ s.m.prot.reload = none) ∧
    (let s := atMod (swapping 1); let w : Swap := { variant := 2, newSet := false, framesLeft := 1, subst := false, band := 2, level := 0 };
      s.m.sched.swap = some w ∧ w.framesLeft ≤ 1 ∧ w.newSet = false ∧ s.m.sched.further = none ∧ s.m.power.state ≠ 4 ∧ s.m.prot.reload = none) ∧
    (atMod (fun m => { m with sched := { m.sched with gap := true } })).m.sched.gap = true ∧
    State.reset.m.sched.running = false ∧ State.reset.m.sched.gap = false := by
  repeat' apply And.intro
  all_goals first | rfl | decide

/-- A dispatcher request of a class for a batt. -/
def reqOf (c : SlotClass) (da : Nat) (w : Bool) : DReq :=
  { cls := c, kind := 0, bank := daRB da, da := da, group := false, write := w, label := 0, why := if w then .write else .fill 0 0 0, tried := false }

/-- The test of `unbuffered` on one class and bank. -/
def unbufferedB (m : Mod) (pk : Pack) (c : SlotClass) (bank : Nat) : Bool :=
  ((headOf (m.packs[pk] : PackSt) c bank).all (fun q => q.write || !(reqBatts q).all (fun da => (wbFind m da).isSome)))

theorem unbuffered_of {m : Mod} {pk : Pack} {c : SlotClass} {bank : Nat} (h : unbufferedB m pk c bank = true) : unbuffered m pk c bank := by
  intro q e
  unfold unbufferedB at h
  rw [e] at h
  simpa using h

/-- One line-fill request waits in pack 0, whose slot word is `w`. -/
def fillWaits (w : Nat) : State := atMod (fun m => atPack (fun p => { p with queue := [reqOf .lineFill 0 false] }) (running w m))

theorem test_hyp_DispatchPointsBind :
    (let s := fillWaits 0x13; let w := slotWord s.m 0 0 false;
      s.fe.powered = true ∧ packJoins s.m 0 = true ∧ classSlot w .lineFill ∧
      headOf (s.m.packs[(0 : Pack)] : PackSt) .lineFill (swBank w) = some (reqOf .lineFill 0 false) ∧
      readRoom s.m (packTile 0) (reqOf .lineFill 0 false) = true) ∧
    unbuffered (fillWaits 0x13).m 0 .lineFill (swBank (slotWord (fillWaits 0x13).m 0 0 false)) ∧
    (let s := atMod (running 0x13); packJoins s.m 0 = true ∧ headOf (s.m.packs[(0 : Pack)] : PackSt) .lineFill (swBank (slotWord s.m 0 0 false)) = none) ∧
    (let s := atMod (fun m => atPack (fun p => { p with queue := [reqOf .lineWb 0 true], diag := some ⟨0, 0, 0, []⟩ }) (running 0x14 m));
      headOf (s.m.packs[(0 : Pack)] : PackSt) .lineWb (swBank (slotWord s.m 0 0 false)) = some (reqOf .lineWb 0 true) ∧
      (s.m.packs[(0 : Pack)] : PackSt).diag ≠ none) ∧
    (let s := fillWaits 0x10; let w := slotWord s.m 0 0 false;
      packJoins s.m 0 = true ∧ swData w = true ∧ swClass w = 0 ∧ innerOpen s.m 0 0 false = false ∧
      (openClasses (swFirst w)).all (fun c => unbufferedB s.m 0 c (swBank w)) = true ∧
      openWinner s.m 0 (swBank w) (swFirst w) false = some (reqOf .lineFill 0 false)) ∧
    packJoins State.reset.m 0 = false := by
  refine ⟨?_, unbuffered_of (by decide +kernel), ?_⟩
  · unfold classSlot; decide +kernel
  · decide +kernel

theorem test_hyp_MissedSlotsAreReported :
    (let b : Bound := ⟨reqOf .lineFill 0 false, 5, 0, 3⟩; let s := atMod (atPack (fun p => { p with bound := [b] }));
      (s.m.packs[(0 : Pack)] : PackSt).bound.find? (fun x => x.slot == 5) = some b) ∧
    (let q : DReq := reqOf .scrub 0 true; let s := atMod (fun m => atPack (fun p => { p with queue := [q] }) (running 0x17 m)); let w := slotWord s.m 0 0 false;
      packRuns s.m 0 = true ∧ (s.m.packs[(0 : Pack)] : PackSt).bound.find? (fun x => x.slot == 0) = none ∧ swData w = true ∧ swClass w = 7 ∧
      scrubWork (s.m.packs[(0 : Pack)] : PackSt) (swBank w) = some 0) ∧
    ((State.reset.m.packs[(0 : Pack)] : PackSt).bound.find? (fun x => x.slot == 5) = none ∧ swClass (slotWord (atMod (running 0x13)).m 0 5 false) ≠ 7) := by
  decide +kernel

/-- Pack 0 with one bound request. -/
def bound1 (q : DReq) (f : PackSt → PackSt) : State := atMod (atPack (fun p => f { p with bound := [⟨q, 0, 0, 3⟩] }))

theorem test_hyp_DataPhasesEnd :
    (let e : WEntry := { da := 0, data := 7, poison := false, cls := .lineWb, label := 0, kind := 0 };
      let s := atMod (fun m => atPack (fun p => { p with bound := [⟨reqOf .lineWb 0 true, 0, 0, 4⟩] }) { m with wbuf := m.wbuf.set 0 [e] });
      (s.m.packs[(0 : Pack)] : PackSt).bound = [⟨reqOf .lineWb 0 true, 0, 0, 4⟩] ∧ (s.m.packs[(0 : Pack)] : PackSt).diag = none ∧
      (reqOf .lineWb 0 true).write = true ∧ (reqOf .lineWb 0 true).why = .write ∧ (reqOf .lineWb 0 true).group = false ∧
      wbFind s.m 0 = some e ∧ s.m.prot.stop = none ∧ rankState (s.m.packs[daPack (battOf 0)] : PackSt) (daRank (battOf 0)) ≤ 1) ∧
    (let q := reqOf .lineFill 0 false; let s := bound1 q id;
      (s.m.packs[(0 : Pack)] : PackSt).diag = none ∧ q.write = false ∧ q.why = .fill 0 0 0 ∧ q.group = false ∧ q.tried = false ∧ wbFind s.m q.da = none ∧
      (rawRead 0 q.da (errsOf [] 0) s.m).1 = .data 0 ∧ (rawRead 0 q.da (errsOf [(0, 0, 1), (0, 1, 1)] 0) s.m).1 = .bad) ∧
    (let d : Diag := { rank := 0, steps := 0, failed := 0, held := [] }; let s := bound1 (reqOf .lineFill 0 false) (fun p => { p with diag := some d });
      (s.m.packs[(0 : Pack)] : PackSt).diag = some d ∧ (reqOf .lineFill 0 false).write = false ∧ (reqOf .lineWb 0 true).write = true) ∧
    (State.reset.m.packs[(0 : Pack)] : PackSt).bound = [] := by
  decide +kernel

/-- Pack 0 changed, in a frame that runs an image of one slot with word `w`. -/
def packRun (w : Nat) (f : PackSt → PackSt) : State := atMod (fun m => atPack f (running w m))

theorem test_hyp_RefreshAndTrainSlotsServe :
    (let s := atMod (running 0x80008); let w := slotWord s.m 0 0 false; packRuns s.m 0 = true ∧ swClass w = 8 ∧ swOp w 0 = 8 ∧ swOp w 1 ≠ 8 ∧ swOp w 1 ≠ 9) ∧
    (let s := atMod (running 0x900000008); let w := slotWord s.m 0 0 false; packRuns s.m 0 = true ∧ swClass w = 8 ∧ swOp w 0 ≠ 8 ∧ swOp w 0 ≠ 9 ∧ swOp w 1 = 9) ∧
    (let d : Diag := ⟨1, 3, 0, []⟩; let s := packRun 9 (fun p => { p with diag := some d }); trainsNow s 0 0 ∧ (s.m.packs[(0 : Pack)] : PackSt).diag = some d ∧ d.steps < 4) ∧
    (let s := packRun 9 (fun p => { p with mr4Due := true }); (s.m.packs[(0 : Pack)] : PackSt).diag = none ∧ (s.m.packs[(0 : Pack)] : PackSt).mr4Due = true) ∧
    (let s := atMod (fun m => atPack (fun p => { p with oscAt := [(0, 500000), (1, 400000), (2, 1000000), (3, 1000000)] })
        { running 9 m with tb := { m.tb with now := 1000000 } });
      (s.m.packs[(0 : Pack)] : PackSt).mr4Due = false ∧ oscRank s.m (s.m.packs[(0 : Pack)] : PackSt) = some 1) ∧
    (let s := atMod (running 9); (s.m.packs[(0 : Pack)] : PackSt).mr4Due = false ∧ oscRank s.m (s.m.packs[(0 : Pack)] : PackSt) = none) := by
  unfold trainsNow
  decide +kernel

theorem test_hyp_ScrubSlotsPatrol :
    (let q : DReq := { reqOf .scrub 0 true with why := .writeBack 5 }; let s := packRun 0x17 (fun p => { p with queue := [q] }); let w := slotWord s.m 0 0 false;
      packRuns s.m 0 = true ∧ swClass w = 7 ∧ swData w = true ∧ (s.m.packs[(0 : Pack)] : PackSt).diag = none ∧
      (s.m.packs[(0 : Pack)] : PackSt).queue.find? (fun q => q.cls == .scrub && q.bank == swBank w && q.write) = some q ∧ q.why = .writeBack 5 ∧
      s.m.prot.stop = none) ∧
    (let s := atMod (running 0x17); let p : PackSt := s.m.packs[(0 : Pack)]; let da := battOf (daOf 0 0 0 0);
      swBank (slotWord s.m 0 0 false) = 0 ∧ tabGet 0 p.patrol 0 = 0 ∧ p.diag = none ∧ (s.m.tests[packTile 0] : Option ChanTest) = none ∧
      p.queue.find? (fun q => q.cls == .scrub && q.bank == 0) = none ∧ p.tests = [] ∧
      readRoom s.m (packTile 0) (battReq .scrub 0 false 0 0 .patrol) = true ∧
      wbFind s.m da = none ∧ rankState p (daRank da) ≠ 3 ∧ da ∉ p.poisonList ∧ da ∉ p.poisonPend ∧ da ∉ p.markers ∧
      decodeBatt (erasedAt p none da) (memBatt s.m.mem da) false (errsOf [] 0) = .good 0 []) := by
  decide +kernel

theorem test_hyp_MarksFollowDiagnosis :
    (let d : Diag := { rank := 0, steps := 4, failed := 0, held := [] }; let s := atMod (atPack (fun p => { p with diag := some d }));
      (s.m.packs[(0 : Pack)] : PackSt).diag = some d ∧ 4 ≤ d.steps ∧ setBits d.failed = []) ∧
    (let d : Diag := { rank := 0, steps := 4, failed := 0x100, held := [] }; let s := atMod (atPack (fun p => { p with diag := some d }));
      (s.m.packs[(0 : Pack)] : PackSt).diag = some d ∧ 4 ≤ d.steps ∧ setBits d.failed = [8]) := by
  repeat' apply And.intro
  all_goals first | rfl | decide

/-! ### Admin commands -/

/-- Both service processors run: core 0 active, core 1 standby. -/
def svcMod (m : Mod) : Mod := { m with proc := { m.proc with sp0 := .active, sp1 := .standby } }

/-- That state with its module changed further. -/
def svc (f : Mod → Mod) : State := atMod (fun m => f (svcMod m))

/-- The header of an admin command with a result buffer of `n` bytes at window offset 0. -/
def hdr (n : Nat) : AdminHdr := { port := .a, tag := 5, rbuf := 0, rlen := n, resv := false }

theorem accepted_svc (op : BitVec 16) (f : Mod → Mod) (h1 : spActive (f (svcMod State.reset.m)) = true)
    (h2 : (f (svcMod State.reset.m)).prot.stop = none) (h3 : (f (svcMod State.reset.m)).proc.recovery = false) (n : Nat) (h4 : n ≤ 65536) :
    accepted (hdr n) op (svc f) := ⟨rfl, h1, rfl, h4, rfl, Or.inl h2, Or.inl h3⟩

theorem test_hyp_AdminCommandsMeetTheGeneralChecks :
    (adminForm (.flashUpdate (hdr 64) 1 0 50331648) = some (hdr 64, 0x0101, true) ∧ State.reset.fe.powered = true ∧ spActive State.reset.m = false) ∧
    spActive (svc id).m = true ∧ ¬ wellPut (hdr 65537) true ∧ wellPut (hdr 65536) true ∧
    (let s := svc (fun m => { m with prot := { m.prot with stop := some default } }); s.m.prot.stop.isSome = true ∧ stopAllowed 0x0101 = false ∧
      stopAllowed 0x0002 = true) ∧
    (let s := svc (fun m => { m with proc := { m.proc with recovery := true } }); s.m.proc.recovery = true ∧ recoveryAllowed 0x0601 = false) := by
  refine ⟨⟨rfl, rfl, rfl⟩, rfl, fun h => absurd h.2.2.1 (by decide), ⟨rfl, rfl, by decide, rfl⟩, ⟨rfl, rfl, rfl⟩, rfl, rfl⟩

/-- A running module-produced ring at number 2 of port A, and an admin ring 1 (type 8) that names it; 64 entries each. -/
def ringed (ty : Nat) (f : Ring → Ring) (m : Mod) : Mod :=
  { m with ports := m.ports.set .a { m.ports.a with linkUp := true, inReset := false },
           rings := m.rings.set .a { m.rings.a with rings :=
    [(1, { initRing with cfg := 0x20000D1, state := 1 }), (2, f { initRing with cfg := BitVec.ofNat 64 (0xC1 + 2 * ty), state := 1 })] } }

theorem test_hyp_CompletionsPostOneEntry :
    (State.reset.m.proc.queue.findIdx? (fun e => e.1 == tagOf (hdr 0) 1) = none) ∧
    (let m := ringed 9 id { State.reset.m with proc := { State.reset.m.proc with queue := [(tagOf (hdr 0) 1, true)] } };
      m.proc.queue.findIdx? (fun e => e.1 == tagOf (hdr 0) 1) = some 0 ∧ adminPair m .a = some ((adminPair m .a).getD 0)) ∧
    (let m := ringed 9 id State.reset.m; let g := ringAt m .a 2;
      g.state = 1 ∧ ringsRun m .a (cfgType g.cfg) = true ∧ g.wait = [] ∧ lineFree g g.midx = true) ∧
    (let m := ringed 9 (fun g => { g with midx := 64 }) State.reset.m; let g := ringAt m .a 2;
      g.state = 1 ∧ ringsRun m .a (cfgType g.cfg) = true ∧ g.wait = [] ∧ lineFree g g.midx = false) ∧
    ((ringAt State.reset.m .a 2).state ≠ 1 ∧ (ringAt State.reset.m .a 2).state ≠ 3) := by
  repeat' apply And.intro
  all_goals first | rfl | decide

theorem test_hyp_IdentityHealthAndFlashCommandsAct :
    accepted (hdr 64) 0x0001 (svc id) ∧ accepted (hdr 64) 0x0002 (svc id) ∧ accepted (hdr 0) 0x0003 (svc id) ∧
    (8 ≤ (hdr 64).rlen ∧ (hdr 7).rlen < 8 ∧ bufOk State.reset.m .a 0 0 = true) ∧
    (accepted (hdr 0) 0x0101 (svc id) ∧ (svc id).m.proc.recovery = false ∧ (0 == 1) = (svc id).m.proc.bank) ∧
    ((1 == 1) ≠ (svc id).m.proc.bank ∧ (svc id).m.flash.wcount1 < 20000 ∧ flashRuns (svc id).m = false) ∧
    (let s := svc (fun m => { m with flash := { m.flash with wcount1 := 20000 } }); 20000 ≤ s.m.flash.wcount1) ∧
    (let x : FlashWork := ⟨tagOf (hdr 0) 0x0101, true, emptyBank⟩;
     let s := svc (fun m => { m with proc := { m.proc with flashBusy := some x } }); s.m.proc.flashBusy = some x ∧ flashRuns s.m = true) ∧
    accepted (hdr 0) 0x0102 (svc id) ∧ accepted (hdr 0) 0x0104 (svc id) ∧ accepted (hdr 64) 0x0103 (svc id) ∧ 65536 + (2 ^ 27 - 65536) ≤ 2 ^ 27 := by
  refine ⟨accepted_svc _ _ rfl rfl rfl _ (by decide), accepted_svc _ _ rfl rfl rfl _ (by decide), accepted_svc _ _ rfl rfl rfl _ (by decide),
    ⟨by decide, by decide, rfl⟩, ⟨accepted_svc _ _ rfl rfl rfl _ (by decide), rfl, rfl⟩, ⟨by decide, by decide, rfl⟩, by decide, ⟨rfl, rfl⟩,
    accepted_svc _ _ rfl rfl rfl _ (by decide), accepted_svc _ _ rfl rfl rfl _ (by decide), accepted_svc _ _ rfl rfl rfl _ (by decide), by decide⟩

theorem test_hyp_StandbyCoreTakesOverAndSubjectsAreTested :
    ((svc id).fe.powered = true ∧ (svc id).m.proc.sp0 = .active ∧ (svc id).m.proc.sp1 = .standby ∧ (svc id).m.proc.sp1Active = false) ∧
    (let s := svc (fun m => { m with proc := { m.proc with sp1 := .failed } }); s.m.proc.sp0 = .active ∧ s.m.proc.sp1 = .failed ∧ s.m.proc.sp1 ≠ .standby) ∧
    (let s := svc (fun m => { m with tb := { m.tb with now := 10000000 } }); s.m.proc.kickAt + s.m.proc.wdtMs * 1000000 ≤ s.m.tb.now) ∧
    (let s := svc (fun m => { m with tb := { m.tb with now := 9999999 } }); s.m.tb.now < s.m.proc.kickAt + s.m.proc.wdtMs * 1000000) ∧
    (let s := svc (fun m => { m with proc := { m.proc with sp1Active := true, sp0 := .test } });
      s.m.proc.sp1Active = true ∧ s.m.proc.sp0 = .test ∧ s.m.proc.spTest = none) ∧
    (accepted (hdr 0) 0x0004 (svc id) ∧ (svc id).m.proc.spTest = none) ∧
    (let s := svc (fun m => { m with proc := { m.proc with spTest := some (tagOf (hdr 0) 4) } });
      s.m.proc.spTest = some (tagOf (hdr 0) 4) ∧ s.m.proc.sp1Active = false) ∧
    accepted (hdr 0) 0x0005 (svc id) ∧
    (let s := svc (fun m => { m with tb := { m.tb with test := some (tagOf (hdr 0) 5, true) } }); s.m.tb.test = some (tagOf (hdr 0) 5, true)) := by
  refine ⟨⟨rfl, rfl, rfl, rfl⟩, ⟨rfl, rfl, by decide⟩, by decide, by decide, ⟨rfl, rfl, rfl⟩, ⟨accepted_svc _ _ rfl rfl rfl _ (by decide), rfl⟩, ⟨rfl, rfl⟩,
    accepted_svc _ _ rfl rfl rfl _ (by decide), rfl⟩

theorem test_hyp_ImageSetsLoadAndActivate :
    accepted (hdr 0) 0x0105 (svc id) ∧
    (let s := svc (fun m => { m with sched := { m.sched with load := some (tagOf (hdr 0) 0x0105, 0, 0) } });
      s.m.sched.load = some (tagOf (hdr 0) 0x0105, 0, 0) ∧ answered s.m s.m.sched.loadIds = true) ∧
    (let s := svc (fun m => { m with sched := { m.sched with load := some (tagOf (hdr 0) 0x0105, 0, 64), loadIds := [1] } });
      s.m.sched.load = some (tagOf (hdr 0) 0x0105, 0, 64) ∧ answered s.m s.m.sched.loadIds = false) ∧
    (let s := svc (fun m => { m with sched := { m.sched with staged := some (oneSlot 0) } });
      accepted (hdr 0) 0x0106 s ∧ s.m.sched.staged = some (oneSlot 0) ∧ (oneSlot 0).setId = 1 ∧ s.m.prot.reload = none ∧ s.m.prot.stop = none ∧
      s.m.sched.swap = none ∧ s.m.sched.further = none) ∧
    (∀ i, (svc id).m.sched.staged = some i → i.setId ≠ 1) ∧
    (let s := svc (fun m => { m with prot := { m.prot with reload := some default } }); accepted (hdr 0) 0x0106 s ∧ s.m.prot.reload ≠ none) := by
  refine ⟨accepted_svc _ _ rfl rfl rfl _ (by decide), ⟨rfl, rfl⟩, ⟨rfl, rfl⟩, ⟨accepted_svc _ _ rfl rfl rfl _ (by decide), rfl, rfl, rfl, rfl, rfl, rfl⟩,
    fun i h => ?_, ⟨accepted_svc _ _ rfl rfl rfl _ (by decide), by decide⟩⟩
  cases (show (none : Option ImageSet) = some i from h)

/-- A channel test of tile 0 whose channel in hand is the last. -/
def lastChan (done : Nat) : ChanTest :=
  { cmd := tagOf (hdr 144) 0x0201, rbuf := 0, rows := 1, done := done, records := [], marked := false, failing := false,
    links := linkSlots, next := (List.range 64).map (fun b => (b, 64)) }

theorem test_hyp_ChannelsAreTested :
    accepted (hdr 144) 0x0201 (svc id) ∧ (3 : Nat) < 4 ∧ (1 : Nat) ≤ 64 ∧
    (let s := atMod (fun m => { m with tests := m.tests.set 0 (some (lastChan 18)) });
      (s.m.tests[(0 : Tile)] : Option ChanTest) = some (lastChan 18) ∧ 18 ≤ (lastChan 18).done) ∧
    (let s := atMod (fun m => { m with tests := m.tests.set 0 (some (lastChan 17)) }); let x := lastChan 17;
      (s.m.tests[(0 : Tile)] : Option ChanTest) = some x ∧ x.done = 17 ∧ testable s.m 0 17 = true ∧ ownMark s.m 0 17 = false ∧ linkSlots ≤ x.links ∧
      x.failing = false ∧ (∀ b < 64, x.rows * 64 ≤ tabGet 0 x.next b) ∧ (s.m.packs[chanPack 0 17] : PackSt).tests = [] ∧
      (s.m.packs[chanPack 0 17] : PackSt).diag = none) ∧
    (State.reset.m.tests[(0 : Tile)] : Option ChanTest) = none := by
  refine ⟨accepted_svc _ _ rfl rfl rfl _ (by decide), by decide, by decide, ⟨rfl, by decide⟩, ⟨rfl, rfl, rfl, rfl, by decide, rfl, by decide, rfl, rfl⟩, rfl⟩

/-! ### CXL.mem -/

/-- One plain region: granule 0 of tile 0, both ports, key id 0, write-back. -/
def region0 : BitVec 128 := 0x1_800C_0000_0000_0000#128

/-- Port A up, boot done, `region0` in force, no slice swept and no filter in broadcast mode. -/
def live (m : Mod) : Mod :=
  { m with ports := m.ports.set .a { m.ports.a with linkUp := true, inReset := false, hdmCommitted := true, memEnable := true, cacheEnable := true, d2hCredit := 1 },
           proc := { m.proc with bootDone := true }, prot := { m.prot with regions := [region0] },
           slices := Vector.replicate 4 { initSlice with sweep := false }, filters := Vector.replicate 4 { initFilter with broadcast := false } }

/-- A line of `region0` with every sector valid. -/
def line0 : Line :=
  { set := 0, way := 0, tag := 0, space := 0, svalid := 15, sdirty := 0, poison := false, rrpv := 3, label := 0, keyId := 0, busy := false, wb := 0, data := 1, whole := 0 }

/-- A read of the last sector of that line. -/
def read3 : M2SReq := { port := .a, tag := 9, w := 192, mv := .any }

/-- A write of it. -/
def write3 : M2SRwD := { port := .a, tag := 9, w := 192, mv := .noOp, data := 5, en := 1, poison := false }

/-- That state with the line in the slice. -/
def lined (m : Mod) : Mod := { m with slices := m.slices.set 0 { initSlice with sweep := false, lines := [line0] } }

theorem test_hyp_ReadsThatHitReturnTheSector :
    (let s := atMod (fun m => lined (live m)); meets (ofReq .memRd false read3) region0 s ∧ waysFree (ofReq .memRd false read3) region0 s ∧
      holdsSector (ofReq .memRd false read3) region0 line0 s) ∧
    (let s := atMod (fun m => lined (live m)); meets (ofReq .memRdData false read3) region0 s ∧ waysFree (ofReq .memRdData false read3) region0 s ∧
      holdsSector (ofReq .memRdData false read3) region0 line0 s) ∧ read3.mv ≠ .noOp := by
  refine ⟨⟨?_, ?_, ?_⟩, ⟨?_, ?_, ?_⟩, by decide⟩ <;>
    first | (unfold meets quietPort; decide +kernel) | (unfold waysFree; decide +kernel) | (unfold holdsSector; decide +kernel)

theorem test_hyp_WritesThatHitMergeTheSector :
    let s := atMod (fun m => lined (live m))
    meets (ofRwD .memWr write3) region0 s ∧ meets (ofRwD .memWrPtl write3) region0 s ∧ holdsSector (ofRwD .memWrPtl write3) region0 line0 s ∧
      write3.mv = .noOp ∧ rgElastic region0 = false ∧ rgMirror region0 = false ∧ rgWpol region0 = 0 ∧
      (s.m.slices[rgTile region0] : Slice).locked = 0 ∧ write3.poison = false := by
  unfold meets quietPort holdsSector
  decide +kernel

theorem test_hyp_InvalidationsAndSpeculativeReadsAnswer :
    let s := atMod live
    (meets (ofReq .memInv false read3) region0 s ∧ waysFree (ofReq .memInv false read3) region0 s) ∧
    (meets (ofReq .memInvNt false read3) region0 s ∧ waysFree (ofReq .memInvNt false read3) region0 s) ∧
    s.fe.powered = true ∧ memDecodes s.m .a = true ∧ s.m.power.state = 0 := by
  unfold meets quietPort waysFree
  decide +kernel

theorem test_hyp_ViolationsAreAnsweredAndLogged :
    let s := atMod live; let r : M2SReq := { read3 with w := 0x4000000 }
    (reachesChecks r.port r.tag r.w false s ∧ violation s.m r.port r.w true = some 1 ∧ violation s.m r.port r.w false = some 1) ∧
    reachesChecks r.port r.tag r.w true s ∧ violation s.m .b 0 false = some 4 ∧ portTalks s.m .a = true ∧ s.m.power.state = 0 := by
  unfold reachesChecks quietPort
  decide +kernel

/-- A filter entry of line 0 for port A, and a BISnp of it. -/
def ent0 : FEntry := { set := 0, way := 0, tag := 0, presA := true, presB := false, excl := true, labelA := 0, keyA := 0, labelB := 0, keyB := 0, nru := false, pend := true }

/-- The BISnp. -/
def snp0 : OpenSnp := { tag := 65535, port := .a, line := 0, kind := .inv, w := 0, why := .background, sent := true }

/-- That state with one entry and the BISnp open. -/
def snooped (e : FEntry) : State := atMod (fun m => onFilter 0 (fun f => { f with entries := [e], snps := [snp0] }) (live m))

theorem test_hyp_BackInvalidateResponsesCloseSnoops :
    (answersSnp .a 65535 0 snp0 ent0 (snooped ent0) ∧ ent0.presA = true ∧ entPres ent0 .b = false) ∧
    (let e := { ent0 with presB := true }; answersSnp .a 65535 0 snp0 e (snooped e) ∧ entPres e .b = true) ∧
    (let s := atMod live; s.fe.powered = true ∧ memDecodes s.m .a = true ∧ s.m.power.state = 0 ∧ ∀ t : Tile, (s.m.filters[t] : FilterSt).snps = []) := by
  unfold answersSnp quietPort
  decide +kernel

theorem test_hyp_CreditsAndHeldRequestsMove :
    (let s := atMod live; memDecodes s.m .a = true ∧ (∀ t : Tile, (s.m.filters[t] : FilterSt).snps = []) ∧ (s.m.ports.get .a).conflicts = [] ∧
      conflictAwaits s.m .a 0 = [] ∧ (s.m.ports.get .a).d2hWait = [] ∧ (s.m.rings.get .a).rings = [] ∧ (s.m.rings.get .b).rings = []) ∧
    (let q := ofReq .memRd false read3;
     let s := atMod (fun m => onPort .a (fun x => { x with rxBuf := [q] }) (live m));
     heldAnswer s.m .a = none ∧ heldAnswer s.m .b = none ∧ oldestHeld s.m .a 0 false = some 0 ∧
      (s.m.ports.get .a).rxBuf[0]? = some q ∧ trackRoom s.m .a 0 false = true) ∧
    (let q := reqOf .lineFill 0 false; let s := atMod (atPack (fun p => { p with waiting := [q] }));
      (s.m.packs[(0 : Pack)] : PackSt).waiting = [q] ∧ (dispAdmit s.m s.m.packs[(0 : Pack)] q).1 = true ∧ q.why = .fill 0 0 0 ∧ q.write = false) ∧
    (let q := reqOf .lineWb 0 true; let s := atMod (atPack (fun p => { p with waiting := [q] }));
      (dispAdmit s.m s.m.packs[(0 : Pack)] q).1 = true ∧ q.why = .write ∧ writeRoom s.m (daTile q.da) .lineWb q.kind (reqBatts q).length = true) ∧
    (State.reset.m.packs[(0 : Pack)] : PackSt).waiting = [] ∧ (State.reset.m.slices[(0 : Tile)] : Slice).missWait = [] := by
  decide +kernel

/-! ### Doorbell lines and rings -/

/-- A ring of port A. -/
def withRing (r : Nat) (g : Ring) (m : Mod) : Mod := onRings .a (fun s => { s with rings := [(r, g)] }) m

/-- A running host-produced ring of a type with 64 entries, its doorbell line at 4096. -/
def hostRing (ty : Nat) : Ring := { initRing with cfg := BitVec.ofNat 64 (0xC1 + 2 * ty), db := 4096, state := 1 }

theorem test_hyp_SnoopsOfDoorbellLinesAreAnswered :
    (talking .a (atMod live) ∧ 4096 ∉ ((atMod live).m.ports.get .a).dbHeld) ∧
    (let s := atMod (fun m => withRing 0 (hostRing 6) (onPort .a (fun q => { q with dbHeld := [4096] }) (live m)));
     talking .a s ∧ 4096 ∈ (s.m.ports.get .a).dbHeld ∧ dbReading s.m .a 4096 = false ∧ (s.m.ports.get .a).d2hCredit ≠ 0 ∧ cacheOn (s.m.ports.get .a) = true ∧
      (s.m.ports.get .a).viralRx = false ∧ lineRings s.m .a 4096 ≠ [] ∧
      (∀ r ∈ lineRings s.m .a 4096, phased (cfgType (ringAt s.m .a r).cfg) = false)) := by
  unfold talking
  decide +kernel

/-- Ring 0 reads its doorbell line. -/
def dbComing : State := atMod (fun m => withRing 0 (hostRing 6) (onPort .a (fun q => { q with dbOpen := [(4096, false)] }) (live m)))

theorem test_hyp_DoorbellsAndEntriesArrive :
    (doorbellComes .a 4096 0 dbComing ∧ (ringAt dbComing.m .a 0).check = 0 ∧ moduleProduced (cfgType (ringAt dbComing.m .a 0).cfg) = false ∧
      (ringAt dbComing.m .a 0).state = 1 ∧ (dbComing.m.rings.get .a).held = [] ∧
      ((64 : Word32) - (ringAt dbComing.m .a 0).midx).toNat ≤ 2 ^ cfgLog2n (ringAt dbComing.m .a 0).cfg ∧
      2 ^ cfgLog2n (ringAt dbComing.m .a 0).cfg < ((65 : Word32) - (ringAt dbComing.m .a 0).midx).toNat) ∧
    (let s := atMod (fun m => onRings .a (fun x => { x with reads := [(0, 0, 8192)] }) (withRing 0 { hostRing 6 with hidx := 1 } (live m)));
     talking .a s ∧ (s.m.ports.get .a).viralRx = false ∧ (s.m.rings.get .a).reads.findIdx? (fun x => x.2.2 == 8192) = some 0 ∧
      (s.m.rings.get .a).reads[0]? = some (0, (ringAt s.m .a 0).midx, 8192) ∧ (ringAt s.m .a 0).state = 1 ∧ cfgType (ringAt s.m .a 0).cfg = 6 ∧
      deadModule s.m = false ∧ (s.m.rings.get .a).held = [] ∧ below (ringAt s.m .a 0).midx (ringAt s.m .a 0).hidx = true ∧
      ((ringAt s.m .a 0).midx + 1 - (ringAt s.m .a 0).shadowed).toNat < 2 ^ cfgLog2n (ringAt s.m .a 0).cfg / 8) := by
  unfold doorbellComes talking
  decide +kernel

theorem test_hyp_LineWritesAndMessagesLeave :
    (let w : OpenWrite := { addr := 64, ring := 2, data := 1, count := 1, pulled := false };
     let s := atMod (fun m => onRings .a (fun x => { x with writes := [w] }) (live m));
     talking .a s ∧ (2, 64) ∉ (s.m.ports.get .a).d2hWait ∧ (s.m.rings.get .a).writes.findIdx? (fun w => w.addr == 64 && !w.pulled) = some 0 ∧
      (s.m.rings.get .a).writes[0]? = some w) ∧
    (let w : OpenWrite := { addr := 64, ring := 2, data := 1, count := 1, pulled := true };
     let s := atMod (fun m => onRings .a (fun x => { x with writes := [w] }) (live m));
     talking .a s ∧ s.m.power.sleepAfter = none ∧ (s.m.rings.get .a).writes.findIdx? (fun w => w.addr == 64 && w.pulled) = some 0 ∧
      (s.m.rings.get .a).writes[0]? = some w ∧ w.ring < 256 ∧ cfgIrq (ringAt s.m .a 2).cfg = false) ∧
    (let g : Ring := { hostRing 1 with cfg := 0x20C3, modCount := 1, modSince := some 0 };
     let s := atMod (fun m => withRing 3 g (onPort .a (fun q => { q with msixOn := [0] }) (live m)));
     (s.m.ports.get .a).viralRx = false ∧ modTimeUp s.m (ringAt s.m .a 3) = true ∧ cfgIrq (ringAt s.m .a 3).cfg = true ∧ (ringAt s.m .a 3).modCount ≠ 0 ∧
      (s.m.ports.get .a).msixOn.contains (cfgVector (ringAt s.m .a 3).cfg) = true) ∧
    (let s := atMod (fun m => withRing 3 { hostRing 6 with midx := 1 } (live m));
     (ringAt s.m .a 3).state = 1 ∧ hostProduced (cfgType (ringAt s.m .a 3).cfg) = true ∧ (ringAt s.m .a 3).shadowed ≠ (ringAt s.m .a 3).midx) := by
  unfold talking
  decide +kernel

theorem test_hyp_RingsStartAndStop :
    (let v : Word64 := 0xC3; let s := atMod live;
     reachable .a s ∧ (s.m.ports.get .a).viralRx = false ∧
     v &&& ~~~0x0000_FFF0_0000_0000#64 = v ∧ cfgEnable (ringAt s.m .a 255).cfg = false ∧ cfgEnable v = true ∧ enableOk s.m .a 255 v = true ∧
      dbReading s.m .a (ringAt s.m .a 255).db.toNat = false ∧ (s.m.ports.get .a).d2hCredit ≠ 0 ∧ cacheOn (s.m.ports.get .a) = true ∧
      enableOk s.m .a 255 0xA3 = false) ∧
    (Source.portA.port = some .a ∧ Source.portB.port = some Port.a.other ∧ reachable Port.b.other (atMod live)) ∧
    (let s := atMod live; s.m.conn.ir ≠ 3 ∧ s.m.power.state = 0) ∧
    (let g := hostRing 4; let v := g.cfg &&& ~~~1#64;
     let s := atMod (fun m => withRing 3 g (live m));
     reachable .a s ∧ cfgEnable (ringAt s.m .a 3).cfg = true ∧ cfgEnable v = false ∧ (v ^^^ (ringAt s.m .a 3).cfg) &&& ~~~1#64 = 0 ∧
      cfgType (ringAt s.m .a 3).cfg = 4) ∧
    portTalks (atMod live).m .a = true := by
  unfold reachable talking
  decide +kernel

/-! ### Links, resets, configuration, mailbox -/

theorem test_hyp_LinksTrainAndDegrade :
    (let s := atMod (fun m => onPort .b (fun q => { q with inReset := false }) m); (s.m.ports.get .b).inReset = false ∧ (s.m.ports.get .b).sweeping = false ∧
      (s.m.ports.get .b).badHalf = none ∧ s.m.viral = false) ∧
    (let s := atMod live; portTalks s.m .a = true ∧ (s.m.ports.get .a).laneTest = none ∧ (s.m.ports.get .a).linkUp = true) := by
  decide +kernel

theorem test_hyp_PortResetsClearThePort :
    (let s := atMod live; idlePort .a s ∧ (s.m.ports.get .a).inReset = false ∧ (s.m.ports.get .a).linkUp = true ∧ portTalks s.m .a = true) ∧
    (State.reset.fe.powered = true ∧ State.reset.fe.st = .powergood ∧ State.reset.m.power.state = 0) ∧
    (let s := atMod (fun m => { m with power := { m.power with state := 3 } }); s.fe.st = .powergood ∧ s.m.power.state = 3 ∧ s.m.therm.critical = false) ∧
    (atMod (fun m => onPort .b (fun q => { q with sweeping := true }) m)).m.ports.b.sweeping = true ∧ State.reset.m.ports.b.sweeping = false := by
  unfold idlePort
  decide +kernel

theorem test_hyp_PortLanesAreTested :
    (accepted (hdr 0) 0x0006 (svc id) ∧ (1 : Nat) ≤ 1 ∧ (1000 : Nat) ≤ 1000) ∧
    (let t : LaneTest := ⟨tagOf (hdr 0) 6, true, 0x8000⟩; let s := atMod (fun m => onPort .a (fun q => { q with laneTest := some t }) (live m));
      (s.m.ports.get .a).laneTest = some t) :=
  ⟨⟨accepted_svc _ _ rfl rfl rfl _ (by decide), by decide, by decide⟩, rfl⟩

theorem test_hyp_ConfigurationAndMailboxRequestsAnswer :
    (let s := atMod (fun m => onPort .a (fun q => { q with linkUp := true, inReset := false }) m);
      reachable .a s ∧ ¬ ((s.m.ports.get .a).hdmCommitted = true ∧ (s.m.ports.get .a).hdmLock = true) ∧ s.m.proc.bootDone = false) ∧
    (let s := atMod live; reachable .a s ∧ s.m.proc.bootDone = true ∧ (s.m.ports.get .a).d2hWait = [] ∧
      (0x4001 : BitVec 16) ∉ [0x4000#16, 0x0400, 0x0401, 0x0300, 0x0301]) ∧
    (let s := atMod (fun m => onPort .a (fun q => { q with tsBase := 5 }) (live m)); (s.m.ports.get .a).tsBase ≠ 0) := by
  unfold reachable talking
  decide +kernel

/-! ### Line cache, filters, keys, reload -/

theorem test_hyp_WaysLeaveServiceAndReturn :
    (let s := atMod (fun m => onSlice 3 (fun x => { x with disabled := 0x8000 }) m); (s.m.slices[(3 : Tile)] : Slice).disabled.getLsbD 15 = true ∧
      (s.m.slices[(3 : Tile)] : Slice).disabled.getLsbD 0 = false) ∧
    (let s := atMod (fun m => onSlice 0 (fun x => { x with wayErrs := List.replicate 7 (15, 0) }) m);
      ((s.m.slices[(0 : Tile)] : Slice).wayErrs.filter (fun e => e.1 == 15 && s.m.tb.now < e.2 + 1000000000)).length < 8 ∧
      (State.reset.m.slices[(0 : Tile)] : Slice).wayErrs = []) ∧
    (let s := atMod (fun m => onSlice 0 (fun x => { x with drain := 2, disabled := 2, lines := [line0] }) m);
      (s.m.slices[(0 : Tile)] : Slice).drain ≠ 0 ∧
      ∀ l ∈ (s.m.slices[(0 : Tile)] : Slice).lines, l.wb = 0 ∧ (s.m.slices[(0 : Tile)] : Slice).drain.getLsbD l.way = false) ∧
    (accepted (hdr 0) 0x0305 (svc id) ∧ (3 : Nat) ≤ 3 ∧ (15 : Nat) ≤ 15) ∧
    (let s := atMod (fun m => onSlice 0 (fun x => { x with test := some (tagOf (hdr 0) 0x0305, 15) }) m);
      (s.m.slices[(0 : Tile)] : Slice).test = some (tagOf (hdr 0) 0x0305, 15) ∧ (s.m.slices[(0 : Tile)] : Slice).drain.getLsbD 15 = false ∧
      (s.m.slices[(0 : Tile)] : Slice).sweep = false) ∧
    ((State.reset.m.slices[(0 : Tile)] : Slice).drain = 0 ∧ (State.reset.m.slices[(0 : Tile)] : Slice).test = none) := by
  refine ⟨?_, ?_, ?_, ⟨accepted_svc _ _ rfl rfl rfl _ (by decide), by decide, by decide⟩, ?_, ?_⟩ <;> decide +kernel

theorem test_hyp_SweepsAndFlushesEmptyTheSlices :
    (let s := atMod (fun m => onSlice 0 (fun x => { x with sweep := true }) m);
      ∀ t : Tile, (s.m.slices[t] : Slice).sweep = true → (s.m.slices[t] : Slice).oneWay = none) ∧
    (let s := atMod (fun m => onSlice 3 (fun x => { x with sweep := true, oneWay := some 15, test := some (tagOf (hdr 0) 0x0305, 15) }) m);
      (s.m.slices[(3 : Tile)] : Slice).sweep = true ∧ (s.m.slices[(3 : Tile)] : Slice).oneWay = some 15 ∧
      (s.m.slices[(3 : Tile)] : Slice).test = some (tagOf (hdr 0) 0x0305, 15) ∧ ∀ u : Tile, u ≠ 3 → (s.m.slices[u] : Slice).sweep = false) ∧
    (let s := atMod (fun m => onSlice 0 (fun x => { x with flush := true, lines := [line0] })
        { m with prot := { m.prot with reload := some { cmd := tagOf (hdr 0) 0x0401, phase := 4, block := default } } });
      flushing s.m = true ∧ s.m.power.state ≠ 4 ∧ (∃ t : Tile, (s.m.slices[t] : Slice).flush = true) ∧
      (∀ t : Tile, (s.m.slices[t] : Slice).transits = [] ∧ ∀ l ∈ (s.m.slices[t] : Slice).lines, atRest s.m.slices[t] l)) ∧
    ∀ t : Tile, (State.reset.m.slices[t] : Slice).flush = false := by
  unfold atRest
  refine ⟨?_, ?_, ?_, ?_⟩ <;> decide +kernel

theorem test_hyp_LocksReserveHoldAndRelease :
    (accepted (hdr 0) 0x0301 (svc id) ∧ ((svc id).m.slices[tileOf 3] : Slice).lines = [] ∧ ((svc id).m.slices[tileOf 3] : Slice).lockCmd = none) ∧
    (let s := svc (fun m => onSlice 0 (fun x => { x with prep := true, reserved := 1, lines := [line0] }) m);
      accepted (hdr 0) 0x0303 s ∧ (s.m.slices[tileOf 0] : Slice).prepCmd = none ∧
      ∀ l ∈ (s.m.slices[tileOf 0] : Slice).lines, (s.m.slices[tileOf 0] : Slice).reserved.getLsbD l.way = true → l.sdirty = 0) ∧
    (accepted (hdr 0) 0x0304 (svc id) ∧ accepted (hdr 0) 0x0302 (svc id) ∧ (3 : Nat) ≤ 3) ∧ (accepted (hdr 8) 0x0306 (svc id) ∧ (16383 : Nat) < 16384) :=
  ⟨⟨accepted_svc _ _ rfl rfl rfl _ (by decide), rfl, rfl⟩, ⟨accepted_svc _ _ rfl rfl rfl _ (by decide), rfl, by decide +kernel⟩,
    ⟨accepted_svc _ _ rfl rfl rfl _ (by decide), accepted_svc _ _ rfl rfl rfl _ (by decide), by decide⟩, accepted_svc _ _ rfl rfl rfl _ (by decide), by decide⟩

/-- An elastic region of one granule from 0x8000 of tile 0. -/
def regionE : BitVec 128 := 0x1_820C_0000_0000_8000#128

/-- It is in force; its page 0 is fulled in one batt at the start of frame 2 of the pool. -/
def elastic (m : Mod) : Mod :=
  { m with prot := { m.prot with regions := [regionE] }, proc := { m.proc with bootDone := true },
           tiers := m.tiers.set 0 { initTier with elBase := 0x8000, elGran := 1, poolSize := 2 ^ 26, tmap := [(0, 0x806#64)], working := [0, 1] } }

/-- The fill of page 0 of the elastic window, whose one stored batt has come. -/
def filling0 : State := atMod (fun m =>
  let m := onSlice 0 (fun x => { x with decomps := [⟨0x200_0000_0000, 0⟩], misses := [⟨0, 0x200_0000_0000, 0, 0, .lineFill, false, true, [0x2000], []⟩] }) (elastic m)
  { m with fullers := m.fullers.set 1 { initFuller with run := some (.fill 0 0x200_0000_0000) },
           here := [⟨.fill 0 0 0x200_0000_0000, 0x2000, 0, false⟩] })

/-- A reseal of a node of tile 0. -/
def reseal0 : Reseal := { tile := 0, level := 1, index := 0, child := 127, own := .zero 0, waiters := [] }

/-- Its state: the node, of zeros, is trusted in its metadata way. -/
def resealing : State := atMod (fun m => onSlice 0 (fun x => { x with lines := [nodeLine m] }) { m with prot := { m.prot with reseals := [reseal0] } })
where
  nodeLine (m : Mod) : Line :=
    let a := nodeAddr m.prot.sealR[(0 : Tile)] 1 0
    { line0 with space := 2, set := lineSet a, tag := lineTag a, data := 0 }

theorem test_hyp_DecompressionsAndResealsEnd :
    fillComes 0 0x200_0000_0000 ⟨0x200_0000_0000, 0⟩ ⟨0, 0x200_0000_0000, 0, 0, .lineFill, false, true, [0x2000], []⟩ 1 regionE filling0 ∧
    (readStored filling0.m regionE 0 0x2000 1).1 = .ok 0 ∧ fullerRuns State.reset.m (.fill 0 (lineOf 0)) = none ∧
    (resealing.m.prot.stop = none ∧ resealing.m.prot.reseals = [reseal0] ∧ reseal0.tile = (0 : Tile).val ∧ reseal0.waiters = [] ∧ ownerLine reseal0.own = false) ∧
    (resealNeeds resealing.m reseal0 = [] ∧ getNode resealing.m 0 1 0 = .ok 0 ∧ (∀ i < 128, nodeMinor 0 i = 0) ∧ nodeMajor (resealNode 0 127) ≠ 2 ^ 64 - 1) ∧
    ∀ r ∈ State.reset.m.prot.reseals, r.tile ≠ (3 : Tile).val := by
  unfold fillComes
  refine ⟨?_, ?_, ?_, ?_, ?_, ?_⟩ <;> decide +kernel

theorem test_hyp_FiltersDrainTestAndReturn :
    (accepted (hdr 0) 0x0307 (svc id) ∧ (svc id).m.filters.any (fun f => f.test.isSome) = false ∧ ((svc id).m.filters[tileOf 3] : FilterSt).entries = []) ∧
    (let s := svc (fun m => onFilter 1 (fun f => { f with test := some (tagOf (hdr 0) 0x0307) }) m);
      accepted (hdr 0) 0x0307 s ∧ s.m.filters.any (fun f => f.test.isSome) = true) ∧
    ((State.reset.m.filters[(0 : Tile)] : FilterSt).broadcast = true ∧ (State.reset.m.filters[(0 : Tile)] : FilterSt).phase = 0 ∧
      (State.reset.m.filters[(0 : Tile)] : FilterSt).entries = []) ∧
    (let s := atMod (fun m => onFilter 0 (fun f => { f with entries := [ent0] }) m);
      (s.m.filters[(0 : Tile)] : FilterSt).entries ≠ [] ∧ ∀ e ∈ (s.m.filters[(0 : Tile)] : FilterSt).entries, e.pend = true) ∧
    (let s := atMod (fun m => onFilter 0 (fun f => { f with phase := 1 }) m); (s.m.filters[(0 : Tile)] : FilterSt).broadcast = true ∧ (s.m.filters[(0 : Tile)] : FilterSt).phase = 1) ∧
    (let s := atMod (fun m => onFilter 0 (fun f => { f with phase := 2, test := some (tagOf (hdr 0) 0x0307) }) m);
      (s.m.filters[(0 : Tile)] : FilterSt).broadcast = true ∧ (s.m.filters[(0 : Tile)] : FilterSt).phase = 2 ∧ (s.m.filters[(0 : Tile)] : FilterSt).waiters = [] ∧
      (s.m.filters[(0 : Tile)] : FilterSt).resv = []) ∧
    ((atMod live).m.filters[(0 : Tile)] : FilterSt).broadcast = false ∧ (accepted (hdr 16) 0x0308 (svc id) ∧ (65535 : Nat) < 65536) := by
  refine ⟨⟨accepted_svc _ _ rfl rfl rfl _ (by decide), by decide +kernel, rfl⟩, ⟨accepted_svc _ _ rfl rfl rfl _ (by decide), by decide +kernel⟩, ⟨rfl, rfl, rfl⟩, by decide, ⟨rfl, rfl⟩,
    ⟨rfl, rfl, rfl, rfl⟩, rfl, accepted_svc _ _ rfl rfl rfl _ (by decide), by decide⟩

/-- Work on key 63: its retirement, or its zero-fill. -/
def keyWorks (zero : Bool) (f : Mod → Mod) : State :=
  atMod (fun m => f { m with prot := { m.prot with keyWork := some (63, zero, tagOf (hdr 0) 0x0403) } })

theorem test_hyp_KeySlotsFollowTheirStates :
    accepted (hdr 0) 0x0402 (svc id) ∧ accepted (hdr 0) 0x0403 (svc id) ∧ accepted (hdr 0) 0x0404 (svc id) ∧
    (∀ t : Tile, ((svc id).m.filters[t] : FilterSt).entries = []) ∧
    (let s := keyWorks false id; s.m.prot.keyWork = some (63, false, tagOf (hdr 0) 0x0403) ∧ (63 : Nat) < 64 ∧ keyBusy 63 s.m = false ∧ keyCached 63 s.m = false) ∧
    (let s := keyWorks false (fun m => onTier 0 (fun x => { x with moves := [{ (default : Move) with key := 63 }] }) m); keyBusy 63 s.m = true ∧ keyCached 63 s.m = false) ∧
    (let s := atMod (fun m => { m with prot := { m.prot with keys := m.prot.keys.set 63 { initKey with st := .retiring } } });
      s.m.prot.keyWork = none ∧ retiring s.m = some (63, none) ∧ keyBusy 63 s.m = false ∧ keyCached 63 s.m = false) ∧
    (nothingCached (svc live).m ∧ (svc live).m.prot.regions.all (fun r => !rgElastic r) = true) ∧
    (let s := keyWorks true id; s.m.prot.keyWork = some (63, true, tagOf (hdr 0) 0x0403) ∧ zeroBusy 63 s.m = false ∧ s.m.prot.stop = none ∧
      s.m.prot.zeroWritten = [] ∧ s.m.prot.zeroLeft = [] ∧ nothingCached s.m) ∧
    (State.reset.m.prot.keyWork = none ∧ retiring State.reset.m = none) := by
  unfold nothingCached
  refine ⟨accepted_svc _ _ rfl rfl rfl _ (by decide), accepted_svc _ _ rfl rfl rfl _ (by decide), accepted_svc _ _ rfl rfl rfl _ (by decide),
    ?_, ?_, ?_, ?_, ?_, ?_, ?_⟩ <;> decide +kernel

/-- A protection reload in a phase. -/
def reloading (n : Nat) (m : Mod) : Mod := { m with prot := { m.prot with reload := some { cmd := tagOf (hdr 0) 0x0401, phase := n, block := default } } }

theorem test_hyp_ProtectionReloadRunsItsPhases :
    accepted (hdr 0) 0x0401 (svc id) ∧
    (let s := atMod (reloading 1); s.m.prot.stop = none ∧ s.m.prot.regions.all (fun r => !rgElastic r) = true ∧ nothingCached s.m) ∧
    (let s := atMod (reloading 2); changedCopies [] s.m = false ∧ keyWorkRuns s.m = false ∧ trimming s.m = false) ∧
    (let s := atMod (fun m => { reloading 2 m with prot := { (reloading 2 m).prot with keyWork := some (63, false, tagOf (hdr 0) 0x0403) } });
      changedCopies [] s.m = false ∧ keyWorkRuns s.m = true) ∧
    (requestsAbout (atMod (fun m => reloading 3 (live m))).m = false ∧
      requestsAbout (atMod (fun m => atPack (fun p => { p with queue := [reqOf .lineFill 0 false] }) (reloading 3 m))).m = true) ∧
    (let s := atMod (fun m => reloading 4 (live m)); s.m.slices.any (·.flush) = false ∧ drained s.m = true) ∧
    (let s := atMod (reloading 5); s.m.sched.running = false ∧ s.m.sched.activators = [] ∧ s.m.sched.load = none) ∧
    (let s := atMod (reloading 7); s.m.gang.link ≠ 3 ∧ s.m.prot.held = [] ∧ s.m.tb.lost = false ∧ s.m.therm.critical = false ∧
      ∀ t : Tile, (s.m.slices[t] : Slice).oneWay = none) ∧
    (let s := atMod (fun m => { reloading 5 m with prot := { (reloading 5 m).prot with stop := some default } });
      s.m.prot.stop.isSome = true ∧ s.m.prot.reload = (atMod (reloading 5)).m.prot.reload ∧ s.m.prot.held = []) ∧ State.reset.m.prot.reload = none := by
  unfold nothingCached
  refine ⟨accepted_svc _ _ rfl rfl rfl _ (by decide), ?_, ?_, ?_, ?_, ?_, ?_, ?_, ?_, ?_⟩ <;> decide +kernel

/-! ### Elastic capacity, fullers, jobs -/

/-- A move of page 0 of the elastic window. -/
def move0 (k : MoveKind) (todo : Option (List (Nat × Batt))) : Move := { page := 0, kind := k, key := 0, frame := 3, start := 0, len := 0, todo := todo }

/-- The elastic window with that move of page 0, whose frame 0 holds `b` in its first batt and zeros behind it, all at hand, with
the tier map's first batt. -/
def moving (v : Move) (b : Batt) (mx : Nat) : State := atMod (fun m =>
  let m := onTier 0 (fun x => { x with moves := [v], tmap := [(0, 1#64)], fullMax := mx, tmapBase := 0x3FF_0000 }) (elastic m)
  { m with fullers := m.fullers.set 1 { initFuller with run := some (.move 0 0) },
           here := (List.range 16).map (fun i => ⟨.page 0 0, 256 * i, if i = 0 then b else 0, false⟩) ++ [⟨.page 0 0, 0x3FF_0000, 0, false⟩] })

theorem padded_batts (a b : List Byte) (h : 0 < a.length) :
    0 < ((a ++ b) ++ List.replicate ((256 - (a ++ b).length % 256) % 256) 0).length / 256 := by
  simp only [List.length_append, List.length_replicate]
  omega

/-- No page is stored in no batts. -/
theorem fullPage_batts (l st : List Byte) (h : fullPage l = some st) : 0 < st.length / 256 := by
  have key : ∀ (c : Prop) [Decidable c] (a b : List Byte), 0 < a.length →
      (if c then some ((a ++ b) ++ List.replicate ((256 - (a ++ b).length % 256) % 256) 0) else none) = some st → 0 < st.length / 256 := by
    intro c _ a b ha e
    split at e
    · exact Option.some.inj e ▸ padded_batts a b ha
    · cases e
  refine key _ _ _ ?_ h
  rw [List.length_append, List.length_append]
  exact Nat.lt_of_lt_of_le Nat.zero_lt_two (Nat.le_trans (Nat.le_add_left _ _) (Nat.le_add_right _ _))

theorem test_hyp_TierParametersAndFullersAreSet :
    (accepted (hdr 0) 0x0501 (svc id) ∧ adminForm (.tierSet (hdr 0) 3 0 60000) = some (hdr 0, 0x0501, true) ∧
      adminForm (.tierSet (hdr 0) 3 4 2) = some (hdr 0, 0x0501, true)) ∧
    (accepted (hdr 0) 0x0503 (svc id) ∧ accepted (hdr 0) 0x0504 (svc id) ∧ (3 : Nat) < 4) ∧
    (accepted (hdr 0) 0x0505 (svc id) ∧ accepted (hdr 0) 0x0506 (svc id) ∧ accepted (hdr 0) 0x0507 (svc id) ∧ (7 : Nat) < 8) ∧
    ((svc id).m.fullers.toList.any (fun g => g.mode == 1) = false ∧ ((svc id).m.fullers[(7 : FullerNo)] : Fuller).mode = 0 ∧
      ∀ k : FullerNo, idleFuller (svc id).m.fullers[k]) ∧
    (let s := svc (fun m => { m with fullers := m.fullers.set 7 { initFuller with run := some (.job 4) } });
      s.m.fullers.toList.any (fun g => g.mode == 1) = false ∧ (s.m.fullers[(7 : FullerNo)] : Fuller).run = some (.job 4) ∧
      (s.m.fullers[(7 : FullerNo)] : Fuller).paused = none ∧ (s.m.fullers[(7 : FullerNo)] : Fuller).queue = [] ∧ (s.m.fullers[twin 7] : Fuller).mode = 0 ∧
      ∀ k : FullerNo, k ≠ 7 → fullerHolds s.m.fullers[k] (.job 4) = false) ∧
    (let s := svc (fun m => { m with fullers := m.fullers.set 7 { initFuller with mode := 1 } });
      (s.m.fullers[(7 : FullerNo)] : Fuller).mode ≠ 0 ∧ (s.m.fullers[(7 : FullerNo)] : Fuller).test = none ∧ (∀ k : FullerNo, idleFuller s.m.fullers[k]) ∧
      s.m.fullers.toList.any (fun g => g.mode == 1) = true) ∧
    (let s := atMod (fun m => { m with fullers := m.fullers.set 7 { initFuller with mode := 1, test := some (tagOf (hdr 0) 0x0507) } });
      (s.m.fullers[(7 : FullerNo)] : Fuller).test = some (tagOf (hdr 0) 0x0507) ∧ (∀ k : FullerNo, idleFuller s.m.fullers[k]) ∧
      (s.m.fullers[(0 : FullerNo)] : Fuller).test = none) := by
  unfold idleFuller
  refine ⟨⟨accepted_svc _ _ rfl rfl rfl _ (by decide), rfl, rfl⟩, ⟨accepted_svc _ _ rfl rfl rfl _ (by decide), accepted_svc _ _ rfl rfl rfl _ (by decide), by decide⟩,
    ⟨accepted_svc _ _ rfl rfl rfl _ (by decide), accepted_svc _ _ rfl rfl rfl _ (by decide), accepted_svc _ _ rfl rfl rfl _ (by decide), by decide⟩, ?_, ?_, ?_, ?_⟩
  all_goals decide +kernel

/-- The tier map's first batt in its metadata way. -/
def mapWay : Line := { line0 with space := 2, data := 0 }

theorem test_hyp_PagesAgeMoveAndTrim :
    (let s := atMod (fun m => onTier 0 (fun x => { x with setNext := [(3, 15)] }) m); sweepsNow 0 s ∧ (s.m.tiers[(0 : Tile)] : TierSt).tmap = [] ∧
      (s.m.tiers[(0 : Tile)] : TierSt).setNext = [(3, 15)]) ∧
    (let s := atMod (fun m => onSlice 0 (fun x => { x with lines := [mapWay] }) (onTier 0 (fun x => { x with tmap := [(0, 0x20_0000_0001#64)] }) m));
      sweepsNow 0 s ∧ (s.m.tiers[(0 : Tile)] : TierSt).setNext = [] ∧ (s.m.tiers[(0 : Tile)] : TierSt).moves = [] ∧ 1 ≤ (s.m.tiers[(0 : Tile)] : TierSt).demoteAge ∧
      (∀ e ∈ (s.m.tiers[(0 : Tile)] : TierSt).tmap, e.1 / 32 = 0 ∧ teState e.2 = 1 ∧ teAcc e.2 = true) ∧
      (metaLine s.m (tmapBatt s.m.tiers[(0 : Tile)] (32 * 0))).isSome = true ∧ teBad s.m 0 (32 * 0) = false) ∧
    (atMod (fun m => { m with therm := { m.therm with critical := true } })).m.therm.critical = true ∧
    (∀ k ∈ [MoveKind.promotion, .backing, .demotion, .compaction], let v := move0 k (some []); let s := moving v 0 12;
      s.m.therm.critical = false ∧ moveOf s.m 0 0 = some v ∧ pageRegion s.m 0 0 = some regionE ∧ (s.m.wbWait[(0 : Tile)] : List WEntry) = [] ∧
      teHere s.m 0 0 = true ∧ (fullerOf s.m (.move 0 0)).isSome = true) ∧
    (State.reset.m.tiers[(0 : Tile)] : TierSt).moves = [] ∧
    (accepted (hdr 0) 0x0502 (svc id) ∧ regionOf (svc id).m (wOff ((0 : BitVec 64).setWidth 53)) = none) ∧
    (let s := svc live; accepted (hdr 0) 0x0502 s ∧ regionOf s.m (wOff ((0 : BitVec 64).setWidth 53)) = some region0 ∧ rgElastic region0 = false) := by
  unfold sweepsNow
  refine ⟨?_, ?_, ?_, ?_, ?_, ⟨accepted_svc _ _ rfl rfl rfl _ (by decide), ?_⟩, ⟨accepted_svc _ _ rfl rfl rfl _ (by decide), ?_⟩⟩
  all_goals decide +kernel

/-- A demotion that has read its page: zeros, or a page that no batts may hold (R296). -/
theorem test_hyp_PagesAgeMoveAndTrim_demotion :
    let v := move0 .demotion none
    (moveReady 0 0 v regionE (List.replicate 4096 0) (moving v 0 12) ∧ (List.replicate 4096 (0 : Byte)).all (· == 0) = true) ∧
    ∃ l, moveReady 0 0 v regionE l (moving v 1 0) ∧ l.all (· == 0) = false ∧
      ∀ st, fullPage l = some st → ((moving v 1 0).m.tiers[(0 : Tile)] : TierSt).fullMax < st.length / 256 := by
  unfold moveReady
  refine ⟨⟨⟨?_, ?_, ?_, ?_, ?_, ?_, 0, ?_⟩, ?_⟩, 1 :: List.replicate 4095 0, ⟨?_, ?_, ?_, ?_, ?_, ?_, 0, ?_⟩, ?_, fun st h => fullPage_batts _ _ h⟩
  all_goals decide +kernel

theorem test_hyp_PagesAgeMoveAndTrim_trim :
    let w : BitVec 64 := 0x200_03FF_F000
    let s := svc (fun m => { elastic m with here := [⟨.page 0 0, tmapBatt (elastic m).tiers[(0 : Tile)] 16383, 0, false⟩] })
    accepted (hdr 0) 0x0502 s ∧ regionOf s.m (wOff (w.setWidth 53)) = some regionE ∧ rgElastic regionE = true ∧
      rgPort regionE (hdr 0).port = true ∧ w.toNat < 2 ^ 53 ∧ wAper (w.setWidth 53) = 0 ∧ wOff (w.setWidth 53) % 4096 = 0 ∧
      wOff (w.setWidth 53) + 4096 ≤ (rgLBase regionE + rgCount regionE) * 2 ^ 26 ∧ (s.m.filters[rgTile regionE] : FilterSt).entries = [] ∧
      (s.m.filters[rgTile regionE] : FilterSt).snps = [] ∧ (s.m.tiers[rgTile regionE] : TierSt).trims = [] ∧
      pageBusy s.m (rgTile regionE) (pageOf s.m.tiers[rgTile regionE] (wOff (w.setWidth 53))) = false ∧
      teHere s.m (rgTile regionE) (32 * (pageOf s.m.tiers[rgTile regionE] (wOff (w.setWidth 53)) / 32)) = true := by
  refine ⟨accepted_svc _ _ rfl rfl rfl _ (by decide), ?_⟩
  decide +kernel

/-- A compression job of 1 byte from window offset 0 to `dst`, of op `op`. -/
def jobEntry (op dst : Nat) : RawEntry := BitVec.ofNat 512 (dst * 2 ^ 128 + 2 ^ 256 + 2 ^ 288 + op * 2 ^ 320 + 2 ^ 344 + 3 * 2 ^ 352)

/-- Port A with one descriptor taken from ring 0; tile 0 has fuller 0 alone in service. -/
def jobAt (e : RawEntry) (m : Mod) : Mod :=
  onRings .a (fun s => { s with jobs := [(0, e)] }) { live m with fullers := m.fullers.set 1 { initFuller with mode := 1 } }

/-- Job 7 of fuller `f` with its reads, which have all come, and of a given op. -/
def jobRuns (f op : Nat) (m : Mod) : Mod :=
  { m with jobs := [{ parseJob .a 0 (jobEntry op 64) with id := 7, fuller := f, stage := .reads [] [] }],
           fullers := m.fullers.set (f % 8) { initFuller with run := some (.job 7) } (Nat.mod_lt _ (by decide)) }

theorem test_hyp_JobsStartAndEnd :
    (let s := atMod (jobAt (jobEntry 1 64)); s.m.therm.critical = false ∧
      (List.range (s.m.rings.get .a).jobs.length).find? (fun i => !jobWaits .a s.m (s.m.rings.get .a).jobs i) = some 0 ∧
      (s.m.rings.get .a).jobs[0]? = some (0, jobEntry 1 64) ∧ jobStart s.m (parseJob .a 0 (jobEntry 1 64)) (jobEntry 1 64) = .run 0) ∧
    (let s := atMod (jobAt (jobEntry 3 64));
      (List.range (s.m.rings.get .a).jobs.length).find? (fun i => !jobWaits .a s.m (s.m.rings.get .a).jobs i) = some 0 ∧
      jobOk (parseJob .a 0 (jobEntry 3 64)) (jobEntry 3 64) = false) ∧
    (let s := atMod (jobAt (jobEntry 1 0x4000000));
      (List.range (s.m.rings.get .a).jobs.length).find? (fun i => !jobWaits .a s.m (s.m.rings.get .a).jobs i) = some 0 ∧
      jobStart s.m (parseJob .a 0 (jobEntry 1 0x4000000)) (jobEntry 1 0x4000000) = .fail 0x03 1 0) ∧
    (let s := atMod (fun m => let m := jobAt (jobEntry 1 64) m; { m with prot := { m.prot with keys := m.prot.keys.set 0 { initKey with st := .retired } } });
      (List.range (s.m.rings.get .a).jobs.length).find? (fun i => !jobWaits .a s.m (s.m.rings.get .a).jobs i) = some 0 ∧
      jobStart s.m (parseJob .a 0 (jobEntry 1 64)) (jobEntry 1 64) = .fail 0x08 0 0x07 ∧ jobKeyBad s.m (parseJob .a 0 (jobEntry 1 64)) = some 0) ∧
    (State.reset.m.jobs = [] ∧ (State.reset.m.rings.get .a).jobs = []) ∧
    (let s := atMod (jobRuns 7 1); s.m.therm.critical = false ∧ (s.m.fullers[(7 : FullerNo)] : Fuller).run = some (.job 7) ∧
      (s.m.jobs.find? (fun j => j.id == 7)).map (fun j => (j.op, j.stage)) = some (1, .reads [] []) ∧ answered s.m [] = true ∧
      ((fullerEnd (.job 7) (touch s.m)).fullers[twin 7] : Fuller).mode = 0) ∧
    (let s := atMod (fun m => { jobRuns 7 1 m with fullers := (jobRuns 7 1 m).fullers.set 6 { initFuller with mode := 2 } });
      ((fullerEnd (.job 7) (touch s.m)).fullers[twin 7] : Fuller).mode ≠ 0) ∧
    ((atMod (jobRuns 0 2)).m.jobs.find? (fun j => j.id == 7)).map (·.op) = some 2 := by
  refine ⟨?_, ?_, ?_, ?_, ?_, ?_, ?_, ?_⟩ <;> decide +kernel

/-! ### Packet buffer service and scheduler -/

/-- Cell pool 63: 16 runs of tile 0 at granule 0, grants to ring 2 of port A. -/
def pool63 : CellPool :=
  { (default : CellPool) with runBase := 0, runCount := 16, dgran := 0, hdrDgran := 0, hdrCount := 16, grantPort := .a, grantRing := 2, enable := true,
                              grantHold := 1, relHold := 1 }

/-- That pool with some runs and one enabled queue. -/
def pooled (runs : List (Nat × Run)) (m : Mod) : Mod :=
  { m with qs := { m.qs with pools := [(63, pool63)], runs := runs,
                             queues := [(0, { initQueue with st := 1, limG := 64, limY := 64, limR := 64 })] } }

/-- A source buffer at window offset 0, whose line is in the slice. -/
def sourceIn (p : Bool) (d : Batt) (f : Mod → Mod) : State :=
  svc (fun m => f (onSlice 0 (fun x => { x with lines := [{ line0 with poison := p, data := d }] }) (live m)))

/-- Its reads, as POOL_SET begins them. -/
def sourceReads (s : State) : List Nat × Mod := readRange (adminBy (begun (hdr 0) 0x0601 s.m) .a) 0 64 (begun (hdr 0) 0x0601 s.m)

theorem test_hyp_SetUpCommandsPutTheirEntryInForce :
    (accepted (hdr 0) 0x0601 (svc id) ∧ bufOk (begun (hdr 0) 0x0601 (svc id).m) .a 0 64 = false) ∧
    (accepted (hdr 0) 0x0601 (svc live) ∧ bufOk (begun (hdr 0) 0x0601 (svc live).m) .a 0 64 = true ∧
      answered (sourceReads (svc live)).2 (sourceReads (svc live)).1 = false) ∧
    (let x := sourceReads (sourceIn true 0 id); accepted (hdr 0) 0x0601 (sourceIn true 0 id) ∧ answered x.2 x.1 = true ∧
      objectBusy x.2 (tagOf (hdr 0) 0x0601) (.poolSet 63 0) = false ∧ anyBad x.2 x.1 = true) ∧
    (let x := sourceReads (sourceIn false (2 ^ 48) id); accepted (hdr 0) 0x0601 (sourceIn false (2 ^ 48) id) ∧ answered x.2 x.1 = true ∧
      objectBusy x.2 (tagOf (hdr 0) 0x0601) (.poolSet 63 0) = false ∧ anyBad x.2 x.1 = false) ∧
    (let x := sourceReads (sourceIn false 0 (park (tagOf (hdr 0) 0x0602) (.poolRead 63 (hdr 0)) []));
      answered x.2 x.1 = true ∧ objectBusy x.2 (tagOf (hdr 0) 0x0601) (.poolSet 63 0) = true) ∧
    (accepted (hdr 0) 0x0604 (svc live) ∧ accepted (hdr 0) 0x0607 (svc live) ∧ accepted (hdr 0) 0x0608 (svc live) ∧ accepted (hdr 0) 0x0801 (svc live) ∧
      (63 : Nat) ≤ 63 ∧ (262143 : Nat) ≤ 262143) := by
  refine ⟨⟨accepted_svc _ _ rfl rfl rfl _ (by decide), ?_⟩, ⟨accepted_svc _ _ rfl rfl rfl _ (by decide), ?_, ?_⟩, ⟨accepted_svc _ _ rfl rfl rfl _ (by decide), ?_, ?_, ?_⟩,
    ⟨accepted_svc _ _ rfl rfl rfl _ (by decide), ?_, ?_, ?_⟩, ?_, accepted_svc _ _ rfl rfl rfl _ (by decide),
    accepted_svc _ _ rfl rfl rfl _ (by decide), accepted_svc _ _ rfl rfl rfl _ (by decide), accepted_svc _ _ rfl rfl rfl _ (by decide), by decide, by decide⟩
  all_goals decide +kernel

/-- Queue 0 halted with one packet, whose run-header block is in DRAM or not. -/
def halted (far : Bool) (m : Mod) : Mod :=
  { m with qs := { m.qs with pools := [(63, { (default : CellPool) with hdrCount := 16, hdrUsed := [0] })], spilled := if far then [63 * 2 ^ 16] else [],
                             hdrs := if far then [] else [(63 * 2 ^ 22, { next := 0xFFFF_FFFF, runs := [3], len := 64, colour := 0, repl := false, bad := 0 })],
                             queues := [(0, { initQueue with st := 2, pkts := 1, cells := 1, head := 0xFC0_0000, tail := 0xFC0_0000 })] } }

theorem test_hyp_QueueServiceReadsBackAndResets :
    (accepted (hdr 64) 0x0602 (svc id) ∧ objectBusy (begun (hdr 64) 0x0602 (svc id).m) (tagOf (hdr 64) 0x0602) (.poolRead 63 (hdr 64)) = false) ∧
    (let s := svc (park (tagOf (hdr 0) 0x0601) (.poolSet 63 0) []);
      accepted (hdr 64) 0x0602 s ∧ objectBusy (begun (hdr 64) 0x0602 s.m) (tagOf (hdr 64) 0x0602) (.poolRead 63 (hdr 64)) = true) ∧
    (accepted (hdr 4) 0x0603 (svc id) ∧ (0xFFFFFF : Nat) < 2 ^ 24) ∧ accepted (hdr 64) 0x0605 (svc id) ∧
    (accepted (hdr 0) 0x0606 (svc id) ∧ (queueAt (svc id).m 262143).st ≠ 2) ∧
    (let s := svc (fun m => { m with qs := { m.qs with queues := [(262143, { initQueue with st := 2 })] } });
      accepted (hdr 0) 0x0606 s ∧ (queueAt s.m 262143).st = 2 ∧ (queueAt s.m 262143).pkts = 0) ∧
    (accepted (hdr 32) 0x0702 (svc live) ∧ (4 : Nat) ≤ 4 ∧ 0 < tableSize 4 ∧ ¬ (hdr 32).rlen < 32 ∧ (hdr 31).rlen < 32 ∧
      bufOk (begun (hdr 32) 0x0702 (svc live).m) (hdr 32).port (hdr 32).rbuf 32 = true ∧ bufOk (begun (hdr 32) 0x0702 (svc id).m) (hdr 32).port (hdr 32).rbuf 32 = false) := by
  refine ⟨⟨accepted_svc _ _ rfl rfl rfl _ (by decide), ?_⟩, ⟨accepted_svc _ _ rfl rfl rfl _ (by decide), ?_⟩, ⟨accepted_svc _ _ rfl rfl rfl _ (by decide), ?_⟩,
    accepted_svc _ _ rfl rfl rfl _ (by decide), ⟨accepted_svc _ _ rfl rfl rfl _ (by decide), ?_⟩, ⟨accepted_svc _ _ rfl rfl rfl _ (by decide), ?_, ?_⟩,
    accepted_svc _ _ rfl rfl rfl _ (by decide), ?_, ?_, ?_, ?_, ?_, ?_⟩
  all_goals decide +kernel

theorem test_hyp_QueueServiceReadsBackAndResets_walk (far : Bool) :
    let s := svc (halted far)
    let b := begun (hdr 0) 0x0606 s.m
    accepted (hdr 0) 0x0606 s ∧ (queueAt s.m 0).st = 2 ∧ (hdrSettle (queueLabel b 0) b (walkQueue .a (queueAt s.m 0).pkts 0 ([], b))).1 = !far := by
  cases far <;> refine ⟨accepted_svc _ _ rfl rfl rfl _ (by decide), ?_, ?_⟩ <;> decide +kernel

/-- Port A with one release entry of run 3, cell 7. -/
def releasing (m : Mod) : Mod := onRings .a (fun s => { s with rel := [(4, BitVec.ofNat 512 (3 + 7 * 2 ^ 24 + 2 ^ 160))] }) m

theorem test_hyp_RunsAreGrantedHeldAndReleased :
    (let s := atMod (fun m => { pooled [] (ringed 1 id m) with sched := { m.sched with active := oneSlot 0, variant := 0 } }); let p := poolAt s.m (63 : Fin 64);
      p.enable = true ∧ ringRoom s.m p.grantPort p.grantRing = true ∧ cfgType (ringAt s.m p.grantPort p.grantRing).cfg = 1 ∧
      (bankOrder s.m (runTile p.runBase) p.grantPos).find? (fun b => !(bankList s.m p b.1).isEmpty) = some (0, 1)) ∧
    (poolAt State.reset.m (63 : Fin 64)).enable = false ∧
    (let e : RawEntry := BitVec.ofNat 512 (3 + 7 * 2 ^ 24 + 2 ^ 160); (byteOf e 20).toNat = 1 ∧ refRun (entRef e 0 0) = 3 ∧ refFirst (entRef e 0 0) = 7) ∧
    (let r : Run := { initRun with st := .closed, live := 0x80, refs := 1 }; let s := atMod (fun m => releasing (pooled [(3, r)] m));
      runAt s.m 3 = r ∧ (s.m.rings.get .a).rel = [(4, BitVec.ofNat 512 (3 + 7 * 2 ^ 24 + 2 ^ 160))] ∧ r.dead = false ∧ r.live.getLsbD 7 = true ∧ r.repl = false) ∧
    (let r : Run := { initRun with st := .closed, live := 0xFF, refs := 2 }; r.live.getLsbD 7 = true ∧ 1 < r.refs) ∧
    (runAt State.reset.m 3).live.getLsbD 7 = false ∧ (∀ p, (State.reset.m.rings.get p).rel = []) ∧
    (let s := atMod (pooled [(15, { initRun with st := .open_, taken := true, age := 3 })]); (poolAt s.m (63 : Fin 64)).grantHold ≠ 0 ∧
      heldRuns s.m (63 : Fin 64) (fun r => r.st == .open_ && r.taken && !r.dead) = [15] ∧ 3 ≤ (runAt s.m 15).age) ∧
    (let s := atMod (pooled [(15, { initRun with st := .closed, refs := 1, age := 2 })]); (poolAt s.m (63 : Fin 64)).relHold ≠ 0 ∧
      heldRuns s.m (63 : Fin 64) (fun r => r.st == .closed && 0 < r.refs && r.qrefs == 0 && !r.dead) = [15] ∧ (runAt s.m 15).age < 3) ∧
    ((poolAt State.reset.m (63 : Fin 64)).grantHold = 0 ∧ (poolAt State.reset.m (63 : Fin 64)).relHold = 0) ∧
    (let q := ofRwD .memWr { write3 with w := 0x400_0000_0000 }; let s := atMod (fun m => { m with qs := { m.qs with writeWaits := [q] } });
      s.m.qs.writeWaits.findIdx? (fun q => runTile (wOff q.w / 2048) == 0) = some 0 ∧ s.m.qs.writeWaits[0]? = some q ∧ assemblyUsed s.m 0 < 8192) ∧
    (let q := ofRwD .memWr { write3 with w := 0x400_0000_0000 }; let n := wOff q.w / 2048;
      let s := atMod (fun m => { m with qs := { m.qs with writeWaits := [q], runs := [(n, { initRun with st := .open_ })] } });
      (runAt s.m n).st = .open_ ∧ (runAt s.m n).dead = false ∧ (runAt s.m n).nextCell ≤ wOff q.w / 256 % 8 ∧ (runAt s.m n).cells = none ∧ assemblyUsed s.m (runTile n) < 8192) ∧
    State.reset.m.qs.writeWaits = [] := by
  refine ⟨⟨rfl, rfl, rfl, by decide +kernel⟩, rfl, ⟨rfl, rfl, rfl⟩, ⟨rfl, rfl, rfl, rfl, rfl⟩, ⟨rfl, by decide⟩, rfl, fun p => by cases p <;> rfl,
    ⟨by decide, rfl, by decide⟩, ⟨by decide, rfl, by decide⟩, ⟨rfl, rfl⟩, ⟨rfl, rfl, by decide⟩, by decide +kernel, rfl⟩

/-- Run 0 open without an assembly entry, and every assembly entry of tile 0 in use. -/
def cellsFull : State := atMod (fun m => { m with qs := { m.qs with
  writeWaits := [ofRwD .memWr { write3 with w := 0x400_0000_0000 }],
  runs := (0, { initRun with st := .open_ }) :: (List.range 8192).map (fun i => (i + 1, { initRun with st := .open_, cells := some [] })) } })

theorem test_hyp_RunsAreGrantedHeldAndReleased_full :
    8192 ≤ assemblyUsed cellsFull.m 0 ∧ (runAt cellsFull.m 0).st = .open_ ∧ (runAt cellsFull.m 0).dead = false ∧ (runAt cellsFull.m 0).cells = none := by
  refine ⟨?_, rfl, rfl, rfl⟩
  decide +kernel

/-- An enqueue entry of one cell of run 3 for queue 0. -/
def enqEntry : RawEntry := BitVec.ofNat 512 (3 * 2 ^ 32 + 256 * 2 ^ 192)

/-- Port A with that entry. -/
def enqueueing (e : RawEntry) (m : Mod) : Mod := onRings .a (fun s => { s with enq := [(2, e)] }) (pooled [(3, { initRun with st := .open_ })] m)

/-- Egress port 0 with a group, a class and queue 0 below it, each with a positive deficit; its packet is one cell of run 3. -/
def egressing (m : Mod) : Mod :=
  let n : Node := { initNode with enable := true, deficit := 1, txCredit := 1 }
  let m := ringed 3 id (pooled [(3, { initRun with st := .closed, refs := 1, qrefs := 1 })] m)
  { m with egress := { m.egress with nodes := [(nodeKey 3 0, n), (nodeKey 2 0, n), (nodeKey 1 0, n), (nodeKey 0 0, n)],
                                     rotation := [(listKey (nodeKey 3 0) 1 7, [nodeKey 2 0]), (listKey (nodeKey 2 0) 1 7, [nodeKey 1 0]),
                                                  (listKey (nodeKey 1 0) 1 7, [nodeKey 0 0])] },
           qs := { m.qs with eports := [(0, 0x8000_0002)], hdrs := [(63 * 2 ^ 22, { next := 0xFFFF_FFFF, runs := [3], len := 64, colour := 0, repl := false, bad := 0 })],
                             queues := [(0, { initQueue with st := 1, pkts := 1, cells := 1, head := 0xFC0_0000, tail := 0xFC0_0000 })] } }

/-- Its header block in DRAM. -/
def egressFar (m : Mod) : Mod := let m := egressing m; { m with qs := { m.qs with spilled := [63 * 2 ^ 16] } }

theorem test_hyp_PacketsAreQueuedAndSelected :
    (let s := atMod (enqueueing 0); s.m.prot.stop = none ∧ s.m.therm.critical = false ∧ (s.m.rings.get .a).enq = [(2, 0)] ∧ enqueueCheck s.m 0 ≠ 0) ∧
    (let s := atMod (enqueueing enqEntry); let n := refRun (entRef enqEntry 4 0);
      enqueueCheck s.m enqEntry = 0 ∧ (enqDest enqEntry).getLsbD 31 = false ∧
      runsOf (enqLen enqEntry) = 1 ∧ (enqPol enqEntry).getLsbD 22 = false ∧ s.m.qs.spilled = [] ∧ s.m.qs.hdrs.length < 8192 ∧
      (poolOfRun s.m n).elim 0 (·.1) = 63 ∧ (queueAt s.m 0).st = 1 ∧ floorOf (poolAt s.m 63) 0 ≤ freeRuns s.m (poolAt s.m 63) ∧
      (poolAt s.m 63).hdrUsed.length < (poolAt s.m 63).hdrCount ∧ (queueAt s.m 0).cells + cellsOf (enqLen enqEntry) ≤ limitOf (queueAt s.m 0) 0) ∧
    ((queueAt State.reset.m 0).st ≠ 1 ∧ (State.reset.m.rings.get .b).enq = [] ∧ nextPort State.reset.m = none) ∧
    (∃ g c k m1 m2 m3, nextPort (atMod egressing).m = some 0 ∧
      chooseChild (nodeKey 3 0) { (atMod egressing).m with egress := { (atMod egressing).m.egress with lastPort := 0 } } = (some g, m1) ∧
      chooseChild g m1 = (some c, m2) ∧ chooseChild c m2 = (some k, m3) ∧ m3.qs.spilled = []) ∧
    (∃ g c k m1 m2 m3, nextPort (atMod egressFar).m = some 0 ∧
      chooseChild (nodeKey 3 0) { (atMod egressFar).m with egress := { (atMod egressFar).m.egress with lastPort := 0 } } = (some g, m1) ∧
      chooseChild g m1 = (some c, m2) ∧ chooseChild c m2 = (some k, m3) ∧
      (hdrSettle (queueLabel m3 (keyNum k)) (atMod egressFar).m (hdrFetch (queueAt m3 (keyNum k)).head.toNat [] ([], m3))).1 = false) := by
  refine ⟨⟨rfl, rfl, rfl, by decide⟩, ?_, ⟨by decide, rfl, rfl⟩, ⟨_, _, _, _, _, _, rfl, rfl, rfl, rfl, rfl⟩, ⟨_, _, _, _, _, _, rfl, rfl, rfl, rfl, by decide +kernel⟩⟩
  decide +kernel

theorem test_hyp_SchedulerTakesCreditsAndTables :
    (let s := atMod (fun m => onRings .a (fun s => { s with cred := [(5, 127)] }) m); (s.m.rings.get .a).cred = [(5, 127)] ∧ ¬ 128 ≤ (byteOf (127 : RawEntry) 0).toNat ∧
      (s.m.rings.get .b).cred = []) ∧
    (State.reset.m.egress.nodes = []) ∧
    (let n : Node := { initNode with wheel := some (33, false) }; let s := atMod (fun m => { m with egress := { m.egress with nodes := [(5, n)] }, tb := { m.tb with now := 64 } });
      s.m.therm.critical = false ∧ s.m.egress.nodes = [(5, n)] ∧ n.wheel = some (33, false) ∧ (33 + 31) / 32 * 32 ≤ upTime s.m) := by
  refine ⟨⟨rfl, by decide, rfl⟩, rfl, ⟨rfl, rfl, rfl, by decide⟩⟩

/-- A commit of one entry of table `t`, whose base is window offset 0, with its reads. -/
def tabled (t : Fin 5) (s : State) : State := { s with m := { s.m with egress := { s.m.egress with tbase := s.m.egress.tbase.set t 1 } } }

/-- How many entries may be read, and the reads. -/
def commitReads (t : Nat) (s : State) : Nat × List Nat × Mod :=
  let b := begun (hdr 0) 0x0701 s.m
  let good := ((List.range 1).takeWhile (fun i => entryOk b .a (entryW b t (0 + i)))).length
  (good, accesses good (fun i m => access (adminBy m .a) .memRd (rangeW (entryW m t (0 + i)) 0) 0 0 false m)
    (if good = 1 then b else bufRefuse .a (entryW b t (0 + good)) 32 b))

/-- What the entries that were read come to: the code and index of a failure, or whether the one entry is a node. -/
def commitEnd (t : Nat) (s : State) : Except (Nat × Nat) (List Bool) :=
  let y := commitReads t s
  (readEntries y.2.2 t 0 y.1 y.2.1 1 0).map (fun l => l.map (fun e => match e with
    | .node _ => true
    | .pol _ => false))

theorem test_hyp_SchedCommit :
    (accepted (hdr 0) 0x0701 (svc id) ∧ (65536 : Nat) ≤ 65536 ∧ tableSize 3 < 128 + 1 ∧ (4 : Nat) < 5) ∧
    (accepted (hdr 0) 0x0701 (sourceIn false (2 ^ 48) id) ∧ ((sourceIn false (2 ^ 48) id).m.egress.tbase.toList.getD 0 0).getLsbD 0 = false) ∧
    (let s := tabled 0 (svc live); (s.m.egress.tbase.toList.getD 0 0).getLsbD 0 = true ∧ answered (commitReads 0 s).2.2 (commitReads 0 s).2.1 = false) ∧
    (let s := tabled 0 (sourceIn false (2 ^ 48) id); answered (commitReads 0 s).2.2 (commitReads 0 s).2.1 = true ∧
      objectBusy (commitReads 0 s).2.2 (tagOf (hdr 0) 0x0701) (.schedCommit 0 0 1 (commitReads 0 s).1) = false ∧ commitEnd 0 s = .ok [true]) ∧
    (let s := tabled 4 (sourceIn false 0 id); answered (commitReads 4 s).2.2 (commitReads 4 s).2.1 = true ∧
      objectBusy (commitReads 4 s).2.2 (tagOf (hdr 0) 0x0701) (.schedCommit 4 0 1 (commitReads 4 s).1) = false ∧ commitEnd 4 s = .ok [false]) ∧
    (let s := tabled 0 (sourceIn true 0 id); answered (commitReads 0 s).2.2 (commitReads 0 s).2.1 = true ∧ commitEnd 0 s = .error (0x64, 0)) ∧
    (let s := tabled 0 (svc id); (commitReads 0 s).1 = 0 ∧ commitEnd 0 s = .error (0x64, 0)) := by
  refine ⟨⟨accepted_svc _ _ rfl rfl rfl _ (by decide), by decide, by decide, by decide⟩, ⟨accepted_svc _ _ rfl rfl rfl _ (by decide), ?_⟩, ?_, ?_, ?_, ?_, ?_⟩
  all_goals first | rfl | decide +kernel

/-! ### Gangline -/

theorem next_ne (a : Word64) : a + 1 ≠ a := by bv_omega

/-- The gangline changed. -/
def atGang (f : GangSt → GangSt) : State := atMod (fun m => gangSet m f)

/-- A flit of epoch 0 without an acknowledgement. -/
def flit0 : FlitHdr := { epoch := 64, ack := 0, ackV := false, cred := 0, bark := true }

/-- The peer's HELLO. -/
def helloOf (digest : Word64) : HelloMsg :=
  { moduleId := Config.moduleId + 1, epoch := 4, fresh := true, dirty := false, parity := false, digest := digest }

/-- The link up. -/
def gangUp (f : GangSt → GangSt) : State := atGang (fun g => f { g with link := 3 })

/-- Power is on at reset, and the mirror engine idles where nothing has given it work. -/
theorem idle_up : mirrorIdle (gangUp id).m.gang := ⟨rfl, rfl, rfl, rfl⟩

theorem test_hyp_GanglineTrainsAndOpensAnEpoch :
    (let s := atGang (fun g => { g with link := 2 }); s.fe.powered = true ∧ s.m.gang.link = 2 ∧ s.m.gang.change = none ∧ s.m.gang.dead = false ∧
      mirrorIdle s.m.gang ∧ s.m.gang.fresh = true ∧ (helloOf (regionDigest s.m)).digest = regionDigest s.m ∧
      (helloOf (regionDigest s.m + 1)).digest ≠ regionDigest s.m ∧
      (helloOf 0).moduleId ≠ Config.moduleId ∧ { helloOf 0 with moduleId := Config.moduleId }.moduleId = Config.moduleId ∧ (helloOf 0).fresh = true) ∧
    (let s := atMod (fun m => { gangSet m (fun g => { g with link := 1 }) with proc := { m.proc with bootDone := true } });
      s.fe.powered = true ∧ s.m.gang.link = 1 ∧ s.m.gang.dead = false ∧ s.m.proc.bootDone = true ∧ s.m.therm.critical = false ∧ s.m.power.state ≠ 3) ∧
    (expected flit0 (gangUp id) ∧ (gangUp id).m.gang.dead = false ∧ (helloOf (regionDigest (gangUp id).m)).digest = regionDigest (gangUp id).m) ∧
    State.reset.m.gang.link ≠ 2 ∧ State.reset.m.gang.link ≠ 1 ∧ State.reset.m.gang.link < 2 :=
  ⟨⟨rfl, rfl, rfl, rfl, ⟨rfl, rfl, rfl, rfl⟩, rfl, rfl, next_ne _, next_ne _, rfl, rfl⟩, ⟨rfl, rfl, rfl, rfl, rfl, by decide⟩,
    ⟨⟨rfl, rfl, rfl, rfl, rfl, rfl, rfl⟩, rfl, rfl⟩, by decide, by decide, by decide⟩

/-- A flit of zeros fails its check, one with its CRC passes. -/
theorem test_hyp_flits :
    (let s := gangUp (fun g => { g with crcAt := [0] }); s.fe.powered = true ∧ s.m.gang.link = 3 ∧ flitPasses s.m.gang 0 = false ∧ s.m.gang.parity = false ∧
      (s.m.gang.crcAt.filter (fun t => s.m.tb.now < t + 1000000)).length < 15) ∧
    (let s := atGang (fun g => { g with link := 2, change := some (1, 0) }); s.m.gang.change.isSome = true ∧ flitPasses s.m.gang 0 = false) ∧
    (let s := gangUp (fun g => { g with crcAt := List.replicate 15 0 }); flitPasses s.m.gang 0 = false ∧ s.m.gang.parity = false ∧
      15 ≤ (s.m.gang.crcAt.filter (fun t => s.m.tb.now < t + 1000000)).length ∧ s.m.gang.change = none) ∧
    (let s := gangUp (fun g => { g with parity := true }); flitPasses s.m.gang 1 = false ∧ s.m.gang.parity = true ∧ s.m.gang.laneTest = none) ∧
    (let s := gangUp id; flitPasses s.m.gang (gangFlit s.m.gang 0 .bark) = true) := by
  refine ⟨⟨rfl, rfl, ?_, rfl, ?_⟩, ⟨rfl, ?_⟩, ⟨?_, rfl, ?_, rfl⟩, ⟨?_, rfl, rfl⟩, ?_⟩ <;> decide +kernel

theorem test_hyp_GanglineFlitsTimersAndFaultsAct :
    ((gangUp id).fe.powered = true ∧ gangEpoch flit0 (gangUp id).m = true ∧ (gangUp id).m.gang.txWait = [] ∧ flit0.ackV = false ∧
      ((gangUp id).m.gang.expect + 4096 - (3072 : Fin 4096).val) % 4096 ≤ 1024 ∧ 1024 < ((gangUp id).m.gang.expect + 4096 - (3071 : Fin 4096).val) % 4096 ∧
      (gangUp id).m.gang.laneTest = none ∧ mirrorIdle (gangUp id).m.gang ∧ gangEpoch { flit0 with epoch := 1 } (gangUp id).m = false) ∧
    (let s := gangUp (fun g => { g with unacked := 1, sent := [default], expiries := 2 }); s.m.gang.link = 3 ∧ s.m.gang.unacked ≠ 0 ∧ s.m.gang.parity = false ∧
      s.m.gang.sent ≠ [] ∧ s.m.gang.expiries < 3) ∧
    (let s := gangUp (fun g => { g with sent := [default], expiries := 3 }); mirrorIdle s.m.gang ∧ s.m.gang.laneTest = none ∧
      s.m.gang.sent ≠ [] ∧ 3 ≤ s.m.gang.expiries) ∧
    (let s := atMod (fun m => { gangSet m (fun g => { g with link := 3, barkAt := 0 }) with tb := { m.tb with now := 35000 } });
      mirrorIdle s.m.gang ∧ s.m.gang.laneTest = none ∧ s.m.gang.barkAt + 35000 ≤ s.m.tb.now ∧
      (0xFF : BitVec 8) &&& activeLanes s.m.gang.width = activeLanes s.m.gang.width) ∧
    ((gangUp id).m.gang.change = none ∧ (gangUp id).m.gang.width = 0 ∧ (0x80 : BitVec 8) ≠ 0 ∧ (0x80 : BitVec 8) ≠ 0xFF ∧
      (0 : BitVec 8) &&& activeLanes (gangUp id).m.gang.width = 0) ∧
    ((atGang (fun g => { g with link := 0 })).m.gang.link = 0) ∧
    (let s := atGang (fun g => { g with link := 2, change := some (1, 0) }); s.m.gang.link = 2 ∧ s.m.gang.change = some (1, 0) ∧ mirrorIdle s.m.gang ∧
      s.m.gang.laneTest = none ∧ s.m.gang.sent = [] ∧ s.m.gang.txWait = [] ∧ s.m.gang.changeWait = none) ∧
    (let s := gangUp (fun g => { g with width := 1 }); s.m.gang.change = none ∧ s.m.gang.width ≠ 0 ∧ s.m.gang.laneTest = none ∧ s.m.gang.keepX4 = false) := by
  refine ⟨⟨rfl, rfl, rfl, rfl, by decide, by decide, rfl, idle_up, rfl⟩, ⟨rfl, by decide, rfl, by decide, by decide⟩,
    ⟨⟨rfl, rfl, rfl, rfl⟩, rfl, by decide, by decide⟩, ⟨⟨rfl, rfl, rfl, rfl⟩, rfl, by decide, rfl⟩, ⟨rfl, rfl, by decide, by decide, rfl⟩, rfl,
    ⟨rfl, rfl, ⟨rfl, rfl, rfl, rfl⟩, rfl, rfl, rfl, rfl⟩, ⟨rfl, by decide, rfl, rfl⟩⟩

theorem test_hyp_GangCommandsAct :
    (accepted (hdr 0) 0x0901 (svc id) ∧ accepted (hdr 0) 0x0902 (svc id) ∧ (1 : Nat) ≤ 1000 ∧ (1000 : Nat) ≤ 1000) ∧
    (let s := gangUp (fun g => { g with laneTest := some (tagOf (hdr 0) 0x0902, true) }); s.m.gang.laneTest = some (tagOf (hdr 0) 0x0902, true) ∧
      s.m.gang.link = 3 ∧ s.m.gang.change = none ∧ (0x0F : BitVec 8) &&& 0xF0 = 0 ∧ (0x10 : BitVec 8) &&& 0xF0 ≠ 0) ∧
    (let s := atGang (fun g => { g with link := 1, laneTest := some (tagOf (hdr 0) 0x0902, false) }); s.m.gang.link < 2) ∧ State.reset.m.gang.laneTest = none := by
  refine ⟨⟨accepted_svc _ _ rfl rfl rfl _ (by decide), accepted_svc _ _ rfl rfl rfl _ (by decide), by decide, by decide⟩,
    ⟨rfl, rfl, rfl, rfl, by decide⟩, by decide, rfl⟩

/-- An elastic mirrored region of granule 0x8000 of tile 0 under key id 0, and one that is not elastic. -/
def regionM : BitVec 128 := 0x1_834C_0000_0000_8000#128
def regionN : BitVec 128 := 0x1_814C_0000_0000_8000#128

theorem engineKey_one (r : BitVec 128) (h : (List.range 64).filter (rgKeyOk r) = [0]) : engineKey r = 0 := by
  unfold engineKey
  rw [h]
  simp [Nat.mod_one]

/-- The link up over a mirrored region whose key slot 0 serves. -/
def mirrored (r : BitVec 128) (st : KeyState) : State :=
  atMod (fun m => gangSet { m with prot := { m.prot with regions := [r], keys := m.prot.keys.set 0 { (m.prot.keys[(0 : Fin 64)] : KeySlot) with st := st } } }
    (fun g => { g with link := 3, fresh := false }))

/-- A mirrored write to it. -/
def mmsg : MirrorMsg := { tag := 7, keyId := 0, sector := 0x8_0000_0000, poison := false }

/-- A mirrored write that waits for its MACK. -/
def wait0 : MirrorWait := { tag := 7, off := 64, req := none }

theorem test_hyp_MirrorRequestsAreServed :
    (let s := gangUp id; expected flit0 s ∧ mirrorRefuses (wake 4 (touch (recvd flit0 s.m))) 0 64 = some 2 ∧ regionOf s.m 0 = none ∧ s.m.gang.fresh = true) ∧
    (let s := mirrored regionM .active; let q := wake 4 (touch (recvd flit0 s.m)); let off := mmsg.sector.toNat * 64
      expected flit0 s ∧ mirrorRefuses q mmsg.keyId off = none ∧ regionOf (asDest q) (off / 4096 * 4096) = some regionM ∧
      mirrorRefuses (asDest q) (engineKey regionM) (off / 4096 * 4096) = none ∧ rgElastic regionM = true ∧ s.m.gang.fresh = false ∧
      (∃ id y, mirrorAccess false mmsg.keyId off 0 (BitVec.allOnes 64) false q = (id, y)) ∧ ∃ ids y, readGranule 0 (asDest q) = (ids, y)) ∧
    (let s := mirrored regionN .active; let d := asDest (wake 4 (touch (recvd flit0 s.m))); let off := mmsg.sector.toNat * 64
      expected flit0 s ∧ regionOf d (off / 4096 * 4096) = some regionN ∧ mirrorRefuses d (engineKey regionN) (off / 4096 * 4096) = none ∧ rgElastic regionN = false ∧
      ∃ ids y, accesses 64 (fun i m => mirrorAccess true (engineKey regionN) (off + 64 * i) 0 (BitVec.allOnes 64) false m) d = (ids, y)) ∧
    (let s := mirrored regionM .retired; let d := asDest (wake 4 (touch (recvd flit0 s.m)))
      expected flit0 s ∧ mirrorRefuses d (engineKey regionM) (mmsg.sector.toNat * 64) ≠ none) := by
  refine ⟨⟨⟨rfl, rfl, rfl, rfl, rfl, rfl, rfl⟩, ?_, ?_, rfl⟩, ⟨⟨rfl, rfl, rfl, rfl, rfl, rfl, rfl⟩, ?_, ?_, ?_, rfl, rfl, ⟨_, _, rfl⟩, ⟨_, _, rfl⟩⟩,
    ⟨⟨rfl, rfl, rfl, rfl, rfl, rfl, rfl⟩, ?_, ?_, rfl, ⟨_, _, rfl⟩⟩, ⟨⟨rfl, rfl, rfl, rfl, rfl, rfl, rfl⟩, ?_⟩⟩
  all_goals (try rw [engineKey_one _ (by decide +kernel)]); decide +kernel

/-- A received request whose only access is answered, well or badly. -/
def served (w : RxWork) (bad : Bool) : Mod :=
  let m := State.reset.m
  { gangSet m (fun g => { g with rxWait := [⟨w, [3]⟩] }) with acc := [{ (default : Access) with id := 3, ans := some (0, bad) }] }

theorem test_hyp_mirror_answers :
    ((served (.write 7 64) false).gang.rxWait = [⟨.write 7 64, [3]⟩] ∧ answered (served (.write 7 64) false) [3] = true ∧
      anyBad (served (.write 7 64) false) [3] = false) ∧
    (answered (served (.write 7 64) true) [3] = true ∧ anyBad (served (.write 7 64) true) [3] = true) ∧
    ((served (.sectors 64 1) false).gang.rxWait = [⟨.sectors 64 1, [3]⟩] ∧ answered (served (.sectors 64 1) false) [3] = true) :=
  ⟨⟨rfl, rfl, rfl⟩, ⟨rfl, rfl⟩, ⟨rfl, rfl⟩⟩

theorem test_hyp_MirrorMessagesAreServed :
    (expected flit0 (gangUp id) ∧ mirrorIdle (gangUp id).m.gang ∧ (gangUp id).m.gang.mirror ≠ .source ∧ (gangUp id).m.gang.mirror ≠ .suspended ∧
      (gangUp id).m.gang.waits.find? (fun w => w.tag == 7) = none ∧ (gangUp id).m.gang.copying ≠ some 3) ∧
    (let s := gangUp (fun g => { g with waits := [wait0] }); expected flit0 s ∧ s.m.gang.waits.find? (fun w => w.tag == 7) = some wait0 ∧ (1 : Fin 5) ≠ 0) ∧
    (let s := gangUp (fun g => { g with copying := some 3, mirror := .source, pass := 1 }); expected flit0 s ∧ s.m.gang.copying = some 3 ∧
      s.m.gang.mirror = .source) ∧
    (let x := helloOf (regionDigest State.reset.m); let s := gangUp (fun g => { g with mirror := .suspended, peer := some x });
      expected flit0 s ∧ s.m.gang.mirror = .suspended ∧ s.m.gang.peer = some x ∧ x.digest = regionDigest s.m) ∧
    (let x := helloOf (regionDigest State.reset.m + 1); let s := gangUp (fun g => { g with mirror := .suspended, peer := some x });
      expected flit0 s ∧ mirrorIdle s.m.gang ∧ s.m.gang.mirror = .suspended ∧ s.m.gang.peer = some x ∧ x.digest ≠ regionDigest s.m) ∧
    gangEpoch { flit0 with epoch := 65 } (gangUp id).m = false := by
  refine ⟨⟨⟨rfl, rfl, rfl, rfl, rfl, rfl, rfl⟩, idle_up, by decide, by decide, rfl, by decide⟩, ⟨⟨rfl, rfl, rfl, rfl, rfl, rfl, rfl⟩, rfl, by decide⟩,
    ⟨⟨rfl, rfl, rfl, rfl, rfl, rfl, rfl⟩, rfl, rfl⟩,
    ⟨⟨rfl, rfl, rfl, rfl, rfl, rfl, rfl⟩, rfl, rfl, rfl⟩, ⟨⟨rfl, rfl, rfl, rfl, rfl, rfl, rfl⟩, ⟨rfl, rfl, rfl, rfl⟩, rfl, rfl, next_ne _⟩, rfl⟩

/-! ### Temperature, heel requests, power states -/

/-- The sensors and heel requests changed. -/
def atTherm (f : ThermSt → ThermSt) : State := atMod (fun m => { m with therm := f m.therm })

theorem test_hyp_RoundsReadAndHeelRequestsAct :
    (State.reset.fe.powered = true ∧ mirrorIdle State.reset.m.gang ∧ State.reset.m.therm.test = none ∧ (-40 * 16 : Int) ≤ -640 ∧ (2400 : Int) ≤ 150 * 16 ∧
      (-40 * 16 : Int) ≤ max (-700) (-640) ∧ max (-700 : Int) 2400 ≤ 150 * 16) ∧
    (let s := atTherm (fun t => { t with sensors := [(58, { temp := 0, broken := false, fails := 2 })] }); mirrorIdle s.m.gang ∧ s.m.therm.test = none ∧
      2 ≤ (sensorAt s.m 58).fails) ∧
    (let s := atTherm (fun t => { t with dramOver := true }); mirrorIdle s.m.gang ∧ s.m.therm.test = none ∧ s.m.therm.critical = false ∧
      s.m.therm.dramOver = true ∧ (sensorAt s.m 16).broken = false ∧ (105 * 16 : Int) < 1681) ∧
    (let h : Heel := { raised := true, enforced := false, deadline := 0 }; let s := atTherm (fun t => { t with dieHeel := h, dramHeel := h });
      s.m.therm.critical = false ∧ s.m.therm.dieHeel.raised = true ∧ s.m.therm.dramHeel.raised = true ∧ s.m.therm.dieHeel.deadline ≤ s.m.tb.now ∧
      s.m.therm.dramHeel.deadline ≤ s.m.tb.now) ∧
    (let s := atTherm (fun t => { t with dieHeel := { raised := true, enforced := false, deadline := 1 } }); s.m.tb.now < s.m.therm.dieHeel.deadline) ∧
    State.reset.m.therm.dieHeel.raised = false ∧
    (let h : Heel := { raised := true, enforced := false, deadline := 0 }; let s := atTherm (fun t => { t with capHeel := Vector.replicate 4 h });
      s.m.therm.critical = false ∧ (s.m.therm.capHeel[(3 : Tile)] : Heel).raised = true ∧ (s.m.therm.capHeel[(3 : Tile)] : Heel).enforced = false ∧
      (s.m.therm.capHeel[(3 : Tile)] : Heel).deadline ≤ s.m.tb.now) ∧
    (atTherm (fun t => { t with critical := true })).m.therm.critical = true ∧
    (let s := atTherm (fun t => { t with throttle := 3, graceIn := 0, downFrom := 0 }); s.m.therm.critical = false ∧ s.m.therm.dieHeel.raised = false ∧
      s.m.therm.dramHeel.raised = false ∧ 0 < s.m.therm.throttle ∧ s.m.therm.downFrom + s.m.therm.graceIn * 1000000 ≤ s.m.tb.now) ∧
    State.reset.m.therm.throttle = 0 ∧ accepted (hdr 0) 0x0A01 (svc id) ∧
    (let s := atTherm (fun t => { t with test := some (tagOf (hdr 0) 0x0A01, 58) }); s.fe.powered = true ∧ s.m.therm.test = some (tagOf (hdr 0) 0x0A01, 58)) := by
  refine ⟨⟨rfl, ⟨rfl, rfl, rfl, rfl⟩, rfl, by decide, by decide, by decide, by decide⟩, ⟨⟨rfl, rfl, rfl, rfl⟩, rfl, by decide⟩,
    ⟨⟨rfl, rfl, rfl, rfl⟩, rfl, rfl, rfl, rfl, by decide⟩, ⟨rfl, rfl, rfl, by decide, by decide⟩, by decide, rfl, ⟨rfl, rfl, rfl, by decide⟩, rfl,
    ⟨rfl, rfl, rfl, by decide, by decide⟩, rfl, accepted_svc _ _ rfl rfl rfl _ (by decide), rfl, rfl⟩

/-- The power unit changed. -/
def atPower (f : PowerSt → PowerSt) : State := atMod (fun m => { m with power := f m.power })

theorem test_hyp_IdleAndSleepEnterAndLeave :
    (let s := atMod (fun m => { m with power := { m.power with idleUs := 1, workAt := 0 }, tb := { m.tb with now := 1000 } });
      s.fe.powered = true ∧ s.m.power.state = 0 ∧ s.m.power.idleUs ≠ 0 ∧ s.m.power.workAt + s.m.power.idleUs * 1000 ≤ s.m.tb.now ∧ idleWork s.m = false ∧
      s.m.power.sleepAfter = none ∧ s.m.conn.ir ≠ 3 ∧ s.m.therm.critical = false) ∧
    (atPower (fun p => { p with idleUs := 0 })).m.power.idleUs = 0 ∧
    (let s := atPower (fun p => { p with state := 5, last := 1 }); s.m.power.state = 5 ∧ s.m.power.last = 1 ∧ s.m.prot.held = []) ∧
    accepted (hdr 0) 0x0A02 (svc id) ∧
    (let s := atPower (fun p => { p with state := 2 }); s.m.conn.ir ≠ 3 ∧ s.m.power.state = 2 ∧ s.m.therm.critical = false) ∧
    (atMod (fun m => { m with conn := { m.conn with ir := 3 } })).m.conn.ir = 3 ∧
    (let s := atPower (fun p => { p with state := 4, target := 2, phase := 1 }); s.m.power.state = 4 ∧ s.m.power.target = 2 ∧ s.m.power.phase = 1) ∧
    State.reset.m.power.state ≠ 4 ∧ State.reset.m.power.state ≠ 5 ∧ State.reset.m.power.state ≤ 1 ∧
    (let s := atPower (fun p => { p with state := 5, last := 2 }); s.m.power.state = 5 ∧ s.m.power.last = 2 ∧ s.m.prot.held = [] ∧ s.m.tb.lost = false ∧
      s.m.therm.critical = false) ∧
    (let s := atPower (fun p => { p with state := 3 }); s.m.power.state = 3 ∧ s.m.therm.critical = false) := by
  refine ⟨⟨rfl, rfl, by decide, by decide, by decide +kernel, rfl, by decide, rfl⟩, rfl, ⟨rfl, rfl, rfl⟩, accepted_svc _ _ rfl rfl rfl _ (by decide),
    ⟨by decide, rfl, rfl⟩, rfl, ⟨rfl, rfl, rfl⟩, by decide, by decide, by decide, ⟨rfl, rfl, rfl, rfl, rfl⟩, ⟨rfl, rfl⟩⟩

/-- Both ports in reset and the frame running: Deep sleep may be entered. -/
def deepReady : State :=
  atMod (fun m => { m with sched := { m.sched with running := true }, ports := ⟨{ m.ports.a with inReset := true }, { m.ports.b with inReset := true }⟩ })

theorem test_hyp_DeepSleepEntersAndLeavesByPhases :
    (let s := State.reset; s.fe.powered = true ∧ s.m.conn.ir ≠ 3 ∧ s.m.power.state = 0 ∧
      (s.m.ports.a.inReset && s.m.ports.b.inReset && sleepOk s.m && mirrorsRetained 0 s.m) = false) ∧
    (let s := deepReady; s.m.conn.ir ≠ 3 ∧ s.m.power.state = 0 ∧
      (s.m.ports.a.inReset && s.m.ports.b.inReset && sleepOk s.m && mirrorsRetained 0 s.m) = true ∧ s.m.gang.link ≤ 1 ∧
      (∀ t : Tile, (s.m.filters[t] : FilterSt).entries = []) ∧ ∀ t : Tile, (s.m.slices[t] : Slice).lines = [] ∧ (s.m.slices[t] : Slice).transits = []) ∧
    (let s := atPower (fun p => { p with state := 4, target := 3, phase := 1, wakePend := false }); s.m.power.state = 4 ∧ s.m.power.target = 3 ∧ s.m.power.phase = 1 ∧
      s.m.power.wakePend = false) ∧
    (let s := atPower (fun p => { p with state := 5, last := 3, phase := 1 }); s.m.power.state = 5 ∧ s.m.power.last = 3 ∧ s.m.power.phase = 1) ∧
    (atPower (fun p => { p with state := 5, last := 3, phase := 2 })).m.power.phase = 2 ∧
    (let s := atPower (fun p => { p with state := 5, last := 3, phase := 3, retained := 14 }); s.m.power.last = 3 ∧ s.m.power.phase = 3 ∧ s.m.power.retained ≠ 15 ∧
      s.m.tb.lost = false ∧ s.m.therm.critical = false) ∧
    (let s := atPower (fun p => { p with state := 5, last := 3, phase := 3, retained := 15 }); s.m.power.retained = 15 ∧ s.m.tb.lost = false ∧
      s.m.therm.critical = false ∧ s.m.prot.held = []) ∧
    (atPower (fun p => { p with state := 5, last := 3, phase := 4 })).m.power.phase = 4 ∧
    (let s := atPower (fun p => { p with state := 5, last := 3, phase := 5 }); s.m.power.phase = 5 ∧ s.m.prot.held = [] ∧ s.m.filling = 0) := by
  refine ⟨⟨rfl, by decide, rfl, by decide +kernel⟩, ⟨by decide, rfl, by decide +kernel, by decide, by decide, by decide⟩, ⟨rfl, rfl, rfl, rfl⟩, ⟨rfl, rfl, rfl⟩,
    rfl, ⟨rfl, rfl, by decide, rfl, rfl⟩, ⟨rfl, rfl, rfl, rfl⟩, rfl, ⟨rfl, rfl, rfl⟩⟩

/-! ### Counters, registers, events, the connector -/

theorem test_hyp_CounterPagesWriteOverflowAndReport :
    (let s := atMod live; barOpen .a s ∧ pageOpen s.m 6 ∧ s.fe.powered = true ∧ State.reset.m.conn.ir ≠ 3 ∧ State.reset.m.power.state = 0 ∧ pageOpen State.reset.m 4) ∧
    (let s := atMod (fun m => { live m with perfUser := (15 : BitVec 4) }); barOpen .a s ∧ pageOpen s.m 0 ∧ pageOpen s.m 3) ∧
    (let v : Word64 := 0x1_2F04#64; v.getLsbD 29 = false ∧ inRange 0x01 0x04 (bitsOf v 0 8).toNat = true ∧ (0 : Fin 7).val < 4 ∧ bitsOf v 8 4 = 15 ∧
      bitsOf v 12 2 = 2 ∧ bitsOf v 14 2 = 0) ∧
    ((0x20000000 : Word64).getLsbD 29 = true ∧ (6 : Fin 8).val % 2 = 0) ∧
    (let s := atMod live; (0 : Fin 7).val < 4 ∧ s.m.perfUser.getLsbD (0 : Fin 7).val = false) ∧
    (let e : PerfEvt := { (default : PerfEvt) with event := 0x21, qual := 1, keyId := 5 }; let s := atMod (fun m => pagePut m 2 { (m.perf[(2 : Fin 7)] : PerfPage) with pend := [(7, e)] });
      (s.m.perf[(2 : Fin 7)] : PerfPage).pend = [((7 : Fin 8).val, e)] ∧ e.event < 256 ∧ e.qual < 16 ∧ e.keyId < 64 ∧
      (s.m.perf[(2 : Fin 7)] : PerfPage).sample0.getLsbD 3 = false) ∧
    (let e : PerfEvt := default; let s := atMod (fun m => pagePut m 2 { (m.perf[(2 : Fin 7)] : PerfPage) with pend := [(7, e)], sample0 := 8, ctrs := Vector.replicate 8 { (default : PerfCtr) with sample := true } });
      (s.m.perf[(2 : Fin 7)] : PerfPage).pend = [((7 : Fin 8).val, e)] ∧ ((s.m.perf[(2 : Fin 7)] : PerfPage).ctrs[(7 : Fin 8)] : PerfCtr).sample = true ∧
      (s.m.perf[(2 : Fin 7)] : PerfPage).sample0.getLsbD 3 = true) ∧
    (State.reset.m.perf[(2 : Fin 7)] : PerfPage).pend = [] := by
  refine ⟨⟨⟨rfl, rfl, rfl, rfl⟩, (fun h => absurd h (by decide)), rfl, by decide, rfl, (fun h => absurd h (by decide))⟩, ⟨⟨rfl, rfl, rfl, rfl⟩, fun _ => rfl, fun _ => rfl⟩,
    ⟨rfl, rfl, by decide, rfl, rfl, rfl⟩, ⟨rfl, rfl⟩, ⟨by decide, rfl⟩,
    ⟨rfl, by decide, by decide, by decide, rfl⟩, ⟨rfl, rfl, rfl⟩, rfl⟩

theorem test_hyp_RegisterWritesFollowTheRules :
    (barOpen .a (atMod live) ∧ ((atMod live).m.ports.get .a).msixOn = [] ∧ ((atMod live).m.ports.get .a).msixPend = [] ∧ (2 : Word64).getLsbD 0 = false) ∧
    barOpen .b (atMod (fun m => onPort .b (fun q => { q with linkUp := true, inReset := false }) m)) ∧
    ((3 : Nat) ≠ 4 ∧ (3 : Nat) ≠ 8 ∧ ¬ (0xB0000 ≤ 0xAFFFC ∧ 0xAFFFC < 0xC0000) ∧ 0xAFFFC % 8 = 4 ∧ 1023 < 1024 ∧ 0xFFFFC % 4 = 0) ∧
    (let s := atMod (fun m => onPort .a (fun q => { q with d3hot := true }) (live m)); s.fe.powered = true ∧ portTalks s.m .a = true ∧ (s.m.ports.get .a).d3hot = true) ∧
    State.reset.m.conn.ir ≠ 3 ∧ State.reset.m.power.state = 0 :=
  ⟨⟨⟨rfl, rfl, rfl, rfl⟩, rfl, rfl, rfl⟩, ⟨rfl, rfl, rfl, rfl⟩, by decide, ⟨rfl, rfl, rfl⟩, by decide, rfl⟩

/-- An event ring of port A that is enabled. -/
def evRing : Ring := { hostRing 10 with cfg := 0xD5 }

theorem test_hyp_EventsArePostedInOrder :
    (eventRing State.reset.m .a = none ∧ eventRing State.reset.m .b = none) ∧
    (let e : EvEntry := { (default : EvEntry) with seq := 5, kind := 0x0102, sev := 1 };
     let s := atMod (fun m => withRing 0 evRing { live m with ev := { m.ev with fifo := [e, { e with seq := 6 }] } })
     s.fe.powered = true ∧ eventRing s.m .a = some 0 ∧ eventRing s.m Port.a.other = none ∧ ringRoom s.m .a 0 = true ∧ s.m.ev.fifo = [e, { e with seq := 6 }] ∧
      (if Port.a = .a then e.takenA else e.takenB) = false ∧ s.m.ev.co = [] ∧
      (∀ x ∈ [{ e with seq := 6 }].head?, (if Port.a = .a then x.takenA else x.takenB) = false)) := by
  refine ⟨⟨rfl, rfl⟩, ⟨rfl, rfl, rfl, by decide, rfl, rfl, rfl, fun x h => ?_⟩⟩
  cases h; rfl

/-- The connector changed. -/
def atConn (f : ConnSt → ConnSt) : State := atMod (fun m => { m with conn := f m.conn })

theorem test_hyp_SidebandTransfersReadAndWrite :
    (State.reset.fe.powered = true ∧ State.reset.m.conn.ir ≠ 3 ∧ State.reset.m.power.state = 0 ∧ hdrBad 0x040A_0010#32 = false ∧
      (List.replicate 8 (0 : Byte)).length = hdrSize 0x040A_0010#32 ∧ (List.replicate 8 (0 : Byte)).length = 8) ∧
    (let s := atConn (fun c => { c with header := some 4#32, posted := some [1, 2, 3, 4] }); hdrBad 4#32 = false ∧ s.m.conn.header = some 4#32 ∧
      s.m.conn.posted = some [1, 2, 3, 4]) ∧
    (let s := atMod (fun m => { m with conn := { m.conn with header := some 4#32 }, power := { m.power with state := 2 } }); s.m.conn.ir ≠ 3 ∧ 1 < s.m.power.state ∧
      s.m.conn.header = some 4#32 ∧ s.m.conn.posted = none) ∧
    (atPower (fun p => { p with state := 5 })).m.power.state = 5 ∧ (atPower (fun p => { p with state := 2 })).m.power.state = 2 ∧
    (atConn (fun c => { c with ir := 3 })).m.conn.ir = 3 :=
  ⟨⟨rfl, by decide, rfl, rfl, rfl, rfl⟩, ⟨rfl, rfl, rfl⟩, ⟨by decide, by decide, rfl, rfl⟩, rfl, rfl, rfl⟩

theorem test_hyp_BrokenSidebandTransfersAreRecorded :
    (State.reset.fe.powered = true ∧ State.reset.m.conn.ir ≠ 3 ∧ bitsOf 0x8000_0000#32 27 5 ≠ 0 ∧ bitsOf 0x0400_0004#32 27 5 = 0 ∧
      (bitsOf 0x0400_0004#32 0 26).toNat % 8 ≠ 0 ∧ [(0 : Byte)].length ≠ 8) ∧
    State.reset.m.ev.reValid = false ∧ (atMod (fun m => { m with ev := { m.ev with reValid := true } })).m.ev.reValid = true ∧
    (let s := atConn (fun c => { c with header := some 4#32, posted := some [1, 2, 3, 4] }); s.m.conn.header = some 4#32 ∧
      [(1 : Byte), 2, 3, 4].length = hdrSize 4#32 ∧ s.m.conn.posted = some [1, 2, 3, 4]) ∧
    (let s := atConn (fun c => { c with header := some 4#32 }); s.m.conn.posted = none ∧ s.m.power.state = 0 ∧
      (toBytes (regRead s.fe s.m .sideband (hdrOffset 4#32) (hdrSize 4#32)) (hdrSize 4#32)).length = hdrSize 4#32) ∧
    State.reset.m.conn.header = none :=
  ⟨⟨rfl, by decide, by decide, rfl, by decide, by decide⟩, rfl, rfl, ⟨rfl, rfl, rfl⟩, ⟨rfl, rfl, rfl⟩, rfl⟩

theorem test_hyp_CommonCodesAnswerAndTapInstructionsAct :
    (State.reset.m.conn.ir ≠ 3 ∧ State.reset.m.power.state = 0 ∧ State.reset.m.conn.daValid = false ∧ State.reset.m.conn.tapReset = false ∧
      State.reset.m.power.state ≠ 3) ∧
    (atConn (fun c => { c with daValid := true })).m.conn.daValid = true ∧ (0x5F : BitVec 7) ≠ 0x60 + State.reset.m.conn.addrSel.setWidth 7 ∧
    (atConn (fun c => { c with ir := 3 })).m.conn.ir = 3 ∧ (atConn (fun c => { c with tapReset := true })).m.conn.tapReset = true ∧
    (atPower (fun p => { p with state := 3 })).m.power.state = 3 := by
  refine ⟨⟨by decide, rfl, rfl, rfl, by decide⟩, rfl, by decide, rfl, rfl, rfl⟩

/-! ### Terms that WellFormed refuses, one for each check -/

open Sys2Proof.WellFormed in
theorem test_wf_refuses :
    wf (.dispatchPoint 0 65536 false) = false ∧ wf (.slotMissed 0 65536) = false ∧ wf (.refreshSlot 0 65536) = false ∧ wf (.biRspI .a 65536) = false ∧
    wf (.biRspE .b 65536) = false ∧ wf (.snpInv .a (2 ^ 64)) = false ∧ wf (.go .a (2 ^ 64)) = false ∧ wf (.goWritePull .a (2 ^ 64)) = false ∧
    wf (.identify { hdr 0 with rlen := 2 ^ 32 }) = false ∧ wf (.fillDecompressDone 0 (2 ^ 42) false false) = false ∧
    wf (.idle { flit0 with ack := 4096 }) = false ∧ wf (.stop { flit0 with epoch := 2 ^ 32 }) = false ∧
    wf (.registerWrite .a .bar0 0 3 (some 0)) = false ∧ wf (.bisnpCreditReturn .a false 0) = false := by
  repeat' apply And.intro
  all_goals decide

open Sys2Proof.WellFormed in
theorem test_wf_accepts :
    wf (.dispatchPoint 0 65535 true) = true ∧ wf (.biRspS .a 65535) = true ∧ wf (.identify (hdr 0)) = true ∧ wf (.idle flit0) = true ∧
    wf (.registerWrite .a .bar0 3 8 none) = true := by
  repeat' apply And.intro
  all_goals decide

/-! ### Single results and steps, expected values from the spec's examples -/

/-- The example of R46. -/
theorem test_device_address_map :
    let da := 0x0E2_9B4C_7A00
    daTile da = 1 ∧ daPack da = 2 ∧ daCol da = 61 ∧ daRank da = 1 ∧ daRow da = 0x314DA ∧ daBank da = 2 := by decide

/-- The location code example (R31): a failed die of pack 6. -/
theorem test_location_code : locCode 6 (some 5) (some 1) (some 2) none (some 27) (some 59) = 0x9DB7F4AE := by decide

/-- The example of the pack code: byte 5 is off by 0x40, so S0 is 0x40 and S1 is 0x2D. -/
theorem test_beat_syndromes : syndromes (xorAt (List.replicate 18 0) 5 0x40) = (0x40, 0x2D) := by decide

theorem test_beat_corrected : decodeBeat [] (xorAt (List.replicate 18 0) 5 0x40) = some (List.replicate 18 0, [5]) := by decide

/-- The example of *Host ports and the address map*: the fields of W and the granule. -/
theorem test_window_offset :
    let w : BitVec 53 := 0x0002_A123_4567_89C0
    wKey w = 5 ∧ wLabel w = 2 ∧ wAper w = 0 ∧ wOff w = 0x123_4567_89C0 ∧ wOff w / 2 ^ 26 = 18641 := by decide

/-- The examples of *Line cache* and *Coherence*: set, tag and sector; filter set. -/
theorem test_line_set : lineSet 0x123_4567_89C0 = 10908 ∧ lineTag 0x123_4567_89C0 = 0x48D15 ∧ 0x123_4567_89C0 / 64 % 4 = 3 := by decide

theorem test_filter_set : filtSet (0x123_4567_89C0 / 64) = 4914 ∧ filtTag (0x123_4567_89C0 / 64) = 0x48D15 := by decide

/-- The SEAL example (R276): tile 1, base 0x80_0000_0000, 128 GiB, metadata at 0xA0_0000_0000. -/
def sealT1 : SealRange := { (default : SealRange) with base := 0x2000, gran := 2048, metaBase := 0x2800 }

theorem test_seal_layout :
    sealIdx sealT1 0x93_5A7C_1E00 = 0x135A_7C1E ∧ macAddr sealT1 0x135A_7C1E = 0xA0_9AD3_E000 ∧ nodeAddr sealT1 1 0x26_B4F8 = 0xA1_26B4_F800 ∧
    nodeAddr sealT1 2 0x4D69 = 0xA1_404D_6900 ∧ nodeAddr sealT1 3 154 = 0xA1_4080_9A00 ∧ nodeAddr sealT1 4 1 = 0xA1_4081_0100 := by decide

/-- The example of R569: STRAPS of the second module and of the first. -/
theorem test_straps :
    let fe := { State.reset.fe with uvSel := 2, insDly := 1 }
    let m := atConn (fun c => { c with addrSel := 1, gangEn := true })
    regRead fe m.m .portA 0x20 8 = 0x6196 ∧ regRead fe (atConn (fun c => { c with addrSel := 0, gangEn := true })).m .portA 0x20 8 = 0x6086 := by decide

/-- The header 0x040A_0218 of the same example: offset, size. -/
theorem test_sideband_header : hdrOffset 0x040A_0218 = 0xA0218 ∧ hdrSize 0x040A_0218 = 8 ∧ hdrBad 0x040A_0218 = false := by decide

/-- R568: a read with no header returns zeros; an IDCODE, a wake pin and the queue take one step each. -/
theorem test_step_sideband_read :
    ∃ t, step { State.reset with pending := [.sidebandRead 4, .wakeN] } = .next t ∧ t.m.out = [.sideData [0, 0, 0, 0]] ∧ t.pending = [.wakeN] :=
  ⟨_, rfl, rfl, rfl⟩

/-- R480: short circuit latches the front end off. -/
theorem test_step_short_circuit : ∃ t, step { State.reset with pending := [.shortCircuit] } = .next t ∧ t.fe.st = .latched := ⟨_, rfl, rfl⟩

/-- R566: SETDASA at the static address 0x60 assigns the dynamic address. -/
theorem test_step_setdasa : ∃ t, step { State.reset with pending := [.setdasa 0x60 9] } = .next t ∧ t.m.conn.da = 9 ∧ t.m.conn.daValid = true :=
  ⟨_, rfl, rfl, rfl⟩

end Sys2Proof.Tests
end

