-- ==== Sys2Proof/Proofs/RegisterWrites.lean ====
section
/-! PROOFS. Register accesses (O56): what a port's BAR access and a sideband transfer come to in Run, what a write gives the fields of
its register, and what the MSI-X table reads after a write. -/
namespace Sys2Proof.Machine

open Sys2Proof.Stmt

/-! ### Accesses that reach their register -/

/-- In Run no wake cause has an effect. -/
theorem wake_of_run (c : Nat) (m : Mod) (h : m.power.state = 0) : wake c m = m := by
  simp [wake, h]

theorem onMod_of_powered (f : Mod → Mod) (s : State) (h : s.fe.powered = true) : onMod f s = { s with m := f s.m } := by
  simp [onMod, h]

/-- A command that changes the module alone completes in a module with power. -/
theorem completes_of_onMod {c : Instr} {s : State} (f : Mod → Mod) {P : Mod → Prop} (hc : exec c s = .next (onMod f s))
    (hp : s.fe.powered = true) (h : P (f s.m)) : completes c s P :=
  ⟨f s.m, by rw [hc, onMod_of_powered f s hp], h⟩

/-- A BAR access in Run is work (R488), and nothing else stands before it. -/
theorem portAccess_of_barOpen {p : Port} {s : State} (f : Mod → Mod) (h : barOpen p s) : portAccess p f s.m = f (touch s.m) := by
  obtain ⟨-, htalks, hd3, hrun⟩ := h
  simp [portAccess, htalks, hd3, wake_of_run _ (touch s.m) hrun]

/-- In D3hot an access is a wake cause alone (R182). -/
theorem portAccess_of_d3hot (p : Port) (f : Mod → Mod) (m : Mod) (htalks : portTalks m p = true) (hd3 : (m.ports.get p).d3hot = true) :
    portAccess p f m = wake (msgCode p) (touch m) := by
  simp [portAccess, htalks, hd3]

@[simp] theorem barOf_port (p : Port) : (barOf p).port = some p := by cases p <;> rfl
@[simp] theorem barOf_code (p : Port) : (barOf p).code = p.num := by cases p <;> rfl
@[simp] theorem eitherPort_barOf (p : Port) : eitherPort (barOf p) = true := by cases p <;> rfl

theorem barWrite_bar0 (p : Port) (off size : Nat) (v : Word64) (m : Mod) :
    barWrite p .bar0 off size v m = regWrite (barOf p) off size v m := by
  cases p <;> rfl

theorem barWrite_of_ne_bar0 (p : Port) (bar : Bar) (hbar : bar ≠ .bar0) (off size : Nat) (v : Word64) (m : Mod) :
    barWrite p bar off size v m = otherBarWrite p bar off size v m := by
  simp only [barWrite, beq_iff_eq, if_neg hbar]

/-- REGISTER_WRITE at an open port is the write of its BAR. -/
theorem completes_barWrite {p : Port} {bar : Bar} {off size : Nat} {v : Word64} {s : State} {P : Mod → Prop} (h : barOpen p s)
    (hP : P (barWrite p bar off size v (touch s.m))) : completes (.registerWrite p bar off size (some v)) s P :=
  completes_of_onMod _ rfl h.1 (by rw [portAccess_of_barOpen _ h]; exact hP)

/-- REGISTER_WRITE through BAR0 of an open port is the write of the register with that port as source. -/
theorem completes_bar0Write {p : Port} {off size : Nat} {v : Word64} {s : State} {P : Mod → Prop} (h : barOpen p s)
    (hP : P (regWrite (barOf p) off size v (touch s.m))) : completes (.registerWrite p .bar0 off size (some v)) s P :=
  completes_barWrite h (by rw [barWrite_bar0]; exact hP)

/-- REGISTER_WRITE through another BAR of an open port. -/
theorem completes_otherBarWrite {p : Port} {bar : Bar} {off size : Nat} {v : Word64} {s : State} {P : Mod → Prop} (h : barOpen p s)
    (hbar : bar ≠ .bar0) (hP : P (otherBarWrite p bar off size v (touch s.m))) :
    completes (.registerWrite p bar off size (some v)) s P :=
  completes_barWrite h (by rw [barWrite_of_ne_bar0 p bar hbar]; exact hP)

/-- A write of 8 B through a port's BAR0 in Run. -/
theorem sourceWrite_of_barOpen {p : Port} {s : State} (off : Nat) (v : Word64) (h : barOpen p s) :
    sourceWrite (barOf p) off v s.m = regWrite (barOf p) off 8 v (touch s.m) := by
  rw [sourceWrite, sourceAccess, barOf_port]
  exact portAccess_of_barOpen _ h

/-- A write of 8 B by the sideband in Run takes effect at once. -/
theorem sourceWrite_sideband_of_run (off : Nat) (v : Word64) (m : Mod) (hir : m.conn.ir ≠ 3) (hrun : m.power.state = 0) :
    sourceWrite .sideband off v m = regWrite .sideband off 8 v m := by
  have hpins : pinsHeld m = false := by simpa [pinsHeld] using hir
  simp [sourceWrite, sourceAccess, Source.port, hpins, sideAccess, blocksUp, wake_of_run _ m hrun, hrun]

/-! ### Registers of BAR0 -/

/-- The offsets outside the pages of performance counters, which PERF_USER may close (R530). -/
abbrev outsidePages (off : Nat) : Prop := ¬ (0xB0000 ≤ off ∧ off < 0xC0000)

/-- An access of the right size and alignment, to neither a page of counters nor the ring set-up block. -/
abbrev plainAccess (off size : Nat) : Prop :=
  outsidePages off ∧ (size = 4 ∨ size = 8) ∧ off % size = 0 ∧ ¬ (0x20000 ≤ off ∧ off < 0x30000)

theorem outsidePages_decide {off : Nat} (ho : outsidePages off) : (decide (0xB0000 ≤ off) && decide (off < 0xC0000)) = false := by
  simpa using ho

theorem regWrite_misaligned (src : Source) (off size : Nat) (v : Word64) (m : Mod) (ho : outsidePages off)
    (h : ¬ (size = 4 ∨ size = 8) ∨ off % size ≠ 0) : regWrite src off size v m = regError off src.code 1 m := by
  simp only [regWrite, outsidePages_decide ho, Bool.false_and, Bool.false_eq_true, if_false]
  exact if_pos (by simpa using h)

theorem regWrite_unassigned {src : Source} {off size : Nat} {v : Word64} {m : Mod} (ha : plainAccess off size)
    (hg : wregAt m (off / 8 * 8) = none) : regWrite src off size v m = regError off src.code 4 m := by
  obtain ⟨ho, hs, hal, hr⟩ := ha
  simp [regWrite, outsidePages_decide ho, hs, hal, hr, hg]

/-- What a write does to the register `g` that its offset names. -/
theorem regWrite_assigned {src : Source} {off size : Nat} {v : Word64} {m : Mod} {g : WReg} (ha : plainAccess off size)
    (hg : wregAt m (off / 8 * 8) = some g) : regWrite src off size v m =
      if g.bad (written off size v) then regError off src.code 0 m
      else if !g.allowed src then regError off src.code g.deny m
      else g.apply (written off size v) m := by
  obtain ⟨ho, hs, hal, hr⟩ := ha
  simp [regWrite, outsidePages_decide ho, hs, hal, hr, hg]

/-- A port's write to a register of either port. -/
theorem regWrite_shared {p : Port} {off size : Nat} {v : Word64} {m : Mod} {bad : Written → Bool} {apply : Written → Mod → Mod}
    (ha : plainAccess off size) (hg : wregAt m (off / 8 * 8) = some (shared bad apply)) :
    regWrite (barOf p) off size v m =
      if bad (written off size v) then regError off p.num 0 m else apply (written off size v) m := by
  simp [regWrite_assigned ha hg, shared]

/-- A port's write to a register of either port without a reserved encoding. -/
theorem regWrite_shared_anyCode {p : Port} {off size : Nat} {v : Word64} {m : Mod} {apply : Written → Mod → Mod}
    (ha : plainAccess off size) (hg : wregAt m (off / 8 * 8) = some (shared anyCode apply)) :
    regWrite (barOf p) off size v m = apply (written off size v) m := by
  simp [regWrite_shared ha hg, anyCode]

/-- The sideband may not write a register of either port (R542). -/
theorem regWrite_shared_sideband {off size : Nat} {v : Word64} {m : Mod} {apply : Written → Mod → Mod}
    (ha : plainAccess off size) (hg : wregAt m (off / 8 * 8) = some (shared anyCode apply)) :
    regWrite .sideband off size v m = regError off 2 6 m := by
  simp [regWrite_assigned ha hg, shared, anyCode, eitherPort, Source.code]

/-- A write to a register without a writable field (log entry 53). -/
theorem regWrite_readOnly {src : Source} {off size : Nat} {v : Word64} {m : Mod} (ha : plainAccess off size)
    (hg : wregAt m (off / 8 * 8) = some readOnly) : regWrite src off size v m = regError off src.code 6 m := by
  simp [regWrite_assigned ha hg, readOnly]

/-! ### What a write gives a field (R544) -/

@[simp] theorem written_whole (off : Nat) (v : Word64) (lo w : Nat) : written off 8 v lo w = some (bitsOf v lo w).toNat := rfl

/-- The upper half gives nothing to a field that starts in the lower half. -/
theorem written_upper_of_low (off : Nat) (v : Word64) (lo w : Nat) (ho : off % 8 = 4) (hlo : lo < 32) : written off 4 v lo w = none := by
  simp [written, ho, Nat.not_le.mpr hlo]

/-- The lower half gives nothing to a field that ends in the upper half. -/
theorem written_lower_of_wide (off : Nat) (v : Word64) (lo w : Nat) (ho : off % 8 = 0) (hw : 32 < lo + w) : written off 4 v lo w = none := by
  simp [written, ho, Nat.not_le.mpr hw]

@[simp] theorem writes1_whole (off : Nat) (v : Word64) (i : Nat) : writes1 (written off 8 v) i = v.getLsbD i := by
  rw [writes1, written_whole, ← BitVec.testBit_toNat, Nat.testBit_eq_decide_div_mod_eq, BitVec.extractLsb'_toNat,
    Nat.shiftRight_eq_div_pow]
  rfl

/-- A field of a register that holds the bits of a whole write. -/
@[simp] theorem ofNat_bitsOf (v : Word64) (lo w : Nat) : BitVec.ofNat w (bitsOf v lo w).toNat = bitsOf v lo w := by
  rw [BitVec.ofNat_toNat, BitVec.setWidth_eq]

@[simp] theorem cleared_whole {n : Nat} (off : Nat) (v : Word64) (lo : Nat) (x : BitVec n) :
    cleared (written off 8 v) lo x = x &&& ~~~(bitsOf v lo n) := by
  rw [cleared, written_whole, Option.getD_some, ofNat_bitsOf]

/-! ### The registers that the statement names -/

theorem regWrite_cacheInsert (p : Port) (v : Word64) (m : Mod) :
    regWrite (barOf p) 0x50200 8 v m = { m with insert := bitsOf v 0 16 } := by
  rw [regWrite_shared_anyCode (by decide) rfl]
  simp only [setInsert, written_whole, ofNat_bitsOf]

theorem regWrite_cacheInsert_upper (p : Port) (v : Word64) (m : Mod) : regWrite (barOf p) 0x50204 4 v m = m := by
  rw [regWrite_shared_anyCode (by decide) rfl, setInsert, written_upper_of_low _ _ _ _ rfl (by decide)]

theorem regWrite_scratch0 (p : Port) (v : Word64) (m : Mod) :
    regWrite (barOf p) 0x1010 8 v m = { m with proc := { m.proc with scratch := m.proc.scratch.set 0 v } } := by
  rw [regWrite_shared_anyCode (by decide) rfl]
  simp [setScratch]

theorem regWrite_scratch0_lower (p : Port) (v : Word64) (m : Mod) : regWrite (barOf p) 0x1010 4 v m = m := by
  rw [regWrite_shared_anyCode (by decide) rfl, setScratch, written_lower_of_wide _ _ _ _ rfl (by decide)]

theorem regWrite_slotSel (p : Port) (v : Word64) (m : Mod) :
    regWrite (barOf p) 0x40200 8 v m = { m with slotSel := bitsOf v 0 22 } := by
  rw [regWrite_shared_anyCode (by decide) rfl]
  simp only [setSlotSel, written_whole, ofNat_bitsOf]

/-- LABEL_CFG of label `l` (R409). -/
theorem wregAt_labelCfg (m : Mod) (l : Fin 8) :
    wregAt m (0x1300 + 8 * l.val) = some (shared labelCfgBad (setLabelCfg (BitVec.ofNat 3 l.val))) := by
  fin_cases l <;> rfl

/-- The label with the two shares that a LABEL_CFG word gives. -/
def withShares (v : Word64) (x : LabelSt) : LabelSt := { x with cshare := (bitsOf v 0 7).toNat, qshare := (bitsOf v 8 6).toNat }

theorem setLabelCfg_whole (off : Nat) (v : Word64) (l : Fin 8) (m : Mod) :
    setLabelCfg (BitVec.ofNat 3 l.val) (written off 8 v) m = { m with labels := m.labels.set l (withShares v m.labels[l]) } := by
  have hl : (BitVec.ofNat 3 l.val).toNat = l.val := by simp
  simp only [setLabelCfg, onLabel, hl, written_whole, Option.getD_some]
  rfl

theorem labelCfgBad_whole (off : Nat) (v : Word64) :
    labelCfgBad (written off 8 v) = !decide ((bitsOf v 0 7).toNat ≤ 64 ∧ (bitsOf v 8 6).toNat ≤ 32) := by
  simp only [labelCfgBad, refuses, written_whole, Option.any_some, Bool.decide_and, Bool.not_and]

theorem regWrite_labelCfg (p : Port) (v : Word64) (l : Fin 8) (m : Mod) : regWrite (barOf p) (0x1300 + 8 * l.val) 8 v m =
    if (bitsOf v 0 7).toNat ≤ 64 ∧ (bitsOf v 8 6).toNat ≤ 32 then { m with labels := m.labels.set l (withShares v m.labels[l]) }
    else regError (0x1300 + 8 * l.val) p.num 0 m := by
  have hal : (0x1300 + 8 * l.val) / 8 * 8 = 0x1300 + 8 * l.val := by omega
  rw [regWrite_shared (by omega) (by rw [hal]; exact wregAt_labelCfg m l), labelCfgBad_whole, setLabelCfg_whole]
  split
  next h => rw [if_neg (by simpa only [Bool.not_eq_true', decide_eq_false_iff_not] using h)]
  next h => rw [if_pos (by simpa using h)]

/-- PORT_ERR of port A, which port A alone may write (R185, R186). -/
theorem regWrite_portErrA (p : Port) (v : Word64) (m : Mod) : regWrite (barOf p) 0x10008 8 v m =
    if p = .a then clearPortErr .a (written 0x10008 8 v) m else regError 0x10008 1 6 m := by
  rw [regWrite_assigned (g := { allowed := fun s => s.port == some .a, deny := 6, bad := anyCode, apply := clearPortErr .a }) (by decide) rfl]
  cases p <;> simp [anyCode, Port.num]

theorem clearPortErr_whole (p : Port) (off : Nat) (v : Word64) (m : Mod) : clearPortErr p (written off 8 v) m =
    onPort p (fun q => { q with err := q.err &&& ~~~(bitsOf v 0 _), viol := if v.getLsbD 0 then none else q.viol }) m := by
  simp only [clearPortErr, cleared_whole, writes1_whole]

/-- The missed-slot status word of pack `k` (R103). -/
theorem wregAt_missedSlots (m : Mod) (k : Pack) : wregAt m (0x40100 + 8 * k.val) = some (shared anyCode (clearMissed k)) := by
  fin_cases k <;> rfl

theorem missedSlots_plain (k : Pack) : plainAccess (0x40100 + 8 * k.val) 8 ∧ (0x40100 + 8 * k.val) / 8 * 8 = 0x40100 + 8 * k.val := by
  omega

/-- A port's write of CLEAR to a pack's missed-slot status word (R104). -/
theorem regWrite_missedSlots_clear (p : Port) (k : Pack) (m : Mod) :
    regWrite (barOf p) (0x40100 + 8 * k.val) 8 0x8000_0000#64 m = onPack k (fun x => { x with misses := 0, sinceBand := false }) m := by
  obtain ⟨hplain, hal⟩ := missedSlots_plain k
  rw [regWrite_shared_anyCode hplain (by rw [hal]; exact wregAt_missedSlots m k)]
  simp [clearMissed]

theorem regWrite_missedSlots_sideband (k : Pack) (v : Word64) (m : Mod) :
    regWrite .sideband (0x40100 + 8 * k.val) 8 v m = regError (0x40100 + 8 * k.val) 2 6 m := by
  obtain ⟨hplain, hal⟩ := missedSlots_plain k
  exact regWrite_shared_sideband hplain (by rw [hal]; exact wregAt_missedSlots m k)

/-! ### Sparse tables: a read after a write -/

section
variable {α : Type} (d : α) (t : List (Nat × α)) (k : Nat)

/-- A search for a key among the entries whose keys meet a condition. -/
theorem find?_filter_key (p : Nat → Bool) (j : Nat) :
    (t.filter (fun e => p e.1)).find? (fun e => e.1 == j) = if p j then t.find? (fun e => e.1 == j) else none := by
  have hkey : (fun e : Nat × α => decide (p e.1 = true ∧ (e.1 == j) = true)) = fun e => p j && e.1 == j := by
    funext e; by_cases he : e.1 = j <;> simp [he]
  rw [List.find?_filter, hkey]
  cases p j <;> simp

theorem find?_tabPut (v : α) (j : Nat) :
    (tabPut t k v).find? (fun e => e.1 == j) = if j = k then some (k, v) else t.find? (fun e => e.1 == j) := by
  rw [tabPut, List.find?_append, List.find?_cons, find?_filter_key t (fun i => decide (i < k)), find?_filter_key t (fun i => decide (k < i))]
  rcases Nat.lt_trichotomy j k with h | h | h
  · simp [h, Nat.ne_of_lt h, Nat.not_lt_of_gt h, beq_false_of_ne (Nat.ne_of_gt h)]
  · simp [h]
  · simp [h, Nat.ne_of_gt h, Nat.not_lt_of_gt h, beq_false_of_ne (Nat.ne_of_lt h)]

@[simp] theorem tabGet_tabPut_self (v : α) : tabGet d (tabPut t k v) k = v := by
  rw [tabGet, find?_tabPut, if_pos rfl]

theorem tabGet_tabPut_of_ne (v : α) {j : Nat} (h : j ≠ k) : tabGet d (tabPut t k v) j = tabGet d t j := by
  rw [tabGet, find?_tabPut, if_neg h, tabGet]

/-- Of two writes at one place the second stands. -/
@[simp] theorem tabPut_tabPut (v w : α) : tabPut (tabPut t k v) k w = tabPut t k w := by
  have hbelow : (t.filter (fun e => k < e.1)).filter (fun e => e.1 < k) = [] := by
    simp only [List.filter_eq_nil_iff, List.mem_filter, decide_eq_true_eq]; omega
  have habove : (t.filter (fun e => e.1 < k)).filter (fun e => k < e.1) = [] := by
    simp only [List.filter_eq_nil_iff, List.mem_filter, decide_eq_true_eq]; omega
  simp only [tabPut, List.filter_append, List.filter_cons, Nat.lt_irrefl, decide_false, Bool.false_eq_true, if_false, hbelow, habove,
    List.append_nil, List.nil_append, List.filter_filter, Bool.and_self]

theorem tabMod_tabMod (f g : α → α) : tabMod d (tabMod d t k f) k g = tabMod d t k (fun x => g (f x)) := by
  simp [tabMod]

end

/-! ### The MSI-X table (R179, R335) -/

theorem getLsbD_putBits {n w : Nat} (x : BitVec n) (lo : Nat) (v : BitVec w) (i : Nat) (hi : i < n) :
    (putBits x lo v).getLsbD i = if lo ≤ i ∧ i < lo + w then v.getLsbD (i - lo) else x.getLsbD i := by
  by_cases hlo : lo ≤ i
  · by_cases hw : i < lo + w
    · simp [putBits, hlo, hw, hi, show ¬ i < lo by omega, show i - lo < w by omega]
    · simp [putBits, hlo, hw, hi, show ¬ i < lo by omega, show w ≤ i - lo by omega]
  · simp [putBits, hlo, hi, show i < lo by omega]

theorem putBits_halves (x v : Word64) : putBits (putBits x 0 (v.setWidth 32)) 32 (bitsOf v 32 32) = v := by
  apply BitVec.eq_of_getLsbD_eq
  intro i hi
  rw [getLsbD_putBits _ _ _ _ hi, getLsbD_putBits _ _ _ _ hi]
  by_cases hlow : i < 32
  · simp [hlow, show ¬ 32 ≤ i by omega]
  · simp [show 32 ≤ i by omega, hi, show i - 32 < 32 by omega]

theorem onVector_onVector (p : Port) (k : Nat) (f g : Word64 × Word32 → Word64 × Word32) (m : Mod) :
    onVector p k g (onVector p k f m) = onVector p k (fun e => g (f e)) m := by
  simp [onVector, onPort, tabMod_tabMod]

/-- A write to entry `k` gives that entry its new words and leaves every other entry. -/
theorem onVector_table (p : Port) (k : Nat) (f : Word64 × Word32 → Word64 × Word32) (m : Mod) :
    let q := m.ports.get p
    ∃ t, onVector p k f m = { m with ports := m.ports.set p { q with msixTab := t } } ∧
      tabGet (0, 0) t k = f (tabGet (0, 0) q.msixTab k) ∧ ∀ j, j ≠ k → tabGet (0, 0) t j = tabGet (0, 0) q.msixTab j :=
  ⟨_, rfl, tabGet_tabPut_self .., fun _ hj => tabGet_tabPut_of_ne _ _ _ _ hj⟩

/-- A write to the table's 16 KiB of BAR4. -/
theorem otherBarWrite_table (p : Port) {off size : Nat} (v : Word64) (m : Mod) (hs : size = 4 ∨ size = 8) (hal : off % size = 0)
    (hoff : off < 0x4000) : otherBarWrite p .bar4 off size v m = tableWrite p off size v m := by
  simp [otherBarWrite, hs, hal, hoff]

/-- BAR2 has no register that REGISTER_WRITE changes (log entry 56). -/
theorem otherBarWrite_bar2 (p : Port) {off size : Nat} (v : Word64) (m : Mod) (hs : size = 4 ∨ size = 8) (hal : off % size = 0) :
    otherBarWrite p .bar2 off size v m = m := by
  simp [otherBarWrite, hs, hal]

theorem tableWrite_address (p : Port) (k : Nat) (v : Word64) (m : Mod) :
    tableWrite p (16 * k) 8 v m = onVector p k (fun e => (v, e.2)) m := by
  have hlow : 16 * k % 16 = 0 ∧ 16 * k / 16 = k := by omega
  have hhigh : (16 * k + 4) % 16 = 4 ∧ (16 * k + 4) / 16 = k := by omega
  simp only [tableWrite, tableDword, hlow, hhigh]
  simp [onVector_onVector, putBits_halves]

theorem tableWrite_data (p : Port) (k : Nat) (v : Word64) (m : Mod) :
    tableWrite p (16 * k + 8) 4 v m = onVector p k (fun e => (e.1, v.setWidth 32)) m := by
  have hdata : (16 * k + 8) % 16 = 8 ∧ (16 * k + 8) / 16 = k := by omega
  simp [tableWrite, tableDword, hdata]

/-- With every vector masked and none pending, a vector control dword whose mask bit is 0 unmasks its vector alone (R335). -/
theorem tableWrite_unmasks (p : Port) (k : Nat) (v : Word64) (m : Mod) (hon : (m.ports.get p).msixOn = [])
    (hpend : (m.ports.get p).msixPend = []) (hv : v.getLsbD 0 = false) :
    tableWrite p (16 * k + 12) 4 v m = { m with ports := m.ports.set p { m.ports.get p with msixOn := [k], msixPend := [] } } := by
  have hctl : (16 * k + 12) % 16 = 12 ∧ (16 * k + 12) / 16 = k := by omega
  have hmask : (v.setWidth 32).getLsbD 0 = false := by simpa using hv
  simp only [tableWrite, tableDword, hctl, maskWrite, hmask]
  simp [onPort, hon, hpend]

/-! ### Poisoned data (log entry 117) -/

/-- A port that has received poisoned CXL.io data: its bit of PORT_ERR and its AER bit are set. -/
def withPoison (q : PortSt) : PortSt :=
  { q with err := q.err ||| 2#8, aer := .poisonedTlp :: q.aer.filter (· != .poisonedTlp) }

theorem poisonedTlp_eq (p : Port) (m : Mod) : poisonedTlp p m = event 0x0308 0 (p.num + 4) (onPort p withPoison m) := by
  simp [poisonedTlp, setAer, onPort, withPoison]

/-! ### SLOTRD_DATA (R550, R551) -/

theorem slotDataRead_of_barOpen {p : Port} {s : State} (h : barOpen p s) : slotDataRead p s.m =
    { send (.regData p 8 (slotRdData (touch s.m))) (touch s.m) with slotSet := (slotRdSet (touch s.m)).elim 0 (·.setId) } := by
  have ⟨_, _, hd3, _⟩ := h
  rw [slotDataRead, hd3, Bool.and_false, if_neg Bool.false_ne_true, portAccess_of_barOpen _ h]

theorem slotRdSet_touch (m : Mod) : slotRdSet (touch m) = slotRdSet m := rfl

/-- The header of a read transfer in Run posts the register's bytes. -/
theorem sidebandHeader_of_run (fe : FrontEnd) (h : BitVec 32) (m : Mod) (hir : m.conn.ir ≠ 3) (hrun : m.power.state = 0)
    (hgood : hdrBad h = false) :
    sidebandHeader fe h m = { m with conn := { m.conn with header := some h, posted := some (readBytes fe h m) } } := by
  have hpins : pinsHeld m = false := by simpa [pinsHeld] using hir
  simp [sidebandHeader, hpins, hgood, wake_of_run _ m hrun, blocksUp, hrun, onConn]

/-- A sideband read returns what its header has posted. -/
theorem sidebandRead_of_posted (fe : FrontEnd) (n : Nat) (m : Mod) {h : BitVec 32} {l : List Byte} (hir : m.conn.ir ≠ 3)
    (hheader : m.conn.header = some h) (hposted : m.conn.posted = some l) :
    sidebandRead fe n m = send (.sideData ((l ++ List.replicate n 0xFF).take n)) m := by
  have hpins : pinsHeld m = false := by simpa [pinsHeld] using hir
  simp [sidebandRead, hpins, hheader, hposted]

/-- A whole read transfer in Run: its header and the read that follows. -/
theorem sidebandRead_sidebandHeader_of_run (fe : FrontEnd) (h : BitVec 32) (n : Nat) (m : Mod) (hir : m.conn.ir ≠ 3)
    (hrun : m.power.state = 0) (hgood : hdrBad h = false) :
    sidebandRead fe n (sidebandHeader fe h m) = send (.sideData ((readBytes fe h m ++ List.replicate n 0xFF).take n))
      { m with conn := { m.conn with header := some h, posted := some (readBytes fe h m) } } := by
  rw [sidebandHeader_of_run fe h m hir hrun hgood]
  exact sidebandRead_of_posted fe n _ hir rfl rfl

/-- The sideband does not read the schedule's block (R542): the header of SLOTRD_DATA posts zeros. -/
theorem readBytes_slotData (fe : FrontEnd) (m : Mod) : readBytes fe 0x04040208#32 m = List.replicate 8 0 := by
  have hoff : hdrOffset 0x04040208#32 = 0x40208 := rfl
  have hout : sideReads 0x40208 = false := rfl
  simp only [readBytes, regRead, hoff, hout, beq_self_eq_true, Bool.not_false, Bool.and_self, if_true]
  rfl

/-! ### The statement -/

/-- Settles O56: each clause is an access that reaches its register, with the equation of that register's write or read. -/
theorem registerWritesFollowTheRules : Obligations.RegisterWritesFollowTheRules := by
  unfold Obligations.RegisterWritesFollowTheRules
  refine ⟨fun p v s h => ?bar0, fun p v s h hon hpend hv => ?control, fun p k v s h hk => ?table, fun p off size v s h hs hal => ?bar2,
    fun p bar off size s h => ?poison, fun p bar off size v s hp htalks hd3 => ?d3hot, fun k p s h => ?clear,
    fun k s hp hir hrun => ?clearSideband, fun p s h => ?slotData, fun s hp hir hrun => ?slotDataSideband⟩
  case bar0 =>
    refine ⟨completes_bar0Write h (regWrite_cacheInsert ..), completes_bar0Write h (regWrite_cacheInsert_upper ..),
      completes_bar0Write h (regWrite_scratch0 ..), completes_bar0Write h (regWrite_scratch0_lower ..),
      completes_bar0Write h (regWrite_slotSel ..), fun l => completes_bar0Write h ?label, completes_bar0Write h ?portErr,
      completes_bar0Write h ?readOnly, completes_bar0Write h ?unassigned, fun off size h4 h8 ho => completes_bar0Write h ?size,
      fun off hoff ho => completes_bar0Write h ?aligned⟩
    case label => rw [regWrite_labelCfg]; split <;> rfl
    case portErr => rw [regWrite_portErrA, clearPortErr_whole]; split <;> rfl
    case readOnly => rw [regWrite_readOnly (by decide) rfl, barOf_code]
    case unassigned => rw [regWrite_unassigned (by decide) rfl, barOf_code]
    case size => rw [regWrite_misaligned _ _ _ _ _ ho (.inl (by omega)), barOf_code]
    case aligned => rw [regWrite_misaligned _ _ _ _ _ ho (.inr (by omega)), barOf_code]
  case control =>
    refine completes_otherBarWrite h (by decide) ?_
    rw [otherBarWrite_table p v _ (.inl rfl) rfl (by decide)]
    exact tableWrite_unmasks p 5 v (touch s.m) hon hpend hv
  case table =>
    refine ⟨completes_otherBarWrite h (by decide) ?address, completes_otherBarWrite h (by decide) ?data⟩
    case address =>
      rw [otherBarWrite_table p v _ (.inr rfl) (by omega) (by omega), tableWrite_address]
      exact onVector_table ..
    case data =>
      rw [otherBarWrite_table p v _ (.inl rfl) (by omega) (by omega), tableWrite_data]
      exact onVector_table ..
  case bar2 => exact completes_otherBarWrite h (by decide) (otherBarWrite_bar2 p v _ hs hal)
  case poison =>
    refine completes_of_onMod _ rfl h.1 ?_
    rw [portAccess_of_barOpen _ h]
    exact ⟨_, poisonedTlp_eq p _, by simp [onPort, withPoison], rfl, rfl, rfl, rfl⟩
  case d3hot => exact completes_of_onMod _ rfl hp (portAccess_of_d3hot p _ s.m htalks hd3)
  case clear =>
    refine completes_of_onMod _ rfl h.1 ?_
    rw [sourceWrite_of_barOpen _ _ h, regWrite_missedSlots_clear]
    rfl
  case clearSideband =>
    refine completes_of_onMod _ rfl hp ?_
    rw [sourceWrite_sideband_of_run _ _ _ hir hrun, regWrite_missedSlots_sideband]
  case slotData =>
    refine completes_of_onMod (slotDataRead p) (by cases p <;> rfl) h.1 ?_
    rw [slotDataRead_of_barOpen h, slotRdSet_touch]
  case slotDataSideband =>
    refine completes_of_onMod _ rfl hp ?_
    dsimp only [Source.port]
    rw [sidebandRead_sidebandHeader_of_run _ _ _ _ hir hrun rfl, readBytes_slotData]
    rfl

end Sys2Proof.Machine
end

