-- ==== Sys2Proof/Proofs/OscillatorsAndIslands.lean ====
section
/-! PROOFS. Oscillators and islands (O15): what ends with an OSC_TEST, what the loss of the timebase does to the module, and what a
transfer to an island comes to. -/
namespace Sys2Proof.Machine

open Sys2Proof.Stmt

/-! ### A switch ends an OSC_TEST (R525) -/

theorem ringsOnly_tb {m m' : Mod} (h : ringsOnly m m') : m'.tb = m.tb := by
  obtain ⟨_, _, _, _, _, _, _, _, _, rfl⟩ := h; rfl

theorem ringsOnly_mem {m m' : Mod} (h : ringsOnly m m') : m'.mem = m.mem := by
  obtain ⟨_, _, _, _, _, _, _, _, _, rfl⟩ := h; rfl

/-- The test leaves the timebase, and its command completes through the rings. -/
theorem oscTestAbort_ringsOnly (m : Mod) : ringsOnly { m with tb := { m.tb with test := none } } (oscTestAbort m) := by
  unfold oscTestAbort; split
  case h_1 hnone => rw [← hnone]; exact ringsOnly_refl m
  case h_2 => exact done_ringsOnly ..

@[simp] theorem oscTestAbort_tb (m : Mod) : (oscTestAbort m).tb = { m.tb with test := none } := ringsOnly_tb (oscTestAbort_ringsOnly m)
@[simp] theorem oscTestAbort_mem (m : Mod) : (oscTestAbort m).mem = m.mem := (ringsOnly_mem (oscTestAbort_ringsOnly m) :)

@[simp] theorem oscFailed_oscTestAbort (m : Mod) (o : Bool) : oscFailed (oscTestAbort m) o = oscFailed m o := by
  simp only [oscFailed, oscTestAbort_tb]

/-! ### The loss of the timebase (R38) -/

theorem setViral_stopFrame (m : Mod) : ∃ out, setViral (stopFrame m) =
    { m with sched := { m.sched with running := false }, packs := m.packs.map (fun p => { p with selfRefresh := true }),
             viral := true, out := out } := by
  obtain ⟨_, hstop⟩ := stopFrame_eq m
  rw [hstop]
  exact setViral_eq _

/-- The loss marks the timebase, stops the frame, sets viral, and logs its event. -/
theorem timebaseLost_eq {m : Mod} (hlost : m.tb.lost = false) : ∃ out, timebaseLost m = event 0x0107 0 0
    { m with tb := { m.tb with lost := true }, sched := { m.sched with running := false },
             packs := m.packs.map (fun p => { p with selfRefresh := true }), viral := true, out := out } := by
  obtain ⟨out, h⟩ := setViral_stopFrame { m with tb := { m.tb with lost := true } }
  exact ⟨out, by rw [timebaseLost, hlost, if_neg (by decide), h]⟩

/-- Both ways to lose the timebase end an OSC_TEST first. -/
theorem timebaseLost_oscTestAbort {m : Mod} (hlost : m.tb.lost = false) :
    let m' := timebaseLost (oscTestAbort m)
    m'.tb = { m.tb with lost := true, test := none } ∧ m'.sched.running = false ∧ m'.viral = true ∧
      (∀ pk : Pack, (m'.packs[pk] : PackSt).selfRefresh = true) ∧ m'.mem = m.mem := by
  obtain ⟨_, h⟩ := timebaseLost_eq (m := oscTestAbort m) (by rw [oscTestAbort_tb]; exact hlost)
  rw [h]
  simp

/-! ### Switch, loss and warning -/

theorem oscillatorsSwitchWarnAndFail : OscillatorsSwitchWarnAndFail := by
  refine ⟨fun cmp s hp hlost hfail => ?switch, fun cmp s hp hlost hfail => ?failedTwin, fun s hp hlost => ?lost,
    fun ppm s hp hlost => ?warning⟩
  case switch =>
    refine completes_of_onMod _ rfl hp ⟨_, ?_, rfl⟩
    simp [hlost, hfail]
  case failedTwin =>
    obtain ⟨htb, hframe⟩ := timebaseLost_oscTestAbort hlost
    refine completes_of_onMod _ rfl hp ?_
    simpa [hlost, hfail, htb] using hframe
  case lost =>
    obtain ⟨htb, hframe⟩ := timebaseLost_oscTestAbort hlost
    refine completes_of_onMod _ rfl hp ?_
    rw [htb]
    exact ⟨rfl, rfl, rfl, hframe⟩
  case warning => exact completes_of_onMod _ rfl hp (by simp only [hlost, and_true])

/-! ### Islands in reset (R35) -/

theorem exec_islandDownResponse (i : Fin 60) (s : State) : exec (.islandDownResponse i) s =
    .next (onMod (fun m => if islandHeld m i.val then send (.islandDown i.val) m else m) s) := rfl

/-- A command that leaves the module as it is leaves the state as it is, with power or without. -/
theorem onMod_of_fixed (f : Mod → Mod) (s : State) (h : f s.m = s.m) : onMod f s = s := by
  simp [onMod, h]

theorem islandStationsAnswer : IslandStationsAnswer := by
  refine ⟨fun i s hp hheld => ?held, fun i s hup => ?up⟩
  case held => rw [exec_islandDownResponse, onMod_of_powered _ s hp, if_pos hheld, send]
  case up =>
    rw [exec_islandDownResponse, onMod_of_fixed _ s]
    simp [hup]

/-! ### The statement -/

/-- Settles O15: a switch and a loss both end an OSC_TEST through the rings alone, and the loss stops the frame, sets viral and logs its event. -/
theorem oscillatorsAndIslandsAnswer : Obligations.OscillatorsAndIslandsAnswer :=
  ⟨oscillatorsSwitchWarnAndFail, islandStationsAnswer⟩

end Sys2Proof.Machine
end

