-- ==== Sys2Proof/Proofs/StoredBatts.lean ====
section
/-! PROOFS. Stored batts and device addresses (O9, O10): a batt as its byte string and back, the DRAM image after a batt is stored,
and the fields of a batt's device address. -/
namespace Sys2Proof.Machine

/-! ### Little-endian byte strings (R5) -/

theorem leNat_append (l r : List Byte) : leNat (l ++ r) = leNat l + 2 ^ (8 * l.length) * leNat r := by
  induction l with
  | nil => simp [leNat]
  | cons b l ih =>
    have hpow : 2 ^ (8 * (l.length + 1)) = 256 * 2 ^ (8 * l.length) := by rw [Nat.mul_add, Nat.pow_add, Nat.mul_comm]
    have hcons : ∀ l, leNat (b :: l) = b.toNat + 256 * leNat l := fun _ => rfl
    rw [List.cons_append, hcons, hcons, ih, List.length_cons, hpow]
    ring

@[simp] theorem toBytes_length {n : Nat} (x : BitVec n) (k : Nat) : (toBytes x k).length = k := by simp [toBytes]

theorem leNat_toBytes {n : Nat} (x : BitVec n) (k : Nat) : leNat (toBytes x k) = x.toNat % 2 ^ (8 * k) := by
  induction k with
  | zero => simp [toBytes, leNat, Nat.mod_one]
  | succ k ih =>
    have hsucc : toBytes x (k + 1) = toBytes x k ++ [byteOf x k] := by simp [toBytes, List.range_succ]
    have hlast : leNat [byteOf x k] = x.toNat / 2 ^ (8 * k) % 2 ^ 8 := by simp [leNat, Nat.shiftRight_eq_div_pow]
    rw [hsucc, leNat_append, ih, toBytes_length, hlast, Nat.mul_add, Nat.pow_add, Nat.mod_mul]

/-- A batt is the word that its 256 bytes spell. -/
theorem ofBytes_toBytes (b : Batt) : ofBytes 2048 (toBytes b 256) = b := by
  rw [ofBytes, leNat_toBytes, Nat.mod_eq_of_lt b.isLt, BitVec.ofNat_toNat, BitVec.setWidth_eq]

/-! ### The DRAM image after a batt is stored (R44, R46) -/

theorem memByte_memPutBatt (mem : List Host.Cell) (da : Nat) (b : Batt) (a : Nat) :
    memByte (memPutBatt mem da b) a = if da ≤ a ∧ a < da + 256 then byteOf b (a - da) else memByte mem a := by
  rw [memPutBatt, memByte_memWrite, toBytes_length]
  split
  next h => simp [toBytes, List.getD_eq_getElem?_getD, show a - da < 256 by omega]
  next => rfl

theorem memBytes_memPutBatt (mem : List Host.Cell) (da : Nat) (b : Batt) : memBytes (memPutBatt mem da b) da 256 = toBytes b 256 := by
  refine List.map_congr_left fun i hi => ?_
  have hi : i < 256 := List.mem_range.mp hi
  rw [memByte_memPutBatt, if_pos (by omega), Nat.add_sub_cancel_left]

@[simp] theorem memBatt_memPutBatt (mem : List Host.Cell) (da : Nat) (b : Batt) : memBatt (memPutBatt mem da b) da = b := by
  rw [memBatt, memBytes_memPutBatt, ofBytes_toBytes]

/-- Settles O9: the image reads the batt's own bytes at its 256 addresses, and what it read before at every other. -/
theorem storedBattsReadBack : Obligations.StoredBattsReadBack := fun mem da b =>
  ⟨memBatt_memPutBatt mem da b, fun a ha => by rw [memByte_memPutBatt, if_neg (by omega)]⟩

/-! ### Device addresses (R46) -/

theorem toNat_bitsOf {n : Nat} (x : BitVec n) (lo len : Nat) : (bitsOf x lo len).toNat = x.toNat / 2 ^ lo % 2 ^ len := by
  rw [BitVec.extractLsb'_toNat, Nat.shiftRight_eq_div_pow]

/-- The fields of a batt's address by place. The field at bit 15 holds the bank XOR the low bits of the row. -/
theorem daOf_div (pk : Pack) (rb row col : Nat) (hrow : row < 2 ^ 18) (hcol : col < 64) :
    let da := daOf pk rb row col
    da / 2 ^ 39 = pk.val / 2 ∧ da / 2 ^ 21 = pk.val / 2 * 2 ^ 18 + row ∧
      da / 2 ^ 19 = pk.val / 2 * 2 ^ 20 + row * 4 + rb / 16 % 4 ∧
      da / 2 ^ 15 % 16 = (rb % 16) ^^^ (row % 16) ∧ da / 2 ^ 9 % 64 = col ∧ da / 256 % 2 = pk.val % 2 := by
  have hz : (rb % 16) ^^^ (row % 16) < 2 ^ 4 := Nat.xor_lt_two_pow (Nat.mod_lt _ (by decide)) (Nat.mod_lt _ (by decide))
  have hr : rb / 16 % 4 < 4 := Nat.mod_lt _ (by decide)
  simp only [daOf]
  generalize (rb % 16) ^^^ (row % 16) = z at hz ⊢
  generalize rb / 16 % 4 = r at hr ⊢
  omega

/-- XOR with the row a second time gives the bank back. -/
theorem daBank_daOf (pk : Pack) (rb row col : Nat) (hrow : row < 2 ^ 18) (hcol : col < 64) :
    daBank (daOf pk rb row col) = rb % 16 := by
  obtain ⟨-, hda, -, hbank, -⟩ := daOf_div pk rb row col hrow hcol
  have hlow : (pk.val / 2 * 2 ^ 18 + row) % 16 = row % 16 := by omega
  rw [daBank, hbank, hda, hlow, Nat.xor_assoc, Nat.xor_self, Nat.xor_zero]

@[simp] theorem battOf_daOf (pk : Pack) (rb row col : Nat) : battOf (daOf pk rb row col) = daOf pk rb row col := by
  simp only [battOf, daOf]; omega

/-- Settles O10: the fields are quotients and remainders of the address, and each is read back from the sum that `daOf` forms. -/
theorem deviceAddressesMapAndRoundTrip : Obligations.DeviceAddressesMapAndRoundTrip := by
  refine ⟨fun d => ?fields, fun pk rb row col hrb hrow hcol => ?back⟩
  case fields =>
    simp only [toNat_bitsOf, BitVec.toNat_xor]
    refine ⟨?_, rfl, rfl, rfl, rfl, rfl, ?_⟩
    · simp only [daPack]; omega
    · simp only [battOf]; omega
  case back =>
    obtain ⟨htile, hda, hrank, -, hcolumn, hpack⟩ := daOf_div pk rb row col hrow hcol
    have hbank := daBank_daOf pk rb row col hrow hcol
    refine ⟨Fin.ext ?_, Fin.ext ?_, ?_, ?_, hcolumn, battOf_daOf .., ?_⟩
    · simp only [daPack, htile, hpack]; omega
    · simp only [daTile, packTile, htile]; omega
    · simp only [daRB, daRank, hbank, hrank]; omega
    · simp only [daRow, hda]; omega
    · omega

end Sys2Proof.Machine
end

