-- ==== Sys2Proof/Proofs/BeatDecoding.lean ====
section
/-! PROOFS. Beat decoding (O11): the field GF(2^8) of R47, the syndromes of a codeword with errors, and each case of R48. -/
namespace Sys2Proof.Machine

open Sys2Proof.Stmt

/-! ### Multiplication by α -/

theorem gfX_xor (a b : Byte) : gfX (a ^^^ b) = gfX a ^^^ gfX b := by
  unfold gfX
  rw [BitVec.getLsbD_xor, BitVec.shiftLeft_xor_distrib]
  cases a.getLsbD 7 <;> cases b.getLsbD 7 <;> simp only [Bool.xor_false, Bool.false_xor, Bool.xor_self, Bool.false_eq_true, if_true, if_false]
  · ac_rfl
  · ac_rfl
  · rw [BitVec.xor_assoc (a <<< 1), BitVec.xor_comm 0x1D#8, BitVec.xor_assoc (b <<< 1), BitVec.xor_self, BitVec.xor_zero]

@[simp] theorem gfXn_zero (a : Byte) : gfXn 0 a = a := rfl

theorem gfXn_succ (n : Nat) (a : Byte) : gfXn (n + 1) a = gfX (gfXn n a) := by
  induction n generalizing a with
  | zero => rfl
  | succ n ih => exact ih (gfX a)

theorem gfXn_add (i j : Nat) (a : Byte) : gfXn (i + j) a = gfXn i (gfXn j a) := by
  induction i with
  | zero => simp
  | succ i ih => rw [Nat.succ_add, gfXn_succ, ih, gfXn_succ]

theorem gfXn_xor (n : Nat) (a b : Byte) : gfXn n (a ^^^ b) = gfXn n a ^^^ gfXn n b := by
  induction n with
  | zero => rfl
  | succ n ih => rw [gfXn_succ, gfXn_succ, gfXn_succ, ih, gfX_xor]

@[simp] theorem gfXn_of_zero (n : Nat) : gfXn n 0#8 = 0#8 := by
  induction n with
  | zero => rfl
  | succ n ih => rw [gfXn_succ, ih]; rfl

theorem gfX_eq_zero : ∀ a : Byte, gfX a = 0 → a = 0 := by decide +kernel

theorem gfX_injective : Function.Injective gfX := fun a b h =>
  BitVec.xor_eq_zero_iff.mp (gfX_eq_zero _ (by rw [gfX_xor, h, BitVec.xor_self]; rfl))

theorem gfXn_injective (n : Nat) : Function.Injective (gfXn n) := by
  induction n with
  | zero => exact fun _ _ h => h
  | succ n ih => exact fun a b h => ih (gfX_injective (by rwa [← gfXn_succ, ← gfXn_succ]))

/-! ### Every element that is not zero is a power of α -/

theorem gfXn_255 : gfXn 255 1 = 1 := by decide +kernel

theorem gfXn_ne_one : ∀ k : Fin 255, k.val ≠ 0 → gfXn k.val 1 ≠ 1 := by decide +kernel

/-- The powers of α below the 255th differ. -/
theorem gfXn_one_injective {i j : Nat} (hi : i < 255) (hj : j < 255) (h : gfXn i 1 = gfXn j 1) : i = j := by
  wlog hij : i ≤ j generalizing i j
  · exact (this hj hi h.symm (by omega)).symm
  have hone : gfXn (j - i) 1 = 1 := by
    apply gfXn_injective i
    rw [← gfXn_add, h, Nat.add_sub_cancel' hij]
  by_contra hne
  exact gfXn_ne_one ⟨j - i, by omega⟩ (show j - i ≠ 0 by omega) hone

/-- Zero and the 255 powers of α. -/
def zeroOrPower : Option (Fin 255) → Byte
  | none => 0
  | some k => gfXn k.val 1

theorem gfXn_one_ne_zero (k : Nat) : gfXn k 1 ≠ 0 := fun h => absurd (gfXn_injective k (h.trans (gfXn_of_zero k).symm)) (by decide)

theorem zeroOrPower_injective : Function.Injective zeroOrPower := by
  rintro (_ | i) (_ | j) h
  · rfl
  · exact absurd h.symm (gfXn_one_ne_zero _)
  · exact absurd h (gfXn_one_ne_zero _)
  · rw [Fin.ext (gfXn_one_injective i.isLt j.isLt h)]

/-- There are as many of them as bytes. -/
theorem zeroOrPower_surjective : Function.Surjective zeroOrPower := by
  have hcard : Nat.card Byte = 2 ^ 8 := by rw [Nat.card_congr BitVec.equivFin.toEquiv, Nat.card_fin]
  have hfin : Finite Byte := Finite.of_equiv _ BitVec.equivFin.toEquiv.symm
  exact (zeroOrPower_injective.bijective_of_nat_card_le (by rw [hcard]; simp)).surjective

theorem exists_gfXn (a : Byte) (h : a ≠ 0) : ∃ k, a = gfXn k 1 := by
  obtain ⟨_ | k, hk⟩ := zeroOrPower_surjective a
  · exact absurd hk.symm h
  · exact ⟨k.val, hk.symm⟩

/-! ### Products -/

/-- An element, or nothing, by a bit. -/
def gfTimesBit (c : Bool) (a : Byte) : Byte := if c then a else 0

theorem gfTimesBit_xor (c d : Bool) (a : Byte) : gfTimesBit (c ^^ d) a = gfTimesBit c a ^^^ gfTimesBit d a := by
  cases c <;> cases d <;> simp [gfTimesBit]

theorem gfX_gfTimesBit (c : Bool) (a : Byte) : gfX (gfTimesBit c a) = gfTimesBit c (gfX a) := by
  cases c
  · exact gfXn_of_zero 1
  · rfl

theorem gfMul_eq (a b : Byte) : gfMul a b =
    gfTimesBit (b.getLsbD 0) a ^^^ gfTimesBit (b.getLsbD 1) (gfXn 1 a) ^^^ gfTimesBit (b.getLsbD 2) (gfXn 2 a) ^^^
    gfTimesBit (b.getLsbD 3) (gfXn 3 a) ^^^ gfTimesBit (b.getLsbD 4) (gfXn 4 a) ^^^ gfTimesBit (b.getLsbD 5) (gfXn 5 a) ^^^
    gfTimesBit (b.getLsbD 6) (gfXn 6 a) ^^^ gfTimesBit (b.getLsbD 7) (gfXn 7 a) := by
  have hterm : ∀ acc x (c : Bool), (if c then acc ^^^ x else acc) = acc ^^^ gfTimesBit c x := by
    intro acc x c; cases c <;> simp [gfTimesBit]
  have hrange : List.range 8 = [0, 1, 2, 3, 4, 5, 6, 7] := rfl
  simp only [gfMul, hterm, hrange, List.foldl_cons, List.foldl_nil, BitVec.zero_xor, gfXn_zero]

/-- The polynomial of R47: α^8 = α^4 + α^3 + α^2 + 1. -/
theorem gfXn_eight : ∀ a : Byte, gfXn 8 a = gfXn 4 a ^^^ gfXn 3 a ^^^ gfXn 2 a ^^^ a := by decide +kernel

theorem getLsbD_gfX (b : Byte) (i : Nat) (hi : i < 8) :
    (gfX b).getLsbD i = ((decide (0 < i) && b.getLsbD (i - 1)) ^^ (b.getLsbD 7 && (0x1D#8).getLsbD i)) := by
  cases i with
  | zero => unfold gfX; cases b.getLsbD 7 <;> simp
  | succ n => unfold gfX; cases b.getLsbD 7 <;> simp [hi, BitVec.getLsbD_eq_getElem (show n < 8 by omega)]

/-- A product by α·b is α times the product: the bit of α^8 stands for its four lower powers. -/
theorem gfMul_gfX (a b : Byte) : gfMul a (gfX b) = gfX (gfMul a b) := by
  have h8 : gfX (gfXn 7 a) = gfXn 4 a ^^^ gfXn 3 a ^^^ gfXn 2 a ^^^ a := by rw [← gfXn_succ, gfXn_eight]
  have hsum : ∀ c x y, gfTimesBit c (x ^^^ y) = gfTimesBit c x ^^^ gfTimesBit c y := by
    intro c x y; cases c <;> simp [gfTimesBit]
  simp only [gfMul_eq, gfX_xor, gfX_gfTimesBit, h8, hsum, ← gfXn_succ, getLsbD_gfX, Nat.reduceLT]
  simp [gfTimesBit_xor]
  ac_rfl

theorem gfMul_gfXn (n : Nat) (a b : Byte) : gfMul a (gfXn n b) = gfXn n (gfMul a b) := by
  induction n with
  | zero => rfl
  | succ n ih => rw [gfXn_succ, gfXn_succ, gfMul_gfX, ih]

/-- A product by a power of α. -/
@[simp] theorem gfMul_gfXn_one (n : Nat) (a : Byte) : gfMul a (gfXn n 1) = gfXn n a := by
  have hone : gfMul a 1 = a := by simp [gfMul_eq, gfTimesBit]
  rw [gfMul_gfXn, hone]

/-! ### Quotients -/

theorem foldl_gfMul_gfXn (k n : Nat) (a : Byte) : (List.range n).foldl (fun acc _ => gfMul acc (gfXn k 1)) a = gfXn (n * k) a := by
  induction n with
  | zero => simp
  | succ n ih => rw [List.range_succ, List.foldl_append, ih, List.foldl_cons, List.foldl_nil, gfMul_gfXn_one, ← gfXn_add]; congr 1; ring

/-- The inverse of α^k is α^(254·k). -/
theorem gfInv_gfXn_one (k : Nat) : gfInv (gfXn k 1) = gfXn (254 * k) 1 := by
  rw [gfInv, foldl_gfMul_gfXn, ← gfXn_add]; congr 1; ring

theorem gfXn_255_mul (k : Nat) (a : Byte) : gfXn (255 * k) a = a := by
  have hperiod : ∀ a, gfXn 255 a = a := fun a => by
    rw [← gfMul_gfXn_one, gfXn_255]; exact gfMul_gfXn_one 0 a
  induction k with
  | zero => rfl
  | succ k ih => rw [Nat.mul_succ, gfXn_add, hperiod, ih]

/-- A quotient, multiplied back. -/
theorem gfMul_gfInv_cancel (a d : Byte) (hd : d ≠ 0) : gfMul (gfMul a (gfInv d)) d = a := by
  obtain ⟨k, rfl⟩ := exists_gfXn d hd
  rw [gfInv_gfXn_one, gfMul_gfXn_one, gfMul_gfXn_one, ← gfXn_add]
  calc gfXn (k + 254 * k) a = gfXn (255 * k) a := by congr 1; ring
    _ = a := gfXn_255_mul k a

/-- An element that is not zero has different products by different powers of α. -/
theorem gfXn_exponent_inj {i j : Nat} {v : Byte} (hi : i < 255) (hj : j < 255) (hv : v ≠ 0) (h : gfXn i v = gfXn j v) : i = j := by
  obtain ⟨k, rfl⟩ := exists_gfXn v hv
  rw [← gfXn_add, ← gfXn_add, Nat.add_comm i, Nat.add_comm j, gfXn_add, gfXn_add] at h
  exact gfXn_one_injective hi hj (gfXn_injective k h)

/-! ### Sums of a beat's bytes -/

/-- The sum of a list of elements. -/
def gfSum (l : List Byte) : Byte := l.foldl (· ^^^ ·) 0#8

@[simp] theorem gfSum_nil : gfSum [] = 0#8 := rfl

theorem gfSum_append (l r : List Byte) : gfSum (l ++ r) = gfSum l ^^^ gfSum r := by
  have hstart : ∀ (l : List Byte) a, l.foldl (· ^^^ ·) a = a ^^^ gfSum l := by
    intro l a
    induction l generalizing a with
    | nil => simp
    | cons b l ih => rw [gfSum, List.foldl_cons, List.foldl_cons, ih, ih, BitVec.zero_xor, BitVec.xor_assoc]
  rw [gfSum, List.foldl_append, hstart]; rfl

@[simp] theorem gfSum_cons (b : Byte) (l : List Byte) : gfSum (b :: l) = b ^^^ gfSum l := by
  rw [← List.singleton_append, gfSum_append]
  simp [gfSum]

theorem gfX_gfSum (l : List Byte) : gfX (gfSum l) = gfSum (l.map gfX) := by
  induction l with
  | nil => rfl
  | cons b l ih => simp [gfX_xor, ih]

/-- The bytes weighted by falling powers of α, from α^n on. -/
def weighted (n : Nat) (l : List Byte) : List Byte := l.mapIdx (fun i b => gfXn (n - i) b)

theorem syndromes_eq (c : List Byte) : syndromes c = (gfSum c, gfSum (weighted 17 c)) := rfl

theorem gfSum_weighted_succ (n : Nat) (l : List Byte) (h : l.length ≤ n + 1) :
    gfSum (weighted (n + 1) l) = gfX (gfSum (weighted n l)) := by
  rw [gfX_gfSum]
  congr 1
  refine List.ext_getElem (by simp [weighted]) fun i hi _ => ?_
  have hi : i ≤ n := by simp [weighted] at hi; omega
  simp [weighted, ← gfXn_succ, Nat.succ_sub hi]

theorem gfSum_weighted_concat (n : Nat) (l : List Byte) (b : Byte) :
    gfSum (weighted n (l ++ [b])) = gfSum (weighted n l) ^^^ gfXn (n - l.length) b := by
  rw [weighted, List.mapIdx_concat, gfSum_append]
  simp [weighted]

/-! ### Check bytes (R47) -/

theorem byte_xor_left_comm (a b c : Byte) : a ^^^ (b ^^^ c) = b ^^^ (a ^^^ c) := by ac_rfl

theorem gfMul_two : ∀ q : Byte, gfMul 2 q = gfX q := by decide +kernel
theorem gfMul_three : ∀ q : Byte, gfMul 3 q = gfX q ^^^ q := by decide +kernel

theorem checkBytes_concat (d : List Byte) (b : Byte) : checkBytes (d ++ [b]) =
    let q := (checkBytes d).1 ^^^ b
    ((checkBytes d).2 ^^^ gfMul 3 q, gfMul 2 q) := by
  rw [checkBytes, List.foldl_append]; rfl

/-- The remainder of R47 at the two roots of g(x), 1 and α: there it agrees with the bytes' polynomial. -/
theorem checkBytes_roots (d : List Byte) : (checkBytes d).1 ^^^ (checkBytes d).2 = gfSum d ∧
    gfX (checkBytes d).1 ^^^ (checkBytes d).2 = gfSum (weighted (d.length + 1) d) := by
  induction d using List.reverseRecOn with
  | nil => exact ⟨rfl, rfl⟩
  | append_singleton d b ih =>
    obtain ⟨hone, halpha⟩ := ih
    have hlen : (d ++ [b]).length = d.length + 1 := by simp
    have hlast : d.length + 1 + 1 - d.length = 2 := by omega
    rw [gfSum_append, ← hone, hlen, gfSum_weighted_concat, gfSum_weighted_succ _ _ (by omega), ← halpha, checkBytes_concat, hlast]
    simp only [gfMul_two, gfMul_three, gfX_xor, gfSum_cons, gfSum_nil, gfXn_succ, gfXn_zero]
    generalize (checkBytes d).1 = r1, (checkBytes d).2 = r2
    constructor <;> simp [byte_xor_left_comm, BitVec.xor_comm]

/-- A codeword's syndromes are zero. -/
theorem syndromes_codeword (d : List Byte) (h : d.length = 16) : syndromes (codeword d) = (0, 0) := by
  obtain ⟨hone, halpha⟩ := checkBytes_roots d
  rw [h] at halpha
  have hweighted : weighted 17 (codeword d) = weighted 17 d ++ [gfX (checkBytes d).1, (checkBytes d).2] := by
    rw [codeword, weighted, List.mapIdx_append, h]; rfl
  rw [syndromes_eq, hweighted, codeword, gfSum_append, gfSum_append, ← hone, ← halpha]
  simp

/-! ### A wrong byte -/

@[simp] theorem length_xorAt (c : List Byte) (i : Nat) (v : Byte) : (xorAt c i v).length = c.length := by simp [xorAt]

theorem xorAt_xorAt_self (c : List Byte) (i : Nat) (v : Byte) : xorAt (xorAt c i v) i v = c := by
  refine List.ext_getElem (by simp) fun j _ _ => ?_
  by_cases hj : j = i <;> simp [xorAt, hj]

theorem xorAt_cons_succ (b : Byte) (c : List Byte) (i : Nat) (v : Byte) : xorAt (b :: c) (i + 1) v = b :: xorAt c i v := by
  simp [xorAt]

theorem xorAt_cons_zero (b : Byte) (c : List Byte) (v : Byte) : xorAt (b :: c) 0 v = (b ^^^ v) :: c := by
  refine List.ext_getElem (by simp) fun j _ _ => ?_
  cases j <;> simp [xorAt]

theorem gfSum_xorAt (c : List Byte) (i : Nat) (v : Byte) (h : i < c.length) : gfSum (xorAt c i v) = gfSum c ^^^ v := by
  induction c generalizing i with
  | nil => exact absurd h (Nat.not_lt_zero _)
  | cons b c ih =>
    cases i with
    | zero => rw [xorAt_cons_zero, gfSum_cons, gfSum_cons, BitVec.xor_assoc, BitVec.xor_comm v, BitVec.xor_assoc]
    | succ i => rw [xorAt_cons_succ, gfSum_cons, gfSum_cons, ih i (Nat.lt_of_succ_lt_succ h), BitVec.xor_assoc]

theorem weighted_xorAt (n : Nat) (c : List Byte) (i : Nat) (v : Byte) :
    weighted n (xorAt c i v) = xorAt (weighted n c) i (gfXn (n - i) v) := by
  refine List.ext_getElem (by simp [weighted]) fun j _ _ => ?_
  by_cases hj : j = i <;> simp [xorAt, weighted, hj, gfXn_xor]

/-- The syndromes after an error `v` at position `i`. -/
theorem syndromes_xorAt (c : List Byte) (i : Nat) (v : Byte) (h : i < c.length) :
    syndromes (xorAt c i v) = ((syndromes c).1 ^^^ v, (syndromes c).2 ^^^ gfXn (17 - i) v) := by
  rw [syndromes_eq, syndromes_eq, weighted_xorAt, gfSum_xorAt _ _ _ h, gfSum_xorAt _ _ _ (by simpa [weighted] using h)]

/-! ### The cases of R48 -/

/-- At most one position fits two syndromes that are not zero. -/
theorem find?_position {s0 s1 : Byte} {u : Nat} (hu : u < 18) (h0 : s0 ≠ 0) (h : s1 = gfXn u s0) :
    (List.range 18).find? (fun u => gfXn u s0 == s1) = some u := by
  cases hfind : (List.range 18).find? (fun u => gfXn u s0 == s1) with
  | none => exact absurd h.symm (by simpa using List.find?_eq_none.mp hfind u (List.mem_range.mpr hu))
  | some w =>
    have hw : w < 18 := List.mem_range.mp (List.mem_of_find?_eq_some hfind)
    have hfits : gfXn w s0 = gfXn u s0 := by rw [← h]; simpa using List.find?_some hfind
    rw [gfXn_exponent_inj (by omega) (by omega) h0 hfits]

section
variable (c : List Byte) {s0 s1 : Byte} (hs : syndromes c = (s0, s1))
include hs

theorem decodeBeat_good (h0 : s0 = 0) (h1 : s1 = 0) : decodeBeat [] c = some (c, []) := by
  simp [decodeBeat, hs, h0, h1]

theorem decodeBeat_one {u : Nat} (hu : u < 18) (h0 : s0 ≠ 0) (h1 : s1 ≠ 0) (h : s1 = gfXn u s0) :
    decodeBeat [] c = some (xorAt c (17 - u) s0, [17 - u]) := by
  simp only [decodeBeat, hs, find?_position hu h0 h, beq_false_of_ne h0, beq_false_of_ne h1]
  rfl

theorem decodeBeat_uncorrectable (hbad : ¬ (s0 = 0 ∧ s1 = 0)) (h : ¬ (s0 ≠ 0 ∧ s1 ≠ 0 ∧ ∃ u, u < 18 ∧ s1 = gfXn u s0)) :
    decodeBeat [] c = none := by
  by_cases h0 : s0 = 0
  · have h1 : s1 ≠ 0 := fun h1 => hbad ⟨h0, h1⟩
    simpa [decodeBeat, hs, h0] using h1
  · by_cases h1 : s1 = 0
    · simpa [decodeBeat, hs, h1] using h0
    · have hfind : (List.range 18).find? (fun u => gfXn u s0 == s1) = none :=
        List.find?_eq_none.mpr fun u hu hfits =>
          h ⟨h0, h1, u, List.mem_range.mp hu, (eq_of_beq hfits).symm⟩
      simp only [decodeBeat, hs, hfind, ite_self, beq_false_of_ne h0]
      rfl

theorem decodeBeat_erased (e : Nat) : decodeBeat [e] c =
    if s1 = gfXn (17 - e) s0 then some (xorAt c e s0, if s0 = 0 then [] else [e]) else none := by
  simp [decodeBeat, hs]

end

/-- The erasures of two positions have different powers of α. -/
theorem gfXn_one_xor_ne_zero {i j : Nat} (hi : i < 255) (hj : j < 255) (h : i ≠ j) : gfXn i 1 ^^^ gfXn j 1 ≠ 0 := fun hx =>
  h (gfXn_one_injective hi hj (BitVec.xor_eq_zero_iff.mp hx))

theorem decodeBeat_many (c : List Byte) (l : List Nat) (h : 3 ≤ l.length) : decodeBeat l c = none := by
  match l, h with
  | _ :: _ :: _ :: _, _ => rfl

/-- Any one wrong byte of a codeword is put right, with its position erased or not. -/
theorem decodeBeat_codeword_xorAt (d : List Byte) (hd : d.length = 16) (i : Nat) (v : Byte) (hi : i < 18) (hv : v ≠ 0) :
    decodeBeat [] (xorAt (codeword d) i v) = some (codeword d, [i]) ∧
      decodeBeat [i] (xorAt (codeword d) i v) = some (codeword d, [i]) := by
  have hlen : i < (codeword d).length := by simp [codeword, hd, hi]
  have hs : syndromes (xorAt (codeword d) i v) = (v, gfXn (17 - i) v) := by
    rw [syndromes_xorAt _ _ _ hlen, syndromes_codeword d hd]; simp
  have hpos : 17 - (17 - i) = i := by omega
  have hne : gfXn (17 - i) v ≠ 0 := fun h => hv (gfXn_injective _ (h.trans (gfXn_of_zero _).symm))
  constructor
  · rw [decodeBeat_one _ hs (show 17 - i < 18 by omega) hv hne rfl, hpos, xorAt_xorAt_self]
  · rw [decodeBeat_erased _ hs, if_pos rfl, if_neg hv, xorAt_xorAt_self]

/-- Settles O11: the syndromes of one wrong byte fit its position alone, and a quotient in GF(2^8) gives the first of two erased bytes. -/
theorem beatsDecodeFromTheirSyndromes : Obligations.BeatsDecodeFromTheirSyndromes := by
  refine ⟨fun c _ => ?beat, fun d hd => ⟨decodeBeat_good _ (syndromes_codeword d hd) rfl rfl, decodeBeat_codeword_xorAt d hd⟩⟩
  case beat =>
    have hs : syndromes c = (c.foldl (· ^^^ ·) 0#8, (syndromes c).2) := rfl
    simp only [gfMul_gfXn_one]
    refine ⟨decodeBeat_good c hs, fun u hu h0 h1 h => decodeBeat_one c hs hu h0 h1 h, decodeBeat_uncorrectable c hs,
      fun e _ => ⟨fun h => ⟨_, by rw [decodeBeat_erased c hs, if_pos h]⟩, fun h => by rw [decodeBeat_erased c hs, if_neg h]⟩,
      fun e1 e2 h1 h2 hne => ?two, decodeBeat_many c⟩
    case two =>
      refine ⟨_, _, ?_, rfl⟩
      rw [gfMul_gfInv_cancel _ _ (gfXn_one_xor_ne_zero (by omega) (by omega) (by omega)), gfMul_gfXn_one]
      rfl

end Sys2Proof.Machine
end

