-- ==== Sys2Proof/Proofs/FillFrames.lean ====
section
/-! PROOFS. The end of a fill frame (O12): one pack's state after a change of a pack, and the fields that the fill of a tile writes. -/
namespace Sys2Proof.Machine

open Sys2Proof.Stmt

/-! ### One pack after a change of a pack -/

theorem packs_onPack_self (pk : Pack) (f : PackSt → PackSt) (m : Mod) : ((onPack pk f m).packs[pk] : PackSt) = f m.packs[pk] := by
  simp

theorem packs_onPack_of_ne {pk q : Pack} (f : PackSt → PackSt) (m : Mod) (h : q ≠ pk) :
    ((onPack pk f m).packs[q] : PackSt) = m.packs[q] :=
  Vector.getElem_set_ne pk.isLt q.isLt fun hval => h (Fin.ext hval.symm)

theorem packs_onPack (pk q : Pack) (f : PackSt → PackSt) (m : Mod) :
    ((onPack pk f m).packs[q] : PackSt) = if q = pk then f m.packs[q] else m.packs[q] := by
  split
  next h => rw [h, packs_onPack_self]
  next h => exact packs_onPack_of_ne f m h

/-- Two changes of one pack are one change. -/
theorem onPack_onPack (pk : Pack) (f g : PackSt → PackSt) (m : Mod) : onPack pk g (onPack pk f m) = onPack pk (fun p => g (f p)) m := by
  simp [onPack]

/-! ### The fill of a tile (R69) -/

/-- A pack that its fill frame has filled. -/
def filledPack (p : PackSt) : PackSt := { p with markers := [], poisonList := [], poisonPend := [], patrol := [], selfRefresh := false }

theorem packTile_eq_iff (t : Tile) (pk : Pack) : packTile pk = t ↔ pk = ⟨2 * t.val, by omega⟩ ∨ pk = ⟨2 * t.val + 1, by omega⟩ := by
  simp only [packTile, Fin.ext_iff]; omega

theorem packs_fillTile (t : Tile) (m : Mod) (pk : Pack) :
    ((fillTile t m).packs[pk] : PackSt) = if packTile pk = t then filledPack m.packs[pk] else m.packs[pk] := by
  have heq : (fillTile t m).packs = (onPack ⟨2 * t.val + 1, by omega⟩ filledPack (onPack ⟨2 * t.val, by omega⟩ filledPack m)).packs := rfl
  simp only [heq, packs_onPack, packTile_eq_iff]
  have hne : ¬ (pk = ⟨2 * t.val, by omega⟩ ∧ pk = ⟨2 * t.val + 1, by omega⟩) := by simp only [Fin.ext_iff]; omega
  by_cases hlo : pk = ⟨2 * t.val, by omega⟩ <;> by_cases hhi : pk = ⟨2 * t.val + 1, by omega⟩ <;> simp_all

theorem memByte_fillTile (t : Tile) (m : Mod) (a : Nat) : memByte (fillTile t m).mem a =
    if t.val * 2 ^ 39 ≤ a ∧ a < t.val * 2 ^ 39 + 2 ^ 39 then 0 else memByte m.mem a := memByte_memZero ..

theorem roots_fillTile (t : Tile) (m : Mod) (i : Fin 32) :
    (fillTile t m).prot.roots[i] = if i.val / 8 = t.val then 0 else m.prot.roots[i] := by
  simp [fillTile]

theorem tmap_fillTile (t : Tile) (m : Mod) : ((fillTile t m).tiers[t] : TierSt).tmap = [] := by
  simp [fillTile]

/-- The tile becomes ready; the last one sets Memory_Active (R178). -/
theorem fillOver_eq (t : Tile) (m : Mod) : ∃ (sched : Sched) (ports : Two PortSt),
    (putBit m.filling t.val false = 0 → ∀ p, (ports.get p).memActive = true) ∧
    fillOver t m = { fillTile t m with
      sched := sched, ports := ports, filling := putBit m.filling t.val false
      power := { m.power with ready := putBit m.power.ready t.val true } } := by
  unfold fillOver
  dsimp only
  split <;> split
  case isTrue.isTrue | isFalse.isTrue => exact ⟨_, _, fun _ p => by simp, rfl⟩
  case isTrue.isFalse | isFalse.isFalse => next hlast => exact ⟨_, _, fun h => absurd h hlast, rfl⟩

theorem exec_fillEnd (t : Tile) (s : State) : exec (.fillEnd t) s = .next (onMod (fun m =>
    if !m.filling.getLsbD t.val || m.tb.lost || (m.power.last == 3 && m.power.phase == 4) then m else releaseHeld (fillOver t m)) s) := rfl

/-- Settles O12: the fill zeroes the tile's bytes and its records, and what the end of its frame adds touches none of them. -/
theorem fillFrameEnds : Obligations.FillFrameEnds := by
  refine ⟨fun t s hlost => ?lost, fun t s hp hfill hlost hphase => ?ends⟩
  case lost => rw [exec_fillEnd, onMod_of_fixed _ s (by simp [hlost])]
  case ends =>
    obtain ⟨sched, ports, hactive, heq⟩ := fillOver_eq t s.m
    refine completes_of_onMod _ rfl hp ⟨fillOver t s.m, if_neg ?_, ?_⟩
    · simpa [hfill, hlost] using hphase
    · rw [heq]
      refine ⟨memByte_fillTile t s.m, fun pk hpk => ?_, fun pk hpk => ?_, roots_fillTile t s.m, tmap_fillTile t s.m, rfl, rfl, hactive, rfl, rfl⟩
      · rw [packs_fillTile, if_pos hpk]; exact ⟨rfl, rfl, rfl⟩
      · rw [packs_fillTile, if_neg hpk]

end Sys2Proof.Machine
end

