-- ==== Sys2Proof/Proofs/ChannelTests.lean ====
section
/-! PROOFS. The channel test (O26): an admin command that is accepted, and the next channel that a test takes. -/
namespace Sys2Proof.Machine

open Sys2Proof.Stmt

/-- An accepted admin command whose parameters are in range does its own work. -/
theorem admin_of_accepted {h : AdminHdr} {op : BitVec 16} {ok : Bool} {s : State} (own : AdminTag → Mod → Mod) (ha : accepted h op s)
    (hok : ok = true) : admin h op ok own s.m = own (tagOf h op) (begun h op s.m) := by
  obtain ⟨-, hactive, hresv, hlen, hbuf, hstop, hrecovery⟩ := ha
  have hstop' : (s.m.prot.stop.isSome && !stopAllowed op) = false := by rcases hstop with h | h <;> simp [h]
  have hrecovery' : (s.m.proc.recovery && !recoveryAllowed op) = false := by rcases hrecovery with h | h <;> simp [h]
  have hform : (h.resv || !ok || decide (h.rlen > 65536) || h.rbuf.toNat % 64 != 0) = false := by
    simp [hresv, hok, hbuf, hlen]
  simp only [admin, hactive, hform, Bool.not_true, Bool.false_eq_true, if_false]
  exact (if_neg (Bool.eq_false_iff.mp hstop')).trans (if_neg (Bool.eq_false_iff.mp hrecovery'))

/-! ### The next channel of a test (R60) -/

/-- What a test in hand keeps as it goes on: its command, its buffer, its rows, and one record per channel done. -/
def continues (c x : ChanTest) : Prop :=
  x.cmd = c.cmd ∧ x.rbuf = c.rbuf ∧ x.rows = c.rows ∧ (c.records.length = c.done → x.records.length = x.done)

/-- The search skips the channels that may not be tested, and starts the channel that it stops at anew. -/
theorem nextChan_continues (m : Mod) (t : Tile) (n : Nat) (c : ChanTest) : continues c (nextChan m t n c) := by
  induction n generalizing c with
  | zero => exact ⟨rfl, rfl, rfl, id⟩
  | succ n ih =>
    rw [nextChan]
    split
    · obtain ⟨hcmd, hbuf, hrows, hrec⟩ := ih { c with done := c.done + 1, records := c.records ++ [(chanLoc t c.done, 2)] }
      exact ⟨hcmd, hbuf, hrows, fun h => hrec (by simp [h])⟩
    · exact ⟨rfl, rfl, rfl, id⟩

theorem nextChan_fresh (m : Mod) (t : Tile) (n : Nat) (c : ChanTest) (hlinks : c.links = 0) (hfail : c.failing = false) :
    (nextChan m t n c).links = 0 ∧ (nextChan m t n c).failing = false := by
  induction n generalizing c with
  | zero => exact ⟨hlinks, hfail⟩
  | succ n ih =>
    rw [nextChan]
    split
    · exact ih _ hlinks hfail
    · exact ⟨rfl, rfl⟩

theorem nextChan_testable (m : Mod) (t : Tile) (n : Nat) (c : ChanTest) (hn : 18 ≤ c.done + n)
    (hlt : (nextChan m t n c).done < 18) : testable m t (nextChan m t n c).done = true := by
  induction n generalizing c with
  | zero => exact absurd hlt (Nat.not_lt.mpr hn)
  | succ n ih =>
    rw [nextChan] at hlt ⊢
    split
    next hskip => exact ih _ (by simp only; omega) (by rwa [if_pos hskip] at hlt)
    next hstop =>
      rw [if_neg hstop] at hlt
      by_contra hbad
      exact hstop ⟨hlt, by simpa using hbad⟩

/-- With every channel taken the search only clears the counts of the channel in hand. -/
theorem nextChan_of_done (m : Mod) (t : Tile) (n : Nat) (c : ChanTest) (h : 18 ≤ c.done) :
    nextChan m t (n + 1) c = { c with links := 0, next := [], failing := false, marked := ownMark m t c.done } := by
  rw [nextChan, if_neg (by omega)]

/-! ### The statement -/

theorem exec_chanTestEnd (t : Tile) (s : State) : exec (.chanTestEnd t) s = .next (onMod (chanTestEnd t) s) := rfl

theorem chanTestEnd_of_none {t : Tile} {m : Mod} (h : (m.tests[t] : Option ChanTest) = none) : chanTestEnd t m = m := by
  simp only [chanTestEnd, h]

theorem chanTestEnd_of_done {t : Tile} {m : Mod} {x : ChanTest} (h : (m.tests[t] : Option ChanTest) = some x) (hdone : 18 ≤ x.done) :
    chanTestEnd t m = chanFinish t x false m := by
  simp only [chanTestEnd, h]
  exact if_pos hdone

/-- The channel in hand is the last of its tile: its tests have run and shown no failure. -/
theorem chanTestEnd_of_last {t : Tile} {m : Mod} {x : ChanTest} (hx : (m.tests[t] : Option ChanTest) = some x) (hdone : x.done = 17)
    (htest : testable m t 17 = true) (hown : ownMark m t 17 = true → x.marked = true) (hlinks : linkSlots ≤ x.links)
    (hfail : x.failing = false) (hnext : ∀ b < 64, x.rows * 64 ≤ tabGet 0 x.next b)
    (hpack : (m.packs[chanPack t 17] : PackSt).tests = []) (hdiag : (m.packs[chanPack t 17] : PackSt).diag = none) :
    chanTestEnd t m =
      let z := clearMark (chanPack t 17) (chanPos 17) m
      chanFinish t (nextChan z t 18 { x with done := 18, records := x.records ++ [(chanLoc t 17, 0)] }) false z := by
  have hgoes : (!testable m t 17 || (ownMark m t 17 && !x.marked)) = false := by
    cases hm : ownMark m t 17 <;> simp [htest, hown, hm]
  have hall : (List.range 64).all (fun b => x.rows * 64 ≤ tabGet 0 x.next b) = true := by simpa using hnext
  simp only [chanTestEnd, hx, hdone, hgoes, hall, hpack, hdiag, hfail, Nat.not_lt.mpr hlinks]
  simp [nextChan_of_done]

/-- A channel test as CHAN_TEST begins it, before its first channel. -/
def newTest (h : AdminHdr) (r : Nat) : ChanTest :=
  { cmd := tagOf h 0x0201, rbuf := h.rbuf.toNat, rows := r, done := 0, records := [], marked := false, failing := false, links := 0, next := [] }

/-- What CHAN_TEST does of its own (R64). -/
def chanTestOwn (h : AdminHdr) (t : Tile) (r : Nat) (b : Mod) : Mod :=
  if h.rlen < 144 ∨ bufOk b h.port h.rbuf 144 = false then done (tagOf h 0x0201) 0xE2 b
  else if (b.tests[t] : Option ChanTest).isSome then done (tagOf h 0x0201) 0x12 b
  else { b with tests := b.tests.set t (some (nextChan b t 18 (newTest h r))) }

/-- An accepted CHAN_TEST does its own work. -/
theorem completes_chanTest {h : AdminHdr} {t r : Nat} {s : State} {P : Mod → Prop} (ha : accepted h 0x0201 s) (ht : t < 4) (hr : 1 ≤ r)
    (hr' : r ≤ 64) (hP : P (chanTestOwn h (Fin.ofNat 4 t) r (begun h 0x0201 s.m))) : completes (.chanTest h t r) s P := by
  have hbuf : (decide (h.rlen < 144) || !bufOk (begun h 0x0201 s.m) h.port h.rbuf 144) = true ↔
      h.rlen < 144 ∨ bufOk (begun h 0x0201 s.m) h.port h.rbuf 144 = false := by simp
  refine completes_of_onMod _ rfl ha.1 ?_
  rw [admin_of_accepted _ ha (by simp [ht, hr, hr'])]
  simp only [chanTestOwn, ← hbuf] at hP
  exact hP

/-- Settles O26: the search for the next channel keeps a record for each one done and stops only at a channel that may be tested. -/
theorem channelsAreTested : Obligations.ChannelsAreTested := by
  refine ⟨fun h t r s ha ht hr1 hr => ?start, fun t x s hp hx hdone => ?finish,
    fun t x s hp hx hdone htest hown hlinks hfail hnext hpack hdiag => ?last, fun t s hnone => ?none⟩
  case start =>
    refine completes_chanTest ha ht hr1 hr ?_
    have htests : (begun h 0x0201 s.m).tests = s.m.tests := rfl
    rw [chanTestOwn, htests]
    split
    · rfl
    · split
      · rfl
      · obtain ⟨hcmd, -, hrows, hrec⟩ := nextChan_continues (begun h 0x0201 s.m) (Fin.ofNat 4 t) 18 (newTest h r)
        obtain ⟨hlinks, hfail⟩ := nextChan_fresh (begun h 0x0201 s.m) (Fin.ofNat 4 t) 18 (newTest h r) rfl rfl
        exact ⟨_, Vector.getElem_set_self _, hcmd, hrows, hlinks, hfail, hrec rfl, nextChan_testable _ _ _ _ (Nat.le_refl 18), rfl⟩
  case finish => exact completes_of_onMod _ rfl hp (chanTestEnd_of_done hx hdone)
  case last =>
    refine completes_of_onMod _ rfl hp ⟨_, chanTestEnd_of_last hx hdone htest hown hlinks hfail hnext hpack hdiag, ?_⟩
    rw [nextChan_of_done _ _ _ _ (Nat.le_refl 18)]
    exact ⟨rfl, rfl, rfl⟩
  case none => rw [exec_chanTestEnd, onMod_of_fixed _ s (chanTestEnd_of_none hnone)]

end Sys2Proof.Machine
end

