-- ==== Sys2Proof/Proofs/DiagnosisMarks.lean ====
section
/-! PROOFS. Marks and diagnosis (O20): what a channel mark leaves, and a verdict for each count of failing positions. -/
namespace Sys2Proof.Machine

open Sys2Proof.Stmt

theorem exec_diagnosisVerdict (pk : Pack) (s : State) : exec (.diagnosisVerdict pk) s = .next (onMod (diagnosisVerdict pk) s) := rfl

/-! ### A channel mark (R50, R52) -/

/-- What an event adds to the event state rests on the event state, the clock and the frame alone. -/
theorem event_ev_congr {m m' : Mod} (k : BitVec 16) (l : Word32) (d : Nat) (hev : m'.ev = m.ev) (htb : m'.tb = m.tb)
    (hsched : m'.sched = m.sched) : (event k l d m').ev = (event k l d m).ev := by
  have htime : evTime m' = evTime m := by simp only [evTime, upTime, htb]
  simp only [event, raise, raiseAt_ev, hev, htime, hsched]

/-- The pack after a channel mark. -/
def withChMark (pos : Nat) (p : PackSt) : PackSt := { p with chMarks := if p.chMarks.contains pos then p.chMarks else pos :: p.chMarks }

theorem channelMark_packs (pk : Pack) (pos cause : Nat) (m : Mod) : (channelMark pk pos cause m).packs = (onPack pk (withChMark pos) m).packs :=
  event_packs ..

theorem channelMark_flash (pk : Pack) (pos cause : Nat) (m : Mod) : (pk.val, pos) ∈ (channelMark pk pos cause m).flash.chMarks := by
  obtain ⟨_, h⟩ := event_flash _ 0x0202 (locChannel pk.val pos) cause
  rw [channelMark, h]
  exact List.mem_insert_self

theorem channelMark_ev (pk : Pack) (pos cause : Nat) (m : Mod) :
    (channelMark pk pos cause m).ev = (event 0x0202 (locChannel pk.val pos) cause m).ev := event_ev_congr _ _ _ rfl rfl rfl

/-- A channel mark leaves the DRAM image and the write buffers. -/
theorem channelMark_mem_wbuf (pk : Pack) (pos cause : Nat) (m : Mod) :
    (channelMark pk pos cause m).mem = m.mem ∧ (channelMark pk pos cause m).wbuf = m.wbuf := ⟨event_mem .., event_wbuf ..⟩

/-! ### A die mark (R51) -/

/-- Batts of a rank corrected at one position within the last second. -/
def fixedWithin1s (m : Mod) (pk : Pack) (rank pos : Nat) : Nat :=
  ((m.packs[pk] : PackSt).ceAt.filter (fun e => e.1 == rank * 18 + pos && m.tb.now - e.2 ≤ oneSecond)).length

/-- A die mark falls due at 64 corrected batts of a Clean rank. -/
theorem dieMark_eq (pk : Pack) (rank pos : Nat) (m : Mod) : dieMark pk rank pos m =
    if rankState m.packs[pk] rank = 0 ∧ 64 ≤ fixedWithin1s m pk rank pos then
      event 0x0201 (locDie pk.val rank pos) 0
        { onPack pk (fun p => { p with dieMarks := (rank, pos) :: p.dieMarks }) m with
          flash := { m.flash with dieMarks := (pk.val, rank, pos) :: m.flash.dieMarks } }
    else m := by
  have hcond : (rankState m.packs[pk] rank != 0 || decide (fixedWithin1s m pk rank pos < 64)) = true ↔
      ¬ (rankState m.packs[pk] rank = 0 ∧ 64 ≤ fixedWithin1s m pk rank pos) := by
    rw [Bool.or_eq_true, bne_iff_ne, decide_eq_true_eq]; omega
  by_cases hdue : rankState m.packs[pk] rank = 0 ∧ 64 ≤ fixedWithin1s m pk rank pos
  · exact (if_neg fun h => hcond.mp h hdue).trans (if_pos hdue).symm
  · exact (if_pos (hcond.mpr hdue)).trans (if_neg hdue).symm

/-! ### The verdict (R56) -/

/-- The diagnosis of a pack ends. -/
def diagEnds (p : PackSt) : PackSt := { p with diag := none }

/-- Held reads go back to the head of their queues. -/
def heldBack (l : List HeldRead) (p : PackSt) : PackSt := { p with queue := l.map (·.req) ++ p.queue }

section
variable {pk : Pack} {m : Mod} {d : Diag} (hdiag : (m.packs[pk] : PackSt).diag = some d)
include hdiag

theorem diagnosisVerdict_of_running (hsteps : d.steps < 4) : diagnosisVerdict pk m = m := by
  simp only [diagnosisVerdict, hdiag, hsteps, if_true]

theorem diagnosisVerdict_of_none (hsteps : 4 ≤ d.steps) (hfailed : setBits d.failed = []) :
    diagnosisVerdict pk m = onPack pk (heldBack d.held) (onPack pk diagEnds m) := by
  simp only [diagnosisVerdict, hdiag, Nat.not_lt.mpr hsteps, if_false, hfailed]
  rfl

theorem diagnosisVerdict_of_one {pos : Nat} (hsteps : 4 ≤ d.steps) (hfailed : setBits d.failed = [pos]) :
    diagnosisVerdict pk m = onPack pk (heldBack d.held) (channelMark pk pos 0 (onPack pk diagEnds m)) := by
  simp only [diagnosisVerdict, hdiag, Nat.not_lt.mpr hsteps, if_false, hfailed]
  rfl

end

/-! ### The statement -/

/-- Settles O20: the verdict only ends the diagnosis, places the one mark, and gives the held reads back. -/
theorem marksFollowDiagnosis : Obligations.MarksFollowDiagnosis := by
  refine ⟨fun pk rank pos s hp => ?dieMark, fun pk d s hp hdiag hsteps hfailed => ?noneFails, fun pk d pos s hp hdiag hsteps hfailed => ?oneFails,
    fun pk d s hdiag hsteps => ?running⟩
  case dieMark =>
    refine completes_of_onMod _ rfl hp ?_
    simp only [dieMark_eq]
    split
    next h => exact if_pos h
    next h => exact if_neg h
  case noneFails =>
    refine completes_of_onMod _ rfl hp ?_
    rw [diagnosisVerdict_of_none hdiag hsteps hfailed, onPack_onPack]
    rfl
  case oneFails =>
    refine completes_of_onMod _ rfl hp ?_
    rw [diagnosisVerdict_of_one hdiag hsteps hfailed]
    obtain ⟨hmem, hwbuf⟩ := channelMark_mem_wbuf pk pos 0 (onPack pk diagEnds s.m)
    have hpack : ((onPack pk (heldBack d.held) (channelMark pk pos 0 (onPack pk diagEnds s.m))).packs[pk] : PackSt) =
        heldBack d.held (withChMark pos (diagEnds s.m.packs[pk])) := by
      simp [channelMark_packs]
    rw [hpack]
    exact ⟨rfl, List.mem_insert_self, channelMark_flash .., rfl, hmem, hwbuf, (channelMark_ev ..).trans (event_ev_congr _ _ _ rfl rfl rfl)⟩
  case running => rw [exec_diagnosisVerdict, onMod_of_fixed _ s (diagnosisVerdict_of_running hdiag hsteps)]

end Sys2Proof.Machine
end

