-- ==== Sys2Proof/Proofs/MaintenanceSlots.lean ====
section
/-! PROOFS. Maintenance slots (O19): the commands of a REFRESH slot, the work that a TRAIN slot serves, and the uses of a SCRUB slot. -/
namespace Sys2Proof.Machine

open Sys2Proof.Stmt

/-! ### REFRESH slots (R96) -/

/-- What position `i` of a REFRESH slot of word `w` issues. -/
def refreshCommand (pk : Pack) (slot : Nat) (w : Word64) (i : Nat) (m : Mod) : Mod :=
  if swOp w i = 8 then send (.dram pk slot i (swTgt w i) .refPb) m
  else if swOp w i = 9 ∧ Config.raaLimit ≤ tabGet 0 (m.packs[pk] : PackSt).raa (swTgt w i / 16) then
    send (.dram pk slot i (swTgt w i) .rfm) (onPack pk (fun p => { p with raa := tabPut p.raa (swTgt w i / 16) 0 }) m)
  else m

theorem refreshCommand_idle {pk : Pack} {slot : Nat} {w : Word64} {i : Nat} {m : Mod} (h8 : swOp w i ≠ 8) (h9 : swOp w i ≠ 9) :
    refreshCommand pk slot w i m = m := by
  rw [refreshCommand, if_neg h8, if_neg fun h => h9 h.1]

theorem refreshCommand_refPb {pk : Pack} {slot : Nat} {w : Word64} {i : Nat} {m : Mod} (h8 : swOp w i = 8) :
    refreshCommand pk slot w i m = send (.dram pk slot i (swTgt w i) .refPb) m := if_pos h8

theorem refreshCommand_rfm {pk : Pack} {slot : Nat} {w : Word64} {i : Nat} {m : Mod} (h9 : swOp w i = 9) :
    refreshCommand pk slot w i m = if Config.raaLimit ≤ tabGet 0 (m.packs[pk] : PackSt).raa (swTgt w i / 16) then
        send (.dram pk slot i (swTgt w i) .rfm) (onPack pk (fun p => { p with raa := tabPut p.raa (swTgt w i / 16) 0 }) m)
      else m := by
  rw [refreshCommand, if_neg (by omega)]
  simp only [h9, true_and]

/-- The two positions of a REFRESH slot are served in order. -/
theorem refreshSlot_eq {pk : Pack} {slot : Nat} {m : Mod} (hruns : packRuns m pk = true) (hclass : swClass (slotWord m pk slot false) = 8) :
    refreshSlot pk slot m =
      refreshCommand pk slot (slotWord m pk slot false) 1 (refreshCommand pk slot (slotWord m pk slot false) 0 m) := by
  simp only [refreshSlot, hruns, hclass]
  rfl

/-! ### TRAIN slots (R55, R71, R97) -/

section
variable {pk : Pack} {slot : Nat} {s : State} (fails : BitVec 9) (h : trainsNow s pk slot)
include h

/-- The diagnosis comes first. -/
theorem trainSlot_of_diag {d : Diag} (hdiag : (s.m.packs[pk] : PackSt).diag = some d) (hsteps : d.steps < 4) :
    trainSlot pk slot fails s.m = trainCount pk slot true (send (.dram pk slot 0 (16 * d.rank) (linkCommand d.steps))
      (onPack pk (fun p => { p with diag := some { d with steps := d.steps + 1, failed := d.failed ||| fails } }) s.m)) := by
  obtain ⟨-, hruns, hclass, -⟩ := h
  simp only [trainSlot, hruns, hclass, hdiag, hsteps]
  rfl

variable (hdiag : (s.m.packs[pk] : PackSt).diag = none)
include hdiag

theorem trainSlot_of_mr4 (hmr4 : (s.m.packs[pk] : PackSt).mr4Due = true) : trainSlot pk slot fails s.m =
    trainCount pk slot true (send (.dram pk slot 0 0 (.mrr 1)) (onPack pk (fun p => { p with mr4Due := false }) s.m)) := by
  obtain ⟨-, hruns, hclass, htests⟩ := h
  simp only [trainSlot, hruns, hclass, hdiag, htests, hmr4]
  rfl

variable (hmr4 : (s.m.packs[pk] : PackSt).mr4Due = false)
include hmr4

theorem trainSlot_of_osc {r : Nat} (hosc : oscRank s.m s.m.packs[pk] = some r) : trainSlot pk slot fails s.m =
    trainCount pk slot true
      (send (.dram pk slot 0 (16 * r) (.mrr 2)) (onPack pk (fun p => { p with oscAt := tabPut p.oscAt r s.m.tb.now }) s.m)) := by
  obtain ⟨-, hruns, hclass, htests⟩ := h
  simp only [trainSlot, hruns, hclass, hdiag, htests, hmr4, hosc]
  rfl

/-- ZQ comes last; with nothing due the slot passes. -/
theorem trainSlot_of_zq (hosc : oscRank s.m s.m.packs[pk] = none) : trainSlot pk slot fails s.m =
    if (s.m.packs[pk] : PackSt).zqDue then
      trainCount pk slot true (send (.dram pk slot 0 0 .zqLatch) (onPack pk (fun p => { p with zqDue := false }) s.m))
    else trainCount pk slot false s.m := by
  obtain ⟨-, hruns, hclass, htests⟩ := h
  simp only [trainSlot, hruns, hclass, hdiag, htests, hmr4, hosc]
  rfl

end

theorem refreshAndTrainSlotsServe : RefreshAndTrainSlotsServe := by
  refine ⟨fun pk slot s hp hruns => ?refPb, fun pk slot s hp hruns => ?rfm, fun pk slot fails d s h hdiag hsteps => ?diagnosis,
    fun pk slot fails s h hdiag hmr4 => ?mr4, fun pk slot fails r s h hdiag hmr4 hosc => ?osc, fun pk slot fails s h hdiag hmr4 hosc => ?zq⟩
  case refPb =>
    intro w hclass h0 h1 h1'
    refine completes_of_onMod _ rfl hp ?_
    rw [refreshSlot_eq hruns hclass, refreshCommand_refPb h0, refreshCommand_idle h1 h1']
  case rfm =>
    intro w hclass h0 h0' h1
    refine completes_of_onMod _ rfl hp ?_
    rw [refreshSlot_eq hruns hclass, refreshCommand_idle h0 h0', refreshCommand_rfm h1]
    split <;> rfl
  case diagnosis => exact completes_of_onMod _ rfl h.1 (trainSlot_of_diag fails h hdiag hsteps)
  case mr4 => exact completes_of_onMod _ rfl h.1 (trainSlot_of_mr4 fails h hdiag hmr4)
  case osc => exact completes_of_onMod _ rfl h.1 (trainSlot_of_osc fails h hdiag hmr4 hosc)
  case zq => exact completes_of_onMod _ rfl h.1 (trainSlot_of_zq fails h hdiag hmr4 hosc)

/-! ### What serving a slot leaves alone -/

theorem countSlots_eq (pk : Pack) (slot cls n : Nat) (used : Bool) (da : Option Nat) (m : Mod) :
    ∃ perf, countSlots pk slot cls n used da m = { m with perf := perf } :=
  foldl_rel (fun a b => ∃ perf, b = { a with perf := perf }) (fun a => ⟨a.perf, rfl⟩)
    (fun _ _ _ ⟨_, hab⟩ ⟨perf, hbc⟩ => ⟨perf, by rw [hbc, hab]⟩) _ (fun a _ => perfCount_eq a _ _ _) _ m

theorem issueCommands_eq (pk : Pack) (slot : Nat) (batts : List Nat) (write : Bool) (m : Mod) :
    ∃ out, issueCommands pk slot batts write m = { m with out := out } :=
  foldl_rel (fun a b => ∃ out, b = { a with out := out }) (fun a => ⟨a.out, rfl⟩)
    (fun _ _ _ ⟨_, hab⟩ ⟨out, hbc⟩ => ⟨out, by rw [hbc, hab]⟩) _ (fun a _ => sendAll_out id _ a) _ m

section
variable (pk : Pack) (slot cls n : Nat) (used : Bool) (da : Option Nat) (m : Mod)

@[simp] theorem countSlots_mem : (countSlots pk slot cls n used da m).mem = m.mem := by
  obtain ⟨_, h⟩ := countSlots_eq pk slot cls n used da m; rw [h]
@[simp] theorem countSlots_packs : (countSlots pk slot cls n used da m).packs = m.packs := by
  obtain ⟨_, h⟩ := countSlots_eq pk slot cls n used da m; rw [h]
@[simp] theorem countSlots_slices : (countSlots pk slot cls n used da m).slices = m.slices := by
  obtain ⟨_, h⟩ := countSlots_eq pk slot cls n used da m; rw [h]

end

/-- A pack with other counts of activations. -/
def withRaa (raa : List (Nat × Nat)) (p : PackSt) : PackSt := { p with raa := raa }

/-- A SCRUB slot that is used for a batt. -/
def scrubServed (pk : Pack) (slot da : Nat) (write : Bool) (m : Mod) : Mod :=
  countSlots pk slot 7 1 true (some da) (activated pk da (issueCommands pk slot [da] write m))

section
variable (pk : Pack) (slot da : Nat) (write : Bool) (m : Mod)

/-- Its commands go out, it is counted, and the row's activation with it. -/
theorem scrubServed_eq : ∃ perf out, scrubServed pk slot da write m = { activated pk da m with perf := perf, out := out } := by
  obtain ⟨out, hissue⟩ := issueCommands_eq pk slot [da] write m
  obtain ⟨perf, hcount⟩ := countSlots_eq pk slot 7 1 true (some da) (activated pk da { m with out := out })
  exact ⟨perf, out, by rw [scrubServed, hissue, hcount]; rfl⟩

@[simp] theorem scrubServed_mem : (scrubServed pk slot da write m).mem = m.mem := by
  obtain ⟨_, _, h⟩ := scrubServed_eq pk slot da write m; rw [h]; rfl
@[simp] theorem scrubServed_slices : (scrubServed pk slot da write m).slices = m.slices := by
  obtain ⟨_, _, h⟩ := scrubServed_eq pk slot da write m; rw [h]; rfl
@[simp] theorem scrubServed_wbuf : (scrubServed pk slot da write m).wbuf = m.wbuf := by
  obtain ⟨_, _, h⟩ := scrubServed_eq pk slot da write m; rw [h]; rfl
@[simp] theorem scrubServed_prot : (scrubServed pk slot da write m).prot = m.prot := by
  obtain ⟨_, _, h⟩ := scrubServed_eq pk slot da write m; rw [h]; rfl
@[simp] theorem scrubServed_tests : (scrubServed pk slot da write m).tests = m.tests := by
  obtain ⟨_, _, h⟩ := scrubServed_eq pk slot da write m; rw [h]; rfl
theorem packs_scrubServed : ((scrubServed pk slot da write m).packs[pk] : PackSt) =
    withRaa (tabMod 0 (m.packs[pk] : PackSt).raa (daRank da) (· + 1)) m.packs[pk] := by
  obtain ⟨_, _, h⟩ := scrubServed_eq pk slot da write m
  rw [h]
  exact packs_onPack_self pk (fun p => { p with raa := tabMod 0 p.raa (daRank da) (· + 1) }) m

end

/-- A change of a pack that keeps its sequencer's requests and its diagnosis keeps the room for reads. -/
theorem readRoom_onPack (pk : Pack) (f : PackSt → PackSt) (m : Mod) (t : Tile) (q : DReq)
    (hbound : ∀ p, (f p).bound = p.bound) (hdiag : ∀ p, (f p).diag = p.diag) : readRoom (onPack pk f m) t q = readRoom m t q := by
  have hpack : ∀ j (hj : j < 8), (onPack pk f m).packs[j].bound = m.packs[j].bound ∧ (onPack pk f m).packs[j].diag = m.packs[j].diag := by
    intro j hj
    rw [onPack_packs, Vector.getElem_set]
    split
    next h => subst h; exact ⟨hbound _, hdiag _⟩
    next => exact ⟨rfl, rfl⟩
  simp only [readRoom, readHolds, tilePacks, List.flatMap_cons, List.flatMap_nil, heldReqs, hpack]

/-! ### What a SCRUB slot is used for (R67) -/

/-- A queued write comes first. -/
theorem scrubUse_of_write {m : Mod} {pk : Pack} {bank : Nat} (credit : Nat) {q : DReq}
    (hq : (m.packs[pk] : PackSt).queue.find? (fun q => q.cls == .scrub && q.bank == bank && q.write) = some q) :
    scrubUse m pk bank credit = .queued q := by
  simp only [scrubUse, hq]

/-- With nothing queued, no batt and no channel under test, the slot is the patrol's, for which it needs the credit. -/
theorem scrubUse_of_empty {m : Mod} {pk : Pack} {bank : Nat} (credit : Nat)
    (hqueue : (m.packs[pk] : PackSt).queue.find? (fun q => q.cls == .scrub && q.bank == bank) = none)
    (htests : (m.packs[pk] : PackSt).tests = []) (htest : (m.tests[packTile pk] : Option ChanTest) = none)
    (hroom : readRoom m (packTile pk) (battReq .scrub 0 false 0 0 .patrol) = true) :
    scrubUse m pk bank credit =
      if patrolInterval m ≤ credit then
        .patrol (daOf pk bank (tabGet 0 (m.packs[pk] : PackSt).patrol bank / 64) (tabGet 0 (m.packs[pk] : PackSt).patrol bank % 64))
      else .pass := by
  have hwrite : (m.packs[pk] : PackSt).queue.find? (fun q => q.cls == .scrub && q.bank == bank && q.write) = none :=
    List.find?_eq_none.mpr fun q hq hmine => List.find?_eq_none.mp hqueue q hq (Bool.and_elim_left hmine)
  have hnext : testNext m pk bank = none := by simp only [testNext, htest]
  simp only [scrubUse, hwrite, hqueue, htests, List.find?_nil, hroom, hnext, if_true, Bool.true_and, decide_eq_true_eq]

/-! ### SCRUB slots (R61 to R68) -/

/-- A pack as a SCRUB slot begins, with the patrol credit that has accrued by `now` (R65). -/
def accrued (credit now : Nat) (p : PackSt) : PackSt := { p with credit := credit, lastScrub := now }

section
variable (credit now : Nat) (p : PackSt)

@[simp] theorem accrued_queue : (accrued credit now p).queue = p.queue := rfl
@[simp] theorem accrued_bound : (accrued credit now p).bound = p.bound := rfl
@[simp] theorem accrued_diag : (accrued credit now p).diag = p.diag := rfl
@[simp] theorem accrued_tests : (accrued credit now p).tests = p.tests := rfl
@[simp] theorem accrued_patrol : (accrued credit now p).patrol = p.patrol := rfl

end

/-- The patrol's credit that is left and its pointer after a patrol read of a bank (R65). -/
def patrolled (left bank : Nat) (p : PackSt) : PackSt :=
  { p with credit := left, patrol := tabMod 0 p.patrol bank (fun n => (n + 1) % 2 ^ 24) }

/-- The module as a SCRUB slot of a pack begins. -/
def accrue (pk : Pack) (credit : Nat) (m : Mod) : Mod := onPack pk (accrued credit m.tb.now) m

section
variable (pk : Pack) (credit : Nat) (m : Mod)

theorem packs_accrue : ((accrue pk credit m).packs[pk] : PackSt) = accrued credit m.tb.now m.packs[pk] := packs_onPack_self ..

theorem readRoom_accrue (t : Tile) (q : DReq) : readRoom (accrue pk credit m) t q = readRoom m t q :=
  readRoom_onPack pk (accrued credit m.tb.now) m t q (accrued_bound _ _) (accrued_diag _ _)

end

/-- The SCRUB slot of a bank, in a pack that runs outside a diagnosis, with the credit and the interval of its patrol. -/
structure ScrubsNow (m : Mod) (pk : Pack) (slot bank credit interval : Nat) : Prop where
  runs : packRuns m pk = true
  isScrub : swClass (slotWord m pk slot false) = 7
  isData : swData (slotWord m pk slot false) = true
  noDiag : (m.packs[pk] : PackSt).diag = none
  bankIs : swBank (slotWord m pk slot false) = bank
  creditIs : patrolCredit m pk = credit
  intervalIs : patrolInterval m = interval

/-- What a SCRUB slot does by its use: it passes, it stores a queued write-back, or it reads a batt for the patrol unless a write of the
batt is pending. -/
theorem scrubSlot_by_use {pk : Pack} {slot : Nat} {m : Mod} {bank credit interval : Nat} {use : ScrubUse} (errs : Errs)
    (h : ScrubsNow m pk slot bank credit interval) (huse : scrubUse (accrue pk credit m) pk bank credit = use) :
    (use = .pass → scrubSlot pk slot errs m = countSlots pk slot 7 1 false none (accrue pk credit m)) ∧
    (∀ q b, use = .queued q → q.write = true → q.why = .writeBack b →
      scrubSlot pk slot errs m = writeBatt q.da b false (scrubServed pk slot q.da true (onPack pk (takeReq q) (accrue pk credit m)))) ∧
    (∀ da, use = .patrol da → scrubSlot pk slot errs m =
      let x := onPack pk (patrolled (credit - interval) bank) (accrue pk credit m)
      if (wbFind x da).isSome then countSlots pk slot 7 1 false none x
      else patrolRead pk (battReq .scrub da false 0 0 .patrol) errs (scrubServed pk slot da false x)) := by
  obtain ⟨hruns, hclass, hdata, hdiag, hbank, hcredit, hinterval⟩ := h
  have hgoes : (!packRuns m pk || swClass (slotWord m pk slot false) != 7 || !swData (slotWord m pk slot false)) = false := by
    simp [hruns, hclass, hdata]
  have hidle : ((accrue pk credit m).packs[pk] : PackSt).diag.isSome = false := by
    rw [packs_accrue, accrued_diag, hdiag]; rfl
  unfold scrubSlot
  extract_lets w slotBank iv accruedCredit begun pass used
  have hbank : slotBank = bank := hbank
  have hcredit : accruedCredit = credit := hcredit
  have hinterval : iv = interval := hinterval
  have hbegun : begun = accrue pk accruedCredit m := rfl
  clear_value begun accruedCredit iv slotBank
  subst hbegun hcredit hinterval hbank
  rw [if_neg (Bool.eq_false_iff.mp hgoes), if_neg (Bool.eq_false_iff.mp hidle), huse]
  refine ⟨fun h => by subst h; rfl, fun q b h hwrite hwhy => ?writeBack, fun da h => by subst h; rfl⟩
  subst h
  simp only [hwrite, hwhy, Bool.not_true, Bool.false_and, Bool.false_eq_true, if_false]
  rfl

/-! ### Batts that a SCRUB slot writes and reads -/

/-- A write of good data outside integrity stop changes the DRAM image and the records of poison of its pack. -/
theorem writeBatt_good {m : Mod} (da : Nat) (b : Batt) (hstop : m.prot.stop = none) :
    (writeBatt da b false m).mem = memPutBatt m.mem da b ∧
      (∀ pk : Pack, ((writeBatt da b false m).packs[pk] : PackSt).queue = (m.packs[pk] : PackSt).queue) ∧
      (writeBatt da b false m).slices = m.slices ∧ (writeBatt da b false m).wbuf = m.wbuf := by
  have heq : writeBatt da b false m = onPack (daPack da) (cleanBatt da) { m with mem := memPutBatt m.mem da b } := by
    simp [writeBatt, hstop]
  rw [heq]
  refine ⟨rfl, fun pk => ?_, rfl, rfl⟩
  rw [packs_onPack]
  split <;> rfl

theorem testChan_of_none {m : Mod} {pk : Pack} (htest : (m.tests[packTile pk] : Option ChanTest) = none) : testChan m pk = none := by
  simp only [testChan, htest]

/-- A batt of the dies reads clean: its rank is not Failed, no poison of it is recorded, and it decodes with no byte corrected. -/
def cleanOnDies (p : PackSt) (mem : List Host.Cell) (da : Nat) (errs : List (Nat × Nat × Byte)) (b : Batt) : Prop :=
  rankState p (daRank da) ≠ 3 ∧ da ∉ p.poisonList ∧ da ∉ p.poisonPend ∧ da ∉ p.markers ∧
    decodeBatt (erasedAt p none da) (memBatt mem da) false errs = .good b []

theorem rawRead_clean {pk : Pack} {m : Mod} {da : Nat} {errs : List (Nat × Nat × Byte)} {b : Batt}
    (htest : (m.tests[packTile pk] : Option ChanTest) = none) (hclean : cleanOnDies m.packs[pk] m.mem da errs b) :
    rawRead pk da errs m = (.data b, m) := by
  obtain ⟨hrank, hlist, hpend, hmarker, hdec⟩ := hclean
  have hmarker : (m.packs[pk] : PackSt).markers.contains da = false := by simpa using hmarker
  have hknown : (rankState m.packs[pk] (daRank da) == 3 || (m.packs[pk] : PackSt).poisonList.contains da ||
      (m.packs[pk] : PackSt).poisonPend.contains da) = false := by
    generalize (m.packs[pk] : PackSt) = p at *
    simp [hrank, hlist, hpend]
  simp only [rawRead, hknown, testChan_of_none htest, hmarker, testPattern, List.nil_append, hdec]
  simp [countFixed]

/-- The patrol leaves a clean batt alone (R65). -/
theorem patrolRead_clean {pk : Pack} {m : Mod} {q : DReq} {errs : Errs} {b : Batt}
    (htest : (m.tests[packTile pk] : Option ChanTest) = none) (hclean : cleanOnDies m.packs[pk] m.mem q.da (errsOf errs 0) b) :
    patrolRead pk q errs m = m := by
  have ⟨_, _, _, _, hdec⟩ := hclean
  simp only [patrolRead, rawRead_clean htest hclean, testChan_of_none htest, hdec]
  rfl

/-- A patrol slot with a write of the batt pending, or with the batt clean on the dies, leaves the patrol's pointer and credit, and of
the rest only counts. -/
theorem patrolSlot_frame {pk : Pack} {slot da : Nat} {x : Mod} {errs : Errs} {b : Batt} (hda : battOf da = da)
    (htest : (x.tests[packTile pk] : Option ChanTest) = none)
    (hclean : wbFind x da = none → cleanOnDies x.packs[pk] x.mem da (errsOf errs 0) b) :
    let y := if (wbFind x da).isSome then countSlots pk slot 7 1 false none x
      else patrolRead pk (battReq .scrub da false 0 0 .patrol) errs (scrubServed pk slot da false x)
    y.mem = x.mem ∧ y.slices = x.slices ∧ ∃ raa, (y.packs[pk] : PackSt) = withRaa raa x.packs[pk] := by
  intro y
  by_cases hpend : (wbFind x da).isSome = true
  · have hy : y = countSlots pk slot 7 1 false none x := if_pos hpend
    rw [hy, countSlots_mem, countSlots_slices, countSlots_packs]
    exact ⟨rfl, rfl, (x.packs[pk] : PackSt).raa, rfl⟩
  · have hclean := hclean (Option.not_isSome_iff_eq_none.mp hpend)
    have hreq : (battReq .scrub da false 0 0 .patrol).da = da := hda
    have hy : y = scrubServed pk slot da false x := by
      refine (if_neg hpend).trans (patrolRead_clean (b := b) (by rw [scrubServed_tests]; exact htest) ?_)
      rw [packs_scrubServed, scrubServed_mem, hreq]
      exact hclean
    rw [hy, scrubServed_mem, scrubServed_slices, packs_scrubServed]
    exact ⟨rfl, rfl, _, rfl⟩

/-- A patrol read is due where its credit reaches the pacing interval. -/
theorem scrubUse_accrue {m : Mod} {pk : Pack} {bank credit interval : Nat} (hinterval : patrolInterval m = interval)
    (hqueue : (m.packs[pk] : PackSt).queue.find? (fun q => q.cls == .scrub && q.bank == bank) = none)
    (htests : (m.packs[pk] : PackSt).tests = []) (htest : (m.tests[packTile pk] : Option ChanTest) = none)
    (hroom : readRoom m (packTile pk) (battReq .scrub 0 false 0 0 .patrol) = true) :
    scrubUse (accrue pk credit m) pk bank credit =
      if credit < interval then .pass
      else .patrol (daOf pk bank (tabGet 0 (m.packs[pk] : PackSt).patrol bank / 64) (tabGet 0 (m.packs[pk] : PackSt).patrol bank % 64)) := by
  have hpack := packs_accrue pk credit m
  have hinterval : patrolInterval (accrue pk credit m) = interval := hinterval
  rw [scrubUse_of_empty (m := accrue pk credit m) credit (by rw [hpack, accrued_queue]; exact hqueue)
    (by rw [hpack, accrued_tests]; exact htests) htest (by rw [readRoom_accrue]; exact hroom), hinterval, hpack, accrued_patrol]
  simp only [← Nat.not_lt, ite_not]

section
variable {pk : Pack} {slot : Nat} {m : Mod} {bank credit interval : Nat} (errs : Errs) (h : ScrubsNow m pk slot bank credit interval)
include h

/-- A SCRUB slot with a write-back queued stores it. -/
theorem scrubSlot_writeBack {q : DReq} {b : Batt}
    (hq : (m.packs[pk] : PackSt).queue.find? (fun q => q.cls == .scrub && q.bank == bank && q.write) = some q)
    (hwhy : q.why = .writeBack b) (hstop : m.prot.stop = none) :
    let m' := scrubSlot pk slot errs m
    m'.mem = memPutBatt m.mem q.da b ∧ (m'.packs[pk] : PackSt).queue = (m.packs[pk] : PackSt).queue.erase q ∧ m'.slices = m.slices ∧
      m'.wbuf = m.wbuf := by
  have hwrite : q.write = true := by
    have hfits := List.find?_some hq
    exact Bool.and_elim_right hfits
  obtain ⟨-, hserves, -⟩ := scrubSlot_by_use errs h (scrubUse_of_write credit (by rw [packs_accrue]; exact hq))
  obtain ⟨hmem, hqueue, hslices, hwbuf⟩ :=
    writeBatt_good (m := scrubServed pk slot q.da true (onPack pk (takeReq q) (accrue pk credit m))) q.da b (by rw [scrubServed_prot]; exact hstop)
  intro m'
  have hm' : m' = _ := hserves q b rfl hwrite hwhy
  rw [hm', hmem, hqueue, hslices, hwbuf, packs_scrubServed, packs_onPack_self, packs_accrue, scrubServed_mem, scrubServed_slices,
    scrubServed_wbuf]
  exact ⟨rfl, rfl, rfl, rfl⟩

/-- A SCRUB slot with nothing queued and no test is the patrol's. -/
theorem scrubSlot_patrol {b : Batt} {da n : Nat} (htest : (m.tests[packTile pk] : Option ChanTest) = none)
    (hqueue : (m.packs[pk] : PackSt).queue.find? (fun q => q.cls == .scrub && q.bank == bank) = none)
    (htests : (m.packs[pk] : PackSt).tests = [])
    (hroom : readRoom m (packTile pk) (battReq .scrub 0 false 0 0 .patrol) = true)
    (hn : tabGet 0 (m.packs[pk] : PackSt).patrol bank = n) (hda : daOf pk bank (n / 64) (n % 64) = da)
    (hclean : wbFind m da = none → cleanOnDies m.packs[pk] m.mem da (errsOf errs 0) b) :
    let m' := scrubSlot pk slot errs m
    m'.mem = m.mem ∧ (m'.packs[pk] : PackSt).queue = (m.packs[pk] : PackSt).queue ∧ (m'.packs[pk] : PackSt).lastScrub = m.tb.now ∧
      m'.slices = m.slices ∧
      if credit < interval then
        (m'.packs[pk] : PackSt).patrol = (m.packs[pk] : PackSt).patrol ∧ (m'.packs[pk] : PackSt).credit = credit
      else (m'.packs[pk] : PackSt).patrol = tabPut (m.packs[pk] : PackSt).patrol bank ((n + 1) % 2 ^ 24) ∧
        (m'.packs[pk] : PackSt).credit = credit - interval := by
  obtain ⟨hpass, -, hpatrol⟩ := scrubSlot_by_use errs h (scrubUse_accrue h.intervalIs hqueue htests htest hroom)
  rw [hn, hda] at hpass hpatrol
  intro m'
  by_cases hdue : credit < interval
  · have hm' : m' = _ := hpass (if_pos hdue)
    rw [hm', if_pos hdue, countSlots_mem, countSlots_slices, countSlots_packs, packs_accrue]
    exact ⟨rfl, rfl, rfl, rfl, rfl, rfl⟩
  · have hbatt : battOf da = da := by rw [← hda, battOf_daOf]
    have hm' : m' = _ := hpatrol da (if_neg hdue)
    obtain ⟨hmem, hslices, raa, hpack⟩ := patrolSlot_frame (pk := pk) (slot := slot) (errs := errs) (b := b)
      (x := onPack pk (patrolled (credit - interval) bank) (accrue pk credit m)) hbatt htest
      (by rw [packs_onPack_self, packs_accrue]; exact hclean)
    rw [← hm'] at hmem hslices hpack
    rw [if_neg hdue, hmem, hslices, hpack, packs_onPack_self, packs_accrue, ← hn]
    exact ⟨rfl, rfl, rfl, rfl, rfl, rfl⟩

end

/-! ### The statement -/

theorem scrubSlotsPatrol : ScrubSlotsPatrol := by
  refine ⟨fun pk slot errs q b s hp hruns => ?writeBack, fun pk slot errs b s hp hruns => ?patrol⟩
  case writeBack =>
    intro w p hclass hdata hdiag hq hwhy hstop
    exact completes_of_onMod _ rfl hp (scrubSlot_writeBack errs ⟨hruns, hclass, hdata, hdiag, rfl, rfl, rfl⟩ hq hwhy hstop)
  case patrol =>
    intro w p n da hclass hdata hdiag htest hqueue htests hroom hclean
    exact completes_of_onMod _ rfl hp (scrubSlot_patrol errs ⟨hruns, hclass, hdata, hdiag, rfl, rfl, rfl⟩ htest hqueue htests hroom rfl
      (battOf_daOf ..).symm hclean)

/-- Settles O19: each slot's work follows from the use that it is put to, and what a slot counts touches nothing that a clause names. -/
theorem maintenanceSlotsServe : Obligations.MaintenanceSlotsServe := ⟨refreshAndTrainSlotsServe, scrubSlotsPatrol⟩

end Sys2Proof.Machine
end

