-- ==== Sys2Proof/Proofs/FrameBoundaries.lean ====
section
/-! PROOFS. Frame boundaries (O16): what ends with a frame, what a swap of the running set's variant changes, and why the frame runs on. -/
namespace Sys2Proof.Machine

open Sys2Proof.Stmt

/-- A command whose change of the module leaves it as it is changes nothing. -/
theorem exec_of_fixed {c : Instr} {s : State} (f : Mod → Mod) (hc : exec c s = .next (onMod f s)) (h : f s.m = s.m) : exec c s = .next s := by
  rw [hc, onMod_of_fixed f s h]

/-! ### The power state that an event leaves (R495) -/

/-- A wake cause starts no entry into a power state: outside an entry it begins an exit, or it changes nothing. -/
theorem wake_power_state (c : Nat) {m : Mod} (h : m.power.state ≠ 4) : (wake c m).power.state ≠ 4 := by
  have hexit : (5 : Nat) ≠ 4 := by decide
  simp only [wake, beq_false_of_ne h, Bool.false_and, Bool.false_eq_true, if_false]
  split_ifs
  exacts [h, hexit, hexit, hexit, h]

/-- Of what an event does, a wake cause alone touches the power state. -/
theorem raiseAt_power_state (fr : Word32) (k : BitVec 16) (sv : Nat) (l : Word32) (d : Word64) {m : Mod} (h : m.power.state ≠ 4) :
    (raiseAt fr k sv l d m).power.state ≠ 4 := by
  unfold raiseAt
  extract_lets events sev uart flash logged entry queued counted
  have huart : uart.power = m.power := by simp only [uart]; split <;> rfl
  have hlogged : logged.power = m.power := by rw [← huart]; simp only [logged]; split <;> rfl
  have hcounted : counted.power = m.power := by rw [← hlogged]; exact perfCount_power ..
  split_ifs
  · exact wake_power_state 8 (by rwa [hcounted])
  · rwa [hcounted]
  · rw [perfCount_power]; rwa [← hlogged] at h

theorem event_power_state (k : BitVec 16) (l : Word32) (d : Nat) {m : Mod} (h : m.power.state ≠ 4) : (event k l d m).power.state ≠ 4 :=
  raiseAt_power_state _ _ _ _ _ h

/-! ### A swap takes effect (R105, R106, R129) -/

/-- The schedule after a swap to another variant of the running set. -/
def variantSwapped (w : Swap) (sc : Sched) : Sched :=
  { sc with variant := w.variant, swap := none, subst := w.subst, further := none
            gap := (varAt sc.active sc.variant).fsp != (varAt sc.active w.variant).fsp }

/-- The set points of a gap go out (R106). -/
theorem setPoints_eq (change : Bool) (fsp : Bool) (m : Mod) : ∃ out,
    (if change then (List.finRange 8).foldl (fun m p => send (.dram p 0 0 0 (.setPoint fsp)) m) m else m) = { m with out := out } := by
  split
  · exact sendAll_out _ _ m
  · exact ⟨m.out, rfl⟩

/-- A swap to another variant of the running set changes the schedule, the budgets' marks of the ports, and what is reported. -/
theorem swapEffect_variant {w : Swap} {m : Mod} (hnew : w.newSet = false) (hfurther : m.sched.further = none) :
    ∃ ports out d, let x := event 0x0102 0 d { m with sched := variantSwapped w m.sched, ports := ports, out := out }
      swapEffect w m = if w.subst then substEvent w.variant w.band w.level x else x := by
  unfold swapEffect
  simp only [hnew, hfurther, Bool.false_eq_true, if_false, Option.elim_none, Bool.false_and]
  obtain ⟨out, hout⟩ := setPoints_eq ((varAt m.sched.active m.sched.variant).fsp != (varAt m.sched.active w.variant).fsp)
    (varAt m.sched.active w.variant).fsp { m with sched := variantSwapped w m.sched }
  rw [variantSwapped] at hout
  rw [hout]
  exact ⟨_, out, _, rfl⟩

/-- Such a swap leaves the batts and the pending writes, ends no reload, and starts no entry into a power state. -/
theorem swapEffect_variant_frame {w : Swap} {m : Mod} (hnew : w.newSet = false) (hfurther : m.sched.further = none) :
    let x := swapEffect w m
    x.sched = variantSwapped w m.sched ∧ x.mem = m.mem ∧ x.wbuf = m.wbuf ∧ x.prot = m.prot ∧
      (m.power.state ≠ 4 → x.power.state ≠ 4) := by
  intro x
  obtain ⟨ports, out, d, hx⟩ := swapEffect_variant hnew hfurther
  have hx : x = _ := hx
  rw [hx, substEvent]
  split
  · simp only [event_sched, event_mem, event_wbuf, event_prot, true_and]
    exact fun h => event_power_state _ _ _ (event_power_state _ _ _ h)
  · simp only [event_sched, event_mem, event_wbuf, event_prot, true_and]
    exact fun h => event_power_state _ _ _ h

/-! ### The end of a frame (R105, R109) -/

/-- What ends with a frame: its number, its OPEN budgets, and what is kept for one frame. -/
def frameEnds (m : Mod) : Mod :=
  { m with
    sched := { m.sched with frameNo := m.sched.frameNo + 1, frameStart := m.tb.now, joining := 0 }
    packs := m.packs.map (fun (p : PackSt) => { p with used := p.usedNext, usedNext := [] })
    prot := { m.prot with keyEvents := [] }
    ports := m.ports.map (fun _ q => { q with overFrame := [] }) }

/-- What the end of a frame does with the swap that waits. -/
def swapAdvances (m : Mod) : Mod :=
  match m.sched.swap with
  | none => m
  | some w =>
    if w.framesLeft ≤ 1 then swapEffect w m else { m with sched := { m.sched with swap := some { w with framesLeft := w.framesLeft - 1 } } }

section
variable {m : Mod} {w : Swap}

theorem swapAdvances_none (h : m.sched.swap = none) : swapAdvances m = m := by simp only [swapAdvances, h]

theorem swapAdvances_waits (h : m.sched.swap = some w) (hleft : 1 < w.framesLeft) :
    swapAdvances m = { m with sched := { m.sched with swap := some { w with framesLeft := w.framesLeft - 1 } } } := by
  simp only [swapAdvances, h, if_neg (Nat.not_le.mpr hleft)]

theorem swapAdvances_due (h : m.sched.swap = some w) (hleft : w.framesLeft ≤ 1) : swapAdvances m = swapEffect w m := by
  simp only [swapAdvances, h, if_pos hleft]

theorem frameBoundary_idle (h : m.sched.running = false ∨ m.sched.gap = true) : frameBoundary m = m := by
  have hidle : (!m.sched.running || m.sched.gap) = true := by rcases h with h | h <;> simp [h]
  exact if_pos hidle

/-- With no entry into a power state under way and no reload, the frame does not stop at its end. -/
theorem frameBoundary_runs (hrun : m.sched.running = true) (hgap : m.sched.gap = false)
    (hstate : (swapAdvances (frameEnds m)).power.state ≠ 4) (hreload : (swapAdvances (frameEnds m)).prot.reload = none) :
    frameBoundary m = swapAdvances (frameEnds m) := by
  have hgoes : (!m.sched.running || m.sched.gap) = false := by simp [hrun, hgap]
  refine (if_neg (Bool.eq_false_iff.mp hgoes)).trans ((if_neg ?_).trans (if_neg ?_))
  · show ¬ ((swapAdvances (frameEnds m)).power.state == 4 && _ && _) = true
    simp [hstate]
  · show ¬ ((swapAdvances (frameEnds m)).prot.reload.elim false _ && _) = true
    simp [hreload]

end

/-! ### The statement -/

/-- Settles O16: the end of a frame ends what the frame keeps and advances its swap, and a swap of the variant starts nothing that would
stop the frame. -/
theorem framesEndAndSwap : Obligations.FramesEndAndSwap := by
  refine ⟨fun s hp hrun hgap hswap hstate hreload => ?noSwap, fun w s hp hrun hgap hswap hleft hstate hreload => ?waits,
    fun w s hp hrun hgap hswap hleft hnew hfurther hstate hreload => ?due, fun s hp hgap => ?gapEnds, fun s hidle => ?idle,
    fun s hgap => ?noGap⟩
  case noSwap =>
    have hadv : swapAdvances (frameEnds s.m) = frameEnds s.m := swapAdvances_none hswap
    exact completes_of_onMod _ rfl hp ((frameBoundary_runs hrun hgap (by rwa [hadv]) (by rwa [hadv])).trans hadv)
  case waits =>
    have hadv := swapAdvances_waits (m := frameEnds s.m) hswap hleft
    refine completes_of_onMod _ rfl hp ?_
    rw [frameBoundary_runs hrun hgap (by rwa [hadv]) (by rwa [hadv]), hadv]
    exact ⟨rfl, rfl⟩
  case due =>
    have hadv := swapAdvances_due (m := frameEnds s.m) hswap hleft
    obtain ⟨hsched, hmem, hwbuf, hprot, hpower⟩ := swapEffect_variant_frame (m := frameEnds s.m) hnew hfurther
    refine completes_of_onMod _ rfl hp ?_
    rw [frameBoundary_runs hrun hgap (by rw [hadv]; exact hpower hstate) (by rw [hadv, hprot]; exact hreload), hadv, hsched, hmem, hwbuf]
    exact ⟨rfl, rfl, rfl, rfl, rfl, hrun, rfl, rfl, rfl, rfl⟩
  case gapEnds => exact completes_of_onMod _ rfl hp (if_pos hgap)
  case idle => exact exec_of_fixed _ rfl (frameBoundary_idle hidle)
  case noGap => exact exec_of_fixed _ rfl (if_neg (Bool.eq_false_iff.mp hgap))

end Sys2Proof.Machine
end

