-- ==== Sys2Proof/Proofs/DispatchPoints.lean ====
section
/-! PROOFS. Dispatch points and missed slots (O17): the request that a class offers, what a slot of a class and an OPEN slot take, and
what a missed slot gives back. -/
namespace Sys2Proof.Machine

open Sys2Proof.Stmt

/-! ### The head of a bank queue (R58, R89, R90) -/

section
variable {m : Mod} {pk : Pack} {c : SlotClass} {bank : Nat}

/-- With no read at the head that the write buffer serves, the queue stays as it is. -/
theorem serveBuffered_of_unbuffered (n : Nat) (h : unbuffered m pk c bank) : serveBuffered n pk c bank m = m := by
  cases n with
  | zero => rfl
  | succ n =>
    rw [serveBuffered]
    cases hq : headOf m.packs[pk] c bank with
    | none => rfl
    | some q =>
      have hno : ¬ (!q.write && (reqBatts q).all (fun da => (wbFind m da).isSome)) = true := by
        rcases h q hq with hwrite | hread
        · simp [hwrite]
        · rw [hread, Bool.and_false]; exact Bool.false_ne_true
      exact if_neg hno

theorem foldl_serveBuffered_of_unbuffered (n : Nat) (l : List SlotClass) (h : ∀ c ∈ l, unbuffered m pk c bank) :
    l.foldl (fun m c => serveBuffered n pk c bank m) m = m := by
  induction l with
  | nil => rfl
  | cons c l ih =>
    obtain ⟨hc, hl⟩ := List.forall_mem_cons.mp h
    rw [List.foldl_cons, serveBuffered_of_unbuffered n hc, ih hl]

/-- What a class offers of a head `q`: a write outside a diagnosis, a read with room for its batts. -/
theorem offer_of_head {q : DReq} (hq : headOf m.packs[pk] c bank = some q) : offer m pk c bank =
    if (q.write = true → (m.packs[pk] : PackSt).diag = none) ∧ (q.write = false → readRoom m (packTile pk) q = true)
      then some q else none := by
  simp only [offer, hq, Option.bind_some]
  cases q.write <;> cases (m.packs[pk] : PackSt).diag <;> simp

theorem offer_none (h : ∀ q, headOf (m.packs[pk] : PackSt) c bank = some q →
    q.write = true ∧ (m.packs[pk] : PackSt).diag ≠ none ∨ q.write = false ∧ readRoom m (packTile pk) q = false) :
    offer m pk c bank = none := by
  cases hq : headOf (m.packs[pk] : PackSt) c bank with
  | none => simp only [offer, hq, Option.bind_none]
  | some q =>
    rw [offer_of_head hq, if_neg]
    rintro ⟨hdiag, hroom⟩
    rcases h q hq with ⟨hwrite, hd⟩ | ⟨hread, hr⟩
    · exact hd (hdiag hwrite)
    · rw [hroom hread] at hr; cases hr

end

/-! ### Dispatch points (R87, R99, R111) -/

theorem dispatchPoint_idle {m : Mod} {pk : Pack} (slot : Nat) (ahead : Bool) (h : packJoins m pk = false) : dispatchPoint pk slot ahead m = m :=
  if_pos (by simp [h])

section
variable {m : Mod} {pk : Pack} {slot : Nat} {ahead : Bool} {w : Word64} (hjoins : packJoins m pk = true) (hw : slotWord m pk slot ahead = w)
include hjoins hw

/-- The slot of a class binds what the class offers, or passes and is counted. -/
theorem dispatchPoint_of_class {c : SlotClass} (hslot : classSlot w c) (hun : unbuffered m pk c (swBank w)) :
    dispatchPoint pk slot ahead m = match offer m pk c (swBank w) with
      | none => countSlots pk slot c.code (if c = .cellWr ∨ c = .cellRd then 4 else 1) false none m
      | some q => bindReq pk q slot ahead c.code m := by
  obtain ⟨hdata, hcode, hown, hfirst⟩ := hslot
  have hbegin := serveBuffered_of_unbuffered 256 hun
  simp only [dispatchPoint, hjoins, hw, hdata, hcode, Bool.not_true, Bool.false_eq_true, if_true, if_false]
  cases c
  case openSlot | scrub | train | refresh => simp at hown
  case cellWr | cellRd =>
    dsimp only
    rw [hbegin, hfirst (by decide)]
    rfl
  case lineFill | lineWb | metaSlot | tier | job | mirror =>
    dsimp only
    rw [hbegin]
    rfl

/-- An OPEN slot or group takes the winner of the classes that compete for it (R99). -/
theorem dispatchPoint_of_openWinner {q : DReq} (hdata : swData w = true) (hclass : swClass w = 0) (hinner : innerOpen m pk slot ahead = false)
    (hun : ∀ c ∈ openClasses (swFirst w), unbuffered m pk c (swBank w)) (hwin : openWinner m pk (swBank w) (swFirst w) ahead = some q) :
    dispatchPoint pk slot ahead m = countOpen pk slot q.cls (if swFirst w then 4 else 1) ahead (bindReq pk q slot ahead 0 m) := by
  have hopen : SlotClass.ofCode 0 = some .openSlot := rfl
  simp only [dispatchPoint, hjoins, hw, hdata, hclass, hopen, hinner, Bool.not_true, Bool.false_eq_true, if_true, if_false,
    foldl_serveBuffered_of_unbuffered 256 _ hun, hwin]

end

/-- What binding a request to a slot changes: it leaves its queue for the sequencer of its pack. -/
theorem packs_bindReq (pk : Pack) (q : DReq) (slot : Nat) (ahead : Bool) (cls : Nat) (m : Mod) :
    ((bindReq pk q slot ahead cls m).packs[pk] : PackSt) = { (m.packs[pk] : PackSt) with
      queue := (m.packs[pk] : PackSt).queue.erase q
      bound := (m.packs[pk] : PackSt).bound ++ [⟨q, slot, m.sched.frameNo + (if ahead then 1 else 0), cls⟩] } := packs_onPack_self ..

theorem dispatchPointsBind : DispatchPointsBind := by
  refine ⟨fun pk slot ahead c q s hp hjoins => ?binds, fun pk slot ahead c s hp hjoins => ?passes,
    fun pk slot ahead q s hp hjoins => ?openSlot, fun pk slot ahead s hout => ?idle⟩
  case binds =>
    intro w hslot hq hun hdiag hroom
    refine completes_of_onMod _ rfl hp ?_
    rw [dispatchPoint_of_class hjoins rfl hslot hun, offer_of_head hq, if_pos ⟨hdiag, hroom⟩]
    exact ⟨packs_bindReq .., rfl, fun p hne => packs_onPack_of_ne _ _ hne⟩
  case passes =>
    intro w hslot hun hnone
    refine completes_of_onMod _ rfl hp ?_
    rw [dispatchPoint_of_class hjoins rfl hslot hun, offer_none hnone]
  case openSlot =>
    intro w hdata hclass hinner hun hwin
    exact completes_of_onMod _ rfl hp (dispatchPoint_of_openWinner hjoins rfl hdata hclass hinner hun hwin)
  case idle => exact exec_of_fixed _ rfl (dispatchPoint_idle slot ahead hout)

/-! ### Missed slots (R101) -/

/-- The pack's record of its missed slots after one more. -/
def withMiss (cls : Nat) (p : PackSt) : PackSt := { p with misses := satAdd 0xFFFFFF p.misses 1, lastClass := cls, sinceBand := true }

/-- A miss is counted in its pack and reported, with the slot's frame, number and class. -/
theorem countMiss_eq (pk : Pack) (slot cls : Nat) (frame : Word32) (da : Option Nat) (m : Mod) :
    ∃ perf, countMiss pk slot cls frame da m = raiseAt frame 0x0101 1 (locCode pk.val none none none none none none)
      (BitVec.ofNat 64 (slot % 65536 + cls * 65536)) { onPack pk (withMiss cls) m with perf := perf } := by
  obtain ⟨perf, h⟩ := perfCount_eq (onPack pk (withMiss cls) m) (tilePage (packTile pk)) (perfSlot 4 cls slot da) (some (pk.val % 2 == 1))
  exact ⟨perf, by rw [← h]; rfl⟩

/-- The request bound to a slot is back at the head of its bank queue. -/
def givenBack (b : Bound) (p : PackSt) : PackSt := requeue b.req { p with bound := p.bound.erase b }

/-- The slot of a bound request: the request goes back to the head of its queue. -/
theorem slotMissed_of_bound {pk : Pack} {slot : Nat} {m : Mod} {b : Bound}
    (hb : (m.packs[pk] : PackSt).bound.find? (fun x => x.slot == slot) = some b) : slotMissed pk slot m =
      countMiss pk slot b.slotCls b.frame (some b.req.da) (onPack pk (givenBack b) m) := by
  simp only [slotMissed, hb]
  rfl

section
variable {pk : Pack} {slot : Nat} {m : Mod} (hb : (m.packs[pk] : PackSt).bound.find? (fun x => x.slot == slot) = none)
include hb

/-- A SCRUB slot with work, which stays where it waits. -/
theorem slotMissed_of_scrub {da : Nat} (hruns : packRuns m pk = true) (hdata : swData (slotWord m pk slot false) = true)
    (hclass : swClass (slotWord m pk slot false) = 7) (hwork : scrubWork m.packs[pk] (swBank (slotWord m pk slot false)) = some da) :
    slotMissed pk slot m = countMiss pk slot 7 m.sched.frameNo (some da) m := by
  simp only [slotMissed, hb, hruns, hdata, hclass, beq_self_eq_true, Bool.and_self, if_true, hwork]

theorem slotMissed_of_empty (hclass : swClass (slotWord m pk slot false) ≠ 7) : slotMissed pk slot m = m := by
  simp only [slotMissed, hb, beq_false_of_ne hclass, Bool.and_false, Bool.false_eq_true, if_false]

end

theorem missedSlotsAreReported : MissedSlotsAreReported := by
  refine ⟨fun pk slot b s hp hb => ?bound, fun pk slot da s hp hruns hb => ?scrub, fun pk slot s hb hclass => ?empty⟩
  case bound =>
    refine completes_of_onMod _ rfl hp ?_
    obtain ⟨perf, hmiss⟩ := countMiss_eq pk slot b.slotCls b.frame (some b.req.da) (onPack pk (givenBack b) s.m)
    rw [slotMissed_of_bound hb, hmiss, onPack_onPack]
    exact ⟨_, rfl, packs_onPack_self pk (withMiss b.slotCls ∘ givenBack b) s.m,
      fun p hne => packs_onPack_of_ne (withMiss b.slotCls ∘ givenBack b) s.m hne, perf, _, rfl⟩
  case scrub =>
    intro w hdata hclass hwork
    refine completes_of_onMod _ rfl hp ?_
    obtain ⟨perf, hmiss⟩ := countMiss_eq pk slot 7 s.m.sched.frameNo (some da) s.m
    rw [slotMissed_of_scrub hb hruns hdata hclass hwork, hmiss]
    exact ⟨_, rfl, packs_onPack_self pk (withMiss 7) s.m, perf, _, rfl⟩
  case empty => exact exec_of_fixed _ rfl (slotMissed_of_empty hb hclass)

/-! ### The statement -/

/-- Settles O17: a dispatch point binds what its class offers or the OPEN winner, and a missed slot gives its request back before the
miss is counted and reported. -/
theorem dispatchPointsBindAndMissedSlotsReport : Obligations.DispatchPointsBindAndMissedSlotsReport :=
  ⟨dispatchPointsBind, missedSlotsAreReported⟩

end Sys2Proof.Machine
end

