-- ==== Sys2Proof/Proofs/DataPhases.lean ====
section
/-! PROOFS. Data phases (O18): what the service of a bound request leaves, what its batts are on the dies and in the write buffer, and
what a diagnosis does with the request. -/
namespace Sys2Proof.Machine

open Sys2Proof.Stmt

/-! ### The service of a bound request (R81 to R83, R96, R111) -/

/-- The batts of a request count for its label (R415). -/
def labelServed (q : DReq) (m : Mod) : Mod :=
  if labelled q.cls then onLabel q.label (fun l => { l with batts := l.batts + BitVec.ofNat 64 (reqBatts q).length }) m else m

/-- The oldest bound request of a pack leaves its sequencer: its commands go out, and its row and its slots count. -/
def phaseServed (pk : Pack) (b : Bound) (rest : List Bound) (m : Mod) : Mod :=
  countSlots pk b.slot b.slotCls (reqBatts b.req).length true (some b.req.da)
    (labelServed b.req (activated pk b.req.da (issueCommands pk b.slot (reqBatts b.req) b.req.write
      (onPack pk (fun p => { p with bound := rest }) m))))

/-- The pack of a bound request after its service. -/
def packServed (rest : List Bound) (da : Nat) (p : PackSt) : PackSt :=
  { p with bound := rest, raa := tabMod 0 p.raa (daRank da) (· + 1) }

theorem labelServed_eq (q : DReq) (m : Mod) : ∃ labels, labelServed q m = { m with labels := labels } := by
  unfold labelServed
  split
  · exact ⟨_, rfl⟩
  · exact ⟨m.labels, rfl⟩

theorem phaseServed_eq (pk : Pack) (b : Bound) (rest : List Bound) (m : Mod) : ∃ perf out labels,
    phaseServed pk b rest m = { onPack pk (packServed rest b.req.da) m with perf := perf, out := out, labels := labels } := by
  obtain ⟨out, hissue⟩ := issueCommands_eq pk b.slot (reqBatts b.req) b.req.write (onPack pk (fun p => { p with bound := rest }) m)
  obtain ⟨labels, hlabel⟩ := labelServed_eq b.req (activated pk b.req.da { onPack pk (fun p => { p with bound := rest }) m with out := out })
  obtain ⟨perf, hcount⟩ := countSlots_eq pk b.slot b.slotCls (reqBatts b.req).length true (some b.req.da)
    { activated pk b.req.da { onPack pk (fun p => { p with bound := rest }) m with out := out } with labels := labels }
  refine ⟨perf, out, labels, ?_⟩
  rw [phaseServed, hissue, hlabel, hcount]
  simp [activated, onPack, packServed]

/-- A module in which the oldest request of a pack has left for its data phase, and no batt, slice or pending write has changed. -/
structure ReadsFor (pk : Pack) (rest : List Bound) (m x : Mod) : Prop where
  mem : x.mem = m.mem
  slices : x.slices = m.slices
  here : x.here = m.here
  wbuf : x.wbuf = m.wbuf
  bound : (x.packs[pk] : PackSt).bound = rest
  diag : (x.packs[pk] : PackSt).diag = (m.packs[pk] : PackSt).diag

section
variable (pk : Pack) (b : Bound) (rest : List Bound) (m : Mod)

@[simp] theorem phaseServed_rings : (phaseServed pk b rest m).rings = m.rings := by
  obtain ⟨_, _, _, h⟩ := phaseServed_eq pk b rest m; rw [h]; rfl
@[simp] theorem phaseServed_prot : (phaseServed pk b rest m).prot = m.prot := by
  obtain ⟨_, _, _, h⟩ := phaseServed_eq pk b rest m; rw [h]; rfl
@[simp] theorem wbFind_phaseServed (da : Nat) : wbFind (phaseServed pk b rest m) da = wbFind m da := by
  obtain ⟨_, _, _, h⟩ := phaseServed_eq pk b rest m; rw [h]; rfl
@[simp] theorem testChan_phaseServed (p : Pack) : testChan (phaseServed pk b rest m) p = testChan m p := by
  obtain ⟨_, _, _, h⟩ := phaseServed_eq pk b rest m; rw [h]; rfl
theorem packs_phaseServed (p : Pack) :
    ((phaseServed pk b rest m).packs[p] : PackSt) = if p = pk then packServed rest b.req.da m.packs[p] else m.packs[p] := by
  obtain ⟨_, _, _, h⟩ := phaseServed_eq pk b rest m; rw [h]; exact packs_onPack ..
theorem packs_phaseServed_self : ((phaseServed pk b rest m).packs[pk] : PackSt) = packServed rest b.req.da m.packs[pk] := by
  rw [packs_phaseServed, if_pos rfl]

theorem readsFor_phaseServed : ReadsFor pk rest m (phaseServed pk b rest m) := by
  obtain ⟨_, _, _, h⟩ := phaseServed_eq pk b rest m
  have hpack := packs_phaseServed_self pk b rest m
  refine ⟨?_, ?_, ?_, ?_, by rw [hpack]; rfl, by rw [hpack]; rfl⟩
  all_goals rw [h]; rfl

/-- The marks of every pack stay. -/
theorem rankState_phaseServed (p : Pack) (rank : Nat) : rankState (phaseServed pk b rest m).packs[p] rank = rankState m.packs[p] rank := by
  rw [packs_phaseServed]
  split <;> rfl

end

section
variable {pk : Pack} {b : Bound} {rest : List Bound} {m : Mod} (errs : Errs)

theorem dataPhaseEnd_of_empty (hb : (m.packs[pk] : PackSt).bound = []) : dataPhaseEnd pk errs m = m := by
  simp only [dataPhaseEnd, hb]

variable (hb : (m.packs[pk] : PackSt).bound = b :: rest)
include hb

/-- A write that a diagnosis has come before goes back, and its slot passes (R58). -/
theorem dataPhaseEnd_of_write_in_diag {d : Diag} (hwrite : b.req.write = true) (hdiag : (m.packs[pk] : PackSt).diag = some d) :
    dataPhaseEnd pk errs m = countSlots pk b.slot b.slotCls (reqBatts b.req).length false none
      (onPack pk (fun p => { p with bound := rest, queue := b.req :: p.queue }) m) := by
  simp only [dataPhaseEnd, hb, hwrite, packs_onPack_self, hdiag, Option.isSome_some, Bool.and_self, if_true, onPack_onPack]
  rfl

theorem dataPhaseEnd_of_write (hwrite : b.req.write = true) (hdiag : (m.packs[pk] : PackSt).diag = none) :
    dataPhaseEnd pk errs m = wakeTile (packTile pk) (writeDone b.req (phaseServed pk b rest m)) := by
  simp only [dataPhaseEnd, hb, hwrite, packs_onPack_self, hdiag, Option.isSome_none, Bool.and_false, Bool.false_eq_true, if_true, if_false]
  rw [phaseServed, hwrite]
  rfl

theorem dataPhaseEnd_of_read (hread : b.req.write = false) :
    dataPhaseEnd pk errs m = wakeTile (packTile pk) (readDone pk b.req errs (phaseServed pk b rest m)) := by
  simp only [dataPhaseEnd, hb, hread, Bool.false_and, Bool.false_eq_true, if_false]
  rw [phaseServed, hread]
  rfl

end

/-! ### A write's batt (R73, R90) -/

/-- The pending write of a batt is gone from the buffer and from the stage before it. -/
theorem wbFind_wbDel (da : Nat) (m : Mod) : wbFind (wbDel da m) da = none := by
  simp [wbFind, wbDel, List.find?_eq_none]

theorem wbDel_packs (da : Nat) (m : Mod) : (wbDel da m).packs = m.packs := rfl

/-- A pack that keeps poison markers after a write of a batt: the batt has one where it is poisoned (R73, R77). -/
def markedAs (da : Nat) (poison : Bool) (p : PackSt) : PackSt :=
  { cleanBatt da p with markers := if poison then da :: (cleanBatt da p).markers else (cleanBatt da p).markers }

theorem markers_markedAs (da : Nat) (poison : Bool) (p : PackSt) : (markedAs da poison p).markers.contains da = poison := by
  cases poison <;> simp [markedAs, cleanBatt]

/-- Outside integrity stop, in a Clean or Degraded rank, a write stores its data and marks its poison. -/
theorem writeBatt_marked {da : Nat} {m : Mod} (b : Batt) (poison : Bool) (hstop : m.prot.stop = none)
    (hrank : rankState m.packs[daPack da] (daRank da) ≤ 1) :
    writeBatt da b poison m = onPack (daPack da) (markedAs da poison) { m with mem := memPutBatt m.mem da b } := by
  cases poison with
  | false => simp only [writeBatt, hstop]; rfl
  | true =>
    have hrank : rankState m.packs[daPack da] (daRank da) = 0 ∨ rankState m.packs[daPack da] (daRank da) = 1 := by omega
    rcases hrank with h | h <;> simp only [writeBatt, hstop, h] <;> rfl

/-- The write of a batt, with its entry in the write buffer. -/
theorem writeDone_batt {q : DReq} {m : Mod} {e : WEntry} (hwhy : q.why = .write) (hgroup : q.group = false) (he : wbFind m q.da = some e) :
    writeDone q m = wbDel q.da (writeBatt q.da e.data e.poison m) := by
  simp [writeDone, reqBatts, hwhy, hgroup, he]

/-! ### What a read's batts give (R48 to R54, R76) -/

/-- What a read of a batt gives of its pack, the DRAM image, and the channel under test. -/
def rawOf (p : PackSt) (mem : List Host.Cell) (chan : Option Nat) (da : Nat) (errs : List (Nat × Nat × Byte)) : RawRead :=
  if rankState p (daRank da) == 3 || p.poisonList.contains da || p.poisonPend.contains da then .known
  else match decodeBatt (erasedAt p chan da) (memBatt mem da) (p.markers.contains da) (testPattern p chan da (memBatt mem da) ++ errs) with
    | .good b _ => .data b
    | .marker => .marker
    | .bad => .bad

/-- A corrected batt counts in its pack, whose bound requests and diagnosis stay. -/
theorem countFixed_eq (pk : Pack) (da : Nat) (fixed : List Nat) (m : Mod) : ∃ packs perf,
    countFixed pk da fixed m = { m with packs := packs, perf := perf } ∧
      (packs[pk] : PackSt).bound = (m.packs[pk] : PackSt).bound ∧ (packs[pk] : PackSt).diag = (m.packs[pk] : PackSt).diag := by
  unfold countFixed
  split
  · exact ⟨m.packs, m.perf, rfl, rfl, rfl⟩
  · obtain ⟨perf, hcount⟩ := perfCount_eq m (tilePage (packTile pk)) (perfSlot 0x09 15 0 (some da)) (some (pk.val % 2 == 1))
    simp only [hcount]
    exact ⟨_, perf, rfl, by simp, by simp⟩

theorem rawRead_eq (pk : Pack) (da : Nat) (errs : List (Nat × Nat × Byte)) (m : Mod) : ∃ fixed,
    rawRead pk da errs m = (rawOf m.packs[pk] m.mem (testChan m pk) da errs, countFixed pk da fixed m) := by
  have hnone : countFixed pk da [] m = m := rfl
  simp only [rawRead, rawOf]
  split
  · exact ⟨[], by rw [hnone]⟩
  · cases decodeBatt (erasedAt m.packs[pk] (testChan m pk) da) (memBatt m.mem da) ((m.packs[pk] : PackSt).markers.contains da)
      (testPattern m.packs[pk] (testChan m pk) da (memBatt m.mem da) ++ errs) with
    | good v fixed => exact ⟨fixed, rfl⟩
    | marker | bad => exact ⟨[], by rw [hnone]⟩

/-- A read of one batt, with no pending write of it, is a read of the dies. -/
theorem readBatts_batt {q : DReq} {m : Mod} (pk : Pack) (errs : Errs) (hgroup : q.group = false) (hwb : wbFind m q.da = none) :
    readBatts pk q errs m = ([(rawRead pk q.da (errsOf errs 0) m).1], (rawRead pk q.da (errsOf errs 0) m).2) := by
  simp [readBatts, reqBatts, hgroup, hwb]

/-! ### A read's data phase (R54, R55, R58, R189) -/

/-- The read of a batt as a diagnosis holds it. -/
def heldRead (q : DReq) (l : List RawRead) : HeldRead := ⟨{ q with tried := q.tried || l.contains .bad }, l⟩

section
variable {pk : Pack} {m : Mod} (q : DReq) (l : List RawRead)

/-- A read that a diagnosis holds leaves the batts, the slices, what has been read, and the requests sent to its pack. -/
theorem holdRead_frame : (holdRead pk q l m).mem = m.mem ∧ (holdRead pk q l m).slices = m.slices ∧ (holdRead pk q l m).here = m.here ∧
    ((holdRead pk q l m).packs[pk] : PackSt).bound = (m.packs[pk] : PackSt).bound :=
  ⟨rfl, rfl, rfl, by rw [holdRead, packs_onPack_self]; rfl⟩

theorem holdRead_joins {d : Diag} (hdiag : (m.packs[pk] : PackSt).diag = some d) :
    ((holdRead pk q l m).packs[pk] : PackSt).diag = some { d with held := d.held ++ [heldRead q l] } := by
  rw [holdRead, packs_onPack_self, touch_packs, hdiag]; rfl

theorem holdRead_starts (hdiag : (m.packs[pk] : PackSt).diag = none) :
    ((holdRead pk q l m).packs[pk] : PackSt).diag = some ⟨daRank q.da, 0, 0, [heldRead q l]⟩ := by
  rw [holdRead, packs_onPack_self, touch_packs, hdiag]; rfl

end

section
variable {pk : Pack} {q : DReq} {m : Mod} (errs : Errs)

theorem readDone_in_diag {d : Diag} (hdiag : (m.packs[pk] : PackSt).diag = some d) :
    readDone pk q errs m = holdRead pk q (readBatts pk q errs m).1 m := by
  simp only [readDone, hdiag, Option.isSome_some, if_true]

/-- The batt of a fill arrives for its line. -/
theorem respond_fill {sp : BitVec 2} {t : Tile} {a : Nat} (v : Batt) (hwhy : q.why = .fill sp t a) (hgroup : q.group = false) :
    respond pk q [.data v] m = { m with here := { own := .fill sp t a, da := q.da, data := v, poison := false } :: m.here } := by
  simp [respond, readArrives, needArrives, reqBatts, hgroup, hwhy]

/-- Outside a diagnosis, what the dies give of a batt decides: an uncorrectable batt that no diagnosis has seen starts one. -/
theorem readDone_batt {r : RawRead} {x : Mod} (hdiag : (m.packs[pk] : PackSt).diag = none) (hgroup : q.group = false)
    (hwb : wbFind m q.da = none) (hr : rawRead pk q.da (errsOf errs 0) m = (r, x)) :
    readDone pk q errs m = if .bad = r ∧ q.tried = false then holdRead pk q [r] x else respond pk q [r] x := by
  have hbad : ([r].contains .bad && !q.tried) = true ↔ .bad = r ∧ q.tried = false := by simp
  simp only [readDone, readBatts_batt pk errs hgroup hwb, hdiag, hr, Option.isSome_none, Bool.false_eq_true, if_false, hbad]

end

/-- The service of its request changes nothing of what a batt gives. -/
theorem rawRead_phaseServed (pk : Pack) (b : Bound) (rest : List Bound) (da : Nat) (errs : List (Nat × Nat × Byte)) (m : Mod) :
    ∃ x, rawRead pk da errs (phaseServed pk b rest m) = ((rawRead pk da errs m).1, x) ∧ ReadsFor pk rest m x := by
  obtain ⟨_, hbefore⟩ := rawRead_eq pk da errs m
  obtain ⟨fixed, hafter⟩ := rawRead_eq pk da errs (phaseServed pk b rest m)
  obtain ⟨packs, perf, hcount, hbound, hdiag⟩ := countFixed_eq pk da fixed (phaseServed pk b rest m)
  have h := readsFor_phaseServed pk b rest m
  rw [packs_phaseServed_self, h.mem, testChan_phaseServed, hcount] at hafter
  have hgives : (rawRead pk da errs m).1 = rawOf (packServed rest b.req.da m.packs[pk]) m.mem (testChan m pk) da errs := by
    rw [hbefore]; rfl
  rw [hgives]
  exact ⟨_, hafter, h.mem, h.slices, h.here, h.wbuf, hbound.trans h.bound, hdiag.trans h.diag⟩

/-! ### The statement -/

/-- Settles O18: the service of the bound request leaves its pack's data and marks, so each clause is what the write or the read does of
its own. -/
theorem dataPhasesEnd : Obligations.DataPhasesEnd := by
  refine ⟨fun pk errs b rest e s hp hb hdiag hwrite hwhy hgroup he hstop hrank => ?write,
    fun pk errs b rest sp t a v s hp hb hdiag hread hwhy hgroup hwb hdata => ?fill, fun pk errs b rest d s hp hb hread hdiag => ?held,
    fun pk errs b rest d s hp hb hwrite hdiag => ?back, fun pk errs b rest s hp hb hread hgroup htried hdiag hwb hbad => ?bad,
    fun pk errs s hb => ?empty⟩
  case write =>
    have h := readsFor_phaseServed pk b rest s.m
    have hdies := writeBatt_marked (m := phaseServed pk b rest s.m) e.data e.poison (by rwa [phaseServed_prot]) (by rwa [rankState_phaseServed])
    have hbound : ∀ y : Mod, ((onPack (daPack b.req.da) (markedAs b.req.da e.poison) y).packs[pk] : PackSt).bound =
        (y.packs[pk] : PackSt).bound := fun y => by rw [packs_onPack]; split <;> rfl
    refine completes_of_onMod _ rfl hp ⟨_, dataPhaseEnd_of_write errs hb hwrite hdiag, ?_⟩
    rw [writeDone_batt hwhy hgroup ((wbFind_phaseServed pk b rest s.m b.req.da).trans he), hdies, wbDel_packs, packs_onPack_self]
    exact ⟨congrArg (memPutBatt · b.req.da e.data) h.mem, wbFind_wbDel .., (hbound _).trans h.bound, markers_markedAs .., h.slices, h.here,
      phaseServed_rings ..⟩
  case fill =>
    obtain ⟨x, hraw, h⟩ := rawRead_phaseServed pk b rest b.req.da (errsOf errs 0) s.m
    rw [hdata] at hraw
    refine completes_of_onMod _ rfl hp ⟨_, dataPhaseEnd_of_read errs hb hread, ?_⟩
    rw [readDone_batt errs ((readsFor_phaseServed pk b rest s.m).diag.trans hdiag) hgroup (by rwa [wbFind_phaseServed]) hraw,
      if_neg (by simp), respond_fill v hwhy hgroup]
    exact ⟨congrArg _ h.here, h.bound, h.diag.trans hdiag, h.mem, h.wbuf, h.slices⟩
  case held =>
    have h := readsFor_phaseServed pk b rest s.m
    have hdiag := h.diag.trans hdiag
    refine completes_of_onMod _ rfl hp ⟨_, (readBatts pk b.req errs (phaseServed pk b rest s.m)).1, dataPhaseEnd_of_read errs hb hread, ?_⟩
    rw [readDone_in_diag errs hdiag]
    obtain ⟨hmem, hslices, hhere, hbound⟩ := holdRead_frame (pk := pk) (m := phaseServed pk b rest s.m) b.req
      (readBatts pk b.req errs (phaseServed pk b rest s.m)).1
    exact ⟨holdRead_joins _ _ hdiag, hbound.trans h.bound, hmem.trans h.mem, hslices.trans h.slices, hhere.trans h.here⟩
  case back => exact completes_of_onMod _ rfl hp (dataPhaseEnd_of_write_in_diag errs hb hwrite hdiag)
  case bad =>
    obtain ⟨x, hraw, h⟩ := rawRead_phaseServed pk b rest b.req.da (errsOf errs 0) s.m
    rw [hbad] at hraw
    refine completes_of_onMod _ rfl hp ⟨_, dataPhaseEnd_of_read errs hb hread, ?_⟩
    rw [readDone_batt errs ((readsFor_phaseServed pk b rest s.m).diag.trans hdiag) hgroup (by rwa [wbFind_phaseServed]) hraw,
      if_pos ⟨rfl, htried⟩]
    obtain ⟨hmem, hslices, hhere, hbound⟩ := holdRead_frame (pk := pk) (m := x) b.req [.bad]
    refine ⟨?_, hbound.trans h.bound, hmem.trans h.mem, hslices.trans h.slices, hhere.trans h.here⟩
    rw [holdRead_starts _ _ (h.diag.trans hdiag), heldRead, htried]
    rfl
  case empty => exact exec_of_fixed _ rfl (dataPhaseEnd_of_empty errs hb)

end Sys2Proof.Machine
end

