-- ==== Sys2Proof/Proofs/ImageSets.lean ====
section
/-! PROOFS. Image sets (O25): what an accepted admin command comes to, when a load waits and what its end makes of the bytes it read, and
which swap an activation commits. -/
namespace Sys2Proof.Machine

open Sys2Proof.Stmt

/-! ### An accepted admin command -/

/-- An accepted admin command without a range on its parameters completes with what its own work leaves. -/
theorem completes_of_accepted {c : Instr} {h : AdminHdr} {op : BitVec 16} {s : State} {P : Mod → Prop} (own : AdminTag → Mod → Mod)
    (hc : exec c s = .next (onMod (admin h op true own) s)) (ha : accepted h op s) (hP : P (own (tagOf h op) (begun h op s.m))) :
    completes c s P :=
  completes_of_onMod _ hc ha.1 (by rwa [admin_of_accepted own ha rfl])

@[simp] theorem begun_sched (h : AdminHdr) (op : BitVec 16) (m : Mod) : (begun h op m).sched = m.sched := rfl
@[simp] theorem activating_begun (h : AdminHdr) (op : BitVec 16) (m : Mod) : activating (begun h op m) = activating m := rfl

/-! ### The end of a load (R126) -/

/-- The load under way is over, and its reads are no longer awaited. -/
def loadOver (x : Mod) : Mod := { x with sched := { x.sched with load := none, loadIds := [] } }

/-- What the bytes of a source buffer, or their poison, make of the load that read them. -/
def loadVerdict (c : AdminTag) (n : Nat) (regs : List Word32) (src : Option (List Byte)) (y : Mod) : Mod :=
  match src with
  | none => done c 0xE1 y
  | some l => match loadChecks regs l n with
    | none => done c 0x00 { y with sched := { y.sched with staged := some (parseImage l) } }
    | some f => complete c f.code 0 (BitVec.ofNat 96 (f.variant + f.tile * 2 ^ 8 + f.slot * 2 ^ 16)) y

section
variable {c : AdminTag} {w n : Nat} {src : Option (List Byte)} {x : Mod} {s : State}

/-- The end of a load whose reads are answered comes to the verdict on its buffer: using up the reads leaves what training recorded. -/
theorem completes_imageLoadEnd {P : Mod → Prop} (hp : s.fe.powered = true) (hload : s.m.sched.load = some (c, w, n))
    (hans : answered s.m s.m.sched.loadIds = true) (hsrc : sourceBytes s.m.sched.loadIds (BitVec.ofNat 64 w) n s.m = (src, x))
    (hP : P (loadVerdict c n (trainedRegs s.m) src (loadOver x))) : completes (.imageLoadEnd c.tag) s P := by
  have hregs : trainedRegs (loadOver x) = trainedRegs s.m := (congrArg (fun y => trainedRegs (loadOver y.2)) hsrc).symm
  rw [← hregs] at hP
  refine completes_of_onMod _ rfl hp ?_
  simp only [hload, hans, hsrc, ne_eq, not_true_eq_false, decide_false, Bool.not_true, Bool.or_self, Bool.false_eq_true, if_false]
  exact hP

end

/-- IMAGE_LOAD_END leaves a load of another tag, and one with a read open, as it is. -/
theorem exec_imageLoadEnd_waits {tag : BitVec 64} {s : State}
    (hwait : ∀ x, s.m.sched.load = some x → x.1.tag ≠ tag ∨ answered s.m s.m.sched.loadIds = false) :
    exec (.imageLoadEnd tag) s = .next s := by
  refine exec_of_fixed _ rfl ?_
  split
  next => rfl
  next c w n hload =>
    have hw : (decide (c.tag ≠ tag) || !answered s.m s.m.sched.loadIds) = true := by simpa using hwait _ hload
    exact if_pos hw

/-! ### An activation (R129, R131, R132) -/

/-- An IMAGE_ACTIVATE that waits for the swap to complete it. -/
def withActivator (c : AdminTag) (m : Mod) : Mod := { m with sched := { m.sched with activators := m.sched.activators ++ [c] } }

/-- What IMAGE_ACTIVATE does of its own. -/
def activateOwn (id : Word64) (c : AdminTag) (m : Mod) : Mod :=
  if m.prot.reload.isSome || m.prot.stop.isSome then done c 0x22 m
  else if m.sched.staged.elim true (fun i => i.setId != id) then done c 0x21 m
  else if activating (withActivator c m) then withActivator c m
  else commitSwap true (withActivator c m)

theorem exec_imageActivate (h : AdminHdr) (id : Word64) (s : State) :
    exec (.imageActivate h id) s = .next (onMod (admin h 0x0106 true (activateOwn id)) s) := rfl

/-- With no swap pending an activation commits one to the staged set's variant for the band in force and the throttle level. -/
theorem commitSwap_staged {m : Mod} {i : ImageSet} (hstaged : m.sched.staged = some i) (hswap : m.sched.swap = none) :
    commitSwap true m =
      let v := chooseVariant i (bandInForce m) m.therm.throttle
      { m with sched := { m.sched with swap := some ⟨v.1, true, swapWait m, v.2, bandInForce m, m.therm.throttle⟩ } } := by
  simp [commitSwap, selectSwap, hstaged, hswap]

theorem activating_of_no_swap {m : Mod} (hswap : m.sched.swap = none) (hfurther : m.sched.further = none) : activating m = false := by
  simp [activating, swapNew, hswap, hfurther]

section
variable {id : Word64} {c : AdminTag} {m : Mod}

theorem activateOwn_of_protection (hprot : m.prot.reload ≠ none ∨ m.prot.stop ≠ none) : activateOwn id c m = done c 0x22 m :=
  if_pos (by simpa [Option.isSome_iff_ne_none] using hprot)

theorem activateOwn_of_other (hreload : m.prot.reload = none) (hstop : m.prot.stop = none)
    (hother : ∀ i, m.sched.staged = some i → i.setId ≠ id) : activateOwn id c m = done c 0x21 m := by
  have hnot : m.sched.staged.elim true (fun i => i.setId != id) = true := by
    cases hstaged : m.sched.staged with
    | none => rfl
    | some i => exact bne_iff_ne.mpr (hother i hstaged)
  simp [activateOwn, hreload, hstop, hnot]

theorem activateOwn_of_staged {i : ImageSet} (hreload : m.prot.reload = none) (hstop : m.prot.stop = none)
    (hstaged : m.sched.staged = some i) (hid : i.setId = id) (hswap : m.sched.swap = none) (hfurther : m.sched.further = none) :
    activateOwn id c m = commitSwap true (withActivator c m) := by
  have hnone : activating (withActivator c m) = false := activating_of_no_swap hswap hfurther
  simp [activateOwn, hreload, hstop, hstaged, hid, hnone]

end

/-! ### The statement -/

/-- Settles O25: a load passes 0x0D, 0x0E and its buffer in that order, its end is the verdict of the checks, and an activation commits
the swap that R131 selects in the staged set. -/
theorem imageSetsLoadAndActivate : Obligations.ImageSetsLoadAndActivate := by
  refine ⟨fun h w n s ha => ?load, fun c w n src x s hp hload hans hsrc => ?verdict, fun tag s hwait => exec_imageLoadEnd_waits hwait,
    fun h id i s ha hstaged hid hreload hstop hswap hfurther => ?activate, fun h id s ha hreload hstop hother => ?other,
    fun h id s ha hprot => ?protection⟩
  case load =>
    refine completes_of_accepted _ rfl ha ?_
    simp only [begun_sched, activating_begun, Bool.or_eq_true, Bool.not_eq_true']
    split_ifs
    exacts [rfl, rfl, rfl, ⟨_, _, rfl, rfl⟩]
  case verdict =>
    refine completes_imageLoadEnd hp hload hans hsrc ?_
    cases src with
    | none => rfl
    | some l =>
      simp only [loadVerdict]
      cases loadChecks (trainedRegs s.m) l n with
      | none => rfl
      | some f => rfl
  case activate =>
    refine completes_of_accepted _ (exec_imageActivate h id s) ha ?_
    exact (activateOwn_of_staged (m := begun h 0x0106 s.m) hreload hstop hstaged hid hswap hfurther).trans (commitSwap_staged hstaged hswap)
  case other => exact completes_of_accepted _ (exec_imageActivate h id s) ha (activateOwn_of_other hreload hstop hother)
  case protection => exact completes_of_accepted _ (exec_imageActivate h id s) ha (activateOwn_of_protection hprot)

end Sys2Proof.Machine
end

