-- ==== Sys2Proof/Proofs/WriteHits.lean ====
section
/-! PROOFS. Writes that hit (O28): how a request that meets no obstacle comes from its port to its home slice, what its answer leaves of
the tracker, and what a write does to the sector that it hits. -/
namespace Sys2Proof.Machine

open Sys2Proof.Stmt

/-! ### Receipt (R167 to R171) -/

/-- A field of each port stays when one port is replaced by one with the same field. -/
theorem Two_get_set_of_eq {α β : Type} (f : α → β) {t : Two α} {p : Port} {v : α} (h : f v = f (t.get p)) (q : Port) :
    f ((t.set p v).get q) = f (t.get q) := by
  by_cases hqp : p = q
  · rw [← hqp, Two_get_set, h]
  · rw [Two_get_set_ne t p q v hqp]

/-- A request has arrived: work (R488), and counted on its port's page. -/
def arrived (q : MReq) (m : Mod) : Mod :=
  perfCount (halfPage q.port) (perfReq (if isWrite q then 6 else 5) (wLabel q.w).toNat (wKey q.w) (wOff q.w)) none (touch m)

/-- The tracker entry of a request. -/
def trackOf (q : MReq) : Track := { tag := q.tag, label := wLabel q.w, write := isWrite q, w := q.w }

/-- A request holds a tracker entry, and its credit has returned. -/
def tracked (q : MReq) (m : Mod) : Mod :=
  send (.credit q.port (if isWrite q then 1 else 0)) (onPort q.port (fun p => { p with tracker := p.tracker ++ [trackOf q] }) m)

section
variable {m : Mod} (hsnps : ∀ t : Tile, (m.filters[t] : FilterSt).snps = [])
include hsnps

theorem openToward_of_no_snp (p : Port) (line : Nat) : openToward m p line = none := by
  have hval : ∀ t : Tile, (m.filters[t.val] : FilterSt).snps = [] := hsnps
  simp [openToward, hval]

theorem comesFirst_of_no_snp (q : MReq) : comesFirst m q = none := by
  have hval : ∀ t : Tile, (m.filters[t.val] : FilterSt).snps = [] := hsnps
  simp [comesFirst, snpsOf, hval]

theorem routeFirst_of_no_snp (q : MReq) : routeFirst q m = route q m := by
  simp only [routeFirst, comesFirst_of_no_snp hsnps]

/-- With no BISnp open, a request with good data goes straight from the tracker to the checks. -/
theorem track_of_no_snp {q : MReq} (hpoison : q.poison = false) : track q m = route q (tracked q m) := by
  have hgood : ∀ x, poisonRx q x = x := fun x => by simp [poisonRx, hpoison]
  rw [track, hgood]
  exact routeFirst_of_no_snp (m := tracked q m) hsnps q

end

theorem answers_of_none_held {m : Mod} (h : ∀ p, (m.ports.get p).rxBuf = []) : answers m = m := by
  simp [answers, h, freeAnswers]

/-- A request that meets no obstacle takes a tracker entry at once. -/
theorem receive_of_meets {q : MReq} {r : BitVec 128} {s : State} (h : meets q r s) :
    receive q s.m = answers (track q (arrived q s.m)) := by
  obtain ⟨⟨-, hdecodes, hrun, hsweep, hrxA, hrxB, -⟩, -, -, -, htrack, -, hsnps, -⟩ := h
  obtain ⟨perf, harrived⟩ : ∃ perf, arrived q s.m = { touch s.m with perf := perf } := perfCount_eq ..
  have hrx : (s.m.ports.get q.port).rxBuf = [] := by cases q.port <;> assumption
  have hroom : rxRoom s.m q = true := by simp only [rxRoom, hrx, rxCredits]; split <;> rfl
  have hwake : finishSweep q.port (wake (msgCode q.port) (touch s.m)) = touch s.m := by
    rw [wake_of_run _ (touch s.m) hrun]; simp [finishSweep, hsweep]
  have hopen : ∀ line, openToward (arrived q s.m) q.port line = none := by
    rw [harrived]; exact openToward_of_no_snp (m := { touch s.m with perf := perf }) hsnps q.port
  have hrx' : ((arrived q s.m).ports.get q.port).rxBuf = [] := by rw [harrived]; exact hrx
  have htrack' : trackRoom (arrived q s.m) q.port (wLabel q.w) (isWrite q) = true := by rw [harrived]; exact htrack
  simp only [receive, hdecodes, hroom, hwake, Bool.not_true, Bool.or_self, Bool.false_eq_true, if_false]
  rw [← arrived]
  simp only [hopen, ite_self, hrx', List.length_nil, releaseRx, htrack', if_true]

theorem portDown_of_memDecodes {m : Mod} {p : Port} (h : memDecodes m p = true) : portDown m p = false := by
  simp only [memDecodes, portTalks, Bool.and_eq_true, Bool.not_eq_true'] at h
  obtain ⟨⟨⟨⟨hdown, -⟩, -⟩, -⟩, -⟩ := h
  exact hdown

/-! ### The home slice -/

/-- What a request that meets no obstacle finds behind its port: region `r` admits it, its tile takes requests, and its line has no
snoop, fill, filter entry or earlier request open. -/
structure AtHome (q : MReq) (r : BitVec 128) (m : Mod) : Prop where
  run : m.power.state = 0
  alive : deadModule m = false
  reload : m.prot.reload = none
  viral : (m.ports.get q.port).viralRx = false
  snps : ∀ t : Tile, (m.filters[t] : FilterSt).snps = []
  aper : wAper q.w = 0
  region : regionOf m (wOff q.w) = some r
  allowed : violation m q.port q.w true = none
  ready : tileReady m (rgTile r) = true
  key : keyServes m (wKey q.w) = true
  sweep : (m.slices[rgTile r] : Slice).sweep = false
  broadcast : (m.filters[rgTile r] : FilterSt).broadcast = false
  waiters : (m.filters[rgTile r] : FilterSt).waiters = []
  resv : (m.filters[rgTile r] : FilterSt).resv = []
  entry : findEnt m.filters[rgTile r] (wLine q.w) = none
  miss : findMiss m.slices[rgTile r] 0 (wOff q.w) = none
  service : inService m (rgTile r) (wLine q.w) = false

theorem atHome_of_meets {q : MReq} {r : BitVec 128} {s : State} (h : meets q r s) : AtHome q r s.m := by
  obtain ⟨⟨-, -, hrun, -⟩, halive, hreload, hviral, -, -, hsnps, haper, hregion, hallowed, hready, hkey, hsweep, hbroadcast, hwaiters,
    hresv, hentry, hmiss, hservice⟩ := h
  exact ⟨hrun, halive, hreload, hviral, hsnps, haper, hregion, hallowed, hready, hkey, hsweep, hbroadcast, hwaiters, hresv, hentry, hmiss,
    hservice⟩

/-- What is sent and counted, and the trackers of the ports, are nothing to the home slice. -/
theorem AtHome.frame {q : MReq} {r : BitVec 128} {m : Mod} (h : AtHome q r m) {ports : Two PortSt} (out : List Out)
    (labels : Vector LabelSt 8) (perf : Vector PerfPage 7) (bw : Two BwWindow) {power : PowerSt} (hrun : power.state = 0)
    (hviral : (ports.get q.port).viralRx = false) :
    AtHome q r { m with ports := ports, out := out, labels := labels, perf := perf, bw := bw, power := power } :=
  { h with run := hrun, viral := hviral }

/-- A host's write as its port receives it (R158): nothing has been done for it yet. -/
structure PlainWrite (q : MReq) : Prop where
  host : q.who = .host
  write : isWrite q = true
  enabled : writeEn q = q.en
  good : q.bad = false
  fresh : q.done = false
  asked : q.answer = false
  live : q.void = false

theorem PlainWrite.kind_cases {q : MReq} (hq : PlainWrite q) : q.kind = .memWr ∨ q.kind = .memWrPtl := by
  simpa [isWrite] using hq.write

theorem plainWrite_memWr (r : M2SRwD) : PlainWrite (ofRwD .memWr r) := ⟨rfl, rfl, rfl, rfl, rfl, rfl, rfl⟩
theorem plainWrite_memWrPtl (r : M2SRwD) : PlainWrite (ofRwD .memWrPtl r) := ⟨rfl, rfl, rfl, rfl, rfl, rfl, rfl⟩

theorem onFilter_of_fixed {t : Tile} {f : FilterSt → FilterSt} {m : Mod} (h : f m.filters[t] = m.filters[t]) : onFilter t f m = m := by
  simp only [onFilter, h]
  exact congrArg (fun v => { m with filters := v }) (Vector.set_getElem_self t.isLt)

section
variable {q : MReq} {r : BitVec 128} {m : Mod} (h : AtHome q r m)
include h

/-- A request that meets no obstacle passes the checks, and its enabled bytes count. -/
theorem AtHome.route_eq (hhost : q.who = .host) (hbad : q.bad = false) : route q m = serve false q (countWrite q m) := by
  have htile : homeTile m q.w = rgTile r := by simp [homeTile, h.aper, h.region]
  have hholds : holds m (rgTile r) = false := by simpa [holds, h.run, h.reload] using h.sweep
  simp [route, hhost, hbad, htile, hholds, h.allowed, h.alive, h.viral, h.ready, h.key]

/-- A write that leaves no port present needs neither a snoop nor a way of the filter (R224, R226). -/
theorem AtHome.serve_write (hq : PlainWrite q) (hmv : q.mv = .noOp ∨ q.mv = .invalid) :
    serve false q m = serveWrite false (rgTile r) r q m := by
  have hchanges : reloadChanges m (wOff q.w) = false := by simp [reloadChanges, h.reload]
  have heffective : effective m q = q := by simp [effective, hchanges]
  have hmirrored : isMirrored q = false := by simp [isMirrored, hq.host]
  have hahead : aheadSnp m.filters[rgTile r] q = false := by simp only [aheadSnp, snpsOf, h.snps]; simp
  have hsnp : blockedSnp m (rgTile r) q = false := by simp only [blockedSnp, snpsOf, h.snps, h.waiters]; rfl
  have hfill : blockedFill m (rgTile r) q = false := by simp only [blockedFill, h.miss]; rfl
  have hline : blockedLine m (rgTile r) q = false := h.service
  have hneed : needSnp m.filters[rgTile r] q = [] := by simp only [needSnp, h.entry, h.broadcast]; simp
  have hwants : wantsEntry m.filters[rgTile r] q = false := by
    rcases hq.kind_cases with hkind | hkind <;> rcases hmv with hmv | hmv <;> simp [wantsEntry, hkind, hmv]
  rw [serve, if_pos h.aper, serveMem]
  simp only [h.region, hq.fresh, h.alive, hchanges, heffective, hmirrored, hq.asked, hahead, hsnp, hfill, hline, hneed, hwants,
    h.broadcast, Bool.false_and, Bool.or_self, Bool.false_eq_true, if_false, Bool.not_false, if_true]
  rcases hq.kind_cases with hkind | hkind <;> simp only [hkind]

/-- A write of a line without an entry leaves the filter as it is (R226). -/
theorem AtHome.filtUpdate_write (hq : PlainWrite q) (hmv : q.mv = .noOp ∨ q.mv = .invalid) : filtUpdate (rgTile r) q .none m = m := by
  have hunkeep : onFilter (rgTile r) (unkeep (wLine q.w)) m = m :=
    onFilter_of_fixed (by simp only [unkeep, h.resv, List.filter_nil]; rw [← h.resv])
  simp only [filtUpdate, hunkeep, h.broadcast, hq.live, isHost, hq.host, BEq.rfl, Bool.not_true, Bool.or_self, Bool.false_eq_true, if_false]
  rcases hq.kind_cases with hkind | hkind <;> rcases hmv with hmv | hmv <;> simp only [hkind, hmv]
  all_goals exact onFilter_of_fixed (by simp only [h.entry])

end

/-! ### The answer (R150, R167) -/

/-- A request's port waits for its answer: it is up, no conflict waits there, and the tracker holds `before` and the request. -/
structure Awaited (q : MReq) (before : List Track) (m : Mod) : Prop where
  up : portDown m q.port = false
  conflicts : (m.ports.get q.port).conflicts = []
  tracker : (m.ports.get q.port).tracker = before ++ [trackOf q]
  fresh : ∀ t ∈ before, t.tag ≠ q.tag

section
variable {q : MReq} {before : List Track} {m : Mod} (h : Awaited q before m)
include h

theorem Awaited.of_ports {x : Mod} (hports : x.ports = m.ports) : Awaited q before x :=
  ⟨by rw [portDown, hports]; exact h.up, by rw [hports]; exact h.conflicts, by rw [hports]; exact h.tracker, h.fresh⟩

/-- An answered request leaves the tracker as it was before it came. -/
theorem Awaited.retire_eq (hq : PlainWrite q) :
    ∃ p : PortSt, p.tracker = before ∧ p.rxBuf = (m.ports.get q.port).rxBuf ∧ retire q m = onPort q.port (fun _ => p) m := by
  have hfound : (before ++ [trackOf q]).findIdx? (fun t => t.tag == q.tag && t.write == isWrite q) = some before.length := by
    rw [List.findIdx?_append, List.findIdx?_eq_none_iff.2 fun t ht => by simp [h.fresh t ht]]
    simp [trackOf]
  have hwrite : (q.kind == .memWr || q.kind == .memWrPtl) = isWrite q := rfl
  simp only [retire, hwrite, conflictAcks, settleOver, onPort, Two_get_set, Two_set_set, h.conflicts, h.tracker, hfound, hq.asked,
    List.map_nil, List.filter_nil, List.foldl_nil, Bool.false_eq_true, if_false]
  refine ⟨_, ?_, ?_, rfl⟩
  · simp [List.eraseIdx_append_of_length_le le_rfl]
  · rfl

theorem Awaited.sendNdr_eq (hq : PlainWrite q) (g : Grant) : ∃ p : PortSt, p.tracker = before ∧
    p.rxBuf = (m.ports.get q.port).rxBuf ∧ sendNdr q g m = onPort q.port (fun _ => p) (send (.ndr q.port q.tag g) m) := by
  have hsend : sendNdr q g m = retire q (send (.ndr q.port q.tag g) m) := by simp [sendNdr, hq.fresh, hq.live, hq.host, h.up]
  rw [hsend]
  exact (h.of_ports (send_ports ..)).retire_eq hq

end

/-! ### From the port to the home slice -/

/-- What the acceptance of a write counts (R415, R539). -/
theorem countWrite_eq (q : MReq) (m : Mod) : ∃ labels bw, countWrite q m = { m with labels := labels, bw := bw } := by
  unfold countWrite
  split
  · exact ⟨m.labels, m.bw, rfl⟩
  · exact ⟨_, _, rfl⟩

/-- A host's request that meets no obstacle is served at its home slice as the last of its port's tracker. -/
theorem track_of_meets {q : MReq} {r : BitVec 128} {s : State} (h : meets q r s) (hhost : q.who = .host) (hbad : q.bad = false)
    (hpoison : q.poison = false) : ∃ (labels : Vector LabelSt 8) (perf : Vector PerfPage 7) (bw : Two BwWindow) (x : Mod),
      x = { tracked q (touch s.m) with labels := labels, perf := perf, bw := bw } ∧ AtHome q r x ∧
      Awaited q (s.m.ports.get q.port).tracker x ∧ track q (arrived q s.m) = serve false q x := by
  have hhome := atHome_of_meets h
  obtain ⟨⟨-, hdecodes, hrun, -, -, -, hconf⟩, -, -, hviral, -, hnew, hsnps, -⟩ := h
  have hup : portDown s.m q.port = false := portDown_of_memDecodes hdecodes
  obtain ⟨perf, harrived⟩ : ∃ perf, arrived q s.m = { touch s.m with perf := perf } := perfCount_eq ..
  obtain ⟨labels, bw, hcount⟩ := countWrite_eq q (tracked q { touch s.m with perf := perf })
  have htracked : AtHome q r (tracked q { touch s.m with perf := perf }) := hhome.frame _ _ _ _ hrun (by simpa using hviral)
  refine ⟨labels, perf, bw, _, rfl, htracked.frame _ labels perf bw htracked.run htracked.viral, ⟨?up, ?conf, ?tracker, hnew⟩, ?track⟩
  case up => simpa [portDown, tracked] using hup
  case conf => simpa [tracked] using hconf
  case tracker => simp [tracked]
  case track =>
    rw [harrived, track_of_no_snp (m := { touch s.m with perf := perf }) hsnps hpoison, htracked.route_eq hhost hbad, hcount]
    rfl

/-! ### A write that hits (R172, R198) -/

/-- The line that a write leaves of the line that it hits. -/
def writtenLine (q : MReq) (l : Line) : Line := mergeSector l (wOff q.w / 64 % 4) q.data (writeEn q) q.poison (reqLabel q)

section
variable {q : MReq} {l : Line}

/-- A sector that is valid already stays so, and no other becomes valid. -/
theorem writtenLine_svalid (h : l.svalid.getLsbD (wOff q.w / 64 % 4) = true) : (writtenLine q l).svalid = l.svalid := by
  change l.svalid ||| 1#4 <<< (wOff q.w / 64 % 4) = l.svalid
  ext i hi
  suffices wOff q.w / 64 % 4 ≤ i → i - wOff q.w / 64 % 4 = 0 → l.svalid[i] = true by simpa
  intro hle hsub
  obtain rfl : i = wOff q.w / 64 % 4 := by omega
  exact h

theorem writtenLine_sdirty : (writtenLine q l).sdirty.getLsbD (wOff q.w / 64 % 4) = true := by
  have hsector : wOff q.w / 64 % 4 < 4 := Nat.mod_lt _ (by decide)
  simp [writtenLine, mergeSector, hsector]

/-- A write with good data poisons no line (R172). -/
theorem writtenLine_poison (hpoison : q.poison = false) (hclean : l.poison = false) : (writtenLine q l).poison = false := by
  simp [writtenLine, mergeSector, hpoison, hclean]

end

/-- A line of the slice is found again with what a write has made of it, in the place that it had. -/
theorem findLine_putLine {s : Slice} {l n : Line} {sp : BitVec 2} {a : Nat} (hl : findLine s sp a = some l) (hset : n.set = l.set)
    (htag : n.tag = l.tag) (hspace : n.space = l.space) (hvalid : n.svalid ≠ 0) : findLine (putLine n s) sp a = some n := by
  have hmatch := List.find?_some hl
  refine List.find?_cons_of_pos ?_
  simp only [hspace, hset, htag, Bool.and_eq_true, Bool.or_eq_true, bne_iff_ne] at hmatch ⊢
  exact ⟨hmatch.1, .inl hvalid⟩

theorem slices_onSlice_self (t : Tile) (f : Slice → Slice) (m : Mod) : ((onSlice t f m).slices[t] : Slice) = f m.slices[t] := by
  simp

theorem mergeWrite_of_line {t : Tile} {r : BitVec 128} {q : MReq} {m : Mod} {l : Line} (helastic : rgElastic r = false)
    (hl : findLine m.slices[t] 0 (wOff q.w) = some l) : mergeWrite t r q true m = onSlice t (putLine (writtenLine q l)) m := by
  simp only [mergeWrite, hl, clearLpoison, helastic, writtenLine, if_true, Bool.false_eq_true, if_false, ite_self]

theorem handOn_of_writeBack {t : Tile} {r : BitVec 128} {m : Mod} (hpol : rgWpol r = 0) (hlocked : (m.slices[t] : Slice).locked = 0)
    (a : Nat) : handOn t r a m = m := by
  have hthrough : ∀ way, writesThrough m.slices[t] r way = false := fun way => by simp only [writesThrough, hpol, hlocked]; simp
  unfold handOn
  split
  · rfl
  · exact if_neg fun ⟨_, _, h⟩ => absurd h (by simp only [hthrough]; decide)

/-- A write that leaves no port present, to a sector that its line holds, which nothing follows: no tier map, no mirror, and the line
stays in the slice (R198, R205, R226, R444). -/
structure PlainHit (q : MReq) (r : BitVec 128) (l : Line) (m : Mod) : Prop where
  mv : q.mv = .noOp ∨ q.mv = .invalid
  line : findLine m.slices[rgTile r] 0 (wOff q.w) = some l
  key : l.keyId = wKey q.w
  valid : l.svalid.getLsbD (wOff q.w / 64 % 4) = true
  elastic : rgElastic r = false
  mirror : rgMirror r = false
  policy : rgWpol r = 0
  locked : (m.slices[rgTile r] : Slice).locked = 0

section
variable {q : MReq} {r : BitVec 128} {l : Line} {m : Mod} (hhit : PlainHit q r l m)
include hhit

theorem PlainHit.of_slices {x : Mod} (hslices : x.slices = m.slices) : PlainHit q r l x :=
  { hhit with line := by rw [hslices]; exact hhit.line, locked := by rw [hslices]; exact hhit.locked }

/-- The sector is merged, and the line stays. -/
theorem PlainHit.handOn_mergeWrite : handOn (rgTile r) r (wOff q.w) (mergeWrite (rgTile r) r q true m) =
    onSlice (rgTile r) (putLine (writtenLine q l)) m := by
  rw [mergeWrite_of_line hhit.elastic hhit.line]
  exact handOn_of_writeBack hhit.policy (by rw [slices_onSlice_self]; exact hhit.locked) _

theorem PlainHit.serveWrite_eq (again : Bool) : serveWrite again (rgTile r) r q m = handOn (rgTile r) r (wOff q.w)
    (mergeWrite (rgTile r) r q true (ackWrite (rgTile r) r q (hitMiss (rgTile r) q 5 again m))) := by
  have hrekey : rekey (rgTile r) (wOff q.w) (wKey q.w) m = m := by simp only [rekey, hhit.line, hhit.key, true_or, if_true]
  have hspace : ∀ x, writeSpace r (wOff q.w) (wKey q.w) x = (true, x) := fun x => by simp [writeSpace, hhit.elastic]
  simp only [serveWrite, hhit.elastic, hhit.mirror, hrekey, hhit.line, hhit.key, hhit.valid, hspace, Bool.false_and,
    Bool.false_eq_true, if_false, bne_self_eq_false, Bool.true_or, if_true, Bool.not_true]

end

/-- A write of a line without an entry is acknowledged, and leaves the filter alone (R150, R226). -/
theorem AtHome.ackWrite_eq {q : MReq} {r : BitVec 128} {m : Mod} (h : AtHome q r m) (hq : PlainWrite q)
    (hmv : q.mv = .noOp ∨ q.mv = .invalid) (hmirror : rgMirror r = false) : ackWrite (rgTile r) r q m = sendNdr q .none m := by
  simp only [ackWrite, h.filtUpdate_write hq hmv, hmirror, Bool.not_false, Bool.true_or, if_true]

/-- A write that hits, from its home slice to its answer. -/
theorem AtHome.serve_of_hit {q : MReq} {r : BitVec 128} {l : Line} {m : Mod} {before : List Track} (h : AtHome q r m)
    (hq : PlainWrite q) (hhit : PlainHit q r l m) (hwait : Awaited q before m) :
    ∃ (p : PortSt) (perf : Vector PerfPage 7), p.tracker = before ∧ p.rxBuf = (m.ports.get q.port).rxBuf ∧
      serve false q m = { m with
        ports := m.ports.set q.port p, out := .ndr q.port q.tag .none :: m.out, perf := perf
        slices := m.slices.set (rgTile r) (putLine (writtenLine q l) m.slices[rgTile r]) } := by
  obtain ⟨perf, hcounted⟩ : ∃ perf, hitMiss (rgTile r) q 5 false m = { m with perf := perf } := perfCount_eq ..
  have hhome : AtHome q r { m with perf := perf } := h.frame m.out m.labels perf m.bw h.run h.viral
  obtain ⟨p, htracker, hrx, hsent⟩ := (hwait.of_ports (x := { m with perf := perf }) rfl).sendNdr_eq hq .none
  refine ⟨p, perf, htracker, hrx, ?_⟩
  rw [h.serve_write hq hhit.mv, hhit.serveWrite_eq, hcounted, hhome.ackWrite_eq hq hhit.mv hhit.mirror, hsent]
  exact PlainHit.handOn_mergeWrite (hhit.of_slices rfl)

/-- A write that hits, from its port to its answer: the sector is merged in the slice, the credit and Cmp are sent, and but for the
counts the module is as it was. -/
theorem receive_of_hit {q : MReq} {r : BitVec 128} {l : Line} {s : State} (hq : PlainWrite q) (h : meets q r s)
    (hhit : PlainHit q r l s.m) (hpoison : q.poison = false) :
    ∃ (p : PortSt) (labels : Vector LabelSt 8) (perf : Vector PerfPage 7) (bw : Two BwWindow) (power : PowerSt),
      p.tracker = (s.m.ports.get q.port).tracker ∧ receive q s.m = { s.m with
        ports := s.m.ports.set q.port p, out := .ndr q.port q.tag .none :: .credit q.port 1 :: s.m.out
        slices := s.m.slices.set (rgTile r) (putLine (writtenLine q l) s.m.slices[rgTile r])
        labels := labels, perf := perf, bw := bw, power := power } := by
  obtain ⟨labels, perf, bw, x, hx, hhome, hwait, htrack⟩ := track_of_meets h hq.host hq.good hpoison
  obtain ⟨p, perf', htracker, hrx, hserve⟩ := hhome.serve_of_hit hq (hhit.of_slices (by rw [hx]; rfl)) hwait
  subst hx
  have hheld : p.rxBuf = (s.m.ports.get q.port).rxBuf := hrx.trans (by simp [tracked])
  have hreceive := receive_of_meets h
  obtain ⟨⟨-, -, -, -, hrxA, hrxB, -⟩, -⟩ := h
  have hnone : ∀ u, ((s.m.ports.set q.port p).get u).rxBuf = [] := fun u => by
    rw [Two_get_set_of_eq PortSt.rxBuf hheld]; cases u <;> assumption
  refine ⟨p, labels, perf', bw, (touch s.m).power, htracker, ?_⟩
  rw [hreceive, htrack, hserve]
  simp only [tracked, onPort, send, Two_set_set, hq.write, if_true]
  exact answers_of_none_held hnone

/-! ### The statement -/

/-- A host's write that hits does what the statement says, whichever of the two messages brought it. -/
theorem writeHits_of_plainWrite {c : Instr} {q : MReq} (hc : ∀ s, exec c s = .next (onMod (receive q) s)) (hq : PlainWrite q)
    (r : BitVec 128) (s : State) : writeHits c q r s := by
  intro l hmeets ⟨hline, hkey, hvalid⟩ hmv helastic hmirror hpol hlocked hpoison
  obtain ⟨p, labels, perf, bw, power, htracker, hreceive⟩ :=
    receive_of_hit hq hmeets ⟨hmv, hline, hkey, hvalid, helastic, hmirror, hpol, hlocked⟩ hpoison
  obtain ⟨⟨hpowered, -⟩, -⟩ := hmeets
  have htrackers := Two_get_set_of_eq PortSt.tracker htracker
  have hsvalid := writtenLine_svalid hvalid
  refine completes_of_onMod (receive q) (hc s) hpowered ?_
  rw [hreceive]
  refine ⟨⟨htrackers .a, htrackers .b, _, _, _, _, _, _, _, _, rfl⟩, rfl, rfl, writtenLine q l, ?found, ?data, writtenLine_sdirty, hsvalid, rfl,
    ?label, rfl, writtenLine_poison hpoison⟩
  case found =>
    have hslice := slices_onSlice_self (rgTile r) (putLine (writtenLine q l)) s.m
    exact (congrArg (fun x => findLine x 0 (wOff q.w)) hslice).trans
      (findLine_putLine hline rfl rfl rfl fun hzero => by rw [← hsvalid, hzero] at hvalid; simp at hvalid)
  case data => simp only [writtenLine, mergeSector, hq.enabled]
  case label => simp only [writtenLine, mergeSector, reqLabel, hq.host]

/-- Settles O28: the write takes and leaves its tracker entry within the step, nothing at its home slice stands before it, and what
follows its merge (the filter, the mirror, the write-through) has nothing to do. -/
theorem writesThatHitMergeTheSector : Obligations.WritesThatHitMergeTheSector :=
  ⟨fun r g s => writeHits_of_plainWrite (fun _ => rfl) (plainWrite_memWr r) g s,
    fun r g s => writeHits_of_plainWrite (fun _ => rfl) (plainWrite_memWrPtl r) g s⟩

end Sys2Proof.Machine
end

