-- ==== Sys2Proof/Proofs/Invalidations.lean ====
section
/-! PROOFS. Invalidations (O29): what the answer of a request leaves of its port, the way that a grant takes in the filter, and an
invalidation from its port to its answer. -/
namespace Sys2Proof.Machine

open Sys2Proof.Stmt

/-! ### The answer of a host's request (R167) -/

/-- A host's request as its port receives it, with good data if any: nothing has been done for it yet. -/
structure PlainRequest (q : MReq) : Prop where
  host : q.who = .host
  fresh : q.done = false
  asked : q.answer = false
  live : q.void = false
  good : q.poison = false
  unserved : q.row = none

theorem plainRequest_ofReq (k : ReqKind) (bad : Bool) (r : M2SReq) : PlainRequest (ofReq k bad r) := ⟨rfl, rfl, rfl, rfl, rfl, rfl⟩

/-- What a request leaves of a tracker when it is answered. -/
def untracked (q : MReq) (l : List Track) : List Track :=
  match l.findIdx? (fun t => t.tag == q.tag && t.write == isWrite q) with
  | some i => l.eraseIdx i
  | none => l

/-- The last request of a tracker leaves the entries before it, none of which has its tag. -/
theorem untracked_append {q : MReq} {before : List Track} (h : ∀ t ∈ before, t.tag ≠ q.tag) :
    untracked q (before ++ [trackOf q]) = before := by
  have hfound : (before ++ [trackOf q]).findIdx? (fun t => t.tag == q.tag && t.write == isWrite q) = some before.length := by
    rw [List.findIdx?_append, List.findIdx?_eq_none_iff.2 fun t ht => by simp [h t ht]]
    simp [trackOf]
  simp [untracked, hfound, List.eraseIdx_append_of_length_le le_rfl]

/-- What the answer of a request leaves of its port, with the labels that stay above their budgets. -/
def retired (q : MReq) (held : List Nat) (p : PortSt) : PortSt := { p with tracker := untracked q p.tracker, overHeld := held }

section
variable {q : MReq} {m : Mod} (hq : PlainRequest q) (hconf : (m.ports.get q.port).conflicts = [])
include hq hconf

theorem PlainRequest.retire_eq : ∃ held, retire q m = onPort q.port (retired q held) m := by
  have hwrite : (q.kind == .memWr || q.kind == .memWrPtl) = isWrite q := rfl
  simp only [retire, hwrite, conflictAcks, settleOver, onPort, Two_get_set, Two_set_set, hconf, hq.asked, List.map_nil, List.filter_nil,
    List.foldl_nil, Bool.false_eq_true, if_false]
  exact ⟨_, by simp only [retired, untracked, ← hconf]; rfl⟩

theorem PlainRequest.sendNdr_eq (hup : portDown m q.port = false) (g : Grant) :
    ∃ held, sendNdr q g m = onPort q.port (retired q held) (send (.ndr q.port q.tag g) m) := by
  have hsend : sendNdr q g m = retire q (send (.ndr q.port q.tag g) m) := by simp [sendNdr, hq.fresh, hq.live, hq.host, hup]
  rw [hsend]
  exact hq.retire_eq (m := send (.ndr q.port q.tag g) m) hconf

end

/-! ### The way of a grant (R226, R233, R234) -/

/-- A set with fewer entries than ways, none of which is kept, has a free way. -/
theorem freeWay_isSome {f : FilterSt} {set : Nat} (hresv : f.resv = []) (hroom : (setEnts f set).length < 16) :
    (freeWay f set).isSome = true := by
  rw [Option.isSome_iff_ne_none]
  intro hnone
  have hfull : List.range 16 ⊆ (setEnts f set).map (·.way) := fun w hw => by
    have htaken := List.find?_eq_none.1 hnone w hw
    simp only [hresv, List.any_nil, Bool.not_false, Bool.and_true, Bool.not_eq_true', Bool.not_eq_false, List.any_eq_true, beq_iff_eq] at htaken
    obtain ⟨e, he, hway⟩ := htaken
    exact List.mem_map.2 ⟨e, he, hway⟩
  have hlength := (List.nodup_range.subperm hfull).length_le
  simp only [List.length_range, List.length_map] at hlength
  omega

/-- A stored entry is at most one more in each set. -/
theorem setEnts_putEnt_length (e : FEntry) (f : FilterSt) (set : Nat) :
    (setEnts (putEnt e f) set).length ≤ (setEnts f set).length + 1 := by
  have hrest : ((f.entries.filter (fun x => !(x.set == e.set && x.way == e.way))).filter (fun x => x.set == set)).length ≤
      (setEnts f set).length := (List.filter_sublist.filter _).length_le
  simp only [putEnt, setEnts] at hrest ⊢
  split
  · rw [List.filter_cons]
    split
    · exact Nat.succ_le_succ hrest
    · omega
  · omega

/-- A set with a free way evicts nothing. -/
theorem backgroundEvict_of_room {t : Tile} {set : Nat} {m : Mod} (h : (freeWay m.filters[t] set).isSome = true) :
    backgroundEvict t set m = m := by
  simp only [backgroundEvict, h, Bool.true_or, if_true]

section
variable {q : MReq} {t : Tile} {m : Mod}

/-- An invalidation of a line without an entry changes the filter alone, when its grant leaves the set a free way. -/
theorem filtUpdate_of_inv {g : Grant} (hkind : q.kind = .memInv ∨ q.kind = .memInvNt)
    (hresv : (m.filters[t] : FilterSt).resv.filter (fun x => x.1 != wLine q.w) = [])
    (hentry : findEnt m.filters[t] (wLine q.w) = none)
    (hroom : g ≠ .none → (setEnts m.filters[t] (filtSet (wLine q.w))).length < 15) :
    ∃ filters, filtUpdate t q g m = { m with filters := filters } := by
  have hput : ∀ e, g ≠ .none →
      backgroundEvict t (filtSet (wLine q.w)) (onFilter t (putEnt e) (onFilter t (unkeep (wLine q.w)) m)) =
        onFilter t (putEnt e) (onFilter t (unkeep (wLine q.w)) m) := fun e hg => by
    have hslot : ((onFilter t (putEnt e) (onFilter t (unkeep (wLine q.w)) m)).filters[t] : FilterSt) =
        putEnt e (unkeep (wLine q.w) m.filters[t]) := by simp
    refine backgroundEvict_of_room ?_
    rw [hslot]
    refine freeWay_isSome hresv ?_
    have hmore := setEnts_putEnt_length e (unkeep (wLine q.w) m.filters[t]) (filtSet (wLine q.w))
    have hless : (setEnts (unkeep (wLine q.w) m.filters[t]) (filtSet (wLine q.w))).length < 15 := hroom hg
    omega
  simp only [filtUpdate, hentry]
  split
  · exact ⟨_, rfl⟩
  · rcases hkind with hkind | hkind <;> simp only [hkind]
    all_goals
      split
      · exact ⟨_, rfl⟩
      · split
        · exact ⟨_, rfl⟩
        · exact ⟨_, (if_pos rfl).trans (hput _ (by decide))⟩
      · split
        · exact ⟨_, rfl⟩
        · exact ⟨_, (if_pos rfl).trans (hput _ (by decide))⟩
      · exact ⟨_, rfl⟩

end

/-! ### An invalidation from its home slice to its answer (R224) -/

section
variable {q : MReq} {f : FilterSt} (hq : PlainRequest q) (hkind : q.kind = .memInv ∨ q.kind = .memInvNt)
  (hbroadcast : f.broadcast = false) (hentry : findEnt f (wLine q.w) = none)
include hq hbroadcast hentry

/-- A request of a line without an entry is granted what its row says. -/
theorem grantOf_of_no_entry : grantOf f q = soleGrant q := by
  simp [grantOf, hbroadcast, isHost, hq.host, hq.unserved, rowOf, hentry, soleGrant]

include hkind in
theorem wantsEntry_of_inv : wantsEntry f q = (soleGrant q != .none) := by
  have hgrant := grantOf_of_no_entry hq hbroadcast hentry
  rcases hkind with hkind | hkind <;> simp [wantsEntry, hbroadcast, hq.live, isHost, hq.host, hkind, hgrant]

end

/-- The answer to an invalidation, and what its grant leaves in the filter. -/
theorem answer_of_inv {q : MReq} {t : Tile} {m : Mod} (hq : PlainRequest q) (hkind : q.kind = .memInv ∨ q.kind = .memInvNt)
    (hbroadcast : (m.filters[t] : FilterSt).broadcast = false) (hentry : findEnt m.filters[t] (wLine q.w) = none)
    (hresv : (m.filters[t] : FilterSt).resv.filter (fun x => x.1 != wLine q.w) = [])
    (hroom : soleGrant q ≠ .none → (setEnts m.filters[t] (filtSet (wLine q.w))).length < 15) :
    ∃ filters, sendNdr q (grantOf m.filters[t] q) (filtUpdate t q (grantOf m.filters[t] q) m) =
      sendNdr q (soleGrant q) { m with filters := filters } := by
  rw [grantOf_of_no_entry hq hbroadcast hentry]
  obtain ⟨filters, hupdate⟩ := filtUpdate_of_inv hkind hresv hentry hroom
  exact ⟨filters, by rw [hupdate]⟩

/-- An invalidation of a line that no port holds is answered with the grant of its row; beside the answer the filter alone changes. -/
theorem AtHome.serve_inv {q : MReq} {r : BitVec 128} {m : Mod} (h : AtHome q r m) (hq : PlainRequest q)
    (hkind : q.kind = .memInv ∨ q.kind = .memInvNt)
    (hways : soleGrant q ≠ .none → (setEnts m.filters[rgTile r] (filtSet (wLine q.w))).length < 15) :
    ∃ filters, serve false q m = sendNdr q (soleGrant q) { m with filters := filters } := by
  have hchanges : reloadChanges m (wOff q.w) = false := by simp [reloadChanges, h.reload]
  have heffective : effective m q = q := by simp [effective, hchanges]
  have hmirrored : isMirrored q = false := by simp [isMirrored, hq.host]
  have hwrite : isWrite q = false := by rcases hkind with hkind | hkind <;> simp [isWrite, hkind]
  have hahead : aheadSnp m.filters[rgTile r] q = false := by simp only [aheadSnp, hwrite, Bool.and_false, Bool.false_and]
  have hsnp : blockedSnp m (rgTile r) q = false := by simp only [blockedSnp, snpsOf, h.snps, h.waiters]; rfl
  have hfill : blockedFill m (rgTile r) q = false := by simp only [blockedFill, h.miss]; rfl
  have hline : blockedLine m (rgTile r) q = false := h.service
  have hneed : needSnp m.filters[rgTile r] q = [] := by simp only [needSnp, h.entry, h.broadcast]; simp
  have hqueue : wayQueue m.filters[rgTile r] (filtSet (wLine q.w)) = false := by simp only [wayQueue, h.waiters, List.any_nil]
  have hresv : (m.filters[rgTile r] : FilterSt).resv.filter (fun x => x.1 != wLine q.w) = [] := by rw [h.resv]; rfl
  rw [serve, if_pos h.aper, serveMem]
  simp only [h.region, hq.fresh, h.alive, hchanges, heffective, hmirrored, hq.asked, hahead, hsnp, hfill, hline, hneed, hqueue,
    h.broadcast, Bool.false_and, Bool.or_self, Bool.false_eq_true, if_false]
  split
  case isTrue =>
    have hanswer := answer_of_inv hq hkind h.broadcast h.entry hresv hways
    rcases hkind with hkind | hkind <;> simp only [hkind] <;> exact hanswer
  case isFalse hway =>
    have hwants := wantsEntry_of_inv hq hkind h.broadcast h.entry
    have hgrant : soleGrant q ≠ .none := fun hnone => hway (by simp only [hwants, hnone]; rfl)
    obtain ⟨way, hfree⟩ := Option.isSome_iff_exists.1 (freeWay_isSome h.resv (Nat.lt_succ_of_lt (hways hgrant)))
    have hslot : ((onFilter (rgTile r) (keepWay (wLine q.w) way) m).filters[rgTile r] : FilterSt) =
        keepWay (wLine q.w) way m.filters[rgTile r] := by simp
    have hkept : (onFilter (rgTile r) (keepWay (wLine q.w) way) m).filters[rgTile r].broadcast = false := by rw [hslot]; exact h.broadcast
    obtain ⟨filters, hanswer⟩ := answer_of_inv (m := onFilter (rgTile r) (keepWay (wLine q.w) way) m) hq hkind hkept
      (by rw [hslot]; exact h.entry) (by rw [hslot, keepWay, h.resv]; simp) (by rw [hslot]; exact hways)
    refine ⟨filters, ?_⟩
    rcases hkind with hkind | hkind <;> simp only [hfree, hkind, hkept, Bool.false_and, Bool.false_eq_true, if_false] <;> exact hanswer

/-! ### An invalidation from its port to its answer -/

section
variable {q : MReq} (hq : PlainRequest q) (hkind : q.kind = .memInv ∨ q.kind = .memInvNt) (hgood : q.bad = false)
include hq hkind hgood

/-- The credit and Cmp are sent, the port's tracker is as it was, and but for the filter and the counts so is the module. -/
theorem receive_of_inv {r : BitVec 128} {s : State} (h : meets q r s) (hways : waysFree q r s) :
    ∃ (p : PortSt) (labels : Vector LabelSt 8) (perf : Vector PerfPage 7) (bw : Two BwWindow) (power : PowerSt)
      (filters : Vector FilterSt 4), p.tracker = (s.m.ports.get q.port).tracker ∧ receive q s.m = { s.m with
        ports := s.m.ports.set q.port p, out := .ndr q.port q.tag (soleGrant q) :: .credit q.port 0 :: s.m.out
        labels := labels, perf := perf, bw := bw, power := power, filters := filters } := by
  have hwrite : isWrite q = false := by rcases hkind with hkind | hkind <;> simp [isWrite, hkind]
  obtain ⟨labels, perf, bw, x, hx, hhome, hwait, htrack⟩ := track_of_meets h hq.host hgood hq.good
  obtain ⟨filters, hserve⟩ := hhome.serve_inv hq hkind (by rw [hx]; exact hways)
  obtain ⟨held, hsent⟩ := hq.sendNdr_eq (m := { x with filters := filters }) hwait.conflicts hwait.up (soleGrant q)
  have htracker : (retired q held (x.ports.get q.port)).tracker = (s.m.ports.get q.port).tracker := by
    simp only [retired, hwait.tracker, untracked_append hwait.fresh]
  have hheld : (retired q held (x.ports.get q.port)).rxBuf = (s.m.ports.get q.port).rxBuf := by simp [retired, hx, tracked]
  have hreceive := receive_of_meets h
  obtain ⟨⟨-, -, -, -, hrxA, hrxB, -⟩, -⟩ := h
  have hnone : ∀ u, ((s.m.ports.set q.port (retired q held (x.ports.get q.port))).get u).rxBuf = [] := fun u => by
    rw [Two_get_set_of_eq PortSt.rxBuf hheld]; cases u <;> assumption
  refine ⟨retired q held (x.ports.get q.port), labels, perf, bw, (touch s.m).power, filters, htracker, ?_⟩
  rw [hreceive, htrack, hserve, hsent]
  subst hx
  simp only [tracked, onPort, send, Two_set_set, Two_get_set, hwrite, Bool.false_eq_true, if_false] at hnone ⊢
  exact answers_of_none_held hnone

theorem invalidates_of_plainRequest {c : Instr} (hc : ∀ s, exec c s = .next (onMod (receive q) s)) (r : BitVec 128) (s : State) :
    invalidates c q r s := by
  intro hmeets hways
  obtain ⟨p, labels, perf, bw, power, filters, htracker, hreceive⟩ := receive_of_inv hq hkind hgood hmeets hways
  obtain ⟨⟨hpowered, -⟩, -⟩ := hmeets
  have htrackers := Two_get_set_of_eq PortSt.tracker htracker
  refine completes_of_onMod (receive q) (hc s) hpowered ?_
  rw [hreceive]
  exact ⟨⟨htrackers .a, htrackers .b, _, _, _, _, _, _, _, _, rfl⟩, rfl, rfl⟩

end

/-- Settles O29: an invalidation meets nothing before the filter, which has a way for its grant, and touches no line of its slice. -/
theorem invalidationsAndSpeculativeReadsAnswer : Obligations.InvalidationsAndSpeculativeReadsAnswer := by
  refine ⟨fun r => invalidates_of_plainRequest (plainRequest_ofReq ..) (.inl rfl) rfl (fun _ => rfl),
    fun r => invalidates_of_plainRequest (plainRequest_ofReq ..) (.inr rfl) rfl (fun _ => rfl), fun r s hp hdecodes hrun => ?_⟩
  refine completes_of_onMod _ rfl hp ?_
  obtain ⟨perf, hcounted⟩ : ∃ perf, perfCount (halfPage r.port) (perfReq 5 (wLabel r.w).toNat (wKey r.w) (wOff r.w)) none (touch s.m) =
    { touch s.m with perf := perf } := perfCount_eq ..
  simp only [hdecodes, wake_of_run _ (touch s.m) hrun, hcounted, Bool.not_true, Bool.false_eq_true, if_false]
  exact ⟨rfl, _, _, _, rfl⟩

end Sys2Proof.Machine
end

