-- ==== Sys2Proof/Proofs/Violations.lean ====
section
/-! PROOFS. Violations (O30): a request that fails a check from its port to its answer, and what its log leaves. -/
namespace Sys2Proof.Machine

open Sys2Proof.Stmt

/-! ### Receipt of a request that answers no BISnp (R164, R167, R230) -/

section
variable {q : MReq} {s : State} (h : reachesChecks q.port q.tag q.w (isWrite q) s) (hplain : (isWrite q && !q.bad) = false)
include h hplain

/-- A request that cannot be the answer of a BISnp takes a free tracker entry at once. -/
theorem receive_of_reachesChecks : receive q s.m = answers (track q (arrived q s.m)) := by
  obtain ⟨⟨-, hdecodes, hrun, hsweep, hrxA, hrxB, -⟩, htrack, -⟩ := h
  obtain ⟨perf, harrived⟩ : ∃ perf, arrived q s.m = { touch s.m with perf := perf } := perfCount_eq ..
  have hrx : (s.m.ports.get q.port).rxBuf = [] := by cases q.port <;> assumption
  have hroom : rxRoom s.m q = true := by simp only [rxRoom, hrx, rxCredits]; split <;> rfl
  have hwake : finishSweep q.port (wake (msgCode q.port) (touch s.m)) = touch s.m := by
    rw [wake_of_run _ (touch s.m) hrun]; simp [finishSweep, hsweep]
  have hrx' : ((arrived q s.m).ports.get q.port).rxBuf = [] := by rw [harrived]; exact hrx
  have htrack' : trackRoom (arrived q s.m) q.port (wLabel q.w) (isWrite q) = true := by rw [harrived]; exact htrack
  simp only [receive, hdecodes, hroom, hwake, Bool.not_true, Bool.or_self, Bool.false_eq_true, if_false]
  rw [← arrived]
  simp only [hplain, Bool.false_and, Bool.false_eq_true, if_false, hrx', List.length_nil, releaseRx, htrack', if_true]

end

/-- From the tracker it goes straight to the checks. -/
theorem track_of_plain {q : MReq} (hq : PlainRequest q) (hplain : (isWrite q && !q.bad) = false) (m : Mod) :
    track q m = route q (tracked q m) := by
  have hgood : ∀ x, poisonRx q x = x := fun x => by simp [poisonRx, hq.good]
  have hfirst : ∀ x, comesFirst x q = none := fun x => by
    refine if_pos ?_
    cases hwrite : isWrite q <;> simp_all
  rw [track, hgood, routeFirst, hfirst]
  rfl

/-! ### The answer and the log of a violation (R165, R186) -/

/-- The answer to a request that fails a check: poisoned data, or Cmp for a write. -/
def refusal (q : MReq) : Out := if isWrite q then .ndr q.port q.tag .none else .memData q.port q.tag 0 true .none

/-- What the log of a violation leaves of its port. -/
def logged (w : BitVec 53) (k : Nat) (write : Bool) (p : PortSt) : PortSt :=
  { p with err := p.err ||| 1#8, violCount := satAdd 0xFFFF_FFFF p.violCount 1
           viol := if p.viol.isNone then some ⟨w, BitVec.ofNat 3 k, write⟩ else p.viol }

theorem logViolation_reports (p : Port) (w : BitVec 53) (k : Nat) (write : Bool) (m : Mod) :
    reports (onPort p (logged w k write) m) (logViolation p w k write m) := event_reports ..

/-- The bytes of a read's answer are counted (R415, R539). -/
def countRead (q : MReq) (m : Mod) : Mod :=
  { onLabel (wLabel q.w) (fun l => { l with rd := l.rd + 64 }) m with
    bw := m.bw.set q.port { m.bw.get q.port with accRd := (m.bw.get q.port).accRd + 64 } }

/-- Data is sent with its bytes counted, and the request leaves the tracker. -/
theorem PlainRequest.sendData_eq {q : MReq} {m : Mod} (hq : PlainRequest q) (hconf : (m.ports.get q.port).conflicts = [])
    (hup : portDown m q.port = false) (d : Sector) (poison : Bool) (g : Grant) :
    ∃ (held : List Nat) (labels : Vector LabelSt 8) (perf : Vector PerfPage 7) (bw : Two BwWindow), sendData q d poison g m =
      { m with ports := m.ports.set q.port (retired q held (m.ports.get q.port)), out := .memData q.port q.tag d poison g :: m.out
               labels := labels, perf := perf, bw := bw } := by
  obtain ⟨perf, hcounted⟩ := perfCount_eq (countRead q m) (halfPage q.port) (perfReq 7 (wLabel q.w).toNat (wKey q.w) (wOff q.w)) none
  have hsend : sendData q d poison g m = retire q (send (.memData q.port q.tag d poison g) { countRead q m with perf := perf }) := by
    rw [← hcounted]
    simp only [sendData, hq.live, hq.host, hup, Bool.false_eq_true, if_false]
    rfl
  obtain ⟨held, hretire⟩ := hq.retire_eq (m := send (.memData q.port q.tag d poison g) { countRead q m with perf := perf }) hconf
  exact ⟨held, (countRead q m).labels, perf, (countRead q m).bw, by rw [hsend, hretire]; rfl⟩

/-- A read or a write that fails a check is answered; but for its tracker entry and the counts the module is as it was. -/
theorem violationAnswer_eq {q : MReq} {m : Mod} (hq : PlainRequest q) (hkind : q.kind = .memRd ∨ q.kind = .memWr)
    (hconf : (m.ports.get q.port).conflicts = []) (hup : portDown m q.port = false) :
    ∃ (held : List Nat) (labels : Vector LabelSt 8) (perf : Vector PerfPage 7) (bw : Two BwWindow), violationAnswer q m =
      { m with ports := m.ports.set q.port (retired q held (m.ports.get q.port)), out := refusal q :: m.out
               labels := labels, perf := perf, bw := bw } := by
  rcases hkind with hkind | hkind
  case inl =>
    obtain ⟨held, labels, perf, bw, hsent⟩ := hq.sendData_eq hconf hup 0 true .none
    refine ⟨held, labels, perf, bw, ?_⟩
    simp only [violationAnswer, hkind, hsent]
    rw [refusal, if_neg (by simp [isWrite, hkind])]
  case inr =>
    obtain ⟨held, hsent⟩ := hq.sendNdr_eq hconf hup .none
    refine ⟨held, m.labels, m.perf, m.bw, ?_⟩
    simp only [violationAnswer, hkind, hsent]
    rw [refusal, if_pos (by simp [isWrite, hkind])]
    rfl

/-! ### A violation from its port to its answer -/

/-- A port whose request has been logged as a violation and answered. -/
def refusedAt (q : MReq) (k : Nat) (held : List Nat) (p : PortSt) : PortSt :=
  retired q held (logged q.w k (isWrite q) { p with tracker := p.tracker ++ [trackOf q] })

section
variable {q : MReq} (hq : PlainRequest q) (hkind : q.kind = .memRd ∨ q.kind = .memWr) (hplain : (isWrite q && !q.bad) = false)
include hq hkind hplain

/-- A request that fails a check is logged and answered; nothing else is performed. -/
theorem receive_of_violation {k : Nat} {s : State} (h : reachesChecks q.port q.tag q.w (isWrite q) s)
    (hviol : violation s.m q.port q.w (!q.bad) = some k) :
    ∃ (held : List Nat) (labels : Vector LabelSt 8) (perf : Vector PerfPage 7) (bw : Two BwWindow) (x : Mod),
      reports (onPort q.port (logged q.w k (isWrite q)) (tracked q s.m)) x ∧ receive q s.m =
        { x with ports := s.m.ports.set q.port (refusedAt q k held (s.m.ports.get q.port)), out := refusal q :: x.out
                 labels := labels, perf := perf, bw := bw } := by
  obtain ⟨perf, harrived⟩ : ∃ perf, arrived q s.m = { touch s.m with perf := perf } := perfCount_eq ..
  have hlog : (q.kind != .memRd && q.kind != .memRdData) = isWrite q := by rcases hkind with hkind | hkind <;> simp [isWrite, hkind]
  have hroute : route q (tracked q (arrived q s.m)) =
      violationAnswer q (logViolation q.port q.w k (isWrite q) (tracked q (arrived q s.m))) := by
    have hviol' : violation (tracked q (arrived q s.m)) q.port q.w (!q.bad) = some k := by rw [harrived]; exact hviol
    simp only [route, hq.host, hviol', hlog]
  have hreports : reports (onPort q.port (logged q.w k (isWrite q)) (tracked q s.m))
      (logViolation q.port q.w k (isWrite q) (tracked q (arrived q s.m))) :=
    reports_trans _ _ _ (by rw [harrived]; exact ⟨s.m.ev, _, perf, _, s.m.flash.fatal, false, rfl⟩) (logViolation_reports ..)
  have hreceive := receive_of_reachesChecks h hplain
  obtain ⟨⟨-, hdecodes, -, -, hrxA, hrxB, hconf⟩, -⟩ := h
  generalize logViolation q.port q.w k (isWrite q) (tracked q (arrived q s.m)) = x at hroute hreports
  have hports : x.ports = s.m.ports.set q.port (logged q.w k (isWrite q) { s.m.ports.get q.port with
      tracker := (s.m.ports.get q.port).tracker ++ [trackOf q] }) := by
    obtain ⟨_, _, _, _, _, _, rfl⟩ := hreports
    simp [tracked, onPort]
  obtain ⟨held, labels, perf', bw, hanswer⟩ := violationAnswer_eq (m := x) hq hkind (by rw [hports, Two_get_set]; exact hconf)
    (by rw [portDown, hports, Two_get_set]; exact portDown_of_memDecodes hdecodes)
  refine ⟨held, labels, perf', bw, x, hreports, ?_⟩
  rw [hreceive, track_of_plain hq hplain, hroute, hanswer, hports, Two_set_set, Two_get_set]
  have hheld : (refusedAt q k held (s.m.ports.get q.port)).rxBuf = (s.m.ports.get q.port).rxBuf := rfl
  refine answers_of_none_held fun u => (Two_get_set_of_eq PortSt.rxBuf hheld u).trans ?_
  cases u <;> assumption

theorem violates_of_plainRequest {c : Instr} (hc : ∀ s, exec c s = .next (onMod (receive q) s)) {k : Nat} {s : State}
    (h : reachesChecks q.port q.tag q.w (isWrite q) s) (hviol : violation s.m q.port q.w (!q.bad) = some k) :
    violates c q.port (refusal q) q.w k (isWrite q) s := by
  obtain ⟨held, labels, perf, bw, x, hreports, hreceive⟩ := receive_of_violation hq hkind hplain h hviol
  obtain ⟨⟨hpowered, -⟩, -⟩ := h
  obtain ⟨ev, out, perf', power, fatal, flushed, rfl⟩ := hreports
  refine completes_of_onMod (receive q) (hc s) hpowered ?_
  rw [hreceive]
  simp only [Two_get_set, refusedAt, retired, logged]
  refine ⟨List.mem_cons_self, rfl, ?lines, rfl, by simp, rfl, fun hnone => by simp [hnone], fun v hsome => by simp [hsome]⟩
  case lines => cases flushed <;> simp [tracked]

end

/-- Settles O30: a request that fails a check holds a tracker entry until its answer, and passes nothing but its log on the way. -/
theorem violationsAreAnsweredAndLogged : Obligations.ViolationsAreAnsweredAndLogged := by
  refine ⟨fun r k s => ?check, fun r opcode k s => ?read, fun r opcode k s => ?write, fun p chan opcode s hp htalks hrun => ?cache⟩
  case check => exact violates_of_plainRequest (plainRequest_ofReq .memRd false r) (.inl rfl) rfl (fun _ => rfl)
  case read =>
    exact violates_of_plainRequest (plainRequest_ofReq .memRd true { r with mv := .invalid }) (.inl rfl) rfl (fun _ => rfl)
  case write => exact violates_of_plainRequest (plainRequest_ofReq .memWr true r) (.inr rfl) rfl (fun _ => rfl)
  case cache =>
    refine completes_of_onMod _ rfl hp ?_
    simp only [cacheProtocolError, htalks, wake_of_run _ (touch s.m) hrun, Bool.not_true, Bool.false_eq_true, if_false]

end Sys2Proof.Machine
end

