-- ==== Sys2Proof/Proofs/SnoopAnswers.lean ====
section
/-! PROOFS. BIRsp, BIConflict, credits and held requests (O31): what the answer of the last open BISnp leaves in its filter slice, and
what each return of a credit or an entry sets going. -/
namespace Sys2Proof.Machine

open Sys2Proof.Stmt

/-! ### The entry that an answer leaves (R226) -/

/-- What an answer makes of the entry of its line: `same` as BIRspE leaves it, `shared` as BIRspS does, else as BIRspI does. -/
def snpEntry (p : Port) (shared same : Bool) (e : FEntry) : FEntry :=
  let e := if same then e else if shared then { entSetPres e p true with excl := false } else entSetPres e p false
  { e with pend := false }

@[simp] theorem entSetPres_set (e : FEntry) (p : Port) (v : Bool) : (entSetPres e p v).set = e.set := by cases p <;> rfl
@[simp] theorem entSetPres_way (e : FEntry) (p : Port) (v : Bool) : (entSetPres e p v).way = e.way := by cases p <;> rfl
@[simp] theorem entSetPres_tag (e : FEntry) (p : Port) (v : Bool) : (entSetPres e p v).tag = e.tag := by cases p <;> rfl
@[simp] theorem entPres_entSetPres (e : FEntry) (p : Port) (v : Bool) : entPres (entSetPres e p v) p = v := by cases p <;> rfl
@[simp] theorem entPres_other_entSetPres (e : FEntry) (p : Port) (v : Bool) : entPres (entSetPres e p v) p.other = entPres e p.other := by
  cases p <;> rfl

section
variable {p : Port} {shared same : Bool} {e : FEntry}

@[simp] theorem snpEntry_set : (snpEntry p shared same e).set = e.set := by simp only [snpEntry]; split <;> (try split) <;> simp
@[simp] theorem snpEntry_way : (snpEntry p shared same e).way = e.way := by simp only [snpEntry]; split <;> (try split) <;> simp
@[simp] theorem snpEntry_tag : (snpEntry p shared same e).tag = e.tag := by simp only [snpEntry]; split <;> (try split) <;> simp

end

/-- BIRspI clears the port's presence and leaves the other port's (R226). -/
theorem entPres_snpEntry_of_invalid (p : Port) (e : FEntry) :
    entPres (snpEntry p false false e) p = false ∧ entPres (snpEntry p false false e) p.other = entPres e p.other := by
  cases p <;> exact ⟨rfl, rfl⟩

/-- BIRspS leaves the port present, and shared (R226). -/
theorem entPres_snpEntry_of_shared (p : Port) (e : FEntry) :
    entPres (snpEntry p true false e) p = true ∧ (snpEntry p true false e).excl = false := by
  cases p <;> exact ⟨rfl, rfl⟩

/-- An entry is valid exactly when a port is present in it. -/
theorem valid_iff_entPres (e : FEntry) (p : Port) : (e.presA || e.presB) = (entPres e p || entPres e p.other) := by
  cases p
  · rfl
  · exact Bool.or_comm ..

/-- A stored entry in which a port is present is found again. -/
theorem findEnt_putEnt {e : FEntry} {f : FilterSt} {line : Nat} (hvalid : (e.presA || e.presB) = true) (hset : e.set = filtSet line)
    (htag : e.tag = filtTag line) : findEnt (putEnt e f) line = some e := by
  simp only [findEnt, putEnt, hvalid, if_true]
  exact List.find?_cons_of_pos (by simp [hset, htag])

/-- One in which no port is present goes, and with it the line's only entry. -/
theorem findEnt_putEnt_of_invalid {e : FEntry} {f : FilterSt} {line : Nat} (hvalid : (e.presA || e.presB) = false)
    (hway : ∀ y ∈ f.entries, y.set = filtSet line → y.tag = filtTag line → y.set = e.set ∧ y.way = e.way) :
    findEnt (putEnt e f) line = none := by
  simp only [findEnt, putEnt, hvalid, Bool.false_eq_true, if_false]
  refine List.find?_eq_none.2 fun y hy hmatch => ?_
  obtain ⟨hmem, hkeep⟩ := List.mem_filter.1 hy
  simp only [Bool.and_eq_true, beq_iff_eq] at hmatch
  simp [hway y hmem hmatch.1 hmatch.2] at hkeep

/-! ### The answer of the last open BISnp -/

/-- What is found in one place alone is found. -/
theorem findSome?_of_unique {α β : Type} {f : α → Option β} {a : α} {v : β} (ha : f a = some v) (hother : ∀ b, b ≠ a → f b = none) :
    ∀ {l : List α}, a ∈ l → l.findSome? f = some v
  | b :: l, hmem => by
    by_cases hb : b = a
    · rw [List.findSome?_cons, hb, ha]
    · rw [List.findSome?_cons, hother b hb]
      exact findSome?_of_unique ha hother ((List.mem_cons.1 hmem).resolve_left (Ne.symm hb))

theorem pumpSnp_of_no_snp (k : Nat) {t : Tile} (p : Port) {m : Mod} (h : (m.filters[t] : FilterSt).snps = []) : pumpSnp k t p m = m := by
  cases k with
  | zero => rfl
  | succ k => simp only [pumpSnp, h, List.find?_nil]

theorem trimSettle_of_no_trim {t : Tile} {m : Mod} (h : (m.tiers[t] : TierSt).trims = []) : trimSettle t m = m := by
  simp only [trimSettle, h, List.foldl_nil]

theorem onFilter_onFilter (t : Tile) (f g : FilterSt → FilterSt) (m : Mod) : onFilter t f (onFilter t g m) = onFilter t (f ∘ g) m := by
  simp [onFilter]

theorem onFilter_congr {t : Tile} {f g : FilterSt → FilterSt} {m : Mod} (h : f m.filters[t] = g m.filters[t]) :
    onFilter t f m = onFilter t g m := by
  simp only [onFilter, h]

/-- Where no request waits, only the ways kept for requests that are gone are kept no longer. -/
theorem wakeFilter_of_no_waiter {t : Tile} {m : Mod} (h : (m.filters[t] : FilterSt).waiters = []) :
    ∃ resv : List (Nat × Nat), wakeFilter t m = onFilter t (fun f => { f with resv := resv }) m := by
  have hclear : onFilter t (fun f => { f with waiters := [] }) m = m := onFilter_of_fixed (by rw [← h])
  have honce : wakeOnce t m = pruneWays t m := by simp only [wakeOnce, h, hclear, serveAll, List.foldl_nil]
  have hnone : ((pruneWays t m).filters[t] : FilterSt).waiters = [] := by simpa [pruneWays] using h
  simp only [wakeFilter, honce, hnone, List.any_nil, Bool.false_eq_true, if_false]
  exact ⟨_, rfl⟩

/-- A filter slice whose open BISnp have been answered, with the entry that the last answer leaves. -/
def closedWith (e : FEntry) (f : FilterSt) : FilterSt := putEnt e { f with snps := [] }

section
variable {p : Port} {tag : Nat} {t : Tile} {x : OpenSnp} {e : FEntry} {s : State} (h : answersSnp p tag t x e s)
include h

/-- The answer closes the BISnp and changes the line's entry; nothing waited for it. -/
theorem biRsp_of_answersSnp (code : Nat) (shared same : Bool) : ∃ resv : List (Nat × Nat), biRsp p tag code shared same s.m =
    onFilter t (fun f => { closedWith (snpEntry p shared same e) f with resv := resv })
      (send (.credit p 2) (touch s.m)) := by
  obtain ⟨⟨-, hdecodes, hrun, -, hrxA, hrxB, -⟩, hsnps, hport, hsent, htag, hothers, hwaiters, htrims, hentry, -⟩ := h
  have hwake : wake (if p == .a then 1 else 2) (touch s.m) = touch s.m := wake_of_run _ (touch s.m) hrun
  have hfound : (List.finRange 4).findSome? (fun u => (((send (.credit p 2) (touch s.m)).filters[u] : FilterSt).snps.find?
      (fun y => y.port == p && y.sent && y.tag == tag)).map (fun y => (u, y))) = some (t, x) := by
    refine findSome?_of_unique (a := t) ?_ (fun u hu => ?_) (List.mem_finRange t)
    · simp only [send_filters, touch_filters, hsnps]
      simp [hport, hsent, htag]
    · simp only [send_filters, touch_filters, hothers u hu]
      rfl
  have hanswer : snpAnswer t x shared same (send (.credit p 2) (touch s.m)) =
      onFilter t (closedWith (snpEntry p shared same e)) (send (.credit p 2) (touch s.m)) := by
    refine onFilter_congr ?_
    have herase : (s.m.filters[t] : FilterSt).snps.erase x = [] := by rw [hsnps]; simp
    have hentry' : findEnt { (s.m.filters[t] : FilterSt) with snps := [] } x.line = some e := hentry
    simp only [send_filters, touch_filters, herase, hentry', hport, List.any_nil]
    rfl
  have hslot : ∀ f : FilterSt → FilterSt, ((onFilter t f (send (.credit p 2) (touch s.m))).filters[t] : FilterSt) = f s.m.filters[t] :=
    fun f => by simp
  obtain ⟨resv, hwoken⟩ := wakeFilter_of_no_waiter (t := t)
    (m := onFilter t (closedWith (snpEntry p shared same e)) (send (.credit p 2) (touch s.m)))
    (by rw [hslot]; exact hwaiters)
  refine ⟨resv, ?_⟩
  have hpump := pumpSnp_of_no_snp 16 p (t := t) (m := onFilter t (closedWith (snpEntry p shared same e)) (send (.credit p 2) (touch s.m)))
    (by rw [hslot]; rfl)
  have htrim := trimSettle_of_no_trim (t := t) (m := onFilter t (closedWith (snpEntry p shared same e)) (send (.credit p 2) (touch s.m)))
    htrims
  simp only [biRsp, hdecodes, hwake, hfound, hanswer, hpump, htrim, hwoken, onFilter_onFilter, Bool.not_true, Bool.false_eq_true, if_false]
  exact answers_of_none_held fun u => by cases u <;> assumption

/-- The answer returns its credit, and the line's entry is as the answer leaves it. -/
theorem completes_biRsp {c : Instr} {code : Nat} {shared same : Bool} {P : Option FEntry → Prop}
    (hc : ∀ s, exec c s = .next (onMod (biRsp p tag code shared same) s))
    (hP : P (findEnt (closedWith (snpEntry p shared same e) s.m.filters[t]) x.line)) :
    completes c s fun m' => m'.out = .credit p 2 :: s.m.out ∧ (m'.filters[t] : FilterSt).snps = [] ∧ P (findEnt m'.filters[t] x.line) := by
  obtain ⟨resv, hrsp⟩ := biRsp_of_answersSnp h code shared same
  refine completes_of_onMod _ (hc s) h.1.1 ?_
  rw [hrsp]
  refine ⟨rfl, ?_, ?_⟩ <;> simp only [onFilter_filters, Fin.getElem_fin, Vector.getElem_set_self]
  · rfl
  · exact hP

/-- Where a port stays present the line's entry is found as the answer leaves it. -/
theorem findEnt_closedWith {shared same : Bool} (hvalid : ((snpEntry p shared same e).presA || (snpEntry p shared same e).presB) = true) :
    findEnt (closedWith (snpEntry p shared same e) s.m.filters[t]) x.line = some (snpEntry p shared same e) := by
  obtain ⟨-, -, -, -, -, -, -, -, hentry, -⟩ := h
  have hmatch := List.find?_some hentry
  simp only [Bool.and_eq_true, beq_iff_eq] at hmatch
  exact findEnt_putEnt hvalid (by simpa using hmatch.1) (by simpa using hmatch.2)

/-- Where no port stays the line has no entry any more. -/
theorem findEnt_closedWith_of_invalid {shared same : Bool}
    (hvalid : ((snpEntry p shared same e).presA || (snpEntry p shared same e).presB) = false) :
    findEnt (closedWith (snpEntry p shared same e) s.m.filters[t]) x.line = none := by
  obtain ⟨-, -, -, -, -, -, -, -, hentry, hunique⟩ := h
  have hmatch := List.find?_some hentry
  simp only [Bool.and_eq_true, beq_iff_eq] at hmatch
  refine findEnt_putEnt_of_invalid hvalid fun y hy hset htag => ?_
  obtain rfl := hunique y hy (hset.trans hmatch.1.symm) (htag.trans hmatch.2.symm)
  exact ⟨snpEntry_set.symm, snpEntry_way.symm⟩

theorem biRspI_closes : completes (.biRspI p tag) s (fun m' => m'.out = .credit p 2 :: s.m.out ∧ (m'.filters[t] : FilterSt).snps = [] ∧
    (entPres e p.other = false → findEnt m'.filters[t] x.line = none) ∧
    (entPres e p.other = true → ∃ y, findEnt m'.filters[t] x.line = some y ∧ entPres y p = false ∧ entPres y p.other = true ∧
      y.pend = false)) := by
  obtain ⟨hpres, hother⟩ := entPres_snpEntry_of_invalid p e
  have hvalid : ((snpEntry p false false e).presA || (snpEntry p false false e).presB) = entPres e p.other := by
    rw [valid_iff_entPres _ p, hpres, hother, Bool.false_or]
  refine completes_biRsp h (code := 0) (shared := false) (same := false) (P := fun o => (entPres e p.other = false → o = none) ∧
    (entPres e p.other = true → ∃ y, o = some y ∧ entPres y p = false ∧ entPres y p.other = true ∧ y.pend = false)) (fun _ => rfl) ?_
  exact ⟨fun hgone => findEnt_closedWith_of_invalid h (hvalid.trans hgone),
    fun hstays => ⟨_, findEnt_closedWith h (hvalid.trans hstays), hpres, hother.trans hstays, rfl⟩⟩

theorem biRspS_closes : completes (.biRspS p tag) s (fun m' => m'.out = .credit p 2 :: s.m.out ∧ (m'.filters[t] : FilterSt).snps = [] ∧
    ∃ y, findEnt m'.filters[t] x.line = some y ∧ entPres y p = true ∧ y.excl = false ∧ y.pend = false) := by
  obtain ⟨hpres, hexcl⟩ := entPres_snpEntry_of_shared p e
  have hvalid : ((snpEntry p true false e).presA || (snpEntry p true false e).presB) = true := by
    rw [valid_iff_entPres _ p, hpres, Bool.true_or]
  exact completes_biRsp h (code := 1) (P := fun o => ∃ y, o = some y ∧ entPres y p = true ∧ y.excl = false ∧ y.pend = false) (fun _ => rfl)
    ⟨_, findEnt_closedWith h hvalid, hpres, hexcl, rfl⟩

theorem biRspE_closes (hvalid : e.presA = true ∨ e.presB = true) :
    completes (.biRspE p tag) s (fun m' => m'.out = .credit p 2 :: s.m.out ∧ (m'.filters[t] : FilterSt).snps = [] ∧
      findEnt m'.filters[t] x.line = some { e with pend := false }) :=
  completes_biRsp h (code := 2) (P := fun o => o = some { e with pend := false }) (fun _ => rfl)
    (findEnt_closedWith (shared := false) (same := true) h (by simpa [snpEntry] using hvalid))

end

/-- A BIRsp that answers no open BISnp is discarded with its event (R229). -/
theorem biRsp_of_no_snp {p : Port} {tag : Nat} {s : State} (code : Nat) (shared same : Bool) (hdecodes : memDecodes s.m p = true)
    (hrun : s.m.power.state = 0)
    (hnone : ∀ t : Tile, ∀ x ∈ (s.m.filters[t] : FilterSt).snps, ¬ (x.port = p ∧ x.sent = true ∧ x.tag = tag)) :
    biRsp p tag code shared same s.m = event 0x0307 0 (p.num + 3 * 2 + code % 256 * 256) (send (.credit p 2) (touch s.m)) := by
  have hwake : wake (if p == .a then 1 else 2) (touch s.m) = touch s.m := wake_of_run _ (touch s.m) hrun
  have hfound : (List.finRange 4).findSome? (fun u => (((send (.credit p 2) (touch s.m)).filters[u] : FilterSt).snps.find?
      (fun y => y.port == p && y.sent && y.tag == tag)).map (fun y => (u, y))) = none := by
    refine List.findSome?_eq_none_iff.2 fun u _ => ?_
    rw [Option.map_eq_none_iff, List.find?_eq_none]
    exact fun y hy hmatch => hnone u y hy (by simpa [and_assoc] using hmatch)
  simp only [biRsp, hdecodes, hwake, hfound, Bool.not_true, Bool.false_eq_true, if_false]

theorem backInvalidateResponsesCloseSnoops : BackInvalidateResponsesCloseSnoops :=
  ⟨fun _ _ _ _ _ _ h => ⟨biRspI_closes h, biRspS_closes h, biRspE_closes h⟩, fun _ _ _ hp hdecodes hrun hnone =>
    ⟨completes_of_onMod _ rfl hp (biRsp_of_no_snp 0 false false hdecodes hrun hnone),
      completes_of_onMod _ rfl hp (biRsp_of_no_snp 1 true false hdecodes hrun hnone),
      completes_of_onMod _ rfl hp (biRsp_of_no_snp 2 false true hdecodes hrun hnone)⟩⟩

/-! ### Conflicts and credits (R170, R229, R232, R582) -/

/-- A BIConflict of a line of which no message is awaited is acknowledged at once. -/
theorem conflictAcks_of_none_awaited {p : Port} {tag : BitVec 16} {m : Mod} (hconf : (m.ports.get p).conflicts = []) :
    conflictAcks p (onPort p (fun q => { q with conflicts := q.conflicts ++ [(tag, [])] }) m) = send (.biConflictAck p tag) m := by
  have hport : m.ports.set p { m.ports.get p with conflicts := [] } = m.ports := by rw [← hconf]; exact Two_set_get m.ports p
  simp only [conflictAcks, onPort, Two_get_set, Two_set_set, hconf, List.nil_append, List.filter_cons, List.filter_nil, List.isEmpty_nil,
    Bool.not_true, Bool.false_eq_true, if_false, if_true, List.foldl_cons, List.foldl_nil, hport]

theorem freeAnswers_of_no_answer (k : Nat) {p : Port} {m : Mod} (h : heldAnswer m p = none) : freeAnswers k p m = m := by
  cases k with
  | zero => rfl
  | succ k => simp only [freeAnswers, h]

theorem answers_of_no_answer {m : Mod} (ha : heldAnswer m .a = none) (hb : heldAnswer m .b = none) : answers m = m := by
  simp only [answers, freeAnswers_of_no_answer _ ha, freeAnswers_of_no_answer _ hb]

section
variable {m : Mod} (hsnps : ∀ t : Tile, (m.filters[t] : FilterSt).snps = [])
include hsnps

theorem heldAnswer_of_no_snp (p : Port) : heldAnswer m p = none := by
  simp only [heldAnswer, openToward_of_no_snp hsnps, Option.map_none, ite_self]
  split
  · rfl
  · exact List.findSome?_eq_none_iff.2 fun _ _ => rfl

/-- With no BISnp open a credit for one sets nothing going. -/
theorem pumpPort_of_no_snp (p : Port) : pumpPort p m = m :=
  List.foldl_fixed' (fun t => pumpSnp_of_no_snp _ p (hsnps t)) _

theorem wakeAhead_of_no_snp : wakeAhead m = m := by
  have hnever : ∀ (t : Tile) (q : MReq), aheadSnp m.filters[t] q = false := fun t q => by
    simp only [aheadSnp, snpsOf, hsnps, List.filter_nil, List.any_nil, Bool.and_false]
  refine List.foldl_fixed' (fun t => if_neg fun hany => ?_) _
  obtain ⟨q, -, hq⟩ := List.any_eq_true.1 hany
  exact absurd hq (by rw [hnever]; decide)

end

/-- Where no entry line may be fetched, nothing is. -/
theorem fetchPump_of_none_fetchable {m : Mod} (ha : fetchable m .a = []) (hb : fetchable m .b = []) : fetchPump m = m :=
  List.foldl_fixed' (fun _ => by simp only [ha, hb, List.isEmpty_nil, Bool.and_self, if_true]) _

/-! ### Entries that free (R170, R188, R413, R416) -/

/-- The oldest held request of a label moves into the tracker when its label has an entry. -/
theorem releaseRx_one {p : Port} {l : BitVec 3} {wr : Bool} {i : Nat} {q : MReq} {m : Mod} (holdest : oldestHeld m p l wr = some i)
    (hheld : (m.ports.get p).rxBuf[i]? = some q) (hroom : trackRoom m p l wr = true) :
    releaseRx 1 p l wr m = track q (onPort p (fun x => { x with rxBuf := x.rxBuf.eraseIdx i }) m) := by
  simp only [releaseRx, holdest, hroom, hheld, if_true, Option.getD_some]

/-- A dispatcher entry frees where nothing waits. -/
theorem freeDispatch_of_no_waiter {pk : Pack} {c : SlotClass} {m : Mod} (h : (m.packs[pk] : PackSt).waiting = []) :
    freeDispatch pk c m = m := by
  simp only [freeDispatch, h, List.mapIdx_nil, List.filterMap_nil, chooseWaiter, List.foldl_nil]

/-- A miss or transit entry frees where nothing waits. -/
theorem freeMissEntry_of_no_waiter {t : Tile} (transit : Bool) {m : Mod} (h : (m.slices[t] : Slice).missWait = []) :
    freeMissEntry t transit m = m := by
  simp only [freeMissEntry, h, List.mapIdx_nil, List.filterMap_nil, chooseWaiter, List.foldl_nil]

/-- The one request that waits for a pack, and may take the entry, gets it. -/
theorem freeDispatch_of_waiter {pk : Pack} {c : SlotClass} {q : DReq} {m : Mod} (hwaiting : (m.packs[pk] : PackSt).waiting = [q])
    (hclass : q.cls = c) (hadmit : (dispAdmit m m.packs[pk] q).1 = true)
    (hbuffer : q.write = false ∨ c = .scrub ∨ writeRoom m (daTile q.da) c q.kind (reqBatts q).length = true) :
    ∃ l : Nat, freeDispatch pk c m = admitWaiter pk 0 (onPack pk (fun p => { p with served := tabPut p.served c.code l }) m) := by
  have hroom : (!q.write || c == .scrub || writeRoom m (daTile q.da) c q.kind (reqBatts q).length) = true := by
    simpa [or_assoc] using hbuffer
  have hcls : (q.cls == c) = true := by simpa using hclass
  simp only [freeDispatch, hwaiting, List.mapIdx_cons, List.mapIdx_nil, List.filterMap_cons, List.filterMap_nil, hcls, hadmit, hroom,
    Bool.and_self, if_true, chooseWaiter, List.foldl_cons, List.foldl_nil]
  exact ⟨_, rfl⟩

/-- A waiting request joins the queue of its pack. -/
def joined (i : Nat) (q : DReq) (p : PackSt) : PackSt := { p with waiting := p.waiting.eraseIdx i, queue := p.queue ++ [q] }

/-- A waiting request that is no line's write-back takes its entry, and its batts enter the write buffer with it (R110). -/
def entered (pk : Pack) (i : Nat) (q : DReq) (m : Mod) : Mod :=
  let t := daTile q.da
  let mine (e : WEntry) : Bool := q.write && (reqBatts q).contains e.da
  { onPack pk (joined i q) m with
    wbuf := m.wbuf.set t ((m.wbuf[t] : List WEntry) ++ (m.wbWait[t] : List WEntry).filter mine)
    wbWait := m.wbWait.set t ((m.wbWait[t] : List WEntry).filter (fun e => !mine e)) }

theorem entered_packs (pk : Pack) (i : Nat) (q : DReq) (m : Mod) : (entered pk i q m).packs = (onPack pk (joined i q) m).packs := rfl

theorem admitWaiter_of_waiter {pk : Pack} {i : Nat} {q : DReq} {m : Mod} (h : (m.packs[pk] : PackSt).waiting[i]? = some q)
    (hline : ∀ sp t a, q.why ≠ .line sp t a) : admitWaiter pk i m = wakeTile (daTile q.da) (entered pk i q m) := by
  simp only [admitWaiter, h]
  simp [entered, joined, onPack]

theorem creditsAndHeldRequestsMove : CreditsAndHeldRequestsMove := by
  refine ⟨fun p tag w s hp hdecodes hrun hconf hawaits => ?conflict, fun p n s hp hreset hup hsnps => ?snoopCredit,
    fun p n s hp hreset hup hwait hrings => ?requestCredit, fun p l wr i q s hp ha hb holdest hheld hroom => ?held,
    fun pk c q s hp hwaiting hclass hadmit hline hbuffer => ?entry, fun pk c s hwaiting => ?noWaiter, fun t s hwaiting => ?noMiss⟩
  case conflict =>
    refine completes_of_onMod _ rfl hp ?_
    have hawaits' : conflictAwaits (send (.credit p 0) (touch s.m)) p w = [] := hawaits
    simp only [hdecodes, wake_of_run _ (touch s.m) hrun, hawaits', Bool.not_true, Bool.false_eq_true, if_false]
    exact conflictAcks_of_none_awaited hconf
  case snoopCredit =>
    have hnone : ∀ t : Tile, ((onPort p (fun q => { q with snpCredit := q.snpCredit + n }) s.m).filters[t] : FilterSt).snps = [] := hsnps
    refine completes_of_onMod _ rfl hp ((if_neg (by simp [hreset, hup])).trans ?_)
    rw [if_neg Bool.false_ne_true, pumpPort_of_no_snp hnone,
      answers_of_no_answer (heldAnswer_of_no_snp hnone .a) (heldAnswer_of_no_snp hnone .b), wakeAhead_of_no_snp hnone]
    rfl
  case requestCredit =>
    have hnone : ∀ q, fetchable (onPort p (fun q => { q with d2hCredit := q.d2hCredit + n }) s.m) q = [] := fun q => by
      simp only [fetchable, onPort_rings, hrings, List.filter_nil]
    refine completes_of_onMod _ rfl hp ((if_neg (by simp [hreset, hup])).trans ?_)
    rw [if_pos rfl, hwait]
    exact fetchPump_of_none_fetchable (hnone .a) (hnone .b)
  case held =>
    refine completes_of_onMod _ rfl hp ?_
    rw [answers_of_no_answer ha hb, releaseRx_one holdest hheld hroom]
    rfl
  case entry =>
    obtain ⟨l, hfree⟩ := freeDispatch_of_waiter hwaiting hclass hadmit hbuffer
    have hserved := packs_onPack_self pk (fun p => { p with served := tabPut p.served c.code l }) s.m
    refine completes_of_onMod (freeDispatch pk c) rfl hp ⟨_, hfree.trans (admitWaiter_of_waiter ?first hline), ?queue, ?waiting,
      fun u hu => ?others, rfl⟩
    case first => rw [hserved, hwaiting]; rfl
    case queue => rw [entered_packs, packs_onPack_self, hserved]; rfl
    case waiting => rw [entered_packs, packs_onPack_self, hserved, joined, hwaiting]; rfl
    case others => rw [entered_packs, packs_onPack_of_ne _ _ hu, packs_onPack_of_ne _ _ hu]
  case noWaiter => exact exec_of_fixed _ rfl (freeDispatch_of_no_waiter hwaiting)
  case noMiss => exact ⟨exec_of_fixed _ rfl (freeMissEntry_of_no_waiter false hwaiting),
    exec_of_fixed _ rfl (freeMissEntry_of_no_waiter true hwaiting)⟩

/-- Settles O31: the last answer finds nothing else to wake, and what a credit or an entry frees goes to the one thing that waits for it. -/
theorem snoopsCloseAndHeldRequestsMove : Obligations.SnoopsCloseAndHeldRequestsMove :=
  ⟨backInvalidateResponsesCloseSnoops, creditsAndHeldRequestsMove⟩

end Sys2Proof.Machine
end

