-- ==== Sys2Proof/Proofs/HostConfig.lean ====
section
/-! PROOFS. Configuration requests, the HDM decoder and the mailbox (O35): what a request that reaches its port's function comes to in
Run, and what each of them answers. -/
namespace Sys2Proof.Machine

open Sys2Proof.Stmt

/-! ### Requests that reach the function -/

theorem barOpen_of_reachable {p : Port} {s : State} (h : reachable p s) : barOpen p s := by
  obtain ⟨⟨hp, htalks, hrun⟩, hd3⟩ := h
  exact ⟨hp, htalks, hd3, hrun⟩

/-- A command that is an access behind a BAR completes at a reachable port with what the access does. -/
theorem completes_of_reachable {c : Instr} {p : Port} {s : State} {P : Mod → Prop} (f : Mod → Mod)
    (hc : exec c s = .next (onMod (portAccess p f) s)) (h : reachable p s) (hP : P (f (touch s.m))) : completes c s P :=
  completes_of_onMod _ hc h.1.1 (by rwa [portAccess_of_barOpen f (barOpen_of_reachable h)])

/-- A mailbox command of a reachable port is answered once boot code has finished (R180). -/
theorem completes_mailbox {c : Instr} {p : Port} {s : State} {P : Mod → Prop} (answer : Mod → Mod)
    (hc : exec c s = mailbox p answer s) (h : reachable p s) (hboot : s.m.proc.bootDone = true) (hP : P (answer (touch s.m))) :
    completes c s P :=
  completes_of_reachable _ hc h (by simpa [hboot] using hP)

/-- In Run a configuration request is answered as soon as boot code has finished, and with Retry Status before (R178). -/
theorem configRequest_of_talking {p : Port} {s : State} (req : CfgReq) (h : talking p s) : configRequest s.fe p req s.m =
    if s.m.proc.bootDone = true then answerCfg s.fe p req (touch s.m) else send (.cfgRetry p) (touch s.m) := by
  obtain ⟨-, htalks, hrun⟩ := h
  cases hboot : s.m.proc.bootDone <;>
    simp [configRequest, htalks, wake_of_run _ (touch s.m) hrun, hboot, hrun]

theorem completes_configRequest {p : Port} {req : CfgReq} {s : State} {P : Mod → Prop} (h : talking p s)
    (hboot : s.m.proc.bootDone = true) (hP : P (answerCfg s.fe p req (touch s.m))) : completes (.configRequest p req) s P :=
  completes_of_onMod _ rfl h.1 (by rwa [configRequest_of_talking req h, if_pos hboot])

/-! ### Reads of a BAR (R179, R182) -/

/-- The accesses that a BAR does not take: in D3hot, of another size than 4 or 8 B, unaligned, or past its end. -/
theorem barRead_of_refused {p : Port} {bar : Bar} {off size : Nat} {m : Mod} (fe : FrontEnd) (h : (m.ports.get p).d3hot = true ∨
    (size ≠ 4 ∧ size ≠ 8) ∨ off % size ≠ 0 ∨ barBytes bar ≤ off) : barRead fe p bar off size m = send (.unsupportedReq p) m :=
  if_pos (by simpa [or_assoc] using h)

/-- An access that the BAR takes returns its bytes; but for the model's own record of what was read, nothing else changes. -/
theorem barRead_of_taken {p : Port} {bar : Bar} {off size : Nat} {m : Mod} (fe : FrontEnd) (h : ¬ ((m.ports.get p).d3hot = true ∨
    (size ≠ 4 ∧ size ≠ 8) ∨ off % size ≠ 0 ∨ barBytes bar ≤ off)) : ∃ slotSet free, barRead fe p bar off size m =
      { send (.regData p size (barValue fe m p bar off size)) m with slotSet := slotSet, free := free } := by
  have htaken : barRead fe p bar off size m = _ := if_neg (by simpa [or_assoc] using h)
  rw [htaken]
  cases bar with
  | bar0 => dsimp only; split <;> exact ⟨_, _, rfl⟩
  | bar2 => exact ⟨_, _, rfl⟩
  | bar4 => exact ⟨_, _, rfl⟩

/-! ### The statement -/

theorem configurationRequestsAreAnswered : ConfigurationRequestsAreAnswered := by
  refine ⟨fun p base size ways lock s h hfree => ?commit, fun p req s h hboot => ?early, fun p req s h hboot => ?answer⟩
  case commit =>
    refine completes_of_reachable _ rfl h ?_
    have hopen : ((s.m.ports.get p).hdmCommitted && (s.m.ports.get p).hdmLock) = false := by simpa using hfree
    have hok : decide (size = 2 ^ 53 ∧ base % 2 ^ 53 = 0 ∧ ways = 1) = (size == 2 ^ 53 && base % 2 ^ 53 == 0 && ways == 1) := by
      simp only [Bool.decide_and, Bool.and_assoc]; rfl
    simp only [touch_ports, hopen, hok, Bool.false_eq_true, if_false]
    rfl
  case early => exact completes_of_onMod _ rfl h.1 (by simp [configRequest_of_talking req h, hboot])
  case answer =>
    refine completes_configRequest h hboot ?_
    cases req with
    | setCacheEnable on =>
      intro hwait
      have hnone : ((send (.cfgDone p) (onPort p (fun q => { q with cacheEnable := on }) (touch s.m))).ports.get p).d2hWait = [] := by
        simpa using hwait
      simp only [answerCfg, hnone, List.length_nil, pumpD2h]
      rfl
    | barRead bar off size =>
      dsimp only
      split
      next hrefused => exact barRead_of_refused s.fe hrefused
      next htaken =>
        obtain ⟨slotSet, free, hread⟩ := barRead_of_taken (m := touch s.m) s.fe htaken
        simp only [answerCfg, hread]
        exact ⟨rfl, rfl, rfl⟩
    | _ => rfl

/-- The timestamp is 0 until it is set, and then counts on from the value set (R180). -/
theorem timestamp_cases (m : Mod) (p : Port) :
    ((m.ports.get p).tsBase = 0 → (m.ports.get p).tsAt = 0 → timestamp m p = 0) ∧
    ((m.ports.get p).tsBase ≠ 0 →
      timestamp m p = ((m.ports.get p).tsBase + (m.tb.now - (m.ports.get p).tsAt)) % 2 ^ 64) :=
  ⟨fun hbase hat => if_pos ⟨hbase, hat⟩, fun hbase => if_neg fun h => hbase h.1⟩

theorem mailboxCommandsAnswer : MailboxCommandsAnswer := by
  intro p s h hboot
  refine ⟨?identify, ?logs, ?cel, ?otherLog, ?getTime, fun v => ?setTime, fun op hop => ?other⟩
  case getTime => exact completes_mailbox _ rfl h hboot ⟨timestamp (touch s.m) p, rfl, timestamp_cases (touch s.m) p⟩
  case other =>
    refine completes_mailbox _ rfl h hboot (if_neg ?_)
    simpa using hop
  all_goals exact completes_mailbox _ rfl h hboot rfl

/-- Settles O35: in Run a request that reaches a port's function meets nothing before its own rule. -/
theorem configurationAndMailboxRequestsAnswer : Obligations.ConfigurationAndMailboxRequestsAnswer :=
  ⟨configurationRequestsAreAnswered, mailboxCommandsAnswer⟩

end Sys2Proof.Machine
end

