-- ==== Sys2Proof/Proofs/PortResets.lean ====
section
/-! PROOFS. Resets of a port (O36): what fetching changes where a port's rings stand still, and what each reset leaves of its port, of the
other port and of the module behind them. -/
namespace Sys2Proof.Machine

open Sys2Proof.Stmt

/-! ### One port and the other -/

theorem port_ne_other (p : Port) : p ≠ p.other := by cases p <;> decide

theorem onPort_onPort (p : Port) (f g : PortSt → PortSt) (m : Mod) : onPort p g (onPort p f m) = onPort p (fun q => g (f q)) m := by
  simp [onPort]

theorem onPort_id (p : Port) (m : Mod) : onPort p id m = m := by simp [onPort]

theorem ports_onPort_other (p : Port) (f : PortSt → PortSt) (m : Mod) : (onPort p f m).ports.get p.other = m.ports.get p.other :=
  Two_get_set_ne _ _ _ _ (port_ne_other p)

/-! ### Fetching beside a port whose rings stand still (R331, R334) -/

/-- No ring of the port runs. -/
def stopped (p : Port) (m : Mod) : Prop := ∀ x ∈ (m.rings.get p).rings, x.2.state ≠ 1

/-- What `x` has of port `p` it has from `m`, and of the other port all but its D2H credit and the requests that wait for it. -/
def fetchesBeside (p : Port) (m x : Mod) : Prop :=
  x.ports.get p = m.ports.get p ∧ x.rings.get p = m.rings.get p ∧
  ∃ credit wait, x.ports.get p.other = { m.ports.get p.other with d2hCredit := credit, d2hWait := wait }

theorem fetchesBeside_refl (p : Port) (m : Mod) : fetchesBeside p m m := ⟨rfl, rfl, _, _, rfl⟩

theorem fetchesBeside_trans (p : Port) (a b c : Mod) (h : fetchesBeside p a b) (k : fetchesBeside p b c) : fetchesBeside p a c := by
  obtain ⟨hport, hrings, credit, wait, hother⟩ := h
  obtain ⟨kport, krings, credit', wait', kother⟩ := k
  exact ⟨kport.trans hport, krings.trans hrings, credit', wait', by rw [kother, hother]⟩

/-- A step that leaves the ports and the rings of `p` alone. -/
theorem fetchesBeside_of_eq {p : Port} {m x : Mod} (hports : x.ports = m.ports) (hrings : x.rings.get p = m.rings.get p) :
    fetchesBeside p m x := ⟨by rw [hports], hrings, _, _, by rw [hports]⟩

theorem onRings_fetchesBeside (p : Port) (f : RingsSt → RingsSt) (m : Mod) : fetchesBeside p m (onRings p.other f m) :=
  fetchesBeside_of_eq rfl (Two_get_set_ne _ _ _ _ (port_ne_other p).symm)

theorem onRing_fetchesBeside (p : Port) (r : Nat) (f : Ring → Ring) (m : Mod) : fetchesBeside p m (onRing p.other r f m) :=
  onRings_fetchesBeside ..

theorem d2hSend_fetchesBeside (p : Port) (kind addr : Nat) (m : Mod) : fetchesBeside p m (d2hSend p.other kind addr m) := by
  have hport : ∀ (wait : List (Nat × Nat)) (credit : Nat),
      fetchesBeside p m (onPort p.other (fun q => { q with d2hWait := wait, d2hCredit := credit }) m) := fun wait credit =>
    ⟨Two_get_set_ne _ _ _ _ (port_ne_other p).symm, rfl, credit, wait, Two_get_set ..⟩
  unfold d2hSend
  split
  · exact fetchesBeside_refl p m
  · split
    · exact hport _ (m.ports.get p.other).d2hCredit
    · exact hport (m.ports.get p.other).d2hWait _

theorem issueRead_fetchesBeside (p : Port) (r : Nat) (c : Word32) (m : Mod) : fetchesBeside p m (issueRead p.other r c m) := by
  have hcount : ∀ g e o x, fetchesBeside p x (perfCount g e o x) := fun g e o x =>
    fetchesBeside_of_eq (perfCount_ports x g e o) (by rw [perfCount_rings x g e o])
  have htouch : ∀ x, fetchesBeside p x (touch x) := fun x => fetchesBeside_of_eq (touch_ports x) (by rw [touch_rings x])
  exact fetchesBeside_trans p _ _ _ (onRings_fetchesBeside p _ m) (fetchesBeside_trans p _ _ _ (onRing_fetchesBeside p _ _ _)
    (fetchesBeside_trans p _ _ _ (hcount ..) (fetchesBeside_trans p _ _ _ (d2hSend_fetchesBeside ..) (htouch _))))

theorem fetchLoop_fetchesBeside (p : Port) (k : Nat) (m : Mod) : fetchesBeside p m (fetchLoop k p.other m) := by
  induction k generalizing m with
  | zero => exact fetchesBeside_refl p m
  | succ k ih =>
    have hturn : ∀ (b : Bool) x, fetchesBeside p x (if b then { x with proc := { x.proc with lastTurn := p.other } } else x) := fun b x => by
      cases b <;> exact fetchesBeside_refl p x
    have hpair : ∀ (b : Bool) r f x, fetchesBeside p x (if b then onRing p.other r f x else x) := fun b r f x => by
      cases b
      · exact fetchesBeside_refl p x
      · exact onRing_fetchesBeside ..
    unfold fetchLoop
    split
    · exact fetchesBeside_refl p m
    · split
      · exact fetchesBeside_refl p m
      · exact fetchesBeside_trans p _ _ _ (hpair ..) (fetchesBeside_trans p _ _ _ (hturn ..)
          (fetchesBeside_trans p _ _ _ (issueRead_fetchesBeside ..) (ih _)))

theorem fetchable_of_stopped {p : Port} {m : Mod} (h : stopped p m) : fetchable m p = [] := by
  refine List.filter_eq_nil_iff.2 fun x hx hwants => ?_
  have hidle : (x.2.state == 1) = false := by simpa using h x hx
  simp [wantsFetch, hidle] at hwants

/-- No line of a port whose rings stand still is fetched. -/
theorem fetchLoop_of_stopped {p : Port} {m : Mod} (h : stopped p m) (k : Nat) : fetchLoop k p m = m := by
  cases k with
  | zero => rfl
  | succ k => simp [fetchLoop, chooseFetch, fetchable_of_stopped h]

theorem fetchLoop_of_stopped_beside {p : Port} {m : Mod} (h : stopped p m) (k : Nat) (q : Port) : fetchesBeside p m (fetchLoop k q m) := by
  obtain rfl | rfl : q = p ∨ q = p.other := by cases p <;> cases q <;> decide
  · rw [fetchLoop_of_stopped h]; exact fetchesBeside_refl q m
  · exact fetchLoop_fetchesBeside ..

theorem stopped_of_fetchesBeside {p : Port} {m x : Mod} (h : stopped p m) (hx : fetchesBeside p m x) : stopped p x := by
  intro y hy
  rw [hx.2.1] at hy
  exact h y hy

theorem fetchPump_beside {p : Port} {m : Mod} (h : stopped p m) : fetchesBeside p m (fetchPump m) := by
  have hone : ∀ q x, stopped p x → fetchesBeside p x (fetchLoop (x.ports.get q).d2hCredit q x) := fun q x hx =>
    fetchLoop_of_stopped_beside hx _ q
  refine foldl_rel (fun a b => stopped p a → fetchesBeside p a b) (fun b _ => fetchesBeside_refl p b)
    (fun a b c hab hbc ha => fetchesBeside_trans p a b c (hab ha) (hbc (stopped_of_fetchesBeside ha (hab ha)))) _ (fun x _ hx => ?_) _ m h
  split
  · exact fetchesBeside_refl p x
  · exact fetchesBeside_trans p _ _ _ (hone .a x hx) (hone .b _ (stopped_of_fetchesBeside hx (hone .a x hx)))

/-! ### What a reset of a port leaves (R176, R177, R250) -/

/-- A ring that stands still and is disabled. -/
def ringStopped (g : Ring) : Ring :=
  { g with cfg := g.cfg &&& ~~~1#64, state := 0, full := false, wait := [], check := 0, reservedPos := 0, modSince := none }

theorem cfgEnable_ringStopped (g : Ring) : cfgEnable (ringStopped g).cfg = false := by
  simp [cfgEnable, ringStopped]

/-- The rings of a port after its reset; with `answers` its open reads may still be answered. -/
def ringsStopped (answers : Bool) (s : RingsSt) : RingsSt :=
  { s with rings := s.rings.map (fun x => (x.1, ringStopped x.2)), reads := if answers then s.reads.map (fun x => (512, x.2)) else []
           writes := [], held := [], jobs := [] }

/-- A port without requests, doorbell lines and D2H exchanges, whose presence bits are swept. -/
def portEmptied (q : PortSt) : PortSt :=
  { q with d2hWait := [], dbHeld := [], dbOpen := [], tracker := [], rxBuf := [], answerWr := 0, conflicts := [], overHeld := []
           sweeping := true }

/-- Nothing of a port waits in the module: no BISnp toward it, no job, no enabled grant ring. -/
structure NothingOf (p : Port) (m : Mod) : Prop where
  snps : ∀ t : Tile, ∀ x ∈ (m.filters[t] : FilterSt).snps, x.port ≠ p
  jobs : ∀ j ∈ m.jobs, j.port ≠ p
  grants : ∀ x ∈ (m.rings.get p).rings, cfgEnable x.2.cfg = true → cfgType x.2.cfg ≠ 1

/-- A port's requests carry on without an answer, its rings stand still, and nothing waits there any more. -/
def resetPort (p : Port) (answers : Bool) (m : Mod) : Mod := voidAll p (onPort p portEmptied (onRings p (ringsStopped answers) m))

section
variable {p : Port} {m : Mod} (h : NothingOf p m)
include h

theorem NothingOf.ringsReset_eq (answers : Bool) : ringsReset p answers m =
    onPort p (fun q => { q with d2hWait := [], dbHeld := [], dbOpen := [] }) (onRings p (ringsStopped answers) m) := by
  have hgrants : (m.rings.get p).rings.filter (fun x => cfgEnable x.2.cfg && cfgType x.2.cfg == 1) = [] :=
    List.filter_eq_nil_iff.2 fun x hx => by simpa using h.grants x hx
  have hjobs : m.jobs.filter (fun j => j.port == p) = [] := List.filter_eq_nil_iff.2 fun j hj => by simpa using h.jobs j hj
  have hothers : m.jobs.filter (fun j => j.port != p) = m.jobs := List.filter_eq_self.2 fun j hj => by simpa using h.jobs j hj
  simp only [ringsReset, hgrants, hjobs, hothers, List.map_nil, List.foldl_nil]
  rfl

theorem NothingOf.answerGone_eq : answerGone p m = m := by
  have hnone : ∀ t : Tile, (m.filters[t] : FilterSt).snps.filter (fun s => s.port == p) = [] := fun t =>
    List.filter_eq_nil_iff.2 fun x hx => by simpa using h.snps t x hx
  exact List.foldl_fixed' (fun t => by simp only [hnone, List.isEmpty_nil, if_true]) _

theorem NothingOf.of_voidAll : NothingOf p (voidAll p m) where
  snps t x hx := h.snps t x (by simpa [voidAll] using hx)
  jobs := h.jobs
  grants := h.grants

/-- Where nothing of the port waits elsewhere, that is all of its reset but what the other port goes on to fetch. -/
theorem NothingOf.portReset_eq (answers : Bool) : portReset p answers m = fetchPump (resetPort p answers m) := by
  have hstill : NothingOf p (onPort p portEmptied (onRings p (ringsStopped answers) m)) := by
    refine ⟨h.snps, h.jobs, fun x hx hen => ?_⟩
    simp only [onPort_rings, onRings_rings, Two_get_set, ringsStopped, List.mem_map] at hx
    obtain ⟨y, -, rfl⟩ := hx
    exact absurd hen (by rw [cfgEnable_ringStopped]; decide)
  simp only [portReset, h.ringsReset_eq, onPort_onPort]
  exact congrArg fetchPump hstill.of_voidAll.answerGone_eq

end

/-- What a reset of port `p` makes of `m`, where `f` says what it makes of the port besides. -/
structure ResetLeaves (p : Port) (answers : Bool) (f : PortSt → PortSt) (m x : Mod) : Prop where
  port : x.ports.get p = portEmptied (f (m.ports.get p))
  rings : x.rings.get p = ringsStopped answers (m.rings.get p)
  other : ∃ credit wait, x.ports.get p.other = { m.ports.get p.other with d2hCredit := credit, d2hWait := wait }
  mem : x.mem = m.mem
  lines : x.slices.map (·.lines) = m.slices.map (·.lines)

theorem voidAll_lines (p : Port) (m : Mod) : (voidAll p m).slices.map (·.lines) = m.slices.map (·.lines) := by
  simp only [voidAll, Vector.map_map]
  rfl

theorem fetchPump_mem_lines (m : Mod) : (fetchPump m).mem = m.mem ∧ (fetchPump m).slices.map (·.lines) = m.slices.map (·.lines) := by
  obtain ⟨_, _, _, _, _, _, _, _, flushed, hx⟩ := fetchPump_ringsOnly m
  rw [hx]
  refine ⟨rfl, ?_⟩
  cases flushed
  · rfl
  · simp only [if_true, Vector.map_map]; rfl

theorem NothingOf.portReset_leaves {p : Port} {m : Mod} (h : NothingOf p m) (answers : Bool) (f : PortSt → PortSt) :
    ResetLeaves p answers f m (portReset p answers (onPort p f m)) := by
  have hsame : NothingOf p (onPort p f m) := ⟨h.snps, h.jobs, h.grants⟩
  have hport : (resetPort p answers (onPort p f m)).ports.get p = portEmptied (f (m.ports.get p)) := by simp [resetPort, voidAll, onPort]
  have hother : (resetPort p answers (onPort p f m)).ports.get p.other = m.ports.get p.other :=
    (ports_onPort_other p portEmptied _).trans (ports_onPort_other p f m)
  have hrings : (resetPort p answers (onPort p f m)).rings.get p = ringsStopped answers (m.rings.get p) := Two_get_set ..
  have hstopped : stopped p (resetPort p answers (onPort p f m)) := fun x hx => by
    rw [hrings] at hx
    obtain ⟨y, -, rfl⟩ := List.mem_map.1 hx
    exact Nat.zero_ne_one
  obtain ⟨hfetched, hkept, credit, wait, hbeside⟩ := fetchPump_beside hstopped
  obtain ⟨hmem, hlines⟩ := fetchPump_mem_lines (resetPort p answers (onPort p f m))
  rw [hsame.portReset_eq]
  exact ⟨hfetched.trans hport, hkept.trans hrings, ⟨credit, wait, by rw [hbeside, hother]⟩, hmem, hlines.trans (voidAll_lines ..)⟩

/-- What a reset leaves of its port and of the rest, when it changes the error registers in the bits `err` alone. -/
theorem ResetLeaves.portCleared {p : Port} {answers : Bool} {f : PortSt → PortSt} {m x : Mod} {err : BitVec 8}
    (h : ResetLeaves p answers f m x) (herr : (f (m.ports.get p)).err = (m.ports.get p).err ||| err)
    (hviol : (f (m.ports.get p)).viol = (m.ports.get p).viol) : portCleared p err m x := by
  obtain ⟨credit, wait, hother⟩ := h.other
  simp only [Stmt.portCleared, h.port, h.rings, h.mem, h.lines, hother, portEmptied, ringsStopped, herr, hviol, and_self, and_true, true_and]
  intro x hx
  obtain ⟨y, -, rfl⟩ := List.mem_map.1 hx
  exact ⟨rfl, cfgEnable_ringStopped y.2⟩

/-! ### The resets (R176, R183, R185) -/

/-- What a conventional reset makes of the link and of the configuration space (R176). -/
def conventional (q : PortSt) : PortSt :=
  { q with linkUp := false, rate := .gt16, width := .x16, active := 0, lopt := false, degraded := false, viralRx := false, snpCredit := 0
           d2hCredit := 0, l0pReq := none, hdmCommitted := false, hdmError := false, hdmLock := false, hdmBase := 0, memEnable := false
           cacheEnable := false, d3hot := false, tsBase := 0, tsAt := 0, msixOn := [], msixPend := [], msixTab := [] }

theorem laneTestEnds_of_none {p : Port} {m : Mod} (h : (m.ports.get p).laneTest = none) : laneTestEnds p m = m := by
  simp only [laneTestEnds, h]

section
variable {p : Port} {s : State} (h : idlePort p s)
include h

theorem nothingOf_of_idlePort : NothingOf p s.m := by
  obtain ⟨hsnps, hjobs, -, hgrants⟩ := h
  exact ⟨hsnps, hjobs, hgrants⟩

theorem laneTest_of_idlePort : (s.m.ports.get p).laneTest = none := by
  obtain ⟨-, -, hlane, -⟩ := h
  exact hlane

/-- A conventional reset of a port that has changed by `f` before. -/
theorem conventionalReset_leaves (f : PortSt → PortSt) (hlane : (f (s.m.ports.get p)).laneTest = none) :
    ResetLeaves p false (fun q => conventional (f q)) s.m (conventionalReset p (onPort p f s.m)) := by
  have hnone : ((onPort p f s.m).ports.get p).laneTest = none := by simpa [onPort] using hlane
  have hreset := (nothingOf_of_idlePort h).portReset_leaves false (fun q => conventional (f q))
  simp only [conventionalReset, laneTestEnds_of_none hnone, onPort_onPort]
  exact hreset

end

/-- A reset after which the port changes in fields that emptying it leaves alone. -/
theorem ResetLeaves.andThen {p : Port} {answers : Bool} {f : PortSt → PortSt} {m x : Mod} (h : ResetLeaves p answers f m x)
    (g : PortSt → PortSt) (hg : ∀ q, g (portEmptied q) = portEmptied (g q)) :
    ResetLeaves p answers (fun q => g (f q)) m (onPort p g x) where
  port := by rw [← hg, ← h.port]; exact Two_get_set ..
  rings := h.rings
  other := by rw [ports_onPort_other]; exact h.other
  mem := h.mem
  lines := h.lines

/-- A conventional reset clears link and configuration, whatever has changed at the port before. -/
theorem ResetLeaves.linkCleared {p : Port} {answers : Bool} {f : PortSt → PortSt} {m x : Mod}
    (h : ResetLeaves p answers (fun q => conventional (f q)) m x) : linkCleared p x := by
  simp only [Stmt.linkCleared, h.port, portEmptied, conventional, and_self]

/-! ### The presence sweep (R227) -/

/-- An entry that names port `p` is stored again without it. -/
def sweepEnt (p : Port) (f : FilterSt) (e : FEntry) : FilterSt := if entPres e p then putEnt (entSetPres e p false) f else f

/-- Storing an entry without the port leaves no entry of its place that names the port. -/
theorem mem_entries_sweepEnt {p : Port} {f : FilterSt} {e y : FEntry} (hy : y ∈ (sweepEnt p f e).entries) (hpres : entPres y p = true) :
    y ∈ f.entries ∧ y ≠ e := by
  unfold sweepEnt at hy
  split at hy
  next he =>
    have hcleared : y ≠ entSetPres e p false := fun heq => by rw [heq, entPres_entSetPres] at hpres; cases hpres
    have hrest : y ∈ f.entries.filter (fun x => !(x.set == (entSetPres e p false).set && x.way == (entSetPres e p false).way)) := by
      simp only [putEnt] at hy
      split at hy
      · exact (List.mem_cons.1 hy).resolve_left hcleared
      · exact hy
    obtain ⟨hmem, hplace⟩ := List.mem_filter.1 hrest
    exact ⟨hmem, fun heq => by simp [heq] at hplace⟩
  next he => exact ⟨hy, fun heq => he (heq ▸ hpres)⟩

/-- After the sweep of a list that holds every entry which names the port, none does. -/
theorem entPres_of_swept {p : Port} (l : List FEntry) (f : FilterSt) (h : ∀ e ∈ f.entries, entPres e p = true → e ∈ l) :
    ∀ e ∈ (l.foldl (sweepEnt p) f).entries, entPres e p = false := by
  induction l generalizing f with
  | nil => exact fun e he => Bool.eq_false_iff.2 fun hpres => List.not_mem_nil (h e he hpres)
  | cons x l ih =>
    refine ih _ fun e he hpres => ?_
    obtain ⟨hmem, hne⟩ := mem_entries_sweepEnt he hpres
    exact (List.mem_cons.1 (h e hmem hpres)).resolve_left hne

theorem finishSweep_of_sweeping {p : Port} {m : Mod} (h : (m.ports.get p).sweeping = true) : finishSweep p m =
    onPort p (fun q => { q with sweeping := false }) { m with filters := m.filters.map (fun f => f.entries.foldl (sweepEnt p) f) } := by
  simp only [finishSweep, h, Bool.not_true, Bool.false_eq_true, if_false]
  rfl

/-- What the loss of the link leaves in the error registers (R183). -/
def surprised (q : PortSt) : PortSt :=
  { q with err := q.err ||| 8#8, aer := .surpriseDown :: q.aer.filter (· != .surpriseDown) }

theorem setAer_of_err (p : Port) (m : Mod) :
    setAer p .surpriseDown (onPort p (fun q => { q with err := q.err ||| 8#8 }) m) = onPort p surprised m := onPort_onPort ..

theorem linkUp_of_portTalks {m : Mod} {p : Port} (h : portTalks m p = true) : (m.ports.get p).linkUp = true := by
  simp only [portTalks, portDown, Bool.and_eq_true, Bool.not_eq_true', Bool.or_eq_false_iff, Bool.not_eq_false'] at h
  obtain ⟨⟨-, hup⟩, -⟩ := h
  exact hup

/-- PERST_N's end is a wake cause of Deep sleep (R493). -/
theorem wake_of_deepSleep {m : Mod} (hcrit : m.therm.critical = false) (hdeep : m.power.state = 3) :
    wake 7 m = { m with power := { m.power with state := 5, last := 3, cause := 7, phase := 1 } } := by
  simp [wake, hcrit, hdeep]

/-- PERST_N's end reaches a module whose power is good (R562). -/
theorem exec_perstDeassert (p : Port) {s : State} (h : s.fe.st = .powergood) :
    exec (.perstDeassert p) s = .next (onMod (fun m => onPort p (fun q => { q with inReset := false }) (wake 7 m)) s) :=
  congrArg Host.Outcome.next (if_pos h)

/-! ### The statement -/

theorem portResetsClearThePort : PortResetsClearThePort := by
  refine ⟨fun p s hp h => ?fundamental, fun p s hp h hout => ?hot, fun p s hp h hup => ?linkDown, fun p s hp h htalks => ?cxl,
    fun p s hp hgood hrun => ?deassert, fun p s hp hgood hdeep hcrit => ?wakes, fun p s hp hsweep => ?sweep, fun p s hsweep => ?swept⟩
  case fundamental =>
    have hreset := (conventionalReset_leaves h id (laneTest_of_idlePort h)).andThen (fun q => { q with inReset := true, aer := [], ras := [] }) fun _ => rfl
    rw [onPort_id] at hreset
    refine completes_of_onMod _ rfl hp ⟨hreset.portCleared (by simp [conventional]) rfl, ?_, ?_⟩ <;>
      simp only [linkCleared, hreset.port, portEmptied, conventional, and_self]
  case hot =>
    have hreset := conventionalReset_leaves h id (laneTest_of_idlePort h)
    rw [onPort_id] at hreset
    refine completes_of_onMod _ rfl hp ?_
    simp only [hout, Bool.false_eq_true, if_false]
    exact ⟨hreset.portCleared (by simp [conventional]) rfl, hreset.linkCleared, by rw [hreset.port]; exact hout,
      by rw [hreset.port]; rfl⟩
  case linkDown =>
    have hreset := conventionalReset_leaves h surprised (laneTest_of_idlePort h)
    refine completes_of_onMod _ rfl hp ?_
    simp only [hup, Bool.not_true, Bool.false_eq_true, if_false, setAer_of_err]
    exact ⟨_, rfl, hreset.portCleared rfl rfl, hreset.linkCleared, by rw [hreset.port]; simp [portEmptied, conventional, surprised]⟩
  case cxl =>
    have hreset := (nothingOf_of_idlePort h).portReset_leaves true (fun q => { q with err := q.err ||| 128#8 })
    refine completes_of_onMod _ rfl hp ?_
    simp only [htalks, Bool.not_true, Bool.false_eq_true, if_false]
    exact ⟨hreset.portCleared rfl rfl, by rw [hreset.port]; exact linkUp_of_portTalks htalks, by rw [hreset.port]; rfl,
      by rw [hreset.port]; rfl⟩
  case deassert =>
    refine completes_of_onMod _ (exec_perstDeassert p hgood) hp ?_
    simp only [wake_of_run 7 s.m hrun]
    rfl
  case wakes =>
    refine completes_of_onMod _ (exec_perstDeassert p hgood) hp ?_
    simp only [wake_of_deepSleep hcrit hdeep]
    rfl
  case sweep =>
    refine completes_of_onMod _ rfl hp ?_
    rw [finishSweep_of_sweeping hsweep]
    refine ⟨fun t e he => ?_, rfl⟩
    simp only [onPort_filters, Fin.getElem_fin, Vector.getElem_map] at he
    exact entPres_of_swept _ _ (fun _ hmem _ => hmem) e he
  case swept => exact exec_of_fixed (finishSweep p) rfl (by simp [finishSweep, hsweep])

end Sys2Proof.Machine
end

