-- ==== Sys2Proof/Proofs/Links.lean ====
section
/-! PROOFS. Links and the lane test (O36): what training, width changes and viral leave of a port, and the rounds of a lane test. -/
namespace Sys2Proof.Machine

open Sys2Proof.Stmt

/-! ### Links (R155 to R157, R174, R175, R183) -/

theorem linksTrainAndDegrade : LinksTrainAndDegrade := by
  refine ⟨fun p rate width lopt s hp hreset hsweep hhalf hviral => ?up, fun p w s hp htalks hlane => ?change,
    fun p w s hp hup => ?fail, fun p s hp htalks => ?viral⟩
  case up =>
    have hswept : finishSweep p s.m = s.m := by simp [finishSweep, hsweep]
    refine completes_of_onMod _ rfl hp ((if_neg (by simp [hreset])).trans ?_)
    conv_lhs => simp only [hswept, hhalf]
    refine (if_neg ?quiet).trans ?rest
    case quiet =>
      rw [send_viral]
      split <;> simp [degradedEvent, hviral]
    case rest =>
      have hbad : (rate == .low || width != .x16) = !decide (rate ≠ .low ∧ width = .x16) := by cases rate <;> cases width <;> rfl
      refine congrArg (send (.credits p 128 64 64)) ?_
      by_cases hfull : rate ≠ .low ∧ width = .x16
      · rw [if_pos hfull, if_neg (by simp [hfull])]
        rfl
      · rw [if_neg hfull, if_pos (by simp only [hbad, hfull]; rfl), onPort_onPort]
        rfl
  case change =>
    refine completes_of_onMod _ rfl hp ((if_neg (by simp [htalks])).trans ?_)
    rw [laneTestEnds_of_none hlane]
    rfl
  case fail => exact completes_of_onMod _ rfl hp (if_neg (by simp [hup]))
  case viral => exact completes_of_onMod _ rfl hp (if_neg (by simp [htalks]))

/-! ### The lane test (R523) -/

theorem portLanesAreTested : PortLanesAreTested := by
  refine ⟨fun h n half ms s ha hn hhalf hlow hhigh => ?start, fun p fails t s hp htest => ?round, fun p t s hp htest => ?finish⟩
  case start =>
    refine completes_of_onMod _ rfl ha.1 ?_
    rw [admin_of_accepted _ ha (by simp [hn, hhalf, hlow, hhigh])]
    have hports : (begun h 0x0006 s.m).ports = s.m.ports := rfl
    simp only [hports]
    split
    · rfl
    · split
      next hbusy => exact if_pos (by simpa [or_assoc] using hbusy)
      next hfree => exact if_neg (by simpa [or_assoc] using hfree)
  case round =>
    refine completes_of_onMod _ rfl hp ?_
    simp only [htest]
    rfl
  case finish =>
    refine completes_of_onMod _ rfl hp ?_
    rw [htest]
    dsimp only
    split
    · rfl
    · simp only [onPort, send, Two_get_set, Two_set_set]

/-- Settles O36: the reset of an idle port finds nothing of it elsewhere in the module, and only the other port goes on fetching. -/
theorem linksTrainResetAndTest : Obligations.LinksTrainResetAndTest :=
  ⟨linksTrainAndDegrade, portResetsClearThePort, portLanesAreTested⟩

end Sys2Proof.Machine
end

