-- ==== Sys2Proof/Proofs/SliceFrames.lean ====
section
/-! PROOFS. What the commands on ways, locks, sweeps and flushes share (O37, O38): one slice after reports and completions, after the
check for pass-through and after a flush that selects no line, and masks of ways. -/
namespace Sys2Proof.Machine

open Sys2Proof.Stmt

/-! ### An admin command with ranges -/

/-- An accepted admin command whose parameters are in range completes with what its own work leaves. -/
theorem completes_of_inRange {c : Instr} {h : AdminHdr} {op : BitVec 16} {ok : Bool} {s : State} {P : Mod → Prop}
    (own : AdminTag → Mod → Mod) (hc : exec c s = .next (onMod (admin h op ok own) s)) (ha : accepted h op s) (hok : ok = true)
    (hP : P (own (tagOf h op) (begun h op s.m))) : completes c s P :=
  completes_of_onMod _ hc ha.1 (by rwa [admin_of_accepted own ha hok])

@[simp] theorem begun_slices (h : AdminHdr) (op : BitVec 16) (m : Mod) : (begun h op m).slices = m.slices := rfl

/-! ### One slice -/

theorem slices_onSlice_of_ne {t u : Tile} (h : u ≠ t) (f : Slice → Slice) (m : Mod) : ((onSlice t f m).slices[u] : Slice) = m.slices[u] :=
  Vector.getElem_set_ne t.isLt u.isLt fun hval => h (Fin.ext hval.symm)

theorem onSlice_onSlice (t : Tile) (f g : Slice → Slice) (m : Mod) : onSlice t g (onSlice t f m) = onSlice t (fun s => g (f s)) m := by
  simp [onSlice]

/-- A change that leaves the slice as it is leaves the module as it is. -/
theorem onSlice_of_fixed {t : Tile} {f : Slice → Slice} {m : Mod} (h : f m.slices[t] = m.slices[t]) : onSlice t f m = m := by
  have hset : m.slices.set t (f m.slices[t]) = m.slices := by rw [h]; exact Vector.set_getElem_self t.isLt
  rw [onSlice, hset]

theorem onSlice_congr {t : Tile} {f g : Slice → Slice} {m : Mod} (h : f m.slices[t] = g m.slices[t]) : onSlice t f m = onSlice t g m := by
  simp only [onSlice, h]

/-! ### Slices beside reports and completions -/

/-- A slice with its flush under way or not. -/
def withFlush (f : Bool) (s : Slice) : Slice := { s with flush := f }

/-- Reports and completions leave of a slice everything but its flush, which an abandoned entry ends. -/
theorem ringsOnly_slice {m m' : Mod} (h : ringsOnly m m') (t : Tile) : ∃ f, (m'.slices[t] : Slice) = withFlush f m.slices[t] := by
  obtain ⟨_, _, _, _, _, _, _, _, ended, rfl⟩ := h
  cases ended with
  | false => exact ⟨(m.slices[t] : Slice).flush, rfl⟩
  | true => exact ⟨false, Vector.getElem_map ..⟩

theorem done_slice (c : AdminTag) (code : Nat) (t : Tile) (m : Mod) :
    ∃ f, ((done c code m).slices[t] : Slice) = withFlush f m.slices[t] := ringsOnly_slice (done_ringsOnly c code m) t

theorem foldl_done_ringsOnly (code : Nat) (l : List AdminTag) (m : Mod) : ringsOnly m (l.foldl (fun m c => done c code m) m) :=
  foldl_rel ringsOnly ringsOnly_refl ringsOnly_trans _ (fun m c => done_ringsOnly c code m) l m

/-! ### The check for pass-through (R215) -/

/-- The check sets the slice's pass-through, and reports. -/
theorem passCheck_onSlice (t : Tile) (m : Mod) : ∃ p, reports (onSlice t (fun s => { s with passthru := p }) m) (passCheck t m) := by
  unfold passCheck
  dsimp only
  split
  · exact ⟨_, event_reports ..⟩
  · exact ⟨_, reports_refl _⟩

/-- A slice with its pass-through set, and its flush as an event may leave it. -/
def passed (p f : Bool) (s : Slice) : Slice := { s with passthru := p, flush := f }

theorem passCheck_slice (t : Tile) (m : Mod) : ∃ p f, ((passCheck t m).slices[t] : Slice) = passed p f m.slices[t] := by
  obtain ⟨p, h⟩ := passCheck_onSlice t m
  obtain ⟨f, hslice⟩ := ringsOnly_slice (reports_ringsOnly h) t
  exact ⟨p, f, by rw [hslice, slices_onSlice_self]; rfl⟩

theorem passCheck_slice_of_ne {t u : Tile} (h : u ≠ t) (m : Mod) : ∃ f, ((passCheck t m).slices[u] : Slice) = withFlush f m.slices[u] := by
  obtain ⟨p, hreports⟩ := passCheck_onSlice t m
  obtain ⟨f, hslice⟩ := ringsOnly_slice (reports_ringsOnly hreports) u
  exact ⟨f, by rw [hslice, slices_onSlice_of_ne h]⟩

section
variable (t : Tile) (m : Mod)

@[simp] theorem passCheck_mem : (passCheck t m).mem = m.mem := by obtain ⟨_, _, _, _, _, _, _, h⟩ := passCheck_reports t m; rw [h]
@[simp] theorem passCheck_proc : (passCheck t m).proc = m.proc := by obtain ⟨_, _, _, _, _, _, _, h⟩ := passCheck_reports t m; rw [h]
@[simp] theorem passCheck_prot : (passCheck t m).prot = m.prot := by obtain ⟨_, _, _, _, _, _, _, h⟩ := passCheck_reports t m; rw [h]
@[simp] theorem passCheck_rings : (passCheck t m).rings = m.rings := by obtain ⟨_, _, _, _, _, _, _, h⟩ := passCheck_reports t m; rw [h]
@[simp] theorem passCheck_ways : (passCheck t m).flash.ways = m.flash.ways := by
  obtain ⟨_, _, _, _, _, _, _, h⟩ := passCheck_reports t m; rw [h]

end

/-! ### Lines on their way out (R197, R210) -/

theorem foldl_of_fixed {α β : Type} {f : β → α → β} {b : β} (l : List α) (h : ∀ a ∈ l, f b a = b) : l.foldl f b = b := by
  induction l with
  | nil => rfl
  | cons a l ih =>
    rw [List.foldl_cons, h a List.mem_cons_self]
    exact ih fun x hx => h x (List.mem_cons_of_mem a hx)

/-- With no write-back in flight none goes on. -/
theorem retryLines_of_none {t : Tile} {m : Mod} (h : ∀ l ∈ (m.slices[t] : Slice).lines, l.wb = 0) : retryLines t m = m := by
  have hnone : (m.slices[t] : Slice).lines.filter (fun l => l.wb != 0) = [] :=
    List.filter_eq_nil_iff.mpr fun l hl => by simp [h l hl]
  simp only [retryLines, hnone, List.filter_nil, List.foldl_nil]
  exact foldl_of_fixed _ fun _ _ => rfl

/-- A flush that selects no line, with no write-back in flight, changes nothing. -/
theorem flushSel_of_none {t : Tile} {sel : Line → Bool} {m : Mod} (h : ∀ l ∈ (m.slices[t] : Slice).lines, l.wb = 0 ∧ sel l = false) :
    flushSel t sel m = m := by
  have hnone : (m.slices[t] : Slice).lines.filter sel = [] := List.filter_eq_nil_iff.mpr fun l hl => by simp [(h l hl).2]
  simp only [flushSel, hnone, List.foldl_nil]
  exact retryLines_of_none fun l hl => (h l hl).1

/-! ### Masks of ways -/

theorem getLsbD_putBit {n : Nat} (x : BitVec n) (i j : Nat) (b : Bool) (hj : j < n) :
    (putBit x i b).getLsbD j = if j = i then b else x.getLsbD j := by
  rw [putBit, getLsbD_putBits x i (bit b) j hj]
  by_cases h : j = i
  · subst h
    cases b <;> simp [bit]
  · rw [if_neg (by omega), if_neg h]

/-- A bit that is set stays so. -/
theorem putBit_of_set {n : Nat} {x : BitVec n} {i : Nat} (h : x.getLsbD i = true) : putBit x i true = x := by
  apply BitVec.eq_of_getLsbD_eq
  intro j hj
  rw [getLsbD_putBit x i j true hj]
  split
  next hij => rw [hij, h]
  next => rfl

theorem mem_setBits {n : Nat} {x : BitVec n} {i : Nat} : i ∈ setBits x ↔ x.getLsbD i = true := by
  simp only [setBits, List.mem_filter, List.mem_range, and_iff_right_iff_imp]
  exact BitVec.lt_of_getLsbD

end Sys2Proof.Machine
end

