-- ==== Sys2Proof/Proofs/CacheLocks.lean ====
section
/-! PROOFS. Locks of the line cache (O37): the ways that a reservation takes, and what the commands that wait for their ways come to
when nothing stands in the way. -/
namespace Sys2Proof.Machine

open Sys2Proof.Stmt

/-! ### The ways of a reservation (R204) -/

theorem getLsbD_wayMask (l : List Nat) (h : ∀ w ∈ l, w < 16) (w : Nat) : (wayMask l).getLsbD w = l.contains w := by
  induction l using List.reverseRecOn with
  | nil => simp [wayMask]
  | append_singleton l v ih =>
    have hmask : wayMask (l ++ [v]) = putBit (wayMask l) v true := List.foldl_append ..
    have hl : ∀ w ∈ l, w < 16 := fun w hw => h w (List.mem_append_left _ hw)
    rw [hmask]
    by_cases hw : w < 16
    · rw [getLsbD_putBit _ _ _ _ hw, ih hl]
      by_cases hv : w = v <;> simp [hv]
    · have hout : w ∉ l ++ [v] := fun hin => hw (h w hin)
      rw [BitVec.getLsbD_of_ge _ _ (by omega)]
      simpa using hout

theorem generalWays_lt {s : Slice} {w : Nat} (h : w ∈ generalWays s) : w < 16 := by
  have henabled : w ∈ enabledWays s := List.mem_of_mem_take h
  exact List.mem_range.mp (List.mem_filter.mp henabled).1

/-- The lowest-numbered general ways that are not locked. -/
def reservableWays (s : Slice) (n : Nat) : List Nat := ((generalWays s).filter (fun w => !s.locked.getLsbD w)).take n

theorem reservableWays_lt {s : Slice} {n w : Nat} (h : w ∈ reservableWays s n) : w < 16 :=
  generalWays_lt (List.mem_filter.mp (List.mem_of_mem_take h)).1

/-! ### Commands that wait for their ways (R204, R205) -/

theorem lockStep_of_no_command {t : Tile} {m : Mod} (hprep : (m.slices[t] : Slice).prepCmd = none)
    (hlock : (m.slices[t] : Slice).lockCmd = none) : lockStep t m = m := by
  simp only [lockStep, hprep, hlock]

/-- A reservation whose ways hold no line is ready, and its command completes. -/
theorem lockStep_of_emptied {t : Tile} {c : AdminTag} {m : Mod} (hprep : (m.slices[t] : Slice).prepCmd = some c)
    (hlock : (m.slices[t] : Slice).lockCmd = none) (hempty : (m.slices[t] : Slice).lines = []) :
    lockStep t m = done c 0x00 (onSlice t (fun s => { s with prep := true, prepCmd := none }) m) := by
  obtain ⟨f, hslice⟩ := done_slice c 0x00 t (onSlice t (fun s => { s with prep := true, prepCmd := none }) m)
  rw [slices_onSlice_self] at hslice
  simp only [lockStep, hprep, hempty, List.any_nil, Bool.false_eq_true, if_false, hslice, withFlush, hlock]

/-- The reservation becomes a lock. -/
def lockedNow (s : Slice) : Slice := { s with locked := s.locked ||| s.reserved, reserved := 0, prep := false, lockCmd := none }

/-- A lock whose ways hold nothing dirty takes the reservation over, and its command completes. -/
theorem lockStep_of_clean {t : Tile} {c : AdminTag} {m : Mod} (hprep : (m.slices[t] : Slice).prepCmd = none)
    (hlock : (m.slices[t] : Slice).lockCmd = some c)
    (hclean : ∀ l ∈ (m.slices[t] : Slice).lines, (m.slices[t] : Slice).reserved.getLsbD l.way = true → l.sdirty = 0) :
    lockStep t m = done c 0x00 (passCheck t (onSlice t lockedNow m)) := by
  have hnone : (m.slices[t] : Slice).lines.filter (fun l => (m.slices[t] : Slice).reserved.getLsbD l.way && l.sdirty != 0) = [] :=
    List.filter_eq_nil_iff.mpr fun l hl => by simpa using hclean l hl
  simp only [lockStep, hprep, hlock, hnone, List.isEmpty_nil, if_true]
  rfl

/-- A reservation for the command `c`, with its ways. -/
def reservedFor (c : AdminTag) (ways : BitVec 16) (s : Slice) : Slice := { s with reserved := ways, prepCmd := some c }

/-- In a slice that holds no line a reservation is ready at once. -/
theorem reservation_completes {t : Tile} {m : Mod} (c : AdminTag) (ways : BitVec 16) (sel : Line → Bool)
    (hempty : (m.slices[t] : Slice).lines = []) (hlock : (m.slices[t] : Slice).lockCmd = none) :
    ∃ x, lockStep t (flushSel t sel (passCheck t (onSlice t (reservedFor c ways) m))) = done c 0x00 x ∧
      (x.slices[t] : Slice).prep = true ∧ (x.slices[t] : Slice).locked = (m.slices[t] : Slice).locked ∧
      (x.slices[t] : Slice).reserved = ways ∧ x.proc = m.proc ∧ x.mem = m.mem := by
  obtain ⟨p, f, hslice⟩ := passCheck_slice t (onSlice t (reservedFor c ways) m)
  have hproc : (passCheck t (onSlice t (reservedFor c ways) m)).proc = m.proc := passCheck_proc ..
  have hmem : (passCheck t (onSlice t (reservedFor c ways) m)).mem = m.mem := passCheck_mem ..
  rw [slices_onSlice_self] at hslice
  generalize passCheck t (onSlice t (reservedFor c ways) m) = y at hslice hproc hmem ⊢
  have hlines : (y.slices[t] : Slice).lines = [] := by rw [hslice]; exact hempty
  refine ⟨onSlice t (fun s => { s with prep := true, prepCmd := none }) y, ?_, ?_⟩
  · rw [flushSel_of_none fun l hl => by rw [hlines] at hl; cases hl]
    exact lockStep_of_emptied (by rw [hslice]; rfl) (by rw [hslice]; exact hlock) hlines
  · rw [slices_onSlice_self, hslice]
    exact ⟨rfl, rfl, rfl, hproc, hmem⟩

/-- A command to lock the reserved ways waits for them. -/
def lockAsked (c : AdminTag) (s : Slice) : Slice := { s with lockCmd := some c }

/-- A lock of clean ways that starts is over at once; then nothing waits for ways any more. -/
theorem lock_completes {t : Tile} {m : Mod} (c : AdminTag) (hprep : (m.slices[t] : Slice).prepCmd = none)
    (hclean : ∀ l ∈ (m.slices[t] : Slice).lines, (m.slices[t] : Slice).reserved.getLsbD l.way = true → l.sdirty = 0) :
    ∃ x, lockStep t (lockStep t (onSlice t (lockAsked c) m)) = done c 0x00 x ∧ x.mem = m.mem ∧
      ∃ p f, (x.slices[t] : Slice) = passed p f (lockedNow m.slices[t]) := by
  have hself := slices_onSlice_self t (lockAsked c) m
  have hmem : (onSlice t (lockAsked c) m).mem = m.mem := rfl
  generalize onSlice t (lockAsked c) m = y at hself hmem ⊢
  have hfirst : lockStep t y = done c 0x00 (passCheck t (onSlice t lockedNow y)) :=
    lockStep_of_clean (by rw [hself]; exact hprep) (by rw [hself]; rfl) (by rw [hself]; exact hclean)
  obtain ⟨p, f, hpass⟩ := passCheck_slice t (onSlice t lockedNow y)
  rw [slices_onSlice_self, hself] at hpass
  obtain ⟨f', hdone⟩ := done_slice c 0x00 t (passCheck t (onSlice t lockedNow y))
  rw [hpass] at hdone
  refine ⟨_, ?_, (passCheck_mem t (onSlice t lockedNow y)).trans hmem, p, f, hpass⟩
  rw [hfirst]
  exact lockStep_of_no_command (by rw [hdone]; exact hprep) (by rw [hdone]; rfl)

/-- The locks and reservations of a slice end (R207): what they held is the first to go. -/
def unlocked (s : Slice) : Slice :=
  { s with locked := 0, reserved := 0, prep := false, prepCmd := none, lockCmd := none,
           lines := (s.lines.filter (fun l => l.svalid != 0 || l.busy)).map (fun l =>
             if (s.locked ||| s.reserved).getLsbD l.way then { l with rrpv := 3 } else l) }

/-- The commands that wait for ways of a slice. -/
def waitingCmds (s : Slice) : List AdminTag := s.prepCmd.toList ++ s.lockCmd.toList

/-- The slice without its locks and reservations, and the commands that waited for them refused (log entry 108). -/
def unlockRefused (t : Tile) (m : Mod) : Mod := (waitingCmds m.slices[t]).foldl (fun m c => done c 0x32 m) (onSlice t unlocked m)

/-- The end of the locks and reservations of a slice. -/
def unlock (t : Tile) (m : Mod) : Mod := passCheck t (unlockRefused t m)

theorem unlock_slice (t : Tile) (m : Mod) : ∃ p f, ((unlock t m).slices[t] : Slice) = passed p f (unlocked m.slices[t]) := by
  obtain ⟨f, hslice⟩ := ringsOnly_slice (foldl_done_ringsOnly 0x32 (waitingCmds m.slices[t]) (onSlice t unlocked m)) t
  obtain ⟨p, f', hpass⟩ := passCheck_slice t (unlockRefused t m)
  rw [slices_onSlice_self] at hslice
  exact ⟨p, f', (hpass.trans (congrArg (passed p f') hslice :)).trans rfl⟩

theorem unlock_mem (t : Tile) (m : Mod) : (unlock t m).mem = m.mem :=
  calc (unlock t m).mem = (unlockRefused t m).mem := passCheck_mem t (unlockRefused t m)
    _ = (onSlice t unlocked m).mem := ringsOnly_mem (foldl_done_ringsOnly 0x32 (waitingCmds m.slices[t]) (onSlice t unlocked m))
    _ = m.mem := onSlice_mem m t unlocked

theorem exec_cacheUnlock (h : AdminHdr) (tile : Nat) (s : State) : exec (.cacheUnlock h tile) s =
    .next (onMod (admin h 0x0304 (tile ≤ 3) fun c m => done c 0x00 (wakeTile (tileOf tile) (unlock (tileOf tile) m))) s) := rfl

/-! ### The statement -/

section
variable {h : AdminHdr} {tile : Nat} {s : State}

theorem cacheLockPrepare_reserves (n : Nat) (ha : accepted h 0x0301 s) (ht : tile ≤ 3)
    (hempty : (s.m.slices[tileOf tile] : Slice).lines = []) (hlock : (s.m.slices[tileOf tile] : Slice).lockCmd = none) :
    let old : Slice := s.m.slices[tileOf tile]
    let b := begun h 0x0301 s.m
    let total := n + (setBits old.locked).length
    completes (.cacheLockPrepare h tile n) s fun m' =>
      if 12 < total ∨ 14 < total + old.metaWays + (setBits old.disabled).length then m' = done (tagOf h 0x0301) 0x31 b
      else if old.prep ∨ old.prepCmd.isSome then m' = done (tagOf h 0x0301) 0x32 b
      else ∃ x, m' = done (tagOf h 0x0301) 0x00 x ∧ (x.slices[tileOf tile] : Slice).prep = true ∧ (x.slices[tileOf tile] : Slice).locked = old.locked ∧
        (∀ w, (x.slices[tileOf tile] : Slice).reserved.getLsbD w = (reservableWays old n).contains w) ∧
        x.proc = b.proc ∧ x.mem = s.m.mem := by
  intro old b total
  refine completes_of_inRange _ rfl ha (by simpa using ht) ?_
  have hlimits : (decide (12 < total) || decide (14 < total + old.metaWays + (setBits old.disabled).length)) = true ↔
      12 < total ∨ 14 < total + old.metaWays + (setBits old.disabled).length := by simp
  have hprepared : (old.prep || old.prepCmd.isSome) = true ↔ old.prep = true ∨ old.prepCmd.isSome = true := Bool.or_eq_true_iff
  by_cases hlimit : 12 < total ∨ 14 < total + old.metaWays + (setBits old.disabled).length
  · rw [if_pos hlimit]
    exact if_pos (hlimits.mpr hlimit)
  by_cases hbusy : old.prep = true ∨ old.prepCmd.isSome = true
  · rw [if_neg hlimit, if_pos hbusy]
    exact (if_neg (mt hlimits.mp hlimit)).trans (if_pos (hprepared.mpr hbusy))
  · rw [if_neg hlimit, if_neg hbusy]
    obtain ⟨x, hx, hprep, hlocked, hways, hproc, hmem⟩ :=
      reservation_completes (m := b) (tagOf h 0x0301) (wayMask (reservableWays old n))
        (fun l => (wayMask (reservableWays old n)).getLsbD l.way) hempty hlock
    refine ⟨x, (if_neg (mt hlimits.mp hlimit)).trans ((if_neg (mt hprepared.mp hbusy)).trans hx), hprep, hlocked, ?_, hproc, hmem⟩
    rw [hways]
    exact getLsbD_wayMask _ fun w => reservableWays_lt

theorem cacheLock_locks (ha : accepted h 0x0303 s) (ht : tile ≤ 3) (hprep : (s.m.slices[tileOf tile] : Slice).prepCmd = none)
    (hclean : ∀ l ∈ (s.m.slices[tileOf tile] : Slice).lines, (s.m.slices[tileOf tile] : Slice).reserved.getLsbD l.way = true → l.sdirty = 0) :
    let old : Slice := s.m.slices[tileOf tile]
    completes (.cacheLock h tile) s fun m' =>
      if old.prep = false ∨ old.lockCmd.isSome then m' = done (tagOf h 0x0303) 0x32 (begun h 0x0303 s.m)
      else ∃ x, m' = done (tagOf h 0x0303) 0x00 x ∧ (x.slices[tileOf tile] : Slice).locked = old.locked ||| old.reserved ∧
        (x.slices[tileOf tile] : Slice).reserved = 0 ∧ (x.slices[tileOf tile] : Slice).prep = false ∧
        (x.slices[tileOf tile] : Slice).lines = old.lines ∧ x.mem = s.m.mem := by
  intro old
  refine completes_of_inRange _ rfl ha (by simpa using ht) ?_
  have hrefuses : (!old.prep || old.lockCmd.isSome) = true ↔ old.prep = false ∨ old.lockCmd.isSome = true := by
    rw [Bool.or_eq_true, Bool.not_eq_true']
  by_cases hrefused : old.prep = false ∨ old.lockCmd.isSome = true
  · rw [if_pos hrefused]
    exact if_pos (hrefuses.mpr hrefused)
  · rw [if_neg hrefused]
    obtain ⟨x, hx, hmem, p, f, hslice⟩ := lock_completes (m := begun h 0x0303 s.m) (tagOf h 0x0303) hprep hclean
    refine ⟨x, (if_neg (mt hrefuses.mp hrefused)).trans hx, ?_⟩
    rw [hslice]
    exact ⟨rfl, rfl, rfl, rfl, hmem⟩

theorem cacheUnlock_releases (ha : accepted h 0x0304 s) (ht : tile ≤ 3) :
    let old : Slice := s.m.slices[tileOf tile]
    completes (.cacheUnlock h tile) s fun m' => ∃ x, m' = done (tagOf h 0x0304) 0x00 (wakeTile (tileOf tile) x) ∧
      (x.slices[tileOf tile] : Slice).locked = 0 ∧ (x.slices[tileOf tile] : Slice).reserved = 0 ∧
      (x.slices[tileOf tile] : Slice).prep = false ∧ x.mem = s.m.mem ∧
      (x.slices[tileOf tile] : Slice).lines = (old.lines.filter (fun l => l.svalid != 0 || l.busy)).map (fun l =>
        if (old.locked ||| old.reserved).getLsbD l.way then { l with rrpv := 3 } else l) := by
  intro old
  refine completes_of_inRange _ (exec_cacheUnlock h tile s) ha (by simpa using ht) ?_
  obtain ⟨p, f, hslice⟩ := unlock_slice (tileOf tile) (begun h 0x0304 s.m)
  refine ⟨unlock (tileOf tile) (begun h 0x0304 s.m), rfl, ?_⟩
  rw [hslice]
  exact ⟨rfl, rfl, rfl, unlock_mem (tileOf tile) (begun h 0x0304 s.m), rfl⟩

end

/-- Settles O37: with nothing in the way a reservation and a lock are ready within their own command, and what the check for pass-through,
the events and the completions change is none of the fields of a lock. -/
theorem locksReserveHoldAndRelease : Obligations.LocksReserveHoldAndRelease := by
  refine ⟨fun h tile n s => cacheLockPrepare_reserves n, fun h tile s ha ht hprep => cacheLock_locks ha ht hprep,
    fun h tile s => cacheUnlock_releases, fun h tile w n s ha ht => ?preload, fun h tile set way s ha ht hset hway => ?tagRead⟩
  case preload =>
    refine completes_of_inRange _ rfl ha (by simpa using ht) ?_
    by_cases hprep : (s.m.slices[tileOf tile] : Slice).prep = false
    · rw [if_pos hprep]
      exact if_pos (by simpa using hprep)
    by_cases hrange : 2 ^ 53 ≤ w.toNat ∨ (preloadRange w n).all (preloadOk (begun h 0x0302 s.m) h.port (tileOf tile) w) = false
    · rw [if_neg hprep, if_pos hrange]
      exact (if_neg (by simpa using hprep)).trans (if_pos (by simpa using hrange))
    · rw [if_neg hprep, if_neg hrange]
      exact (if_neg (by simpa using hprep)).trans (if_neg (by simpa using hrange))
  case tagRead => exact completes_of_inRange _ rfl ha (by simp [ht, hset, hway]) rfl

end Sys2Proof.Machine
end

