-- ==== Sys2Proof/Proofs/FailingWays.lean ====
section
/-! PROOFS. Failing ways of the line cache (O38, first part): what a way's leaving service changes, the errors counted against a way,
and the end of a drain. -/
namespace Sys2Proof.Machine

open Sys2Proof.Stmt

/-! ### A way leaves service (R213, R214) -/

/-- The slice with a way out of service. -/
def takenOut (way : Nat) (s : Slice) : Slice :=
  { s with
    disabled := putBit s.disabled way true
    locked := putBit s.locked way false
    reserved := putBit s.reserved way false
    metaWays := if (metaWayList s).contains way then s.metaWays - 1 else s.metaWays }

/-- The slice with the drain of a way begun. -/
def draining (way : Nat) (s : Slice) : Slice := { s with drain := putBit s.drain way true }

/-- The module with a way out of service and its drain begun, before the first of its lines leaves. -/
def leftService (t : Tile) (way : Nat) (m : Mod) : Mod := onSlice t (draining way) (passCheck t (onSlice t (takenOut way) m))

theorem startDrain_eq (t : Tile) (way : Nat) (m : Mod) :
    startDrain t way m = flushSel t (fun l => l.way == way) (onSlice t (draining way) m) := rfl

theorem wayOut_eq (t : Tile) (way : Nat) (m : Mod) : wayOut t way m = flushSel t (fun l => l.way == way) (leftService t way m) := rfl

theorem leftService_slice (t : Tile) (way : Nat) (m : Mod) :
    ∃ p f, ((leftService t way m).slices[t] : Slice) = draining way (passed p f (takenOut way m.slices[t])) := by
  obtain ⟨p, f, h⟩ := passCheck_slice t (onSlice t (takenOut way) m)
  rw [slices_onSlice_self] at h
  exact ⟨p, f, by rw [leftService, slices_onSlice_self, h]⟩

section
variable (t : Tile) (way : Nat) (m : Mod)

@[simp] theorem leftService_mem : (leftService t way m).mem = m.mem := passCheck_mem t (onSlice t (takenOut way) m)
@[simp] theorem leftService_rings : (leftService t way m).rings = m.rings := passCheck_rings t (onSlice t (takenOut way) m)
@[simp] theorem leftService_prot : (leftService t way m).prot = m.prot := passCheck_prot t (onSlice t (takenOut way) m)
@[simp] theorem leftService_proc : (leftService t way m).proc = m.proc := passCheck_proc t (onSlice t (takenOut way) m)

end

theorem outOfService_leftService (t : Tile) (way : Nat) (m : Mod) : outOfService m.slices[t] (leftService t way m).slices[t] way := by
  obtain ⟨p, f, h⟩ := leftService_slice t way m
  rw [h]
  exact ⟨rfl, rfl, rfl, rfl, rfl, rfl⟩

/-! ### A way is disabled (R213) -/

section
variable {t : Tile} {way : Nat} {m : Mod}

theorem disableWay_of_disabled (cause : Nat) (h : (m.slices[t] : Slice).disabled.getLsbD way = true) : disableWay t way cause m = m :=
  if_pos h

theorem disableWay_of_enabled (cause : Nat) (h : (m.slices[t] : Slice).disabled.getLsbD way = false) :
    wayDisabled t way cause m (disableWay t way cause m) :=
  ⟨leftService t way m, if_neg (Bool.eq_false_iff.mp h), outOfService_leftService t way m, leftService_mem .., leftService_rings ..,
    leftService_prot ..⟩

end

/-- The slice with an error counted against a way at `now`, and those of more than 1 s ago forgotten. -/
def errCounted (way now : Nat) (s : Slice) : Slice :=
  { s with wayErrs := (way, now) :: s.wayErrs.filter (fun e => now < e.2 + 1000000000) }

/-- Up to eight errors within 1 s are only counted. -/
theorem wayError_of_few {t : Tile} {way : Nat} {m : Mod}
    (h : ((m.slices[t] : Slice).wayErrs.filter (fun e => e.1 == way && m.tb.now < e.2 + 1000000000)).length < 8) :
    wayError t way m = onSlice t (errCounted way m.tb.now) m := by
  refine if_neg fun hnine => ?_
  rw [slices_onSlice_self, List.filter_cons_of_pos (by simp), List.filter_filter] at hnine
  exact absurd h (Nat.not_lt.mpr (Nat.le_of_succ_le_succ hnine))

/-- What a way that is disabled after an error was counted leaves is what it leaves without the count. -/
theorem wayDisabled_of_errCounted {t : Tile} {way cause now w : Nat} {m m' : Mod}
    (h : wayDisabled t way cause (onSlice t (errCounted w now) m) m') : wayDisabled t way cause m m' := by
  obtain ⟨x, hx, hout, hmem, hrings, hprot⟩ := h
  rw [slices_onSlice_self] at hout
  exact ⟨x, hx, hout, hmem, hrings, hprot⟩

/-! ### The end of a drain (R213) -/

theorem getLsbD_foldl_putBit_false {n : Nat} (l : List Nat) (d : BitVec n) (j : Nat) (hj : j < n) :
    (l.foldl (fun d w => putBit d w false) d).getLsbD j = (d.getLsbD j && !l.contains j) := by
  induction l generalizing d with
  | nil => simp
  | cons w l ih =>
    rw [List.foldl_cons, ih, getLsbD_putBit _ _ _ _ hj]
    by_cases hw : j = w <;> simp [hw]

/-- A mask with each of its bits cleared. -/
theorem foldl_putBit_setBits {n : Nat} (d : BitVec n) : (setBits d).foldl (fun d w => putBit d w false) d = 0 := by
  apply BitVec.eq_of_getLsbD_eq
  intro j hj
  rw [getLsbD_foldl_putBit_false _ _ _ hj]
  by_cases hset : d.getLsbD j = true
  · simp [hset, mem_setBits]
  · simp [hset]

/-- A drain with no line left in its ways is over. -/
theorem drainStep_of_left {t : Tile} {m : Mod}
    (h : ∀ l ∈ (m.slices[t] : Slice).lines, l.wb = 0 ∧ (m.slices[t] : Slice).drain.getLsbD l.way = false) :
    drainStep t m = onSlice t (fun s => { s with drain := 0 }) m := by
  have hnone : ∀ w ∈ setBits (m.slices[t] : Slice).drain, (m.slices[t] : Slice).lines.any (fun l => l.way == w) = false := by
    intro w hw
    refine List.any_eq_false.mpr fun l hl heq => ?_
    rw [mem_setBits, ← eq_of_beq heq, (h l hl).2] at hw
    cases hw
  have hzero : (setBits (m.slices[t] : Slice).drain).foldl (fun d w => if (m.slices[t] : Slice).lines.any (fun l => l.way == w) then d
      else putBit d w false) (m.slices[t] : Slice).drain = 0 := by
    rw [← foldl_putBit_setBits (m.slices[t] : Slice).drain]
    exact List.foldl_ext _ _ _ fun d w hw => if_neg (Bool.eq_false_iff.mp (hnone w hw))
  rw [drainStep, flushSel_of_none h]
  exact onSlice_congr (congrArg (fun d => { (m.slices[t] : Slice) with drain := d }) hzero)

/-! ### WAY_TEST (R208) -/

/-- The slice with the test of a way begun. -/
def wayTesting (c : AdminTag) (way : Nat) (s : Slice) : Slice := { s with test := some (c, way) }

/-- What WAY_TEST does to a way that it may take. -/
def takeForTest (t : Tile) (c : AdminTag) (way : Nat) (m : Mod) : Mod :=
  if (m.slices[t] : Slice).disabled.getLsbD way then startDrain t way (onSlice t (wayTesting c way) m)
  else wayOut t way (onSlice t (wayTesting c way) m)

theorem takeForTest_eq (t : Tile) (c : AdminTag) (way : Nat) (m : Mod) : ∃ x, takeForTest t c way m = flushSel t (fun l => l.way == way) x ∧
    (x.slices[t] : Slice).test = some (c, way) ∧ (x.slices[t] : Slice).drain = putBit (m.slices[t] : Slice).drain way true ∧
    (x.slices[t] : Slice).disabled = putBit (m.slices[t] : Slice).disabled way true ∧
    (x.slices[t] : Slice).lines = (m.slices[t] : Slice).lines ∧ x.proc = m.proc ∧ x.mem = m.mem ∧ x.rings = m.rings := by
  by_cases hdis : (m.slices[t] : Slice).disabled.getLsbD way = true
  · refine ⟨_, (if_pos hdis).trans (startDrain_eq ..), ?_⟩
    rw [slices_onSlice_self, slices_onSlice_self]
    exact ⟨rfl, rfl, (putBit_of_set hdis).symm, rfl, rfl, rfl, rfl⟩
  · refine ⟨_, (if_neg hdis).trans (wayOut_eq ..), ?_⟩
    obtain ⟨p, f, hslice⟩ := leftService_slice t way (onSlice t (wayTesting c way) m)
    rw [hslice, slices_onSlice_self, leftService_proc, leftService_mem, leftService_rings]
    exact ⟨rfl, rfl, rfl, rfl, rfl, rfl, rfl⟩

theorem exec_wayTest (h : AdminHdr) (tile way : Nat) (s : State) : exec (.wayTest h tile way) s =
    .next (onMod (admin h 0x0305 (tile ≤ 3 && way ≤ 15) fun c m =>
      if (m.slices[tileOf tile] : Slice).locked.getLsbD way || (m.slices[tileOf tile] : Slice).reserved.getLsbD way then done c 0x33 m
      else if (m.slices[tileOf tile] : Slice).test.isSome then done c 0x35 m
      else takeForTest (tileOf tile) c way m) s) := rfl

theorem wayTest_takesWay {h : AdminHdr} {tile way : Nat} {s : State} (ha : accepted h 0x0305 s) (ht : tile ≤ 3) (hway : way ≤ 15) :
    let old : Slice := s.m.slices[tileOf tile]
    let b := begun h 0x0305 s.m
    completes (.wayTest h tile way) s fun m' =>
      if old.locked.getLsbD way ∨ old.reserved.getLsbD way then m' = done (tagOf h 0x0305) 0x33 b
      else if old.test.isSome then m' = done (tagOf h 0x0305) 0x35 b
      else ∃ x, m' = flushSel (tileOf tile) (fun l => l.way == way) x ∧ (x.slices[tileOf tile] : Slice).test = some (tagOf h 0x0305, way) ∧
        (x.slices[tileOf tile] : Slice).drain = putBit old.drain way true ∧ (x.slices[tileOf tile] : Slice).disabled = putBit old.disabled way true ∧
        (x.slices[tileOf tile] : Slice).lines = old.lines ∧ x.proc = b.proc ∧ x.mem = s.m.mem ∧ x.rings = s.m.rings := by
  intro old b
  refine completes_of_inRange _ (exec_wayTest h tile way s) ha (by simp [ht, hway]) ?_
  have hheld : (old.locked.getLsbD way || old.reserved.getLsbD way) = true ↔ old.locked.getLsbD way = true ∨ old.reserved.getLsbD way = true :=
    Bool.or_eq_true_iff
  by_cases hlocked : old.locked.getLsbD way = true ∨ old.reserved.getLsbD way = true
  · rw [if_pos hlocked]
    exact if_pos (hheld.mpr hlocked)
  by_cases htest : old.test.isSome = true
  · rw [if_neg hlocked, if_pos htest]
    exact (if_neg (mt hheld.mp hlocked)).trans (if_pos htest)
  · rw [if_neg hlocked, if_neg htest]
    obtain ⟨x, hx, hframe⟩ := takeForTest_eq (tileOf tile) (tagOf h 0x0305) way b
    exact ⟨x, ((if_neg (mt hheld.mp hlocked)).trans (if_neg htest)).trans hx, hframe⟩

/-! ### The end of a march test (R208) -/

/-- The end of a march test of a tile's way. -/
def wayTestOver (t : Tile) (pass : Bool) (m : Mod) : Mod :=
  match (m.slices[t] : Slice).test with
  | none => m
  | some (c, way) =>
    if (m.slices[t] : Slice).drain.getLsbD way || (m.slices[t] : Slice).sweep then m
    else if pass then onSlice t (fun s => { s with sweep := true, oneWay := some way }) m
    else done c 0x36 (healthWay t way true (onSlice t (fun s => { s with test := none }) m))

theorem exec_wayTestEnd (t : Tile) (pass : Bool) (s : State) : exec (.wayTestEnd t pass) s = .next (onMod (wayTestOver t pass) s) := rfl

section
variable {t : Tile} {m : Mod}

theorem wayTestOver_of_none (pass : Bool) (h : (m.slices[t] : Slice).test = none) : wayTestOver t pass m = m := by
  simp only [wayTestOver, h]

variable {c : AdminTag} {way : Nat} (htest : (m.slices[t] : Slice).test = some (c, way))
  (hdrain : (m.slices[t] : Slice).drain.getLsbD way = false) (hsweep : (m.slices[t] : Slice).sweep = false)
include htest hdrain hsweep

theorem wayTestOver_of_pass : wayTestOver t true m = onSlice t (fun s => { s with sweep := true, oneWay := some way }) m := by
  simp only [wayTestOver, htest, hdrain, hsweep, Bool.or_self, Bool.false_eq_true, if_false, if_true]

theorem wayTestOver_of_fail :
    wayTestOver t false m = done c 0x36 (healthWay t way true (onSlice t (fun s => { s with test := none }) m)) := by
  simp only [wayTestOver, htest, hdrain, hsweep, Bool.or_self, Bool.false_eq_true, if_false]

end

/-! ### The statement -/

theorem exec_wayDrainEnd (t : Tile) (s : State) : exec (.wayDrainEnd t) s = .next (onMod (fun m =>
    if (m.slices[t] : Slice).drain = 0 then m else wakeTile t (drainStep t m)) s) := rfl

theorem waysLeaveServiceAndReturn : WaysLeaveServiceAndReturn := by
  refine ⟨fun t w tagErr s hp => ⟨fun hdis => ?disabled, fun hen => ?disable⟩, fun t set w cp s hp hfew => ?counted,
    fun t set w cp s hp hen hnone => ?uncorrectable, fun t s hp hdrain hleft => ?drained, fun h tile way s => wayTest_takesWay,
    fun t c way s hp htest hdrain hsweep => ⟨?pass, ?fail⟩, fun t pass s hdrain htest => ⟨?noDrain, ?noTest⟩⟩
  case disabled => exact completes_of_onMod _ rfl hp (disableWay_of_disabled _ hdis)
  case disable => exact completes_of_onMod _ rfl hp (disableWay_of_enabled (num01 tagErr) hen)
  case counted => exact completes_of_onMod _ rfl hp (wayError_of_few hfew)
  case uncorrectable =>
    have hcount : wayError t w.val s.m = onSlice t (errCounted w.val s.m.tb.now) s.m := wayError_of_few (by rw [hnone]; exact Nat.zero_lt_succ 7)
    refine completes_of_onMod (fun m => disableWay t w.val 1 (wayError t w.val m)) rfl hp ?_
    rw [hcount]
    exact wayDisabled_of_errCounted (disableWay_of_enabled 1 (by rw [slices_onSlice_self]; exact hen))
  case drained =>
    refine completes_of_onMod _ rfl hp ((if_neg hdrain).trans ?_)
    rw [drainStep_of_left hleft]
    rfl
  case pass => exact completes_of_onMod _ (exec_wayTestEnd t true s) hp (wayTestOver_of_pass htest hdrain hsweep)
  case fail =>
    exact completes_of_onMod _ (exec_wayTestEnd t false s) hp
      ⟨_, wayTestOver_of_fail htest hdrain hsweep, rfl, List.mem_cons_self, rfl⟩
  case noDrain => exact exec_of_fixed _ (exec_wayDrainEnd t s) (if_pos hdrain)
  case noTest => exact exec_of_fixed _ (exec_wayTestEnd t pass s) (wayTestOver_of_none pass htest)

end Sys2Proof.Machine
end

