-- ==== Sys2Proof/Proofs/SweepsAndFlushes.lean ====
section
/-! PROOFS. Sweeps and flushes of the line cache (O38, second part): what the end of a sweep does to each tile, and how the lines of a
flush leave their slice one after another. -/
namespace Sys2Proof.Machine

open Sys2Proof.Stmt

/-! ### The end of a sweep (R209) -/

/-- The end of a sweep in one tile. -/
def tileSwept (t : Tile) (m : Mod) : Mod :=
  if !(m.slices[t] : Slice).sweep then m
  else match (m.slices[t] : Slice).oneWay with
    | some w => wayBack t w (onSlice t (fun s => { s with sweep := false, oneWay := none }) m)
    | none => onSlice t (fun s => { s with lines := [] }) (onSlice t (fun s => { s with sweep := false, oneWay := none }) m)

theorem sweepEnd_eq (m : Mod) : sweepEnd m = (List.finRange 4).foldl (fun m t => tileSwept t m) m := rfl

/-- A slice after the invalidation of all its ways, where one ran. -/
def sweptSlice (s : Slice) : Slice := if s.sweep then { s with sweep := false, lines := [] } else s

theorem sweptSlice_sweep (s : Slice) : (sweptSlice s).sweep = false := by
  unfold sweptSlice
  split
  next => rfl
  next h => exact Bool.eq_false_iff.mpr h

theorem tileSwept_of_idle {t : Tile} {m : Mod} (h : (m.slices[t] : Slice).sweep = false) : tileSwept t m = m := by
  simp only [tileSwept, h, Bool.not_false, if_true]

theorem tileSwept_of_whole {t : Tile} {m : Mod} (h : (m.slices[t] : Slice).sweep = true → (m.slices[t] : Slice).oneWay = none) :
    tileSwept t m = onSlice t sweptSlice m := by
  by_cases hsweep : (m.slices[t] : Slice).sweep = true
  · simp only [tileSwept, hsweep, h hsweep, Bool.not_true, Bool.false_eq_true, if_false, onSlice_onSlice]
    refine onSlice_congr ?_
    simp only [sweptSlice, hsweep, h hsweep, if_true]
  · rw [tileSwept_of_idle (Bool.eq_false_iff.mpr hsweep)]
    exact (onSlice_of_fixed (f := sweptSlice) (if_neg hsweep)).symm

/-- A change of each slice in turn is a change of all. -/
theorem foldl_onSlice (f : Slice → Slice) (m : Mod) :
    (List.finRange 4).foldl (fun m t => onSlice t f m) m = { m with slices := m.slices.map f } := by
  have htiles : List.finRange 4 = [0, 1, 2, 3] := by decide
  have hslices : ∀ v : Vector Slice 4,
      (((v.set 0 (f v[0])).set 1 (f v[1])).set 2 (f v[2])).set 3 (f v[3]) = v.map f := by
    intro v
    ext i hi
    interval_cases i <;> simp
  rw [htiles, ← hslices m.slices]
  simp [onSlice]

/-- Tiles that sweep all their ways, or none, in turn. -/
theorem foldl_tileSwept_of_whole (l : List Tile) {m : Mod}
    (h : ∀ t : Tile, (m.slices[t] : Slice).sweep = true → (m.slices[t] : Slice).oneWay = none) :
    l.foldl (fun m t => tileSwept t m) m = l.foldl (fun m t => onSlice t sweptSlice m) m := by
  induction l generalizing m with
  | nil => rfl
  | cons t l ih =>
    rw [List.foldl_cons, List.foldl_cons, tileSwept_of_whole (h t)]
    refine ih fun u hu => ?_
    by_cases hut : u = t
    · rw [hut, slices_onSlice_self, sweptSlice_sweep] at hu
      cases hu
    · rw [slices_onSlice_of_ne hut] at hu ⊢
      exact h u hu

theorem sweepEnd_of_whole {m : Mod} (h : ∀ t : Tile, (m.slices[t] : Slice).sweep = true → (m.slices[t] : Slice).oneWay = none) :
    sweepEnd m = { m with slices := m.slices.map sweptSlice } := by
  rw [sweepEnd_eq, foldl_tileSwept_of_whole _ h, foldl_onSlice]

/-! ### The sweep of one way (R208) -/

/-- A fold of which one step alone does anything. -/
theorem foldl_of_one {α β : Type} {f : β → α → β} {l : List α} {a : α} {b : β} (hl : l.Nodup) (ha : a ∈ l)
    (hbefore : ∀ x ∈ l, x ≠ a → f b x = b) (hafter : ∀ x ∈ l, f (f b a) x = f b a) : l.foldl f b = f b a := by
  obtain ⟨before, after, rfl⟩ := List.append_of_mem ha
  have hne : ∀ x ∈ before, x ≠ a := fun x hx => (List.nodup_append.mp hl).2.2 x hx a List.mem_cons_self
  rw [List.foldl_append, foldl_of_fixed before fun x hx => hbefore x (List.mem_append_left _ hx) (hne x hx), List.foldl_cons]
  exact foldl_of_fixed after fun x hx => hafter x (List.mem_append_right _ (List.mem_cons_of_mem a hx))

/-- A slice whose one-way sweep has ended, with the way back in service. -/
def wayReturned (way : Nat) (s : Slice) : Slice :=
  { s with
    sweep := false
    oneWay := none
    disabled := putBit s.disabled way false
    lines := s.lines.filter (fun l => l.way != way)
    test := none
    wayErrs := s.wayErrs.filter (fun e => e.1 != way) }

/-- The module with a way of a tile back in service, before its test completes. -/
def returned (t : Tile) (way : Nat) (m : Mod) : Mod := passCheck t (healthWay t way false (onSlice t (wayReturned way) m))

theorem returned_slice (t : Tile) (way : Nat) (m : Mod) :
    ∃ p f, ((returned t way m).slices[t] : Slice) = passed p f (wayReturned way m.slices[t]) := by
  obtain ⟨p, f, h⟩ := passCheck_slice t (healthWay t way false (onSlice t (wayReturned way) m))
  exact ⟨p, f, h.trans (congrArg (passed p f) (slices_onSlice_self t (wayReturned way) m))⟩

theorem returned_slice_of_ne {t u : Tile} (h : u ≠ t) (way : Nat) (m : Mod) :
    ∃ f, ((returned t way m).slices[u] : Slice) = withFlush f m.slices[u] := by
  obtain ⟨f, hslice⟩ := passCheck_slice_of_ne h (healthWay t way false (onSlice t (wayReturned way) m))
  exact ⟨f, hslice.trans (congrArg (withFlush f) (slices_onSlice_of_ne h (wayReturned way) m))⟩

theorem returned_mem (t : Tile) (way : Nat) (m : Mod) : (returned t way m).mem = m.mem :=
  passCheck_mem t (healthWay t way false (onSlice t (wayReturned way) m))

theorem not_mem_returned_ways (t : Tile) (way : Nat) (m : Mod) : (t.val, way) ∉ (returned t way m).flash.ways := by
  rw [returned, passCheck_ways]
  simp [healthWay]

section
variable {t : Tile} {c : AdminTag} {way v : Nat} {m : Mod} (hsweep : (m.slices[t] : Slice).sweep = true)
  (hway : (m.slices[t] : Slice).oneWay = some way) (htest : (m.slices[t] : Slice).test = some (c, v))
include hsweep hway htest

theorem tileSwept_of_oneWay : tileSwept t m = done c 0x00 (returned t way m) := by
  simp only [tileSwept, hsweep, hway, Bool.not_true, Bool.false_eq_true, if_false]
  have hself := slices_onSlice_self t (fun s => { s with sweep := false, oneWay := none }) m
  rw [wayBack, hself, onSlice_onSlice]
  simp only [htest]
  rfl

/-- With one tile's sweep of one way alone under way, its end is the end of the sweep. -/
theorem sweepEnd_of_oneWay (hother : ∀ u : Tile, u ≠ t → (m.slices[u] : Slice).sweep = false) :
    sweepEnd m = done c 0x00 (returned t way m) := by
  have hstep := tileSwept_of_oneWay hsweep hway htest
  rw [sweepEnd_eq, ← hstep]
  refine foldl_of_one (List.nodup_finRange 4) (List.mem_finRange t) (fun u _ hu => tileSwept_of_idle (hother u hu))
    fun u _ => tileSwept_of_idle ?_
  rw [hstep]
  obtain ⟨f, hdone⟩ := done_slice c 0x00 u (returned t way m)
  rw [hdone]
  by_cases hut : u = t
  · obtain ⟨p, f', hslice⟩ := returned_slice t way m
    rw [hut, hslice]
    rfl
  · obtain ⟨f', hslice⟩ := returned_slice_of_ne hut way m
    rw [hslice]
    exact hother u hut

end

/-! ### Lines that leave (R197, R210) -/

/-- A line that nothing keeps in its slice: clean, complete, in no fill, and to be dropped. -/
def readyToLeave (s : Slice) (l : Line) : Prop :=
  l.wb = 2 ∧ l.sdirty = 0 ∧ l.svalid = 15 ∧ findMiss s l.space (lineAddr l) = none

/-- From `m` to `m'` lines have left the slice of a tile, at least those in the places of `ls`; all else stays but the marks kept of
poisoned lines. -/
def departed (t : Tile) (ls : List Line) (m m' : Mod) : Prop :=
  ∃ lines wholes, m' = onSlice t (fun s => { s with lines := lines, wholes := wholes }) m ∧
    ∀ x ∈ lines, x ∈ (m.slices[t] : Slice).lines ∧ ∀ l ∈ ls, ¬ (x.set = l.set ∧ x.way = l.way)

theorem departed_nil (t : Tile) (m : Mod) : departed t [] m m :=
  ⟨(m.slices[t] : Slice).lines, (m.slices[t] : Slice).wholes, (onSlice_of_fixed rfl).symm, fun _ hx => ⟨hx, by simp⟩⟩

section
variable {t : Tile} {ls ls' : List Line} {m m' m'' : Mod}

theorem departed_trans (h : departed t ls m m') (h' : departed t ls' m' m'') : departed t (ls ++ ls') m m'' := by
  obtain ⟨lines, wholes, rfl, hleft⟩ := h
  obtain ⟨lines', wholes', rfl, hleft'⟩ := h'
  rw [slices_onSlice_self] at hleft'
  refine ⟨lines', wholes', onSlice_onSlice .., fun x hx => ?_⟩
  obtain ⟨hin, hgone'⟩ := hleft' x hx
  obtain ⟨hmem, hgone⟩ := hleft x hin
  exact ⟨hmem, fun l hl => (List.mem_append.mp hl).elim (hgone l) (hgone' l)⟩

theorem departed_ready (h : departed t ls m m') (hready : ∀ l ∈ (m.slices[t] : Slice).lines, readyToLeave m.slices[t] l) :
    ∀ l ∈ (m'.slices[t] : Slice).lines, readyToLeave m'.slices[t] l := by
  obtain ⟨lines, wholes, rfl, hleft⟩ := h
  rw [slices_onSlice_self]
  exact fun l hl => hready l (hleft l hl).1

theorem departed_metaKind (h : departed t ls m m') : metaKind m' = metaKind m := by
  obtain ⟨_, _, rfl, -⟩ := h
  rfl

theorem wbDone_of_dropped {y : Line} (hwb : y.wb = 2) :
    wbDone t y m = keepWhole t y.space (lineAddr y) y.poison y.whole (onSlice t (dropLine y.set y.way) m) := by
  rw [wbDone, if_neg (by rw [hwb]; decide), if_neg fun h => by rw [hwb] at h; cases h.1]

theorem retryLine_of_ready {y : Line} {set way : Nat} (hentry : entryAt m.slices[t] set way = some y) (hready : readyToLeave m.slices[t] y) :
    retryLine t set way m = keepWhole t y.space (lineAddr y) y.poison y.whole (onSlice t (dropLine y.set y.way) m) := by
  obtain ⟨hwb, hclean, hvalid, hmiss⟩ := hready
  have hgoes : ¬ (y.wb = 0 ∨ y.svalid ≠ 15 ∧ y.svalid ≠ 0 ∨ (findMiss m.slices[t] y.space (lineAddr y)).isSome = true) := by
    rw [hwb, hvalid, hmiss]
    decide
  simp only [retryLine, hentry]
  rw [if_neg hgoes, if_pos hclean, wbDone_of_dropped hwb]

variable (hready : ∀ l ∈ (m.slices[t] : Slice).lines, readyToLeave m.slices[t] l)
include hready

/-- A line that is ready leaves its place. -/
theorem departed_retryLine (l : Line) : departed t [l] m (retryLine t l.set l.way m) := by
  cases hentry : entryAt m.slices[t] l.set l.way with
  | none =>
    have hfixed : retryLine t l.set l.way m = m := by simp only [retryLine, hentry]
    rw [hfixed]
    refine ⟨(m.slices[t] : Slice).lines, (m.slices[t] : Slice).wholes, (onSlice_of_fixed rfl).symm, fun x hx => ⟨hx, ?_⟩⟩
    simpa using List.find?_eq_none.mp hentry x hx
  | some y =>
    have hplace : y.set = l.set ∧ y.way = l.way := by simpa using List.find?_some hentry
    rw [retryLine_of_ready hentry (hready y (List.mem_of_find?_eq_some hentry)), hplace.1, hplace.2]
    refine ⟨_, _, onSlice_onSlice .., fun x hx => ?_⟩
    obtain ⟨hin, hother⟩ := List.mem_filter.mp hx
    exact ⟨hin, fun y hy => by rw [List.mem_singleton.mp hy]; simpa [imp_iff_not_or] using hother⟩

theorem departed_foldl_retryLine (ls : List Line) : departed t ls m (ls.foldl (fun m l => retryLine t l.set l.way m) m) := by
  induction ls generalizing m with
  | nil => exact departed_nil t m
  | cons l ls ih =>
    have hfirst := departed_retryLine hready l
    exact departed_trans hfirst (ih (departed_ready hfirst hready))

/-- The metadata lines of `ls` leave kind by kind. -/
theorem departed_foldl_kinds (ls : List Line) (ks : List Nat) :
    departed t (ks.flatMap fun k => ls.filter (fun l => l.space == 2 && metaKind m (lineAddr l) == k)) m
      (ks.foldl (fun m k => (ls.filter (fun l => l.space == 2 && metaKind m (lineAddr l) == k)).foldl
        (fun m l => retryLine t l.set l.way m) m) m) := by
  induction ks generalizing m with
  | nil => exact departed_nil t m
  | cons k ks ih =>
    have hfirst := departed_foldl_retryLine hready (ls.filter (fun l => l.space == 2 && metaKind m (lineAddr l) == k))
    have hrest := ih (departed_ready hfirst hready)
    rw [departed_metaKind hfirst] at hrest
    exact departed_trans hfirst hrest

end

theorem nodeAt_level {s : SealRange} {da level i : Nat} (h : nodeAt s da = some (level, i)) : level ≤ 4 := by
  unfold nodeAt at h
  dsimp only at h
  split_ifs at h <;> obtain ⟨rfl, -⟩ := Prod.mk.inj (Option.some.inj h) <;> decide

/-- R416: a metadata batt has one of six kinds. -/
theorem metaKind_lt (m : Mod) (da : Nat) : metaKind m da < 6 := by
  unfold metaKind
  dsimp only
  split
  next hnode => exact Nat.lt_succ_of_le (Nat.succ_le_succ (nodeAt_level hnode))
  next => split <;> decide

/-- Lines that are all ready all leave. -/
theorem retryLines_of_ready {t : Tile} {m : Mod} (hready : ∀ l ∈ (m.slices[t] : Slice).lines, readyToLeave m.slices[t] l) :
    ∃ wholes, retryLines t m = onSlice t (fun s => { s with lines := [], wholes := wholes }) m := by
  let ls := (m.slices[t] : Slice).lines.filter (fun l => l.wb != 0)
  have hfirst := departed_foldl_retryLine hready (ls.filter (fun l => l.space != 2))
  have hrest := departed_foldl_kinds (departed_ready hfirst hready) ls [0, 1, 2, 3, 4, 5]
  rw [departed_metaKind hfirst] at hrest
  obtain ⟨lines, wholes, heq, hleft⟩ := departed_trans hfirst hrest
  have hempty : lines = [] := by
    refine List.eq_nil_iff_forall_not_mem.mpr fun x hx => ?_
    obtain ⟨hin, hgone⟩ := hleft x hx
    have hx : x ∈ ls := List.mem_filter.mpr ⟨hin, by simp [(hready x hin).1]⟩
    refine hgone x (List.mem_append.mpr ?_) ⟨rfl, rfl⟩
    by_cases hspace : x.space = 2
    · have hkind : metaKind m (lineAddr x) ∈ [0, 1, 2, 3, 4, 5] := List.mem_range.mpr (metaKind_lt m (lineAddr x))
      exact .inr (List.mem_flatMap.mpr ⟨_, hkind, List.mem_filter.mpr ⟨hx, by simp [hspace]⟩⟩)
    · exact .inl (List.mem_filter.mpr ⟨hx, by simpa using hspace⟩)
  exact ⟨wholes, heq.trans (by rw [hempty])⟩

/-! ### A flush of lines at rest (R210) -/

/-- A line that is to leave its slice. -/
def toLeave (l : Line) : Line := { l with busy := true, wb := max l.wb 2 }

theorem foldl_markWb (t : Tile) (ls : List Line) (m : Mod) :
    ls.foldl (fun m l => markWb l 2 m t) m = onSlice t (fun s => ls.foldl (fun s l => putLine (toLeave l) s) s) m := by
  induction ls generalizing m with
  | nil => exact (onSlice_of_fixed rfl).symm
  | cons l ls ih => rw [List.foldl_cons, ih]; exact onSlice_onSlice ..

/-- What is marked stands in place of what was there. -/
theorem foldl_putLine (ls : List Line) (s : Slice) : ∃ lines, ls.foldl (fun s l => putLine (toLeave l) s) s = { s with lines := lines } ∧
    ∀ x ∈ lines, (∃ l ∈ ls, x = toLeave l) ∨ x ∈ s.lines ∧ x ∉ ls := by
  induction ls generalizing s with
  | nil => exact ⟨s.lines, rfl, fun x hx => .inr ⟨hx, List.not_mem_nil⟩⟩
  | cons l ls ih =>
    obtain ⟨lines, heq, hlines⟩ := ih (putLine (toLeave l) s)
    refine ⟨lines, heq, fun x hx => ?_⟩
    rcases hlines x hx with ⟨y, hy, rfl⟩ | ⟨hput, hnot⟩
    · exact .inl ⟨y, List.mem_cons_of_mem l hy, rfl⟩
    rcases List.mem_cons.mp hput with rfl | hold
    · exact .inl ⟨l, List.mem_cons_self, rfl⟩
    · obtain ⟨hin, hplace⟩ := List.mem_filter.mp hold
      refine .inr ⟨hin, fun h => ?_⟩
      rcases List.mem_cons.mp h with rfl | hmem
      · simp [toLeave] at hplace
      · exact hnot hmem

/-- A flush that selects every line of a slice whose lines are all at rest empties it. -/
theorem flushSel_of_atRest {t : Tile} {sel : Line → Bool} {m : Mod}
    (h : ∀ l ∈ (m.slices[t] : Slice).lines, atRest m.slices[t] l ∧ sel l = true) :
    ∃ wholes, flushSel t sel m = onSlice t (fun s => { s with lines := [], wholes := wholes }) m := by
  have hall : (m.slices[t] : Slice).lines.filter sel = (m.slices[t] : Slice).lines := List.filter_eq_self.mpr fun l hl => (h l hl).2
  obtain ⟨lines, hmarked, hlines⟩ := foldl_putLine (m.slices[t] : Slice).lines m.slices[t]
  have hmark : (m.slices[t] : Slice).lines.foldl (fun m l => markWb l 2 m t) m = onSlice t (fun s => { s with lines := lines }) m := by
    rw [foldl_markWb]
    exact onSlice_congr hmarked
  have hready : ∀ l ∈ lines, readyToLeave { (m.slices[t] : Slice) with lines := lines } l := by
    intro x hx
    rcases hlines x hx with ⟨l, hl, rfl⟩ | ⟨hin, hnot⟩
    · obtain ⟨⟨-, hwb, hclean, hvalid, hmiss⟩, -⟩ := h l hl
      exact ⟨by simp [toLeave, hwb], hclean, hvalid, hmiss⟩
    · exact absurd hin hnot
  obtain ⟨wholes, hgone⟩ := retryLines_of_ready (t := t) (m := onSlice t (fun s => { s with lines := lines }) m)
    (by rw [slices_onSlice_self]; exact hready)
  exact ⟨wholes, by rw [flushSel, hall, hmark, hgone, onSlice_onSlice]⟩

theorem flushPass_of_atRest {t : Tile} {m : Mod} (hflush : flushing m = true) (hstate : m.power.state ≠ 4)
    (hrest : ∀ l ∈ (m.slices[t] : Slice).lines, atRest m.slices[t] l) :
    ∃ wholes, flushPass t m = onSlice t (fun s => { s with lines := [], wholes := wholes }) m := by
  obtain ⟨wholes, h⟩ := flushSel_of_atRest (sel := flushPick m) fun l hl => ⟨hrest l hl, by rw [flushPick, hflush]; rfl⟩
  exact ⟨wholes, (if_neg (by simp [hstate])).trans h⟩

/-- The passes of a full flush empty the slices that they pass, and leave their transit entries. -/
theorem foldl_flushPass (ts : List Tile) {m : Mod} (hflush : flushing m = true) (hstate : m.power.state ≠ 4)
    (hrest : ∀ t : Tile, ∀ l ∈ (m.slices[t] : Slice).lines, atRest m.slices[t] l) :
    ∃ slices : Vector Slice 4, ts.foldl (fun m t => flushPass t m) m = { m with slices := slices } ∧
      ∀ t : Tile, (slices[t] : Slice).transits = (m.slices[t] : Slice).transits ∧
        (t ∈ ts ∨ (m.slices[t] : Slice).lines = [] → (slices[t] : Slice).lines = []) := by
  induction ts generalizing m with
  | nil => exact ⟨m.slices, rfl, fun t => ⟨rfl, fun h => h.resolve_left List.not_mem_nil⟩⟩
  | cons t ts ih =>
    obtain ⟨wholes, hpass⟩ := flushPass_of_atRest hflush hstate (hrest t)
    have hself := slices_onSlice_self t (fun s => { s with lines := [], wholes := wholes }) m
    have hother : ∀ u, u ≠ t → _ := fun u hu => slices_onSlice_of_ne hu (fun s => { s with lines := [], wholes := wholes }) m
    rw [List.foldl_cons, hpass]
    obtain ⟨slices, heq, hslices⟩ := ih (m := onSlice t (fun s => { s with lines := [], wholes := wholes }) m) hflush hstate fun u l hl => by
      by_cases hut : u = t
      · rw [hut, hself] at hl
        cases hl
      · rw [hother u hut] at hl ⊢
        exact hrest u l hl
    refine ⟨slices, heq, fun u => ?_⟩
    obtain ⟨htransits, hempty⟩ := hslices u
    by_cases hut : u = t
    · rw [hut, hself] at htransits hempty
      rw [hut]
      exact ⟨htransits, fun _ => hempty (.inr rfl)⟩
    · rw [hother u hut] at htransits hempty
      exact ⟨htransits, fun h => hempty (h.imp_left fun hu => (List.mem_cons.mp hu).resolve_left hut)⟩

/-! ### The statement -/

theorem flushEnd_of_none {m : Mod} (h : ∀ t : Tile, (m.slices[t] : Slice).flush = false) : flushEnd m = m :=
  if_pos (Vector.all_eq_true.mpr fun i hi => by rw [Bool.not_eq_true']; exact h ⟨i, hi⟩)

/-- A full flush of lines at rest is over when it has passed every slice. -/
theorem flushEnd_of_atRest {m : Mod} (hflush : flushing m = true) (hstate : m.power.state ≠ 4)
    (hsome : ∃ t : Tile, (m.slices[t] : Slice).flush = true)
    (hrest : ∀ t : Tile, (m.slices[t] : Slice).transits = [] ∧ ∀ l ∈ (m.slices[t] : Slice).lines, atRest m.slices[t] l) :
    ∃ slices : Vector Slice 4, flushEnd m = { m with slices := slices } ∧
      ∀ t : Tile, (slices[t] : Slice).lines = [] ∧ (slices[t] : Slice).flush = false := by
  obtain ⟨u, hu⟩ := hsome
  obtain ⟨slices, hpass, hslices⟩ := foldl_flushPass (List.finRange 4) hflush hstate fun t => (hrest t).2
  have hlines : ∀ t : Tile, (slices[t] : Slice).lines = [] := fun t => (hslices t).2 (.inl (List.mem_finRange t))
  have htransits : ∀ t : Tile, (slices[t] : Slice).transits = [] := fun t => (hslices t).1.trans (hrest t).1
  have hruns : ¬ (m.slices.all fun s => !s.flush) = true := fun hall => by
    have hidle := Vector.all_eq_true.mp hall u.val u.isLt
    rw [Bool.not_eq_true'] at hidle
    exact absurd (hidle.symm.trans hu) (by decide)
  refine ⟨slices.map fun s => { s with flush := false }, (if_neg hruns).trans ?_, fun t => ?_⟩
  · rw [hpass]
    refine if_neg ?_
    have hflush : flushing { m with slices := slices } = true := hflush
    simp only [hflush, hlines, htransits]
    simp
  · have hmap : ((slices.map fun s => { s with flush := false })[t] : Slice) = { (slices[t] : Slice) with flush := false } :=
      Vector.getElem_map ..
    rw [hmap]
    exact ⟨hlines t, rfl⟩

theorem exec_invalidationSweepEnd (s : State) : exec .invalidationSweepEnd s =
    .next (onMod (fun m => wakeAll (releaseHeld (sweepEnd m))) s) := rfl

theorem exec_flushEnd (s : State) : exec .flushEnd s = .next (onMod flushEnd s) := rfl

theorem sweepsAndFlushesEmptyTheSlices : SweepsAndFlushesEmptyTheSlices := by
  refine ⟨fun s hp hwhole => ?whole, fun t c way v s hp hsweep hway htest hother => ?oneWay,
    fun s hp hflush hstate hsome hrest => ?flush, fun s hnone => exec_of_fixed _ (exec_flushEnd s) (flushEnd_of_none hnone)⟩
  case whole =>
    refine completes_of_onMod _ (exec_invalidationSweepEnd s) hp ?_
    rw [sweepEnd_of_whole hwhole]
    rfl
  case oneWay =>
    refine completes_of_onMod _ (exec_invalidationSweepEnd s) hp ⟨returned t way s.m, ?_, ?_⟩
    · rw [sweepEnd_of_oneWay hsweep hway htest hother]
    · obtain ⟨p, f, hslice⟩ := returned_slice t way s.m
      rw [hslice]
      exact ⟨rfl, rfl, rfl, rfl, rfl, not_mem_returned_ways t way s.m, returned_mem t way s.m⟩
  case flush =>
    obtain ⟨slices, heq, hempty⟩ := flushEnd_of_atRest hflush hstate hsome hrest
    refine completes_of_onMod _ (exec_flushEnd s) hp ?_
    rw [heq]
    exact ⟨rfl, hempty⟩

/-- Settles O38: a way's leaving service and return touch its slice, the health record and reports alone; the tiles of a sweep end it one
by one; and each line at rest that a flush marks is dropped as its write-back is tried. -/
theorem waysLeaveServiceAndSlicesEmpty : Obligations.WaysLeaveServiceAndSlicesEmpty :=
  ⟨waysLeaveServiceAndReturn, sweepsAndFlushesEmptyTheSlices⟩

end Sys2Proof.Machine
end

