-- ==== Sys2Proof/Proofs/ReadHits.lean ====
section
/-! PROOFS. Reads that hit (O27): the filter entry that a read's grant makes, the answer with data, and a read from its port to its
answer. -/
namespace Sys2Proof.Machine

open Sys2Proof.Stmt

/-! ### The filter entry of a grant (R224, R226) -/

/-- The entry that a grant makes of a line that has none: the request's port alone is present, with the label and the key id of the request. -/
def soleEntry (q : MReq) (way : Nat) (excl pend : Bool) : FEntry :=
  let none : FEntry := ⟨filtSet (wLine q.w), way, filtTag (wLine q.w), false, false, false, 0, 0, 0, 0, false, false⟩
  { entAlias (entSetPres none q.port true) q.port (wLabel q.w) (wKey q.w) with nru := true, excl := excl, pend := pend }

section
variable (q : MReq) (way : Nat) (excl pend : Bool)

theorem soleEntry_set : (soleEntry q way excl pend).set = filtSet (wLine q.w) := by unfold soleEntry; cases q.port <;> rfl
theorem soleEntry_tag : (soleEntry q way excl pend).tag = filtTag (wLine q.w) := by unfold soleEntry; cases q.port <;> rfl
theorem entPres_soleEntry : entPres (soleEntry q way excl pend) q.port = true := by unfold soleEntry; cases q.port <;> rfl
theorem entPres_other_soleEntry : entPres (soleEntry q way excl pend) q.port.other = false := by unfold soleEntry; cases q.port <;> rfl
theorem entKey_soleEntry : entKey (soleEntry q way excl pend) q.port = wKey q.w := by unfold soleEntry; cases q.port <;> rfl
theorem entLabel_soleEntry : entLabel (soleEntry q way excl pend) q.port = wLabel q.w := by unfold soleEntry; cases q.port <;> rfl

theorem findEnt_putEnt_soleEntry (f : FilterSt) : findEnt (putEnt (soleEntry q way excl pend) f) (wLine q.w) = some (soleEntry q way excl pend) :=
  findEnt_putEnt (by rw [valid_iff_entPres _ q.port, entPres_soleEntry]; rfl) (soleEntry_set ..) (soleEntry_tag ..)

end

theorem filters_onFilter_self (t : Tile) (f : FilterSt → FilterSt) (m : Mod) : ((onFilter t f m).filters[t] : FilterSt) = f m.filters[t] := by
  simp

/-- A set that has two free ways evicts nothing when an entry takes one (R234). -/
theorem backgroundEvict_putEnt {t : Tile} {set : Nat} {e : FEntry} {m : Mod} (hresv : (m.filters[t] : FilterSt).resv = [])
    (hroom : (setEnts m.filters[t] set).length < 15) : backgroundEvict t set (onFilter t (putEnt e) m) = onFilter t (putEnt e) m := by
  refine backgroundEvict_of_room ?_
  rw [filters_onFilter_self]
  have hmore := setEnts_putEnt_length e m.filters[t] set
  exact freeWay_isSome hresv (by omega)

/-- The filter of a tile holds the entry of a request's line that its grant makes. -/
def granted (q : MReq) (t : Tile) (g : Grant) (filters : Vector FilterSt 4) : Prop :=
  ∃ way pend, findEnt filters[t] (wLine q.w) = some (soleEntry q way (decide (g = .excl)) pend)

theorem granted_putEnt (q : MReq) (t : Tile) (g : Grant) (way : Nat) (pend : Bool) (m : Mod) :
    granted q t g (onFilter t (putEnt (soleEntry q way (decide (g = .excl)) pend)) m).filters :=
  ⟨way, pend, by rw [filters_onFilter_self]; exact findEnt_putEnt_soleEntry ..⟩

section
variable {q : MReq} {t : Tile} {m : Mod} (hread : q.kind = .memRd ∨ q.kind = .memRdData)
include hread

/-- A read that is granted no state keeps no way, and leaves the filter as it is. -/
theorem filtUpdate_of_read_none (hresv : (m.filters[t] : FilterSt).resv = []) : filtUpdate t q .none m = m := by
  have hunkeep : onFilter t (unkeep (wLine q.w)) m = m :=
    onFilter_of_fixed (by simp only [unkeep, hresv, List.filter_nil]; rw [← hresv])
  simp only [filtUpdate, hunkeep]
  split
  · rfl
  · rcases hread with hread | hread <;> simp only [hread]

/-- A grant takes the way that was kept for it. -/
theorem filtUpdate_of_read {g : Grant} {way : Nat} (hq : PlainRequest q) (hbroadcast : (m.filters[t] : FilterSt).broadcast = false)
    (hentry : findEnt m.filters[t] (wLine q.w) = none) (hresv : (m.filters[t] : FilterSt).resv = [(wLine q.w, way)]) (hg : g ≠ .none)
    (hroom : (setEnts m.filters[t] (filtSet (wLine q.w))).length < 15) :
    ∃ filters, granted q t g filters ∧ filtUpdate t q g m = { m with filters := filters } := by
  have hkept : keptWay m.filters[t] (wLine q.w) = some way := by simp only [keptWay, hresv]; simp
  have hself := filters_onFilter_self t (unkeep (wLine q.w)) m
  have hput : ∀ e, backgroundEvict t (filtSet (wLine q.w)) (onFilter t (putEnt e) (onFilter t (unkeep (wLine q.w)) m)) =
      onFilter t (putEnt e) (onFilter t (unkeep (wLine q.w)) m) := fun e =>
    backgroundEvict_putEnt (by simp only [hself, unkeep, hresv]; simp) (by rw [hself]; exact hroom)
  have hhost : isHost q = true := by simp [isHost, hq.host]
  let pend := !(snpsOf m.filters[t] (wLine q.w)).isEmpty
  refine ⟨_, granted_putEnt q t g way pend (onFilter t (unkeep (wLine q.w)) m), ?_⟩
  simp only [filtUpdate, hbroadcast, hq.live, hhost, hentry, hkept, Bool.not_true, Bool.or_self, Bool.false_eq_true, if_false]
  rcases hread with hread | hread <;> simp only [hread] <;> cases g
  case inl.none | inr.none => exact absurd rfl hg
  all_goals
    refine (if_pos rfl).trans ((hput _).trans ?_)
    unfold soleEntry
    cases q.port <;> rfl

end

/-! ### The answer with data (R224, R415) -/

/-- Of the labels' counts an answer with data changes the read bytes of its own (R415). -/
theorem PlainRequest.sendData_labels {q : MReq} {m : Mod} (hq : PlainRequest q) (hconf : (m.ports.get q.port).conflicts = [])
    (hup : portDown m q.port = false) (d : Sector) (poison : Bool) (g : Grant) :
    (sendData q d poison g m).labels = (countRead q m).labels := by
  obtain ⟨perf, hcounted⟩ := perfCount_eq (countRead q m) (halfPage q.port) (perfReq 7 (wLabel q.w).toNat (wKey q.w) (wOff q.w)) none
  obtain ⟨held, hretire⟩ := hq.retire_eq (m := send (.memData q.port q.tag d poison g) { countRead q m with perf := perf }) hconf
  have hsend : sendData q d poison g m = retire q (send (.memData q.port q.tag d poison g) { countRead q m with perf := perf }) := by
    rw [← hcounted]
    simp only [sendData, hq.live, hq.host, hup, Bool.false_eq_true, if_false]
    rfl
  rw [hsend, hretire]
  rfl

theorem countRead_rd (q : MReq) (m : Mod) : ((countRead q m).labels[(wLabel q.w).toNat]'(wLabel q.w).isLt).rd =
    (m.labels[(wLabel q.w).toNat]'(wLabel q.w).isLt).rd + 64 := by
  simp [countRead, onLabel]

/-! ### A read from its home slice to its answer (R193, R224) -/

/-- The line that a read has used is the most recently used of its set (R193). -/
def usedLine (l : Line) : Line := { l with rrpv := 0 }

/-- The line of a request, under its key id and with the sector asked for (R200). -/
structure SectorHere (q : MReq) (r : BitVec 128) (l : Line) (m : Mod) : Prop where
  line : findLine m.slices[rgTile r] 0 (wOff q.w) = some l
  key : l.keyId = wKey q.w
  valid : l.svalid.getLsbD (wOff q.w / 64 % 4) = true

/-- A read that hits: its line has been used, the filter takes the grant, and the sector is sent. -/
theorem serveRead_of_hit {q : MReq} {r : BitVec 128} {l : Line} {m : Mod} {g : Grant} (h : SectorHere q r l m)
    (hgrant : grantOf m.filters[rgTile r] q = g) (retry : MReq → Mod → Mod) :
    ∃ perf, serveRead retry false (rgTile r) r q m = sendData q (sectorOf l.data (wOff q.w / 64 % 4)) l.poison g
      (filtUpdate (rgTile r) q g { onSlice (rgTile r) (putLine (usedLine l)) m with perf := perf }) := by
  obtain ⟨perf, hcounted⟩ : ∃ perf, hitMiss (rgTile r) q 5 false (onSlice (rgTile r) (putLine (usedLine l)) m) =
    { onSlice (rgTile r) (putLine (usedLine l)) m with perf := perf } := perfCount_eq ..
  have hrekey : rekey (rgTile r) (wOff q.w) (wKey q.w) m = m := by simp only [rekey, h.line, h.key, true_or, if_true]
  have hkey : (l.keyId != wKey q.w) = false := by simp [h.key]
  refine ⟨perf, ?_⟩
  rw [← hcounted, ← hgrant]
  simp only [serveRead, hrekey, h.line, hkey, h.valid, Bool.not_true, Bool.or_self, Bool.false_eq_true, if_false]
  rw [deliver, ← usedLine, hcounted]
  rfl

/-- A read that hits a sector of a line that no port holds: the sector returns with its row's grant, which the filter records. -/
theorem AtHome.serve_read {q : MReq} {r : BitVec 128} {l : Line} {m : Mod} (h : AtHome q r m) (hq : PlainRequest q)
    (hread : q.kind = .memRd ∨ q.kind = .memRdData) (hhit : SectorHere q r l m)
    (hways : soleGrant q ≠ .none → (setEnts m.filters[rgTile r] (filtSet (wLine q.w))).length < 15) :
    ∃ filters perf, (soleGrant q = .none → filters = m.filters) ∧ (soleGrant q ≠ .none → granted q (rgTile r) (soleGrant q) filters) ∧
      serve false q m = sendData q (sectorOf l.data (wOff q.w / 64 % 4)) l.poison (soleGrant q)
        { onSlice (rgTile r) (putLine (usedLine l)) m with filters := filters, perf := perf } := by
  have hchanges : reloadChanges m (wOff q.w) = false := by simp [reloadChanges, h.reload]
  have heffective : effective m q = q := by simp [effective, hchanges]
  have hmirrored : isMirrored q = false := by simp [isMirrored, hq.host]
  have hwrite : isWrite q = false := by rcases hread with hread | hread <;> simp [isWrite, hread]
  have hahead : aheadSnp m.filters[rgTile r] q = false := by simp only [aheadSnp, hwrite, Bool.and_false, Bool.false_and]
  have hsnp : blockedSnp m (rgTile r) q = false := by simp only [blockedSnp, snpsOf, h.snps, h.waiters]; rfl
  have hfill : blockedFill m (rgTile r) q = false := by simp only [blockedFill, h.miss]; rfl
  have hline : blockedLine m (rgTile r) q = false := h.service
  have hneed : needSnp m.filters[rgTile r] q = [] := by simp only [needSnp, h.entry, h.broadcast]; simp
  have hqueue : wayQueue m.filters[rgTile r] (filtSet (wLine q.w)) = false := by simp only [wayQueue, h.waiters, List.any_nil]
  have hwayless : wayless m.filters[rgTile r] (wLine q.w) = true := by simp only [wayless, h.entry, keptWay, h.resv]; rfl
  have hgrantOf := grantOf_of_no_entry hq h.broadcast h.entry
  have hwants : wantsEntry m.filters[rgTile r] q = (soleGrant q != .none) := by
    rcases hread with hread | hread <;> simp only [wantsEntry, h.broadcast, hq.live, isHost, hq.host, hread, hgrantOf] <;> rfl
  rw [serve, if_pos h.aper, serveMem]
  simp only [h.region, hq.fresh, h.alive, hchanges, heffective, hmirrored, hq.asked, hahead, hsnp, hfill, hline, hneed, hqueue, hwants,
    hwayless, h.broadcast, Bool.and_true, Bool.false_and, Bool.or_self, Bool.false_eq_true, if_false]
  split
  case isTrue hstays =>
    have hnone : soleGrant q = .none := by simpa using hstays
    obtain ⟨perf, hserve⟩ := serveRead_of_hit hhit hgrantOf (fun q m => serveMem 7 true q m)
    have hupdate := filtUpdate_of_read_none (t := rgTile r) (m := { onSlice (rgTile r) (putLine (usedLine l)) m with perf := perf }) hread h.resv
    refine ⟨m.filters, perf, fun _ => rfl, fun hg => absurd hnone hg, ?_⟩
    rw [hnone] at hserve ⊢
    rw [hupdate] at hserve
    rcases hread with hread | hread <;> simp only [hread] <;> exact hserve
  case isFalse hway =>
    have hgrant : soleGrant q ≠ .none := fun hnone => hway (by simp [hnone])
    obtain ⟨way, hfree⟩ := Option.isSome_iff_exists.1 (freeWay_isSome h.resv (Nat.lt_succ_of_lt (hways hgrant)))
    have hslot := filters_onFilter_self (rgTile r) (keepWay (wLine q.w) way) m
    have hkept : ((onFilter (rgTile r) (keepWay (wLine q.w) way) m).filters[rgTile r] : FilterSt).broadcast = false := by rw [hslot]; exact h.broadcast
    obtain ⟨perf, hserve⟩ := serveRead_of_hit (m := onFilter (rgTile r) (keepWay (wLine q.w) way) m) ⟨hhit.line, hhit.key, hhit.valid⟩
      (grantOf_of_no_entry hq hkept (by rw [hslot]; exact h.entry)) (fun q m => serveMem 7 true q m)
    obtain ⟨filters, hgranted, hupdate⟩ := filtUpdate_of_read (t := rgTile r) (way := way)
      (m := { onSlice (rgTile r) (putLine (usedLine l)) (onFilter (rgTile r) (keepWay (wLine q.w) way) m) with perf := perf }) hread hq hkept
      (hslot ▸ h.entry) (hslot ▸ by simp only [keepWay, h.resv]) hgrant (hslot ▸ hways hgrant)
    refine ⟨filters, perf, fun hnone => absurd hnone hgrant, fun _ => hgranted, ?_⟩
    rw [hupdate] at hserve
    rcases hread with hread | hread <;> simp only [hfree, hread, hkept, Bool.false_and, Bool.false_eq_true, if_false] <;> exact hserve

/-! ### A read from its port to its answer -/

/-- A host's read that meets no obstacle is served at its home slice as the last of its port's tracker, with no bytes counted yet. -/
theorem track_of_read {q : MReq} {r : BitVec 128} {s : State} (h : meets q r s) (hq : PlainRequest q) (hbad : q.bad = false)
    (hwrite : isWrite q = false) : ∃ (perf : Vector PerfPage 7) (x : Mod), x = { tracked q (touch s.m) with perf := perf } ∧
      AtHome q r x ∧ Awaited q (s.m.ports.get q.port).tracker x ∧ track q (arrived q s.m) = serve false q x := by
  have hhome := atHome_of_meets h
  obtain ⟨⟨-, hdecodes, hrun, -, -, -, hconf⟩, -, -, hviral, -, hnew, hsnps, -⟩ := h
  have hup : portDown s.m q.port = false := portDown_of_memDecodes hdecodes
  obtain ⟨perf, harrived⟩ : ∃ perf, arrived q s.m = { touch s.m with perf := perf } := perfCount_eq ..
  have htracked : AtHome q r (tracked q { touch s.m with perf := perf }) := hhome.frame _ _ _ _ hrun (by simpa using hviral)
  have hcount : ∀ x, countWrite q x = x := fun x => by simp [countWrite, hwrite]
  refine ⟨perf, _, rfl, htracked, ⟨?up, ?conf, ?tracker, hnew⟩, ?track⟩
  case up => simpa [portDown, tracked] using hup
  case conf => simpa [tracked] using hconf
  case tracker => simp [tracked]
  case track =>
    rw [harrived, track_of_no_snp (m := { touch s.m with perf := perf }) hsnps hq.good, htracked.route_eq hq.host hbad, hcount]
    rfl

section
variable {q : MReq} (hq : PlainRequest q) (hread : q.kind = .memRd ∨ q.kind = .memRdData) (hgood : q.bad = false)
include hq hread hgood

/-- The credit and the sector are sent, the port's tracker is as it was, and beside the counts the line and the filter alone change. -/
theorem receive_of_read {r : BitVec 128} {l : Line} {s : State} (h : meets q r s) (hways : waysFree q r s) (hhit : SectorHere q r l s.m) :
    ∃ (p : PortSt) (labels : Vector LabelSt 8) (perf : Vector PerfPage 7) (bw : Two BwWindow) (power : PowerSt)
      (filters : Vector FilterSt 4), p.tracker = (s.m.ports.get q.port).tracker ∧
      (labels[(wLabel q.w).toNat]'(wLabel q.w).isLt).rd = (s.m.labels[(wLabel q.w).toNat]'(wLabel q.w).isLt).rd + 64 ∧
      (soleGrant q = .none → filters = s.m.filters) ∧ (soleGrant q ≠ .none → granted q (rgTile r) (soleGrant q) filters) ∧
      receive q s.m = { s.m with
        ports := s.m.ports.set q.port p
        out := .memData q.port q.tag (sectorOf l.data (wOff q.w / 64 % 4)) l.poison (soleGrant q) :: .credit q.port 0 :: s.m.out
        slices := s.m.slices.set (rgTile r) (putLine (usedLine l) s.m.slices[rgTile r])
        labels := labels, perf := perf, bw := bw, power := power, filters := filters } := by
  have hwrite : isWrite q = false := by rcases hread with hread | hread <;> simp [isWrite, hread]
  obtain ⟨perf, x, hx, hhome, hwait, htrack⟩ := track_of_read h hq hgood hwrite
  have hhit' : SectorHere q r l x := ⟨by rw [hx]; exact hhit.line, hhit.key, hhit.valid⟩
  obtain ⟨filters, perf', hkept, hgranted, hserve⟩ := hhome.serve_read hq hread hhit' (by rw [hx]; exact hways)
  let y : Mod := { onSlice (rgTile r) (putLine (usedLine l)) x with filters := filters, perf := perf' }
  obtain ⟨held, labels, perf'', bw, hsent⟩ :=
    hq.sendData_eq (m := y) hwait.conflicts hwait.up (sectorOf l.data (wOff q.w / 64 % 4)) l.poison (soleGrant q)
  have hlabels := hq.sendData_labels (m := y) hwait.conflicts hwait.up (sectorOf l.data (wOff q.w / 64 % 4)) l.poison (soleGrant q)
  have hrd := countRead_rd q y
  rw [← hlabels, hsent] at hrd
  have htracker : (retired q held (x.ports.get q.port)).tracker = (s.m.ports.get q.port).tracker := by
    simp only [retired, hwait.tracker, untracked_append hwait.fresh]
  have hheld : (retired q held (x.ports.get q.port)).rxBuf = (s.m.ports.get q.port).rxBuf := by simp [retired, hx, tracked]
  have hreceive := receive_of_meets h
  obtain ⟨⟨-, -, -, -, hrxA, hrxB, -⟩, -⟩ := h
  have hnone : ∀ u, ((s.m.ports.set q.port (retired q held (x.ports.get q.port))).get u).rxBuf = [] := fun u => by
    rw [Two_get_set_of_eq PortSt.rxBuf hheld]; cases u <;> assumption
  refine ⟨retired q held (x.ports.get q.port), labels, perf'', bw, (touch s.m).power, filters, htracker, ?rd, ?kept, hgranted, ?eq⟩
  case rd => rw [hrd]; subst hx; rfl
  case kept => rw [hx] at hkept; exact hkept
  case eq =>
    rw [hreceive, htrack, hserve, hsent]
    subst hx
    simp only [y, tracked, onPort, onSlice, send, Two_set_set, Two_get_set, hwrite, Bool.false_eq_true, if_false] at hnone ⊢
    exact answers_of_none_held hnone

theorem readHits_of_plainRequest {c : Instr} (hc : ∀ s, exec c s = .next (onMod (receive q) s)) (r : BitVec 128) (s : State) :
    readHits c q r s := by
  intro l hmeets hways ⟨hline, hkey, hvalid⟩
  obtain ⟨p, labels, perf, bw, power, filters, htracker, hrd, hkept, hgranted, hreceive⟩ :=
    receive_of_read hq hread hgood hmeets hways ⟨hline, hkey, hvalid⟩
  obtain ⟨⟨hpowered, -⟩, -⟩ := hmeets
  have htrackers := Two_get_set_of_eq PortSt.tracker htracker
  refine completes_of_onMod (receive q) (hc s) hpowered ?_
  rw [hreceive]
  refine ⟨⟨htrackers .a, htrackers .b, _, _, _, _, _, _, _, _, rfl⟩, rfl, rfl, hrd, hkept, fun hgrant => ?_⟩
  obtain ⟨way, pend, hfound⟩ := hgranted hgrant
  exact ⟨_, hfound, entPres_soleEntry .., entPres_other_soleEntry .., entKey_soleEntry .., entLabel_soleEntry .., rfl⟩

end

/-- Settles O27: a read meets nothing before the filter, which has a way for its grant, and its sector leaves from the line that it hits;
MemRdData without a MetaValue is the MemRd that it is served as. -/
theorem readsThatHitReturnTheSector : Obligations.ReadsThatHitReturnTheSector := by
  refine ⟨fun r => readHits_of_plainRequest (plainRequest_ofReq ..) (.inl rfl) rfl (fun _ => rfl), fun r g s hmv => ?data, fun r g s hmv => ?plain⟩
  case data =>
    have hkind : (r.mv == .noOp) = false := by simpa using hmv
    refine readHits_of_plainRequest (plainRequest_ofReq ..) (.inr rfl) rfl (fun s => ?_) g s
    change execMemRdData r s = _
    simp only [execMemRdData, hkind, Bool.false_eq_true, if_false]
    rfl
  case plain =>
    refine readHits_of_plainRequest (plainRequest_ofReq ..) (.inl rfl) rfl (fun s => ?_) g s
    change execMemRdData r s = _
    simp only [execMemRdData, hmv, BEq.rfl, if_true]
    rfl

end Sys2Proof.Machine
end

