-- ==== Sys2Proof/Proofs/DeepSleep.lean ====
section
/-! PROOFS. Deep sleep (O54): the request over the sideband, what an exit from a power state keeps through events and completions, and
the end of each phase of the exit. -/
namespace Sys2Proof.Machine

open Sys2Proof.Stmt

/-! ### The request (R491, R497) -/

/-- REQ and RETAIN of the word that PM_DEEP_SLEEP_REQUEST writes. -/
theorem pmDeep_fields : ∀ r : BitVec 4, bitsOf (BitVec.ofNat 64 (2 + 4 * r.toNat)) 0 2 = 2#2 ∧ bitsOf (BitVec.ofNat 64 (2 + 4 * r.toNat)) 2 4 = r := by
  decide

theorem regWrite_pmCtl_deep (r : BitVec 4) (m : Mod) : regWrite .sideband 0xA0308 8 (BitVec.ofNat 64 (2 + 4 * r.toNat)) m = pmDeep r m := by
  obtain ⟨hreq, hretain⟩ := pmDeep_fields r
  rw [regWrite_assigned (by decide) rfl]
  simp [refuses, pmCtl, hreq, hretain]

theorem pmRequest_deep_of_run (r : BitVec 4) {m : Mod} (hir : m.conn.ir ≠ 3) (hrun : m.power.state = 0) : pmRequest 2 r m = pmDeep r m := by
  have hpins : pinsHeld m = false := by simpa [pinsHeld] using hir
  have hword : ofBytes 64 (toBytes (BitVec.ofNat 64 (2 + 4 * r.toNat)) 8) = BitVec.ofNat 64 (2 + 4 * r.toNat) := by
    rw [ofBytes, leNat_toBytes, Nat.mod_eq_of_lt (BitVec.isLt _), BitVec.ofNat_toNat, BitVec.setWidth_eq]
  have hgood : hdrBad 0x040A0308#32 = false := by decide
  have hoff : hdrOffset 0x040A0308#32 = 0xA0308 := by decide
  have hsize : hdrSize 0x040A0308#32 = 8 := by decide
  have hup : blocksUp m = true := by simp [blocksUp, hrun]
  simp only [pmRequest, sidebandWrite, hpins, wake_of_run _ m hrun, hgood, hoff, hsize, toBytes_length, bne_self_eq_false, Bool.or_self,
    Bool.false_eq_true, if_false, sideWrite, sideAccess, hup, if_true, hword, regWrite_pmCtl_deep]

/-- Whether Deep sleep may be entered (R491): both ports are in reset, nothing runs that Sleep would break, and every mirrored region is
in a tile that the request retains. -/
def deepAllowed (r : BitVec 4) (m : Mod) : Bool := m.ports.a.inReset && m.ports.b.inReset && sleepOk m && mirrorsRetained r m

/-- The module as the entry begins, before its flush. -/
def deepEntered (r : BitVec 4) (m : Mod) : Mod := { m with power := { m.power with retain := r, state := 4, target := 3, phase := 0 } }

theorem pmDeep_of_refused {r : BitVec 4} {m : Mod} (h : deepAllowed r m = false) :
    pmDeep r m = { m with power := { m.power with retain := r, entry := 3 } } := if_neg (by rw [← Bool.not_eq_true] at h; exact h)

theorem pmDeep_of_allowed {r : BitVec 4} {m : Mod} (h : deepAllowed r m = true) : pmDeep r m = enterDeep (setRetain r m) := if_pos h

theorem drainFilter_of_empty {t : Tile} {m : Mod} (h : (m.filters[t] : FilterSt).entries = []) : drainFilter t m = m := by
  simp only [drainFilter, h, List.filter_nil, List.foldl_nil]

/-- Without an epoch and with an empty filter the entry goes straight to its flush. -/
theorem enterDeep_of_idle {m : Mod} (hlink : m.gang.link ≤ 1) (hempty : ∀ t : Tile, (m.filters[t] : FilterSt).entries = []) :
    enterDeep m = beginFlush { m with power := { m.power with state := 4, target := 3, phase := 0 } } := by
  have hepoch : epochEnd 8 false m = m := by
    have hdown : (decide (m.gang.link < 2) || (m.gang.link == 2 && m.gang.change.isNone)) = true := by
      simp [show m.gang.link < 2 by omega]
    simp only [epochEnd, hdown, if_true]
  have hgang : onGang (fun g => { g with link := min g.link 1 }) m = m := by simp only [onGang, Nat.min_eq_left hlink]
  simp only [enterDeep, hepoch, hgang]
  rw [foldl_of_fixed _ fun t _ => drainFilter_of_empty (hempty t)]

theorem flushPass_of_empty {t : Tile} {m : Mod} (hlines : (m.slices[t] : Slice).lines = []) (htransits : (m.slices[t] : Slice).transits = []) :
    flushPass t m = m := by
  unfold flushPass
  split
  · exact onSlice_of_fixed (by rw [← hlines]; simp only [← htransits])
  · exact flushSel_of_none fun l hl => by rw [hlines] at hl; cases hl

/-- A flush of empty slices begins, and has nothing to send. -/
theorem beginFlush_of_empty {m : Mod} (h : ∀ t : Tile, (m.slices[t] : Slice).lines = [] ∧ (m.slices[t] : Slice).transits = []) :
    beginFlush m = { m with slices := m.slices.map (fun (x : Slice) => { x with flush := true }) } := by
  have hslice : ∀ t : Tile, ((m.slices.map (fun (x : Slice) => { x with flush := true }))[t] : Slice) = { (m.slices[t] : Slice) with flush := true } :=
    fun t => Vector.getElem_map ..
  refine foldl_of_fixed _ fun t _ => flushPass_of_empty ?_ ?_
  · exact (congrArg Slice.lines (hslice t)).trans (h t).1
  · exact (congrArg Slice.transits (hslice t)).trans (h t).2

theorem completes_deepSleepRequest (r : BitVec 4) {s : State} {P : Mod → Prop} (hp : s.fe.powered = true) (hir : s.m.conn.ir ≠ 3)
    (hrun : s.m.power.state = 0) (hP : P (pmDeep r s.m)) : completes (.pmDeepSleepRequest r) s P :=
  completes_of_onMod (pmRequest 2 r) rfl hp (by rwa [pmRequest_deep_of_run r hir hrun])

/-! ### The end of the entry (R486, R491) -/

/-- The module after the commit of its entry, with what the removal of power has lost. -/
def asleep (m : Mod) : Mod :=
  { darken m with power := { m.power with
      state := 3, entry := 1, entries := m.power.entries + 1, target := 0, phase := 0, retained := m.power.retain, ready := 0, wakePend := false } }

theorem completes_deepSleepEntryDone {s : State} {P : Mod → Prop} (hp : s.fe.powered = true) (hstate : s.m.power.state = 4)
    (htarget : s.m.power.target = 3) (hphase : s.m.power.phase = 1) (hwake : s.m.power.wakePend = false) (hP : P (asleep s.m)) :
    completes .deepSleepEntryDone s P := by
  refine completes_of_onMod _ rfl hp ?_
  have hcommit : (if s.m.slices.any (·.flush) then s.m else committed s.m) = s.m := by simp [committed, hphase]
  simp only [hstate, htarget, hphase, ne_eq, not_true_eq_false, or_self, if_false, Nat.one_ne_zero, hcommit]
  simpa [entryDone, darken, hwake, asleep] using hP

theorem asleep_power {m : Mod} (hwake : m.power.wakePend = false) : (asleep m).power = { m.power with
    state := 3, entry := 1, entries := m.power.entries + 1, target := 0, phase := 0, retained := m.power.retain, ready := 0 } := by
  simp only [asleep, hwake]

theorem asleep_tile (m : Mod) (t : Tile) : ((asleep m).slices[t] : Slice).lines = [] ∧
    ((asleep m).slices[t] : Slice).disabled = (m.slices[t] : Slice).disabled ∧ ((asleep m).filters[t] : FilterSt).entries = [] := by
  have hslice : (asleep m).slices[t] = darkSlice m.slices[t] := Vector.getElem_map ..
  have hfilter : (asleep m).filters[t] = darkFilter m.filters[t] := Vector.getElem_map ..
  rw [hslice, hfilter]
  exact ⟨rfl, rfl, rfl⟩

theorem asleep_port (m : Mod) (p : Port) :
    ((asleep m).ports.get p).inReset = (m.ports.get p).inReset ∧ ((asleep m).ports.get p).err = (m.ports.get p).err := by
  cases p <;> exact ⟨rfl, rfl⟩

/-! ### What an exit keeps -/

/-- The power state of an exit from Deep sleep is left as it is, but for the time of the last work. -/
structure ExitGoesOn (m m' : Mod) : Prop where
  power : m.power.state = 5 → ∃ at_, m'.power = { m.power with workAt := at_ }

theorem exitGoesOn_of_power_eq {m m' : Mod} (h : m'.power = m.power) : ExitGoesOn m m' := ⟨fun _ => ⟨m.power.workAt, h⟩⟩

theorem exitGoesOn_refl (m : Mod) : ExitGoesOn m m := exitGoesOn_of_power_eq rfl

theorem exitGoesOn_trans (a b c : Mod) (h : ExitGoesOn a b) (k : ExitGoesOn b c) : ExitGoesOn a c where
  power hstate := by
    obtain ⟨at1, hb⟩ := h.power hstate
    obtain ⟨at2, hc⟩ := k.power (by rw [hb]; exact hstate)
    exact ⟨at2, by rw [hc, hb]⟩

theorem touch_exitGoesOn (m : Mod) : ExitGoesOn m (touch m) := ⟨fun _ => ⟨m.tb.now, rfl⟩⟩

/-- During an exit no wake cause has an effect (R493, R495). -/
theorem wake_of_exit (c : Nat) {m : Mod} (h : m.power.state = 5) : wake c m = m := by simp [wake, h]

theorem raiseAt_exitGoesOn (fr : Word32) (k : BitVec 16) (sv : Nat) (l : Word32) (d : Word64) (m : Mod) : ExitGoesOn m (raiseAt fr k sv l d m) := by
  unfold raiseAt
  extract_lets events sev uart flash logged entry queued counted
  have huart : uart.power = m.power := by simp only [uart]; split <;> rfl
  have hlogged : logged.power = m.power := by rw [← huart]; simp only [logged]; split <;> rfl
  have hcounted : counted.power = m.power := by rw [← hlogged]; exact perfCount_power ..
  split_ifs
  · exact ⟨fun hstate => ⟨m.power.workAt, by rw [wake_of_exit 8 (by rw [hcounted]; exact hstate), hcounted]⟩⟩
  · exact exitGoesOn_of_power_eq hcounted
  · exact exitGoesOn_of_power_eq (by rw [perfCount_power]; exact hlogged)

theorem event_exitGoesOn (k : BitVec 16) (l : Word32) (d : Nat) (m : Mod) : ExitGoesOn m (event k l d m) :=
  raiseAt_exitGoesOn _ _ _ _ _ m

/-! ### Rings are no part of the power state -/

@[simp] theorem onRing_power (p : Port) (r : Nat) (f : Ring → Ring) (m : Mod) : (onRing p r f m).power = m.power := rfl

@[simp] theorem d2hSend_power (p : Port) (k a : Nat) (m : Mod) : (d2hSend p k a m).power = m.power := by unfold d2hSend; split_ifs <;> rfl

@[simp] theorem itoMWr_power (p : Port) (w : OpenWrite) (m : Mod) : (itoMWr p w m).power = m.power := by
  unfold itoMWr
  dsimp only
  split_ifs
  · rfl
  · rfl
  · rw [perfCount_power, d2hSend_power]; rfl

@[simp] theorem ringFlush_power (k : Nat) (p : Port) (r : Nat) (m : Mod) : (ringFlush k p r m).power = m.power := by
  induction k generalizing m with
  | zero => rfl
  | succ k ih =>
    unfold ringFlush
    dsimp only
    split
    · rfl
    · split
      · rw [drainRing]; split <;> rfl
      · split
        · rfl
        · split
          · rw [ih, itoMWr_power]; rfl
          · rfl

theorem ringPost_exitGoesOn (p : Port) (r : Nat) (e : RawEntry) (m : Mod) : ExitGoesOn m (ringPost p r e m) := by
  unfold ringPost
  dsimp only
  split
  · exact ⟨fun _ => ⟨m.tb.now, by rw [ringFlush_power]; rfl⟩⟩
  · exact exitGoesOn_refl m

theorem issueRead_exitGoesOn (p : Port) (r : Nat) (c : Word32) (m : Mod) : ExitGoesOn m (issueRead p r c m) := by
  unfold issueRead
  exact exitGoesOn_trans _ _ _ (exitGoesOn_of_power_eq (by simp)) (touch_exitGoesOn _)

theorem fetchLoop_exitGoesOn (k : Nat) (p : Port) (m : Mod) : ExitGoesOn m (fetchLoop k p m) := by
  induction k generalizing m with
  | zero => exact exitGoesOn_refl m
  | succ k ih =>
    unfold fetchLoop
    dsimp only
    split
    · exact exitGoesOn_refl m
    · split
      · exact exitGoesOn_refl m
      · refine exitGoesOn_trans _ _ _ (exitGoesOn_trans _ _ _ (exitGoesOn_of_power_eq ?_) (issueRead_exitGoesOn ..)) (ih _)
        split <;> split <;> rfl

theorem fetchPump_exitGoesOn (m : Mod) : ExitGoesOn m (fetchPump m) := by
  unfold fetchPump
  refine foldl_rel ExitGoesOn exitGoesOn_refl exitGoesOn_trans _ (fun b _ => ?_) _ m
  split
  · exact exitGoesOn_refl b
  · exact exitGoesOn_trans _ _ _ (fetchLoop_exitGoesOn ..) (fetchLoop_exitGoesOn ..)

theorem done_exitGoesOn (c : AdminTag) (code : Nat) (m : Mod) : ExitGoesOn m (done c code m) := by
  unfold done complete
  dsimp only
  split
  · exact exitGoesOn_refl m
  · split
    · exact exitGoesOn_of_power_eq rfl
    · refine exitGoesOn_trans _ _ _ (exitGoesOn_trans _ _ _ (exitGoesOn_of_power_eq ?_) (ringPost_exitGoesOn ..)) (fetchPump_exitGoesOn _)
      rfl

/-! ### What the phases of an exit keep -/

/-- The steps of an exit keep its power state, the batts, the tiles that are filled, the timebase, the shutdown and the held requests. -/
structure ExitKeeps (m m' : Mod) : Prop where
  power : ExitGoesOn m m'
  mem : m'.mem = m.mem
  filling : m'.filling = m.filling
  tb : m'.tb = m.tb
  therm : m'.therm = m.therm
  prot : m'.prot = m.prot

theorem exitKeeps_refl (m : Mod) : ExitKeeps m m := ⟨exitGoesOn_refl m, rfl, rfl, rfl, rfl, rfl⟩

theorem exitKeeps_trans (a b c : Mod) (h : ExitKeeps a b) (k : ExitKeeps b c) : ExitKeeps a c :=
  ⟨exitGoesOn_trans _ _ _ h.power k.power, k.mem.trans h.mem, k.filling.trans h.filling, k.tb.trans h.tb, k.therm.trans h.therm,
    k.prot.trans h.prot⟩

theorem exitKeeps_of_ringsOnly {m m' : Mod} (hrings : ringsOnly m m') (hpower : ExitGoesOn m m') : ExitKeeps m m' := by
  obtain ⟨_, _, _, _, _, _, _, _, _, rfl⟩ := hrings
  exact ⟨hpower, rfl, rfl, rfl, rfl, rfl⟩

theorem event_exitKeeps (k : BitVec 16) (l : Word32) (d : Nat) (m : Mod) : ExitKeeps m (event k l d m) :=
  exitKeeps_of_ringsOnly (reports_ringsOnly (event_reports ..)) (event_exitGoesOn ..)

theorem done_exitKeeps (c : AdminTag) (code : Nat) (m : Mod) : ExitKeeps m (done c code m) :=
  exitKeeps_of_ringsOnly (done_ringsOnly ..) (done_exitGoesOn ..)

theorem onSlice_exitKeeps (t : Tile) (f : Slice → Slice) (m : Mod) : ExitKeeps m (onSlice t f m) :=
  ⟨exitGoesOn_of_power_eq rfl, rfl, rfl, rfl, rfl, rfl⟩

theorem healthWay_exitKeeps (t : Tile) (way : Nat) (v : Bool) (m : Mod) : ExitKeeps m (healthWay t way v m) :=
  ⟨exitGoesOn_of_power_eq rfl, rfl, rfl, rfl, rfl, rfl⟩

theorem passCheck_exitKeeps (t : Tile) (m : Mod) : ExitKeeps m (passCheck t m) := by
  unfold passCheck
  dsimp only
  split
  · exact exitKeeps_trans _ _ _ (onSlice_exitKeeps ..) (event_exitKeeps ..)
  · exact onSlice_exitKeeps ..

theorem wayBack_exitKeeps (t : Tile) (way : Nat) (m : Mod) : ExitKeeps m (wayBack t way m) := by
  unfold wayBack
  dsimp only
  have hback := fun f => exitKeeps_trans _ _ _ (exitKeeps_trans _ _ _ (onSlice_exitKeeps t f m) (healthWay_exitKeeps t way false _))
    (passCheck_exitKeeps t _)
  cases (m.slices[t] : Slice).test with
  | none => exact hback _
  | some x => exact exitKeeps_trans _ _ _ (hback _) (done_exitKeeps ..)

theorem tileSwept_exitKeeps (t : Tile) (m : Mod) : ExitKeeps m (tileSwept t m) := by
  unfold tileSwept
  split
  · exact exitKeeps_refl m
  · split
    · exact exitKeeps_trans _ _ _ (onSlice_exitKeeps ..) (wayBack_exitKeeps ..)
    · exact exitKeeps_trans _ _ _ (onSlice_exitKeeps ..) (onSlice_exitKeeps ..)

theorem sweepEnd_exitKeeps (m : Mod) : ExitKeeps m (sweepEnd m) :=
  foldl_rel ExitKeeps exitKeeps_refl exitKeeps_trans _ (fun m t => tileSwept_exitKeeps t m) _ m

/-- The locks of one tile that Deep sleep has lost (R216). -/
def tileLocksLost (t : Tile) (m : Mod) : Mod :=
  let l := (m.slices[t] : Slice).locked
  let m := passCheck t (onSlice t (fun s => { s with locked := 0 }) m)
  if l = 0 then m else event 0x0403 0 (t.val + l.toNat * 4) m

theorem tileLocksLost_exitKeeps (t : Tile) (m : Mod) : ExitKeeps m (tileLocksLost t m) := by
  have hlocks := exitKeeps_trans _ _ _ (onSlice_exitKeeps t (fun s => { s with locked := 0 }) m) (passCheck_exitKeeps t _)
  unfold tileLocksLost
  dsimp only
  split
  · exact hlocks
  · exact exitKeeps_trans _ _ _ hlocks (event_exitKeeps ..)

theorem locksLost_exitKeeps (m : Mod) : ExitKeeps m (locksLost m) :=
  foldl_rel ExitKeeps exitKeeps_refl exitKeeps_trans _ (fun m t => tileLocksLost_exitKeeps t m) _ m

theorem filtersUp_exitKeeps (m : Mod) : ExitKeeps m (filtersUp m) := ⟨exitGoesOn_of_power_eq rfl, rfl, rfl, rfl, rfl, rfl⟩

theorem channelMark_exitKeeps (pk : Pack) (pos cause : Nat) (m : Mod) : ExitKeeps m (channelMark pk pos cause m) := by
  unfold channelMark
  refine exitKeeps_trans _ _ _ ?_ (event_exitKeeps ..)
  exact ⟨exitGoesOn_of_power_eq rfl, rfl, rfl, rfl, rfl, rfl⟩

theorem trainPacks_exitKeeps (packs : List Pack) (m : Mod) : ExitKeeps m (trainPacks packs m) := by
  have htaken : ExitKeeps m { m with free := m.free + 1 } := ⟨exitGoesOn_of_power_eq rfl, rfl, rfl, rfl, rfl, rfl⟩
  refine exitKeeps_trans _ _ _ htaken (foldl_rel ExitKeeps exitKeeps_refl exitKeeps_trans _ (fun m x => ?_) _ _)
  have hregs : ExitKeeps m (recordRegs x.1 x.2 m) := ⟨exitGoesOn_of_power_eq rfl, rfl, rfl, rfl, rfl, rfl⟩
  dsimp only
  split
  · exact exitKeeps_trans _ _ _ hregs (channelMark_exitKeeps ..)
  · exact hregs

/-! ### Locks and sweeps of the slices -/

/-- The locked ways of a slice, and whether it sweeps. -/
def locksAndSweep (s : Slice) : BitVec 16 × Bool := (s.locked, s.sweep)

theorem locksAndSweep_ringsOnly {m m' : Mod} (h : ringsOnly m m') (u : Tile) :
    locksAndSweep m'.slices[u] = locksAndSweep m.slices[u] := by
  obtain ⟨f, hslice⟩ := ringsOnly_slice h u
  rw [hslice]
  rfl

theorem locksAndSweep_onSlice (t u : Tile) (f : Slice → Slice) (m : Mod) : locksAndSweep ((onSlice t f m).slices[u] : Slice) =
    if u = t then locksAndSweep (f m.slices[u]) else locksAndSweep m.slices[u] := by
  split
  next hut => rw [hut, slices_onSlice_self]
  next hut => rw [slices_onSlice_of_ne hut]

/-- A change of one slice that keeps its locks and its sweep keeps those of all. -/
theorem locksAndSweep_onSlice_of_kept {f : Slice → Slice} (h : ∀ s, locksAndSweep (f s) = locksAndSweep s) (t u : Tile) (m : Mod) :
    locksAndSweep ((onSlice t f m).slices[u] : Slice) = locksAndSweep m.slices[u] := by
  rw [locksAndSweep_onSlice, h, ite_self]

theorem locksAndSweep_passCheck (t u : Tile) (m : Mod) : locksAndSweep ((passCheck t m).slices[u] : Slice) = locksAndSweep m.slices[u] := by
  obtain ⟨p, hreports⟩ := passCheck_onSlice t m
  rw [locksAndSweep_ringsOnly (reports_ringsOnly hreports)]
  exact locksAndSweep_onSlice_of_kept (by exact fun _ => rfl) t u m

theorem locksAndSweep_wayBack (t : Tile) (way : Nat) (u : Tile) (m : Mod) :
    locksAndSweep ((wayBack t way m).slices[u] : Slice) = locksAndSweep m.slices[u] := by
  unfold wayBack
  dsimp only
  have hback : ∀ f, (∀ s, locksAndSweep (f s) = locksAndSweep s) →
      locksAndSweep ((passCheck t (healthWay t way false (onSlice t f m))).slices[u] : Slice) = locksAndSweep m.slices[u] := fun f hf =>
    (locksAndSweep_passCheck ..).trans (locksAndSweep_onSlice_of_kept hf t u m)
  cases (m.slices[t] : Slice).test with
  | none => exact hback _ fun _ => rfl
  | some x => exact (locksAndSweep_ringsOnly (done_ringsOnly ..) u).trans (hback _ fun _ => rfl)

theorem locksAndSweep_tileSwept (m : Mod) (t u : Tile) : locksAndSweep ((tileSwept t m).slices[u] : Slice) =
    if u = t then ((m.slices[u] : Slice).locked, false) else locksAndSweep m.slices[u] := by
  have hended := locksAndSweep_onSlice t u (fun s => { s with sweep := false, oneWay := none }) m
  unfold tileSwept
  split
  next hidle =>
    split
    next hut => subst hut; exact congrArg (Prod.mk _) (by simpa using hidle)
    next => rfl
  next =>
    split
    · rw [locksAndSweep_wayBack, hended]; rfl
    · exact (locksAndSweep_onSlice_of_kept (by exact fun _ => rfl) t u _).trans hended

theorem locksAndSweep_tileLocksLost (m : Mod) (t u : Tile) : locksAndSweep ((tileLocksLost t m).slices[u] : Slice) =
    if u = t then (0, (m.slices[u] : Slice).sweep) else locksAndSweep m.slices[u] := by
  have hlost := (locksAndSweep_passCheck t u (onSlice t (fun s => { s with locked := 0 }) m)).trans
    (locksAndSweep_onSlice t u (fun s => { s with locked := 0 }) m)
  unfold tileLocksLost
  dsimp only
  split
  · exact hlost
  · exact (locksAndSweep_ringsOnly (reports_ringsOnly (event_reports ..)) u).trans hlost

/-- A change of the locks and the sweep of each tile in turn is a change of all. -/
theorem locksAndSweep_foldl {f : Mod → Tile → Mod} {g : BitVec 16 × Bool → BitVec 16 × Bool} (h : ∀ m t u,
    locksAndSweep ((f m t).slices[u] : Slice) = if u = t then g (locksAndSweep m.slices[u]) else locksAndSweep m.slices[u]) (m : Mod) (u : Tile) :
    locksAndSweep (((List.finRange 4).foldl f m).slices[u] : Slice) = g (locksAndSweep m.slices[u]) := by
  have htiles : List.finRange 4 = [0, 1, 2, 3] := by decide
  simp only [htiles, List.foldl_cons, List.foldl_nil, h]
  fin_cases u <;> rfl

theorem locksAndSweep_sweepEnd (m : Mod) (u : Tile) : locksAndSweep ((sweepEnd m).slices[u] : Slice) = ((m.slices[u] : Slice).locked, false) :=
  locksAndSweep_foldl (g := fun x => (x.1, false)) locksAndSweep_tileSwept m u

theorem locksAndSweep_locksLost (m : Mod) (u : Tile) : locksAndSweep ((locksLost m).slices[u] : Slice) = (0, (m.slices[u] : Slice).sweep) :=
  locksAndSweep_foldl (g := fun x => (0, x.2)) locksAndSweep_tileLocksLost m u

/-! ### The frame restarts (R108) -/

/-- The module with the frame at slot 0 of the variant for the band in force. -/
def variantChosen (m : Mod) : Mod :=
  let m := { m with sched := { m.sched with frameNo := m.sched.frameNo + 1 } }
  let w := selectSwap m false 1
  if w.variant != m.sched.variant then swapEffect w { m with sched := { m.sched with further := none } } else m

/-- A swap within the running set completes nothing: beside the schedule, the ports' marks and what is sent it only reports. -/
theorem swapEffect_ringsOnly {w : Swap} {m : Mod} (hnew : w.newSet = false) (hfurther : m.sched.further = none) : ∃ ports out,
    ringsOnly { m with sched := variantSwapped w m.sched, ports := ports, out := out } (swapEffect w m) ∧
      ExitGoesOn { m with sched := variantSwapped w m.sched, ports := ports, out := out } (swapEffect w m) := by
  obtain ⟨ports, out, d, hswap⟩ := swapEffect_variant hnew hfurther
  have hswap : swapEffect w m = _ := hswap
  refine ⟨ports, out, ?_⟩
  rw [hswap]
  split
  · exact ⟨reports_ringsOnly (reports_trans _ _ _ (event_reports ..) (event_reports ..)),
      exitGoesOn_trans _ _ _ (event_exitGoesOn ..) (event_exitGoesOn ..)⟩
  · exact ⟨reports_ringsOnly (event_reports ..), event_exitGoesOn ..⟩

theorem variantChosen_ringsOnly (m : Mod) : ∃ sched ports out,
    ringsOnly { m with sched := sched, ports := ports, out := out } (variantChosen m) ∧
      ExitGoesOn { m with sched := sched, ports := ports, out := out } (variantChosen m) := by
  unfold variantChosen
  dsimp only
  split
  · obtain ⟨ports, out, hrings, hpower⟩ := swapEffect_ringsOnly
      (w := selectSwap { m with sched := { m.sched with frameNo := m.sched.frameNo + 1 } } false 1)
      (m := { m with sched := { m.sched with frameNo := m.sched.frameNo + 1, further := none } }) rfl rfl
    exact ⟨_, ports, out, hrings, hpower⟩
  · exact ⟨{ m.sched with frameNo := m.sched.frameNo + 1 }, m.ports, m.out, ringsOnly_refl _, exitGoesOn_refl _⟩

theorem variantChosen_exitKeeps (m : Mod) : ExitKeeps m (variantChosen m) := by
  obtain ⟨sched, ports, out, hrings, hpower⟩ := variantChosen_ringsOnly m
  exact exitKeeps_trans m { m with sched := sched, ports := ports, out := out } _ ⟨exitGoesOn_of_power_eq rfl, rfl, rfl, rfl, rfl, rfl⟩
    (exitKeeps_of_ringsOnly hrings hpower)

theorem locksAndSweep_variantChosen (m : Mod) (u : Tile) : locksAndSweep ((variantChosen m).slices[u] : Slice) = locksAndSweep m.slices[u] := by
  obtain ⟨sched, ports, out, hrings, -⟩ := variantChosen_ringsOnly m
  exact locksAndSweep_ringsOnly hrings u

/-- The self-refresh exits of the packs go out. -/
theorem refreshExits_eq (l : List Pack) (m : Mod) : ∃ out, l.foldl (fun m p =>
    (List.range 4).foldl (fun m r => send (.dram p 0 0 (16 * r) .selfRefreshExit) m) m) m = { m with out := out } := by
  induction l generalizing m with
  | nil => exact ⟨m.out, rfl⟩
  | cons p l ih =>
    obtain ⟨out, hsent⟩ := sendAll_out (fun r : Nat => Out.dram p 0 0 (16 * r) .selfRefreshExit) (List.range 4) m
    obtain ⟨out', hrest⟩ := ih { m with out := out }
    exact ⟨out', by rw [List.foldl_cons, hsent]; exact hrest⟩

/-- R108: with a timebase the frame restarts. -/
theorem startFrame_eq {m : Mod} (hlost : m.tb.lost = false) (hcrit : m.therm.critical = false) : ∃ sched packs out,
    startFrame m = { variantChosen m with sched := sched, packs := packs, out := out } ∧ sched.running = true := by
  have hgoes : ¬ (m.tb.lost || m.therm.critical) = true := by simp [hlost, hcrit]
  obtain ⟨out, hsent⟩ := refreshExits_eq _ _
  exact ⟨_, _, out, (if_neg hgoes).trans hsent, rfl⟩

/-! ### Phase 3 of the exit (R216, R492) -/

/-- What phase 3 of an exit leaves of the module: the tiles retained are ready, the others are to be filled, the frame runs, and no slice
has a lock or sweeps. -/
structure Restarted (m x : Mod) : Prop where
  power : ∃ at_, x.power = { m.power with ready := m.power.retained, workAt := at_ }
  filling : x.filling = ~~~m.power.retained
  running : x.sched.running = true
  mem : x.mem = m.mem
  prot : x.prot = m.prot
  slices : ∀ t : Tile, locksAndSweep x.slices[t] = (0, false)

/-- The module of phase 3 as its frame is to restart: swept, and without the locks that Deep sleep has lost. -/
def lockless (m : Mod) : Mod := locksLost (filtersUp (sweepEnd m))

theorem lockless_exitKeeps (m : Mod) : ExitKeeps m (lockless m) :=
  exitKeeps_trans _ _ _ (exitKeeps_trans _ _ _ (sweepEnd_exitKeeps m) (filtersUp_exitKeeps _)) (locksLost_exitKeeps _)

theorem locksAndSweep_lockless (m : Mod) (t : Tile) : locksAndSweep (lockless m).slices[t] = (0, false) :=
  (locksAndSweep_locksLost ..).trans (congrArg (fun x => (0, x.2)) (locksAndSweep_sweepEnd m t))

/-- The module with the tiles retained ready and the others to be filled. -/
def tilesReady (kept : BitVec 4) (m : Mod) : Mod := { m with filling := ~~~kept, power := { m.power with ready := kept } }

theorem startFrame_tilesReady {m y : Mod} (hkept : ExitKeeps m y) (hslices : ∀ t : Tile, locksAndSweep y.slices[t] = (0, false))
    (hstate : m.power.state = 5) (hlost : m.tb.lost = false) (hcrit : m.therm.critical = false) :
    Restarted m (startFrame (tilesReady m.power.retained y)) := by
  obtain ⟨at1, hpower⟩ := hkept.power.power hstate
  have hrestart := variantChosen_exitKeeps (tilesReady m.power.retained y)
  obtain ⟨at2, hready⟩ := hrestart.power.power (by simp only [tilesReady, hpower, hstate])
  obtain ⟨sched, packs, out, hframe, hrunning⟩ := startFrame_eq (m := tilesReady m.power.retained y) (by simp only [tilesReady, hkept.tb, hlost])
    (by simp only [tilesReady, hkept.therm, hcrit])
  rw [hframe]
  refine ⟨⟨at2, ?_⟩, hrestart.filling, hrunning, hrestart.mem.trans hkept.mem, hrestart.prot.trans hkept.prot,
    fun t => (locksAndSweep_variantChosen (tilesReady m.power.retained y) t).trans (hslices t)⟩
  exact hready.trans (by simp only [tilesReady, hpower])

/-- Phase 3 ends with the frame restarted, and goes on to training when a tile was not retained. -/
theorem exitPhase3_restarted {m : Mod} (hstate : m.power.state = 5) (hlost : m.tb.lost = false) (hcrit : m.therm.critical = false) :
    ∃ x, Restarted m x ∧ exitPhase3 m = if m.power.retained = 15 then x else { x with power := { x.power with phase := 4 } } := by
  refine ⟨_, startFrame_tilesReady (lockless_exitKeeps m) (locksAndSweep_lockless m) hstate hlost hcrit, ?_⟩
  unfold exitPhase3 lockless
  generalize locksLost (filtersUp (sweepEnd m)) = y
  rfl

/-! ### The end of the exit (R492) -/

/-- The module in Run after an exit from Deep sleep: Memory_Active, and the gangline trains again. -/
def awake (m : Mod) : Mod :=
  { m with
    ports := m.ports.map (fun _ q => { q with memActive := true })
    gang := { m.gang with link := if m.gang.link = 1 && !m.gang.dead then 2 else m.gang.link }
    power := { m.power with state := 0, phase := 0, target := 0, workAt := m.tb.now } }

theorem releaseHeld_of_none_held {m : Mod} (h : m.prot.held = []) : releaseHeld m = m := by
  have hprot : ({ m.prot with held := [] } : Protect) = m.prot := by rw [← h]
  simp only [releaseHeld, h, List.foldl_nil, hprot]

theorem exitOver_eq (m : Mod) : exitOver m = fetchPump (releaseHeld (awake m)) := rfl

/-- With no request held the exit ends in a fetch of the ring engines alone. -/
theorem exitOver_of_none_held {m : Mod} (h : m.prot.held = []) : exitOver m = fetchPump (awake m) := by
  rw [exitOver_eq, releaseHeld_of_none_held (m := awake m) h]

theorem awake_memActive (m : Mod) (p : Port) : ((awake m).ports.get p).memActive = true := by
  cases p <;> rfl

section
variable (l : List Tile) (m : Mod)

theorem foldl_fillOver_filling : (l.foldl (fun m t => fillOver t m) m).filling = l.foldl (fun b t => putBit b t.val false) m.filling := by
  induction l generalizing m with
  | nil => rfl
  | cons t l ih =>
    obtain ⟨_, _, -, h⟩ := fillOver_eq t m
    rw [List.foldl_cons, ih, h]; rfl

theorem foldl_fillOver_ready :
    (l.foldl (fun m t => fillOver t m) m).power.ready = l.foldl (fun b t => putBit b t.val true) m.power.ready := by
  induction l generalizing m with
  | nil => rfl
  | cons t l ih =>
    obtain ⟨_, _, -, h⟩ := fillOver_eq t m
    rw [List.foldl_cons, ih, h]; rfl

theorem fillTile_held (t : Tile) : (fillTile t m).prot.held = m.prot.held := by simp [fillTile]

theorem foldl_fillOver_held : (l.foldl (fun m t => fillOver t m) m).prot.held = m.prot.held :=
  foldl_keep (fun m : Mod => m.prot.held) _ (fun m t => by
    obtain ⟨_, _, -, h⟩ := fillOver_eq t m
    rw [h]
    exact fillTile_held m t) l m

end

/-- The tiles that a mask names. -/
def tilesOf (b : BitVec 4) : List Tile := (List.finRange 4).filter (fun t => b.getLsbD t.val)

theorem foldl_clear_tilesOf : ∀ b : BitVec 4, (tilesOf b).foldl (fun b t => putBit b t.val false) b = 0 := by decide

theorem foldl_set_tilesOf : ∀ b r : BitVec 4, (tilesOf b).foldl (fun b t => putBit b t.val true) r = r ||| b := by decide

/-- With every tile filled the exit is over: the ready tiles are those that were ready and those that were to be filled. -/
theorem fillsOver_awake {m x : Mod} (hx : x = (tilesOf m.filling).foldl (fun m t => fillOver t m) m) : (awake x).power.state = 0 ∧
    (awake x).filling = 0 ∧ (awake x).power.ready = m.power.ready ||| m.filling ∧ (m.filling = 0 → (awake x).mem = m.mem) ∧
    ∀ p, ((awake x).ports.get p).memActive = true := by
  refine ⟨rfl, ?filling, ?ready, fun hnone => ?mem, awake_memActive x⟩
  case filling => exact (congrArg Mod.filling hx).trans ((foldl_fillOver_filling ..).trans (foldl_clear_tilesOf _))
  case ready => exact (congrArg (fun y : Mod => y.power.ready) hx).trans ((foldl_fillOver_ready ..).trans (foldl_set_tilesOf ..))
  case mem =>
    have hempty : tilesOf m.filling = [] := by rw [hnone]; decide
    have hsame : x = m := hx.trans (by rw [hempty, List.foldl_nil])
    rw [← hsame]
    rfl

/-! ### The statement -/

/-- Settles O54: a request is refused or begins the flush at once; the end of an entry loses what the removal of power loses; each phase
of the exit is computed in turn, the reports of phases 3 and 4 being known to keep the power state, and the filled tiles are counted over
the mask of tiles to be filled. -/
theorem deepSleepEntersAndLeavesByPhases : Obligations.DeepSleepEntersAndLeavesByPhases := by
  refine ⟨fun r s hp hir hrun => ⟨fun hok => ?refused, fun hok hlink hempty => ?allowed⟩, fun s hp hstate htarget hphase hwake => ?asleep,
    fun s hp hstate hlast => ⟨fun hphase => ?reboot, fun hphase => ?sweep, fun hphase hkept hlost hcrit => ?restart,
      fun hphase hkept hlost hcrit hheld => ?whole, fun hphase => ?train, fun hphase hheld => ?ended⟩⟩
  case refused => exact completes_deepSleepRequest r hp hir hrun (pmDeep_of_refused hok)
  case allowed =>
    have hentered : pmDeep r s.m = beginFlush (deepEntered r s.m) := (pmDeep_of_allowed hok).trans (enterDeep_of_idle (m := setRetain r s.m) hlink hempty)
    exact completes_deepSleepRequest r hp hir hrun ⟨hentered, fun hslices => hentered.trans (beginFlush_of_empty hslices)⟩
  case asleep =>
    exact completes_deepSleepEntryDone hp hstate htarget hphase hwake ⟨asleep_power hwake, fun t => asleep_tile s.m t, rfl, rfl, rfl, rfl, rfl, rfl, rfl,
      rfl, rfl, fun p => asleep_port s.m p⟩
  all_goals refine completes_of_onMod _ rfl hp ?_
  all_goals
    have hexit : ¬ (s.m.power.state ≠ 5 ∨ s.m.power.last ≠ 3) := by simp [hstate, hlast]
    simp only [if_neg hexit, hphase]
  case reboot => exact ⟨rfl, rfl, rfl, rfl, rfl⟩
  case sweep => exact ⟨rfl, rfl, fun t => Vector.getElem_map .., rfl⟩
  case restart =>
    obtain ⟨x, hrestarted, hend⟩ := exitPhase3_restarted hstate hlost hcrit
    obtain ⟨⟨at_, hpower⟩, hfilling, hrunning, hmem, -, hslices⟩ := hrestarted
    rw [hend, if_neg hkept, if_neg (show ¬ 4 = 3 by decide)]
    exact ⟨rfl, (congrArg PowerSt.state hpower).trans hstate, congrArg PowerSt.ready hpower, hfilling, hrunning, hmem,
      fun t => ⟨congrArg Prod.fst (hslices t), congrArg Prod.snd (hslices t)⟩⟩
  case whole =>
    obtain ⟨x, hrestarted, hend⟩ := exitPhase3_restarted hstate hlost hcrit
    obtain ⟨⟨at_, hpower⟩, hfilling, hrunning, hmem, hprot, -⟩ := hrestarted
    rw [hend, if_pos hkept, if_pos ((congrArg PowerSt.phase hpower).trans hphase)]
    exact ⟨awake x, exitOver_of_none_held (by rw [hprot, hheld]), rfl, (congrArg PowerSt.ready hpower).trans hkept,
      hfilling.trans (by rw [hkept]; decide), hrunning, hmem, awake_memActive x⟩
  case train =>
    have hkeeps := trainPacks_exitKeeps ((List.finRange 8).filter (fun k => s.m.filling.getLsbD (k.val / 2))) { s.m with power := { s.m.power with phase := 5 } }
    obtain ⟨at_, hpower⟩ := hkeeps.power.power hstate
    exact ⟨by rw [hpower], by rw [hpower]; exact hstate, hkeeps.filling, hkeeps.mem⟩
  case ended =>
    exact ⟨_, exitOver_of_none_held ((foldl_fillOver_held ..).trans hheld), fillsOver_awake rfl⟩

end Sys2Proof.Machine
end

