-- ==== Sys2Proof/Proofs/DoorbellLines.lean ====
section
/-! PROOFS. Doorbell lines (O32): the fetches of the ring engines start and stop no ring, and a ring table that lists a number twice
refutes the clause on poisoned doorbell lines. -/
namespace Sys2Proof.Machine

open Sys2Proof.Stmt

/-! ### Fetches leave the state of every ring -/

/-- Whether ring `r` of a port runs, drains or is halted (R336). -/
def ringState (p : Port) (r : Nat) (m : Mod) : Nat := (ringAt m p r).state

theorem ringState_of_rings_eq {m m' : Mod} (h : m'.rings = m.rings) (p : Port) (r : Nat) : ringState p r m' = ringState p r m := by
  unfold ringState ringAt
  rw [h]

@[simp] theorem ringState_touch (p : Port) (r : Nat) (m : Mod) : ringState p r (touch m) = ringState p r m := rfl

@[simp] theorem ringState_perfCount (p : Port) (r : Nat) (g : Fin 7) (e : PerfEvt) (o : Option Bool) (m : Mod) :
    ringState p r (perfCount g e o m) = ringState p r m := ringState_of_rings_eq (perfCount_rings ..) p r

@[simp] theorem ringState_d2hSend (p q : Port) (r kind addr : Nat) (m : Mod) : ringState p r (d2hSend q kind addr m) = ringState p r m := by
  refine ringState_of_rings_eq ?_ p r
  unfold d2hSend
  split_ifs <;> rfl

/-- A change of one port's rings that keeps the states of that port's rings keeps those of all. -/
theorem ringState_onRings_of_kept {f : RingsSt → RingsSt} {r : Nat} {q : Port} {m : Mod}
    (h : (tabGet initRing (f (m.rings.get q)).rings r).state = (tabGet initRing (m.rings.get q).rings r).state) (p : Port) :
    ringState p r (onRings q f m) = ringState p r m := by
  cases p <;> cases q
  case a.a | b.b => exact h
  case a.b | b.a => rfl

theorem ringState_onRing_of_kept {f : Ring → Ring} (h : ∀ g, (f g).state = g.state) (p q : Port) (r k : Nat) (m : Mod) :
    ringState p r (onRing q k f m) = ringState p r m := by
  refine ringState_onRings_of_kept ?_ p
  by_cases hrk : r = k
  · rw [hrk, tabMod, tabGet_tabPut_self, h]
  · rw [tabMod, tabGet_tabPut_of_ne _ _ _ _ hrk]

theorem ringState_issueRead (p q : Port) (r k : Nat) (c : Word32) (m : Mod) : ringState p r (issueRead q k c m) = ringState p r m := by
  simp only [issueRead, ringState_touch, ringState_d2hSend, ringState_perfCount]
  refine (ringState_onRing_of_kept ?_ p q r k _).trans (ringState_onRings_of_kept ?_ p)
  · exact fun _ => rfl
  · rfl

theorem ringState_fetchLoop (k : Nat) (p q : Port) (r : Nat) (m : Mod) : ringState p r (fetchLoop k q m) = ringState p r m := by
  induction k generalizing m with
  | zero => rfl
  | succ k ih =>
    unfold fetchLoop
    dsimp only
    split
    · rfl
    · split
      · rfl
      next j g _ =>
        rw [ih, ringState_issueRead]
        have hreserved := ringState_onRing_of_kept (f := fun c => { c with reservedPos := c.reservedPos + 1 }) (fun _ => rfl) p q r (cfgPair g.cfg) m
        split_ifs
        · exact hreserved
        · rfl
        · exact hreserved
        · rfl

theorem ringState_fetchPump (p : Port) (r : Nat) (m : Mod) : ringState p r (fetchPump m) = ringState p r m := by
  refine foldl_keep (ringState p r) _ (fun m _ => ?_) _ m
  split
  · rfl
  · exact (ringState_fetchLoop ..).trans (ringState_fetchLoop ..)

@[simp] theorem ringState_dropUnnamed (p q : Port) (r : Nat) (m : Mod) : ringState p r (dropUnnamed q m) = ringState p r m := rfl

/-- The module state in which a command that changes the module alone completes is the one that it computes. -/
theorem module_of_exec {c : Instr} {s : State} {f : Mod → Mod} {m' : Mod} (hc : exec c s = .next (onMod f s)) (hp : s.fe.powered = true)
    (h : exec c s = .next { s with m := m' }) : m' = f s.m := by
  rw [hc, onMod_of_powered f s hp] at h
  injection h with hstate
  exact (congrArg State.m hstate).symm

/-! ### A poisoned line of a ring that does not run -/

theorem ringHalt_of_closed {p : Port} {r : Nat} {m : Mod} (h : ringState p r m = 0) (code : Nat) : ringHalt p r code m = m :=
  if_neg (by unfold ringState at h; rw [h]; decide)

theorem poisonRead_rings (p : Port) (a : Nat) (m : Mod) : (poisonRead p a m).rings = m.rings := by
  simp only [poisonRead, event_rings, setRas, onPort_rings]

/-- A poisoned doorbell line halts nothing where the one ring that it is for does not run. -/
theorem ringState_poisoned_of_closed {p : Port} {a r : Nat} {data : Sector} {m : Mod} (htalks : portTalks m p = true) (hrun : m.power.state = 0)
    (hviral : (m.ports.get p).viralRx = false) (hopen : (m.ports.get p).dbOpen = [(a, false)]) (hline : lineRings m p a = [r])
    (hclosed : ringState p r m = 0) : ringState p r (rdSharedData p a data true m) = 0 := by
  have hpoisoned : ∀ y : Mod, y.rings = m.rings → ringState p r (dropUnnamed p (fetchPump
      ((lineRings y p a).foldl (fun m r => ringHalt p r 5 m) (poisonRead p a y)))) = 0 := fun y hy => by
    have hstate : ringState p r (poisonRead p a y) = 0 := (ringState_of_rings_eq ((poisonRead_rings ..).trans hy) p r).trans hclosed
    have hlisted : lineRings y p a = [r] := by rw [← hline]; simp only [lineRings, hy]
    rw [hlisted, List.foldl_cons, List.foldl_nil, ringHalt_of_closed hstate, ringState_dropUnnamed, ringState_fetchPump, hstate]
  have htouched : wake (msgCode p) (touch m) = touch m := wake_of_run _ _ hrun
  simp only [rdSharedData, htalks, Bool.not_true, Bool.false_eq_true, if_false, htouched, touch_ports, hopen, List.find?_cons, BEq.rfl, contained,
    onPort_ports, Two_get_set, hviral, if_true]
  exact hpoisoned _ rfl

/-! ### The refuting state -/

/-- Port A's ring table lists ring 0 twice, closed and then running, and the line of its doorbell has been asked for. -/
def ringListedTwice : State :=
  { State.reset with
    fe := { State.reset.fe with powered := true }
    m := { State.reset.m with
      ports := ⟨{ State.reset.m.ports.a with linkUp := true, inReset := false, dbOpen := [(0, false)] }, State.reset.m.ports.b⟩
      rings := ⟨{ initRings with rings := [(0, initRing), (0, { initRing with state := 1 })] }, initRings⟩ } }

theorem doorbellComes_ringListedTwice : doorbellComes .a 0 0 ringListedTwice := by
  refine ⟨⟨rfl, rfl, rfl⟩, rfl, ?_, ?_, rfl⟩
  · decide
  · decide

/-- Refutes O32: a doorbell line is found to be that of ring 0 by any entry of the ring table, while the ring itself is the table's first
entry of that number; with a closed ring 0 listed before a running one, a poisoned line of the running one halts nothing. The clause on
poisoned doorbell lines lacks the premise, which the one on good lines has, that the ring runs (the model's own writes list a ring once, but
no premise says so). -/
theorem not_doorbellLinesAreReadAndRingsFetch : ¬ Obligations.DoorbellLinesAreReadAndRingsFetch := by
  rintro ⟨-, -, hpoison, -, -⟩
  obtain ⟨m', hexec, x, hx, hhalted, -⟩ := hpoison .a 0 0 0 ringListedTwice doorbellComes_ringListedTwice
  have hm : m' = rdSharedData .a 0 0 true ringListedTwice.m := module_of_exec rfl rfl hexec
  have hclosed : ringState .a 0 m' = 0 := by
    rw [hm]
    exact ringState_poisoned_of_closed rfl rfl rfl rfl rfl rfl
  have hkept : ringState .a 0 m' = ringState .a 0 x := by rw [hx, ringState_dropUnnamed, ringState_fetchPump]
  have hhalted : ringState .a 0 x = 2 := hhalted
  omega

end Sys2Proof.Machine
end

