-- ==== Sys2Proof/Proofs/FillsAndReseals.lean ====
section
/-! PROOFS. Fills and reseals that end (O39): what the end of a decompression makes of its page, and a reseal whose children have not been written. -/
namespace Sys2Proof.Machine

open Sys2Proof.Stmt

/-! ### Fullers leave the region table alone (R314) -/

theorem fullerNext_prot (f : FullerNo) (m : Mod) : (fullerNext f m).prot = m.prot := by
  unfold fullerNext
  dsimp only
  repeat' split
  all_goals rfl

theorem fullersNext_prot (m : Mod) : (fullersNext m).prot = m.prot :=
  foldl_keep (fun m : Mod => m.prot) _ (fun m f => fullerNext_prot f m) _ m

theorem fullerEnd_prot (w : FullWork) (m : Mod) : (fullerEnd w m).prot = m.prot := fullersNext_prot _

theorem regionOf_of_prot_eq {m m' : Mod} (h : m'.prot = m.prot) (off : Nat) : regionOf m' off = regionOf m off := by
  simp only [regionOf, h]

/-! ### Fills that end (R281, R282, R293, R297) -/

theorem exec_fillDecompressDone (t : Tile) (addr : Nat) (b1 b2 : Bool) (s : State) : exec (.fillDecompressDone t addr b1 b2) s =
    .next (onMod (fun m => if m.therm.critical then m else fillDecoded t addr b1 b2 m) s) := rfl

theorem exec_resealEnd (t : Tile) (s : State) : exec (.resealEnd t) s =
    .next (onMod (fun m => if m.therm.critical then m else resealEnd t m) s) := rfl

/-- The module once the fuller has given up the fill and the slice has forgotten it. -/
def fillTaken (t : Tile) (addr : Nat) (d : Decomp) (m : Mod) : Mod :=
  fullerEnd (.fill t (lineOf addr)) (onSlice t (fun s => { s with decomps := s.decomps.erase d }) m)

/-- What the fill of line `a` gives, where the stored page decodes to `page`. -/
def pageGiven (t : Tile) (a da n : Nat) (f : FullerNo) (bad1 bad2 : Bool) (page : Option (List Byte)) (z : Mod) : Mod :=
  let line := ofBytes 2048 (((page.getD []).drop (a / 256 % 16 * 256)).take 256)
  if page = none ∨ (bad1 ∧ bad2) then
    wakeTile t (fillEnd t 0 a .poison (event 0x0601 (locBatt da) (da % 2 ^ 41 + n * 2 ^ 41 + f.val * 2 ^ 45) z))
  else if bad1 then wakeTile t (fillEnd t 0 a (.ok line) (handOver f (fullerMismatch f z)))
  else wakeTile t (fillEnd t 0 a (.ok line) z)

theorem fillDecoded_of_fillComes {t : Tile} {addr : Nat} {d : Decomp} {x : Miss} {f : FullerNo} {r : BitVec 128} {s : State} {u : Batt}
    {bytes : List Byte} (bad1 bad2 : Bool) (h : fillComes t addr d x f r s)
    (hread : readStored (fillTaken t addr d s.m) r d.keyId (x.das.headD 0) x.das.length = (.ok u, bytes)) :
    fillDecoded t addr bad1 bad2 s.m = pageGiven t (lineOf addr) (x.das.headD 0) x.das.length f bad1 bad2 (unfullPage bytes)
      (metaUsed r x.das (fillTaken t addr d s.m)) := by
  obtain ⟨-, -, hdecomp, hmiss, hruns, hhand, hneeds, hregion⟩ := h
  have hregion : regionOf (fillTaken t addr d s.m) (lineOf addr) = some r :=
    (regionOf_of_prot_eq (fullerEnd_prot ..) _).trans hregion
  unfold fillTaken at hread hregion ⊢
  simp only [fillDecoded, hdecomp, hmiss, hruns, hhand, Bool.not_true, Bool.false_eq_true, if_false, hneeds, hregion, hread, pageGiven,
    Bool.or_eq_true, Option.isNone_iff_eq_none, Bool.and_eq_true]
  split_ifs <;> rfl

theorem fillDecoded_of_no_fuller {t : Tile} {addr : Nat} {m : Mod} (bad1 bad2 : Bool) (h : fullerRuns m (.fill t (lineOf addr)) = none) :
    fillDecoded t addr bad1 bad2 m = m := by
  unfold fillDecoded
  dsimp only
  split
  · next hruns => rw [h] at hruns; cases hruns
  · rfl

/-! ### Reseals that end (R281, R282) -/

/-- A reseal none of whose children has been written rewrites its node alone. -/
theorem doReseal_of_unwritten {t : Tile} {r : Reseal} {n : Batt} {m : Mod} (htile : r.tile = t.val) (hown : ownerLine r.own = false)
    (hnode : getNode m t r.level r.index = .ok n) (hminors : ∀ i < 128, nodeMinor n i = 0) (hstop : m.prot.stop = none)
    (hmajor : nodeMajor (resealNode n r.child) ≠ 2 ^ 64 - 1) :
    doReseal r m = nodeWrite t 5 r.level r.index (resealNode n r.child) m := by
  have ht : (⟨r.tile % 4, by omega⟩ : Tile) = t := Fin.ext (by simp only [htile]; exact Nat.mod_eq_of_lt t.isLt)
  unfold doReseal
  simp only [ht, hnode, hown]
  rw [foldl_of_fixed (b := m) _ (fun i hi => by simp [hminors i (List.mem_range.mp hi)])]
  rw [if_neg Bool.false_ne_true, if_neg hmajor, hstop]
  rfl

/-- The only reseal ends. -/
theorem resealEnd_of_one {t : Tile} {r : Reseal} {m : Mod} (hreseals : m.prot.reseals = [r]) (htile : r.tile = t.val)
    (hwaiters : r.waiters = []) (hown : ownerLine r.own = false) (hneeds : resealNeeds m r = []) :
    resealEnd t m = wakeTile t { doReseal r m with prot := { (doReseal r m).prot with reseals := (doReseal r m).prot.reseals.eraseIdx 0 } } := by
  cases ho : r.own with
  | line sp u a => simp [ho, ownerLine] at hown
  | _ => simp [resealEnd, hreseals, htile, hneeds, ho, List.findIdx?_cons, hwaiters, serveAll]

theorem resealEnd_of_none {t : Tile} {m : Mod} (h : ∀ r ∈ m.prot.reseals, r.tile ≠ t.val) : resealEnd t m = m := by
  unfold resealEnd
  dsimp only
  rw [List.findIdx?_eq_none_iff.mpr (fun r hr => by simp [h r hr]), List.find?_eq_none.mpr (fun r hr => by simpa using h r hr)]

/-- Settles O39, by the branches of a decompressed fill's end and of a reseal's end. -/
theorem decompressionsAndResealsEnd : Obligations.DecompressionsAndResealsEnd := by
  refine ⟨?_, ?_, ?_, ?_⟩
  · intro t addr b1 b2 d x f r u bytes s h a y z da hread page line
    have hcrit : s.m.therm.critical = false := h.2.1
    refine completes_of_onMod _ (exec_fillDecompressDone ..) h.1 ?_
    rw [hcrit, if_neg Bool.false_ne_true, fillDecoded_of_fillComes b1 b2 h hread]
    unfold pageGiven
    split_ifs <;> rfl
  · intro t addr b1 b2 s h
    refine exec_of_fixed _ (exec_fillDecompressDone ..) ?_
    rw [fillDecoded_of_no_fuller b1 b2 h, ite_self]
  · intro t r n s hp hcrit hstop hreseals htile hwaiters hown hneeds hnode hminors hmajor
    refine completes_of_onMod _ (exec_resealEnd ..) hp ⟨_, rfl, ?_⟩
    rw [hcrit, if_neg Bool.false_ne_true, resealEnd_of_one hreseals htile hwaiters hown hneeds,
      doReseal_of_unwritten htile hown hnode hminors hstop hmajor]
  · intro t s h
    refine exec_of_fixed _ (exec_resealEnd ..) ?_
    rw [resealEnd_of_none h, ite_self]

end Sys2Proof.Machine
end

