-- ==== Sys2Proof/Proofs/KeySlots.lean ====
section
/-! PROOFS. Key slots (O41): what the commands and the ends of their work leave of the slots, and the steps that find nothing cached to recall, drop or trim. -/
namespace Sys2Proof.Machine

open Sys2Proof.Stmt

/-! ### One key slot (R262) -/

/-- The key slots with slot `id` changed. -/
def keysWith (id : Nat) (f : KeySlot → KeySlot) (keys : Vector KeySlot 64) : Vector KeySlot 64 :=
  if h : id < 64 then keys.set id (f (keys[id]'h)) h else keys

theorem onKey_eq (id : Nat) (f : KeySlot → KeySlot) (m : Mod) :
    onKey id f m = { m with prot := { m.prot with keys := keysWith id f m.prot.keys } } := by
  unfold onKey keysWith
  split <;> rfl

/-- A module whose slots are those of another but for slot `id`. -/
theorem keyPut_of_keysWith {id : Nat} {f : KeySlot → KeySlot} {m x : Mod} (hid : id < 64) (hkeys : x.prot.keys = keysWith id f m.prot.keys) :
    keyPut m x id (f (keyAt m id)) := by
  have hx : x.prot.keys = m.prot.keys.set id (f m.prot.keys[id]) := by simp only [hkeys, keysWith, hid, dif_pos]
  refine ⟨?_, fun j hj => ?_⟩
  · simp [keyAt, hx, hid]
  · simp [keyAt, hx, Vector.getElem?_set_ne hid (Ne.symm hj)]

/-! ### The commands and ends of key work -/

@[simp] theorem begun_prot (h : AdminHdr) (op : BitVec 16) (m : Mod) : (begun h op m).prot = m.prot := rfl
@[simp] theorem keyAt_begun (h : AdminHdr) (op : BitVec 16) (m : Mod) (id : Nat) : keyAt (begun h op m) id = keyAt m id := rfl
@[simp] theorem keyWorkRuns_begun (h : AdminHdr) (op : BitVec 16) (m : Mod) : keyWorkRuns (begun h op m) = keyWorkRuns m := rfl

/-- A slot that KEY_LOAD has filled. -/
def keyLoaded (k : BitVec 256 × BitVec 256) (s : KeySlot) : KeySlot := { s with st := .active, kEnc := k.1, kMac := k.2, loads := s.loads + 1 }

/-- What KEY_LOAD does once it is accepted. -/
def keyLoadOwn (id : Nat) (wrapped : BitVec 576) (c : AdminTag) (m : Mod) : Mod :=
  if id = 0 ∨ 63 < id then done c 0x43 m
  else if (keyAt m id).st ≠ .empty then done c 0x42 m
  else (unwrapKey m.prot.kek wrapped).elim (done c 0x41 m) fun k =>
    done c 0x40 { m with prot := { m.prot with keys := keysWith id (keyLoaded k) m.prot.keys } }

theorem exec_keyLoad (h : AdminHdr) (id : Nat) (w : BitVec 576) (s : State) :
    exec (.keyLoad h id w) s = .next (onMod (admin h 0x0402 true (keyLoadOwn id w)) s) := by
  refine congrArg (fun own => Host.Outcome.next (onMod (admin h 0x0402 true own) s)) (funext fun c => funext fun m => ?_)
  unfold keyLoadOwn
  cases unwrapKey m.prot.kek w with
  | none => rfl
  | some k =>
    simp only [onKey_eq]
    rfl

theorem keyLoadOwn_of_empty {id : Nat} {m : Mod} (w : BitVec 576) (c : AdminTag) (hrange : ¬ (id = 0 ∨ 63 < id))
    (hst : ¬ (keyAt m id).st ≠ .empty) : keyLoadOwn id w c m = (unwrapKey m.prot.kek w).elim (done c 0x41 m) fun k =>
      done c 0x40 { m with prot := { m.prot with keys := keysWith id (keyLoaded k) m.prot.keys } } :=
  (if_neg hrange).trans (if_neg hst)

/-- KEY_RETIRE and KEY_ZERO once they are accepted: on a slot in state `st`, while no other such work runs, `go` begins. -/
def keyWorkOwn (id : Nat) (st : KeyState) (code : Nat) (go : AdminTag → Mod → Mod) (c : AdminTag) (m : Mod) : Mod :=
  if id = 0 ∨ 63 < id then done c 0x43 m
  else if keyWorkRuns m then done c 0x46 m
  else if (keyAt m id).st ≠ st then done c code m
  else go c m

theorem keyWorkOwn_of_allowed {id code : Nat} {st : KeyState} {m : Mod} (go : AdminTag → Mod → Mod) (c : AdminTag)
    (hrange : ¬ (id = 0 ∨ 63 < id)) (hruns : ¬ keyWorkRuns m = true) (hst : ¬ (keyAt m id).st ≠ st) :
    keyWorkOwn id st code go c m = go c m :=
  (if_neg hrange).trans ((if_neg hruns).trans (if_neg hst))

/-- A slot in another state. -/
def inState (st : KeyState) (k : KeySlot) : KeySlot := { k with st := st }

/-- A retirement begins (R266). -/
def retirementBegins (id : Nat) (c : AdminTag) (m : Mod) : Mod :=
  let x := onKey id (inState .retiring) m
  beginFlush (recallKeys id { x with prot := { x.prot with keyWork := some (id, false, c) } })

/-- A zero-fill sweep begins (R267). -/
def zeroFillBegins (id : Nat) (c : AdminTag) (m : Mod) : Mod :=
  let x := onKey id (inState .zeroing) m
  let x := sweepOut id { x with prot := { x.prot with keyWork := some (id, true, c), zeroWritten := [], zeroLeft := zeroNodes id x } }
  trimRegions (zeroRegions id x) x

theorem exec_keyRetire (h : AdminHdr) (id : Nat) (s : State) :
    exec (.keyRetire h id) s = .next (onMod (admin h 0x0403 true (keyWorkOwn id .active 0x42 (retirementBegins id))) s) := rfl

theorem exec_keyZero (h : AdminHdr) (id : Nat) (s : State) :
    exec (.keyZero h id) s = .next (onMod (admin h 0x0404 true (keyWorkOwn id .retired 0x44 (zeroFillBegins id))) s) := rfl

/-- A slot whose keys are gone. -/
def keysZeroed (k : KeySlot) : KeySlot := { k with st := .retired, kEnc := 0, kMac := 0 }

/-- A retirement that runs goes on, or is over. -/
def retirementStep (m : Mod) : Mod :=
  match retiring m with
  | none => m
  | some (id, c) => if keyBusy id m || (m.prot.stop.isNone && keyCached id m) then retireGo id m else retireKey id c m

theorem exec_keyRetirementDone (s : State) : exec .keyRetirementDone s = .next (onMod retirementStep s) := rfl

theorem retirementStep_of_none {m : Mod} (h : retiring m = none) : retirementStep m = m := by
  simp only [retirementStep, h]

section
variable {id : Nat} {c : Option AdminTag} {m : Mod} (hretiring : retiring m = some (id, c))
  (hcached : keyCached id m = false ∨ m.prot.stop.isSome = true)
include hretiring hcached

/-- Nothing is under the key id any more: both keys are zero (R266 step 5). -/
theorem retirementStep_of_unused (hbusy : keyBusy id m = false) : retirementStep m = retireKey id c m := by
  have hover : (keyBusy id m || (m.prot.stop.isNone && keyCached id m)) = false := by
    rcases hcached with h | h
    · simp [hbusy, h]
    · simp [hbusy, ← Option.not_isSome, h]
  simp only [retirementStep, hretiring, hover, Bool.false_eq_true, if_false]

/-- With nothing to recall a retirement waits for what is under its key id. -/
theorem retirementStep_of_used (hbusy : keyBusy id m = true) : retirementStep m = m := by
  have hidle : (m.prot.stop.isSome || m.slices.any (·.flush) || !keyCached id m) = true := by
    rcases hcached with h | h <;> simp [h]
  simp only [retirementStep, hretiring, hbusy, Bool.true_or, if_true, retireGo, hidle]

end

/-- Without a command that retires, the slot found retiring is one of the 64. -/
theorem lt_of_retiring {id : Nat} {m : Mod} (hwork : m.prot.keyWork = none) (h : retiring m = some (id, none)) : id < 64 := by
  simp only [retiring, hwork, Option.map_eq_some_iff, Prod.mk.injEq] at h
  obtain ⟨i, hi, rfl, -⟩ := h
  exact List.mem_range.mp (List.mem_of_find?_eq_some hi)

/-! ### Nothing to recall, to drop or to trim -/

theorem recallKeys_of_empty (id : Nat) {m : Mod} (h : ∀ t : Tile, (m.filters[t] : FilterSt).entries = []) : recallKeys id m = m :=
  foldl_of_fixed _ fun t _ => by simp only [recallKey, h t, List.filter_nil, List.foldl_nil]

section
variable {m : Mod} (h : nothingCached m)
include h

theorem dropKeyLines_of_nothingCached (id : Nat) (t : Tile) : dropKeyLines id t m = m := by
  obtain ⟨-, hlines, -⟩ := h t
  refine onSlice_of_fixed ?_
  simp only [hlines, List.filter_nil]
  rw [← hlines]

theorem recallZero_of_nothingCached (id : Nat) (t : Tile) : recallZero id t m = m := by
  obtain ⟨hentries, -, -⟩ := h t
  simp only [recallZero, hentries, List.filter_nil, List.foldl_nil]

theorem sweepOut_of_nothingCached (id : Nat) : sweepOut id m = m :=
  foldl_of_fixed _ fun t _ => by rw [dropKeyLines_of_nothingCached h, recallZero_of_nothingCached h]

theorem trimRegions_of_nothingCached {l : List (BitVec 128)} (hplain : ∀ r ∈ l, rgElastic r = false) : trimRegions l m = m := by
  have hnone : l.filter rgElastic = [] := List.filter_eq_nil_iff.mpr fun r hr => by simp [hplain r hr]
  unfold trimRegions
  rw [hnone]
  exact foldl_of_fixed _ fun t _ => trimSettle_of_no_trim (h t).2.2

theorem trimming_of_nothingCached : trimming m = false := by
  refine Vector.any_eq_false.mpr fun i hi => ?_
  have htrims : (m.tiers[i] : TierSt).trims = [] := (h ⟨i, hi⟩).2.2
  simp [htrims]

theorem dirtyDas_of_nothingCached (id : Nat) : dirtyDas id m = [] := by
  refine List.flatten_eq_nil_iff.mpr fun l hl => ?_
  obtain ⟨s, hs, rfl⟩ := List.mem_map.mp hl
  obtain ⟨i, hi, rfl⟩ := Vector.mem_iff_getElem.mp (Vector.mem_toList_iff.mp hs)
  have hlines : (m.slices[i] : Slice).lines = [] := (h ⟨i, hi⟩).2.1
  simp [hlines]

end

theorem retirementBegins_of_empty (id : Nat) (c : AdminTag) {m : Mod} (h : ∀ t : Tile, (m.filters[t] : FilterSt).entries = []) :
    retirementBegins id c m = beginFlush { m with prot := { m.prot with
      keys := keysWith id (inState .retiring) m.prot.keys, keyWork := some (id, false, c) } } := by
  unfold retirementBegins
  rw [onKey_eq]
  exact congrArg beginFlush (recallKeys_of_empty id h)

theorem zeroFillBegins_of_nothingCached (id : Nat) (c : AdminTag) {m : Mod} (h : nothingCached m)
    (hplain : ∀ r ∈ m.prot.regions, rgElastic r = false) :
    zeroFillBegins id c m = { m with prot := { m.prot with
      keys := keysWith id (inState .zeroing) m.prot.keys, keyWork := some (id, true, c), zeroWritten := [], zeroLeft := zeroNodes id m } } := by
  unfold zeroFillBegins
  rw [onKey_eq]
  dsimp only
  rw [sweepOut_of_nothingCached (by exact h)]
  exact trimRegions_of_nothingCached (by exact h) fun r hr => hplain r (List.mem_of_mem_filter hr)

/-! ### The end of the zero-fill sweep (R267) -/

theorem zeroGo_of_none_left (k : Nat) {m : Mod} (h : m.prot.zeroLeft = []) : zeroGo k m = m := by
  cases k with
  | zero => rfl
  | succ k => simp only [zeroGo, h]

/-- The zero-fill sweep that runs goes on, or ends. -/
def zeroFillStep (m : Mod) : Mod :=
  match m.prot.keyWork with
  | some (id, true, c) =>
    let m := zeroGo (zeroFuel m) (if zeroBusy id m then sweepOut id m else m)
    if zeroBusy id m || !m.prot.zeroLeft.isEmpty || trimming m || m.prot.stop.isSome then m else zeroEnd id c m
  | _ => m

theorem exec_zeroFillSweepEnd (s : State) : exec .zeroFillSweepEnd s = .next (onMod zeroFillStep s) := rfl

theorem zeroFillStep_of_none {m : Mod} (h : m.prot.keyWork = none) : zeroFillStep m = m := by
  simp only [zeroFillStep, h]

theorem zeroFillStep_of_swept {id : Nat} {c : AdminTag} {m : Mod} (hwork : m.prot.keyWork = some (id, true, c))
    (hbusy : zeroBusy id m = false) (hstop : m.prot.stop = none) (hleft : m.prot.zeroLeft = []) (htrims : trimming m = false) :
    zeroFillStep m = zeroEnd id c m := by
  simp only [zeroFillStep, hwork, hbusy, Bool.false_eq_true, if_false, zeroGo_of_none_left _ hleft, hleft, List.isEmpty_nil, Bool.not_true,
    htrims, hstop, Option.isSome_none, Bool.or_false]

theorem zeroEnd_of_nothingCached {id : Nat} {m : Mod} (c : AdminTag) (h : nothingCached m) (hstop : m.prot.stop = none)
    (hwritten : m.prot.zeroWritten = []) :
    zeroEnd id c m = done c 0x40 { m with prot := { m.prot with keys := keysWith id (inState .empty) m.prot.keys, keyWork := none } } := by
  have hdrop : (List.finRange 4).foldl (fun m t => dropKeyLines id t m) m = m :=
    foldl_of_fixed _ fun t _ => dropKeyLines_of_nothingCached h id t
  simp only [zeroEnd, hwritten, dirtyDas_of_nothingCached h, List.nil_append, List.eraseDups_nil, List.filter_nil, List.foldl_nil, hdrop,
    hstop, Option.isSome_none, Bool.false_eq_true, if_false, onKey_eq]
  rfl

/-! ### The statement -/

/-- Settles O41, by the states of a slot that each command and each end of its work meets. -/
theorem keySlotsFollowTheirStates : Obligations.KeySlotsFollowTheirStates := by
  refine ⟨?_, ?_, ?_, ?_, ?_, ?_, ?_⟩
  · intro h id w s ha b
    refine completes_of_accepted _ (exec_keyLoad h id w s) ha ?_
    split_ifs with hrange hst
    · exact if_pos hrange
    · exact (if_neg hrange).trans (if_pos hst)
    · rw [keyLoadOwn_of_empty (m := begun h 0x0402 s.m) w (tagOf h 0x0402) hrange hst, begun_prot]
      cases unwrapKey s.m.prot.kek w with
      | none => rfl
      | some k => exact ⟨_, rfl, keyPut_of_keysWith (f := keyLoaded k) (by omega) rfl, rfl⟩
  · intro h id s ha hempty b
    refine completes_of_accepted _ (exec_keyRetire h id s) ha ?_
    split_ifs with hrange hruns hst
    · exact if_pos hrange
    · exact (if_neg hrange).trans (if_pos hruns)
    · exact (if_neg hrange).trans ((if_neg hruns).trans (if_pos hst))
    · rw [keyWorkOwn_of_allowed (m := begun h 0x0403 s.m) _ (tagOf h 0x0403) hrange hruns hst,
        retirementBegins_of_empty id _ (by exact hempty)]
      exact ⟨_, rfl, keyPut_of_keysWith (f := inState .retiring) (by omega) rfl, rfl⟩
  · intro id c s hp hwork hid
    have hretiring : retiring s.m = some (id, some c) := by simp only [retiring, hwork]
    refine ⟨fun hbusy hcached => completes_of_onMod _ (exec_keyRetirementDone s) hp ?_,
      fun hbusy hcached => exec_of_fixed _ (exec_keyRetirementDone s) (retirementStep_of_used hretiring hcached hbusy)⟩
    rw [retirementStep_of_unused hretiring hcached hbusy, retireKey, onKey_eq]
    exact ⟨_, rfl, keyPut_of_keysWith (f := keysZeroed) hid rfl, rfl⟩
  · intro id s hp hwork hretiring hbusy hcached
    refine completes_of_onMod _ (exec_keyRetirementDone s) hp ?_
    rw [retirementStep_of_unused hretiring (.inl hcached) hbusy, retireKey, onKey_eq]
    exact ⟨keyPut_of_keysWith (f := keysZeroed) (lt_of_retiring hwork hretiring) rfl, rfl⟩
  · intro h id s ha hnothing hplain b
    refine completes_of_accepted _ (exec_keyZero h id s) ha ?_
    split_ifs with hrange hruns hst
    · exact if_pos hrange
    · exact (if_neg hrange).trans (if_pos hruns)
    · exact (if_neg hrange).trans ((if_neg hruns).trans (if_pos hst))
    · rw [keyWorkOwn_of_allowed (m := begun h 0x0404 s.m) _ (tagOf h 0x0404) hrange hruns hst,
        zeroFillBegins_of_nothingCached id _ (by exact hnothing) (by exact hplain)]
      exact ⟨keyPut_of_keysWith (f := inState .zeroing) (by omega) rfl, rfl⟩
  · intro id c s hp hwork hid hbusy hstop hwritten hleft hnothing
    refine completes_of_onMod _ (exec_zeroFillSweepEnd s) hp ?_
    rw [zeroFillStep_of_swept hwork hbusy hstop hleft (trimming_of_nothingCached hnothing), zeroEnd_of_nothingCached c hnothing hstop hwritten]
    exact ⟨_, rfl, keyPut_of_keysWith (f := inState .empty) hid rfl, rfl⟩
  · intro s hwork hretiring
    exact ⟨exec_of_fixed _ (exec_keyRetirementDone s) (retirementStep_of_none hretiring),
      exec_of_fixed _ (exec_zeroFillSweepEnd s) (zeroFillStep_of_none hwork)⟩

end Sys2Proof.Machine
end

