-- ==== Sys2Proof/Proofs/ProtectionReload.lean ====
section
/-! PROOFS. Protection reload (O42): the codes that PROT_RELOAD meets, and what the end of each phase leaves. -/
namespace Sys2Proof.Machine

open Sys2Proof.Stmt

/-! ### PROT_RELOAD (R256, R257) -/

/-- PROT_RELOAD once it is accepted. -/
def protReloadOwn (d : ProtData) (c : AdminTag) (m : Mod) : Mod :=
  if m.prot.stop.isSome then done c 0x45 m
  else if m.prot.reload.isSome then done c 0x4B m
  else if d.sigOk = false then done c 0x48 m
  else if d.seals ≠ m.prot.sealR.toList.map (fun r => (r.base, r.gran, r.metaBase)) then done c 0x4A m
  else (tableCheck d.regions m.prot.sealR m.tiers m.conn.gangEn).elim
    { m with prot := { m.prot with reload := some ⟨c, 1, ⟨d.regions, d.metaWays⟩⟩ } } fun x => complete c 0x49 0 (checkResult x) m

theorem exec_protReload (h : AdminHdr) (d : ProtData) (s : State) :
    exec (.protReload h d) s = .next (onMod (admin h 0x0401 true (protReloadOwn d)) s) := by
  refine congrArg (fun own => Host.Outcome.next (onMod (admin h 0x0401 true own) s)) (funext fun c => funext fun m => ?_)
  unfold protReloadOwn
  have hseals : (!sealsSame m d) = true ↔ d.seals ≠ m.prot.sealR.toList.map (fun r => (r.base, r.gran, r.metaBase)) := by
    simp [sealsSame]
  simp only [Bool.not_eq_true', hseals]
  cases tableCheck d.regions m.prot.sealR m.tiers m.conn.gangEn <;> rfl

theorem protReloadOwn_of_sound {d : ProtData} {m : Mod} (c : AdminTag) (hstop : ¬ m.prot.stop.isSome = true)
    (hreload : ¬ m.prot.reload.isSome = true) (hsig : ¬ d.sigOk = false)
    (hseals : ¬ d.seals ≠ m.prot.sealR.toList.map (fun r => (r.base, r.gran, r.metaBase))) :
    protReloadOwn d c m = (tableCheck d.regions m.prot.sealR m.tiers m.conn.gangEn).elim
      { m with prot := { m.prot with reload := some ⟨c, 1, ⟨d.regions, d.metaWays⟩⟩ } } fun x => complete c 0x49 0 (checkResult x) m :=
  (if_neg hstop).trans ((if_neg hreload).trans ((if_neg hsig).trans (if_neg hseals)))

@[simp] theorem begun_tiers (h : AdminHdr) (op : BitVec 16) (m : Mod) : (begun h op m).tiers = m.tiers := rfl
@[simp] theorem begun_conn (h : AdminHdr) (op : BitVec 16) (m : Mod) : (begun h op m).conn = m.conn := rfl

/-! ### The phases (R257, R258) -/

/-- What the end of a phase comes to. -/
def reloadStep (m : Mod) : Mod :=
  match m.prot.reload with
  | none => m
  | some l => if m.prot.stop.isSome then reloadStopped l m else phaseEnd l m

theorem exec_protReloadPhaseEnd (s : State) : exec .protReloadPhaseEnd s = .next (onMod reloadStep s) := rfl

theorem reloadStep_of_none {m : Mod} (h : m.prot.reload = none) : reloadStep m = m := by
  simp only [reloadStep, h]

theorem reloadStep_of_running {l : Reload} {m : Mod} (h : m.prot.reload = some l) (hstop : m.prot.stop = none) :
    reloadStep m = phaseEnd l m := by
  simp only [reloadStep, h, hstop, Option.isSome_none, Bool.false_eq_true, if_false]

theorem completes_phaseEnd {l : Reload} {s : State} {P : Mod → Prop} (hp : s.fe.powered = true) (hreload : s.m.prot.reload = some l)
    (hstop : s.m.prot.stop = none) (hP : P (phaseEnd l s.m)) : completes .protReloadPhaseEnd s P :=
  completes_of_onMod _ (exec_protReloadPhaseEnd s) hp (by rwa [reloadStep_of_running hreload hstop])

theorem reloadStep_of_stopped {l : Reload} {m : Mod} (h : m.prot.reload = some l) (hstop : m.prot.stop.isSome = true) :
    reloadStep m = reloadStopped l m := by
  simp only [reloadStep, h, hstop, if_true]

/-- Nothing is recalled where no host copy stands, and nothing is trimmed where no region is elastic. -/
theorem phaseEnd_recallsAndTrims {l : Reload} {m : Mod} (hphase : l.phase = 1) (hplain : ∀ r ∈ m.prot.regions, rgElastic r = false)
    (h : nothingCached m) : phaseEnd l m = setPhase l 2 m := by
  have htrim : trimChanged l.block.regions (setPhase l 2 m) = setPhase l 2 m :=
    trimRegions_of_nothingCached (m := setPhase l 2 m) h fun r hr => hplain r (List.mem_of_mem_filter hr)
  have hrecall : recallReload l.block.regions (setPhase l 2 m) = setPhase l 2 m :=
    foldl_of_fixed _ fun t _ => by
      have hentries : ((setPhase l 2 m).filters[t] : FilterSt).entries = [] := (h t).1
      simp only [recallChanged, hentries, List.filter_nil, List.foldl_nil]
  simp only [phaseEnd, hphase, htrim, hrecall]

theorem phaseEnd_suspendsPeer {l : Reload} {m : Mod} (hphase : l.phase = 2) (hcopies : changedCopies l.block.regions m = false) :
    phaseEnd l m = if keyWorkRuns m || trimming m then m else gangTx false .suspend (setPhase l 3 m) := by
  simp only [phaseEnd, hphase, hcopies, Bool.false_eq_true, if_false]

theorem phaseEnd_beginsFlush {l : Reload} {m : Mod} (hphase : l.phase = 3) :
    phaseEnd l m = if requestsAbout m then m else beginFlush (setPhase l 4 m) := by
  simp only [phaseEnd, hphase]

theorem phaseEnd_drained {l : Reload} {m : Mod} (hphase : l.phase = 4) (hflush : m.slices.any (·.flush) = false) (hdrained : drained m = true) :
    phaseEnd l m = setPhase l 5 m := by
  have hend : flushEnd m = m := flushEnd_of_none fun t => Bool.eq_false_iff.mpr (Vector.any_eq_false.mp hflush t t.isLt)
  simp only [phaseEnd, hphase, hend, hflush, hdrained, Bool.not_true, Bool.or_false, Bool.false_eq_true, if_false]

theorem phaseEnd_stopsCores {l : Reload} {m : Mod} (hphase : l.phase = 5) (hrun : m.sched.running = false) :
    phaseEnd l m = setPhase l 6 (rebootCores (dropStaged m)) := by
  simp only [phaseEnd, hphase, frameBoundary_idle (.inl hrun), hrun, Bool.false_eq_true, if_false]

/-- With no activation and no load under way the staging store is discarded without a completion. -/
theorem dropStaged_of_idle {m : Mod} (hacts : m.sched.activators = []) (hload : m.sched.load = none) : ∃ sched : Sched,
    dropStaged m = { m with sched := sched } ∧ sched.staged = none ∧ sched.active = m.sched.active := by
  simp only [dropStaged, endActivation, hacts, hload, List.foldl_nil, Option.elim_none]
  exact ⟨_, rfl, rfl, rfl⟩

/-- The cores have booted, and the new table is in force with its metadata ways. -/
def tableTaken (l : Reload) (m : Mod) : Mod :=
  let m := { coresUp m with prot := { m.prot with regions := l.block.regions, locked := true } }
  (List.finRange 4).foldl (fun m t => passCheck t m) (setMetaWays (metaWaysOf l.block.metaWays l.block.regions) m)

theorem phaseEnd_takesTable {l : Reload} {m : Mod} (hphase : l.phase = 6) : phaseEnd l m = setPhase l 7 (beginSweep (tableTaken l m)) := by
  simp only [phaseEnd, hphase]
  rfl

theorem tableTaken_prot (l : Reload) (m : Mod) : (tableTaken l m).prot = { m.prot with regions := l.block.regions, locked := true } :=
  foldl_keep (fun m : Mod => m.prot) _ (fun m t => passCheck_prot t m) _ _

theorem tableTaken_mem (l : Reload) (m : Mod) : (tableTaken l m).mem = m.mem :=
  foldl_keep (fun m : Mod => m.mem) _ (fun m t => passCheck_mem t m) _ _

@[simp] theorem setPhase_slices (l : Reload) (n : Nat) (m : Mod) : (setPhase l n m).slices = m.slices := rfl
@[simp] theorem setPhase_mem (l : Reload) (n : Nat) (m : Mod) : (setPhase l n m).mem = m.mem := rfl
@[simp] theorem beginSweep_mem (m : Mod) : (beginSweep m).mem = m.mem := rfl

theorem sweep_beginSweep (m : Mod) (t : Tile) : ((beginSweep m).slices[t] : Slice).sweep = true := by
  simp [beginSweep]

/-- The end of phase 6 leaves the new table, every slice sweeping, and the memory as it was. -/
theorem sweeping_frame (l : Reload) (m : Mod) : let x := setPhase l 7 (beginSweep (tableTaken l m))
    x.prot = { m.prot with regions := l.block.regions, locked := true, reload := some { l with phase := 7 } } ∧
      (∀ t : Tile, (x.slices[t] : Slice).sweep = true) ∧ x.mem = m.mem := by
  refine ⟨?_, fun t => ?_, ?_⟩
  · simp only [setPhase, beginSweep, tableTaken_prot]
  · simp only [setPhase_slices, sweep_beginSweep]
  · rw [setPhase_mem, beginSweep_mem, tableTaken_mem]

/-! ### The reload's end (R258, R259) -/

/-- No reload runs any more. -/
def reloadOver (m : Mod) : Mod := { m with prot := { m.prot with reload := none } }

@[simp] theorem reloadOver_prot (m : Mod) : (reloadOver m).prot = { m.prot with reload := none } := rfl
@[simp] theorem reloadOver_sched (m : Mod) : (reloadOver m).sched = m.sched := rfl
@[simp] theorem reloadOver_slices (m : Mod) : (reloadOver m).slices = m.slices := rfl

theorem endReload_of_none_held {l : Reload} {m : Mod} (code : Nat) (h : m.prot.held = []) :
    endReload l code m = done l.cmd code (reloadOver m) := by
  refine releaseHeld_of_none_held ?_
  rw [(done_exitKeeps l.cmd code _).prot]
  exact h

theorem reloadStopped_early {l : Reload} {m : Mod} (hphase : l.phase ≤ 5) (hheld : m.prot.held = []) :
    reloadStopped l m = done l.cmd 0x45 { m with
      prot := { m.prot with reload := none }, slices := m.slices.map (fun (x : Slice) => { x with sweep := false, flush := false }) } := by
  have h6 : l.phase ≠ 6 := by omega
  have h7 : l.phase ≠ 7 := by omega
  simp only [reloadStopped, h6, h7, if_false]
  exact endReload_of_none_held _ hheld

/-- The frame that restarts leaves protection, the gangline and the lines of the cache as they are. -/
theorem startFrame_frame {m : Mod} (hlost : m.tb.lost = false) (hcrit : m.therm.critical = false) : (startFrame m).sched.running = true ∧
    (startFrame m).prot = m.prot ∧ (startFrame m).gang = m.gang ∧ ∀ t : Tile, ∃ f, ((startFrame m).slices[t] : Slice) = withFlush f m.slices[t] := by
  obtain ⟨sched, packs, out, hstart, hrun⟩ := startFrame_eq hlost hcrit
  obtain ⟨_, _, _, hrings, -⟩ := variantChosen_ringsOnly m
  have hslices := fun t => ringsOnly_slice hrings t
  have hprot : (variantChosen m).prot = m.prot := (variantChosen_exitKeeps m).prot
  have hgang : (variantChosen m).gang = m.gang := by
    obtain ⟨_, _, _, _, _, _, _, _, _, h⟩ := hrings
    rw [h]
  rw [hstart]
  exact ⟨hrun, hprot, hgang, hslices⟩

theorem resumePeer_of_no_link {m : Mod} (h : m.gang.link ≠ 3) : resumePeer m = m := if_pos h

/-- The sweep is over, the frame runs again, and the generation is the next one. -/
def tableServed (m : Mod) : Mod :=
  let x := startFrame (sweepEnd m)
  { x with prot := { x.prot with gen := x.prot.gen + 1 } }

section
variable {m : Mod} (hlost : m.tb.lost = false) (hcrit : m.therm.critical = false) (hwhole : ∀ t : Tile, (m.slices[t] : Slice).oneWay = none)
include hlost hcrit hwhole

theorem tableServed_frame : (tableServed m).sched.running = true ∧ (tableServed m).prot = { m.prot with gen := m.prot.gen + 1 } ∧
    (tableServed m).gang = m.gang ∧ ∀ t : Tile, ∃ f, ((tableServed m).slices[t] : Slice) = withFlush f (sweptSlice m.slices[t]) := by
  unfold tableServed
  rw [sweepEnd_of_whole fun t _ => hwhole t]
  obtain ⟨hrun, hprot, hgang, hslices⟩ := startFrame_frame (m := { m with slices := m.slices.map sweptSlice }) hlost hcrit
  refine ⟨hrun, by simp only [hprot], hgang, fun t => ?_⟩
  obtain ⟨f, hf⟩ := hslices t
  exact ⟨f, hf.trans (congrArg (withFlush f) (Vector.getElem_map ..))⟩

theorem phaseEnd_restartsFrame {l : Reload} (hphase : l.phase = 7) (hlink : m.gang.link ≠ 3) (hheld : m.prot.held = []) :
    ∃ x, phaseEnd l m = done l.cmd 0x40 x ∧ x.prot = { m.prot with gen := m.prot.gen + 1, reload := none } ∧ x.sched.running = true ∧
      ∀ t : Tile, (x.slices[t] : Slice).sweep = false ∧ ((m.slices[t] : Slice).sweep = true → (x.slices[t] : Slice).lines = []) := by
  obtain ⟨hrun, hprot, hgang, hslices⟩ := tableServed_frame hlost hcrit hwhole
  have hend : phaseEnd l m = endReload l 0x40 (resumePeer (tableServed m)) := by
    simp only [phaseEnd, hphase]
    rfl
  refine ⟨reloadOver (tableServed m), ?_, by rw [reloadOver_prot, hprot], by rw [reloadOver_sched, hrun], fun t => ?_⟩
  · rw [hend, resumePeer_of_no_link (by rwa [hgang]), endReload_of_none_held 0x40 (by rw [hprot]; exact hheld)]
  · obtain ⟨f, hf⟩ := hslices t
    simp only [reloadOver_slices, hf]
    exact ⟨sweptSlice_sweep _, fun hsweep => congrArg Slice.lines (if_pos hsweep)⟩

end

/-! ### The statement -/

/-- Settles O42, by the codes of the command and the phases one after another. -/
theorem protectionReloadRunsItsPhases : Obligations.ProtectionReloadRunsItsPhases := by
  refine ⟨?_, ?_, ?_, ?_⟩
  · intro h d s ha b c
    refine completes_of_accepted _ (exec_protReload h d s) ha ?_
    split_ifs with hstop hreload hsig hseals
    · exact if_pos hstop
    · exact (if_neg hstop).trans (if_pos hreload)
    · exact (if_neg hstop).trans ((if_neg hreload).trans (if_pos hsig))
    · exact (if_neg hstop).trans ((if_neg hreload).trans ((if_neg hsig).trans (if_pos hseals)))
    · rw [protReloadOwn_of_sound (m := b) c hstop hreload hsig hseals, begun_prot, begun_tiers, begun_conn]
      cases tableCheck d.regions s.m.prot.sealR s.m.tiers s.m.conn.gangEn <;> rfl
  · intro l s hp hreload hstop next
    have hcompletes : ∀ {P : Mod → Prop}, P (phaseEnd l s.m) → completes .protReloadPhaseEnd s P := completes_phaseEnd hp hreload hstop
    have hwaits : phaseEnd l s.m = s.m → exec .protReloadPhaseEnd s = .next s := fun h =>
      exec_of_fixed _ (exec_protReloadPhaseEnd s) (by rwa [reloadStep_of_running hreload hstop])
    refine ⟨?_, ?_, ?_, ?_, ?_, ?_, ?_, ?_, ?_⟩
    · exact fun hphase hplain hnothing => hcompletes (phaseEnd_recallsAndTrims hphase hplain hnothing)
    · intro hphase hcopies hkeys htrim
      exact hcompletes ((phaseEnd_suspendsPeer hphase hcopies).trans (if_neg (by simp [hkeys, htrim])))
    · intro hphase hcopies hwork
      exact hwaits ((phaseEnd_suspendsPeer hphase hcopies).trans (if_pos (by simpa using hwork)))
    · exact fun hphase habout => hcompletes ((phaseEnd_beginsFlush hphase).trans (if_neg (by simp [habout])))
    · exact fun hphase habout => hwaits ((phaseEnd_beginsFlush hphase).trans (if_pos habout))
    · exact fun hphase hflush hdrained => hcompletes (phaseEnd_drained hphase hflush hdrained)
    · intro hphase hrun hacts hload
      obtain ⟨sched, hdrop, hstaged, hactive⟩ := dropStaged_of_idle hacts hload
      refine hcompletes ?_
      rw [phaseEnd_stopsCores hphase hrun, hdrop]
      exact ⟨rfl, hstaged, hactive, rfl, rfl⟩
    · intro hphase
      refine hcompletes ?_
      obtain ⟨hprot, hsweep, hmem⟩ := sweeping_frame l s.m
      rw [phaseEnd_takesTable hphase, hprot]
      exact ⟨rfl, rfl, rfl, rfl, hsweep, hmem⟩
    · intro hphase hlink hheld hlost hcrit hwhole
      obtain ⟨x, hdone, hprot, hrun, hslices⟩ := phaseEnd_restartsFrame hlost hcrit hwhole hphase hlink hheld
      exact hcompletes ⟨x, hdone, by rw [hprot], by rw [hprot], by rw [hprot], hrun, hslices⟩
  · intro l s hp hreload hstop hphase hheld
    refine completes_of_onMod _ (exec_protReloadPhaseEnd s) hp ?_
    rw [reloadStep_of_stopped hreload hstop, reloadStopped_early hphase hheld]
  · exact fun s h => exec_of_fixed _ (exec_protReloadPhaseEnd s) (reloadStep_of_none h)

end Sys2Proof.Machine
end

