-- ==== Sys2Proof/Proofs/CompressionJobs.lean ====
section
/-! PROOFS. Compression jobs (O44): what the first descriptor that need not wait comes to, and what the end of a job's computation leaves. -/
namespace Sys2Proof.Machine

open Sys2Proof.Stmt

/-! ### Commands of the fabric's engines (R465) -/

/-- A command of the engines completes in a module with power that no Critical shutdown has stopped. -/
theorem completes_of_engine {c : Instr} {s : State} (f : Mod → Mod) {P : Mod → Prop} (hc : exec c s = engineStep f s)
    (hp : s.fe.powered = true) (hcrit : s.m.therm.critical = false) (h : P (f s.m)) : completes c s P :=
  completes_of_onMod _ hc hp (by rwa [hcrit, if_neg Bool.false_ne_true])

/-- A command of the engines that finds nothing to do leaves the state. -/
theorem engine_of_fixed {c : Instr} {s : State} (f : Mod → Mod) (hc : exec c s = engineStep f s) (h : f s.m = s.m) : exec c s = .next s :=
  exec_of_fixed _ hc (by rw [h, ite_self])

theorem exec_jobDescriptor (p : Port) (s : State) : exec (.jobDescriptor p) s = engineStep (fun m => jobsGo (jobDescriptor p m)) s := rfl

theorem exec_jobComplete (t : Tile) (u : Fin 2) (b1 b2 : Bool) (s : State) :
    exec (.jobComplete t u b1 b2) s = engineStep (fun m => jobsGo (jobComplete (fullerAt t u) b1 b2 m)) s := rfl

theorem jobsGo_of_no_job {m : Mod} (h : m.jobs = []) : jobsGo m = m := by
  simp only [jobsGo, h, List.map_nil, List.foldl_nil]

/-! ### Descriptors (R307, R311) -/

theorem jobDescriptor_of_all_waiting {p : Port} {m : Mod} (h : ∀ i < (m.rings.get p).jobs.length, jobWaits p m (m.rings.get p).jobs i = true) :
    jobDescriptor p m = m := by
  have hnone : (List.range (m.rings.get p).jobs.length).find? (fun i => !jobWaits p m (m.rings.get p).jobs i) = none :=
    List.find?_eq_none.mpr fun i hi => by simp [h i (List.mem_range.mp hi)]
  simp only [jobDescriptor, hnone]

theorem jobStart_of_not_ok {m : Mod} {j : Job} {e : RawEntry} (h : jobOk j e = false) : jobStart m j e = .fail 0x02 0 0 := by
  simp only [jobStart, h, Bool.not_false, if_true]

section
variable {p : Port} {i : Nat} {x : Nat × RawEntry} {m : Mod}
  (hfirst : (List.range (m.rings.get p).jobs.length).find? (fun i => !jobWaits p m (m.rings.get p).jobs i) = some i)
  (hentry : (m.rings.get p).jobs[i]? = some x)
include hfirst hentry

theorem jobDescriptor_runs {f : FullerNo} (hstart : jobStart m (parseJob p x.1 x.2) x.2 = .run f) :
    jobDescriptor p m = fullerGive f (.job m.accId) { touch (takeJob p i m) with accId := m.accId + 1, jobs := m.jobs ++
      [{ parseJob p x.1 x.2 with id := m.accId, fuller := f.val }] } := by
  simp only [jobDescriptor, hfirst, List.getD_eq_getElem?_getD, hentry, Option.getD_some, hstart]
  rfl

theorem jobDescriptor_fails {code detail : Nat} (hstart : jobStart m (parseJob p x.1 x.2) x.2 = .fail code detail 0) (hcode : code ≠ 0x08) :
    jobDescriptor p m = jobFail (parseJob p x.1 x.2) code detail (touch (takeJob p i m)) := by
  simp only [jobDescriptor, hfirst, List.getD_eq_getElem?_getD, hentry, Option.getD_some, hstart, if_neg hcode, if_true]

/-- A key that serves no access halts the ring too (R264). -/
theorem jobDescriptor_halts {k : BitVec 6} (hstart : jobStart m (parseJob p x.1 x.2) x.2 = .fail 0x08 0 0x07)
    (hkey : jobKeyBad m (parseJob p x.1 x.2) = some k) :
    jobDescriptor p m = ringHalt p (parseJob p x.1 x.2).ring 0x07
      (jobFail (parseJob p x.1 x.2) 0x08 0 (keyRefused true p k (touch (takeJob p i m)))) := by
  simp only [jobDescriptor, hfirst, List.getD_eq_getElem?_getD, hentry, Option.getD_some, hstart, if_true, hkey]
  rfl

end

/-! ### The end of a computation (R308, R313) -/

theorem jobComplete_of_no_job {f : FullerNo} {m : Mod} (bad1 bad2 : Bool) (h : m.jobs = []) : jobComplete f bad1 bad2 m = m := by
  unfold jobComplete
  rw [h]
  split <;> rfl

/-- The module with job `id` the job of fuller `g`. -/
def jobGivenTo (g : FullerNo) (id : Nat) (m : Mod) : Mod :=
  { m with jobs := m.jobs.map (fun (j : Job) => if j.id == id then { j with fuller := g.val } else j) }

section
variable {f : FullerNo} {id : Nat} {j : Job} {src ctx : List Nat} {m : Mod} (hrun : (m.fullers[f] : Fuller).run = some (.job id))
  (hjob : m.jobs.find? (fun j => j.id == id) = some j) (hstage : j.stage = .reads src ctx) (hhere : answered m (src ++ ctx) = true)
include hrun hjob hstage hhere

theorem jobComplete_verified {bad1 : Bool} (bad2 : Bool) (h : j.op ≠ 1 ∨ bad1 = false) :
    jobComplete f bad1 bad2 m = jobOut j src ctx (fullerEnd (.job id) (touch m)) := by
  have hgood : ¬ (j.op = 1 ∧ bad1 = true) := by simpa [Decidable.imp_iff_not_or] using h
  simp only [jobComplete, hrun, hjob, hstage, hhere, Bool.not_true, Bool.false_eq_true, if_false, if_neg hgood]

theorem jobComplete_confirmed {bad2 : Bool} (hop : j.op = 1)
    (hlast : bad2 = true ∨ ((fullerEnd (.job id) (touch m)).fullers[twin f] : Fuller).mode ≠ 0) :
    jobComplete f true bad2 m = jobFails j 0x06 0 0 (dropAcc (src ++ ctx) (fullerEnd (.job id) (touch m))) := by
  simp only [jobComplete, hrun, hjob, hstage, hhere, Bool.not_true, Bool.false_eq_true, if_false, hop, and_self, if_true, if_pos hlast]

/-- A compression that only the first fuller fails goes on with the other, and the first leaves service. -/
theorem jobComplete_handsOver (hop : j.op = 1) (hsecond : ((fullerEnd (.job id) (touch m)).fullers[twin f] : Fuller).mode = 0) :
    jobComplete f true false m = jobOut { j with fuller := (twin f).val } src ctx
      (handOver f (fullerMismatch f (jobGivenTo (twin f) id (fullerEnd (.job id) (touch m))))) := by
  simp only [jobComplete, hrun, hjob, hstage, hhere, Bool.not_true, Bool.false_eq_true, if_false, hop, and_self, if_true, hsecond,
    not_true_eq_false, or_self, jobGivenTo]

end

/-- Settles O44, by the verdicts on a descriptor and by the outcomes of a self-verification. -/
theorem jobsStartAndEnd : Obligations.JobsStartAndEnd := by
  refine ⟨?_, ?_, ?_, ?_⟩
  · intro p i x s hp hcrit hfirst hentry j y
    have hcompletes {P : Mod → Prop} : P (jobsGo (jobDescriptor p s.m)) → completes (.jobDescriptor p) s P :=
      completes_of_engine _ (exec_jobDescriptor p s) hp hcrit
    refine ⟨fun hok => ?_, fun f hstart => ?_, fun code d hstart hcode => ?_, fun k hstart hkey => ?_⟩
    · exact hcompletes (congrArg jobsGo (jobDescriptor_fails hfirst hentry (jobStart_of_not_ok hok) (by decide)))
    · exact hcompletes (congrArg jobsGo (jobDescriptor_runs hfirst hentry hstart))
    · exact hcompletes (congrArg jobsGo (jobDescriptor_fails hfirst hentry hstart hcode))
    · exact hcompletes (congrArg jobsGo (jobDescriptor_halts hfirst hentry hstart hkey))
  · intro p s hjobs hwait
    exact engine_of_fixed _ (exec_jobDescriptor p s) (by rw [jobDescriptor_of_all_waiting hwait, jobsGo_of_no_job hjobs])
  · intro t u b1 b2 id j src ctx s hp hcrit f hrun hjob hstage hhere y
    have hcompletes {P : Mod → Prop} : P (jobsGo (jobComplete f b1 b2 s.m)) → completes (.jobComplete t u b1 b2) s P :=
      completes_of_engine _ (exec_jobComplete t u b1 b2 s) hp hcrit
    refine ⟨fun hgood => ?_, fun hop hbad hlast => ?_, fun hop hbad hbad2 hsecond => ?_⟩
    · exact hcompletes (congrArg jobsGo (jobComplete_verified hrun hjob hstage hhere b2 hgood))
    · subst hbad
      exact hcompletes (congrArg jobsGo (jobComplete_confirmed hrun hjob hstage hhere hop hlast))
    · subst hbad hbad2
      exact hcompletes (congrArg jobsGo (jobComplete_handsOver hrun hjob hstage hhere hop hsecond))
  · intro t u b1 b2 s hjobs
    exact engine_of_fixed _ (exec_jobComplete t u b1 b2 s) (by rw [jobComplete_of_no_job b1 b2 hjobs, jobsGo_of_no_job hjobs])

end Sys2Proof.Machine
end

