-- ==== Sys2Proof/Proofs/FullersAndTiers.lean ====
section
/-! PROOFS. Tier parameters and fullers (the first part of O43): what a fuller that leaves or joins service hands over, and the codes of
the commands. -/
namespace Sys2Proof.Machine

open Sys2Proof.Stmt

/-! ### One fuller (R314) -/

theorem onFuller_of_fixed {f : FullerNo} {u : Fuller → Fuller} {m : Mod} (h : u m.fullers[f] = m.fullers[f]) : onFuller f u m = m := by
  have hset : m.fullers.set f (u m.fullers[f]) = m.fullers := by rw [h]; exact Vector.set_getElem_self f.isLt
  rw [onFuller, hset]

theorem fullers_onFuller_self (f : FullerNo) (u : Fuller → Fuller) (m : Mod) : ((onFuller f u m).fullers[f] : Fuller) = u m.fullers[f] :=
  Vector.getElem_set_self f.isLt

theorem fullers_onFuller_of_ne {f k : FullerNo} (h : k ≠ f) (u : Fuller → Fuller) (m : Mod) :
    ((onFuller f u m).fullers[k] : Fuller) = m.fullers[k] :=
  Vector.getElem_set_ne f.isLt k.isLt fun hval => h (Fin.ext hval.symm)

theorem onFuller_onFuller (f : FullerNo) (u v : Fuller → Fuller) (m : Mod) : onFuller f v (onFuller f u m) = onFuller f (fun g => v (u g)) m := by
  simp [onFuller]

theorem onFuller_congr {f : FullerNo} {u v : Fuller → Fuller} {m : Mod} (h : u m.fullers[f] = v m.fullers[f]) :
    onFuller f u m = onFuller f v m := by
  simp only [onFuller, h]

@[simp] theorem onFuller_jobs (f : FullerNo) (u : Fuller → Fuller) (m : Mod) : (onFuller f u m).jobs = m.jobs := rfl
@[simp] theorem onFuller_mem (f : FullerNo) (u : Fuller → Fuller) (m : Mod) : (onFuller f u m).mem = m.mem := rfl

theorem twin_ne : ∀ f : FullerNo, twin f ≠ f := by decide

theorem fullerHolds_iff (g : Fuller) (w : FullWork) : fullerHolds g w = true ↔ g.run = some w ∨ g.paused = some w ∨ w ∈ g.queue := by
  simp [fullerHolds, or_assoc]

theorem fullerHolds_of_queued {g : Fuller} {w : FullWork} (h : w ∈ g.queue) : fullerHolds g w = true :=
  (fullerHolds_iff g w).mpr (.inr (.inr h))

/-- A fuller that takes up what is next changes alone, and loses nothing but fills from its queue. -/
theorem fullerNext_eq (f : FullerNo) (m : Mod) : ∃ g, fullerNext f m = onFuller f (fun _ => g) m ∧
    ∀ w ∈ (m.fullers[f] : Fuller).queue, isFill w = false → fullerHolds g w = true := by
  have hsame : ∃ g, m = onFuller f (fun _ => g) m ∧ ∀ w ∈ (m.fullers[f] : Fuller).queue, isFill w = false → fullerHolds g w = true :=
    ⟨m.fullers[f], (onFuller_of_fixed rfl).symm, fun w hw _ => fullerHolds_of_queued hw⟩
  unfold fullerNext
  dsimp only
  split
  · exact hsame
  split
  next v hv =>
    have hfill : isFill v = true := List.find?_some hv
    refine ⟨_, rfl, fun w hw hplain => ?_⟩
    have hne : w ≠ v := fun h => by rw [h, hfill] at hplain; cases hplain
    exact fullerHolds_of_queued ((List.mem_erase_of_ne hne).mpr hw)
  · split
    · exact hsame
    split
    · exact ⟨_, rfl, fun w hw _ => fullerHolds_of_queued hw⟩
    split
    next v hv =>
      refine ⟨_, rfl, fun w hw _ => ?_⟩
      by_cases h : w = v
      · exact (fullerHolds_iff _ w).mpr (.inl (congrArg some h.symm))
      · exact fullerHolds_of_queued ((List.mem_erase_of_ne h).mpr hw)
    · exact hsame

/-! ### Fullers without work (R316) -/

theorem fullerNext_of_idle {f : FullerNo} {m : Mod} (h : idleFuller m.fullers[f]) : fullerNext f m = m := by
  obtain ⟨hrun, hpaused, hqueue⟩ := h
  simp only [fullerNext, hrun, hpaused, hqueue, List.find?_nil, Option.isSome_none, Bool.false_eq_true, ite_self]

theorem emptied_of_idle {g : Fuller} (h : idleFuller g) : { g with run := none, paused := none, queue := [] } = g := by
  obtain ⟨mode, mismatch, test, run, paused, queue⟩ := g
  obtain ⟨rfl, rfl, rfl⟩ := h
  rfl

theorem handOver_of_idle {f : FullerNo} {m : Mod} (h : idleFuller m.fullers[f]) : handOver f m = m := by
  have hfixed := onFuller_of_fixed (u := fun g => { g with run := none, paused := none, queue := [] }) (emptied_of_idle h)
  obtain ⟨hrun, hpaused, hqueue⟩ := h
  unfold handOver
  dsimp only
  split
  · rfl
  · simp only [hrun, hpaused, hqueue, Option.toList_none, List.append_nil, List.foldl_nil]
    exact hfixed

theorem handOvers_of_idle {m : Mod} (h : ∀ k : FullerNo, idleFuller m.fullers[k]) : handOvers m = m := by
  have hover : (List.finRange 8).foldl (fun m f => handOver f m) m = m := foldl_of_fixed _ fun k _ => handOver_of_idle (h k)
  rw [handOvers, hover]
  exact foldl_of_fixed _ fun k _ => fullerNext_of_idle (h k)

/-- With no work in any fuller, one that comes back into service takes up none. -/
theorem fullerBack_of_idle {f : FullerNo} {m : Mod} (h : ∀ k : FullerNo, idleFuller m.fullers[k]) :
    fullerBack f m = onFuller f (fun g => { g with mode := 0, test := none }) m := by
  refine handOvers_of_idle fun k => ?_
  by_cases hk : k = f
  · subst hk
    rw [fullers_onFuller_self]
    exact h k
  · rw [fullers_onFuller_of_ne hk]
    exact h k

/-! ### A job goes to the twin (R315, R316) -/

@[simp] theorem jobGivenTo_fullers (g : FullerNo) (id : Nat) (m : Mod) : (jobGivenTo g id m).fullers = m.fullers := rfl
@[simp] theorem jobGivenTo_mem (g : FullerNo) (id : Nat) (m : Mod) : (jobGivenTo g id m).mem = m.mem := rfl

theorem fullerGive_of_unheld {f : FullerNo} {w : FullWork} {m : Mod} (h : ∀ k : FullerNo, fullerHolds m.fullers[k] w = false) :
    fullerGive f w m = fullerNext f (onFuller f (fun g => { g with queue := g.queue ++ [w] }) m) := by
  have hnone : fullerOf m w = none := List.find?_eq_none.mpr fun k _ => by rw [h k]; exact Bool.false_ne_true
  simp only [fullerGive, hnone, Option.isSome_none, Bool.false_eq_true, if_false]
  rfl

section
variable {f : FullerNo} {id : Nat} {m : Mod} (hmode : (m.fullers[f] : Fuller).mode ≠ 0) (hrun : (m.fullers[f] : Fuller).run = some (.job id))
  (hpaused : (m.fullers[f] : Fuller).paused = none) (hqueue : (m.fullers[f] : Fuller).queue = [])
  (htwin : (m.fullers[twin f] : Fuller).mode = 0)
include hmode hrun hpaused hqueue htwin

/-- The only work of a fuller out of service, a job, goes to its twin in service. -/
theorem handOver_of_job : handOver f m = fullerGive (twin f) (.job id) (jobGivenTo (twin f) id (onFuller f (fun g => { g with run := none }) m)) := by
  have hemptied : onFuller f (fun g => { g with run := none, paused := none, queue := [] }) m = onFuller f (fun g => { g with run := none }) m :=
    onFuller_congr (by rw [hpaused, hqueue])
  have htwin' : ((onFuller f (fun g => { g with run := none }) m).fullers[twin f] : Fuller).mode = 0 := by
    rwa [fullers_onFuller_of_ne (twin_ne f)]
  rw [← hemptied] at htwin' ⊢
  unfold handOver
  simp only [if_neg hmode, hrun, hpaused, hqueue, Option.toList_some, Option.toList_none, List.append_nil, List.foldl_cons, List.foldl_nil]
  unfold onFuller at htwin'
  rw [if_pos htwin']
  rfl

theorem handOver_job_frame (hothers : ∀ k : FullerNo, k ≠ f → fullerHolds m.fullers[k] (.job id) = false) :
    ((handOver f m).fullers[f] : Fuller) = { (m.fullers[f] : Fuller) with run := none } ∧
    fullerHolds (handOver f m).fullers[twin f] (.job id) = true ∧
    (handOver f m).jobs = m.jobs.map (fun j => if j.id = id then { j with fuller := (twin f).val } else j) ∧ (handOver f m).mem = m.mem := by
  have hunheld (k : FullerNo) :
      fullerHolds (jobGivenTo (twin f) id (onFuller f (fun g => { g with run := none }) m)).fullers[k] (.job id) = false := by
    by_cases hk : k = f
    · subst hk
      rw [jobGivenTo_fullers, fullers_onFuller_self]
      simp only [fullerHolds, hpaused, hqueue]
      rfl
    · rw [jobGivenTo_fullers, fullers_onFuller_of_ne hk]
      exact hothers k hk
  rw [handOver_of_job hmode hrun hpaused hqueue htwin, fullerGive_of_unheld hunheld]
  obtain ⟨g, hnext, hholds⟩ := fullerNext_eq (twin f) (onFuller (twin f) (fun g => { g with queue := g.queue ++ [.job id] })
    (jobGivenTo (twin f) id (onFuller f (fun g => { g with run := none }) m)))
  rw [hnext]
  refine ⟨?_, ?_, ?_, by simp only [onFuller_mem, jobGivenTo_mem]⟩
  · rw [fullers_onFuller_of_ne (twin_ne f).symm, fullers_onFuller_of_ne (twin_ne f).symm, jobGivenTo_fullers, fullers_onFuller_self]
  · rw [fullers_onFuller_self]
    exact hholds _ (by rw [fullers_onFuller_self]; simp) rfl
  · simp [jobGivenTo]

end

/-! ### The commands (R298, R315, R317, R319) -/

def tierSetOwn (tile param value : Nat) (c : AdminTag) (m : Mod) : Mod :=
  if param = 4 then done c 0xD5 m
  else if (m.tiers[(Fin.ofNat 4 tile : Tile)] : TierSt).poolSize = 0 then done c 0xD6 m
  else done c 0x00 (onTier (Fin.ofNat 4 tile) (fun ts => { ts with setNext := ts.setNext ++ [(param, value)] }) m)

def fullerOutOwn (f : FullerNo) (c : AdminTag) (m : Mod) : Mod :=
  if m.fullers.toList.any (fun g => g.mode == 1) || (m.fullers[f] : Fuller).mode != 0 then done c 0xD1 m
  else done c 0x00 (handOver f (onFuller f (fun g => { g with mode := 1 }) m))

def fullerInOwn (f : FullerNo) (c : AdminTag) (m : Mod) : Mod :=
  if (m.fullers[f] : Fuller).mode = 0 || (m.fullers[f] : Fuller).test.isSome then done c 0xD2 m else done c 0x00 (fullerBack f m)

def fullerTestOwn (f : FullerNo) (c : AdminTag) (m : Mod) : Mod :=
  if (m.fullers[f] : Fuller).mode = 0 || (m.fullers[f] : Fuller).test.isSome then done c 0xD2 m
  else onFuller f (fun g => { g with test := some c }) m

/-- When FULLER_OUT refuses: a fuller is out by command already, or this one is not in service. -/
theorem fullerOut_refused_iff (one : Bool) (g : Fuller) : (one || g.mode != 0) = true ↔ one = true ∨ g.mode ≠ 0 := by simp

/-- When FULLER_IN and FULLER_TEST refuse: the fuller is in service or under test. -/
theorem fuller_busy_iff (g : Fuller) : (decide (g.mode = 0) || g.test.isSome) = true ↔ g.mode = 0 ∨ g.test.isSome = true := by simp

theorem exec_fullerOut (h : AdminHdr) (n : Nat) (s : State) :
    exec (.fullerOut h n) s = .next (onMod (admin h 0x0505 (n < 8) (fullerOutOwn (Fin.ofNat 8 n))) s) := rfl

theorem exec_fullerIn (h : AdminHdr) (n : Nat) (s : State) :
    exec (.fullerIn h n) s = .next (onMod (admin h 0x0506 (n < 8) (fullerInOwn (Fin.ofNat 8 n))) s) := rfl

theorem exec_fullerTest (h : AdminHdr) (n : Nat) (s : State) :
    exec (.fullerTest h n) s = .next (onMod (admin h 0x0507 (n < 8) (fullerTestOwn (Fin.ofNat 8 n))) s) := rfl

theorem completes_tierSet {h : AdminHdr} {tile p v : Nat} {s : State} {P : Mod → Prop} (ha : accepted h 0x0501 s)
    (hform : adminForm (.tierSet h tile p v) = some (h, 0x0501, true)) (hP : P (tierSetOwn tile p v (tagOf h 0x0501) (begun h 0x0501 s.m))) :
    completes (.tierSet h tile p v) s P := by
  simp only [adminForm, Option.some.injEq, Prod.mk.injEq, true_and] at hform
  exact completes_of_inRange (tierSetOwn tile p v) rfl ha hform hP

/-- TIER_BYPASS and TIER_RESUME set the tile's bypass. -/
theorem setsBypass_of_exec {c : Instr} {on : Bool} {op : BitVec 16} {h : AdminHdr} {tile : Nat} {s : State}
    (hc : exec c s = .next (onMod (tierBypass on op h tile) s)) : setsBypass c h op tile on s := by
  intro ha htile old
  refine completes_of_inRange _ hc ha (decide_eq_true htile) ?_
  split_ifs with hpool
  · exact if_pos hpool
  · exact if_neg hpool

section
variable {f : FullerNo} {m : Mod} (hnone : m.fullers.toList.any (fun g => g.mode == 1) = false) (hin : (m.fullers[f] : Fuller).mode = 0)
include hnone hin

theorem fullerOutOwn_of_free (c : AdminTag) : fullerOutOwn f c m = done c 0x00 (handOver f (onFuller f (fun g => { g with mode := 1 }) m)) :=
  if_neg (by rw [hnone, hin]; decide)

theorem fullerOutOwn_of_idle (c : AdminTag) (hidle : idleFuller m.fullers[f]) :
    fullerOutOwn f c m = done c 0x00 (onFuller f (fun g => { g with mode := 1 }) m) := by
  rw [fullerOutOwn_of_free hnone hin, handOver_of_idle (by rw [fullers_onFuller_self]; exact hidle)]

/-- The job of a fuller that goes out is its twin's. -/
theorem fullerOutOwn_of_job (c : AdminTag) {id : Nat} (hrun : (m.fullers[f] : Fuller).run = some (.job id))
    (hpaused : (m.fullers[f] : Fuller).paused = none) (hqueue : (m.fullers[f] : Fuller).queue = []) (htwin : (m.fullers[twin f] : Fuller).mode = 0)
    (hothers : ∀ k : FullerNo, k ≠ f → fullerHolds m.fullers[k] (.job id) = false) :
    ∃ x, fullerOutOwn f c m = done c 0x00 x ∧ (x.fullers[f] : Fuller) = { (m.fullers[f] : Fuller) with mode := 1, run := none } ∧
      fullerHolds x.fullers[twin f] (.job id) = true ∧
      x.jobs = m.jobs.map (fun j => if j.id = id then { j with fuller := (twin f).val } else j) ∧ x.mem = m.mem := by
  have hself := fullers_onFuller_self f (fun g => { g with mode := 1 }) m
  obtain ⟨hout, hholds, hjobs, hmem⟩ := handOver_job_frame (f := f) (id := id) (m := onFuller f (fun g => { g with mode := 1 }) m)
    (by rw [hself]; exact Nat.one_ne_zero) (by rw [hself, ← hrun]) (by rw [hself, ← hpaused]) (by rw [hself, ← hqueue])
    (by rwa [fullers_onFuller_of_ne (twin_ne f)]) (fun k hk => by rw [fullers_onFuller_of_ne hk]; exact hothers k hk)
  rw [hself] at hout
  exact ⟨_, fullerOutOwn_of_free hnone hin c, hout, hholds, hjobs, hmem⟩

end

theorem fullerInOwn_of_idle {f : FullerNo} {m : Mod} (c : AdminTag) (hout : (m.fullers[f] : Fuller).mode ≠ 0)
    (htest : (m.fullers[f] : Fuller).test = none) (hidle : ∀ k : FullerNo, idleFuller m.fullers[k]) :
    fullerInOwn f c m = done c 0x00 (onFuller f (fun g => { g with mode := 0 }) m) := by
  have hback : onFuller f (fun g => { g with mode := 0, test := none }) m = onFuller f (fun g => { g with mode := 0 }) m :=
    onFuller_congr (by rw [htest])
  rw [fullerInOwn, if_neg (by rw [fuller_busy_iff, htest]; simpa using hout), fullerBack_of_idle hidle, hback]

/-- What the end of a fuller's known-answer vectors does. -/
def fullerTestOver (f : FullerNo) (failing : Option Byte) (m : Mod) : Mod :=
  match (m.fullers[f] : Fuller).test with
  | none => m
  | some c => match failing with
    | none => done c 0x00 (fullerBack f m)
    | some v => complete c 0xD3 0 (v.setWidth 96) (onFuller f (fun g => { g with test := none }) m)

theorem exec_fullerTestEnd (f : FullerNo) (v : Option Byte) (s : State) :
    exec (.fullerTestEnd f v) s = .next (onMod (fullerTestOver f v) s) := rfl

theorem fullerTestOver_of_none {f : FullerNo} {m : Mod} (v : Option Byte) (h : (m.fullers[f] : Fuller).test = none) : fullerTestOver f v m = m := by
  simp only [fullerTestOver, h]

theorem fullerTestOver_passed {f : FullerNo} {c : AdminTag} {m : Mod} (h : (m.fullers[f] : Fuller).test = some c)
    (hidle : ∀ k : FullerNo, idleFuller m.fullers[k]) :
    fullerTestOver f none m = done c 0x00 (onFuller f (fun g => { g with mode := 0, test := none }) m) := by
  simp only [fullerTestOver, h, fullerBack_of_idle hidle]

theorem fullerTestOver_failed {f : FullerNo} {c : AdminTag} {m : Mod} (v : Byte) (h : (m.fullers[f] : Fuller).test = some c) :
    fullerTestOver f (some v) m = complete c 0xD3 0 (v.setWidth 96) (onFuller f (fun g => { g with test := none }) m) := by
  simp only [fullerTestOver, h]

/-- The first part of O43, by the codes of each command and by what its fuller hands over. -/
theorem tierParametersAndFullersAreSet : TierParametersAndFullersAreSet := by
  refine ⟨?_, ?_, ?_, ?_, ?_, ?_, ?_, ?_⟩
  · intro h tile p v s ha hform old b
    refine completes_tierSet ha hform ?_
    split_ifs with hparam hpool
    · exact if_pos hparam
    · exact (if_neg hparam).trans (if_pos hpool)
    · exact (if_neg hparam).trans (if_neg hpool)
  · exact fun h tile s => setsBypass_of_exec (on := true) rfl
  · exact fun h tile s => setsBypass_of_exec (on := false) rfl
  · intro h n s ha hn f g b
    have hcompletes {P : Mod → Prop} : P (fullerOutOwn f (tagOf h 0x0505) b) → completes (.fullerOut h n) s P :=
      completes_of_inRange _ (exec_fullerOut h n s) ha (decide_eq_true hn)
    refine ⟨fun hbusy => hcompletes (if_pos ((fullerOut_refused_iff ..).mpr hbusy)), fun hnone hin hidle => ?_,
      fun id hnone hin hrun hpaused hqueue htwin hothers => ?_⟩
    · exact hcompletes (fullerOutOwn_of_idle (m := b) hnone hin _ hidle)
    · exact hcompletes (fullerOutOwn_of_job (m := b) hnone hin _ hrun hpaused hqueue htwin hothers)
  · intro h n s ha hn f g b
    have hcompletes {P : Mod → Prop} : P (fullerInOwn f (tagOf h 0x0506) b) → completes (.fullerIn h n) s P :=
      completes_of_inRange _ (exec_fullerIn h n s) ha (decide_eq_true hn)
    refine ⟨fun hbusy => hcompletes (if_pos ((fuller_busy_iff _).mpr hbusy)), fun hout htest hidle => ?_⟩
    exact hcompletes (fullerInOwn_of_idle (m := b) _ hout htest hidle)
  · intro h n s ha hn f g
    refine completes_of_inRange _ (exec_fullerTest h n s) ha (decide_eq_true hn) ?_
    split_ifs with hbusy
    · exact if_pos ((fuller_busy_iff _).mpr hbusy)
    · exact if_neg (mt (fuller_busy_iff _).mp hbusy)
  · intro f c s hp htest
    exact ⟨fun hidle => completes_of_onMod _ (exec_fullerTestEnd f none s) hp (fullerTestOver_passed htest hidle),
      fun v => completes_of_onMod _ (exec_fullerTestEnd f (some v) s) hp (fullerTestOver_failed v htest)⟩
  · exact fun f v s h => exec_of_fixed _ (exec_fullerTestEnd f v s) (fullerTestOver_of_none v h)

end Sys2Proof.Machine
end

