-- ==== Sys2Proof/Proofs/TierMap.lean ====
section
/-! PROOFS. The tier map under the operations of the tier engine: what a write of an entry leaves of the map, and what the writing of a
tier-map batt, the end of a move and a report leave of the tiers, of DRAM and of the places of the slices' lines. -/
namespace Sys2Proof.Machine

/-! ### Tables -/

section
variable {α : Type} (d : α) (t : List (Nat × α)) (k : Nat)

@[simp] theorem tabGet_tabDel_self : tabGet d (tabDel t k) k = d := by
  rw [tabGet, tabDel, find?_filter_key t (fun i => i != k), bne_self_eq_false, if_neg Bool.false_ne_true]

theorem tabGet_tabDel_of_ne {j : Nat} (h : j ≠ k) : tabGet d (tabDel t k) j = tabGet d t j := by
  rw [tabGet, tabDel, find?_filter_key t (fun i => i != k), bne_iff_ne.mpr h, if_pos rfl, tabGet]

/-- What a table gives for a key is the default or stands in the table. -/
theorem tabGet_cases : tabGet d t k = d ∨ ∃ e ∈ t, tabGet d t k = e.2 := by
  unfold tabGet
  split
  next e he => exact .inr ⟨e, List.mem_of_find?_eq_some he, rfl⟩
  next => exact .inl rfl

end

/-! ### One tile's tier state -/

theorem tiers_onTier_self (t : Tile) (f : TierSt → TierSt) (m : Mod) : ((onTier t f m).tiers[t] : TierSt) = f m.tiers[t] :=
  Vector.getElem_set_self t.isLt

theorem tiers_onTier_of_ne {t u : Tile} (h : u ≠ t) (f : TierSt → TierSt) (m : Mod) : ((onTier t f m).tiers[u] : TierSt) = m.tiers[u] :=
  Vector.getElem_set_ne t.isLt u.isLt fun hval => h (Fin.ext hval.symm)

theorem onTier_of_fixed {t : Tile} {f : TierSt → TierSt} {m : Mod} (h : f m.tiers[t] = m.tiers[t]) : onTier t f m = m := by
  have hset : m.tiers.set t (f m.tiers[t]) = m.tiers := by rw [h]; exact Vector.set_getElem_self t.isLt
  rw [onTier, hset]

theorem onTier_onTier (t : Tile) (f g : TierSt → TierSt) (m : Mod) : onTier t g (onTier t f m) = onTier t (fun ts => g (f ts)) m := by
  simp [onTier]

theorem onTier_congr {t : Tile} {f g : TierSt → TierSt} {m : Mod} (h : f m.tiers[t] = g m.tiers[t]) : onTier t f m = onTier t g m := by
  simp only [onTier, h]

/-! ### Batts, fullers and reports beside the tiers -/

/-- The space and address of every line of a slice. -/
def linePlaces (s : Slice) : List (BitVec 2 × Nat) := s.lines.map (fun l => (l.space, lineAddr l))

/-- `m'` has the tiers and the DRAM of `m`, and in its slices lines of the same places. -/
structure KeepsTiers (m m' : Mod) : Prop where
  tiers : m'.tiers = m.tiers
  mem : m'.mem = m.mem
  places : ∀ u : Tile, linePlaces m'.slices[u] = linePlaces m.slices[u]

theorem keepsTiers_refl (m : Mod) : KeepsTiers m m := ⟨rfl, rfl, fun _ => rfl⟩

theorem KeepsTiers.trans {a b c : Mod} (h : KeepsTiers a b) (k : KeepsTiers b c) : KeepsTiers a c :=
  ⟨k.tiers.trans h.tiers, k.mem.trans h.mem, fun u => (k.places u).trans (h.places u)⟩

theorem keepsTiers_of_slices_eq {m m' : Mod} (ht : m'.tiers = m.tiers) (hm : m'.mem = m.mem) (hs : m'.slices = m.slices) : KeepsTiers m m' :=
  ⟨ht, hm, fun u => by rw [hs]⟩

theorem onSlice_keepsTiers {f : Slice → Slice} (h : ∀ s, linePlaces (f s) = linePlaces s) (t : Tile) (m : Mod) :
    KeepsTiers m (onSlice t f m) := by
  refine ⟨rfl, rfl, fun u => ?_⟩
  by_cases hu : u = t
  · subst hu
    rw [slices_onSlice_self, h]
  · rw [slices_onSlice_of_ne hu]

/-- A change of lines that leaves each in its place. -/
theorem linePlaces_map {f : Line → Line} (h : ∀ l, (f l).space = l.space ∧ lineAddr (f l) = lineAddr l) (s : Slice) :
    linePlaces { s with lines := s.lines.map f } = linePlaces s := by
  simp only [linePlaces, List.map_map]
  exact List.map_congr_left fun l _ => by simp [h l]

theorem ringsOnly_keepsTiers {m m' : Mod} (h : ringsOnly m m') : KeepsTiers m m' := by
  refine ⟨?_, ringsOnly_mem h, fun u => ?_⟩
  · obtain ⟨_, _, _, _, _, _, _, _, _, rfl⟩ := h
    rfl
  · obtain ⟨f, hf⟩ := ringsOnly_slice h u
    rw [hf]
    rfl

theorem dropHere_keepsTiers (own : Owner) (m : Mod) : KeepsTiers m (dropHere own m) := ⟨rfl, rfl, fun _ => rfl⟩

theorem therm_keepsTiers (x : ThermSt) (m : Mod) : KeepsTiers m { m with therm := x } := ⟨rfl, rfl, fun _ => rfl⟩

theorem fullerNext_keepsTiers (f : FullerNo) (m : Mod) : KeepsTiers m (fullerNext f m) := by
  obtain ⟨g, h, -⟩ := fullerNext_eq f m
  rw [h]
  exact ⟨rfl, rfl, fun _ => rfl⟩

theorem fullersNext_keepsTiers (m : Mod) : KeepsTiers m (fullersNext m) :=
  foldl_rel KeepsTiers keepsTiers_refl (fun _ _ _ => KeepsTiers.trans) (fun m f => fullerNext f m) (fun m f => fullerNext_keepsTiers f m)
    (List.finRange 8) m

theorem fullerEnd_keepsTiers (w : FullWork) (m : Mod) : KeepsTiers m (fullerEnd w m) := by
  unfold fullerEnd
  refine KeepsTiers.trans ?_ (fullersNext_keepsTiers _)
  exact ⟨rfl, rfl, fun _ => rfl⟩

theorem wbPut_keepsTiers (cls : SlotClass) (kind : Nat) (label : BitVec 3) (da : Nat) (b : Batt) (poison : Bool) (m : Mod) :
    KeepsTiers m (wbPut cls kind label da b poison m) := by
  unfold wbPut awaitEntry
  dsimp only
  split_ifs
  all_goals exact keepsTiers_of_slices_eq rfl rfl rfl

theorem metaSet_keepsTiers (da : Nat) (b : Batt) (m : Mod) : KeepsTiers m (metaSet da b m) :=
  onSlice_keepsTiers (fun s => linePlaces_map (fun l => by split <;> exact ⟨rfl, rfl⟩) s) _ m

theorem metaTouch_keepsTiers (da : Nat) (m : Mod) : KeepsTiers m (metaTouch da m) :=
  onSlice_keepsTiers (fun s => linePlaces_map (fun l => by split <;> exact ⟨rfl, rfl⟩) s) _ m

theorem metaPut_keepsTiers (da : Nat) (b : Batt) (m : Mod) : KeepsTiers m (metaPut da b m) := by
  unfold metaPut
  split
  · exact metaSet_keepsTiers ..
  · exact wbPut_keepsTiers ..

theorem tmapPut_keepsTiers (t : Tile) (q : Nat) (m : Mod) : KeepsTiers m (tmapPut t q m) := metaPut_keepsTiers ..

/-! ### What leaves the tier map and the trims -/

/-- `m'` has the tier map, the trims and the DRAM of `m`, and in its slices lines of the same places. -/
structure KeepsMap (m m' : Mod) : Prop where
  tmap : ∀ u : Tile, (m'.tiers[u] : TierSt).tmap = (m.tiers[u] : TierSt).tmap
  trims : ∀ u : Tile, (m'.tiers[u] : TierSt).trims = (m.tiers[u] : TierSt).trims
  mem : m'.mem = m.mem
  places : ∀ u : Tile, linePlaces m'.slices[u] = linePlaces m.slices[u]

theorem keepsMap_refl (m : Mod) : KeepsMap m m := ⟨fun _ => rfl, fun _ => rfl, rfl, fun _ => rfl⟩

theorem KeepsMap.trans {a b c : Mod} (h : KeepsMap a b) (k : KeepsMap b c) : KeepsMap a c :=
  ⟨fun u => (k.tmap u).trans (h.tmap u), fun u => (k.trims u).trans (h.trims u), k.mem.trans h.mem, fun u => (k.places u).trans (h.places u)⟩

theorem KeepsTiers.keepsMap {m m' : Mod} (h : KeepsTiers m m') : KeepsMap m m' :=
  ⟨fun u => by rw [h.tiers], fun u => by rw [h.tiers], h.mem, h.places⟩

theorem KeepsMap.teGet_eq {m m' : Mod} (h : KeepsMap m m') (t : Tile) (q : Nat) : teGet m' t q = teGet m t q := by
  rw [teGet, h.tmap, teGet]

theorem onTier_keepsMap {f : TierSt → TierSt} (h : ∀ ts, (f ts).tmap = ts.tmap ∧ (f ts).trims = ts.trims) (t : Tile) (m : Mod) :
    KeepsMap m (onTier t f m) := by
  refine ⟨fun u => ?_, fun u => ?_, rfl, fun _ => rfl⟩ <;> by_cases hu : u = t
  · subst hu
    rw [tiers_onTier_self, (h _).1]
  · rw [tiers_onTier_of_ne hu]
  · subst hu
    rw [tiers_onTier_self, (h _).2]
  · rw [tiers_onTier_of_ne hu]

theorem freeFrame_keepsMap (t : Tile) (f : Nat) (m : Mod) : KeepsMap m (freeFrame t f m) :=
  onTier_keepsMap (fun ts => by split <;> exact ⟨rfl, rfl⟩) t m

theorem event_keepsTiers (k : BitVec 16) (l : Word32) (d : Nat) (m : Mod) : KeepsTiers m (event k l d m) :=
  ringsOnly_keepsTiers (reports_ringsOnly (event_reports ..))

theorem capHeel_keepsMap (t : Tile) (m : Mod) : KeepsMap m (capHeel t m) := by
  unfold capHeel
  dsimp only
  split_ifs
  · exact keepsMap_refl m
  · refine KeepsMap.trans ?_ (event_keepsTiers ..).keepsMap
    exact (onTier_keepsMap (f := fun ts => { ts with heel := true }) (fun _ => ⟨rfl, rfl⟩) t m).trans (therm_keepsTiers ..).keepsMap
  · refine KeepsMap.trans ?_ (event_keepsTiers ..).keepsMap
    exact (onTier_keepsMap (f := fun ts => { ts with heel := false, enforce := false }) (fun _ => ⟨rfl, rfl⟩) t m).trans
      (therm_keepsTiers ..).keepsMap
  · exact keepsMap_refl m

/-! ### The end of a move (R300, R301) -/

theorem moves_freeFrame (t u : Tile) (f : Nat) (m : Mod) : ((freeFrame t f m).tiers[u] : TierSt).moves = (m.tiers[u] : TierSt).moves := by
  unfold freeFrame
  by_cases hu : u = t
  · subst hu
    rw [tiers_onTier_self]
    split <;> rfl
  · rw [tiers_onTier_of_ne hu]

/-- The tile without the move and without what was reserved for it. -/
def withoutMove (v : Move) (ts : TierSt) : TierSt :=
  { ts with
    moves := ts.moves.erase v
    reserved := if v.kind == .promotion || v.kind == .backing then ts.reserved.filter (fun x => x.1 != v.page) else ts.reserved }

/-- The working frame that a demotion took returns when it holds no page. -/
def frameBack (t : Tile) (v : Move) (m : Mod) : Mod :=
  if v.len != 0 && !(sharedFrames m.tiers[t]).contains v.frame then freeFrame t v.frame m else m

theorem dropMove_keepsTiers (t : Tile) (v : Move) (m : Mod) : KeepsTiers (frameBack t v (onTier t (withoutMove v) m)) (dropMove t v m) := by
  have hdrop : dropMove t v m = dropHere (.page t v.page) (tmapPut t v.page (if needsFuller v.kind then
      fullerEnd (.move t v.page) (frameBack t v (onTier t (withoutMove v) m)) else frameBack t v (onTier t (withoutMove v) m))) := rfl
  rw [hdrop]
  refine KeepsTiers.trans ?_ ((tmapPut_keepsTiers ..).trans (dropHere_keepsTiers ..))
  split
  · exact fullerEnd_keepsTiers ..
  · exact keepsTiers_refl _

theorem frameBack_keepsMap (t : Tile) (v : Move) (m : Mod) : KeepsMap m (frameBack t v m) := by
  unfold frameBack
  split
  · exact freeFrame_keepsMap ..
  · exact keepsMap_refl m

theorem moves_frameBack (t : Tile) (v : Move) (m : Mod) : ((frameBack t v m).tiers[t] : TierSt).moves = (m.tiers[t] : TierSt).moves := by
  unfold frameBack
  split
  · exact moves_freeFrame ..
  · rfl

theorem dropMove_keepsMap (t : Tile) (v : Move) (m : Mod) : KeepsMap m (dropMove t v m) :=
  ((onTier_keepsMap (f := withoutMove v) (fun _ => ⟨rfl, rfl⟩) t m).trans (frameBack_keepsMap ..)).trans (dropMove_keepsTiers ..).keepsMap

theorem moves_dropMove (t : Tile) (v : Move) (m : Mod) : ((dropMove t v m).tiers[t] : TierSt).moves = (m.tiers[t] : TierSt).moves.erase v := by
  rw [(dropMove_keepsTiers t v m).tiers, moves_frameBack, tiers_onTier_self, withoutMove]

/-! ### Writing an entry (R292) -/

/-- A write of an entry is that of its place in the table, and of its batt. -/
theorem tePut_eq (t : Tile) (q : Nat) (e : Word64) (m : Mod) : ∃ f : List (Nat × Word64) → List (Nat × Word64),
    KeepsTiers (onTier t (fun ts => { ts with tmap := f ts.tmap }) m) (tePut t q e m) ∧
    tabGet 0 (f (m.tiers[t] : TierSt).tmap) q = e ∧ ∀ p, p ≠ q → tabGet 0 (f (m.tiers[t] : TierSt).tmap) p = teGet m t p := by
  unfold tePut
  split
  next h => exact ⟨id, by rw [onTier_of_fixed rfl]; exact keepsTiers_refl m, h, fun _ _ => rfl⟩
  next =>
    refine ⟨fun l => if e = 0 then tabDel l q else tabPut l q e, tmapPut_keepsTiers .., ?_, fun p hp => ?_⟩ <;> dsimp only <;> split
    next h => rw [tabGet_tabDel_self, h]
    next => rw [tabGet_tabPut_self]
    next => exact tabGet_tabDel_of_ne _ _ _ hp
    next => exact tabGet_tabPut_of_ne _ _ _ _ hp

theorem teGet_tePut_self (t : Tile) (q : Nat) (e : Word64) (m : Mod) : teGet (tePut t q e m) t q = e := by
  obtain ⟨f, h, hself, -⟩ := tePut_eq t q e m
  rw [teGet, h.tiers, tiers_onTier_self]
  exact hself

theorem teGet_tePut_of_ne (t : Tile) {p q : Nat} (hp : p ≠ q) (e : Word64) (m : Mod) : teGet (tePut t q e m) t p = teGet m t p := by
  obtain ⟨f, h, -, hothers⟩ := tePut_eq t q e m
  rw [teGet, h.tiers, tiers_onTier_self]
  exact hothers p hp

section
variable (t : Tile) (q : Nat) (e : Word64) (m : Mod)

theorem moves_tePut : ((tePut t q e m).tiers[t] : TierSt).moves = (m.tiers[t] : TierSt).moves := by
  obtain ⟨f, h, -⟩ := tePut_eq t q e m
  rw [h.tiers, tiers_onTier_self]

theorem trims_tePut : ((tePut t q e m).tiers[t] : TierSt).trims = (m.tiers[t] : TierSt).trims := by
  obtain ⟨f, h, -⟩ := tePut_eq t q e m
  rw [h.tiers, tiers_onTier_self]

theorem tePut_mem : (tePut t q e m).mem = m.mem := by
  obtain ⟨f, h, -⟩ := tePut_eq t q e m
  rw [h.mem, onTier_mem]

theorem linePlaces_tePut (u : Tile) : linePlaces (tePut t q e m).slices[u] = linePlaces m.slices[u] := by
  obtain ⟨f, h, -⟩ := tePut_eq t q e m
  rw [h.places u, onTier_slices]

end

end Sys2Proof.Machine
end

