-- ==== Sys2Proof/Proofs/TierSweeps.lean ====
section
/-! PROOFS. Sweeps of the tier engine (O43): what TIER_SET has set takes effect, and pages that were read since the last sweep age without a move. -/
namespace Sys2Proof.Machine

/-! ### Entries that age (R292, R299) -/

theorem bitsOf_putBits_of_disjoint {n w : Nat} (x : BitVec n) (v : BitVec w) {lo lo' len : Nat} (h : lo' + len ≤ lo ∨ lo + w ≤ lo')
    (hn : lo' + len ≤ n) : bitsOf (putBits x lo v) lo' len = bitsOf x lo' len := by
  apply BitVec.eq_of_getLsbD_eq
  intro i hi
  rw [BitVec.getLsbD_extractLsb', BitVec.getLsbD_extractLsb', getLsbD_putBits _ _ _ _ (by omega), if_neg (by omega)]

theorem bitsOf_putBits_self {n w : Nat} (x : BitVec n) (v : BitVec w) (lo : Nat) (hn : lo + w ≤ n) : bitsOf (putBits x lo v) lo w = v := by
  apply BitVec.eq_of_getLsbD_eq
  intro i hi
  rw [BitVec.getLsbD_extractLsb', getLsbD_putBits _ _ _ _ (by omega), if_pos (by omega), decide_eq_true hi, Bool.true_and, Nat.add_sub_cancel_left]

/-- The ageing of a page that was read clears ACC and AGE. -/
theorem ageEntry_of_read {e : Word64} (hstate : teState e ≠ 0) (hacc : teAcc e = true) :
    ageEntry e = putBits (putBit e 37 false) 38 (0#4) := by
  rw [ageEntry, if_neg hstate, if_pos hacc]

theorem teAge_ageEntry_of_read {e : Word64} (hstate : teState e ≠ 0) (hacc : teAcc e = true) : teAge (ageEntry e) = 0 := by
  rw [ageEntry_of_read hstate hacc, teAge, bitsOf_putBits_self _ _ _ (by decide)]
  rfl

theorem teState_ageEntry_of_read {e : Word64} (hstate : teState e ≠ 0) (hacc : teAcc e = true) : teState (ageEntry e) = teState e := by
  rw [ageEntry_of_read hstate hacc, teState, putBit, bitsOf_putBits_of_disjoint _ _ (.inl (by decide)) (by decide),
    bitsOf_putBits_of_disjoint _ _ (.inl (by decide)) (by decide), teState]

/-! ### What TIER_SET has set (R298) -/

theorem takeParams_of_none {ts : TierSt} (h : ts.setNext = []) : takeParams ts = ts := by
  unfold takeParams
  rw [h, List.foldl_nil, ← h]

theorem takeParams_tmap (ts : TierSt) : (takeParams ts).tmap = ts.tmap :=
  foldl_keep TierSt.tmap (fun ts x => setParam x ts) (fun ts x => by unfold setParam; split <;> rfl) ts.setNext ts

/-! ### The start of a sweep -/

/-- The tier-map batts that hold an entry of a backed page. -/
def backedBatts (ts : TierSt) : List Nat := ((ts.tmap.filter (fun e => teState e.2 != 0)).map (fun e => e.1 / 32)).eraseDups

section
variable {t : Tile} {m : Mod} (hstop : m.prot.stop = none) (hcrit : m.therm.critical = false) (hsweep : (m.tiers[t] : TierSt).sweep = [])
include hstop hcrit hsweep

/-- With no backed page a sweep takes up the parameters and is over. -/
theorem tierSweep_of_unbacked (htmap : (m.tiers[t] : TierSt).tmap = []) :
    tierSweep t m = onTier t (fun ts => { takeParams ts with fills := [] }) m := by
  have hnone : ((onTier t takeParams m).tiers[t] : TierSt).tmap = [] := by rw [tiers_onTier_self, takeParams_tmap, htmap]
  simp only [tierSweep, hstop, hcrit, hsweep, Option.isSome_none, Bool.or_self, Bool.false_eq_true, if_false, List.isEmpty_nil, if_true, hnone,
    List.filter_nil, List.map_nil, List.eraseDups_nil]
  exact onTier_onTier ..

theorem tierSweep_of_backed (hset : (m.tiers[t] : TierSt).setNext = []) {g : Nat} (hbatts : backedBatts m.tiers[t] = [g])
    (hhere : teHere m t (32 * g) = true) (hgood : teBad m t (32 * g) = false) : tierSweep t m = sweepOver t (sweepBatt t g m) := by
  have hparams : onTier t takeParams m = m := onTier_of_fixed (takeParams_of_none hset)
  have hjoin : onTier t (fun ts => { ts with sweep := (ts.sweep ++ [g]).eraseDups }) m = onTier t (fun ts => { ts with sweep := [g] }) m :=
    onTier_congr (by rw [hsweep]; rfl)
  have hleft : onTier t (fun ts => { ts with sweep := [] }) (onTier t (fun ts => { ts with sweep := [g] }) m) = m := by
    rw [onTier_onTier]
    exact onTier_of_fixed (by rw [← hsweep])
  have hgo : sweepGo 1 t (onTier t (fun ts => { ts with sweep := [g] }) m) = sweepOver t (sweepBatt t g m) := by
    have hhere' : teHere (onTier t (fun ts => { ts with sweep := [g] }) m) t (32 * g) = true := by
      rw [← hhere, teHere, tiers_onTier_self]
      rfl
    simp only [sweepGo, tiers_onTier_self, onTier_prot, onTier_therm, hstop, hcrit, hhere', Option.isSome_none, Bool.or_self, Bool.not_true,
      Bool.false_eq_true, if_false, hleft, hgood, List.isEmpty_nil, if_true]
  unfold backedBatts at hbatts
  simp only [tierSweep, hstop, hcrit, hsweep, Option.isSome_none, Bool.or_self, Bool.false_eq_true, if_false, List.isEmpty_nil, if_true, hparams,
    hbatts, List.isEmpty_cons, hjoin]
  rw [tiers_onTier_self]
  exact hgo

end

/-! ### Pages that were read since the last sweep (R299) -/

theorem sweepPage_of_young {t : Tile} {q : Nat} {m : Mod} (hstate : teState (teGet m t q) ≠ 2)
    (hage : teState (teGet m t q) = 1 → teAge (teGet m t q) = 0) (hdemote : 1 ≤ (m.tiers[t] : TierSt).demoteAge) : sweepPage t q m = m := by
  unfold sweepPage
  dsimp only
  split
  · rfl
  split
  · rfl
  refine if_neg fun h => ?_
  obtain ⟨hone, -, -, -, hold, -⟩ := h
  have := hage hone
  omega

/-- Without a fulled page there is nothing to compact. -/
theorem startCompact_of_none_fulled {t : Tile} {m : Mod} (h : ∀ e ∈ (m.tiers[t] : TierSt).tmap, teState e.2 ≠ 2) : startCompact t m = m := by
  refine foldl_of_fixed _ fun f _ => ?_
  have hnone : (m.tiers[t] : TierSt).tmap.filter (fun e => teState e.2 == 2 && teFrame e.2 == f) = [] :=
    List.filter_eq_nil_iff.mpr fun e he => by simp [h e he]
  simp only [hnone, List.map_nil, List.foldl_nil]

/-- The module once the entries of a tier-map batt have aged, and the batt has been written. -/
def battAged (t : Tile) (g : Nat) (m : Mod) : Mod :=
  tmapPut t (32 * g) (onTier t (fun ts => { ts with tmap := ts.tmap.map (fun e => if e.1 / 32 = g then (e.1, ageEntry e.2) else e) })
    (teUse t (32 * g) m))

/-- The backed pages of a tier-map batt. -/
def battPages (g : Nat) (ts : TierSt) : List Nat := (ts.tmap.filter (fun e => e.1 / 32 == g && teState e.2 != 0)).map (·.1)

theorem sweepBatt_eq (t : Tile) (g : Nat) (m : Mod) : sweepBatt t g m =
    dropHere (.tmap t g) ((battPages g (battAged t g m).tiers[t]).foldl (fun m q => sweepPage t q m) (battAged t g m)) := rfl

/-- A tile whose pages have aged by one sweep. -/
def agedTier (ts : TierSt) : TierSt := { ts with tmap := ts.tmap.map (fun e => (e.1, ageEntry e.2)) }

/-- Every entry of the map stands in batt `g`, for a plain page that was read since the last sweep. -/
def readSince (g : Nat) (ts : TierSt) : Prop := ∀ e ∈ ts.tmap, e.1 / 32 = g ∧ teState e.2 = 1 ∧ teAcc e.2 = true

section
variable {t : Tile} {g : Nat} {m : Mod} (hread : readSince g m.tiers[t])
include hread

theorem backedBatts_of_readSince (hsome : (m.tiers[t] : TierSt).tmap ≠ []) : backedBatts m.tiers[t] = [g] := by
  have hall : ((m.tiers[t] : TierSt).tmap.filter (fun e => teState e.2 != 0)).map (fun e => e.1 / 32) =
      List.replicate (m.tiers[t] : TierSt).tmap.length g := by
    rw [List.filter_eq_self.mpr fun e he => by simp [(hread e he).2.1], List.eq_replicate_iff]
    refine ⟨List.length_map _, fun x hx => ?_⟩
    obtain ⟨e, he, rfl⟩ := List.mem_map.mp hx
    exact (hread e he).1
  obtain ⟨n, hn⟩ := Nat.exists_eq_succ_of_ne_zero (mt List.length_eq_zero_iff.mp hsome)
  rw [backedBatts, hall, hn, List.replicate_succ, List.eraseDups_cons, List.filter_eq_nil_iff.mpr fun x hx => by simp [List.eq_of_mem_replicate hx]]
  rfl

theorem agedTier_young {e : Nat × Word64} (he : e ∈ (agedTier m.tiers[t]).tmap) : teState e.2 = 1 ∧ teAge e.2 = 0 := by
  obtain ⟨d, hd, rfl⟩ := List.mem_map.mp he
  obtain ⟨-, hstate, hacc⟩ := hread d hd
  have hbacked : teState d.2 ≠ 0 := by rw [hstate]; decide
  exact ⟨(teState_ageEntry_of_read hbacked hacc).trans hstate, teAge_ageEntry_of_read hbacked hacc⟩

theorem battAged_of_readSince (hline : (metaLine m (tmapBatt m.tiers[t] (32 * g))).isSome = true) :
    KeepsTiers (onTier t agedTier m) (battAged t g m) := by
  have huse : KeepsTiers m (teUse t (32 * g) m) := by
    rw [teUse, if_pos hline]
    exact metaTouch_keepsTiers ..
  have hmap : (m.tiers[t] : TierSt).tmap.map (fun e => if e.1 / 32 = g then (e.1, ageEntry e.2) else e) = (agedTier m.tiers[t]).tmap :=
    List.map_congr_left fun e he => if_pos (hread e he).1
  refine KeepsTiers.trans ?_ (tmapPut_keepsTiers ..)
  refine ⟨?_, by rw [onTier_mem, onTier_mem, huse.mem], fun u => by rw [onTier_slices, onTier_slices, huse.places u]⟩
  rw [onTier_tiers, onTier_tiers, huse.tiers, hmap]
  rfl

theorem sweepPage_of_aged {x : Mod} (hx : KeepsTiers (onTier t agedTier m) x) (hdemote : 1 ≤ (m.tiers[t] : TierSt).demoteAge) (q : Nat) :
    sweepPage t q x = x := by
  have hget : teGet x t q = tabGet 0 (agedTier m.tiers[t]).tmap q := by rw [teGet, hx.tiers, tiers_onTier_self]
  have hdemote' : 1 ≤ (x.tiers[t] : TierSt).demoteAge := by rw [hx.tiers, tiers_onTier_self]; exact hdemote
  rcases tabGet_cases 0 (agedTier m.tiers[t]).tmap q with hzero | ⟨e, he, heq⟩
  · exact sweepPage_of_young (by rw [hget, hzero]; decide) (fun h => by rw [hget, hzero] at h; exact absurd h (by decide)) hdemote'
  · obtain ⟨hstate, hage⟩ := agedTier_young hread he
    exact sweepPage_of_young (by rw [hget, heq, hstate]; decide) (fun _ => by rw [hget, heq, hage]) hdemote'

/-- The sweep of the batt ages its pages and starts no move. -/
theorem sweepBatt_of_readSince (hdemote : 1 ≤ (m.tiers[t] : TierSt).demoteAge) (hline : (metaLine m (tmapBatt m.tiers[t] (32 * g))).isSome = true) :
    KeepsTiers (onTier t agedTier m) (sweepBatt t g m) := by
  have haged := battAged_of_readSince hread hline
  rw [sweepBatt_eq, foldl_of_fixed _ fun q _ => sweepPage_of_aged hread haged hdemote q]
  exact haged.trans (dropHere_keepsTiers ..)

theorem tierSweep_of_readSince (hstop : m.prot.stop = none) (hcrit : m.therm.critical = false) (hsweep : (m.tiers[t] : TierSt).sweep = [])
    (hset : (m.tiers[t] : TierSt).setNext = []) (hdemote : 1 ≤ (m.tiers[t] : TierSt).demoteAge)
    (hline : (metaLine m (tmapBatt m.tiers[t] (32 * g))).isSome = true) (hgood : teBad m t (32 * g) = false) :
    ((tierSweep t m).tiers[t] : TierSt) = { agedTier m.tiers[t] with fills := [] } ∧ (tierSweep t m).mem = m.mem := by
  by_cases hnone : (m.tiers[t] : TierSt).tmap = []
  · rw [tierSweep_of_unbacked hstop hcrit hsweep hnone, tiers_onTier_self, takeParams_of_none hset]
    exact ⟨by rw [agedTier, hnone, List.map_nil, ← hnone], rfl⟩
  · have hbatt := sweepBatt_of_readSince hread hdemote hline
    have hself : ((sweepBatt t g m).tiers[t] : TierSt) = agedTier m.tiers[t] := by rw [hbatt.tiers, tiers_onTier_self]
    have hcompact : startCompact t (sweepBatt t g m) = sweepBatt t g m :=
      startCompact_of_none_fulled fun e he => by rw [(agedTier_young hread (hself ▸ he)).1]; decide
    have hhere : teHere m t (32 * g) = true := by rw [teHere, metaHere, hline, Bool.true_or]
    rw [tierSweep_of_backed hstop hcrit hsweep hset (backedBatts_of_readSince hread hnone) hhere hgood, sweepOver, hcompact, ite_self,
      tiers_onTier_self, hself]
    exact ⟨rfl, by rw [onTier_mem, hbatt.mem, onTier_mem]⟩

end

theorem exec_tierSweep (t : Tile) (s : State) : exec (.tierSweep t) s = .next (onMod (tierSweep t) s) := rfl

theorem tierSweep_of_stopped {t : Tile} {m : Mod} (h : m.prot.stop.isSome = true ∨ m.therm.critical = true) : tierSweep t m = m :=
  if_pos (by simpa using h)

end Sys2Proof.Machine
end

