-- ==== Sys2Proof/Proofs/TierMoves.lean ====
section
/-! PROOFS. The end of a tier move (O43): a move whose batts the write buffer has all taken gives its page the new place,
and a demotion that finds zeros, or a page that does not compress, ends at once. -/
namespace Sys2Proof.Machine

open Sys2Proof.Stmt

theorem exec_tierMoveEnd (t : Tile) (x : MoveEnd) (s : State) :
    exec (.tierMoveEnd t x) s = engineStep (tierMoveEnd t x.page x.bad1 x.bad2) s := rfl

theorem tierMoveEnd_of_no_move {t : Tile} {q : Nat} {m : Mod} (bad1 bad2 : Bool) (h : moveOf m t q = none) : tierMoveEnd t q bad1 bad2 m = m := by
  simp only [tierMoveEnd, h]

theorem page_of_moveOf {m : Mod} {t : Tile} {q : Nat} {v : Move} (h : moveOf m t q = some v) : v.page = q := by
  simpa using List.find?_some h

/-! ### A move whose batts are handed over (R300) -/

theorem setMove_self (t : Tile) (v : Move) (m : Mod) : setMove t v v m = m := by
  have hmap : (m.tiers[t] : TierSt).moves.map (fun x => if x == v then v else x) = (m.tiers[t] : TierSt).moves := by
    refine (List.map_congr_left fun x _ => ?_).trans (List.map_id _)
    split
    next h => exact (eq_of_beq h).symm
    next => rfl
  exact onTier_of_fixed (by rw [hmap])

/-- The page of a move in its new place, the move over and its old space free. -/
def moveSettled (t : Tile) (v : Move) (m : Mod) : Mod :=
  let e := teGet m t v.page
  match v.kind with
  | .backing | .promotion => dropMove t v (tePut t v.page (tePlace e 1 0 0 v.frame) m)
  | .demotion => freeFrame t (teFrame e) (dropMove t v (tePut t v.page (tePlace e 2 v.len v.start v.frame) m))
  | .compaction => dropMove t v (tePut t v.page (tePlace e 2 v.len v.start v.frame) m)

theorem moveDone_eq (t : Tile) (v : Move) (m : Mod) : moveDone t v m = wakeTile t (capHeel t (moveSettled t v m)) := by
  unfold moveDone moveSettled
  rfl

theorem moves_moveSettled (t : Tile) (v : Move) (m : Mod) : ((moveSettled t v m).tiers[t] : TierSt).moves = (m.tiers[t] : TierSt).moves.erase v := by
  unfold moveSettled
  cases v.kind <;> dsimp only
  case demotion => rw [moves_freeFrame, moves_dropMove, moves_tePut]
  all_goals rw [moves_dropMove, moves_tePut]

theorem teGet_moveSettled (t : Tile) (v : Move) (m : Mod) : teGet (moveSettled t v m) t v.page =
    if v.kind = .backing ∨ v.kind = .promotion then tePlace (teGet m t v.page) 1 0 0 v.frame
    else tePlace (teGet m t v.page) 2 v.len v.start v.frame := by
  unfold moveSettled
  cases v.kind <;> dsimp only
  case demotion => rw [(freeFrame_keepsMap ..).teGet_eq, (dropMove_keepsMap ..).teGet_eq, teGet_tePut_self]; rfl
  all_goals rw [(dropMove_keepsMap ..).teGet_eq, teGet_tePut_self]; rfl

section
variable {t : Tile} {q : Nat} {v : Move} {r : BitVec 128} {m : Mod} (hmove : moveOf m t q = some v) (htodo : v.todo = some [])
include htodo

theorem moveAsk_of_handed (hfuller : needsFuller v.kind = true → (fullerOf m (.move t v.page)).isSome = true) : moveAsk t r v m = m := by
  have hhas : (needsFuller v.kind && (fullerOf m (.move t v.page)).isNone) = false := by
    cases h : needsFuller v.kind with
    | false => rfl
    | true => simpa using hfuller h
  simp only [moveAsk, hhas, htodo, Option.isSome_some, Bool.true_or, Bool.false_eq_true, if_false, if_true]

include hmove

theorem moveGo_of_handed (hwait : (m.wbWait[t] : List WEntry) = []) (hhere : teHere m t q = true) : moveGo t r q m = moveDone t v m := by
  have hsame : ({ v with todo := some [] } : Move) = v := by rw [← htodo]
  have hfree : (moveGoal t v).any (fun _ => false) = false := List.any_eq_false.mpr fun _ _ => Bool.false_ne_true
  simp only [moveGo, hmove, htodo, handMove, hsame, setMove_self, hwait, hhere, List.any_nil, hfree, List.isEmpty_nil, Bool.not_true,
    Bool.or_self, Bool.false_eq_true, if_false]

theorem tierMoveEnd_of_handed (bad1 bad2 : Bool) (hregion : pageRegion m t q = some r) (hwait : (m.wbWait[t] : List WEntry) = [])
    (hhere : teHere m t q = true) (hfuller : needsFuller v.kind = true → (fullerOf m (.move t q)).isSome = true) :
    tierMoveEnd t q bad1 bad2 m = moveDone t v m ∨ tierMoveEnd t q bad1 bad2 m = wakeTile t (capHeel t (moveDone t v m)) := by
  have hnot : moveHere m t r v = false := by simp only [moveHere, htodo, Option.isNone_some, Bool.false_and]
  rw [← page_of_moveOf hmove] at hfuller
  simp only [tierMoveEnd, hmove, hregion, moveAsk_of_handed htodo hfuller, hnot, Bool.false_eq_true, if_false,
    moveGo_of_handed hmove htodo hwait hhere]
  exact ite_eq_or_eq ..

end

/-! ### A demotion that has read its page (R299, R300) -/

theorem wantBatt_of_atHand {m : Mod} {da : Nat} (own : Owner) (cls : SlotClass) (kind : Nat) (label : BitVec 3) (h : atHand m da = true) :
    wantBatt own cls kind label m da = m := by
  simp only [wantBatt, h, Bool.true_or, if_true]

theorem fullerOf_of_runs {m : Mod} {w : FullWork} (h : (fullerRuns m w).isSome = true) : (fullerOf m w).isSome = true := by
  obtain ⟨f, hf, hrun⟩ := List.find?_isSome.mp h
  exact List.find?_isSome.mpr ⟨f, hf, (fullerHolds_iff _ w).mpr (.inl (eq_of_beq hrun))⟩

section
variable {t : Tile} {r : BitVec 128} {v : Move} {m : Mod} (h : moveHere m t r v = true)
include h

/-- A move that has everything asks for nothing. -/
theorem moveAsk_of_here : moveAsk t r v m = m := by
  simp only [moveHere, Bool.and_eq_true, Bool.or_eq_true, Bool.not_eq_true', List.all_eq_true, List.isEmpty_iff] at h
  obtain ⟨⟨⟨⟨⟨-, -⟩, hfuller⟩, hbatts⟩, hneeds⟩, -⟩ := h
  have hhas : (needsFuller v.kind && (fullerOf m (.move t v.page)).isNone) = false := by
    rcases hfuller with hnone | hruns
    · rw [hnone, Bool.false_and]
    · rw [Option.isNone_eq_false_iff.mpr (fullerOf_of_runs hruns), Bool.and_false]
  simp only [moveAsk, hhas, Bool.false_eq_true, if_false]
  rw [foldl_of_fixed _ fun da hda => wantBatt_of_atHand _ _ _ _ (hbatts da hda), hneeds]
  exact ite_self _

theorem tierMoveEnd_of_computed {q : Nat} {bad1 bad2 : Bool} {x : Mod} (hmove : moveOf m t q = some v) (hregion : pageRegion m t q = some r)
    (hwork : moveWork t r v bad1 bad2 m = x) (hover : moveOf x t q = none) : tierMoveEnd t q bad1 bad2 m = wakeTile t (capHeel t x) := by
  have hgo : moveGo t r q x = x := by simp only [moveGo, hover]
  simp only [tierMoveEnd, hmove, hregion, moveAsk_of_here h, h, if_true, hwork, hgo, hover, Option.isSome_none, Bool.false_eq_true, if_false]

end

section
variable {t : Tile} {r : BitVec 128} {v : Move} {l : List Byte} {m : Mod}

theorem moveWork_of_demotion {u : Batt} (bad2 : Bool) (hkind : v.kind = .demotion) (hcrypt : rgCrypt r = 0)
    (hread : readStored m r v.key ((moveReads m t v).headD 0) (moveReads m t v).length = (.ok u, l)) :
    moveWork t r v false bad2 m = demoteNow t v l m := by
  have hback : (MoveKind.demotion == .backing) = false := rfl
  simp only [moveWork, hkind, hback, Bool.false_eq_true, if_false, hread, metaUsed, hcrypt, if_true, beq_self_eq_true, demoteCheck]

theorem demoteNow_of_zeros (h : l.all (· == 0) = true) :
    demoteNow t v l m = freeFrame t (teFrame (teGet m t v.page)) (tePut t v.page (tePlace (teGet m t v.page) 0 0 0 0) (dropMove t v m)) :=
  if_pos h

theorem demoteNow_of_large (h : l.all (· == 0) = false) (hlarge : ∀ st, fullPage l = some st → (m.tiers[t] : TierSt).fullMax < st.length / 256) :
    demoteNow t v l m = tePut t v.page (putBit (teGet m t v.page) 42 true) (dropMove t v m) := by
  simp only [demoteNow, h, Bool.false_eq_true, if_false]
  cases hfull : fullPage l with
  | none => rfl
  | some st => exact if_pos (hlarge st hfull)

theorem demoteNow_zeros_frame (h : l.all (· == 0) = true) : teGet (demoteNow t v l m) t v.page = tePlace (teGet m t v.page) 0 0 0 0 ∧
    ((demoteNow t v l m).tiers[t] : TierSt).moves = (m.tiers[t] : TierSt).moves.erase v := by
  rw [demoteNow_of_zeros h, (freeFrame_keepsMap ..).teGet_eq, teGet_tePut_self, moves_freeFrame, moves_tePut, moves_dropMove]
  exact ⟨rfl, rfl⟩

theorem demoteNow_large_frame (h : l.all (· == 0) = false)
    (hlarge : ∀ st, fullPage l = some st → (m.tiers[t] : TierSt).fullMax < st.length / 256) :
    teGet (demoteNow t v l m) t v.page = putBit (teGet m t v.page) 42 true ∧
    ((demoteNow t v l m).tiers[t] : TierSt).moves = (m.tiers[t] : TierSt).moves.erase v := by
  rw [demoteNow_of_large h hlarge, teGet_tePut_self, moves_tePut, moves_dropMove]
  exact ⟨rfl, rfl⟩

end

/-- A page's only move, once erased, leaves the page without one. -/
theorem moveOf_of_erased {t : Tile} {q : Nat} {v : Move} {m x : Mod} (honly : (m.tiers[t] : TierSt).moves.filter (fun v => v.page == q) = [v])
    (hmoves : (x.tiers[t] : TierSt).moves = (m.tiers[t] : TierSt).moves.erase v) : moveOf x t q = none := by
  rw [moveOf, hmoves, ← List.head?_filter, ← List.erase_filter, honly, List.erase_cons_head, List.head?_nil]

theorem page_of_moveReady {t : Tile} {q : Nat} {v : Move} {r : BitVec 128} {l : List Byte} {s : State} (h : moveReady t q v r l s) : v.page = q := by
  obtain ⟨-, -, honly, -⟩ := h
  have hv : v ∈ (s.m.tiers[t] : TierSt).moves.filter (fun v => v.page == q) := by rw [honly]; exact List.mem_singleton_self v
  simpa using (List.mem_filter.mp hv).2

/-- The end of a demotion whose outcome is known without batts to store. -/
theorem completes_demotion {t : Tile} {q : Nat} {v : Move} {r : BitVec 128} {l : List Byte} {e : Word64} {s : State} (bad2 : Bool)
    (hready : moveReady t q v r l s) (hkind : v.kind = .demotion) (hout : teGet (demoteNow t v l s.m) t v.page = e ∧
      ((demoteNow t v l s.m).tiers[t] : TierSt).moves = (s.m.tiers[t] : TierSt).moves.erase v) :
    completes (.tierMoveEnd t ⟨q, false, bad2⟩) s fun m' => ∃ x, m' = wakeTile t (capHeel t x) ∧ teGet x t q = e ∧
      (x.tiers[t] : TierSt).moves = (s.m.tiers[t] : TierSt).moves.erase v := by
  obtain ⟨hp, hcrit, honly, hregion, hcrypt, hhere, u, hread⟩ := hready
  obtain ⟨hentry, hmoves⟩ := hout
  have hmove : moveOf s.m t q = some v := by rw [moveOf, ← List.head?_filter, honly, List.head?_cons]
  refine completes_of_engine _ (exec_tierMoveEnd t _ s) hp hcrit ⟨demoteNow t v l s.m, ?_, ?_, hmoves⟩
  · exact tierMoveEnd_of_computed hhere hmove hregion (moveWork_of_demotion bad2 hkind hcrypt hread) (moveOf_of_erased honly hmoves)
  · rw [← page_of_moveOf hmove, hentry]

end Sys2Proof.Machine
end

