-- ==== Sys2Proof/Proofs/PageTrims.lean ====
section
/-! PROOFS. Trims (O43): what ELASTIC_TRIM refuses, and a trim of one page that no host copy and no request stands against; and the statement. -/
namespace Sys2Proof.Machine

open Sys2Proof.Stmt

/-! ### One page (R301, R305) -/

/-- Whether an address of a space lies in page `page`. -/
def inPage (page : Nat) (space : BitVec 2) (a : Nat) : Bool := space == 0 && a / 4096 == page

/-- A slice without what it has of a page. -/
def withoutPage (page : Nat) (s : Slice) : Slice :=
  { s with
    lines := s.lines.filter (fun l => !inPage page l.space (lineAddr l))
    transits := s.transits.filter (fun x => !(inPage page x.space x.addr))
    wholes := s.wholes.filter (fun x => !(inPage page x.1 x.2.1)) }

/-- The module with every move of a page abandoned. -/
def movesDropped (t : Tile) (q : Nat) (m : Mod) : Mod :=
  ((m.tiers[t] : TierSt).moves.filter (fun v => v.page == q)).foldl (fun m v => dropMove t v m) m

theorem movesDropped_keepsMap (t : Tile) (q : Nat) (m : Mod) : KeepsMap m (movesDropped t q m) :=
  foldl_rel KeepsMap keepsMap_refl (fun _ _ _ => KeepsMap.trans) _ (fun m v => dropMove_keepsMap t v m) _ m

/-- The module with the host copies of a page recalled. -/
def pageRecalled (t : Tile) (q : Nat) (m : Mod) : Mod :=
  let base := pageOff m.tiers[t] q
  (List.range 64).foldl (fun m i => match findEnt m.filters[t] (base / 64 + i) with
    | some e => recallEnt t e (.recalls true) m
    | none => m) m

theorem trimPage_eq (t : Tile) (q : Nat) (m : Mod) : trimPage t q m = capHeel t (tePut t q 0 (movesDropped t q
    (onSlice t (withoutPage (pageOff m.tiers[t] q / 4096)) (pageRecalled t q m)))) := rfl

theorem pageRecalled_of_no_entry {t : Tile} {m : Mod} (h : (m.filters[t] : FilterSt).entries = []) (q : Nat) : pageRecalled t q m = m := by
  refine foldl_of_fixed _ fun i _ => ?_
  rw [findEnt, h, List.find?_nil]

/-- What a trim of page `q` leaves: the page unbacked, the other entries, the trims and DRAM as they were, and no line of the page. -/
structure PageTrimmed (t : Tile) (q : Nat) (m m' : Mod) : Prop where
  unbacked : teGet m' t q = 0
  others : ∀ p, p ≠ q → teGet m' t p = teGet m t p
  trims : (m'.tiers[t] : TierSt).trims = (m.tiers[t] : TierSt).trims
  mem : m'.mem = m.mem
  places : ∀ x ∈ linePlaces m'.slices[t], ¬ (x.1 = 0 ∧ x.2 / 4096 = pageOff m.tiers[t] q / 4096)

theorem linePlaces_withoutPage {page : Nat} {s : Slice} {x : BitVec 2 × Nat} (h : x ∈ linePlaces (withoutPage page s)) :
    ¬ (x.1 = 0 ∧ x.2 / 4096 = page) := by
  obtain ⟨l, hl, rfl⟩ := List.mem_map.mp h
  have hout := (List.mem_filter.mp hl).2
  simpa [inPage, Decidable.imp_iff_not_or] using hout

theorem trimPage_trims {t : Tile} {m : Mod} (h : (m.filters[t] : FilterSt).entries = []) (q : Nat) : PageTrimmed t q m (trimPage t q m) := by
  have hmoves := movesDropped_keepsMap t q (onSlice t (withoutPage (pageOff m.tiers[t] q / 4096)) m)
  rw [trimPage_eq, pageRecalled_of_no_entry h]
  have hheel := capHeel_keepsMap t (tePut t q 0 (movesDropped t q (onSlice t (withoutPage (pageOff m.tiers[t] q / 4096)) m)))
  refine ⟨?_, fun p hp => ?_, ?_, ?_, ?_⟩
  · rw [hheel.teGet_eq, teGet_tePut_self]
  · rw [hheel.teGet_eq, teGet_tePut_of_ne t hp, hmoves.teGet_eq, teGet, onSlice_tiers, teGet]
  · rw [hheel.trims, trims_tePut, hmoves.trims, onSlice_tiers]
  · rw [hheel.mem, tePut_mem, hmoves.mem, onSlice_mem]
  · rw [hheel.places, linePlaces_tePut, hmoves.places, slices_onSlice_self]
    exact fun x hx => linePlaces_withoutPage hx

theorem PageTrimmed.andThen {t : Tile} {q : Nat} {m x y : Mod} (h : PageTrimmed t q m x) (k : KeepsTiers x y) : PageTrimmed t q m y :=
  ⟨(k.keepsMap.teGet_eq t q).trans h.unbacked, fun p hp => (k.keepsMap.teGet_eq t p).trans (h.others p hp), (k.keepsMap.trims t).trans h.trims,
    k.mem.trans h.mem, by rw [k.places t]; exact h.places⟩

/-! ### A trim of one page -/

theorem trimBatts_one (q : Nat) : trimBatts q 1 = [q / 32] := by
  have hlen : (q + 1 + 31) / 32 - q / 32 = 1 := by omega
  simp [trimBatts, hlen]

section
variable {t : Tile} {q : Nat} {m : Mod} (hentries : (m.filters[t] : FilterSt).entries = []) (hsnps : (m.filters[t] : FilterSt).snps = [])
  (hbusy : pageBusy m t q = false) (hhere : teHere m t (32 * (q / 32)) = true)
include hentries hsnps hbusy hhere

theorem trimReady_one : trimReady t q 1 m = (true, m) := by
  have hrecall : trimRecall t q 1 m = m := by rw [trimRecall, hentries, List.filter_nil, List.foldl_nil]
  simp only [trimReady, hrecall, hsnps, List.any_nil, List.range_one, List.any_cons, Nat.add_zero, hbusy, Bool.or_self, Bool.false_eq_true, if_false,
    trimBatts_one, List.find?_cons, hhere, Bool.not_true, List.find?_nil]

/-- One page is never the whole of a tier-map batt, so none is written afresh. -/
theorem trimGo_one (c : Option AdminTag) : trimGo t (c, q, 1) m =
    (true, c.elim (dropHere (.tmap t (q / 32)) (trimPage t q m)) (fun c => done c 0x00 (dropHere (.tmap t (q / 32)) (trimPage t q m)))) := by
  have hwhole : ([q / 32].filter fun g => decide (q ≤ 32 * g) && decide (32 * g + 32 ≤ q + 1) && teBad (trimPage t q m) t (32 * g)) = [] := by
    rw [List.filter_cons_of_neg, List.filter_nil]
    simp only [Bool.and_eq_true, decide_eq_true_eq]
    omega
  simp only [trimGo, trimReady_one hentries hsnps hbusy hhere, Bool.not_true, Bool.false_eq_true, if_false, List.range_one, List.foldl_cons,
    List.foldl_nil, Nat.add_zero, trimBatts_one, hwhole]

end

/-- The module with a trim waiting at the end of a tile's trims. -/
def trimQueued (t : Tile) (x : Option AdminTag × Nat × Nat) (m : Mod) : Mod := onTier t (fun ts => { ts with trims := ts.trims ++ [x] }) m

section
variable (t : Tile) (x : Option AdminTag × Nat × Nat) (q : Nat) (m : Mod)

theorem pageOff_trimQueued : pageOff (trimQueued t x m).tiers[t] q = pageOff m.tiers[t] q := by
  rw [trimQueued, tiers_onTier_self]
  rfl

theorem pageBusy_trimQueued : pageBusy (trimQueued t x m) t q = pageBusy m t q := by
  rw [pageBusy, pageOff_trimQueued]
  rfl

theorem teHere_trimQueued : teHere (trimQueued t x m) t q = teHere m t q := by
  rw [teHere, trimQueued, tiers_onTier_self]
  rfl

theorem teGet_trimQueued : teGet (trimQueued t x m) t q = teGet m t q := by rw [teGet, trimQueued, tiers_onTier_self, teGet]

end

/-- The only trim of a tile, of one page, ends at once. -/
theorem trimSettle_queued {t : Tile} {q : Nat} {m : Mod} (c : AdminTag) (hentries : (m.filters[t] : FilterSt).entries = [])
    (hsnps : (m.filters[t] : FilterSt).snps = []) (htrims : (m.tiers[t] : TierSt).trims = []) (hbusy : pageBusy m t q = false)
    (hhere : teHere m t (32 * (q / 32)) = true) :
    let y := trimSettle t (trimQueued t (some c, q, 1) m)
    teGet y t q = 0 ∧ (y.tiers[t] : TierSt).trims = [] ∧ y.mem = m.mem ∧
      (∀ l ∈ (y.slices[t] : Slice).lines, ¬ (l.space = 0 ∧ lineAddr l / 4096 = pageOff m.tiers[t] q / 4096)) ∧
      ∀ p, p ≠ q → teGet y t p = teGet m t p := by
  intro y
  have hqueue : ((trimQueued t (some c, q, 1) m).tiers[t] : TierSt).trims = [(some c, q, 1)] := by
    rw [trimQueued, tiers_onTier_self]
    simp only [htrims, List.nil_append]
  have hover : y = onTier t (fun ts => { ts with trims := ts.trims.erase (some c, q, 1) })
      (done c 0x00 (dropHere (.tmap t (q / 32)) (trimPage t q (trimQueued t (some c, q, 1) m)))) := by
    simp only [y, trimSettle, hqueue, List.foldl_cons, List.foldl_nil, if_true, Option.elim_some,
      trimGo_one (m := trimQueued t (some c, q, 1) m) hentries hsnps ((pageBusy_trimQueued ..).trans hbusy) ((teHere_trimQueued ..).trans hhere)]
  have htrimmed := ((trimPage_trims (m := trimQueued t (some c, q, 1) m) hentries q).andThen (dropHere_keepsTiers (.tmap t (q / 32)) _)).andThen
    (ringsOnly_keepsTiers (done_ringsOnly c 0x00 _))
  obtain ⟨hunbacked, hothers, hleft, hmem, hplaces⟩ := htrimmed
  rw [pageOff_trimQueued] at hplaces
  simp only [teGet_trimQueued] at hothers
  have hget (p : Nat) : teGet y t p = teGet (done c 0x00 (dropHere (.tmap t (q / 32)) (trimPage t q (trimQueued t (some c, q, 1) m)))) t p := by
    rw [hover, teGet, tiers_onTier_self, teGet]
  refine ⟨(hget q).trans hunbacked, ?_, ?_, ?_, fun p hp => (hget p).trans (hothers p hp)⟩
  · rw [hover, tiers_onTier_self]
    simp only [hleft, hqueue, List.erase_cons_head]
  · rw [hover, onTier_mem, hmem, trimQueued, onTier_mem]
  · rw [hover, onTier_slices]
    exact fun l hl => hplaces (l.space, lineAddr l) (List.mem_map_of_mem hl)

/-! ### ELASTIC_TRIM (R305) -/

/-- Whether ELASTIC_TRIM refuses a range of a region. -/
def trimRefused (h : AdminHdr) (w : BitVec 64) (len : Nat) (r : BitVec 128) : Bool :=
  let x : BitVec 53 := w.setWidth 53
  w.toNat / 2 ^ 53 ≠ 0 || wAper x != 0 || wOff x % 4096 != 0 || len % 4096 != 0 || len == 0 ||
    rgLBase r * 2 ^ 26 + rgCount r * 2 ^ 26 < wOff x + len || !rgElastic r || !rgPort r h.port

theorem trimRefused_iff (h : AdminHdr) (w : BitVec 64) (len : Nat) (r : BitVec 128) : trimRefused h w len r = true ↔
    2 ^ 53 ≤ w.toNat ∨ wAper (w.setWidth 53) ≠ 0 ∨ wOff (w.setWidth 53) % 4096 ≠ 0 ∨ len % 4096 ≠ 0 ∨ len = 0 ∨
      (rgLBase r + rgCount r) * 2 ^ 26 < wOff (w.setWidth 53) + len ∨ rgElastic r = false ∨ rgPort r h.port = false := by
  simp [trimRefused, or_assoc, Nat.add_mul, -Nat.div_eq_zero_iff, Nat.div_ne_zero_iff]

def elasticTrimOwn (h : AdminHdr) (w : BitVec 64) (len : Nat) (c : AdminTag) (m : Mod) : Mod :=
  match regionOf m (wOff (w.setWidth 53)) with
  | none => done c 0xD4 m
  | some r =>
    if trimRefused h w len r then done c 0xD4 m
    else trimSettle (rgTile r) (trimQueued (rgTile r) (some c, pageOf m.tiers[rgTile r] (wOff (w.setWidth 53)), len / 4096) m)

theorem exec_elasticTrim (h : AdminHdr) (w : BitVec 64) (n : Nat) (s : State) :
    exec (.elasticTrim h w n) s = .next (onMod (admin h 0x0502 true (elasticTrimOwn h w n)) s) := rfl

theorem elasticTrimOwn_of_refused {h : AdminHdr} {w : BitVec 64} {n : Nat} {m : Mod} (c : AdminTag)
    (hrefused : ∀ r, regionOf m (wOff (w.setWidth 53)) = some r → trimRefused h w n r = true) : elasticTrimOwn h w n c m = done c 0xD4 m := by
  unfold elasticTrimOwn
  split
  next => rfl
  next r hr => exact if_pos (hrefused r hr)

theorem elasticTrimOwn_of_taken {h : AdminHdr} {w : BitVec 64} {n : Nat} {r : BitVec 128} {m : Mod} (c : AdminTag)
    (hregion : regionOf m (wOff (w.setWidth 53)) = some r) (htaken : trimRefused h w n r = false) :
    elasticTrimOwn h w n c m =
      trimSettle (rgTile r) (trimQueued (rgTile r) (some c, pageOf m.tiers[rgTile r] (wOff (w.setWidth 53)), n / 4096) m) := by
  simp only [elasticTrimOwn, hregion, htaken, Bool.false_eq_true, if_false]

/-! ### The statement -/

/-- The second part of O43, by the sweep, the end of a move and the trim. -/
theorem pagesAgeMoveAndTrim : PagesAgeMoveAndTrim := by
  refine ⟨?_, ?_, ?_, ?_, ?_, ?_, ?_⟩
  · intro t p v s ⟨hp, hstop, hcrit, hsweep⟩ htmap hset hparam old new
    refine completes_of_onMod _ (exec_tierSweep t s) hp ?_
    have hnew : new = setParam (p, v) old := rfl
    have htake : takeParams old = { new with setNext := [] } := by rw [takeParams, hset, List.foldl_cons, List.foldl_nil, hnew]
    rw [tierSweep_of_unbacked hstop hcrit hsweep htmap, onTier, htake]
  · intro t g s ⟨hp, hstop, hcrit, hsweep⟩ hset hmoves hdemote hread hline hgood
    exact completes_of_onMod _ (exec_tierSweep t s) hp (tierSweep_of_readSince hread hstop hcrit hsweep hset hdemote hline hgood)
  · exact fun t s h => exec_of_fixed _ (exec_tierSweep t s) (tierSweep_of_stopped h)
  · intro t q v r b1 b2 s hp hcrit hmove hregion htodo hwait hhere hfuller
    have hentry := teGet_moveSettled t v s.m
    rw [page_of_moveOf hmove] at hentry
    refine completes_of_engine _ (exec_tierMoveEnd t _ s) hp hcrit
      ⟨moveSettled t v s.m, moveDone t v s.m, moveDone_eq t v s.m, ?_, moves_moveSettled t v s.m, hentry⟩
    exact tierMoveEnd_of_handed hmove htodo b1 b2 hregion hwait hhere hfuller
  · intro t q v r l b2 s hready hkind
    obtain rfl : v.page = q := page_of_moveReady hready
    exact ⟨fun hzeros => completes_demotion b2 hready hkind (demoteNow_zeros_frame hzeros),
      fun hdata hlarge => completes_demotion b2 hready hkind (demoteNow_large_frame hdata hlarge)⟩
  · intro t q b1 b2 s hnone
    refine engine_of_fixed _ (exec_tierMoveEnd t _ s) (tierMoveEnd_of_no_move b1 b2 ?_)
    exact List.find?_eq_none.mpr fun v hv => by simpa using hnone v hv
  · intro h w n s ha off b
    have hcompletes {P : Mod → Prop} : P (elasticTrimOwn h w n (tagOf h 0x0502) b) → completes (.elasticTrim h w n) s P :=
      completes_of_accepted _ (exec_elasticTrim h w n s) ha
    refine ⟨fun hbad => ?_, fun r hregion hbad => ?_, ?_⟩
    · refine hcompletes (elasticTrimOwn_of_refused _ fun r hregion => (trimRefused_iff h w n r).mpr ?_)
      rcases hbad with hnone | hoff | hlen | hzero | hwide
      · exact absurd (hnone.symm.trans hregion) (Option.some_ne_none r).symm
      · exact .inr (.inr (.inl hoff))
      · exact .inr (.inr (.inr (.inl hlen)))
      · exact .inr (.inr (.inr (.inr (.inl hzero))))
      · exact .inl hwide
    · refine hcompletes (elasticTrimOwn_of_refused _ fun r' hregion' => (trimRefused_iff h w n r').mpr ?_)
      obtain rfl : r = r' := Option.some.inj (hregion.symm.trans hregion')
      exact .inr (.inr (.inr (.inr (.inr (.inr hbad)))))
    · intro r hregion helastic hport hwide haper hoff hn hend t q hentries hsnps htrims hbusy hhere
      have htaken : trimRefused h w n r = false := by
        refine Bool.eq_false_iff.mpr fun hrefused => ?_
        simp only [trimRefused_iff, helastic, hport, haper, ne_eq, not_true_eq_false, Bool.true_eq_false, or_false, false_or] at hrefused
        omega
      subst hn
      refine hcompletes ?_
      rw [elasticTrimOwn_of_taken (m := b) _ hregion htaken]
      exact trimSettle_queued (m := b) _ hentries hsnps htrims hbusy hhere

/-- Settles O43, by its two parts. -/
theorem tiersAreSetSweptAndTrimmed : Obligations.TiersAreSetSweptAndTrimmed :=
  ⟨tierParametersAndFullersAreSet, pagesAgeMoveAndTrim⟩

end Sys2Proof.Machine
end

