-- ==== Sys2Proof/Proofs/FrontEnd.lean ====
section
/-! PROOFS. Steps and the power front end (O1 to O8): which commands reach the front end, what its shared steps keep, and the invariant
that every step keeps. -/
namespace Sys2Proof.Machine

open Sys2Proof.Stmt

/-! ### Commands that reach the front end -/

/-- The commands of the power front end, with BOOT_DONE, which clears the trip record that it copies (R484). -/
def ofFrontEnd : Instr → Bool
  | .vinRise _ _ | .vinFall | .inputWindowChange _ _ | .enInAssert | .enInDeassert | .insertionDelayExpiry | .prechargeWindowFree
  | .prechargeDone | .prechargeTimeout | .rampDone | .powergood _ _ | .outputWindowExit | .currentLimitEnter | .currentLimitExit
  | .faultTimerExpiry | .shortCircuit | .fetModelUpdate _ | .latchClear | .removalHoldExpiry | .bootDone | .faultTimerZero => true
  | _ => false

theorem exec_perstDeassert_eq (p : Port) (s : State) : exec (.perstDeassert p) s =
    .next (onMod (fun m => if s.fe.st = .powergood then onPort p (fun q => { q with inReset := false }) (wake 7 m) else m) s) := by
  by_cases hgood : s.fe.st = .powergood
  · simp only [exec_perstDeassert p hgood, if_pos hgood]
  · simp only [exec, execPerstDeassert, onMod, if_neg hgood, ite_self]

/-- Every other command is an effect on the module behind the front end. -/
theorem exec_of_module (c : Instr) (s : State) (h : ofFrontEnd c = false) : ∃ f, exec c s = .next (onMod f s) := by
  cases c
  case vinRise | vinFall | inputWindowChange | enInAssert | enInDeassert | insertionDelayExpiry | prechargeWindowFree | prechargeDone
    | prechargeTimeout | rampDone | powergood | outputWindowExit | currentLimitEnter | currentLimitExit | faultTimerExpiry | shortCircuit
    | fetModelUpdate | latchClear | removalHoldExpiry | bootDone | faultTimerZero => exact absurd h nofun
  case perstDeassert p => exact ⟨_, exec_perstDeassert_eq p s⟩
  all_goals exact ⟨_, rfl⟩

@[simp] theorem onMod_fe (f : Mod → Mod) (s : State) : (onMod f s).fe = s.fe := by unfold onMod; split <;> rfl
@[simp] theorem onMod_pending (f : Mod → Mod) (s : State) : (onMod f s).pending = s.pending := by unfold onMod; split <;> rfl
@[simp] theorem onFe_pending (g : Nat → FrontEnd → FrontEnd) (s : State) : (onFe g s).pending = s.pending := rfl
@[simp] theorem onFe_fe (g : Nat → FrontEnd → FrontEnd) (s : State) : (onFe g s).fe = g s.m.tb.now s.fe := rfl

@[simp] theorem fetWarn_pending (t : Int) (s : State) : (fetWarn t s).pending = s.pending := by
  unfold fetWarn; dsimp only
  repeat' split
  all_goals simp

/-- The front end after a FET temperature below its limit: at most its warning changes (R482). -/
theorem fetWarn_fe (t : Int) (s : State) : ∃ w, (fetWarn t s).fe = { s.fe with warnFet := w } := by
  unfold fetWarn; dsimp only
  repeat' split
  · exact ⟨s.fe.warnFet, rfl⟩
  · exact ⟨true, onMod_fe _ _⟩
  · exact ⟨false, onMod_fe _ _⟩
  · exact ⟨s.fe.warnFet, rfl⟩

/-- Below 125 °C and without a warning nothing happens (R482). -/
theorem fetWarn_of_cool {t : Int} {s : State} (hcool : t < 125 * 16) (hwarn : s.fe.warnFet = false) : fetWarn t s = s := by
  have hbelow : decide (125 * 16 ≤ t) = false := decide_eq_false (Int.not_le.mpr hcool)
  simp only [fetWarn, hwarn, hbelow, Bool.false_and, Bool.and_false, Bool.false_eq_true, if_false, ite_self]

/-! ### The fault timer (R478) -/

theorem ftAtTime_le {f : FrontEnd} (h : f.ftCount ≤ 32000000) (now : Nat) : ftAtTime f now ≤ 32000000 := by
  unfold ftAtTime; split <;> omega

@[simp] theorem startOk_ftSync (now : Nat) (f : FrontEnd) : startOk (ftSync now f) = startOk f := rfl
@[simp] theorem mainOn_ftSync (now : Nat) (f : FrontEnd) : mainOn (ftSync now f) = mainOn f := rfl

/-- A count that starts up at `now` rises by 16 per ns from what it was, up to its bound. -/
theorem ftAtTime_rises (f : FrontEnd) (now dt : Nat) (w : Bool) :
    ftAtTime { ftSync now f with ftUp := true, warnTimer := w } (now + dt) = min (ftAtTime f now + 16 * dt) 32000000 := by
  simp [ftSync, ftAtTime]

/-- A count that turns down at `now` falls by 1 per ns from what it was. -/
theorem ftAtTime_falls (f : FrontEnd) (now dt : Nat) : ftAtTime { ftSync now f with ftUp := false } (now + dt) = ftAtTime f now - dt := by
  simp [ftSync, ftAtTime]

/-! ### The shared steps of the front end (R472, R479, R480) -/

theorem trip_tripped (c : TripCause) (now : Nat) (f : FrontEnd) : tripped c (trip c now f) := by
  simp [tripped, trip, pgOut, faultN]

/-- What every step out of a lost start condition leaves alone. -/
structure KeepsStart (f g : FrontEnd) : Prop where
  startOk : startOk g = startOk f
  enIn : g.enIn = f.enIn
  uvSel : g.uvSel = f.uvSel
  insDly : g.insDly = f.insDly
  starts : g.starts = f.starts
  latched : f.latch = true → g.latch = true

/-- Both switches open in a window exit, with the fault timer's count `n` and the window exits `exits` (R472). -/
def switchesOpened (now n : Nat) (exits : List Nat) (f : FrontEnd) : FrontEnd :=
  { f with st := .qualify, ftUp := false, ftCount := n, ftAt := now, exits := exits, warnTimer := false, warnFet := false, powered := false,
           waiting := false }

/-- The window exits of the last 10 s, with one at `now` (R479). -/
def exitsWith (now : Nat) (exits : List Nat) : List Nat := now :: exits.filter (fun t => now - t ≤ 10000000000)

/-- R479: a window exit without current limit, the first two under limit, and the third. -/
theorem windowExit_cases (now : Nat) (f : FrontEnd) :
    (f.ftUp = false ∧ windowExit now f = switchesOpened now (ftAtTime f now) f.exits f) ∨
    (f.ftUp = true ∧ (exitsWith now f.exits).length < 3 ∧ windowExit now f = switchesOpened now 0 (exitsWith now f.exits) f) ∨
    (f.ftUp = true ∧ 3 ≤ (exitsWith now f.exits).length ∧ windowExit now f = trip .window now (switchesOpened now 0 [] f)) := by
  cases hup : f.ftUp
  · exact .inl ⟨rfl, by simp only [windowExit, hup]; rfl⟩
  · by_cases hthree : 3 ≤ (exitsWith now f.exits).length
    · refine .inr (.inr ⟨rfl, hthree, ?_⟩)
      simp only [windowExit, hup, Bool.true_and, if_true]
      exact if_pos (decide_eq_true hthree)
    · refine .inr (.inl ⟨rfl, by omega, ?_⟩)
      simp only [windowExit, hup, Bool.true_and, if_true]
      exact if_neg (ne_true_of_eq_false (decide_eq_false hthree))

theorem windowExit_keepsStart (now : Nat) (f : FrontEnd) : KeepsStart f (windowExit now f) := by
  obtain ⟨-, h⟩ | ⟨-, -, h⟩ | ⟨-, -, h⟩ := windowExit_cases now f <;> rw [h]
  · exact ⟨rfl, rfl, rfl, rfl, rfl, id⟩
  · exact ⟨rfl, rfl, rfl, rfl, rfl, id⟩
  · exact ⟨rfl, rfl, rfl, rfl, rfl, fun _ => rfl⟩

theorem bounce_keepsStart (now : Nat) (f : FrontEnd) : KeepsStart f (bounce now f) := by
  cases h : f.st
  case on | powergood => simpa only [bounce, h] using windowExit_keepsStart now f
  all_goals constructor <;> simp [bounce, h, Machine.startOk, ftSync]

theorem startChange_of_lost {now : Nat} {upd : FrontEnd → FrontEnd} {f : FrontEnd} (hf : startOk f = true) (hg : startOk (upd f) = false) :
    startChange now upd f = bounce now (upd f) := by
  simp [startChange, hf, hg]

theorem startChange_of_kept {now : Nat} {upd : FrontEnd → FrontEnd} {f : FrontEnd} (h : startOk f = false ∨ startOk (upd f) = true) :
    startChange now upd f = upd f := by
  rcases h with h | h <;> simp [startChange, h]

/-- A front end in which a start condition or a record of window exits may differ. -/
def SameButStart (f g : FrontEnd) : Prop := ∃ u o e x y, g = { f with uvOk := u, ovOk := o, enIn := e, sawOv := x, sawUv := y }

/-- The loss of a start condition that held is a bounce by the state that it meets (R472, R479). -/
theorem afterBounce_bounce {s : State} {f : FrontEnd} (hf : SameButStart s.fe f) : afterBounce s (bounce s.m.tb.now f) := by
  obtain ⟨hst, hpow, hup, hexits, hlatch, htrip⟩ : f.st = s.fe.st ∧ f.powered = s.fe.powered ∧ f.ftUp = s.fe.ftUp ∧ f.exits = s.fe.exits ∧
      f.latch = s.fe.latch ∧ f.lastTrip = s.fe.lastTrip := by
    obtain ⟨u, o, e, x, y, rfl⟩ := hf
    exact ⟨rfl, rfl, rfl, rfl, rfl, rfl⟩
  cases h : s.fe.st
  case on | powergood =>
    have hfew : (2 ≤ (s.fe.exits.filter (fun t => s.m.tb.now - t ≤ 10000000000)).length) ↔ 3 ≤ (exitsWith s.m.tb.now f.exits).length := by
      simp only [exitsWith, hexits, List.length_cons]; omega
    simp only [afterBounce, bounce, hst, h, hfew, ← hup]
    obtain ⟨hdown, hexit⟩ | ⟨hdown, hlen, hexit⟩ | ⟨hdown, hlen, hexit⟩ := windowExit_cases s.m.tb.now f <;> rw [hexit]
    · simp [switchesOpened, hdown, hlatch, htrip]
    · simp [switchesOpened, Nat.not_le.mpr hlen, hlatch, htrip]
    · simp [switchesOpened, trip, ftSync, hdown, hlen]
  all_goals simp [afterBounce, bounce, hst.trans h, h, ftSync, hpow, hlatch]

/-! ### The invariant through the shared steps -/

theorem frontInv_trip (c : TripCause) (now : Nat) {f : FrontEnd} (hvin : f.vin = true) (hcount : f.ftCount ≤ 32000000) (hstarts : f.starts ≤ 8) :
    frontInv (trip c now f) := by
  simp [frontInv, trip, ftSync, mainOn, hvin, hstarts, ftAtTime_le hcount]

theorem frontInv_switchesOpened {now n : Nat} {exits : List Nat} {f : FrontEnd} (hvin : f.vin = true) (hlatch : f.latch = false)
    (hcount : n ≤ 32000000) (hstarts : f.starts ≤ 8) : frontInv (switchesOpened now n exits f) := by
  simp [frontInv, switchesOpened, mainOn, hvin, hlatch, hcount, hstarts]

theorem frontInv_windowExit (now : Nat) {f : FrontEnd} (hvin : f.vin = true) (hlatch : f.latch = false) (hcount : f.ftCount ≤ 32000000)
    (hstarts : f.starts ≤ 8) : frontInv (windowExit now f) := by
  obtain ⟨-, h⟩ | ⟨-, -, h⟩ | ⟨-, -, h⟩ := windowExit_cases now f <;> rw [h]
  · exact frontInv_switchesOpened hvin hlatch (ftAtTime_le hcount now) hstarts
  · exact frontInv_switchesOpened hvin hlatch (Nat.zero_le _) hstarts
  · exact frontInv_trip _ _ hvin (Nat.zero_le _) hstarts

/-- A bounce of a front end whose invariant held until the start condition went. -/
theorem frontInv_bounce (now : Nat) {f g : FrontEnd} (h : frontInv f) (hg : SameButStart f g) : frontInv (bounce now g) := by
  obtain ⟨u, o, e, x, y, rfl⟩ := hg
  obtain ⟨hoff, -, hup, hpow, hgood, hlatched, hlatch, hwarn, hwait, hcount, hstarts⟩ := h
  cases hst : f.st
  case on | powergood =>
    simp only [bounce]
    exact frontInv_windowExit now (by simpa [hst] using hoff) (by simpa [hst] using hlatch) hcount hstarts
  all_goals simp_all [bounce, frontInv, mainOn, ftSync, ftAtTime_le]

theorem frontInv_startChange (now : Nat) {upd : FrontEnd → FrontEnd} {f : FrontEnd} (h : frontInv f) (hupd : SameButStart f (upd f)) :
    frontInv (startChange now upd f) := by
  by_cases hlost : startOk f = true ∧ startOk (upd f) = false
  · rw [startChange_of_lost hlost.1 hlost.2]
    exact frontInv_bounce now h hupd
  · rw [startChange_of_kept (by simpa [imp_iff_not_or] using hlost)]
    obtain ⟨u, o, e, x, y, hg⟩ := hupd
    rw [hg] at hlost ⊢
    obtain ⟨hoff, hstart, hrest⟩ := h
    exact ⟨hoff, fun hst => by simpa [hstart hst] using hlost, hrest⟩

theorem frontInv_precharge {f : FrontEnd} (h : frontInv f) (hst : f.st = .qualify) (hok : startOk f = true) : frontInv (precharge f) := by
  obtain ⟨hoff, hstart, hup, hpow, hgood, hlatched, hlatch, hwarn, hwait, hcount, hstarts⟩ := h
  unfold precharge
  split
  · simp_all [frontInv, mainOn, startOk]
  · simp_all [frontInv, mainOn]

/-! ### The commands of the front end keep the invariant -/

theorem frontInv_vinFall (now : Nat) {f : FrontEnd} (h : frontInv f) :
    frontInv { startChange now (fun f => { f with uvOk := false, sawUv := f.sawUv || (f.uvOk && mainOn f && f.st != .ramp) }) f with
      vin := false, st := .off, powered := false, waiting := false } := by
  set g := startChange now (fun f => { f with uvOk := false, sawUv := f.sawUv || (f.uvOk && mainOn f && f.st != .ramp) }) f with hg
  have hinv : frontInv g := frontInv_startChange now h ⟨_, _, _, _, _, rfl⟩
  have hlost : startOk g = false := by
    rw [hg]
    by_cases hok : startOk f = true
    · rw [startChange_of_lost hok (by simp [startOk]), (bounce_keepsStart _ _).startOk]
      simp [startOk]
    · rw [startChange_of_kept (.inl (by simpa using hok))]
      simp [startOk]
  obtain ⟨-, hstart, hup, hpow, hgood, hlatched, hlatch, hwarn, hwait, hcount, hstarts⟩ := hinv
  have hopen : mainOn g = false := by
    cases hon : mainOn g
    · rfl
    · exact absurd (hstart (.inr hon)) (by simp [hlost])
  simp_all [frontInv, mainOn]

theorem frontInv_vinRise (uvSel insDly : BitVec 2) {f : FrontEnd} (h : frontInv f) (hvin : f.vin = false) :
    frontInv { f with vin := true, uvOk := false, ovOk := true, uvSel := uvSel, insDly := insDly,
                      st := if f.latch then .latched else .qualify, waiting := false } := by
  obtain ⟨hoff, hstart, hup, hpow, hgood, hlatched, hlatch, hwarn, hwait, hcount, hstarts⟩ := h
  have hst : f.st = .off := hoff.mpr hvin
  cases hl : f.latch <;> simp_all [frontInv, mainOn]

theorem frontInv_limitEnter (now : Nat) {f : FrontEnd} (h : frontInv f) (hon : mainOn f = true) :
    frontInv { ftSync now f with ftUp := true, warnTimer := f.warnTimer || f.st == .powergood } := by
  obtain ⟨hoff, hstart, hup, hpow, hgood, hlatched, hlatch, hwarn, hwait, hcount, hstarts⟩ := h
  refine ⟨hoff, hstart, fun _ => hon, hpow, hgood, hlatched, hlatch, fun hw => ?_, hwait, ftAtTime_le hcount now, hstarts⟩
  rcases Bool.or_eq_true_iff.mp hw with hw | hw
  · exact hwarn hw
  · exact .inr (eq_of_beq hw)

theorem frontInv_limitExit (now : Nat) {f : FrontEnd} (h : frontInv f) : frontInv { ftSync now f with ftUp := false } := by
  obtain ⟨hoff, hstart, hup, hpow, hgood, hlatched, hlatch, hwarn, hwait, hcount, hstarts⟩ := h
  exact ⟨hoff, hstart, nofun, hpow, hgood, hlatched, hlatch, hwarn, hwait, ftAtTime_le hcount now, hstarts⟩

/-- VIN is above 3.0 V in every state but OFF. -/
theorem vin_of_frontInv {f : FrontEnd} (h : frontInv f) (hst : f.st ≠ .off) : f.vin = true := by
  simpa [hst] using h.1

theorem vin_of_mainOn {f : FrontEnd} (h : frontInv f) (hon : mainOn f = true) : f.vin = true :=
  vin_of_frontInv h (by rintro hst; simp [mainOn, hst] at hon)

/-- A trip of a front end that keeps the invariant, whatever its fault timer has been set to. -/
theorem frontInv_trip_of_inv (c : TripCause) (now : Nat) {f : FrontEnd} (h : frontInv f) (hst : f.st ≠ .off) : frontInv (trip c now f) :=
  have hvin := vin_of_frontInv h hst
  have ⟨_, _, _, _, _, _, _, _, _, hcount, hstarts⟩ := h
  frontInv_trip c now hvin hcount hstarts

theorem frontInv_fetModelUpdate (model : Int) {s t : State} (h : frontInv s.fe) (ht : exec (.fetModelUpdate model) s = .next t) : frontInv t.fe := by
  obtain rfl := Host.Outcome.next.inj ht
  dsimp only
  split
  next => exact h
  next hst =>
    split
    · exact frontInv_trip_of_inv _ _ (f := { s.fe with fetT := _ }) h (by simp_all)
    · obtain ⟨w, hw⟩ := fetWarn_fe (max model (fetMeasured s.m)) { s with fe := { s.fe with fetT := max model (fetMeasured s.m) } }
      rw [hw]
      exact h

theorem frontInv_powergood (a : BitVec 3) (g : Bool) {s t : State} (h : frontInv s.fe) (ht : exec (.powergood a g) s = .next t) : frontInv t.fe := by
  obtain rfl := Host.Outcome.next.inj ht
  obtain ⟨hoff, hstart, hup, hpow, hgood, hlatched, hlatch, hwarn, hwait, hcount, hstarts⟩ := h
  dsimp only
  split
  next hon =>
    have hst : s.fe.st = .on := by simp_all
    have : frontInv { s.fe with st := .powergood, powered := true } := by simp_all [frontInv, mainOn, startOk]
    split <;> exact this
  next => exact ⟨hoff, hstart, hup, hpow, hgood, hlatched, hlatch, hwarn, hwait, hcount, hstarts⟩

/-- A command of the front end answers a next state with the queue untouched, and keeps the invariant. -/
theorem frontInv_of_frontEnd {c : Instr} {s t : State} (hc : ofFrontEnd c = true) (h : frontInv s.fe) (ht : exec c s = .next t) : frontInv t.fe := by
  have hinv := h
  obtain ⟨hoff, hstart, hup, hpow, hgood, hlatched, hlatch, hwarn, hwait, hcount, hstarts⟩ := h
  cases c
  case fetModelUpdate x => exact frontInv_fetModelUpdate x hinv ht
  case powergood a g => exact frontInv_powergood a g hinv ht
  case vinRise u i =>
    obtain rfl := Host.Outcome.next.inj ht
    dsimp only
    split
    next => exact hinv
    next hvin => exact frontInv_vinRise u i hinv (by simpa using hvin)
  case vinFall => obtain rfl := Host.Outcome.next.inj ht; exact frontInv_vinFall _ hinv
  case inputWindowChange uv inside =>
    obtain rfl := Host.Outcome.next.inj ht
    dsimp only
    split
    · exact hinv
    · refine frontInv_startChange _ hinv ?_
      split <;> exact ⟨_, _, _, _, _, rfl⟩
  case enInAssert =>
    obtain rfl := Host.Outcome.next.inj ht
    refine ⟨hoff, fun hst => ?_, hup, hpow, hgood, hlatched, hlatch, hwarn, hwait, hcount, hstarts⟩
    have := hstart hst
    simp_all [startOk]
  case enInDeassert => obtain rfl := Host.Outcome.next.inj ht; exact frontInv_startChange _ hinv ⟨_, _, _, _, _, rfl⟩
  case insertionDelayExpiry =>
    obtain rfl := Host.Outcome.next.inj ht
    dsimp only [onFe]
    split
    next hgo => simp at hgo; exact frontInv_precharge hinv hgo.1 hgo.2
    next => exact hinv
  case prechargeWindowFree =>
    obtain rfl := Host.Outcome.next.inj ht
    have hfewer : frontInv { s.fe with starts := s.fe.starts - 1 } :=
      ⟨hoff, hstart, hup, hpow, hgood, hlatched, hlatch, hwarn, hwait, hcount, (Nat.sub_le _ _).trans hstarts⟩
    dsimp only [onFe]
    split
    next hgo => simp at hgo; exact frontInv_precharge hfewer hgo.1.1 hgo.2
    next => exact hfewer
  case prechargeDone | rampDone | outputWindowExit =>
    obtain rfl := Host.Outcome.next.inj ht
    dsimp only [onFe]
    split <;> simp_all [frontInv, mainOn, startOk]
  case prechargeTimeout | shortCircuit =>
    obtain rfl := Host.Outcome.next.inj ht
    dsimp only [onFe]
    split
    next hst => exact frontInv_trip_of_inv _ _ hinv (by rintro hoff; simp [hoff, mainOn] at hst)
    next => exact hinv
  case currentLimitEnter =>
    obtain rfl := Host.Outcome.next.inj ht
    dsimp only [onFe]
    split
    next hon => exact frontInv_limitEnter _ hinv hon
    next => exact hinv
  case currentLimitExit =>
    obtain rfl := Host.Outcome.next.inj ht
    dsimp only [onFe]
    split
    · exact frontInv_limitExit _ hinv
    · exact hinv
  case faultTimerExpiry =>
    obtain rfl := Host.Outcome.next.inj ht
    dsimp only [onFe]
    split
    next hcounts =>
      have hvin : s.fe.vin = true := vin_of_mainOn hinv (hup hcounts)
      exact frontInv_trip _ _ hvin le_rfl hstarts
    next => exact hinv
  case faultTimerZero =>
    obtain rfl := Host.Outcome.next.inj ht
    dsimp only [onFe]
    split
    · exact hinv
    · exact ⟨hoff, hstart, hup, hpow, hgood, hlatched, hlatch, nofun, hwait, Nat.zero_le _, hstarts⟩
  case latchClear =>
    obtain rfl := Host.Outcome.next.inj ht
    dsimp only
    split <;> simp_all [frontInv, mainOn]
  case removalHoldExpiry =>
    obtain rfl := Host.Outcome.next.inj ht
    dsimp only
    split <;> simp_all [frontInv, mainOn]
  case bootDone =>
    obtain rfl := Host.Outcome.next.inj ht
    dsimp only
    split <;> exact hinv
  all_goals exact absurd hc nofun

/-- A command answers a next state and leaves the queue of commands alone. -/
theorem exec_answers (c : Instr) (s : State) : ∃ t, exec c s = .next t ∧ t.pending = s.pending := by
  cases hc : ofFrontEnd c
  · obtain ⟨f, hf⟩ := exec_of_module c s hc
    exact ⟨_, hf, onMod_pending f s⟩
  cases c
  case vinRise | inputWindowChange | latchClear | removalHoldExpiry | bootDone =>
    refine ⟨_, rfl, ?_⟩
    dsimp only
    split <;> rfl
  case powergood =>
    refine ⟨_, rfl, ?_⟩
    dsimp only
    repeat' split
    all_goals rfl
  case fetModelUpdate =>
    refine ⟨_, rfl, ?_⟩
    dsimp only
    repeat' split
    all_goals simp
  case vinFall | enInAssert | enInDeassert | insertionDelayExpiry | prechargeWindowFree | prechargeDone | prechargeTimeout | rampDone
    | outputWindowExit | currentLimitEnter | currentLimitExit | faultTimerExpiry | shortCircuit | faultTimerZero => exact ⟨_, rfl, rfl⟩
  all_goals exact absurd hc nofun

/-- A command keeps the invariant of the front end. -/
theorem frontInv_exec {c : Instr} {s t : State} (h : frontInv s.fe) (ht : exec c s = .next t) : frontInv t.fe := by
  cases hc : ofFrontEnd c
  · obtain ⟨f, hf⟩ := exec_of_module c s hc
    obtain rfl := Host.Outcome.next.inj (hf.symm.trans ht)
    rw [onMod_fe]
    exact h
  · exact frontInv_of_frontEnd hc h ht

/-! ### Statements about every step -/

/-- Settles O1: a step takes the first command of its queue. -/
theorem stepRunsTheFrontCommand : Obligations.StepRunsTheFrontCommand := fun _ _ _ => rfl

/-- The counters of a nanosecond change nothing else but the draws of undefined values. -/
theorem perfTick_eq (m : Mod) : ∃ v n, perfTick m = { m with perf := v, free := n } := by
  unfold perfTick
  split
  · exact ⟨m.perf, m.free, rfl⟩
  · exact ⟨_, _, rfl⟩

theorem sideGo_of_none_held {m : Mod} (h : m.conn.held = []) : sideGo m = m := by
  unfold sideGo
  split
  · simp only [h, List.foldl_nil, onConn]
    rw [← h]
  · rfl

/-- After a Critical shutdown, with no command and no sideband write waiting, only counting and fetching go on (R465). -/
theorem tick_of_critical {m : Mod} (hcrit : m.therm.critical = true) (hparked : m.parked = []) (hheld : m.conn.held = []) :
    ∃ v n, ringsOnly { m with tb := { m.tb with now := m.tb.now + 1 }, perf := v, free := n } (tick true m) := by
  obtain ⟨v, n, hperf⟩ := perfTick_eq { m with tb := { m.tb with now := m.tb.now + 1 } }
  refine ⟨v, n, ?_⟩
  have hengines : enginesGo (perfTick { m with tb := { m.tb with now := m.tb.now + 1 } }) =
      { m with tb := { m.tb with now := m.tb.now + 1 }, perf := v, free := n } := by
    rw [hperf, enginesGo, if_pos hcrit, parkedGo]
    simp only [hparked, List.foldl_nil]
  have hfetch := fetchPump_ringsOnly { m with tb := { m.tb with now := m.tb.now + 1 }, perf := v, free := n }
  simp only [tick, if_true, hengines]
  rw [sideGo_of_none_held]
  · exact hfetch
  · obtain ⟨_, _, _, _, _, _, _, _, _, heq⟩ := hfetch
    rw [heq]
    exact hheld

/-- Settles O2: an empty queue ticks. -/
theorem emptyQueuePassesOneNanosecond : Obligations.EmptyQueuePassesOneNanosecond := by
  have hstep (s : State) (h : s.pending = []) : step s = .next { s with m := tick s.fe.powered s.m } := by simp only [step, h]
  refine ⟨fun s h => ⟨_, hstep s h⟩, fun s h hoff => ?_, fun s h hon hcrit hparked hheld => ⟨_, hstep s h, ?_⟩⟩
  · rw [hstep s h, hoff]
    rfl
  · obtain ⟨v, n, _, _, _, _, _, _, _, _, _, heq⟩ := tick_of_critical hcrit hparked hheld
    rw [hon, heq]
    exact ⟨rfl, rfl, rfl, rfl, rfl, rfl, rfl, rfl, rfl, rfl, rfl, rfl, rfl, rfl, rfl⟩

/-- Settles O3: the effects of all commands are functions of the state, and none writes the queue. -/
theorem everyCommandAnswersANextState : Obligations.EveryCommandAnswersANextState := exec_answers

/-- Settles O7, by the values of the front end at reset. -/
theorem frontEndInvariantAtReset : Obligations.FrontEndInvariantAtReset := by
  simp [Obligations.FrontEndInvariantAtReset, frontInv, State.reset, initFront, mainOn, startOk]

/-- Settles O8: only the front end's own commands move it, and each keeps its invariant. -/
theorem everyStepKeepsTheFrontEndInvariant : Obligations.EveryStepKeepsTheFrontEndInvariant := by
  intro s t h ht
  cases hq : s.pending with
  | nil =>
    simp only [step, hq] at ht
    obtain rfl := Host.Outcome.next.inj ht
    exact h
  | cons c rest =>
    simp only [step, hq] at ht
    exact frontInv_exec (s := { s with pending := rest }) h ht

/-! ### The start conditions (O4) -/

theorem vinRisesAndFalls : VinRisesAndFalls := by
  refine ⟨fun u i s hvin => ?_, fun s => ⟨_, rfl, rfl, rfl, rfl, ?_⟩⟩
  · simp [exec, execVinRise, hvin]
  · have hkeeps : KeepsStart { s.fe with uvOk := false, sawUv := s.fe.sawUv || (s.fe.uvOk && mainOn s.fe && s.fe.st != .ramp) }
        (startChange s.m.tb.now (fun f => { f with uvOk := false, sawUv := f.sawUv || (f.uvOk && mainOn f && f.st != .ramp) }) s.fe) := by
      unfold startChange
      dsimp only
      split
      · exact bounce_keepsStart _ _
      · exact ⟨rfl, rfl, rfl, rfl, rfl, id⟩
    exact ⟨hkeeps.latched, hkeeps.uvSel, hkeeps.insDly, hkeeps.starts⟩

/-- A start condition that goes while all held is a bounce, after which the conditions do not hold. -/
theorem startChange_bounces {s : State} {upd : FrontEnd → FrontEnd} (hok : startOk s.fe = true) (hlost : startOk (upd s.fe) = false)
    (hupd : SameButStart s.fe (upd s.fe)) :
    startOk (startChange s.m.tb.now upd s.fe) = false ∧ afterBounce s (startChange s.m.tb.now upd s.fe) := by
  rw [startChange_of_lost hok hlost, (bounce_keepsStart _ _).startOk]
  exact ⟨hlost, afterBounce_bounce hupd⟩

theorem exec_inputWindowChange {uv inside : Bool} {s : State} (hvin : s.fe.vin = true) : exec (.inputWindowChange uv inside) s =
    .next { s with fe := startChange s.m.tb.now (fun f =>
      let exit := !inside && (f.st == .on || f.st == .powergood)
      if uv then { f with uvOk := inside, sawUv := f.sawUv || exit } else { f with ovOk := inside, sawOv := f.sawOv || exit }) s.fe } := by
  simp only [exec, execInputWindowChange, hvin]
  rfl

theorem exec_enInDeassert (s : State) : exec .enInDeassert s =
    .next { s with fe := startChange s.m.tb.now (fun f => { f with enIn := false }) s.fe } := rfl

theorem startConditionsComeAndGo : StartConditionsComeAndGo := by
  refine ⟨fun uv s hvin hok => ⟨_, exec_inputWindowChange hvin, startChange_bounces hok ?_ ?_⟩, fun uv s hvin hok => ?_,
    fun s hok => ⟨_, exec_enInDeassert s, ?_, (startChange_bounces hok ?_ ⟨_, _, _, _, _, rfl⟩).2⟩, fun s => rfl⟩
  · cases uv <;> simp [startOk]
  · cases uv <;> exact ⟨_, _, _, _, _, rfl⟩
  · rw [exec_inputWindowChange hvin, startChange_of_kept (.inl hok)]
    cases uv <;> simp
  · rw [startChange_of_lost hok (by simp [startOk]), (bounce_keepsStart _ _).enIn]
  · simp [startOk]

/-- Settles O4, by the samples at VIN and by the bounces. -/
theorem startConditionsAreSampledAndBounce : Obligations.StartConditionsAreSampledAndBounce := ⟨vinRisesAndFalls, startConditionsComeAndGo⟩

/-! ### The start sequence (O5) -/

theorem startSequenceRuns : StartSequenceRuns := by
  refine ⟨fun s hst hok hfew => ?_, fun s hst hok hmany => ?_, fun s hst hok hwait hstarts => ?_, fun s hst => ?_, fun s hst => ?_⟩
  · simp [exec, execInsertionDelayExpiry, onFe, hst, hok, precharge, hfew]
  · simp [exec, execInsertionDelayExpiry, onFe, hst, hok, precharge, Nat.not_lt.mpr hmany]
  · have hok' : startOk { s.fe with starts := s.fe.starts - 1 } = true := hok
    simp [exec, execPrechargeWindowFree, onFe, hst, hwait, precharge, hstarts] at hok' ⊢
    simp [hok']
  · simp [exec, execPrechargeDone, onFe, hst]
  · simp [exec, execRampDone, onFe, hst]

theorem powerGoodAssertsAndFalls : PowerGoodAssertsAndFalls := by
  refine ⟨fun a g s hst hup hpow => ?_, fun a g s hst hup hpow => ?_, fun s hst => ?_⟩
  · simp [exec, execPowergood, hst, hup, hpow]
  · refine ⟨_, by simp [exec, execPowergood, hst, hup, hpow]; rfl, ?_⟩
    exact ⟨rfl, rfl, rfl, rfl, rfl, rfl, rfl, rfl, rfl, rfl⟩
  · simp [exec, execOutputWindowExit, onFe, hst]

/-- Settles O5, by the states of the sequence and by the reset at power-good. -/
theorem startSequenceEndsInPowerGood : Obligations.StartSequenceEndsInPowerGood := ⟨startSequenceRuns, powerGoodAssertsAndFalls⟩

/-! ### The fault timer, trips and the latch (O6) -/

theorem faultTimerCounts : FaultTimerCounts := by
  refine ⟨fun s hon => ?_, fun s hup => ?_, fun s hup => ?_⟩
  · refine ⟨{ ftSync s.m.tb.now s.fe with ftUp := true, warnTimer := s.fe.warnTimer || s.fe.st == .powergood },
      by simp [exec, execCurrentLimitEnter, onFe, hon], rfl, rfl, rfl, fun hst => ?_, fun dt => ftAtTime_rises _ _ _ _⟩
    simp [faultWarnN, ftSync, hst]
  · exact ⟨{ ftSync s.m.tb.now s.fe with ftUp := false }, by simp [exec, execCurrentLimitExit, onFe, hup], rfl, rfl, rfl,
      fun dt => ftAtTime_falls _ _ _⟩
  · exact ⟨{ s.fe with ftCount := 0, ftAt := s.m.tb.now, warnTimer := false }, by simp [exec, execFaultTimerZero, onFe, hup], rfl, rfl, rfl,
      by simp [ftAtTime, hup]⟩

theorem tripCausesLatch : TripCausesLatch := by
  refine ⟨fun s hup => ⟨_, ?_, trip_tripped .timer s.m.tb.now { s.fe with ftCount := 32000000, ftAt := s.m.tb.now }⟩,
    fun s hon => ⟨_, ?_, trip_tripped .short s.m.tb.now s.fe⟩, fun s hst => ⟨_, ?_, trip_tripped .precharge s.m.tb.now s.fe⟩,
    fun t s hoff hlatched hhot => ⟨_, ?_, trip_tripped .fethot s.m.tb.now { s.fe with fetT := max t (fetMeasured s.m) }, rfl⟩,
    fun t s hoff hlatched hcool hwarn => ?_⟩
  · simp [exec, execFaultTimerExpiry, onFe, hup]
  · simp [exec, execShortCircuit, onFe, hon]
  · simp [exec, execPrechargeTimeout, onFe, hst]
  · simp only [exec, execFetModelUpdate, beq_iff_eq, hoff, hlatched, Bool.or_eq_true, or_self, if_false, if_pos hhot]
    rfl
  · have hmild : ¬ 150 * 16 ≤ max t (fetMeasured s.m) := by omega
    simp only [exec, execFetModelUpdate, beq_iff_eq, hoff, hlatched, Bool.or_eq_true, or_self, if_false, if_neg hmild]
    rw [fetWarn_of_cool hcool]
    exact hwarn

theorem latchClears : LatchClears :=
  ⟨fun s hst hen => by simp [exec, execLatchClear, hst, hen], fun s hvin => by simp [exec, execRemovalHoldExpiry, hvin]⟩

/-- Settles O6, by the timer's rates, the causes of a trip, and the two ways to clear the latch. -/
theorem tripsLatchUntilCleared : Obligations.TripsLatchUntilCleared := ⟨faultTimerCounts, tripCausesLatch, latchClears⟩

end Sys2Proof.Machine
end

