-- ==== Sys2Proof/Proofs/Sideband.lean ====
section
/-! PROOFS. The sideband and the TAP (O58 to O60): what a transfer comes to, what REGERR captures, and what the common command codes and the
TAP instructions change. -/
namespace Sys2Proof.Machine

open Sys2Proof.Stmt

/-! ### Pins -/

theorem pinsHeld_of_ir {m : Mod} (h : m.conn.ir ≠ 3) : pinsHeld m = false := by simpa [pinsHeld] using h

theorem pinsHeld_of_extest {m : Mod} (h : m.conn.ir = 3) : pinsHeld m = true := by simpa [pinsHeld] using h

theorem blocksUp_of_run {m : Mod} (h : m.power.state = 0) : blocksUp m = true := by simp [blocksUp, h]

/-! ### REGERR (R555) -/

/-- REGERR captures the first broken access while VALID is 0 and counts each. -/
theorem regError_ev_captured (off src reason : Nat) (m : Mod) :
    let x := (regError off src reason m).ev
    x.reValid = true ∧ x.reCount = min 0xFFFFFFFF (m.ev.reCount + 1) ∧
      x.reReason = (if m.ev.reValid then m.ev.reReason else BitVec.ofNat 3 reason) ∧
      x.reSource = (if m.ev.reValid then m.ev.reSource else BitVec.ofNat 2 src) ∧
      x.reOffset = (if m.ev.reValid then m.ev.reOffset else BitVec.ofNat 26 off) := by
  simp only [regError, event, raise, raiseAt_ev]
  cases h : m.ev.reValid <;> simp only [if_true, if_false, Bool.false_eq_true] <;> split <;> simp [satAdd, h]

/-- What a broken register access leaves alone (R555). -/
theorem regError_frame (off src reason : Nat) (m : Mod) :
    (regError off src reason m).mem = m.mem ∧ (regError off src reason m).conn = m.conn ∧ (regError off src reason m).therm = m.therm ∧
      (regError off src reason m).prot = m.prot ∧ (regError off src reason m).rings = m.rings := by
  unfold regError
  dsimp only
  split <;> simp

/-! ### Transfers (R567 to R569) -/

section
variable {h : BitVec 32} {l : List Byte} {m : Mod}

/-- R568: a broken write transfer. -/
theorem sidebandWrite_of_broken (hir : m.conn.ir ≠ 3) (hbad : hdrBad h = true ∨ l.length ≠ hdrSize h) :
    sidebandWrite h l m = regError (hdrOffset h) 2 1 (wake 6 m) := by
  have hcheck : (hdrBad h || l.length != hdrSize h) = true := by simpa using hbad
  simp [sidebandWrite, pinsHeld_of_ir hir, hcheck]

/-- A well-formed write transfer reaches its register, or waits for the exit that it begins or meets (R545). -/
theorem sidebandWrite_of_sound (hir : m.conn.ir ≠ 3) (hgood : hdrBad h = false) (hlen : l.length = hdrSize h) :
    sidebandWrite h l m = sideWrite (hdrOffset h) (hdrSize h) (ofBytes 64 l) (wake 6 m) := by
  simp [sidebandWrite, pinsHeld_of_ir hir, hgood, hlen]

theorem sidebandWrite_of_run (hir : m.conn.ir ≠ 3) (hrun : m.power.state = 0) (hgood : hdrBad h = false) (hlen : l.length = hdrSize h) :
    sidebandWrite h l m = regWrite .sideband (hdrOffset h) (hdrSize h) (ofBytes 64 l) m := by
  rw [sidebandWrite_of_sound hir hgood hlen, wake_of_run 6 m hrun, sideWrite, sideAccess, if_pos (blocksUp_of_run hrun)]

/-- In Sleep and in an exit the write waits. -/
theorem sidebandWrite_of_asleep (hir : m.conn.ir ≠ 3) (hasleep : m.power.state = 2 ∨ m.power.state = 5) (hgood : hdrBad h = false)
    (hlen : l.length = hdrSize h) : sidebandWrite h l m =
      { wake 6 m with conn := { m.conn with held := m.conn.held ++ [(hdrOffset h, hdrSize h, ofBytes 64 l)] } } := by
  have hdown : blocksUp (wake 6 m) = false := by
    rcases hasleep with hst | hst <;> simp only [blocksUp, wake, hst] <;> split <;> simp [hst]
  rw [sidebandWrite_of_sound hir hgood hlen, sideWrite, sideAccess, hdown]
  simp [onConn]

theorem sidebandHeader_of_broken (fe : FrontEnd) (hir : m.conn.ir ≠ 3) (hbad : hdrBad h = true) :
    sidebandHeader fe h m = regError (hdrOffset h) 2 1 (wake 6 m) := by
  simp [sidebandHeader, pinsHeld_of_ir hir, hbad]

/-- R569: a read whose data has not been posted takes it in Run. -/
theorem sidebandRead_of_unposted {fe : FrontEnd} {n : Nat} (hir : m.conn.ir ≠ 3) (hheader : m.conn.header = some h)
    (hposted : m.conn.posted = none) (hrun : m.power.state = 0) :
    sidebandRead fe n m = send (.sideData ((readBytes fe h m ++ List.replicate n 0xFF).take n))
      { m with conn := { m.conn with posted := some (readBytes fe h m) } } := by
  simp [sidebandRead, pinsHeld_of_ir hir, hheader, hposted, blocksUp_of_run hrun, onConn]

theorem sidebandRead_of_down {fe : FrontEnd} {n : Nat} (hir : m.conn.ir ≠ 3) (hheader : m.conn.header = some h)
    (hposted : m.conn.posted = none) (hdown : 1 < m.power.state) : sidebandRead fe n m = send .sideNack m := by
  have hblocks : blocksUp m = false := by simpa [blocksUp] using hdown
  simp [sidebandRead, pinsHeld_of_ir hir, hheader, hposted, hblocks]

theorem sidebandRead_of_no_header {fe : FrontEnd} {n : Nat} (hir : m.conn.ir ≠ 3) (hheader : m.conn.header = none) :
    sidebandRead fe n m = send (.sideData (List.replicate n 0)) m := by
  simp [sidebandRead, pinsHeld_of_ir hir, hheader]

end

/-- A read of `n` bytes of a register's data returns them first, and 0xFF for the excess (R568). -/
theorem sideAnswer_bytes (l : List Byte) (n : Nat) :
    ((l ++ List.replicate n 0xFF).take n).length = n ∧ ((l ++ List.replicate n 0xFF).take n).take l.length = l.take n ∧
      ∀ b ∈ ((l ++ List.replicate n 0xFF).take n).drop l.length, b = 0xFF := by
  refine ⟨by simp, ?_, fun b hb => ?_⟩
  · rw [List.take_take, List.take_append_of_le_length (Nat.min_le_left _ _), ← List.take_take, List.take_of_length_le (by simp)]
  · rw [List.drop_take, List.drop_left] at hb
    exact List.eq_of_mem_replicate (List.mem_of_mem_take hb)

/-- The write of HK_CFG's grace time by the sideband (R463, log entry 72). -/
theorem regWrite_grace (v : Word64) (m : Mod) : regWrite .sideband 0xA0010 8 v m =
    if 1 ≤ (bitsOf v 0 7).toNat ∧ (bitsOf v 0 7).toNat ≤ 100 then { m with therm := { m.therm with grace := (bitsOf v 0 7).toNat } }
    else regError 0xA0010 2 0 m := by
  rw [regWrite_assigned (g := fromAny (fun w => refuses w 0 7 (inRange 1 100)) setGrace) (by decide) rfl]
  have hbad : refuses (written 0xA0010 8 v) 0 7 (inRange 1 100) = !decide (1 ≤ (bitsOf v 0 7).toNat ∧ (bitsOf v 0 7).toNat ≤ 100) := by
    rw [refuses, written_whole, Option.any_some, inRange, Bool.decide_and]
  simp only [fromAny, hbad, anySource, setGrace, written_whole, Option.getD_some]
  by_cases hok : 1 ≤ (bitsOf v 0 7).toNat ∧ (bitsOf v 0 7).toNat ≤ 100
  · rw [if_pos hok, decide_eq_true hok]
    rfl
  · rw [if_neg hok, decide_eq_false hok]
    rfl

/-- Settles O58, by the transfers in each power state. -/
theorem sidebandTransfersReadAndWrite : Obligations.SidebandTransfersReadAndWrite := by
  refine ⟨fun h l s hp hir hrun hgood hlen => ?_, fun h l s hp hir hrun hh hlen => ?_, fun h n s hp hir hrun hgood => ⟨?_, fun l hheader hposted => ?_⟩,
    fun h n s hp hir hdown hheader hposted => ?_, fun h l s hp hir hasleep hgood hlen => ?_, fun h l s hir => ⟨?_, ?_⟩⟩
  · exact completes_of_onMod _ rfl hp (sidebandWrite_of_run hir hrun hgood hlen)
  · subst hh
    refine completes_of_onMod _ rfl hp ?_
    rw [sidebandWrite_of_run hir hrun rfl hlen]
    exact regWrite_grace _ _
  · exact completes_of_onMod _ rfl hp (sidebandHeader_of_run _ _ _ hir hrun hgood)
  · exact completes_of_onMod _ rfl hp (sidebandRead_of_posted _ _ _ hir hheader hposted)
  · exact completes_of_onMod _ rfl hp (sidebandRead_of_down hir hheader hposted hdown)
  · exact completes_of_onMod _ rfl hp (sidebandWrite_of_asleep hir hasleep hgood hlen)
  · exact exec_of_fixed _ rfl (by simp [sidebandWrite, pinsHeld_of_extest hir])
  · exact exec_of_fixed (sidebandHeader s.fe h) rfl (by simp [sidebandHeader, pinsHeld_of_extest hir])

theorem hdrBad_iff (h : BitVec 32) : hdrBad h = true ↔ bitsOf h 27 5 ≠ 0 ∨ (bitsOf h 0 26).toNat % hdrSize h ≠ 0 := by
  simp [hdrBad, hdrOffset]

/-- A read with posted data `l` sends it in full or in part, with 0xFF for the excess. -/
theorem sideData_answers {n : Nat} {l : List Byte} {m x : Mod} (hx : ∃ c, x = { m with conn := c }) {k : Nat} (hk : l.length = k) :
    ∃ a : List Byte, (send (.sideData ((l ++ List.replicate n 0xFF).take n)) x).out = .sideData a :: m.out ∧
      send (.sideData ((l ++ List.replicate n 0xFF).take n)) x = { m with
        conn := (send (.sideData ((l ++ List.replicate n 0xFF).take n)) x).conn
        out := (send (.sideData ((l ++ List.replicate n 0xFF).take n)) x).out } ∧
      a.length = n ∧ a.take k = l.take n ∧ ∀ b ∈ a.drop k, b = 0xFF := by
  obtain ⟨c, rfl⟩ := hx
  subst hk
  exact ⟨_, rfl, rfl, sideAnswer_bytes l n⟩

/-- Settles O59, by the checks on a header, the capture of REGERR, and the bytes of an answer. -/
theorem brokenSidebandTransfersAreRecorded : Obligations.BrokenSidebandTransfersAreRecorded := by
  refine ⟨fun h l s hp hir => ⟨fun hbad => ?_, fun hbad => ?_⟩, fun off m => ?_, fun h posted n s hp hir hheader hlen hposted => ?_,
    fun n s hp hir hheader => ?_⟩
  · refine completes_of_onMod _ rfl hp (sidebandWrite_of_broken hir ?_)
    rw [hdrBad_iff]
    tauto
  · exact completes_of_onMod _ rfl hp (sidebandHeader_of_broken _ hir ((hdrBad_iff h).mpr hbad))
  · obtain ⟨hvalid, hcount, hreason, hsource, hoffset⟩ := regError_ev_captured off 2 1 m
    refine ⟨fun hfree => ?_, fun htaken => ?_, hcount, regError_frame off 2 1 m⟩
    · simp only [hfree, Bool.false_eq_true, if_false] at hreason hsource hoffset
      exact ⟨hreason, hsource, hoffset, hvalid⟩
    · simp only [htaken, if_true] at hreason hsource hoffset
      exact ⟨hreason, hsource, hoffset, hvalid⟩
  · refine completes_of_onMod (sidebandRead s.fe n) rfl hp ?_
    rcases hposted with hposted | ⟨hnone, hrun, rfl⟩
    · rw [sidebandRead_of_posted _ _ _ hir hheader hposted]
      exact sideData_answers ⟨s.m.conn, rfl⟩ hlen
    · rw [sidebandRead_of_unposted hir hheader hnone hrun]
      exact sideData_answers ⟨_, rfl⟩ hlen
  · exact completes_of_onMod (sidebandRead s.fe n) rfl hp (sidebandRead_of_no_header hir hheader)

/-! ### Common command codes (R565, R566) -/

theorem ccc_of_run {addressed : Bool} {f : Mod → Mod} {m : Mod} (hir : m.conn.ir ≠ 3) (hrun : m.power.state = 0) : ccc addressed f m = f m := by
  simp [ccc, pinsHeld_of_ir hir, wake_of_run 6 m hrun]

theorem ccc_of_extest {addressed : Bool} {f : Mod → Mod} {m : Mod} (hir : m.conn.ir = 3) : ccc addressed f m = m := by
  simp [ccc, pinsHeld_of_extest hir]

/-- The provisional ID carries the part number and `ADDR_SEL` (R565). -/
theorem provisionalId_fields (m : Mod) :
    provisionalId m / 2 ^ 16 % 2 ^ 16 = 0x2048 ∧ provisionalId m / 2 ^ 12 % 16 = m.conn.addrSel.toNat := by
  have hsel := m.conn.addrSel.isLt
  unfold provisionalId
  generalize m.conn.addrSel.toNat = n at hsel ⊢
  generalize Config.mipiMfr % 2 ^ 15 = f
  omega

theorem commonCommandCodesAnswer : CommonCommandCodesAnswer := by
  refine ⟨fun a s hp hir hrun => ⟨fun hfree => ⟨?_, ?_, ?_⟩, fun htaken => ⟨?_, ?_, fun st => ?_⟩, fun st hst => ?_, ?_⟩,
    fun s hp hir hrun => ⟨?_, ?_, ?_, ?_, ?_, ?_⟩, fun st a s hir c hc => ?_⟩
  · exact completes_of_onMod (ccc false (entdaa a)) rfl hp (by rw [ccc_of_run hir hrun]; simp [entdaa, hfree, assignDa, onConn, send])
  · exact completes_of_onMod (setdasa _ a) rfl hp (by simp [setdasa, staticAddr, hfree, ccc_of_run hir hrun, assignDa, onConn])
  · exact completes_of_onMod (setnewda a) rfl hp (by simp [setnewda, hfree])
  · exact completes_of_onMod (setnewda a) rfl hp (by simp [setnewda, htaken, ccc_of_run hir hrun, assignDa, onConn])
  · exact completes_of_onMod (ccc false (entdaa a)) rfl hp (by rw [ccc_of_run hir hrun]; simp [entdaa, htaken])
  · exact completes_of_onMod (setdasa st a) rfl hp (by simp [setdasa, htaken])
  · exact completes_of_onMod (setdasa st a) rfl hp (if_neg (by simp only [staticAddr, Bool.and_eq_true, beq_iff_eq, hst, false_and, not_false_iff]))
  · exact completes_of_onMod (ccc false _) rfl hp (ccc_of_run hir hrun)
  · exact completes_of_onMod (ccc true _) rfl hp ⟨_, ccc_of_run hir hrun, provisionalId_fields s.m⟩
  · exact completes_of_onMod (ccc true _) rfl hp (ccc_of_run hir hrun)
  · exact completes_of_onMod (ccc true _) rfl hp (ccc_of_run hir hrun)
  · exact completes_of_onMod (ccc true _) rfl hp (ccc_of_run hir hrun)
  · exact completes_of_onMod (ccc true _) rfl hp (ccc_of_run hir hrun)
  · exact completes_of_onMod (ccc true _) rfl hp (ccc_of_run hir hrun)
  · simp only [List.mem_cons, List.not_mem_nil, or_false] at hc
    rcases hc with rfl | rfl | rfl | rfl | rfl | rfl | rfl | rfl | rfl | rfl
    case inr.inl => exact exec_of_fixed (setdasa st a) rfl (by simp [setdasa, ccc_of_extest hir])
    case inr.inr.inl => exact exec_of_fixed (setnewda a) rfl (by simp [setnewda, ccc_of_extest hir])
    all_goals exact exec_of_fixed (ccc _ _) rfl (ccc_of_extest hir)

/-! ### The TAP (R560, R570) -/

theorem tapUp_iff (m : Mod) : tapUp m = true ↔ m.conn.tapReset = false ∧ m.power.state ≠ 3 := by simp [tapUp]

/-- The IDCODE register (R570) of a unit with this JEP106 code. With the code free the kernel does not evaluate the sum. -/
def idcodeOf (jep : BitVec 11) : Nat := 1 + jep.toNat * 2 + 0x2048 * 2 ^ 12 + Config.stepLtr.toNat * 2 ^ 28

theorem idcode_eq : idcode = idcodeOf Config.jep106 := rfl

/-- Part and lowest bit of IDCODE (R570). -/
theorem idcodeOf_fields (jep : BitVec 11) : idcodeOf jep % 2 = 1 ∧ idcodeOf jep / 2 ^ 12 % 2 ^ 16 = 0x2048 := by
  have hjep := jep.isLt
  unfold idcodeOf
  generalize Config.stepLtr.toNat = l
  omega

/-- The boundary register captures the levels of the two PERST_N contacts (log entry 33). -/
theorem pinsNow_perst (m : Mod) : (pinsNow m).getLsbD 0 = !m.ports.a.inReset ∧ (pinsNow m).getLsbD 1 = !m.ports.b.inReset := by
  unfold pinsNow
  rw [getLsbD_putBits _ _ _ _ (by decide), getLsbD_putBits _ _ _ _ (by decide), if_pos (by decide), if_pos (by decide)]
  cases m.ports.a.inReset <;> cases m.ports.b.inReset <;> cases alertN m <;> decide

theorem tapCode_eq (debug : Bool) (c : BitVec 8) : tapCode debug c = if c = 1 ∨ c = 2 ∨ c = 3 ∨ debug then c else 0xFF := by
  simp [tapCode, or_assoc]

theorem tapInstructionsTakeForce : TapInstructionsTakeForce := by
  refine ⟨fun s hp hreset hstate => ?_, fun s hp => ⟨?_, ?_⟩, fun v b s hdown c hc => ?_⟩
  · have hup : tapUp s.m = true := (tapUp_iff s.m).mpr ⟨hreset, hstate⟩
    refine ⟨?_, fun v => ?_, ?_, ?_, fun c => ?_⟩
    · exact completes_of_onMod _ rfl hp ⟨idcodeOf Config.jep106, by rw [← idcode_eq]; exact if_pos hup, idcodeOf_fields _⟩
    · exact completes_of_onMod (samplePreload (some v)) rfl hp (by simp [samplePreload, hup, tapIr, onConn])
    · refine completes_of_onMod (samplePreload none) rfl hp ⟨pinsNow s.m, ?_, pinsNow_perst s.m⟩
      simp only [samplePreload, hup, Bool.not_true, Bool.false_eq_true, if_false]
      rfl
    · exact completes_of_onMod _ rfl hp (if_pos hup)
    · refine completes_of_onMod _ rfl hp ?_
      rw [if_pos hup, tapCode_eq]
      rfl
  · exact completes_of_onMod _ rfl hp rfl
  · exact completes_of_onMod _ rfl hp rfl
  · have hup : tapUp s.m = false := by rcases hdown with h | h <;> simp [tapUp, h]
    simp only [List.mem_cons, List.not_mem_nil, or_false] at hc
    rcases hc with rfl | rfl | rfl | rfl
    case inr.inl => exact exec_of_fixed (samplePreload v) rfl (by simp [samplePreload, hup])
    all_goals exact exec_of_fixed _ rfl (if_neg (by simp [hup]))

/-- Settles O60, by the codes and by the instructions. -/
theorem commonCodesAnswerAndTapInstructionsAct : Obligations.CommonCodesAnswerAndTapInstructionsAct :=
  ⟨commonCommandCodesAnswer, tapInstructionsTakeForce⟩

end Sys2Proof.Machine
end

