-- ==== Sys2Proof/Proofs/CounterPages.lean ====
section
/-! PROOFS. Performance counters (O55): the page that an offset names, what a write gives a counter and its page, and what an overflow leaves. -/
namespace Sys2Proof.Machine

open Sys2Proof.Stmt

/-! ### Registers of a page (R529, R530) -/

theorem pageBase_bounds (g : Fin 7) : 0xB0000 ≤ pageBase g ∧ pageBase g + 0x1000 ≤ 0xBB000 ∧ pageBase g % 0x1000 = 0 := by
  unfold pageBase
  split <;> omega

/-- An offset inside a page names the page and the register in it. -/
theorem perfPage_pageBase (g : Fin 7) {k : Nat} (hk : k < 0x1000) : perfPage ((pageBase g + k) % 0x10000) = some (g, k) := by
  unfold pageBase
  split
  next htile =>
    rw [perfPage, if_pos (by omega)]
    exact congrArg some (Prod.ext (Fin.ext (by simp [Fin.ofNat]; omega)) (by simp; omega))
  next hhalf =>
    rw [perfPage, if_neg (by omega), if_pos (by omega)]
    exact congrArg some (Prod.ext (Fin.ext (by simp [Fin.ofNat]; omega)) (by simp; omega))

theorem wregAt_page (m : Mod) (g : Fin 7) {k : Nat} (hk : k < 0x1000) : wregAt m (pageBase g + k) = pageWReg g k := by
  have ⟨hlo, hhi, _⟩ := pageBase_bounds g
  unfold wregAt
  dsimp only
  iterate 13 rw [if_neg (by omega)]
  rw [if_pos (by omega), perfPage_pageBase g hk]

/-- A whole write to a register of a page: a closed tile page discards it (R530). -/
theorem regWrite_page (src : Source) {g : Fin 7} {k : Nat} (hk : k < 0x1000) (hk8 : k % 8 = 0) (v : Word64) (m : Mod) {r : WReg}
    (hr : pageWReg g k = some r) : regWrite src (pageBase g + k) 8 v m =
      if pageClosed m g then m
      else if r.bad (written (pageBase g + k) 8 v) then regError (pageBase g + k) src.code 0 m
      else if !r.allowed src then regError (pageBase g + k) src.code r.deny m
      else r.apply (written (pageBase g + k) 8 v) m := by
  have ⟨hlo, hhi, hpage⟩ := pageBase_bounds g
  have hin : (decide (0xB0000 ≤ pageBase g + k) && decide (pageBase g + k < 0xC0000)) = true := by simp; omega
  have halign : (pageBase g + k) % 8 = 0 := by omega
  have hword : (pageBase g + k) / 8 * 8 = pageBase g + k := by omega
  have hrings : ¬ (0x20000 ≤ pageBase g + k ∧ pageBase g + k < 0x30000) := by omega
  have hsize : (!decide (8 = 4 ∨ 8 = 8)) = false := by decide
  simp only [regWrite, hin, perfPage_pageBase g hk, Option.any_some, Bool.true_and, halign, hword, wregAt_page m g hk, hr, if_neg hrings,
    ne_eq, not_true_eq_false, or_false]
  simp

theorem pageClosed_of_open {m : Mod} {g : Fin 7} (h : pageOpen m g) : pageClosed m g = false := by
  by_cases hg : g.val < 4
  · simp [pageClosed, h hg]
  · simp [pageClosed, hg]

theorem pageClosed_of_unused {m : Mod} {g : Fin 7} (hg : g.val < 4) (h : m.perfUser.getLsbD g.val = false) : pageClosed m g = true := by
  rw [pageClosed, h, decide_eq_true hg]
  rfl

/-- The registers of counter `i`. -/
theorem pageWReg_sel (g : Fin 7) (i : Fin 8) : pageWReg g (0x10 * i.val) = some (shared (selBad g i) (fun w => onCtr g i (selWrite w))) := by
  have hi : Fin.ofNat 8 (0x10 * i.val / 0x10) = i := Fin.ext (by simp [Fin.ofNat])
  rw [pageWReg, if_pos (by omega), if_pos (by omega), hi]

theorem pageWReg_count (g : Fin 7) (i : Fin 8) : pageWReg g (0x10 * i.val + 8) =
    some (shared anyCode (fun w => onCtr g i (fun c => { c with count := (w 0 48).getD c.count }))) := by
  have hi : Fin.ofNat 8 ((0x10 * i.val + 8) / 0x10) = i := Fin.ext (by simp [Fin.ofNat]; omega)
  rw [pageWReg, if_pos (by omega), if_neg (by omega), hi]

theorem pageWReg_pctl (g : Fin 7) : pageWReg g 0x108 = some (shared anyCode (fun w => onPage g (pctlWrite w))) := rfl

theorem pageWReg_bw (h : Fin 2) : pageWReg ⟨4 + h.val, by omega⟩ 0x300 =
    some (shared (fun w => refuses w 0 20 (inRange 1 1000000)) (bwWrite (halfPort h))) := by
  match h with
  | 0 => rfl
  | 1 => rfl

/-! ### Accesses to a page -/

section
variable {p : Port} {g : Fin 7} {k : Nat} {v : Word64} {m : Mod} {bad : Written → Bool} {apply : Written → Mod → Mod}

/-- A port's write to an open page. -/
theorem regWrite_openPage (hk : k < 0x1000) (hk8 : k % 8 = 0) (hopen : pageOpen m g) (hr : pageWReg g k = some (shared bad apply)) :
    regWrite (barOf p) (pageBase g + k) 8 v m =
      if bad (written (pageBase g + k) 8 v) then regError (pageBase g + k) p.num 0 m else apply (written (pageBase g + k) 8 v) m := by
  simp [regWrite_page _ hk hk8 v m hr, pageClosed_of_open hopen, shared]

/-- The sideband writes no register of a page (R542). -/
theorem regWrite_page_sideband (hk : k < 0x1000) (hk8 : k % 8 = 0) (hopen : pageOpen m g)
    (hr : pageWReg g k = some (shared anyCode apply)) : regWrite .sideband (pageBase g + k) 8 v m = regError (pageBase g + k) 2 6 m := by
  simp [regWrite_page _ hk hk8 v m hr, pageClosed_of_open hopen, shared, anyCode, eitherPort, Source.code]

/-- A closed page discards a write without an event (R530). -/
theorem regWrite_closedPage {src : Source} (hk : k < 0x1000) (hk8 : k % 8 = 0) (hclosed : pageClosed m g = true)
    (hr : pageWReg g k = some (shared bad apply)) : regWrite src (pageBase g + k) 8 v m = m := by
  rw [regWrite_page _ hk hk8 v m hr, if_pos hclosed]

end

/-! ### What a write gives (R531, R534, R535, R539) -/

theorem getLsbD_eq_bitsOf (v : Word64) (i : Nat) : (some (bitsOf v i 1).toNat).map (· == 1) = some (v.getLsbD i) := by
  have h := writes1_whole 0 v i
  rw [writes1, written_whole] at h
  rw [← h]
  rfl

theorem pctlWrite_whole (off : Nat) (v : Word64) (p : PerfPage) : pctlWrite (written off 8 v) p = { p with
    ctrs := if v.getLsbD 2 then p.ctrs.map (fun (c : PerfCtr) => { c with snap := c.count }) else p.ctrs
    freeze := v.getLsbD 0, frzOnOvf := v.getLsbD 1 } := by
  simp only [pctlWrite, writes1_whole, written_whole, getLsbD_eq_bitsOf, Option.getD_some]
  split <;> rfl

theorem bwWrite_whole (p : Port) (off : Nat) (v : Word64) (m : Mod) : bwWrite p (written off 8 v) m =
    { m with bw := m.bw.set p { m.bw.get p with us := (bitsOf v 0 20).toNat, accRd := 0, accWr := 0 } } := by
  simp only [bwWrite, written_whole, Option.getD_some]

/-- A tile event of one class with every class, both packs and no occupancy is no reserved encoding (R531, R532). -/
theorem selBad_of_tileEvent {g : Fin 7} {i : Fin 8} (off : Nat) {v : Word64} (hg : g.val < 4) (hchain : v.getLsbD 29 = false)
    (hevent : inRange 0x01 0x04 (bitsOf v 0 8).toNat = true) (hqual : bitsOf v 8 4 = 15) (hpack : bitsOf v 12 2 = 2)
    (hocc : bitsOf v 14 2 = 0) : selBad g i (written off 8 v) = false := by
  have hlink : (some (bitsOf v 29 1).toNat == some 1) = false := by
    have := writes1_whole off v 29
    rwa [writes1, written_whole, hchain] at this
  simp only [selBad, written_whole, hlink, Option.getD_some, Bool.false_eq_true, if_false, eventKind, if_pos hg, hevent, if_true, refuses,
    Option.any_some, qualOk, hqual, hpack, hocc]
  simp

/-- Linking a counter with an even number is a reserved encoding (R531). -/
theorem selBad_of_evenChain {g : Fin 7} {i : Fin 8} (off : Nat) {v : Word64} (hchain : v.getLsbD 29 = true) (hi : i.val % 2 = 0) :
    selBad g i (written off 8 v) = true := by
  have hlink : (some (bitsOf v 29 1).toNat == some 1) = true := by
    have := writes1_whole off v 29
    rwa [writes1, written_whole, hchain] at this
  simp only [selBad, written_whole, hlink, if_true, hi]
  rfl

theorem selWrite_whole (off : Nat) (v : Word64) (c : PerfCtr) : ∃ high, selWrite (written off 8 v) c =
    { c with event := (bitsOf v 0 8).toNat, qual := (bitsOf v 8 4).toNat, pack := (bitsOf v 12 2).toNat, occ := (bitsOf v 14 2).toNat,
             thresh := (bitsOf v 16 13).toNat, chain := v.getLsbD 29, irq := v.getLsbD 30, sample := v.getLsbD 31, en := v.getLsbD 32,
             high := high } := by
  simp only [selWrite, written_whole, getLsbD_eq_bitsOf, Option.getD_some]
  exact ⟨_, rfl⟩

/-! ### The statement on writes -/

/-- A port's access to a page is a write of its register. -/
theorem completes_pageWrite {c : Instr} {p : Port} {off : Nat} {v : Word64} {s : State} {P : Mod → Prop} (hc : exec c s =
    .next (onMod (sourceWrite (barOf p) off v) s)) (h : barOpen p s) (hP : P (regWrite (barOf p) off 8 v (touch s.m))) : completes c s P :=
  completes_of_onMod _ hc h.1 (by rw [sourceWrite_of_barOpen _ _ h]; exact hP)

theorem completes_sidebandPageWrite {c : Instr} {off : Nat} {v : Word64} {s : State} {P : Mod → Prop} (hc : exec c s =
    .next (onMod (sourceWrite .sideband off v) s)) (hp : s.fe.powered = true) (hir : s.m.conn.ir ≠ 3) (hrun : s.m.power.state = 0)
    (hP : P (regWrite .sideband off 8 v s.m)) : completes c s P :=
  completes_of_onMod _ hc hp (by rw [sourceWrite_sideband_of_run _ _ _ hir hrun]; exact hP)

theorem counterPagesAreWritten : CounterPagesAreWritten := by
  refine ⟨fun p g v s h hopen => completes_pageWrite rfl h ?_, fun p g i v s h hopen => completes_pageWrite rfl h ?_,
    fun p g i v s h hopen => ⟨fun hchain hevent hg hqual hpack hocc => completes_pageWrite rfl h ?_,
      fun hchain hi => completes_pageWrite rfl h ?_⟩,
    fun p half v s h => completes_pageWrite rfl h ?_,
    fun g i v s hp hir hrun hopen => ⟨completes_sidebandPageWrite rfl hp hir hrun ?_, completes_sidebandPageWrite rfl hp hir hrun ?_⟩,
    fun p g i v s h hg hunused => ⟨completes_pageWrite rfl h ?_, completes_pageWrite rfl h ?_, completes_pageWrite rfl h ?_⟩⟩
  · rw [regWrite_openPage (by decide) (by decide) (m := touch s.m) hopen (pageWReg_pctl g)]
    simp only [anyCode, Bool.false_eq_true, if_false, onPage, pctlWrite_whole]
    rfl
  · rw [Nat.add_assoc, regWrite_openPage (by omega) (by omega) (m := touch s.m) hopen (pageWReg_count g i)]
    rfl
  · rw [regWrite_openPage (by omega) (by omega) (m := touch s.m) hopen (pageWReg_sel g i),
      selBad_of_tileEvent _ hg hchain hevent hqual hpack hocc]
    obtain ⟨high, hsel⟩ := selWrite_whole (pageBase g + 0x10 * i.val) v (((touch s.m).perf[g] : PerfPage).ctrs[i] : PerfCtr)
    refine ⟨_, rfl, ?_⟩
    rw [hsel]
    exact ⟨rfl, congrArg BitVec.toNat hqual, congrArg BitVec.toNat hpack, congrArg BitVec.toNat hocc, hchain, rfl, rfl, rfl, rfl, rfl, rfl⟩
  · rw [regWrite_openPage (by omega) (by omega) (m := touch s.m) hopen (pageWReg_sel g i), selBad_of_evenChain _ hchain hi]
    rfl
  · have hoff : 0xB8300 + 0x1000 * half.val = pageBase ⟨4 + half.val, by omega⟩ + 0x300 := by simp [pageBase]; omega
    have hopen : pageOpen (touch s.m) ⟨4 + half.val, by omega⟩ := fun h => absurd h (by simp)
    rw [hoff, regWrite_openPage (by decide) (by decide) hopen (pageWReg_bw half), bwWrite_whole]
    have hbad : refuses (written (pageBase ⟨4 + half.val, by omega⟩ + 0x300) 8 v) 0 20 (inRange 1 1000000) =
        !decide (1 ≤ (bitsOf v 0 20).toNat ∧ (bitsOf v 0 20).toNat ≤ 1000000) := by
      rw [refuses, written_whole, Option.any_some, inRange, Bool.decide_and]
    rw [hbad]
    dsimp only
    by_cases hok : 1 ≤ (bitsOf v 0 20).toNat ∧ (bitsOf v 0 20).toNat ≤ 1000000
    · rw [if_pos hok, decide_eq_true hok]
      rfl
    · rw [if_neg hok, decide_eq_false hok]
      rfl
  · exact regWrite_page_sideband (by decide) (by decide) hopen (pageWReg_pctl g)
  · rw [Nat.add_assoc]
    exact regWrite_page_sideband (by omega) (by omega) hopen (pageWReg_count g i)
  · exact regWrite_closedPage (by decide) (by decide) (pageClosed_of_unused hg hunused) (pageWReg_pctl g)
  · rw [Nat.add_assoc]
    exact regWrite_closedPage (by omega) (by omega) (pageClosed_of_unused hg hunused) (pageWReg_count g i)
  · exact regWrite_closedPage (by omega) (by omega) (pageClosed_of_unused hg hunused) (pageWReg_sel g i)

/-! ### Samples (R536) -/

/-- A field of a word to which bits outside the field are added. -/
theorem toNat_bitsOf_or {x y : Word64} (lo len : Nat) (hy : y.toNat / 2 ^ lo % 2 ^ len = 0) :
    (bitsOf (x ||| y) lo len).toNat = x.toNat / 2 ^ lo % 2 ^ len := by
  have hzero : bitsOf y lo len = 0 := BitVec.eq_of_toNat_eq (by rw [toNat_bitsOf]; exact hy)
  rw [bitsOf, BitVec.extractLsb'_or, show y.extractLsb' lo len = 0#len from hzero, BitVec.or_zero, toNat_bitsOf]

/-- A word put together from fields is the sum of their values at their places. -/
theorem toNat_packBits_cons (lo v : Nat) (l : List (Nat × Nat)) :
    (((lo, v) :: l).map (fun x => x.2 * 2 ^ x.1)).sum = v * 2 ^ lo + (l.map (fun x => x.2 * 2 ^ x.1)).sum := by
  rw [List.map_cons, List.sum_cons]

theorem toNat_sample0Of {frame : Word32} {i : Nat} {e : PerfEvt} (hi : i < 8) (hevent : e.event < 256) (hqual : e.qual < 16)
    (hkey : e.keyId < 64) : (sample0Of frame i e).toNat =
      i + 2 ^ 3 + e.qual * 2 ^ 4 + e.event * 2 ^ 8 + e.keyId * 2 ^ 16 + frame.toNat * 2 ^ 32 := by
  have hframe := frame.isLt
  rw [sample0Of, packBits, BitVec.toNat_ofNat]
  iterate 6 rw [toNat_packBits_cons]
  rw [List.map_nil, List.sum_nil]
  omega

/-- The captured fields of a sample, with the count of missed ones beside them. -/
theorem sample0_fields {frame : Word32} {i missed : Nat} {e : PerfEvt} (hi : i < 8) (hevent : e.event < 256) (hqual : e.qual < 16)
    (hkey : e.keyId < 64) (hmissed : missed < 256) :
    let x := sample0Of frame i e ||| (BitVec.ofNat 64 missed <<< (24 : Nat))
    x.getLsbD 3 = true ∧ (bitsOf x 0 3).toNat = i ∧ (bitsOf x 8 8).toNat = e.event ∧ (bitsOf x 4 4).toNat = e.qual ∧ bitsOf x 32 32 = frame := by
  have hframe := frame.isLt
  have hsum := toNat_sample0Of (frame := frame) hi hevent hqual hkey
  have hcount : (BitVec.ofNat 64 missed <<< (24 : Nat)).toNat = missed * 2 ^ 24 := by
    rw [BitVec.toNat_shiftLeft, BitVec.toNat_ofNat, Nat.shiftLeft_eq]
    omega
  dsimp only
  refine ⟨?_, ?_, ?_, ?_, BitVec.eq_of_toNat_eq ?_⟩
  · rw [BitVec.getLsbD_or, ← BitVec.testBit_toNat, Nat.testBit_eq_decide_div_mod_eq, hsum, decide_eq_true (by omega), Bool.true_or]
  all_goals
    rw [toNat_bitsOf_or _ _ (by rw [hcount]; omega), hsum]
    omega

theorem ctrs_getD (p : PerfPage) (i : Fin 8) : p.ctrs.toList.getD i.val default = p.ctrs[i] := by
  simp [List.getD_eq_getElem?_getD]

/-- The number of missed samples after one more (R536). -/
theorem missed_putBits (x : Word64) (n : Nat) (hn : n < 256) : (bitsOf (putBits x 24 (BitVec.ofNat 8 n)) 24 8).toNat = n := by
  rw [bitsOf_putBits_self]
  · simp; omega
  · decide

/-- One pending overflow of counter `i` (R533, R536, R537). -/
theorem ovfAct_leaves {frame : Word32} {p : PerfPage} {i : Fin 8} {e : PerfEvt} (q : PerfPage) (hq : q = ovfAct frame p (i.val, e)) :
    let c : PerfCtr := p.ctrs[i]
    q.ovf = putBit p.ovf i.val true ∧ q.ctrs = p.ctrs ∧ q.irqEn = p.irqEn ∧ q.freeze = (p.freeze || ((c.irq || c.sample) && p.frzOnOvf)) ∧
      q.sample0 = (if !c.sample then p.sample0
        else if p.sample0.getLsbD 3 then putBits p.sample0 24 (BitVec.ofNat 8 (min 255 ((bitsOf p.sample0 24 8).toNat + 1)))
        else sample0Of frame i.val e ||| (BitVec.ofNat 64 (bitsOf p.sample0 24 8).toNat <<< (24 : Nat))) ∧
      q.sample1 = (if !c.sample || p.sample0.getLsbD 3 then p.sample1 else sample1Of e) := by
  subst hq
  simp only [ovfAct, ctrs_getD]
  cases (p.ctrs[i] : PerfCtr).sample <;> cases (p.ctrs[i] : PerfCtr).irq <;> cases p.frzOnOvf <;> cases p.sample0.getLsbD 3 <;>
    simp

theorem perfOverflow_of_one {g : Fin 7} {i : Fin 8} {e : PerfEvt} {m : Mod} (hpend : (m.perf[g] : PerfPage).pend = [(i.val, e)]) :
    perfOverflow g m =
      (if ((m.perf[g] : PerfPage).ctrs[i] : PerfCtr).irq && (m.perf[g] : PerfPage).irqEn then
          msix (m.perf[g] : PerfPage).irqPort (m.perf[g] : PerfPage).irqVec else id)
        (pagePut m g { ovfAct m.sched.frameNo m.perf[g] (i.val, e) with pend := [] }) := by
  simp only [perfOverflow, hpend, List.any_cons, List.any_nil, Bool.or_false, ctrs_getD, List.foldl_cons, List.foldl_nil]
  split <;> rfl

theorem perfOverflow_of_none {g : Fin 7} {m : Mod} (hpend : (m.perf[g] : PerfPage).pend = []) : perfOverflow g m = m := by
  have hpage : { (m.perf[g] : PerfPage) with pend := [] } = m.perf[g] := by rw [← hpend]
  simp only [perfOverflow, hpend, List.any_nil, Bool.false_and, Bool.false_eq_true, if_false, List.foldl_nil, hpage]
  simp

theorem overflowsAndWindowsReport : OverflowsAndWindowsReport := by
  refine ⟨fun g i e s hp hpend => completes_of_onMod _ rfl hp ?_, fun g s hp hpend => completes_of_onMod _ rfl hp (perfOverflow_of_none hpend),
    fun half s hp => completes_of_onMod _ rfl hp ⟨_, _, rfl⟩⟩
  rw [perfOverflow_of_one hpend]
  obtain ⟨hovf, hctrs, -, hfreeze, hsample0, hsample1⟩ :=
    ovfAct_leaves (frame := s.m.sched.frameNo) (p := s.m.perf[g]) (i := i) (e := e) _ rfl
  refine ⟨{ ovfAct s.m.sched.frameNo s.m.perf[g] (i.val, e) with pend := [] }, ?_, rfl, hovf, hctrs, hfreeze, fun hs => ?_, fun hs hvalid => ?_,
    fun hs hfree hi hevent hqual hkey => ?_, rfl⟩
  · split <;> simp [pagePut]
  · dsimp only
    rw [hsample0, hsample1, hs]
    exact ⟨rfl, rfl⟩
  · dsimp only
    rw [hsample0, hsample1, hs, hvalid]
    exact ⟨rfl, missed_putBits _ _ (by omega)⟩
  · dsimp only
    rw [hsample0, hs, hfree]
    exact sample0_fields hi hevent hqual hkey (BitVec.isLt _)

/-- Settles O55, by the writes of a page's registers and by what an overflow and a window's end leave. -/
theorem counterPagesWriteOverflowAndReport : Obligations.CounterPagesWriteOverflowAndReport :=
  ⟨counterPagesAreWritten, overflowsAndWindowsReport⟩

end Sys2Proof.Machine
end

