-- ==== Sys2Proof/Proofs/IdleSleep.lean ====
section
/-! PROOFS. Idle and Sleep (O53): the entries and their requests, the wake causes, and the exits, whose frame restarts. -/
namespace Sys2Proof.Machine

open Sys2Proof.Stmt

/-! ### The request over the sideband (R490, R497) -/

/-- REQ and RETAIN of the word that PM_SLEEP_REQUEST writes. -/
theorem pmSleep_fields : ∀ r : BitVec 4, bitsOf (BitVec.ofNat 64 (1 + 4 * r.toNat)) 0 2 = 1#2 ∧ bitsOf (BitVec.ofNat 64 (1 + 4 * r.toNat)) 2 4 = r := by
  decide

theorem regWrite_pmCtl_sleep (r : BitVec 4) (m : Mod) : regWrite .sideband 0xA0308 8 (BitVec.ofNat 64 (1 + 4 * r.toNat)) m = pmSleep r m := by
  obtain ⟨hreq, hretain⟩ := pmSleep_fields r
  rw [regWrite_assigned (by decide) rfl]
  simp [refuses, pmCtl, hreq, hretain]

/-- The header of a PM_CTL write names that register's eight bytes, and nothing in it is reserved. -/
theorem pmHeader_fields : hdrBad 0x040A0308#32 = false ∧ hdrOffset 0x040A0308#32 = 0xA0308 ∧ hdrSize 0x040A0308#32 = 8 := by decide

theorem ofBytes_word (v : Word64) : ofBytes 64 (toBytes v 8) = v := by
  rw [ofBytes, leNat_toBytes, Nat.mod_eq_of_lt (BitVec.isLt _), BitVec.ofNat_toNat, BitVec.setWidth_eq]

section
variable (r : BitVec 4) {m : Mod}

theorem pmRequest_sleep_of_run (hir : m.conn.ir ≠ 3) (hrun : m.power.state = 0) : pmRequest 1 r m = pmSleep r m := by
  obtain ⟨hgood, hoff, hsize⟩ := pmHeader_fields
  rw [pmRequest, sidebandWrite_of_run hir hrun hgood (by rw [toBytes_length, hsize]), hoff, hsize, ofBytes_word, regWrite_pmCtl_sleep]

/-- The request that meets Sleep wakes the module, and its write waits for the exit (R545). -/
theorem pmRequest_sleep_of_asleep (hir : m.conn.ir ≠ 3) (hstate : m.power.state = 2) (hcrit : m.therm.critical = false) :
    pmRequest 1 r m = { m with
      power := { m.power with state := 5, last := 2, cause := 6 }
      conn := { m.conn with held := m.conn.held ++ [(0xA0308, 8, BitVec.ofNat 64 (1 + 4 * r.toNat))] } } := by
  obtain ⟨hgood, hoff, hsize⟩ := pmHeader_fields
  rw [pmRequest, sidebandWrite_of_asleep hir (.inl hstate) hgood (by rw [toBytes_length, hsize]), hoff, hsize, ofBytes_word]
  simp [wake, hcrit, hstate]

/-- A TAP that drives the pins keeps every request from the module. -/
theorem pmRequest_of_extest (req : Nat) (hir : m.conn.ir = 3) : pmRequest req r m = m := by
  simp [pmRequest, sidebandWrite, pinsHeld_of_extest hir]

theorem pmSleep_eq : pmSleep r m = { m with
    power := if sleepOk m then { m.power with retain := r, state := 4, target := 2, phase := 0 } else { m.power with retain := r, entry := 2 } } := by
  have hok : sleepOk (setRetain r m) = sleepOk m := rfl
  rw [pmSleep, hok]
  cases sleepOk m <;> rfl

end

@[simp] theorem sleepOk_begun (h : AdminHdr) (op : BitVec 16) (m : Mod) : sleepOk (begun h op m) = sleepOk m := rfl

/-! ### The end of an entry, and the wake of WAKE_N (R493, R495) -/

/-- The end of a committed entry into Sleep: a wake cause that waited begins the exit at once. -/
theorem entryDone_sleep (m : Mod) :
    let p : PowerSt := { m.power with state := 2, entry := 1, entries := m.power.entries + 1, target := 0, phase := 0, wakePend := false }
    let q : PowerSt := if m.power.wakePend = true ∧ m.therm.critical = false then { p with state := 5, last := 2 } else p
    entryDone 2 m = { m with power := q } := by
  cases hpend : m.power.wakePend <;> cases hcrit : m.therm.critical <;> simp [entryDone, hpend, hcrit]

/-- In Run and in Idle WAKE_N has nothing to wake. -/
theorem wake_pin_of_running {m : Mod} (h : m.power.state ≤ 1) : wake 5 m = m := by
  have h2 : m.power.state ≠ 2 := by omega
  have h3 : m.power.state ≠ 3 := by omega
  have h4 : m.power.state ≠ 4 := by omega
  simp [wake, h2, h3, h4]

/-! ### The exits (R489, R490) -/

/-- The module in Run after an exit from Idle or Sleep. -/
def inRun (m : Mod) : Mod := { m with power := { m.power with state := 0, phase := 0, target := 0, workAt := m.tb.now } }

theorem backToRun_of_none_held {m : Mod} (h : m.prot.held = []) : backToRun m = fetchPump (inRun m) := by
  have hrel : backToRun m = fetchPump (releaseHeld (inRun m)) := rfl
  rw [hrel, releaseHeld_of_none_held (m := inRun m) h]

/-- The variant for the band in force counts one frame more (R108). -/
theorem variantChosen_frameNo (m : Mod) : (variantChosen m).sched.frameNo = m.sched.frameNo + 1 := by
  unfold variantChosen
  dsimp only
  split
  · obtain ⟨ports, out, hrings, -⟩ := swapEffect_ringsOnly
      (w := selectSwap { m with sched := { m.sched with frameNo := m.sched.frameNo + 1 } } false 1)
      (m := { m with sched := { m.sched with frameNo := m.sched.frameNo + 1, further := none } }) rfl rfl
    obtain ⟨_, _, _, _, _, _, _, _, _, heq⟩ := hrings
    rw [heq]
    rfl
  · rfl

/-- R108: the frame that restarts is the next one; it begins now, without a set-point gap. -/
theorem startFrame_sched {m : Mod} (hlost : m.tb.lost = false) (hcrit : m.therm.critical = false) :
    let x := (startFrame m).sched
    x.running = true ∧ x.gap = false ∧ x.frameNo = m.sched.frameNo + 1 ∧ x.frameStart = m.tb.now := by
  have hgoes : ¬ (m.tb.lost || m.therm.critical) = true := by simp [hlost, hcrit]
  obtain ⟨out, hsent⟩ := refreshExits_eq _ _
  rw [show startFrame m = _ from (if_neg hgoes).trans hsent]
  exact ⟨rfl, rfl, variantChosen_frameNo m, congrArg (·.now) (variantChosen_exitKeeps m).tb⟩

theorem startFrame_mem_prot {m : Mod} (hlost : m.tb.lost = false) (hcrit : m.therm.critical = false) :
    (startFrame m).mem = m.mem ∧ (startFrame m).prot = m.prot := by
  obtain ⟨_, _, _, hstart, -⟩ := startFrame_eq hlost hcrit
  have hkept := variantChosen_exitKeeps m
  rw [hstart]
  exact ⟨hkept.mem, hkept.prot⟩

/-- Settles O53, by the commands of each state. -/
theorem idleAndSleepEnterAndLeave : Obligations.IdleAndSleepEnterAndLeave := by
  refine ⟨fun s hp hrun hus hpast hidle hafter => ?_, fun s hbusy => ?_, fun s hp hstate hlast hheld => ?_, fun h s ha => ?_,
    fun r s hp hir hrun => ?_, fun r s hp hir hstate hcrit => ?_, fun r s hir => ⟨?_, ?_⟩, fun s hp hstate htarget hphase => ?_,
    fun s hstate => ⟨?_, ?_⟩, fun s hp hstate hlast hheld hlost hcrit => ?_, fun s hstate => ⟨?_, ?_, ?_⟩,
    fun s hp hcrit => ⟨fun hstate => ?_, fun hstate => ?_, fun hstate => ?_⟩⟩
  case refine_1 => exact completes_of_onMod _ rfl hp (if_pos ⟨hrun, hus, hpast, hidle, hafter⟩)
  case refine_2 =>
    refine exec_of_fixed _ rfl (if_neg fun hgo => ?_)
    obtain ⟨hrun, hus, hpast, hidle, -⟩ := hgo
    rcases hbusy with hst | hoff | hwork | hearly
    · exact hst hrun
    · exact hus hoff
    · rw [hidle] at hwork; cases hwork
    · omega
  case refine_3 => exact completes_of_onMod _ rfl hp ((if_pos ⟨hstate, hlast⟩).trans (backToRun_of_none_held hheld))
  case refine_4 =>
    refine completes_of_accepted _ rfl ha ?_
    dsimp only
    rw [sleepOk_begun]
    cases sleepOk s.m <;> rfl
  case refine_5 =>
    refine completes_of_onMod _ rfl hp ?_
    rw [pmRequest_sleep_of_run r hir hrun, pmSleep_eq]
  case refine_6 => exact completes_of_onMod _ rfl hp (pmRequest_sleep_of_asleep r hir hstate hcrit)
  case refine_7 => exact exec_of_fixed _ rfl (pmRequest_of_extest r 1 hir)
  case refine_8 => exact exec_of_fixed _ rfl (pmRequest_of_extest r 2 hir)
  case refine_9 =>
    refine completes_of_onMod _ rfl hp ?_
    have hcommit : committed s.m = s.m := by simp [committed, hphase]
    simp only [hstate, htarget, hphase, hcommit, ne_eq, not_true_eq_false, or_self, if_false, if_true]
    exact entryDone_sleep s.m
  case refine_10 => exact exec_of_fixed _ rfl (if_pos (.inl hstate))
  case refine_11 => exact exec_of_fixed _ rfl (if_pos (.inl hstate))
  case refine_12 =>
    obtain ⟨hmem, hprot⟩ := startFrame_mem_prot hlost hcrit
    obtain ⟨hrunning, hgap, hframe, hstart⟩ := startFrame_sched hlost hcrit
    exact completes_of_onMod _ rfl hp ⟨inRun (startFrame s.m), (if_pos ⟨hstate, hlast⟩).trans (backToRun_of_none_held (by rw [hprot, hheld])),
      rfl, hrunning, hgap, hframe, hstart, hmem⟩
  case refine_13 => exact exec_of_fixed _ rfl (if_neg fun h => hstate h.1)
  case refine_14 => exact exec_of_fixed _ rfl (if_neg fun h => hstate h.1)
  case refine_15 => exact exec_of_fixed _ rfl (if_pos (.inl hstate))
  case refine_16 => exact completes_of_onMod _ rfl hp (by simp [wake, hcrit, hstate])
  case refine_17 => exact completes_of_onMod _ rfl hp (by simp [wake, hcrit, hstate])
  case refine_18 => exact completes_of_onMod _ rfl hp (wake_pin_of_running hstate)

end Sys2Proof.Machine
end

