-- ==== Sys2Proof/Proofs/EpochEnd.lean ====
section
/-! PROOFS. Shared by what follows: what the rings' work and a completion leave alone, and the end of an epoch while the mirror engine has
nothing under way (R443). -/
namespace Sys2Proof.Machine

open Sys2Proof.Stmt

/-! ### Rings' work raises no event -/

/-- `m'` is `m` but for the ports, the rings, the service processors' queue, what was sent, the counters and the time of the last work. -/
def ringWork (m m' : Mod) : Prop := ∃ ports rings proc out perf at_,
  m' = { m with ports := ports, rings := rings, proc := proc, out := out, perf := perf, power := { m.power with workAt := at_ } }

theorem ringWork_refl (m : Mod) : ringWork m m := ⟨m.ports, m.rings, m.proc, m.out, m.perf, m.power.workAt, rfl⟩

theorem ringWork_trans (a b c : Mod) (h : ringWork a b) (k : ringWork b c) : ringWork a c := by
  obtain ⟨_, _, _, _, _, _, rfl⟩ := h
  obtain ⟨_, _, _, _, _, _, rfl⟩ := k
  exact ⟨_, _, _, _, _, _, rfl⟩

theorem onPort_ringWork (p : Port) (f : PortSt → PortSt) (m : Mod) : ringWork m (onPort p f m) :=
  ⟨_, m.rings, m.proc, m.out, m.perf, m.power.workAt, rfl⟩

theorem onRings_ringWork (p : Port) (f : RingsSt → RingsSt) (m : Mod) : ringWork m (onRings p f m) :=
  ⟨m.ports, _, m.proc, m.out, m.perf, m.power.workAt, rfl⟩

theorem onRing_ringWork (p : Port) (r : Nat) (f : Ring → Ring) (m : Mod) : ringWork m (onRing p r f m) := onRings_ringWork ..

theorem proc_ringWork (q : ProcSt) (m : Mod) : ringWork m { m with proc := q } := ⟨m.ports, m.rings, q, m.out, m.perf, m.power.workAt, rfl⟩

theorem send_ringWork (o : Out) (m : Mod) : ringWork m (send o m) := ⟨m.ports, m.rings, m.proc, o :: m.out, m.perf, m.power.workAt, rfl⟩

theorem touch_ringWork (m : Mod) : ringWork m (touch m) := ⟨m.ports, m.rings, m.proc, m.out, m.perf, m.tb.now, rfl⟩

theorem perfCount_ringWork (g : Fin 7) (e : PerfEvt) (o : Option Bool) (m : Mod) : ringWork m (perfCount g e o m) := by
  obtain ⟨perf, h⟩ := perfCount_eq m g e o
  exact ⟨m.ports, m.rings, m.proc, m.out, perf, m.power.workAt, h⟩

theorem d2hSend_ringWork (p : Port) (k a : Nat) (m : Mod) : ringWork m (d2hSend p k a m) := by
  unfold d2hSend
  dsimp only
  split
  · exact ringWork_refl m
  · split
    · exact onPort_ringWork ..
    · exact ringWork_trans _ _ _ (onPort_ringWork ..) (send_ringWork ..)

theorem itoMWr_ringWork (p : Port) (w : OpenWrite) (m : Mod) : ringWork m (itoMWr p w m) := by
  unfold itoMWr
  dsimp only
  split_ifs
  · exact ringWork_refl m
  · exact onRings_ringWork ..
  · exact ringWork_trans _ _ _ (ringWork_trans _ _ _ (onRings_ringWork ..) (d2hSend_ringWork ..)) (perfCount_ringWork ..)

theorem drainRing_ringWork (p : Port) (r : Nat) (m : Mod) : ringWork m (drainRing p r m) := by
  unfold drainRing
  split
  · exact onRing_ringWork ..
  · exact ringWork_refl m

theorem ringFlush_ringWork (k : Nat) (p : Port) (r : Nat) (m : Mod) : ringWork m (ringFlush k p r m) := by
  induction k generalizing m with
  | zero => exact ringWork_refl m
  | succ k ih =>
    unfold ringFlush
    dsimp only
    split
    · exact ringWork_refl m
    · split
      · exact ringWork_trans _ _ _ (onRing_ringWork ..) (drainRing_ringWork ..)
      · split
        · exact ringWork_refl m
        · split
          · exact ringWork_trans _ _ _ (ringWork_trans _ _ _ (onRing_ringWork ..) (itoMWr_ringWork ..)) (ih _)
          · exact onRing_ringWork ..

theorem ringPost_ringWork (p : Port) (r : Nat) (e : RawEntry) (m : Mod) : ringWork m (ringPost p r e m) := by
  unfold ringPost
  dsimp only
  split
  · exact ringWork_trans _ _ _ (ringWork_trans _ _ _ (onRing_ringWork ..) (touch_ringWork _)) (ringFlush_ringWork ..)
  · exact ringWork_refl m

theorem issueRead_ringWork (p : Port) (r : Nat) (c : Word32) (m : Mod) : ringWork m (issueRead p r c m) := by
  unfold issueRead
  exact ringWork_trans _ _ _ (ringWork_trans _ _ _ (ringWork_trans _ _ _ (ringWork_trans _ _ _ (onRings_ringWork ..) (onRing_ringWork ..))
    (perfCount_ringWork ..)) (d2hSend_ringWork ..)) (touch_ringWork _)

theorem fetchLoop_ringWork (k : Nat) (p : Port) (m : Mod) : ringWork m (fetchLoop k p m) := by
  induction k generalizing m with
  | zero => exact ringWork_refl m
  | succ k ih =>
    unfold fetchLoop
    dsimp only
    split
    · exact ringWork_refl m
    · split
      · exact ringWork_refl m
      · refine ringWork_trans _ _ _ (ringWork_trans _ _ _ ?_ (issueRead_ringWork ..)) (ih _)
        split <;> split
        · exact proc_ringWork ..
        · exact proc_ringWork ..
        · exact onRing_ringWork ..
        · exact ringWork_refl m

theorem fetchPump_ringWork (m : Mod) : ringWork m (fetchPump m) := by
  unfold fetchPump
  refine foldl_rel ringWork ringWork_refl ringWork_trans _ (fun b _ => ?_) _ m
  split
  · exact ringWork_refl b
  · exact ringWork_trans _ _ _ (fetchLoop_ringWork ..) (fetchLoop_ringWork ..)

theorem complete_ringWork (c : AdminTag) (code rused : Nat) (result : BitVec 96) (m : Mod) : ringWork m (complete c code rused result m) := by
  unfold complete
  dsimp only
  split
  · exact ringWork_refl m
  · split
    · exact proc_ringWork ..
    · exact ringWork_trans _ _ _ (ringWork_trans _ _ _ (ringWork_trans _ _ _ (proc_ringWork ..) (onRing_ringWork ..)) (ringPost_ringWork ..))
        (fetchPump_ringWork _)

theorem done_ringWork (c : AdminTag) (code : Nat) (m : Mod) : ringWork m (done c code m) := complete_ringWork ..

/-! ### The end of an epoch (R443) -/

/-- Whether a request stays when accesses are given up. -/
def stays (ids : List Nat) (q : MReq) : Bool :=
  match q.who with
  | .engine id _ _ => !ids.contains id
  | .host => true

theorem cancelAcc_eq (ids : List Nat) (m : Mod) : cancelAcc ids m = dropAcc ids { m with
    slices := m.slices.map fun s : Slice => { s with missWait := s.missWait.filter (stays ids), lineWait := s.lineWait.filter (stays ids) }
    filters := m.filters.map fun f : FilterSt => { f with waiters := f.waiters.filter (stays ids) }
    prot := { m.prot with held := m.prot.held.filter (stays ids) } } := rfl

theorem stays_nil : stays [] = fun _ => true := by
  funext q
  unfold stays
  cases q.who <;> rfl

/-- Giving up no access changes nothing. -/
theorem cancelAcc_nil (m : Mod) : cancelAcc [] m = m := by
  simp [cancelAcc_eq, stays_nil, dropAcc]

theorem mirrorIds_of_idle {g : GangSt} (h : mirrorIdle g) : mirrorIds g = [] := by
  obtain ⟨-, -, hrx, hreading⟩ := h
  simp [mirrorIds, hrx, hreading]

/-- The gangline without a resynchronisation, and without writes that wait. -/
def unmirrored (g : GangSt) : GangSt :=
  { g with waits := [], held := [], copying := none, left := [], toCopy := [], digOut := [], donePass := [], pass := 0, rxDone := false, reading := none }

theorem completeWaits_of_idle {m : Mod} (hwaits : m.gang.waits = []) (hheld : m.gang.held = []) (hreading : m.gang.reading = none) :
    completeWaits m = { m with gang := unmirrored m.gang } := by
  simp only [completeWaits, dropResync, hwaits, hheld, onGang, hreading, Option.elim_none, cancelAcc_nil, List.foldl_nil, serveAll]
  rfl

/-- The gangline whose link has gone down (R443): mirroring is down, and nothing waits to be sent or replayed. -/
def linkLost (retrain : Bool) (g : GangSt) : GangSt :=
  { g with
    link := if retrain && !g.dead then 2 else 1, mirror := .down, sent := [], txWait := [], reqSent := 0, reqRet := 0, credRet := 0, nextSeq := 0
    expect := 0, rxNum := 0, unacked := 0, ackV := false, expiries := 0, rxWait := [], change := none, changeOwn := false, changeWait := none
    laneTest := none, width := 0, rate := 0, rxGran := [], rxDiff := [], rxLast := false, crcAt := [], err := putBit g.err 2 true }

/-- The gangline after its epoch. -/
def epochless (retrain : Bool) (g : GangSt) : GangSt := unmirrored (linkLost retrain g)

/-- A lane test that the epoch's end breaks off completes (R453). -/
def laneTestBroken (g : GangSt) (m : Mod) : Mod :=
  match g.laneTest with
  | some (c, _) => done c 0x82 m
  | none => m

/-- Whether the link is up, or away for a change of width or rate. -/
def linkUp (g : GangSt) : Prop := 2 ≤ g.link ∧ (g.link = 2 → g.change.isSome = true)

theorem not_linkUp_iff {g : GangSt} : (decide (g.link < 2) || (g.link == 2 && g.change.isNone)) = true ↔ ¬ linkUp g := by
  unfold linkUp
  rcases Nat.lt_or_ge g.link 2 with h | h
  · simp [h, Nat.not_le.mpr h]
  · cases g.change <;> simp [Nat.not_lt.mpr h, h]

theorem epochEnd_of_down {cause : Nat} {retrain : Bool} {m : Mod} (h : ¬ linkUp m.gang) : epochEnd cause retrain m = m :=
  if_pos (not_linkUp_iff.mpr h)

/-- R443: the end of an epoch, while the mirror engine has nothing under way. -/
theorem epochEnd_of_idle {cause : Nat} {retrain : Bool} {m : Mod} (hup : linkUp m.gang) (hidle : mirrorIdle m.gang) :
    epochEnd cause retrain m = event 0x0B03 0 (m.gang.epoch.toNat + cause * 2 ^ 32)
      (laneTestBroken m.gang { m with gang := epochless retrain m.gang }) := by
  have hdown : ¬ (decide (m.gang.link < 2) || (m.gang.link == 2 && m.gang.change.isNone)) = true := fun h => not_linkUp_iff.mp h hup
  have hend : epochEnd cause retrain m = event 0x0B03 0 (m.gang.epoch.toNat + cause * 2 ^ 32)
      (laneTestBroken m.gang (completeWaits (onGang (linkLost retrain) (cancelAcc (mirrorIds m.gang) m)))) := if_neg hdown
  obtain ⟨hwaits, hheld, -, hreading⟩ := id hidle
  rw [hend, mirrorIds_of_idle hidle, cancelAcc_nil, completeWaits_of_idle (m := onGang (linkLost retrain) m) hwaits hheld hreading]
  rfl

end Sys2Proof.Machine
end

