-- ==== Sys2Proof/Proofs/HeelAndRounds.lean ====
section
/-! PROOFS. Housekeeping rounds, heel requests and sensor tests (O52): what a reading changes, what the judgement of a round leaves alone,
Critical shutdown, and the commands of the heel requests. -/
namespace Sys2Proof.Machine

open Sys2Proof.Stmt

/-! ### Sensors -/

theorem sensorAt_onSensor (c d : Nat) (f : Sensor → Sensor) (m : Mod) :
    sensorAt (onSensor c f m) d = if d = c then f (sensorAt m c) else sensorAt m d := by
  by_cases h : d = c
  · subst h
    rw [if_pos rfl]
    exact tabGet_tabPut_self ..
  · rw [if_neg h]
    exact tabGet_tabPut_of_ne _ _ _ _ h

/-- Two changes that agree on the sensor as it stands are the same. -/
theorem onSensor_congr {c : Nat} {f g : Sensor → Sensor} {m : Mod} (h : f (sensorAt m c) = g (sensorAt m c)) : onSensor c f m = onSensor c g m := by
  have hput : tabMod { temp := 0, broken := false, fails := 0 } m.therm.sensors c f =
      tabMod { temp := 0, broken := false, fails := 0 } m.therm.sensors c g := congrArg (tabPut m.therm.sensors c) h
  simp only [onSensor, onTherm, hput]

/-- Only the table of sensors says what a sensor is. -/
theorem sensorAt_of_sensors_eq {m m' : Mod} (h : m'.therm.sensors = m.therm.sensors) (c : Nat) : sensorAt m' c = sensorAt m c := by
  rw [sensorAt, sensorAt, h]

/-- The hotter of a temperature, if any, and a channel's. -/
def hotter (m : Mod) (acc : Option Int) (c : Nat) : Option Int :=
  match acc with
  | none => some (sensorAt m c).temp
  | some t => some (max t (sensorAt m c).temp)

theorem hottest_eq (m : Mod) (l : List Nat) : hottest m l = (l.filter fun c => !(sensorAt m c).broken).foldl (hotter m) none := rfl

theorem hotter_bounds (m : Mod) (acc : Option Int) (c : Nat) :
    ∃ u, hotter m acc c = some u ∧ (sensorAt m c).temp ≤ u ∧ ∀ t ∈ acc, t ≤ u := by
  cases acc with
  | none => exact ⟨_, rfl, le_refl _, fun t h => by cases h⟩
  | some t =>
    refine ⟨_, rfl, le_max_right .., fun t' h => ?_⟩
    cases h
    exact le_max_left ..

theorem foldl_hotter_bounds (m : Mod) (l : List Nat) (acc : Option Int) :
    (∀ t ∈ acc, ∃ u, l.foldl (hotter m) acc = some u ∧ t ≤ u) ∧
      ∀ c ∈ l, ∃ u, l.foldl (hotter m) acc = some u ∧ (sensorAt m c).temp ≤ u := by
  induction l generalizing acc with
  | nil => exact ⟨fun t h => ⟨t, h, le_refl t⟩, fun c h => absurd h List.not_mem_nil⟩
  | cons d l ih =>
    obtain ⟨w, hw, hd, hacc⟩ := hotter_bounds m acc d
    obtain ⟨hkept, hlater⟩ := ih (some w)
    obtain ⟨u, hu, hle⟩ := hkept w rfl
    simp only [List.foldl_cons, hw]
    refine ⟨fun t ht => ⟨u, hu, (hacc t ht).trans hle⟩, fun c hc => ?_⟩
    rcases List.mem_cons.mp hc with rfl | hc
    · exact ⟨u, hu, hd.trans hle⟩
    · exact hlater c hc

/-- The hottest of some channels is at least as hot as a working one of them. -/
theorem hottest_of_working {m : Mod} {l : List Nat} {c : Nat} (hc : c ∈ l) (hworks : (sensorAt m c).broken = false) :
    ∃ u, hottest m l = some u ∧ (sensorAt m c).temp ≤ u := by
  rw [hottest_eq]
  exact (foldl_hotter_bounds m _ none).2 c (List.mem_filter.mpr ⟨hc, by simp [hworks]⟩)

/-! ### The readings of a round (R41, R454, R455) -/

/-- The readings of one channel are joined to the hottest. -/
theorem joinReadings_of_one {l : List (Fin 59 × Option Int)} {c : Fin 59} (hne : l ≠ []) (hone : ∀ x ∈ l, x.1 = c) :
    joinReadings l = [(c, (l.filterMap (·.2)).max?)] := by
  have hmine : ∀ d : Fin 59, l.filter (fun x => x.1 == d) = if d = c then l else [] := by
    intro d
    split
    next h => exact List.filter_eq_self.mpr fun x hx => by simp [hone x hx, h]
    next h => exact List.filter_eq_nil_iff.mpr fun x hx => by simpa [hone x hx] using fun hcd => h hcd.symm
  have hform : ∀ ds : List (Fin 59), ds.filterMap (fun d => if (l.filter (fun x => x.1 == d)).isEmpty then none
      else some (d, ((l.filter (fun x => x.1 == d)).filterMap (·.2)).max?)) =
        (ds.filter (· == c)).map fun d => (d, (l.filterMap (·.2)).max?) := by
    intro ds
    induction ds with
    | nil => rfl
    | cons d ds ih =>
      by_cases h : d = c
      · simp [hmine, h, hne] at ih ⊢
        exact ih
      · simp [hmine, h] at ih ⊢
        exact ih
  have honce : (List.finRange 59).filter (· == c) = [c] := by
    rw [List.filter_beq, List.count_eq_one_of_mem (List.nodup_finRange 59) (List.mem_finRange c)]
    rfl
  exact (hform _).trans (by rw [honce]; rfl)

/-- `m'` is `m` but for its sensors, and reports. -/
def sensed (m m' : Mod) : Prop := ∃ sensors, reports { m with therm := { m.therm with sensors := sensors } } m'

theorem sensed_refl (m : Mod) : sensed m m := ⟨m.therm.sensors, reports_refl m⟩

theorem sensed_trans (a b c : Mod) (h : sensed a b) (k : sensed b c) : sensed a c := by
  obtain ⟨_, _, _, _, _, _, f, rfl⟩ := h
  obtain ⟨sensors, ev, out, perf, power, fatal, f', rfl⟩ := k
  refine ⟨sensors, ev, out, perf, power, fatal, f || f', ?_⟩
  cases f <;> cases f' <;> simp

theorem onSensor_sensed (c : Nat) (f : Sensor → Sensor) (m : Mod) : sensed m (onSensor c f m) := ⟨_, reports_refl _⟩

theorem breakSensor_sensed (c : Nat) (m : Mod) : sensed m (breakSensor c m) := by
  unfold breakSensor
  split
  · exact sensed_refl m
  · exact ⟨_, event_reports ..⟩

theorem takeReading_sensed (m : Mod) (r : Fin 59 × Option Int) : sensed m (takeReading m r) := by
  unfold takeReading
  dsimp only
  split
  · exact sensed_refl m
  · split
    · split
      · exact sensed_trans _ _ _ (onSensor_sensed ..) (breakSensor_sensed ..)
      · exact onSensor_sensed ..
    · split
      · exact sensed_trans _ _ _ (onSensor_sensed ..) (breakSensor_sensed ..)
      · exact onSensor_sensed ..

theorem replaceTested_of_none {m : Mod} (h : m.therm.test = none) : replaceTested m = m := by simp only [replaceTested, h]

theorem replaceTested_sensors (m : Mod) : ∃ sensors, replaceTested m = { m with therm := { m.therm with sensors := sensors } } := by
  unfold replaceTested
  split
  · exact ⟨m.therm.sensors, rfl⟩
  · split
    · exact ⟨m.therm.sensors, rfl⟩
    · exact ⟨_, rfl⟩

/-- A channel that breaks, or is broken, has no other field changed, and no other channel is. -/
theorem sensorAt_breakSensor (c d : Nat) (m : Mod) :
    sensorAt (breakSensor c m) d = if d = c then { sensorAt m c with broken := true } else sensorAt m d := by
  unfold breakSensor
  split
  next h =>
    split
    next hdc => rw [hdc, ← h]
    next => rfl
  next =>
    rw [sensorAt_of_sensors_eq (m := onSensor c (fun s => { s with broken := true }) m) (by rw [event_therm]), sensorAt_onSensor]

section
variable {m : Mod} (hfree : m.therm.test = none) (c : Fin 59)
include hfree

theorem underTest_of_none (d : Nat) : underTest m d = false := by simp [underTest, hfree]

theorem takeReading_of_normal {t : Int} (hlow : -40 * 16 ≤ t) (hhigh : t ≤ 150 * 16) :
    takeReading m (c, some t) = onSensor c.val (fun s => { s with temp := t, fails := 0 }) m := by
  have hnormal : ¬ (t < -40 * 16 ∨ 150 * 16 < t) := by omega
  simp only [takeReading, underTest_of_none hfree, Bool.false_eq_true, if_false, hnormal]

/-- The third failure in a row breaks the channel. -/
theorem takeReading_of_third_failure (hfails : 2 ≤ (sensorAt m c.val).fails) :
    takeReading m (c, none) = breakSensor c.val (onSensor c.val (fun s => { s with fails := 3 }) m) := by
  have hthird : onSensor c.val (fun s => { s with fails := min 3 (s.fails + 1) }) m = onSensor c.val (fun s => { s with fails := 3 }) m :=
    onSensor_congr (by rw [Nat.min_eq_left (by omega)])
  have hnow : (sensorAt (onSensor c.val (fun s => { s with fails := 3 }) m) c.val).fails = 3 := by rw [sensorAt_onSensor, if_pos rfl]
  simp only [takeReading, underTest_of_none hfree, Bool.false_eq_true, if_false, hthird, hnow, if_true]

end

/-! ### What the judgement of a round leaves alone -/

/-- The readings of the front end, and whether the module shut down. -/
def instruments (m : Mod) : Nat × Nat × Int × Bool := (m.power.vinMv, m.power.iin, m.power.fetT, m.ev.crit)

/-- `q` is the power state `p` but for the states that a wake cause moves. -/
def wokenOnly (p q : PowerSt) : Prop := ∃ state last cause phase entry target pend,
  q = { p with state := state, last := last, cause := cause, phase := phase, entry := entry, target := target, wakePend := pend }

theorem wokenOnly_refl (p : PowerSt) : wokenOnly p p := ⟨_, _, _, _, _, _, _, rfl⟩

theorem wake_power (c : Nat) (m : Mod) : wokenOnly m.power (wake c m).power := by
  unfold wake
  dsimp only
  split_ifs <;> exact ⟨_, _, _, _, _, _, _, rfl⟩

theorem event_power (k : BitVec 16) (l : Word32) (d : Nat) (m : Mod) : wokenOnly m.power (event k l d m).power := by
  unfold event raise raiseAt
  extract_lets events sev uart flash logged entry queued counted
  have huart : uart.power = m.power := by simp only [uart]; split <;> rfl
  have hlogged : logged.power = m.power := by rw [← huart]; simp only [logged]; split <;> rfl
  have hcounted : counted.power = m.power := by rw [← hlogged]; exact perfCount_power ..
  split_ifs
  · rw [← hcounted]
    exact wake_power 8 counted
  · rw [hcounted]
    exact wokenOnly_refl _
  · rw [perfCount_power, show logged.power = m.power from hlogged]
    exact wokenOnly_refl _

theorem event_instruments (k : BitVec 16) (l : Word32) (d : Nat) (m : Mod) : instruments (event k l d m) = instruments m := by
  have hcrit : (event k l d m).ev.crit = m.ev.crit := by
    simp only [event, raise, raiseAt_ev]
    split <;> rfl
  obtain ⟨_, _, _, _, _, _, _, hpower⟩ := event_power k l d m
  simp only [instruments, hcrit, hpower]

theorem ringWork_instruments {m m' : Mod} (h : ringWork m m') : instruments m' = instruments m := by
  obtain ⟨_, _, _, _, _, _, rfl⟩ := h
  rfl

/-- A judgement leaves the stored data, the sensors, the count of rounds, the grace time written and the readings of the front end alone. -/
structure Judged (m m' : Mod) : Prop where
  mem : m'.mem = m.mem
  sensors : m'.therm.sensors = m.therm.sensors
  rounds : m'.therm.rounds = m.therm.rounds
  grace : m'.therm.grace = m.therm.grace
  gang : m'.gang = m.gang
  power : instruments m' = instruments m

theorem judged_refl (m : Mod) : Judged m m := ⟨rfl, rfl, rfl, rfl, rfl, rfl⟩

theorem judged_trans {a b c : Mod} (h : Judged a b) (k : Judged b c) : Judged a c :=
  ⟨k.mem.trans h.mem, k.sensors.trans h.sensors, k.rounds.trans h.rounds, k.grace.trans h.grace, k.gang.trans h.gang, k.power.trans h.power⟩

theorem event_judged (k : BitVec 16) (l : Word32) (d : Nat) (m : Mod) : Judged m (event k l d m) :=
  ⟨event_mem .., by rw [event_therm], by rw [event_therm], by rw [event_therm], event_gang .., event_instruments ..⟩

theorem onTherm_judged {f : ThermSt → ThermSt} {m : Mod} (hsensors : (f m.therm).sensors = m.therm.sensors)
    (hrounds : (f m.therm).rounds = m.therm.rounds) (hgrace : (f m.therm).grace = m.therm.grace) : Judged m (onTherm f m) :=
  ⟨rfl, hsensors, hrounds, hgrace, rfl, rfl⟩

theorem heelEvent_judged (source tile action : Nat) (t : Int) (deadline : Nat) (m : Mod) : Judged m (heelEvent source tile action t deadline m) :=
  event_judged ..

theorem setHeel_judged (dram : Bool) (h : Heel) (m : Mod) : Judged m (setHeel dram h m) := by cases dram <;> exact ⟨rfl, rfl, rfl, rfl, rfl, rfl⟩

theorem heelRaise_judged (dram : Bool) (m : Mod) : Judged m (heelRaise dram m) := by
  unfold heelRaise
  extract_lets lim raised
  split
  · exact judged_trans (setHeel_judged ..) (heelEvent_judged ..)
  · exact judged_refl m

theorem heelWithdraw_judged (dram : Bool) (m : Mod) : Judged m (heelWithdraw dram m) := by
  unfold heelWithdraw
  extract_lets lim withdrawn running
  split
  · refine judged_trans (judged_trans (setHeel_judged dram initHeel m) ?_) (heelEvent_judged ..)
    simp only [running]
    split
    · exact judged_refl _
    · exact onTherm_judged rfl rfl rfl
  · exact judged_refl m

theorem inletCheck_judged (m : Mod) : Judged m (inletCheck m) := by
  unfold inletCheck
  dsimp only
  split_ifs
  · exact judged_refl m
  · exact judged_trans (onTherm_judged rfl rfl rfl) (event_judged ..)
  · exact judged_trans (onTherm_judged rfl rfl rfl) (event_judged ..)
  · exact judged_refl m

theorem swapStays_eq (w : Swap) (m : Mod) : ∃ sched, reports { m with sched := sched } (swapStays w m) ∧ Judged m (swapStays w m) := by
  unfold swapStays
  dsimp only
  split
  · exact ⟨_, event_reports .., judged_trans (b := { m with sched := { m.sched with subst := w.subst } }) ⟨rfl, rfl, rfl, rfl, rfl, rfl⟩ (event_judged ..)⟩
  · exact ⟨_, reports_refl _, rfl, rfl, rfl, rfl, rfl, rfl⟩

/-- A swap that is committed changes the schedule, and reports. -/
theorem commitSwap_eq (newSet : Bool) (m : Mod) : ∃ sched, reports { m with sched := sched } (commitSwap newSet m) ∧ Judged m (commitSwap newSet m) := by
  unfold commitSwap
  dsimp only
  split
  · split
    · exact swapStays_eq _ m
    · exact ⟨_, reports_refl _, rfl, rfl, rfl, rfl, rfl, rfl⟩
  · split
    · exact ⟨_, reports_refl _, rfl, rfl, rfl, rfl, rfl, rfl⟩
    · split
      · obtain ⟨sched, hreports, hjudged⟩ := swapStays_eq _ { m with sched := { m.sched with swap := none } }
        exact ⟨sched, hreports, judged_trans (b := { m with sched := { m.sched with swap := none } }) ⟨rfl, rfl, rfl, rfl, rfl, rfl⟩ hjudged⟩
      · exact ⟨_, reports_refl _, rfl, rfl, rfl, rfl, rfl, rfl⟩

theorem commitSwap_judged (newSet : Bool) (m : Mod) : Judged m (commitSwap newSet m) := by
  obtain ⟨_, -, h⟩ := commitSwap_eq newSet m
  exact h

theorem commitSwap_therm (newSet : Bool) (m : Mod) : (commitSwap newSet m).therm = m.therm := by
  obtain ⟨_, ⟨_, _, _, _, _, _, h⟩, -⟩ := commitSwap_eq newSet m
  rw [h]

/-! ### Critical shutdown (R465) -/

/-- The end of an epoch while the mirror engine has nothing under way leaves what a shutdown is about alone. -/
theorem epochEnd_kept {m : Mod} (hidle : mirrorIdle m.gang) (cause : Nat) (retrain : Bool) : (epochEnd cause retrain m).mem = m.mem ∧
    (epochEnd cause retrain m).therm = m.therm ∧ (epochEnd cause retrain m).viral = m.viral ∧
    instruments (epochEnd cause retrain m) = instruments m := by
  by_cases hup : linkUp m.gang
  · rw [epochEnd_of_idle hup hidle]
    have htest : ringWork { m with gang := epochless retrain m.gang } (laneTestBroken m.gang { m with gang := epochless retrain m.gang }) := by
      unfold laneTestBroken
      split
      · exact done_ringWork ..
      · exact ringWork_refl _
    have hinst := ringWork_instruments htest
    obtain ⟨_, _, _, _, _, _, heq⟩ := htest
    rw [event_mem, event_therm, event_viral, event_instruments, hinst, heq]
    exact ⟨rfl, rfl, rfl, rfl⟩
  · rw [epochEnd_of_down hup]
    exact ⟨rfl, rfl, rfl, rfl⟩

/-- A module that has shut down for heat. -/
structure ShutDown (m : Mod) : Prop where
  critical : m.therm.critical = true
  viral : m.viral = true
  stopped : m.sched.running = false
  crit : m.ev.crit = true
  swap : m.sched.swap = none
  link : m.gang.link ≤ 1
  clean : ∀ u : Tile, (m.wbuf[u] : List WEntry) = [] ∧ (m.wbWait[u] : List WEntry) = [] ∧ ∀ x ∈ (m.slices[u] : Slice).lines, x.sdirty = 0

/-- What a shutdown keeps of the round. -/
structure RoundKept (m m' : Mod) : Prop where
  mem : m'.mem = m.mem
  sensors : m'.therm.sensors = m.therm.sensors
  rounds : m'.therm.rounds = m.therm.rounds
  grace : m'.therm.grace = m.therm.grace
  readings : m'.power.vinMv = m.power.vinMv ∧ m'.power.iin = m.power.iin ∧ m'.power.fetT = m.power.fetT

theorem Judged.kept {m m' : Mod} (h : Judged m m') : RoundKept m m' := by
  obtain ⟨hmem, hsensors, hrounds, hgrace, -, hpower⟩ := h
  simp only [instruments, Prod.mk.injEq] at hpower
  obtain ⟨hv, hi, ht, -⟩ := hpower
  exact ⟨hmem, hsensors, hrounds, hgrace, hv, hi, ht⟩

/-- The module as Critical shutdown reports itself. -/
def criticalSeen (cause : Nat) (m : Mod) : Mod :=
  let t : Int := if cause = 0 then m.therm.dramT else if cause = 1 then m.therm.dieT else 0
  let c := if cause = 0 then chanOf m dramChans t else if cause = 1 then chanOf m dieChans t else 0
  event 0x0C04 0 (cause + (BitVec.ofInt 16 t).toNat * 65536 + c * 2 ^ 32) (onTherm (fun t => { t with critical := true }) m)

/-- The module without its writes and its dirty lines. -/
def writesDropped (m : Mod) : Mod :=
  { m with
    wbuf := m.wbuf.map (fun _ => []), wbWait := m.wbWait.map (fun _ => []), packs := m.packs.map (fun p => dropWrites p)
    slices := m.slices.map (fun (s : Slice) => { s with lines := s.lines.filter (fun l => l.sdirty == 0),
                                                        transits := s.transits.filter (fun x => !x.dirty) }) }

/-- The frame stops, and nothing of what it would have done is left. -/
def frameAbandoned (m : Mod) : Mod := writesDropped (stopFrame { m with sched := { m.sched with swap := none, further := none } })

/-- The module has signalled its shutdown. -/
def signalled (m : Mod) : Mod := setViral { m with ev := { m.ev with crit := true } }

/-- What a shutdown does once it has reported itself. -/
def shutDown (m : Mod) : Mod := frameAbandoned (onGang (fun g => { g with link := min g.link 1 }) (epochEnd 8 false (signalled m)))

theorem critical_eq (cause : Nat) (m : Mod) : critical cause m = shutDown (criticalSeen cause m) := by
  unfold critical
  extract_lets t c seen up down stopped
  change _ = shutDown seen
  clear_value seen
  rfl

theorem frameAbandoned_eq (m : Mod) : ∃ packs out, frameAbandoned m = { m with
    sched := { m.sched with swap := none, further := none, running := false }, packs := packs, out := out
    wbuf := m.wbuf.map (fun _ => []), wbWait := m.wbWait.map (fun _ => [])
    slices := m.slices.map (fun (s : Slice) => { s with lines := s.lines.filter (fun l => l.sdirty == 0),
                                                        transits := s.transits.filter (fun x => !x.dirty) }) } := by
  obtain ⟨out, hstop⟩ := stopFrame_eq { m with sched := { m.sched with swap := none, further := none } }
  rw [frameAbandoned, hstop]
  exact ⟨_, out, rfl⟩

/-- The frame that is abandoned leaves a module that has signalled its shutdown shut down. -/
theorem frameAbandoned_shutDown {m : Mod} (hcritical : m.therm.critical = true) (hviral : m.viral = true) (hcrit : m.ev.crit = true)
    (hlink : m.gang.link ≤ 1) : ShutDown (frameAbandoned m) ∧ RoundKept m (frameAbandoned m) := by
  obtain ⟨packs, out, hframe⟩ := frameAbandoned_eq m
  rw [hframe]
  refine ⟨⟨hcritical, hviral, rfl, hcrit, rfl, hlink, fun u => ⟨Vector.getElem_map .., Vector.getElem_map .., fun l hl => ?_⟩⟩,
    rfl, rfl, rfl, rfl, rfl, rfl, rfl⟩
  have hlines : l ∈ (m.slices[u] : Slice).lines.filter fun l => l.sdirty == 0 :=
    Eq.mp (congrArg (l ∈ Slice.lines ·) (Vector.getElem_map ..)) hl
  simpa using (List.mem_filter.mp hlines).2

theorem signalled_kept (m : Mod) : (signalled m).viral = true ∧ (signalled m).ev.crit = true ∧ (signalled m).therm = m.therm ∧
    (signalled m).gang = m.gang ∧ (signalled m).mem = m.mem ∧ (signalled m).power = m.power := by
  obtain ⟨out, h⟩ := setViral_eq { m with ev := { m.ev with crit := true } }
  rw [signalled, h]
  exact ⟨rfl, rfl, rfl, rfl, rfl, rfl⟩

theorem roundKept_trans {a b c : Mod} (h : RoundKept a b) (k : RoundKept b c) : RoundKept a c := by
  obtain ⟨hv, hi, ht⟩ := h.readings
  obtain ⟨kv, ki, kt⟩ := k.readings
  exact ⟨k.mem.trans h.mem, k.sensors.trans h.sensors, k.rounds.trans h.rounds, k.grace.trans h.grace, kv.trans hv, ki.trans hi, kt.trans ht⟩

theorem roundKept_of_therm_eq {m m' : Mod} (hmem : m'.mem = m.mem) (htherm : m'.therm = m.therm) (hinst : instruments m' = instruments m) :
    RoundKept m m' := by
  simp only [instruments, Prod.mk.injEq] at hinst
  obtain ⟨hv, hi, ht, -⟩ := hinst
  exact ⟨hmem, by rw [htherm], by rw [htherm], by rw [htherm], hv, hi, ht⟩

theorem criticalSeen_judged (cause : Nat) (m : Mod) : Judged m (criticalSeen cause m) := by
  unfold criticalSeen
  extract_lets t c
  exact judged_trans (onTherm_judged rfl rfl rfl) (event_judged ..)

theorem critical_shutDown {m : Mod} (hidle : mirrorIdle m.gang) (cause : Nat) : ShutDown (critical cause m) ∧ RoundKept m (critical cause m) := by
  have hseen := criticalSeen_judged cause m
  have hcritical : (criticalSeen cause m).therm.critical = true := congrArg ThermSt.critical (event_therm ..)
  rw [critical_eq, shutDown]
  generalize criticalSeen cause m = x at hseen hcritical
  obtain ⟨hviral, hcrit, htherm, hgang, hmem, hpower⟩ := signalled_kept x
  generalize signalled x = y at hviral hcrit htherm hgang hmem hpower
  obtain ⟨hzmem, hztherm, hzviral, hzinst⟩ := epochEnd_kept (m := y) (by rw [hgang, hseen.gang]; exact hidle) 8 false
  generalize epochEnd 8 false y = z at hzmem hztherm hzviral hzinst
  have hzcrit : z.ev.crit = true := (congrArg (fun i => i.2.2.2) hzinst).trans hcrit
  obtain ⟨hdown, hkept⟩ := frameAbandoned_shutDown (m := onGang (fun g => { g with link := min g.link 1 }) z)
    ((congrArg ThermSt.critical (hztherm.trans htherm)).trans hcritical) (hzviral.trans hviral) hzcrit (Nat.min_le_right ..)
  have hx : RoundKept x y := ⟨hmem, by rw [htherm], by rw [htherm], by rw [htherm], by rw [hpower], by rw [hpower], by rw [hpower]⟩
  have hz : RoundKept y (onGang (fun g => { g with link := min g.link 1 }) z) := roundKept_of_therm_eq hzmem hztherm hzinst
  exact ⟨hdown, roundKept_trans hseen.kept (roundKept_trans hx (roundKept_trans hz hkept))⟩

/-! ### The end of a round -/

/-- The module as its round is to be judged: the bands and temperatures of the round stand. -/
theorem evalRound_kept {m : Mod} (hidle : mirrorIdle m.gang) : RoundKept m (evalRound m) := by
  unfold evalRound
  extract_lets old dieT dramT dieB dramB dieOver dramOver band banded ready judged
  have hover : Judged m ready := judged_trans (b := banded) (onTherm_judged rfl rfl rfl) (onTherm_judged rfl rfl rfl)
  have hcritical := fun cause => (critical_shutDown (m := ready) (by rw [hover.gang]; exact hidle) cause).2
  have hjudged : Judged ready judged := judged_trans (heelWithdraw_judged false ready) (judged_trans (heelWithdraw_judged true _)
    (judged_trans (heelRaise_judged false _) (judged_trans (heelRaise_judged true _) (inletCheck_judged _))))
  clear_value ready judged
  split_ifs
  · exact hover.kept
  · exact roundKept_trans hover.kept (hcritical 0)
  · exact roundKept_trans hover.kept (hcritical 1)
  · exact roundKept_trans hover.kept (hcritical 2)
  · exact (judged_trans hover hjudged).kept
  · refine (judged_trans hover (judged_trans hjudged (judged_trans ?_ (commitSwap_judged ..)))).kept
    exact ⟨rfl, rfl, rfl, rfl, rfl, rfl⟩

/-- R465: a DRAM temperature above its Critical limit at two round ends in a row. -/
theorem evalRound_shutDown {m : Mod} (hidle : mirrorIdle m.gang) (hlive : m.therm.critical = false) (hlast : m.therm.dramOver = true)
    (hhot : (hottest m dramChans).any (105 * 16 < ·) = true) : ShutDown (evalRound m) := by
  unfold evalRound
  extract_lets old dieT dramT dieB dramB dieOver dramOver band banded ready judged
  have hgang : ready.gang = m.gang := rfl
  have hagain : (dramOver && old.dramOver) = true := by simp [dramOver, old, hhot, hlast]
  have hfirst : ¬ old.critical = true := by simp [old, hlive]
  rw [if_neg hfirst, if_pos hagain]
  exact (critical_shutDown (by rw [hgang]; exact hidle) 0).1

/-- The readings are in, with those of the front end. -/
def roundRead (l : List (Fin 59 × Option Int)) (v i : Nat) (t : Int) (m : Mod) : Mod :=
  let m := replaceTested ((joinReadings l).foldl takeReading m)
  { m with power := { m.power with vinMv := v, iin := i, fetT := t } }

/-- A round that has been judged counts, and the grace time written takes effect. -/
def roundOver (m : Mod) : Mod :=
  let m := onTherm (fun t => { t with rounds := t.rounds + 1, graceIn := t.grace }) m
  if m.therm.dramT < 92 * 16 ∧ m.therm.dieT < 107 * 16 then onTherm (fun t => { t with hold := false }) m else m

theorem roundEnd_eq (l : List (Fin 59 × Option Int)) (v i : Nat) (t : Int) (m : Mod) :
    roundEnd l v i t m = roundOver (roundDue (evalRound (roundRead l v i t m))) := rfl

theorem roundOver_eq (m : Mod) : ∃ hold, roundOver m = { m with therm := { m.therm with
    rounds := m.therm.rounds + 1, graceIn := m.therm.grace, hold := hold } } := by
  unfold roundOver
  dsimp only
  split_ifs
  · exact ⟨false, rfl⟩
  · exact ⟨m.therm.hold, rfl⟩

/-- What the readings of a round leave alone. -/
theorem roundRead_kept (l : List (Fin 59 × Option Int)) (v i : Nat) (t : Int) (m : Mod) :
    let x := roundRead l v i t m
    x.mem = m.mem ∧ x.gang = m.gang ∧ x.therm.rounds = m.therm.rounds ∧ x.therm.grace = m.therm.grace ∧
      x.therm.critical = m.therm.critical ∧ x.therm.dramOver = m.therm.dramOver := by
  obtain ⟨_, _, _, _, _, _, _, hread⟩ := foldl_rel sensed sensed_refl sensed_trans _ takeReading_sensed (joinReadings l) m
  obtain ⟨_, hreplaced⟩ := replaceTested_sensors ((joinReadings l).foldl takeReading m)
  rw [roundRead, hreplaced, hread]
  exact ⟨rfl, rfl, rfl, rfl, rfl, rfl⟩

section
variable {m : Mod} (hidle : mirrorIdle m.gang) (l : List (Fin 59 × Option Int)) (v i : Nat) (t : Int)
include hidle

/-- R454: a round is counted, its input readings are kept, and the work that it makes due is due in every pack. -/
theorem roundEnd_counts :
    let x := roundEnd l v i t m
    x.therm.rounds = m.therm.rounds + 1 ∧ x.therm.graceIn = m.therm.grace ∧ x.power.vinMv = v ∧ x.power.iin = i ∧ x.power.fetT = t ∧
      (∀ p : Pack, (x.packs[p] : PackSt).mr4Due = true ∧ (x.packs[p] : PackSt).zqDue = true) ∧ x.mem = m.mem := by
  obtain ⟨hmem, hgang, hrounds, hgrace, -, -⟩ := roundRead_kept l v i t m
  have hkept := evalRound_kept (m := roundRead l v i t m) (by rw [hgang]; exact hidle)
  obtain ⟨hv, hi, ht⟩ := hkept.readings
  obtain ⟨hold, hover⟩ := roundOver_eq (roundDue (evalRound (roundRead l v i t m)))
  rw [roundEnd_eq, hover]
  refine ⟨?_, hkept.grace.trans hgrace, hv, hi, ht, fun p => ?_, hkept.mem.trans hmem⟩
  · exact congrArg (· + 1) (hkept.rounds.trans hrounds)
  · have hpack := Vector.getElem_map (xs := (evalRound (roundRead l v i t m)).packs) (i := p.val)
      (f := fun (p : PackSt) => { p with mr4Due := true, zqDue := true }) (hi := p.isLt)
    exact ⟨congrArg PackSt.mr4Due hpack, congrArg PackSt.zqDue hpack⟩

/-- With no channel under test the sensors are those that the readings leave. -/
theorem sensorAt_roundEnd (hfree : m.therm.test = none) (d : Nat) :
    sensorAt (roundEnd l v i t m) d = sensorAt ((joinReadings l).foldl takeReading m) d := by
  obtain ⟨-, hgang, -, -, -, -⟩ := roundRead_kept l v i t m
  have hkept := evalRound_kept (m := roundRead l v i t m) (by rw [hgang]; exact hidle)
  obtain ⟨hold, hover⟩ := roundOver_eq (roundDue (evalRound (roundRead l v i t m)))
  obtain ⟨_, _, _, _, _, _, _, hread⟩ := foldl_rel sensed sensed_refl sensed_trans _ takeReading_sensed (joinReadings l) m
  have hnone : replaceTested ((joinReadings l).foldl takeReading m) = (joinReadings l).foldl takeReading m :=
    replaceTested_of_none (by rw [hread]; exact hfree)
  refine sensorAt_of_sensors_eq ?_ d
  rw [roundEnd_eq, hover]
  refine hkept.sensors.trans ?_
  rw [roundRead, hnone]

theorem sensorAt_roundEnd_of_one (hfree : m.therm.test = none) {c : Fin 59} (hne : l ≠ []) (hone : ∀ x ∈ l, x.1 = c) (d : Nat) :
    sensorAt (roundEnd l v i t m) d = sensorAt (takeReading m (c, (l.filterMap (·.2)).max?)) d := by
  rw [sensorAt_roundEnd hidle l v i t hfree, joinReadings_of_one hne hone, List.foldl_cons, List.foldl_nil]

end

/-- R465: the round that shuts the module down. -/
theorem roundEnd_shutDown {m : Mod} {t : Int} (hidle : mirrorIdle m.gang) (v i : Nat) (fet : Int) (hfree : m.therm.test = none)
    (hlive : m.therm.critical = false) (hlast : m.therm.dramOver = true) (hworks : (sensorAt m 16).broken = false) (hhot : 105 * 16 < t)
    (hhigh : t ≤ 150 * 16) : ShutDown (roundEnd [(16, some t)] v i fet m) := by
  obtain ⟨-, hgang, -, -, hcritical, hdram⟩ := roundRead_kept [(16, some t)] v i fet m
  have hread : (joinReadings [(16, some t)]).foldl takeReading m = onSensor 16 (fun s => { s with temp := t, fails := 0 }) m := by
    have htaken : takeReading m (16, some t) = _ := takeReading_of_normal hfree 16 (by omega) hhigh
    rw [joinReadings_of_one (c := 16) (by simp) (by simp), List.foldl_cons, List.foldl_nil]
    exact htaken
  have hsensor : sensorAt (roundRead [(16, some t)] v i fet m) 16 = { sensorAt m 16 with temp := t, fails := 0 } := by
    rw [roundRead, hread, replaceTested_of_none (m := onSensor 16 (fun s => { s with temp := t, fails := 0 }) m) hfree]
    exact (sensorAt_onSensor ..).trans (if_pos rfl)
  obtain ⟨u, hu, hle⟩ := hottest_of_working (m := roundRead [(16, some t)] v i fet m) (l := dramChans) (c := 16) (by decide)
    (by rw [hsensor]; exact hworks)
  rw [hsensor] at hle
  have hdown := evalRound_shutDown (by rw [hgang]; exact hidle) (hcritical.trans hlive) (hdram.trans hlast)
    (by rw [hu, Option.any_some]; exact decide_eq_true (lt_of_lt_of_le hhot hle))
  obtain ⟨hold, hover⟩ := roundOver_eq (roundDue (evalRound (roundRead [(16, some t)] v i fet m)))
  rw [roundEnd_eq, hover]
  exact ⟨hdown.critical, hdown.viral, hdown.stopped, hdown.crit, hdown.swap, hdown.link, hdown.clean⟩

theorem roundsTakeReadings : RoundsTakeReadings := by
  refine ⟨fun l v i s hp hidle => ?_, fun c t v i s hp hidle hfree hlow hhigh => ?_, fun c t u v i s hp hidle hfree hlow hhigh => ?_,
    fun c v i s hp hidle hfree hfails => ?_, fun t v i s hp hidle hfree hlive hlast hworks hhot hhigh => ?_⟩
  case refine_1 => exact completes_of_onMod _ rfl hp (roundEnd_counts hidle l v i s.fe.fetT)
  case refine_2 =>
    have hsensors := fun d => sensorAt_roundEnd_of_one hidle [(c, some t)] v i s.fe.fetT hfree (c := c) (by simp) (by simp) d
    have htaken : takeReading s.m (c, some t) = _ := takeReading_of_normal hfree c hlow hhigh
    refine completes_of_onMod _ rfl hp ⟨?_, fun d hd => ?_⟩
    · exact (hsensors c).trans ((congrArg (sensorAt · c) htaken).trans ((sensorAt_onSensor ..).trans (if_pos rfl)))
    · exact (hsensors d).trans ((congrArg (sensorAt · d) htaken).trans ((sensorAt_onSensor ..).trans (if_neg hd)))
  case refine_3 =>
    have hsensors := sensorAt_roundEnd_of_one hidle [(c, some t), (c, some u)] v i s.fe.fetT hfree (c := c) (by simp) (by simp) c
    have htaken : takeReading s.m (c, some (max t u)) = _ := takeReading_of_normal hfree c hlow hhigh
    exact completes_of_onMod _ rfl hp (hsensors.trans ((congrArg (sensorAt · c) htaken).trans ((sensorAt_onSensor ..).trans (if_pos rfl))))
  case refine_4 =>
    have hsensors := sensorAt_roundEnd_of_one hidle [(c, none)] v i s.fe.fetT hfree (c := c) (by simp) (by simp) c
    have htaken : takeReading s.m (c, none) = _ := takeReading_of_third_failure hfree c hfails
    refine completes_of_onMod _ rfl hp (hsensors.trans ((congrArg (sensorAt · c) htaken).trans ?_))
    rw [sensorAt_breakSensor, if_pos rfl, sensorAt_onSensor, if_pos rfl]
  case refine_5 =>
    obtain ⟨hcritical, hviral, hstopped, hcrit, hswap, hlink, hclean⟩ :=
      roundEnd_shutDown hidle v i s.fe.fetT hfree hlive hlast hworks hhot hhigh
    exact completes_of_onMod _ rfl hp ⟨hcritical, hviral, hstopped, hcrit, hswap, hlink, hclean⟩

/-! ### Heel requests (R461 to R463) -/

/-- A step up raises the level by one, unless one has come within the grace time, and leaves the requests as they are (R463). -/
theorem throttleUp_kept (source : Nat) (t : Int) (m : Mod) :
    let x := throttleUp source t m
    x.mem = m.mem ∧ (∀ dram, thermHeel x dram = thermHeel m dram) ∧ x.therm.throttle =
      if (m.therm.stepUpAt.any (fun t => m.tb.now < t + graceNs m)) = true ∨ 3 ≤ m.therm.throttle then m.therm.throttle
      else m.therm.throttle + 1 := by
  unfold throttleUp
  extract_lets near raised x
  by_cases hstays : near = true ∨ 3 ≤ m.therm.throttle
  · have hx : x = m := if_pos (by simpa using hstays)
    rw [if_pos hstays, hx]
    exact ⟨rfl, fun _ => rfl, rfl⟩
  · have hx : x = commitSwap false (heelEvent source 0 3 t 0 raised) := if_neg (by simpa using hstays)
    rw [if_neg hstays, hx]
    have htherm : (commitSwap false (heelEvent source 0 3 t 0 raised)).therm = raised.therm := (commitSwap_therm ..).trans (event_therm ..)
    refine ⟨((commitSwap_judged ..).mem).trans (event_mem ..), fun dram => ?_, ?_⟩
    · cases dram
      · exact (congrArg ThermSt.dieHeel htherm :)
      · exact (congrArg ThermSt.dramHeel htherm :)
    · exact congrArg ThermSt.throttle htherm

/-- What enforcing a request leaves for the throttle to go by. -/
structure Enforced (dram : Bool) (h : Heel) (m x : Mod) : Prop where
  heel : thermHeel x dram = h
  stepUp : x.therm.stepUpAt = m.therm.stepUpAt
  graceIn : x.therm.graceIn = m.therm.graceIn
  throttle : x.therm.throttle = m.therm.throttle
  tb : x.tb = m.tb
  mem : x.mem = m.mem

theorem setHeel_enforced (dram : Bool) (h : Heel) (m : Mod) : Enforced dram h m (setHeel dram h m) := by
  cases dram <;> exact ⟨rfl, rfl, rfl, rfl, rfl, rfl⟩

theorem enforced_of_therm_eq {dram : Bool} {h : Heel} {m x y : Mod} (hx : Enforced dram h m x) (htherm : y.therm = x.therm) (htb : y.tb = x.tb)
    (hmem : y.mem = x.mem) : Enforced dram h m y :=
  ⟨by rw [← hx.heel, thermHeel, thermHeel, htherm], by rw [htherm, hx.stepUp], by rw [htherm, hx.graceIn], by rw [htherm, hx.throttle],
    htb.trans hx.tb, hmem.trans hx.mem⟩

/-- A thermal request whose grace time has expired is enforced, and the throttle level rises (R461, R463). -/
theorem thermExpiry_of_due {dram : Bool} {m : Mod} (hraised : (thermHeel m dram).raised = true) (hdue : (thermHeel m dram).deadline ≤ m.tb.now) :
    thermHeel (thermExpiry dram m) dram = ⟨true, true, m.tb.now + graceNs m⟩ ∧
      (thermExpiry dram m).therm.throttle = (if (m.therm.stepUpAt.any (fun t => m.tb.now < t + graceNs m)) = true ∨ 3 ≤ m.therm.throttle
        then m.therm.throttle else m.therm.throttle + 1) ∧ (thermExpiry dram m).mem = m.mem := by
  unfold thermExpiry
  extract_lets h src enforced said
  rw [if_pos ⟨hraised, hdue⟩]
  have henforced : Enforced dram ⟨true, true, m.tb.now + graceNs m⟩ m enforced := setHeel_enforced ..
  have hsaid : Enforced dram ⟨true, true, m.tb.now + graceNs m⟩ m said := by
    simp only [said]
    split
    · exact henforced
    · exact enforced_of_therm_eq henforced (event_therm ..) (event_tb ..) (event_mem ..)
  clear_value said
  obtain ⟨hheel, hstep, hgrace, hlevel, htb, hmem⟩ := hsaid
  obtain ⟨hupMem, hupHeel, hupLevel⟩ := throttleUp_kept src (heelTemp said dram) said
  have hns : graceNs said = graceNs m := congrArg (· * 1000000) hgrace
  rw [hupHeel, hupMem, hupLevel, hns, hstep, hlevel, htb]
  exact ⟨hheel, rfl, hmem⟩

theorem thermExpiry_of_not_due {dram : Bool} {m : Mod} (h : (thermHeel m dram).raised = false ∨ m.tb.now < (thermHeel m dram).deadline) :
    thermExpiry dram m = m := by
  refine if_neg fun hdue => ?_
  obtain ⟨hraised, hpast⟩ := hdue
  rcases h with hlow | hearly
  · rw [hlow] at hraised
    cases hraised
  · omega

/-- R302: a capacity request that is enforced. -/
theorem capExpiry_of_due {t : Tile} {m : Mod} (hraised : (m.therm.capHeel[t] : Heel).raised = true)
    (hfirst : (m.therm.capHeel[t] : Heel).enforced = false) (hdue : (m.therm.capHeel[t] : Heel).deadline ≤ m.tb.now) :
    ∃ x, capExpiry t m = event 0x0C03 0 (heelData x 2 t.val 2 0 0) x ∧
      (x.therm.capHeel[t] : Heel) = { (m.therm.capHeel[t] : Heel) with enforced := true } ∧
      (x.tiers[t] : TierSt) = { (m.tiers[t] : TierSt) with enforce := true } ∧ x = { m with therm := x.therm, tiers := x.tiers } := by
  refine ⟨_, if_pos ⟨hraised, hfirst, hdue⟩, Vector.getElem_set_self .., tiers_onTier_self .., rfl⟩

/-- The throttle level falls when a grace time without a thermal request has passed (R462). -/
def steppedDown (m : Mod) : Mod :=
  let m := onTherm (fun t => { t with throttle := t.throttle - 1, downFrom := m.tb.now }) m
  let dram := Config.stepSource m.free
  let m := { m with free := m.free + 1 }
  commitSwap false (if dram then heelEvent 1 0 3 m.therm.dramT 0 m else heelEvent 0 0 3 m.therm.dieT 0 m)

theorem steppedDown_kept (m : Mod) : (steppedDown m).mem = m.mem ∧
    (steppedDown m).therm = { m.therm with throttle := m.therm.throttle - 1, downFrom := m.tb.now } := by
  unfold steppedDown
  extract_lets lowered dram drawn
  rw [(commitSwap_judged ..).mem, commitSwap_therm]
  cases dram
  · exact ⟨event_mem .., event_therm ..⟩
  · exact ⟨event_mem .., event_therm ..⟩

/-! ### Sensor tests (R467) -/

/-- The channel under test reads as the hottest of its group; nothing else changes. -/
theorem replaceTested_onTest (x : AdminTag × Nat) (m : Mod) : ∃ sensors, replaceTested (onTherm (fun t => { t with test := some x }) m) =
    { m with therm := { m.therm with test := some x, sensors := sensors } } := by
  obtain ⟨sensors, h⟩ := replaceTested_sensors (onTherm (fun t => { t with test := some x }) m)
  exact ⟨sensors, h⟩

theorem heelRequestsAndSensorTestsAct : HeelRequestsAndSensorTestsAct := by
  refine ⟨fun dram s hp hlive => ⟨fun hraised hdue => ?_, fun hrest => ?_⟩, fun t s hp hlive hraised hfirst hdue => ?_, fun q s hcritical => ?_,
    fun s hp hlive hdie hdram hlevel hpast => ?_, fun s hrest => ?_, fun h c s ha => ?_, fun c ch s hp htest => ⟨?_, ?_⟩, fun pass s hfree => ?_⟩
  case refine_1 =>
    cases dram
    · exact completes_of_onMod _ rfl hp (by rw [hlive]; exact thermExpiry_of_due hraised hdue)
    · exact completes_of_onMod _ rfl hp (by rw [hlive]; exact thermExpiry_of_due hraised hdue)
  case refine_2 =>
    cases dram
    · exact completes_of_onMod _ rfl hp (by rw [hlive]; exact thermExpiry_of_not_due hrest)
    · exact completes_of_onMod _ rfl hp (by rw [hlive]; exact thermExpiry_of_not_due hrest)
  case refine_3 => exact completes_of_onMod _ rfl hp (by rw [hlive]; exact capExpiry_of_due hraised hfirst hdue)
  case refine_4 => exact exec_of_fixed _ rfl (if_pos hcritical)
  case refine_5 =>
    obtain ⟨hmem, htherm⟩ := steppedDown_kept s.m
    have hgoes : ¬ (s.m.therm.critical || s.m.therm.dieHeel.raised || s.m.therm.dramHeel.raised || decide (s.m.therm.throttle = 0) ||
        decide (s.m.tb.now < s.m.therm.downFrom + graceNs s.m)) = true := by
      simp only [hlive, hdie, hdram, Bool.or_eq_true, decide_eq_true_eq, Bool.false_eq_true, false_or]
      rw [graceNs]
      omega
    refine completes_of_onMod _ rfl hp ?_
    dsimp only
    rw [if_neg hgoes]
    exact ⟨htherm, hmem⟩
  case refine_6 =>
    refine exec_of_fixed _ rfl (if_pos ?_)
    simp only [Bool.or_eq_true, decide_eq_true_eq]
    rw [graceNs]
    tauto
  case refine_7 =>
    refine completes_of_accepted _ rfl ha ?_
    have htest : (begun h 0x0A01 s.m).therm.test = s.m.therm.test := rfl
    dsimp only
    rw [htest]
    split_ifs
    · rfl
    · rfl
    · obtain ⟨sensors, heq⟩ := replaceTested_onTest (tagOf h 0x0A01, c) (begun h 0x0A01 s.m)
      rw [heq]
      exact ⟨rfl, rfl⟩
  case refine_8 =>
    refine completes_of_onMod _ rfl hp ⟨onSensor ch (fun s => { s with broken := false, fails := 0 }) (onTherm (fun t => { t with test := none }) s.m), ?_,
      ?_, fun d hd => ?_, rfl⟩
    · simp only [htest, if_true]
    · exact (sensorAt_onSensor ..).trans (if_pos rfl)
    · exact (sensorAt_onSensor ..).trans (if_neg hd)
  case refine_9 =>
    have hbroken := sensorAt_breakSensor ch ch (onTherm (fun t => { t with test := none }) s.m)
    obtain ⟨_, _, _, _, _, _, _, hsensed⟩ := breakSensor_sensed ch (onTherm (fun t => { t with test := none }) s.m)
    refine completes_of_onMod _ rfl hp ⟨breakSensor ch (onTherm (fun t => { t with test := none }) s.m), ?_, ?_, ?_, fun d hd => ?_, ?_⟩
    · simp only [htest, Bool.false_eq_true, if_false]
    · rw [hbroken, if_pos rfl]
    · rw [hsensed]; rfl
    · exact (sensorAt_breakSensor ..).trans (if_neg hd)
    · rw [hsensed]; rfl
  case refine_10 => exact exec_of_fixed _ rfl (by simp only [hfree])

/-- Settles O52, by what a round judges and by the commands of the heel requests. -/
theorem roundsReadAndHeelRequestsAct : Obligations.RoundsReadAndHeelRequestsAct := ⟨roundsTakeReadings, heelRequestsAndSensorTestsAct⟩

end Sys2Proof.Machine
end

