-- ==== Sys2Proof/Proofs/BootCode.lean ====
section
/-! PROOFS. Boot code (O13): what each of its steps leaves alone, what it takes from the bank that verifies, and the hold for heat. -/
namespace Sys2Proof.Machine

open Sys2Proof.Stmt

/-! ### What the steps of boot leave alone -/

/-- Steps of boot that only report, mark and train keep what BOOT_DONE is about. -/
structure BootKeeps (m m' : Mod) : Prop where
  mem : m'.mem = m.mem
  conn : m'.conn = m.conn
  rings : m'.rings = m.rings
  lost : m'.tb.lost = m.tb.lost
  now : m'.tb.now = m.tb.now
  proc : m'.proc = m.proc
  prot : m'.prot = m.prot
  tiers : m'.tiers = m.tiers
  sched : m'.sched = m.sched
  pwrErr : m'.power.pwrErr = m.power.pwrErr
  banks : ∀ b, bankOf m'.flash b = bankOf m.flash b
  minSvn : m'.flash.minSvn = m.flash.minSvn
  select : m'.flash.select = m.flash.select

theorem bootKeeps_refl (m : Mod) : BootKeeps m m := ⟨rfl, rfl, rfl, rfl, rfl, rfl, rfl, rfl, rfl, rfl, fun _ => rfl, rfl, rfl⟩

theorem bootKeeps_trans (a b c : Mod) (h : BootKeeps a b) (k : BootKeeps b c) : BootKeeps a c :=
  ⟨k.mem.trans h.mem, k.conn.trans h.conn, k.rings.trans h.rings, k.lost.trans h.lost, k.now.trans h.now, k.proc.trans h.proc,
    k.prot.trans h.prot, k.tiers.trans h.tiers, k.sched.trans h.sched, k.pwrErr.trans h.pwrErr, fun i => (k.banks i).trans (h.banks i),
    k.minSvn.trans h.minSvn, k.select.trans h.select⟩

theorem event_bootKeeps (k : BitVec 16) (l : Word32) (d : Nat) (m : Mod) : BootKeeps m (event k l d m) := by
  obtain ⟨_, _, _, _, _, _, _, hpower⟩ := event_power k l d m
  obtain ⟨_, hflash⟩ := event_flash (m := m) k l d
  refine ⟨event_mem .., event_conn .., event_rings .., by rw [event_tb], by rw [event_tb], event_proc .., event_prot .., event_tiers ..,
    event_sched .., by rw [hpower], fun b => ?_, by rw [hflash], by rw [hflash]⟩
  rw [hflash]
  rfl

/-- Packs, slices, filters, the flash's marks and the oscillators' failures are none of it. -/
theorem bootKeeps_of_marks (m : Mod) (packs : Vector PackSt 8) (slices : Vector Slice 4) (filters : Vector FilterSt 4) (marks : List (Nat × Nat))
    (fail0 fail1 : Bool) (free : Nat) : BootKeeps m { m with
      packs := packs, slices := slices, filters := filters, flash := { m.flash with chMarks := marks }
      tb := { m.tb with fail0 := fail0, fail1 := fail1 }, free := free } :=
  ⟨rfl, rfl, rfl, rfl, rfl, rfl, rfl, rfl, rfl, rfl, fun _ => rfl, rfl, rfl⟩

theorem passCheck_bootKeeps (t : Tile) (m : Mod) : BootKeeps m (passCheck t m) := by
  unfold passCheck
  extract_lets s now checked
  have hchecked : BootKeeps m checked := bootKeeps_of_marks m m.packs _ m.filters m.flash.chMarks m.tb.fail0 m.tb.fail1 m.free
  split
  · exact bootKeeps_trans _ _ _ hchecked (event_bootKeeps ..)
  · exact hchecked

theorem channelMark_bootKeeps (pk : Pack) (pos cause : Nat) (m : Mod) : BootKeeps m (channelMark pk pos cause m) := by
  unfold channelMark
  exact bootKeeps_trans _ _ _ (bootKeeps_of_marks m _ m.slices m.filters _ m.tb.fail0 m.tb.fail1 m.free) (event_bootKeeps ..)

theorem recordRegs_bootKeeps (pk : Pack) (pos : Nat) (m : Mod) : BootKeeps m (recordRegs pk pos m) :=
  bootKeeps_of_marks m _ m.slices m.filters m.flash.chMarks m.tb.fail0 m.tb.fail1 m.free

theorem trainPacks_bootKeeps (l : List Pack) (m : Mod) : BootKeeps m (trainPacks l m) := by
  unfold trainPacks
  extract_lets bad at_
  refine bootKeeps_trans _ _ _ (bootKeeps_of_marks m m.packs m.slices m.filters m.flash.chMarks m.tb.fail0 m.tb.fail1 (m.free + 1)) ?_
  refine foldl_rel BootKeeps bootKeeps_refl bootKeeps_trans _ (fun b x => ?_) _ _
  dsimp only
  split
  · exact bootKeeps_trans _ _ _ (recordRegs_bootKeeps ..) (channelMark_bootKeeps ..)
  · exact recordRegs_bootKeeps ..

theorem bootHealth_bootKeeps (m : Mod) : BootKeeps m (bootHealth m) := bootKeeps_of_marks m _ _ _ m.flash.chMarks _ _ m.free

/-! ### The steps before the image (R484, R498, R507) -/

theorem bootTrip_bootKeeps (f : FrontEnd) (m : Mod) : BootKeeps { m with power := { m.power with pwrErr := tripBits f } } (bootTrip f m) := by
  unfold bootTrip
  extract_lets b copied
  split
  · exact bootKeeps_refl _
  · refine bootKeeps_trans _ _ _ ?_ (event_bootKeeps ..)
    exact ⟨rfl, rfl, rfl, rfl, rfl, rfl, rfl, rfl, rfl, rfl, fun _ => rfl, rfl, rfl⟩

theorem bootCores_bootKeeps (m : Mod) : ∃ p, p.recovery = m.proc.recovery ∧ BootKeeps { m with proc := p } (bootCores m) := by
  unfold bootCores
  extract_lets f0 f1 p q running
  refine ⟨q, rfl, ?_⟩
  split
  · exact event_bootKeeps ..
  · exact bootKeeps_refl _

/-- The bank that boot code runs (R507). -/
def bankToRun (f : Flash) : Option Bool :=
  if bankFault f f.select = 0 then some f.select else if bankFault f (!f.select) = 0 then some (!f.select) else none

theorem bootBank_eq (m : Mod) : (bootBank m).1 = bankToRun m.flash ∧ BootKeeps m (bootBank m).2 := by
  unfold bootBank bankToRun
  extract_lets f b fallen
  split
  · exact ⟨rfl, bootKeeps_refl m⟩
  · exact ⟨rfl, event_bootKeeps ..⟩

theorem bankFault_congr {m m' : Mod} (h : BootKeeps m m') (b : Bool) : bankFault m'.flash b = bankFault m.flash b := by
  unfold bankFault
  rw [h.banks, h.minSvn]

theorem bankToRun_congr {m m' : Mod} (h : BootKeeps m m') : bankToRun m'.flash = bankToRun m.flash := by
  unfold bankToRun
  rw [bankFault_congr h, bankFault_congr h, h.select]

theorem bankToRun_of_fallback {f : Flash} {b : Bool} (hb : b = if bankFault f f.select = 0 then f.select else !f.select)
    (hsound : bankFault f b = 0) : bankToRun f = some b := by
  unfold bankToRun
  split at hb
  next hselect => rw [if_pos hselect, hb]
  next hselect => rw [if_neg hselect, ← hb, if_pos hsound]

theorem bankToRun_sound {f : Flash} {b : Bool} (h : bankToRun f = some b) : bankFault f b = 0 := by
  unfold bankToRun at h
  split at h
  next hselect =>
    cases h
    exact hselect
  next =>
    split at h
    next hother =>
      cases h
      exact hother
    next => cases h

theorem bankToRun_of_none_sound {f : Flash} (h0 : bankFault f false ≠ 0) (h1 : bankFault f true ≠ 0) : bankToRun f = none := by
  have hall : ∀ b, bankFault f b ≠ 0 := fun b => by cases b <;> assumption
  rw [bankToRun, if_neg (hall _), if_neg (hall _)]

/-- The module as boot code comes to the image: its cores run, its packs are trained. -/
def readied (f : FrontEnd) (m : Mod) : Mod := trainPacks (List.finRange 8) (bootHealth (bootBank (bootCores (bootTrip f m))).2)

/-- Boot with the bank to run, or in recovery mode. -/
def bootRun : Option Bool → Mod → Mod
  | some b, m =>
    let i := (bankOf m.flash b).getD default
    bootImage b (setMetaWays (metaWaysOf i.metaWays i.regions) (bootRegions i (bootConfig b i m)))
  | none, m => event 0x0D06 0 0 { m with proc := { m.proc with recovery := true }, prot := { m.prot with locked := true } }

theorem boot_eq (f : FrontEnd) (m : Mod) : boot f m = bootFinish (bootRun (bootBank (bootCores (bootTrip f m))).1 (readied f m)) := by
  unfold boot readied
  rcases bootBank (bootCores (bootTrip f m)) with ⟨b, x⟩
  cases b <;> rfl

theorem readied_keeps (f : FrontEnd) (m : Mod) : (∃ p, p.recovery = m.proc.recovery ∧
    BootKeeps { m with power := { m.power with pwrErr := tripBits f }, proc := p } (readied f m)) ∧
    (bootBank (bootCores (bootTrip f m))).1 = bankToRun m.flash := by
  have htrip := bootTrip_bootKeeps f m
  obtain ⟨p, hrecovery, hcores⟩ := bootCores_bootKeeps (bootTrip f m)
  obtain ⟨hbank, hkept⟩ := bootBank_eq (bootCores (bootTrip f m))
  have hset : BootKeeps { m with power := { m.power with pwrErr := tripBits f }, proc := p } { bootTrip f m with proc := p } :=
    ⟨htrip.mem, htrip.conn, htrip.rings, htrip.lost, htrip.now, rfl, htrip.prot, htrip.tiers, htrip.sched, htrip.pwrErr, htrip.banks,
      htrip.minSvn, htrip.select⟩
  have hrun := bootKeeps_trans _ _ _ hset hcores
  have hsame := bankToRun_congr hrun
  refine ⟨⟨p, hrecovery.trans (congrArg ProcSt.recovery htrip.proc), ?_⟩, hbank.trans hsame⟩
  exact bootKeeps_trans _ _ _ hrun (bootKeeps_trans _ _ _ hkept (bootKeeps_trans _ _ _ (bootHealth_bootKeeps _) (trainPacks_bootKeeps ..)))

/-! ### The image (R127, R202, R253, R254) -/

/-- The configuration of an image, before its table. -/
theorem bootConfig_eq (b : Bool) (i : BankImage) (m : Mod) : ∃ tiers ports seals, bootConfig b i m = { m with
    tiers := tiers, ports := ports, prot := { m.prot with kek := i.kek, sealR := seals }
    sched := { m.sched with runtimeLoad := i.runtimeLoad }
    proc := { m.proc with bank := b, debug := i.debug, fwver := i.fwver, svn := i.svn, wdtMs := i.wdtMs } } := ⟨_, _, _, rfl⟩

theorem bootRegions_bootKeeps (i : BankImage) (m : Mod) : BootKeeps { m with prot := { m.prot with
    regions := if (tableCheck i.regions m.prot.sealR m.tiers m.conn.gangEn).isNone then i.regions else [], locked := true } } (bootRegions i m) := by
  unfold bootRegions
  dsimp only
  cases tableCheck i.regions m.prot.sealR m.tiers m.conn.gangEn with
  | none => exact bootKeeps_refl _
  | some e => exact event_bootKeeps ..

theorem setMetaWays_bootKeeps (n : Nat) (m : Mod) : BootKeeps m (setMetaWays n m) :=
  bootKeeps_of_marks m m.packs _ m.filters m.flash.chMarks m.tb.fail0 m.tb.fail1 m.free

/-- The image set that is loaded is one of the schedule alone. -/
theorem bootImage_bootKeeps (b : Bool) (m : Mod) : ∃ active variant subst,
    BootKeeps { m with sched := { m.sched with active := active, variant := variant, subst := subst } } (bootImage b m) := by
  unfold bootImage
  extract_lets bytes fail start
  split
  · exact ⟨_, _, _, bootKeeps_refl _⟩
  · exact ⟨_, _, _, bootKeeps_refl _⟩
  · exact ⟨_, _, _, event_bootKeeps ..⟩

/-! ### The end of boot (R508) -/

/-- What boot code leaves of the module as its last step begins. -/
structure BootLeaves (f : FrontEnd) (m m' : Mod) : Prop where
  mem : m'.mem = m.mem
  conn : m'.conn = m.conn
  rings : m'.rings = m.rings
  lost : m'.tb.lost = m.tb.lost
  now : m'.tb.now = m.tb.now
  pwrErr : m'.power.pwrErr = tripBits f
  locked : m'.prot.locked = true

theorem bootLeaves_of_keeps {f : FrontEnd} {m x y : Mod} (h : BootLeaves f m x) (k : BootKeeps x y) : BootLeaves f m y :=
  ⟨k.mem.trans h.mem, k.conn.trans h.conn, k.rings.trans h.rings, k.lost.trans h.lost, k.now.trans h.now, k.pwrErr.trans h.pwrErr,
    (congrArg Protect.locked k.prot).trans h.locked⟩

/-- The bank that boot code runs is in force, with its region table where every check passes (R253, R505). -/
structure BankInForce (b : Bool) (i : BankImage) (m x : Mod) : Prop where
  bank : x.proc.bank = b
  fwver : x.proc.fwver = i.fwver
  svn : x.proc.svn = i.svn
  debug : x.proc.debug = i.debug
  wdtMs : x.proc.wdtMs = i.wdtMs
  recovery : x.proc.recovery = m.proc.recovery
  kek : x.prot.kek = i.kek
  runtimeLoad : x.sched.runtimeLoad = i.runtimeLoad
  regions : x.prot.regions = if (tableCheck i.regions x.prot.sealR x.tiers m.conn.gangEn).isNone then i.regions else []

/-- The gangline begins to train where the straps enable it (R423). -/
def trainingBegun (m : Mod) : Mod := if m.gang.link = 1 then { m with gang := { m.gang with link := 2 } } else m

theorem trainingBegun_bootKeeps (m : Mod) : BootKeeps m (trainingBegun m) := by
  unfold trainingBegun
  split <;> exact ⟨rfl, rfl, rfl, rfl, rfl, rfl, rfl, rfl, rfl, rfl, fun _ => rfl, rfl, rfl⟩

/-- Every slice sweeps, every tile is filled, and the frame runs where there is a timebase. -/
def bootClosed (m : Mod) : Mod :=
  let m := beginSweep { m with proc := { m.proc with bootDone := true, cdat := m.sched.active }, filling := 15 }
  { m with sched := { m.sched with running := !m.tb.lost, frameStart := m.tb.now } }

theorem bootFinish_eq (m : Mod) : bootFinish m = bootClosed ((List.finRange 4).foldl (fun m t => passCheck t m) (trainingBegun m)) := by
  unfold bootFinish
  extract_lets gang begun checked closed
  change _ = bootClosed checked
  clear_value checked
  rfl

theorem bootFinish_bootKeeps (m : Mod) : ∃ y, BootKeeps m y ∧ bootFinish m = bootClosed y :=
  ⟨_, bootKeeps_trans _ _ _ (trainingBegun_bootKeeps m)
    (foldl_rel BootKeeps bootKeeps_refl bootKeeps_trans _ (fun b t => passCheck_bootKeeps t b) _ _), bootFinish_eq m⟩

/-- The bank's image leaves the module with the bank in force. -/
theorem bootRun_of_bank {f : FrontEnd} {m x : Mod} {b : Bool} {i : BankImage} (hi : bankOf x.flash b = some i)
    (hx : ∃ p, p.recovery = m.proc.recovery ∧ BootKeeps { m with power := { m.power with pwrErr := tripBits f }, proc := p } x) :
    BootLeaves f m (bootRun (some b) x) ∧ BankInForce b i m (bootRun (some b) x) := by
  obtain ⟨p, hrecovery, hx⟩ := hx
  obtain ⟨tiers, ports, seals, hconfig⟩ := bootConfig_eq b i x
  have hregions := bootRegions_bootKeeps i (bootConfig b i x)
  have hways := setMetaWays_bootKeeps (metaWaysOf i.metaWays i.regions) (bootRegions i (bootConfig b i x))
  obtain ⟨active, variant, subst, himage⟩ := bootImage_bootKeeps b (setMetaWays (metaWaysOf i.metaWays i.regions) (bootRegions i (bootConfig b i x)))
  have hset : bootRun (some b) x = bootImage b (setMetaWays (metaWaysOf i.metaWays i.regions) (bootRegions i (bootConfig b i x))) := by
    rw [bootRun, hi]
    rfl
  have hloaded := bootKeeps_trans _ _ _ hregions hways
  rw [hconfig] at hloaded
  rw [hset]
  rw [hconfig] at himage ⊢
  generalize setMetaWays (metaWaysOf i.metaWays i.regions) (bootRegions i { x with
    tiers := tiers, ports := ports, prot := { x.prot with kek := i.kek, sealR := seals }
    sched := { x.sched with runtimeLoad := i.runtimeLoad }
    proc := { x.proc with bank := b, debug := i.debug, fwver := i.fwver, svn := i.svn, wdtMs := i.wdtMs } }) = y at himage hloaded ⊢
  generalize bootImage b y = z at himage ⊢
  have hprot := himage.prot.trans hloaded.prot
  have hproc := himage.proc.trans hloaded.proc
  have hgangEn : x.conn.gangEn = m.conn.gangEn := congrArg ConnSt.gangEn hx.conn
  refine ⟨⟨himage.mem.trans (hloaded.mem.trans hx.mem), himage.conn.trans (hloaded.conn.trans hx.conn), himage.rings.trans (hloaded.rings.trans hx.rings),
    himage.lost.trans (hloaded.lost.trans hx.lost), himage.now.trans (hloaded.now.trans hx.now), himage.pwrErr.trans (hloaded.pwrErr.trans hx.pwrErr),
    by rw [hprot]⟩, ⟨by rw [hproc], by rw [hproc], by rw [hproc], by rw [hproc], by rw [hproc], ?_, by rw [hprot], ?_, ?_⟩⟩
  · rw [hproc]
    exact (congrArg ProcSt.recovery hx.proc).trans hrecovery
  · rw [himage.sched, hloaded.sched]
  · rw [hprot, himage.tiers, hloaded.tiers, ← hgangEn]

/-- Without a bank that verifies the module is in recovery mode (R509). -/
theorem bootRun_of_none {f : FrontEnd} {m x : Mod}
    (hx : ∃ p, p.recovery = m.proc.recovery ∧ BootKeeps { m with power := { m.power with pwrErr := tripBits f }, proc := p } x) :
    BootLeaves f m (bootRun none x) ∧ (bootRun none x).proc.recovery = true ∧ (bootRun none x).prot.regions = m.prot.regions ∧
      (bootRun none x).sched = m.sched := by
  obtain ⟨p, -, hx⟩ := hx
  have hevent := event_bootKeeps 0x0D06 0 0 { x with proc := { x.proc with recovery := true }, prot := { x.prot with locked := true } }
  refine ⟨⟨hevent.mem.trans hx.mem, hevent.conn.trans hx.conn, hevent.rings.trans hx.rings, hevent.lost.trans hx.lost, hevent.now.trans hx.now,
    hevent.pwrErr.trans hx.pwrErr, congrArg Protect.locked hevent.prot⟩, congrArg ProcSt.recovery hevent.proc, ?_, hevent.sched.trans hx.sched⟩
  have hregions : x.prot.regions = m.prot.regions := congrArg Protect.regions hx.prot
  exact (congrArg Protect.regions hevent.prot).trans hregions

/-- With or without a bank, boot code leaves the stored data, the connector and the rings alone. -/
theorem bootRun_leaves {f : FrontEnd} {m x : Mod}
    (hx : ∃ p, p.recovery = m.proc.recovery ∧ BootKeeps { m with power := { m.power with pwrErr := tripBits f }, proc := p } x) :
    BootLeaves f m (bootRun (bankToRun m.flash) x) := by
  cases hbank : bankToRun m.flash with
  | none => exact (bootRun_of_none hx).1
  | some b =>
    obtain ⟨p, hrecovery, hkept⟩ := id hx
    have hsame : bankOf x.flash b = bankOf m.flash b := hkept.banks b
    cases hi : bankOf m.flash b with
    | none => exact absurd (bankToRun_sound hbank) (by simp [bankFault, hi])
    | some i => exact (bootRun_of_bank (hsame.trans hi) hx).1

theorem bootCodeRuns : BootCodeRuns := by
  intro s hp hfirst hcool
  have hgoes : ¬ (!s.fe.powered || s.m.proc.bootDone || s.m.therm.hold) = true := by simp [hp, hfirst, hcool]
  obtain ⟨hready, hbank⟩ := readied_keeps s.fe s.m
  have hboot := boot_eq s.fe s.m
  rw [hbank] at hboot
  obtain ⟨y, hkept, hfinish⟩ := bootFinish_bootKeeps (bootRun (bankToRun s.m.flash) (readied s.fe s.m))
  obtain ⟨hmem, hconn, hrings, hlost, hnow, hpwr, hlocked⟩ := bootLeaves_of_keeps (bootRun_leaves hready) hkept
  refine ⟨boot s.fe s.m, congrArg Host.Outcome.next (if_neg hgoes), ?_⟩
  rw [hboot, hfinish]
  refine ⟨rfl, rfl, congrArg (!·) hlost, hnow, hlocked, hpwr, hmem, hconn, hrings, fun b i hb hsound hi => ?_, fun h0 h1 => ?_⟩
  · obtain ⟨p, -, hx⟩ := id hready
    have hi' : bankOf (readied s.fe s.m).flash b = some i := (hx.banks b).trans hi
    rw [bankToRun_of_fallback hb hsound] at hkept
    have hforce := (bootRun_of_bank hi' hready).2
    have hproc := hkept.proc
    have hprot := hkept.prot
    refine ⟨(congrArg ProcSt.bank hproc).trans hforce.bank, (congrArg ProcSt.fwver hproc).trans hforce.fwver, (congrArg ProcSt.svn hproc).trans hforce.svn,
      (congrArg ProcSt.debug hproc).trans hforce.debug, (congrArg ProcSt.wdtMs hproc).trans hforce.wdtMs,
      (congrArg ProcSt.recovery hproc).trans hforce.recovery, (congrArg Protect.kek hprot).trans hforce.kek,
      (congrArg Sched.runtimeLoad hkept.sched).trans hforce.runtimeLoad, ?_⟩
    change y.prot.regions = if (tableCheck i.regions y.prot.sealR y.tiers s.m.conn.gangEn).isNone then i.regions else []
    rw [hprot, hkept.tiers]
    exact hforce.regions
  · rw [bankToRun_of_none_sound h0 h1] at hkept
    obtain ⟨-, hrecovery, hregions, hsched⟩ := bootRun_of_none hready
    exact ⟨(congrArg ProcSt.recovery hkept.proc).trans hrecovery, (congrArg Protect.regions hkept.prot).trans hregions,
      (congrArg Sched.active (hkept.sched.trans hsched) :)⟩

theorem thermalHoldReports : ThermalHoldReports :=
  fun _ hp hfirst hhold => completes_of_onMod _ rfl hp (if_pos ⟨hhold, hfirst⟩)

/-- Settles O13, by the steps of boot code. -/
theorem bootCodeRunsOrHoldsForHeat : Obligations.BootCodeRunsOrHoldsForHeat := ⟨bootCodeRuns, thermalHoldReports⟩

end Sys2Proof.Machine
end

