-- ==== Sys2Proof/Proofs/AdminCommands.lean ====
section
/-! PROOFS. Admin commands (O21, O23): the general checks of every opcode, identity and health, and the flash commands. -/
namespace Sys2Proof.Machine

open Sys2Proof.Stmt

/-! ### The general checks (R502, R509, R515) -/

/-- Every command of *Admin opcodes* is the general checks before its own work. -/
theorem exec_of_adminForm {c : Instr} {h : AdminHdr} {op : BitVec 16} {ok : Bool} (hform : adminForm c = some (h, op, ok)) (s : State) :
    ∃ own, exec c s = .next (onMod (admin h op ok own) s) := by
  unfold adminForm at hform
  split at hform
  all_goals cases hform
  all_goals exact ⟨_, rfl⟩

section
variable {h : AdminHdr} {op : BitVec 16} {ok : Bool} {m : Mod} (own : AdminTag → Mod → Mod)

theorem admin_of_inactive (hidle : spActive m = false) : admin h op ok own m = m := if_pos (by simp [hidle])

theorem badForm_eq_false_iff : (h.resv || !ok || decide (h.rlen > 65536) || h.rbuf.toNat % 64 != 0) = false ↔ wellPut h ok := by
  simp only [wellPut, Bool.or_eq_false_iff, Bool.not_eq_false', decide_eq_false_iff_not, Nat.not_lt, bne_eq_false_iff_eq, gt_iff_lt, and_assoc]

theorem admin_of_badForm (hactive : spActive m = true) (hbad : ¬ wellPut h ok) : admin h op ok own m = done (tagOf h op) 0xE1 (begun h op m) := by
  have hform := Bool.eq_true_of_not_eq_false fun hgood => hbad (badForm_eq_false_iff.mp hgood)
  simp only [admin, hactive, Bool.not_true, Bool.false_eq_true, if_false]
  exact if_pos hform

theorem admin_of_stop (hactive : spActive m = true) (hput : wellPut h ok) (hstop : m.prot.stop.isSome = true) (hop : stopAllowed op = false) :
    admin h op ok own m = done (tagOf h op) 0xE3 (begun h op m) := by
  have hform := badForm_eq_false_iff.mpr hput
  simp only [admin, hactive, hform, Bool.not_true, Bool.false_eq_true, if_false]
  exact if_pos (by simp [hop, show (started _ m).prot.stop.isSome = true from hstop])

theorem admin_of_recovery (hactive : spActive m = true) (hput : wellPut h ok) (hstop : m.prot.stop = none ∨ stopAllowed op = true)
    (hrecovery : m.proc.recovery = true) (hop : recoveryAllowed op = false) :
    admin h op ok own m = done (tagOf h op) 0xE4 (begun h op m) := by
  have hform := badForm_eq_false_iff.mpr hput
  have hgoes : ¬ (m.prot.stop.isSome && !stopAllowed op) = true := by rcases hstop with h | h <;> simp [h]
  simp only [admin, hactive, hform, Bool.not_true, Bool.false_eq_true, if_false]
  exact (if_neg hgoes).trans (if_pos (by simp [hop, show (started _ m).proc.recovery = true from hrecovery]))

end

/-- Settles O21, by the form that every admin command has. -/
theorem adminCommandsMeetTheGeneralChecks : Obligations.AdminCommandsMeetTheGeneralChecks := by
  refine ⟨fun c h op ok s hform hp => ?_, fun h op s hp hactive => completes_of_onMod _ rfl hp (if_pos hactive)⟩
  obtain ⟨own, hexec⟩ := exec_of_adminForm hform s
  refine ⟨fun hidle => exec_of_fixed _ hexec (admin_of_inactive own hidle), fun hactive => ⟨fun hbad => ?_, fun hput hstop hop => ?_,
    fun hput hstop hrecovery hop => ?_⟩⟩
  · exact completes_of_onMod _ hexec hp (admin_of_badForm own hactive hbad)
  · exact completes_of_onMod _ hexec hp (admin_of_stop own hactive hput hstop hop)
  · exact completes_of_onMod _ hexec hp (admin_of_recovery own hactive hput hstop hrecovery hop)

/-! ### Identity and health (R515, R517) -/

/-- IDENTIFY's result word below the firmware version. -/
def identityLow (num ltr : BitVec 4) (bank : Bool) : BitVec 96 :=
  0x2048#96 ||| (num.setWidth 96 <<< 16) ||| (ltr.setWidth 96 <<< 20) ||| (BitVec.ofNat 96 (num01 bank) <<< 24)

theorem identityLow_fields : ∀ (num ltr : BitVec 4) (bank : Bool),
    let r := identityLow num ltr bank
    bitsOf r 0 16 = 0x2048#16 ∧ bitsOf r 16 4 = num ∧ bitsOf r 20 4 = ltr ∧ bitsOf r 24 1 = bit bank ∧ bitsOf r 25 7 = 0 ∧
      bitsOf r 32 32 = 0#32 ∧ bitsOf r 64 32 = 0#32 := by
  decide

/-- The bits of a word that another one stands above. -/
theorem bitsOf_or_above (x : BitVec 96) (v : Word32) {lo n : Nat} (h : lo + n ≤ 32) : bitsOf (x ||| v.setWidth 96 <<< 32) lo n = bitsOf x lo n := by
  ext i hi
  have hlow : lo + i < 32 := by omega
  simp [hlow]

theorem bitsOf_above (v : Word32) : bitsOf (v.setWidth 96 <<< 32) 32 32 = v ∧ bitsOf (v.setWidth 96 <<< 32) 64 32 = 0#32 := by
  refine ⟨?_, ?_⟩
  · ext i hi
    have hin : 32 + i < 96 ∧ i < 96 := by omega
    simp [hin, BitVec.getLsbD_eq_getElem hi]
  · ext i hi
    have hout : 32 ≤ 64 + i - 32 := by omega
    simp [BitVec.getLsbD_of_ge v _ hout]

/-- IDENTIFY's result word. -/
def identity (bank : Bool) (fwver : Word32) : BitVec 96 := identityLow Config.stepNum Config.stepLtr bank ||| (fwver.setWidth 96 <<< 32)

theorem identity_fields (bank : Bool) (fwver : Word32) :
    let r := identity bank fwver
    bitsOf r 0 16 = 0x2048#16 ∧ bitsOf r 16 4 = Config.stepNum ∧ bitsOf r 20 4 = Config.stepLtr ∧ bitsOf r 24 1 = bit bank ∧
      bitsOf r 25 7 = 0 ∧ bitsOf r 32 32 = fwver ∧ bitsOf r 64 32 = 0 := by
  obtain ⟨hpart, hnum, hltr, hbank, hgap, hver, hhigh⟩ := identityLow_fields Config.stepNum Config.stepLtr bank
  obtain ⟨hfw, hnone⟩ := bitsOf_above fwver
  have hor := fun lo n => BitVec.extractLsb'_or (x := identityLow Config.stepNum Config.stepLtr bank) (y := fwver.setWidth 96 <<< 32) (start := lo) (len := n)
  unfold identity
  refine ⟨?_, ?_, ?_, ?_, ?_, ?_, ?_⟩
  · rw [bitsOf_or_above _ _ (by decide), hpart]
  · rw [bitsOf_or_above _ _ (by decide), hnum]
  · rw [bitsOf_or_above _ _ (by decide), hltr]
  · rw [bitsOf_or_above _ _ (by decide), hbank]
  · rw [bitsOf_or_above _ _ (by decide), hgap]
  · exact (hor 32 32).trans (by rw [show BitVec.extractLsb' 32 32 _ = _ from hver, show BitVec.extractLsb' 32 32 _ = _ from hfw, BitVec.zero_or])
  · exact (hor 64 32).trans (by rw [show BitVec.extractLsb' 64 32 _ = _ from hhigh, show BitVec.extractLsb' 64 32 _ = _ from hnone, BitVec.zero_or]; rfl)

/-- Records of one length, one after another. -/
theorem length_flatten_of_const {α : Type} {n : Nat} (l : List α) (f : α → List Byte) (h : ∀ x, (f x).length = n) :
    ((l.map f).flatten).length = n * l.length := by
  induction l with
  | nil => rfl
  | cons x l ih => rw [List.map_cons, List.flatten_cons, List.length_append, ih, h, List.length_cons, Nat.mul_succ, Nat.add_comm]

/-- The sizes of HEALTH_READ (log entry 19): 8 packs of four words, four slices of a word, four filters and the trip record. -/
theorem healthBytes_length (m : Mod) : (healthBytes m).length = 141 := by
  have hrank : ∀ p : Pack, (((List.range 4).map (fun r => toBytes (healthWord (m.packs[p] : PackSt) m.tb.now r) 4)).flatten).length = 16 :=
    fun p => length_flatten_of_const _ _ fun _ => toBytes_length ..
  have hpacks := length_flatten_of_const (List.finRange 8) _ hrank
  have hways := length_flatten_of_const (List.finRange 4) (fun t => toBytes (m.slices[t] : Slice).disabled 2) fun _ => toBytes_length ..
  simp only [healthBytes, List.length_append, List.length_map, List.length_cons, List.length_nil, List.length_finRange] at hpacks hways ⊢
  omega

theorem identityAndHealthRead : IdentityAndHealthRead := by
  refine ⟨fun h s ha => ?_, fun h s ha => ?_, fun h s ha => ?_, fun h c code r l m => ⟨fun hroom hok => ?_, fun hsmall => ?_⟩⟩
  · obtain ⟨h1, h2, h3, h4, h5, h6, h7⟩ := identity_fields s.m.proc.bank s.m.proc.fwver
    exact ⟨identity s.m.proc.bank s.m.proc.fwver, h1, h2, h3, h4, h5, h6, h7, completes_of_accepted _ rfl ha rfl⟩
  · exact completes_of_accepted _ rfl ha ⟨rfl, healthBytes_length s.m⟩
  · exact completes_of_accepted _ rfl ha ⟨_, rfl, length_flatten_of_const _ _ fun _ => toBytes_length ..⟩
  · exact if_neg (by simp [hok, hroom])
  · exact if_pos (by simp [hsmall])

/-! ### The flash (R504, R505, R510 to R512) -/

/-- What FLASH_UPDATE does once the general checks are met. -/
def updateOwn (h : AdminHdr) (b : Bool) (w : BitVec 64) (len : Nat) (c : AdminTag) (m : Mod) : Mod :=
  let wc := if b then m.flash.wcount1 else m.flash.wcount0
  if !m.proc.recovery && b == m.proc.bank then done c 0xB1 m
  else if 20000 ≤ wc then done c 0xB3 m
  else if flashRuns m then done c 0xB7 m
  else withSource h c (.flashUpdate b w len) w len (flashUpdate c b) m

section
variable {h : AdminHdr} {b : Bool} {w : BitVec 64} {len : Nat} {c : AdminTag} {m : Mod}

theorem updateOwn_of_running (hrecovery : m.proc.recovery = false) (hbank : b = m.proc.bank) : updateOwn h b w len c m = done c 0xB1 m :=
  if_pos (by simp [hrecovery, hbank])

section
variable (hother : m.proc.recovery = true ∨ b ≠ m.proc.bank)
include hother

theorem not_running_of_other : ¬ (!m.proc.recovery && b == m.proc.bank) = true := by
  rcases hother with hr | hb
  · simp [hr]
  · simp [hb]

theorem updateOwn_of_worn (hworn : 20000 ≤ if b then m.flash.wcount1 else m.flash.wcount0) : updateOwn h b w len c m = done c 0xB3 m :=
  (if_neg (not_running_of_other hother)).trans (if_pos hworn)

variable (hfresh : (if b then m.flash.wcount1 else m.flash.wcount0) < 20000)
include hfresh

theorem updateOwn_of_busy (hbusy : flashRuns m = true) : updateOwn h b w len c m = done c 0xB7 m :=
  (if_neg (not_running_of_other hother)).trans ((if_neg (Nat.not_le.mpr hfresh)).trans (if_pos hbusy))

theorem updateOwn_of_idle (hidle : flashRuns m = false) :
    updateOwn h b w len c m = withSource h c (.flashUpdate b w len) w len (flashUpdate c b) m :=
  (if_neg (not_running_of_other hother)).trans ((if_neg (Nat.not_le.mpr hfresh)).trans (if_neg (by simp [hidle])))

end
end

/-- R510: an update whose buffer is here has erased its bank, and counts its write. -/
theorem flashUpdate_of_read (c : AdminTag) (b : Bool) (l : List Byte) (x : Mod) :
    let y := flashUpdate c b (some l) x
    bankOf y.flash b = none ∧ bankOf y.flash (!b) = bankOf x.flash (!b) ∧
      y.flash.wcount0 = x.flash.wcount0 + (if b then 0 else 1) ∧ y.flash.wcount1 = x.flash.wcount1 + (if b then 1 else 0) ∧
      y.proc.flashBusy = some ⟨c, b, bankImage l⟩ ∧ y = { x with flash := y.flash, proc := y.proc } := by
  cases b <;> exact ⟨rfl, rfl, rfl, rfl, rfl, rfl⟩

theorem setBank_eq (b : Bool) (i : Option BankImage) (m : Mod) :
    setBank b i m = { m with flash := if b then { m.flash with bank1 := i } else { m.flash with bank0 := i } } := by cases b <;> rfl

/-- Whether a read touches the boot configuration of a bank (R512). -/
def readsConfig (o n b : Nat) : Bool := o < (Config.bootCfg b).1 + (Config.bootCfg b).2 && (Config.bootCfg b).1 < o + n

theorem readsConfig_iff (o n b : Nat) :
    readsConfig o n b = true ↔ o < (Config.bootCfg b).1 + (Config.bootCfg b).2 ∧ (Config.bootCfg b).1 < o + n := by
  simp [readsConfig]

theorem flashCommandsActOnTheBanks : FlashCommandsActOnTheBanks := by
  refine ⟨fun h bank w n s ha hbank hlen => ?_, fun c b l x => ?_, fun r x s hp hbusy => ?_, fun h bank s ha hbank => ?_, fun h s ha => ?_,
    fun h o n s ha hn hon => ?_⟩
  case refine_1 =>
    have hupdate : ∀ P : Mod → Prop, P (updateOwn h (bank == 1) w n (tagOf h 0x0101) (begun h 0x0101 s.m)) → completes (.flashUpdate h bank w n) s P :=
      fun P hP => completes_of_inRange _ rfl ha (by simp [hbank, show n ≤ 50331648 from hlen]) hP
    refine ⟨fun hrecovery hrunning => ?_, fun hother hworn => ?_, fun hother hfresh hruns => ?_, fun hother hfresh hidle => ?_⟩
    · exact hupdate _ (updateOwn_of_running hrecovery hrunning)
    · exact hupdate _ (updateOwn_of_worn hother hworn)
    · exact hupdate _ (updateOwn_of_busy hother hfresh hruns)
    · exact hupdate _ (updateOwn_of_idle hother hfresh hidle)
  case refine_2 =>
    obtain ⟨hbank, hother, hw0, hw1, hwork, hframe⟩ := flashUpdate_of_read c b l x
    exact ⟨hbank, hother, hw0, hw1, hwork, hframe, rfl⟩
  case refine_3 =>
    refine completes_of_onMod _ rfl hp ?_
    simp only [hbusy, Bool.or_eq_true, decide_eq_true_eq]
    split_ifs with hwritten hsigned hversion hbank
    · rfl
    · rfl
    · rfl
    · rw [setBank_eq, if_pos hbank]
    · rw [setBank_eq, if_neg hbank]
  case refine_4 =>
    refine completes_of_inRange _ rfl ha (by simp [hbank]) ?_
    by_cases hsound : bankFault s.m.flash (bank == 1) = 0
    · rw [if_pos hsound]
      exact if_neg (not_not.mpr hsound)
    · rw [if_neg hsound]
      exact if_pos hsound
  case refine_5 => exact completes_of_accepted _ rfl ha rfl
  case refine_6 =>
    refine ⟨fun hhits => ?_, fun h0 h1 => ?_⟩
    · exact completes_of_inRange _ rfl ha (by simp [hn, show o + n ≤ 134217728 from hon]) (if_pos (by
        rw [Bool.or_eq_true]
        exact hhits.imp (readsConfig_iff o n 0).mpr (readsConfig_iff o n 1).mpr))
    · have hmiss : ¬ (readsConfig o n 0 || readsConfig o n 1) = true := by
        rw [Bool.or_eq_true, readsConfig_iff, readsConfig_iff]
        tauto
      refine completes_of_inRange _ rfl ha (by simp [hn, show o + n ≤ 134217728 from hon]) ⟨_, ?_, if_neg hmiss⟩
      simp

/-- Settles O23, by the commands of identity and health and those of the flash. -/
theorem identityHealthAndFlashCommandsAct : Obligations.IdentityHealthAndFlashCommandsAct := ⟨identityAndHealthRead, flashCommandsActOnTheBanks⟩

end Sys2Proof.Machine
end

