-- ==== Sys2Proof/Proofs/Rings.lean ====
section
/-! PROOFS. Rings (O33, O34) and the event rings (O57): line writes and messages, starting and stopping a ring, and a ring table that lists
a number twice, which refutes O57. -/
namespace Sys2Proof.Machine

open Sys2Proof.Stmt

/-! ### Rings and the exchanges of a port -/

theorem ringAt_of_rings_eq {m m' : Mod} (h : m'.rings = m.rings) (p : Port) (r : Nat) : ringAt m' p r = ringAt m p r := by
  rw [ringAt, ringAt, h]

@[simp] theorem ringAt_onRing_self (p : Port) (r : Nat) (f : Ring → Ring) (m : Mod) : ringAt (onRing p r f m) p r = f (ringAt m p r) := by
  simp only [ringAt, onRing, onRings_rings, Two_get_set, tabMod, tabGet_tabPut_self]

@[simp] theorem onRing_get (p : Port) (r : Nat) (f : Ring → Ring) (m : Mod) :
    (onRing p r f m).rings.get p = { m.rings.get p with rings := tabMod initRing (m.rings.get p).rings r f } := by
  simp only [onRing, onRings_rings, Two_get_set]

/-- A ring is what the port's table says. -/
theorem ringAt_of_table_eq {m m' : Mod} {p : Port} (h : (m'.rings.get p).rings = (m.rings.get p).rings) (r : Nat) :
    ringAt m' p r = ringAt m p r := by
  rw [ringAt, ringAt, h]

/-- Two changes that agree on the ring as it stands are the same. -/
theorem onRing_congr {p : Port} {r : Nat} {f g : Ring → Ring} {m : Mod} (h : f (ringAt m p r) = g (ringAt m p r)) :
    onRing p r f m = onRing p r g m := by
  have hmod : tabMod initRing (m.rings.get p).rings r f = tabMod initRing (m.rings.get p).rings r g :=
    congrArg (tabPut (m.rings.get p).rings r) h
  simp only [onRing, onRings, hmod]

theorem ringWork_mem {m m' : Mod} (h : ringWork m m') : m'.mem = m.mem := by
  obtain ⟨_, _, _, _, _, _, rfl⟩ := h
  rfl

/-- A D2H request touches the port's credit and what waits for it. -/
theorem d2hSend_eq (p : Port) (k a : Nat) (m : Mod) : ∃ credit waits out, d2hSend p k a m =
    { m with ports := m.ports.set p { m.ports.get p with d2hCredit := credit, d2hWait := waits }, out := out } := by
  unfold d2hSend
  dsimp only
  split
  · exact ⟨(m.ports.get p).d2hCredit, (m.ports.get p).d2hWait, m.out, by rw [Two_set_get]⟩
  · split <;> exact ⟨_, _, _, rfl⟩

@[simp] theorem d2hSend_rings (p : Port) (k a : Nat) (m : Mod) : (d2hSend p k a m).rings = m.rings := by
  obtain ⟨_, _, _, h⟩ := d2hSend_eq p k a m
  rw [h]

@[simp] theorem d2hSend_mem (p : Port) (k a : Nat) (m : Mod) : (d2hSend p k a m).mem = m.mem := by
  obtain ⟨_, _, _, h⟩ := d2hSend_eq p k a m
  rw [h]

/-- A line write stands among the port's writes, unless the port is contained. -/
theorem itoMWr_writes (p : Port) (w : OpenWrite) (m : Mod) : ∃ writes,
    (itoMWr p w m).rings = m.rings.set p { m.rings.get p with writes := writes } ∧
      ((m.ports.get p).viralRx = false → w.pulled = false → w ∈ writes) := by
  unfold itoMWr
  extract_lets s
  split
  next hviral => exact ⟨(m.rings.get p).writes, by rw [Two_set_get], fun hfree => absurd hviral (by simp [contained, hfree])⟩
  next =>
    split
    next hsame =>
      refine ⟨_, rfl, fun _ _ => ?_⟩
      obtain ⟨v, hv, hmatch⟩ := List.any_eq_true.mp hsame
      exact List.mem_map.mpr ⟨v, hv, if_pos hmatch⟩
    next =>
      refine ⟨_, by rw [perfCount_rings, d2hSend_rings]; rfl, fun _ _ => ?_⟩
      simp

/-- The shadow line is written with the consumer count, which is then reported. -/
theorem shadowWrite_writes (p : Port) (r : Nat) (m : Mod) : ∃ writes,
    (shadowWrite p r m).rings = m.rings.set p { m.rings.get p with
      rings := tabMod initRing (m.rings.get p).rings r (fun g => { g with shadowed := g.midx }), writes := writes } ∧
      ((m.ports.get p).viralRx = false →
        (⟨(ringAt m p r).shadow.toNat, 256 + r, (ringAt m p r).midx.setWidth 512, (ringAt m p r).midx, false⟩ : OpenWrite) ∈ writes) := by
  obtain ⟨writes, hrings, hmem⟩ := itoMWr_writes p ⟨(ringAt m p r).shadow.toNat, 256 + r, (ringAt m p r).midx.setWidth 512, (ringAt m p r).midx, false⟩
    (onRing p r (fun g => { g with shadowed := g.midx }) m)
  refine ⟨writes, ?_, fun hfree => hmem hfree rfl⟩
  refine hrings.trans ?_
  rw [onRing_get, onRing, onRings_rings, Two_set_set]

theorem shadowWrite_ringWork (p : Port) (r : Nat) (m : Mod) : ringWork m (shadowWrite p r m) :=
  ringWork_trans _ _ _ (onRing_ringWork ..) (itoMWr_ringWork ..)

/-! ### Line writes and messages (R324, R332, R335) -/

/-- A message of a port in Run is work, and wakes nothing. -/
theorem wake_touch_of_talking {p : Port} {s : State} (h : talking p s) (c : Nat) : wake c (touch s.m) = touch s.m := wake_of_run c _ h.2.2

theorem goWritePull_of_sent {p : Port} {a i : Nat} {w : OpenWrite} {s : State} (h : talking p s) (hsent : (2, a) ∉ (s.m.ports.get p).d2hWait)
    (hfind : (s.m.rings.get p).writes.findIdx? (fun w => w.addr == a && !w.pulled) = some i) (hw : (s.m.rings.get p).writes[i]? = some w) :
    goWritePull p a s.m = send (.itoMWrData p a w.data) { touch s.m with
      rings := s.m.rings.set p { s.m.rings.get p with writes := (s.m.rings.get p).writes.modify i (fun w => { w with pulled := true }) } } := by
  have hwait : ((touch s.m).ports.get p).d2hWait.contains (2, a) = false := by simpa using hsent
  have hget : (s.m.rings.get p).writes.getD i default = w := by rw [List.getD_eq_getElem?_getD, hw, Option.getD_some]
  simp only [goWritePull, h.2.1, Bool.not_true, Bool.false_eq_true, if_false, wake_touch_of_talking h, hwait, touch_rings, hfind, hget]
  rfl

/-- What the GO of a line write makes visible, and counts for the ring's message. -/
def madeVisible (w : OpenWrite) (g : Ring) : Ring :=
  let n := if below g.visible w.count then (w.count - g.visible).toNat else 0
  { g with visible := if below g.visible w.count then w.count else g.visible, modCount := g.modCount + n }

theorem checkSignal_of_quiet {p : Port} {r : Nat} {m : Mod} (h : cfgIrq (ringAt m p r).cfg = false ∨
    ((ringAt m p r).modCount < cfgModCount (ringAt m p r).cfg ∧ (ringAt m p r).modSince = none)) : checkSignal p r m = m := by
  unfold checkSignal
  dsimp only
  rcases h with hoff | ⟨hfew, hsince⟩
  · simp [hoff]
  · have hfew' : ¬ cfgModCount (ringAt m p r).cfg ≤ (ringAt m p r).modCount := Nat.not_le.mpr hfew
    simp [hfew', modTimeUp, hsince]

theorem sleepGo_of_none {p : Port} {m : Mod} (h : m.power.sleepAfter = none) : sleepGo p m = m := if_pos (by simp [h])

/-- R324: GO ends its line write, and makes its entries visible. -/
theorem goDone_of_pulled {p : Port} {a i : Nat} {w : OpenWrite} {s : State} (h : talking p s) (hsleep : s.m.power.sleepAfter = none)
    (hfind : (s.m.rings.get p).writes.findIdx? (fun w => w.addr == a && w.pulled) = some i) (hw : (s.m.rings.get p).writes[i]? = some w)
    (hring : w.ring < 256) (hquiet : cfgIrq (ringAt s.m p w.ring).cfg = false ∨
      ((madeVisible w (ringAt s.m p w.ring)).modCount < cfgModCount (ringAt s.m p w.ring).cfg ∧ (ringAt s.m p w.ring).modSince = none)) :
    goDone p a s.m = onRing p w.ring (madeVisible w) (onRings p (fun x => { x with writes := x.writes.eraseIdx i }) (touch s.m)) := by
  have hget : (s.m.rings.get p).writes.getD i default = w := by rw [List.getD_eq_getElem?_getD, hw, Option.getD_some]
  have hlow : ¬ 256 ≤ w.ring := Nat.not_le.mpr hring
  have hat : ringAt (onRings p (fun x => { x with writes := x.writes.eraseIdx i }) (touch s.m)) p w.ring = ringAt s.m p w.ring :=
    ringAt_of_table_eq (by rw [onRings_rings, Two_get_set]; rfl) _
  simp only [goDone, h.2.1, Bool.not_true, Bool.false_eq_true, if_false, wake_touch_of_talking h, touch_rings, hfind, hget, hlow]
  generalize hx : onRings p (fun x : RingsSt => { x with writes := x.writes.eraseIdx i }) (touch s.m) = x at hat
  have hsleep' : x.power.sleepAfter = none := by rw [← hx]; exact hsleep
  rw [onRing_congr (g := madeVisible w) rfl, checkSignal_of_quiet (by rw [ringAt_onRing_self, hat]; exact hquiet)]
  exact sleepGo_of_none hsleep'

/-- A message of a ring leaves once its time has passed, and its count begins anew (R335). -/
theorem checkSignal_of_due {p : Port} {r : Nat} {m : Mod} (hviral : (m.ports.get p).viralRx = false) (hdue : modTimeUp m (ringAt m p r) = true)
    (hirq : cfgIrq (ringAt m p r).cfg = true) (hcount : (ringAt m p r).modCount ≠ 0) : checkSignal p r m = ringSignal p r m := by
  have hnone : ¬ (!cfgIrq (ringAt m p r).cfg || decide ((ringAt m p r).modCount = 0) || contained m p) = true := by
    simp [hirq, hcount, contained, hviral]
  exact (if_neg hnone).trans (if_pos (by simp [hdue]))

theorem msix_of_open {p : Port} {v : Nat} {m : Mod} (hreset : (m.ports.get p).inReset = false) (hlink : (m.ports.get p).linkUp = true)
    (hon : (m.ports.get p).msixOn.contains v = true) :
    msix p v m = send (.msix p v (tabGet (0, 0) (m.ports.get p).msixTab v).1 (tabGet (0, 0) (m.ports.get p).msixTab v).2) m := by
  unfold msix
  rw [if_neg (by simp [hreset, hlink]), if_neg (by rw [hon]; decide)]

/-- Settles O33, by the commands of line writes and messages. -/
theorem lineWritesAndMessagesLeave : Obligations.LineWritesAndMessagesLeave := by
  refine ⟨fun p a i w s h hsent hfind hw => ?_, fun p a i w s h hsleep hfind hw hring => ?_, fun p r s hp hviral => ?_,
    fun p r s hp hviral => ?_, fun s hp => completes_of_onMod _ rfl hp rfl⟩
  case refine_1 => exact completes_of_onMod (goWritePull p a) rfl h.1 (goWritePull_of_sent h hsent hfind hw)
  case refine_2 =>
    intro g n hquiet
    refine completes_of_onMod (goDone p a) rfl h.1 ?_
    rw [goDone_of_pulled h hsleep hfind hw hring hquiet]
    refine ⟨?_, ?_, rfl, rfl⟩
    · rw [onRing_get, onRings_rings, Two_get_set]
      rfl
    · rw [ringAt_onRing_self, ringAt_of_table_eq (m := s.m) (by rw [onRings_rings, Two_get_set]; rfl)]
      rfl
  case refine_3 =>
    intro g e hdue hirq hcount
    refine completes_of_onMod _ rfl hp ?_
    have hsignal : (if modTimeUp s.m (ringAt s.m p r.val) = true then checkSignal p r.val s.m else s.m) = ringSignal p r.val s.m :=
      (if_pos hdue).trans (checkSignal_of_due hviral hdue hirq hcount)
    rw [hsignal, ringSignal]
    refine ⟨?_, fun hreset hlink hon => ?_, by rw [msix_mem]; rfl⟩
    · rw [ringAt_of_rings_eq (msix_rings ..), ringAt_onRing_self]
    · rw [msix_of_open (m := onRing p r.val _ s.m) hreset hlink hon]
      rfl
  case refine_4 =>
    intro g hruns hhost hbehind
    obtain ⟨writes, hrings, hmem⟩ := shadowWrite_writes p r.val s.m
    have hgoes : (g.state == 1 && hostProduced (cfgType g.cfg) && g.shadowed != g.midx) = true := by simp [hruns, hhost, hbehind]
    refine completes_of_onMod _ rfl hp ?_
    dsimp only
    rw [if_pos hgoes]
    refine ⟨?_, ⟨⟨g.shadow.toNat, 256 + r.val, g.midx.setWidth 512, g.midx, false⟩, ?_, rfl, rfl, rfl, rfl⟩, ringWork_mem (shadowWrite_ringWork ..)⟩
    · rw [ringAt, hrings, Two_get_set]
      exact tabGet_tabPut_self ..
    · rw [hrings, Two_get_set]
      exact hmem hviral

/-! ### Reads of doorbell lines (R249, R328) -/

/-- What reading a doorbell line leaves alone, and that a line of a running ring is then read. -/
structure DoorbellRead (p : Port) (m m' : Mod) : Prop where
  rings : m'.rings = m.rings
  mem : m'.mem = m.mem
  held : (m'.ports.get p).dbHeld = (m.ports.get p).dbHeld
  viral : (m'.ports.get p).viralRx = (m.ports.get p).viralRx
  opens : ∀ b, dbReading m p b = true → dbReading m' p b = true

theorem doorbellRead_refl (p : Port) (m : Mod) : DoorbellRead p m m := ⟨rfl, rfl, rfl, rfl, fun _ h => h⟩

theorem doorbellRead_trans (p : Port) (a b c : Mod) (h : DoorbellRead p a b) (k : DoorbellRead p b c) : DoorbellRead p a c :=
  ⟨k.rings.trans h.rings, k.mem.trans h.mem, k.held.trans h.held, k.viral.trans h.viral, fun d hd => k.opens d (h.opens d hd)⟩

theorem dbReading_d2hSend (p : Port) (k a b : Nat) (m : Mod) : dbReading (d2hSend p k a m) p b = dbReading m p b := by
  obtain ⟨_, _, _, h⟩ := d2hSend_eq p k a m
  simp only [dbReading, h, Two_get_set]

theorem readDoorbell_read (p : Port) (a : Nat) (m : Mod) : DoorbellRead p m (readDoorbell p a m) := by
  unfold readDoorbell
  split
  · exact doorbellRead_refl p m
  · obtain ⟨credit, waits, out, h⟩ := d2hSend_eq p 0 a (onPort p (fun q => { q with dbOpen := q.dbOpen ++ [(a, false)] }) m)
    refine ⟨d2hSend_rings .., d2hSend_mem .., ?_, ?_, fun b hb => ?_⟩
    · rw [h, Two_get_set, onPort_ports, Two_get_set]
    · rw [h, Two_get_set, onPort_ports, Two_get_set]
    · rw [dbReading_d2hSend, dbReading, onPort_ports, Two_get_set, List.any_append, Bool.or_eq_true]
      exact .inl hb

/-- A line of a running ring that is not being read is asked for. -/
theorem readDoorbell_of_closed {p : Port} {a : Nat} {m : Mod} (hclosed : dbReading m p a = false) (hring : lineRings m p a ≠ [])
    (hviral : (m.ports.get p).viralRx = false) :
    readDoorbell p a m = d2hSend p 0 a (onPort p (fun q => { q with dbOpen := q.dbOpen ++ [(a, false)] }) m) :=
  if_neg (by simp [hclosed, hring, contained, hviral])

theorem dbReading_readDoorbell {p : Port} {a : Nat} {m : Mod} (hring : lineRings m p a ≠ []) (hviral : (m.ports.get p).viralRx = false) :
    dbReading (readDoorbell p a m) p a = true := by
  cases hopen : dbReading m p a with
  | true => exact (readDoorbell_read p a m).opens a hopen
  | false =>
    rw [readDoorbell_of_closed hopen hring hviral, dbReading_d2hSend, dbReading, onPort_ports, Two_get_set, List.any_append, Bool.or_eq_true]
    exact .inr (by simp)

theorem lineRings_of_rings_eq {m m' : Mod} (h : m'.rings = m.rings) (p : Port) (a : Nat) : lineRings m' p a = lineRings m p a := by
  rw [lineRings, lineRings, h]

theorem lineRings_ne_nil {m : Mod} {p : Port} {x : Nat × Ring} (hx : x ∈ (m.rings.get p).rings) (hruns : x.2.state = 1 ∨ x.2.state = 3) :
    lineRings m p x.2.db.toNat ≠ [] := by
  have hmem : x.1 ∈ lineRings m p x.2.db.toNat := List.mem_map.mpr ⟨x, List.mem_filter.mpr ⟨hx, by simpa using hruns⟩, rfl⟩
  exact List.ne_nil_of_mem hmem

/-- Doorbell lines read one after another are all being read. -/
theorem dbReading_foldl_readDoorbell {p : Port} {l : List Nat} {m : Mod} (hviral : (m.ports.get p).viralRx = false)
    (hl : ∀ a ∈ l, lineRings m p a ≠ []) : ∀ a ∈ l, dbReading (l.foldl (fun m a => readDoorbell p a m) m) p a = true := by
  induction l generalizing m with
  | nil => exact fun a ha => absurd ha List.not_mem_nil
  | cons b l ih =>
    have hread := readDoorbell_read p b m
    have hrest := foldl_rel (DoorbellRead p) (doorbellRead_refl p) (doorbellRead_trans p) (fun m a => readDoorbell p a m)
      (fun m a => readDoorbell_read p a m) l (readDoorbell p b m)
    intro a ha
    rw [List.foldl_cons]
    rcases List.mem_cons.mp ha with rfl | hlater
    · exact hrest.opens a (dbReading_readDoorbell (hl a List.mem_cons_self) hviral)
    · refine ih (hread.viral.trans hviral) (fun c hc => ?_) a hlater
      rw [lineRings_of_rings_eq hread.rings]
      exact hl c (List.mem_cons_of_mem b hc)

/-- R328: a poll reads the line of every ring that runs or drains. -/
theorem doorbellPoll_reads {p : Port} {m : Mod} (htalks : portTalks m p = true) (hviral : (m.ports.get p).viralRx = false) :
    DoorbellRead p m (doorbellPoll p m) ∧
      ∀ x ∈ (m.rings.get p).rings, x.2.state = 1 ∨ x.2.state = 3 → dbReading (doorbellPoll p m) p x.2.db.toNat = true := by
  simp only [doorbellPoll, htalks, Bool.not_true, Bool.false_eq_true, if_false]
  refine ⟨foldl_rel (DoorbellRead p) (doorbellRead_refl p) (doorbellRead_trans p) _ (fun m a => readDoorbell_read p a m) _ _,
    fun x hx hruns => dbReading_foldl_readDoorbell hviral (fun a ha => ?_) _ ?_⟩
  · obtain ⟨y, hy, rfl⟩ := List.mem_map.mp (List.mem_eraseDups.mp ha)
    obtain ⟨hlisted, hyruns⟩ := List.mem_filter.mp hy
    exact lineRings_ne_nil hlisted (by simpa using hyruns)
  · exact List.mem_eraseDups.mpr (List.mem_map.mpr ⟨x, List.mem_filter.mpr ⟨hx, by simpa using hruns⟩, rfl⟩)

/-! ### A ring starts and stops (R336 to R338) -/

/-- The ring that a configuration starts. -/
def startedRing (old : Ring) (cfg : Word64) : Ring :=
  { initRing with base := old.base, cfg := cfg, db := old.db, shadow := old.shadow, state := 1, check := 1, reservedPos := old.reservedPos }

theorem startRing_of_closed {q : Port} {r : Nat} {cfg : Word64} {m : Mod} (hclosed : dbReading m q (ringAt m q r).db.toNat = false) :
    startRing q r cfg m = readDoorbell q (ringAt m q r).db.toNat (onRing q r (fun _ => startedRing (ringAt m q r) cfg) m) := by
  simp only [startRing, hclosed, Bool.false_eq_true, if_false]
  rfl

/-- A ring that a table lists under a number. -/
theorem mem_onRing (q : Port) (r : Nat) (f : Ring → Ring) (m : Mod) : (r, f (ringAt m q r)) ∈ ((onRing q r f m).rings.get q).rings := by
  rw [onRing_get]
  exact List.mem_append_right _ List.mem_cons_self

/-- A ring that starts has both counts 0, and its doorbell line is read for the check (R337). -/
theorem startRing_starts {q : Port} {r : Nat} {cfg : Word64} {m : Mod} (hviral : (m.ports.get q).viralRx = false)
    (hclosed : dbReading m q (ringAt m q r).db.toNat = false) :
    ringAt (startRing q r cfg m) q r = startedRing (ringAt m q r) cfg ∧
      dbReading (startRing q r cfg m) q (ringAt m q r).db.toNat = true ∧ (startRing q r cfg m).mem = m.mem ∧
      ((m.ports.get q).d2hCredit ≠ 0 → cacheOn (m.ports.get q) = true →
        (startRing q r cfg m).out = .rdShared q (ringAt m q r).db.toNat :: m.out) := by
  rw [startRing_of_closed hclosed]
  have hat : ringAt (onRing q r (fun _ => startedRing (ringAt m q r) cfg) m) q r = startedRing (ringAt m q r) cfg := ringAt_onRing_self ..
  have hline : lineRings (onRing q r (fun _ => startedRing (ringAt m q r) cfg) m) q (ringAt m q r).db.toNat ≠ [] :=
    lineRings_ne_nil (mem_onRing q r (fun _ => startedRing (ringAt m q r) cfg) m) (.inl rfl)
  have hread := readDoorbell_read q (ringAt m q r).db.toNat (onRing q r (fun _ => startedRing (ringAt m q r) cfg) m)
  refine ⟨(ringAt_of_rings_eq hread.rings q r).trans hat, dbReading_readDoorbell hline hviral, hread.mem, fun hcredit hcache => ?_⟩
  rw [readDoorbell_of_closed (m := onRing q r (fun _ => startedRing (ringAt m q r) cfg) m) hclosed hline hviral]
  generalize (ringAt m q r).db.toNat = a
  have hsent : ∀ x : Mod, contained x q = false → (x.ports.get q).d2hCredit ≠ 0 → cacheOn (x.ports.get q) = true →
      (d2hSend q 0 a x).out = .rdShared q a :: x.out := fun x hx hxcredit hxcache => by
    simp [d2hSend, hx, hxcredit, hxcache]
  refine hsent _ ?_ ?_ ?_
  · rw [contained, onPort_ports, Two_get_set]
    exact hviral
  · rw [onPort_ports, Two_get_set]
    exact hcredit
  · rw [onPort_ports, Two_get_set]
    exact hcache

/-- A host-produced ring of a type without a pair, once it has stopped. -/
def stoppedRing (cfg : Word64) (g : Ring) : Ring :=
  { g with shadowed := g.midx, cfg := cfg, state := 0, full := false, wait := [], check := 0 }

/-- The state of a module in which such a ring has been disabled, before the ring engines fetch on. -/
structure RingStopped (q : Port) (r : Nat) (cfg : Word64) (m x : Mod) : Prop where
  ring : ringAt x q r = stoppedRing cfg (ringAt m q r)
  held : (x.rings.get q).held.all (fun y => y.1 != r) = true
  reads : (x.rings.get q).reads.all (fun y => y.1 != r) = true
  mem : x.mem = m.mem

theorem ringDrops_of_unpaired {q : Port} {r : Nat} {m : Mod} (hty : cfgType (ringAt m q r).cfg = 2 ∨ cfgType (ringAt m q r).cfg = 4 ∨
    cfgType (ringAt m q r).cfg = 5) : ringDrops q r m = onRings q (fun s => { s with
      reads := s.reads.map (fun x => if x.1 == r then (512, x.2) else x)
      held := s.held.filter (fun x => x.1 != r)
      writes := s.writes.map (fun w => if w.ring == r then { w with ring := 512 } else w) }) m := by
  have hpair : (cfgType (ringAt m q r).cfg == 6 || cfgType (ringAt m q r).cfg == 8) = false := by
    rcases hty with h | h | h <;> rw [h] <;> rfl
  simp only [ringDrops, hpair, Bool.false_eq_true, if_false]

theorem stopRing_of_unpaired {q : Port} {r : Nat} {cfg : Word64} {m : Mod} (hr : r < 256)
    (hty : cfgType (ringAt m q r).cfg = 2 ∨ cfgType (ringAt m q r).cfg = 4 ∨ cfgType (ringAt m q r).cfg = 5) :
    ∃ x, stopRing q r cfg m = fetchPump x ∧ RingStopped q r cfg m x := by
  have hkinds : hostProduced (cfgType (ringAt m q r).cfg) = true ∧ (cfgType (ringAt m q r).cfg == 7 || cfgType (ringAt m q r).cfg == 9) = false ∧
      (cfgType (ringAt m q r).cfg == 1) = false ∧ (cfgType (ringAt m q r).cfg == 6 || cfgType (ringAt m q r).cfg == 8) = false := by
    rcases hty with h | h | h <;> rw [h] <;> exact ⟨rfl, rfl, rfl, rfl⟩
  obtain ⟨hhost, hdrains, hgrants, hpaired⟩ := hkinds
  have hdrops := ringDrops_of_unpaired hty
  have hat : ringAt (ringDrops q r m) q r = ringAt m q r := ringAt_of_table_eq (by rw [hdrops, onRings_rings, Two_get_set]) r
  obtain ⟨writes, hrings, -⟩ := shadowWrite_writes q r (ringDrops q r m)
  have hmem : (shadowWrite q r (ringDrops q r m)).mem = m.mem := by
    rw [ringWork_mem (shadowWrite_ringWork ..), hdrops]
    rfl
  have hshadow : ringAt (shadowWrite q r (ringDrops q r m)) q r = { ringAt m q r with shadowed := (ringAt m q r).midx } := by
    rw [← hat, ringAt, hrings, Two_get_set]
    exact tabGet_tabPut_self ..
  refine ⟨dropUnnamed q (onRing q r (fun g => { g with cfg := cfg, state := 0, full := false, wait := [], check := 0 })
    (shadowWrite q r (ringDrops q r m))), ?_, ?_, ?_, ?_, hmem⟩
  · simp only [stopRing, hhost, hdrains, hgrants, hpaired, Bool.false_and, Bool.false_eq_true, if_false, if_true]
  · exact (ringAt_onRing_self ..).trans (by rw [hshadow]; rfl)
  · have hheld : ((shadowWrite q r (ringDrops q r m)).rings.get q).held = (m.rings.get q).held.filter (fun x => x.1 != r) := by
      rw [hrings, Two_get_set, hdrops, onRings_rings, Two_get_set]
    simp only [dropUnnamed, onPort_rings, onRing_get, hheld]
    exact List.all_eq_true.mpr fun y hy => (List.mem_filter.mp hy).2
  · have hreads : ((shadowWrite q r (ringDrops q r m)).rings.get q).reads =
        (m.rings.get q).reads.map (fun x => if x.1 == r then (512, x.2) else x) := by
      rw [hrings, Two_get_set, hdrops, onRings_rings, Two_get_set]
    simp only [dropUnnamed, onPort_rings, onRing_get, hreads]
    refine List.all_eq_true.mpr fun y hy => ?_
    obtain ⟨x, -, rfl⟩ := List.mem_map.mp hy
    have hother : 512 ≠ r := by omega
    by_cases hx : x.1 = r <;> simp [hx, hother]

/-! ### RING_CFG as it is written -/

/-- A write of RING_CFG through a port is an access behind that port's BAR. -/
theorem completes_ringCfgWrite {enable : Bool} {src : Source} {p q : Port} {r : RingNo} {value : Word64} {s : State} {P : Mod → Prop}
    (hs : reachable p s) (hsrc : src.port = some p) (hP : P (ringCfgWrite src q r.val value (touch s.m))) :
    completes (if enable then .ringEnable src q r value else .ringDisable src q r value) s P := by
  have haccess : sourceAccess src (ringRegOff q r.val 1) value (ringCfgWrite src q r.val value) =
      portAccess p (ringCfgWrite src q r.val value) := by
    funext m
    rw [sourceAccess, hsrc]
  refine completes_of_reachable (ringCfgWrite src q r.val value) ?_ hs hP
  rw [← haccess]
  cases enable <;> rfl

theorem completes_ringCfgWrite_sideband {enable : Bool} {q : Port} {r : RingNo} {value : Word64} {s : State} {P : Mod → Prop}
    (hp : s.fe.powered = true) (hir : s.m.conn.ir ≠ 3) (hrun : s.m.power.state = 0) (hP : P (ringCfgWrite .sideband q r.val value s.m)) :
    completes (if enable then .ringEnable .sideband q r value else .ringDisable .sideband q r value) s P := by
  have haccess : sourceAccess .sideband (ringRegOff q r.val 1) value (ringCfgWrite .sideband q r.val value) s.m =
      ringCfgWrite .sideband q r.val value s.m := by
    simp [sourceAccess, Source.port, pinsHeld_of_ir hir, wake_of_run 6 s.m hrun, sideAccess, blocksUp_of_run hrun]
  refine completes_of_onMod (sourceAccess .sideband (ringRegOff q r.val 1) value (ringCfgWrite .sideband q r.val value)) ?_ hp (haccess ▸ hP)
  cases enable <;> rfl

theorem ringCfgWrite_of_sideband (q : Port) (r : Nat) (v : Word64) (m : Mod) :
    ringCfgWrite .sideband q r v m = regError (ringRegOff q r 1) 2 6 m := rfl

section
variable {src : Source} {q : Port} {r : Nat} {v : Word64} {m : Mod}

theorem source_ne_sideband_of_port {p : Port} (h : src.port = some p) : (src == .sideband) = false := by
  cases src <;> simp_all [Source.port]

theorem ringCfgWrite_of_other (hsrc : src.port = some q.other) : ringCfgWrite src q r v m = regError (ringRegOff q r 1) src.code 2 m := by
  have hother : (src.port != some q) = true := by rw [hsrc]; cases q <;> rfl
  simp only [ringCfgWrite, source_ne_sideband_of_port hsrc, hother, Bool.false_eq_true, if_false, if_true]

theorem ringCfgWrite_of_disabled (hsrc : src.port = some q) (hoff : cfgEnable (ringAt m q r).cfg = false)
    (hon : cfgEnable (v &&& ~~~0x0000_FFF0_0000_0000#64) = true) : ringCfgWrite src q r v m =
      if enableOk m q r (v &&& ~~~0x0000_FFF0_0000_0000#64) then startRing q r (v &&& ~~~0x0000_FFF0_0000_0000#64) m
      else onRing q r (fun g => { g with cfg := v &&& ~~~0x0000_FFF0_0000_0000#64 &&& ~~~1#64, state := 0, status := 9 }) m := by
  have hown : (src.port != some q) = false := by rw [hsrc]; cases q <;> rfl
  simp only [ringCfgWrite, source_ne_sideband_of_port hsrc, hown, hoff, hon, Bool.not_true, Bool.false_eq_true, if_false]

theorem ringCfgWrite_of_disabling (hsrc : src.port = some q) (hon : cfgEnable (ringAt m q r).cfg = true)
    (hoff : cfgEnable (v &&& ~~~0x0000_FFF0_0000_0000#64) = false)
    (hsame : ((v &&& ~~~0x0000_FFF0_0000_0000#64) ^^^ (ringAt m q r).cfg) &&& ~~~1#64 = 0) :
    ringCfgWrite src q r v m = stopRing q r (v &&& ~~~0x0000_FFF0_0000_0000#64) m := by
  have hown : (src.port != some q) = false := by rw [hsrc]; cases q <;> rfl
  simp only [ringCfgWrite, source_ne_sideband_of_port hsrc, hown, hon, hoff, hsame, ne_eq, not_true_eq_false, Bool.false_eq_true, if_false, if_true]

end

/-- Settles O34: RING_CFG reaches the ring engine through the ring's own port alone; a start, a refusal and a stop are then the three branches
of the register's write. -/
theorem ringsStartAndStop : Obligations.RingsStartAndStop := by
  unfold Obligations.RingsStartAndStop
  refine ⟨?enabling, ?sideband, ?otherPort, ?disabling, ?poll⟩
  case enabling =>
    intro src q r value s hs hsrc v g hoff hon hviral
    have hwrite : ringCfgWrite src q r.val value (touch s.m) = if enableOk s.m q r.val v then startRing q r.val v (touch s.m)
        else onRing q r.val (fun g => { g with cfg := v &&& ~~~1#64, state := 0, status := 9 }) (touch s.m) :=
      ringCfgWrite_of_disabled (m := touch s.m) hsrc hoff hon
    refine ⟨fun hok hclosed => completes_ringCfgWrite (enable := true) hs hsrc ?_, fun hbad => completes_ringCfgWrite (enable := true) hs hsrc ?_⟩
    · rw [hwrite, if_pos hok]
      obtain ⟨hring, hreads, hmem, hout⟩ := startRing_starts (q := q) (r := r.val) (cfg := v) (m := touch s.m) hviral hclosed
      exact ⟨by rw [hring]; rfl, by rw [hring]; rfl, by rw [hring]; rfl, by rw [hring]; rfl, by rw [hring]; rfl, by rw [hring]; rfl,
        hreads, hmem, hout⟩
    · rw [hwrite, if_neg (by simpa using hbad)]
      exact ⟨ringAt_onRing_self .., rfl, rfl⟩
  case sideband =>
    intro q r value s hp hir hrun
    exact ⟨completes_ringCfgWrite_sideband (enable := true) hp hir hrun (ringCfgWrite_of_sideband ..),
      completes_ringCfgWrite_sideband (enable := false) hp hir hrun (ringCfgWrite_of_sideband ..)⟩
  case otherPort =>
    intro src q r value s hs hsrc
    exact ⟨completes_ringCfgWrite (enable := true) hs hsrc (ringCfgWrite_of_other hsrc),
      completes_ringCfgWrite (enable := false) hs hsrc (ringCfgWrite_of_other hsrc)⟩
  case disabling =>
    intro src q r value s hs hsrc v g hon hoff hsame hty
    refine completes_ringCfgWrite (enable := false) hs hsrc ?_
    rw [ringCfgWrite_of_disabling (m := touch s.m) hsrc hon hoff hsame]
    obtain ⟨x, hx, hstopped⟩ := stopRing_of_unpaired (cfg := v) (m := touch s.m) r.isLt hty
    refine ⟨x, hx, ?_, ?_, ?_, ?_, ?_, hstopped.held, hstopped.reads, hstopped.mem⟩ <;> rw [hstopped.ring] <;> rfl
  case poll =>
    intro p s hp htalks hviral
    refine completes_of_onMod (doorbellPoll p) rfl hp ?_
    obtain ⟨hread, hall⟩ := doorbellPoll_reads htalks hviral
    exact ⟨hall, hread.rings, hread.mem, hread.held⟩

/-! ### The event rings (R342, R516) -/

/-- Port A's ring table lists ring 0 twice, closed and then running as the event ring, and the FIFO holds one entry. -/
def eventRingShadowed : State :=
  { State.reset with
    fe := { State.reset.fe with powered := true }
    m := { State.reset.m with
      ev := { State.reset.m.ev with fifo := [⟨0, 0x0102, 0, 0, 0, 0, 0, false, false⟩] }
      ports := ⟨{ State.reset.m.ports.a with linkUp := true, inReset := false }, State.reset.m.ports.b⟩
      rings := ⟨{ initRings with rings := [(0, { initRing with state := 1, hidx := 1 }), (0, { initRing with state := 1, cfg := 21 })] }, initRings⟩ } }

theorem eventRingShadowed_has_room : eventRing eventRingShadowed.m .a = some 0 ∧ eventRing eventRingShadowed.m .b = none ∧
    ringRoom eventRingShadowed.m .a 0 = true := by decide

theorem eventPost_eventRingShadowed : (eventPost eventRingShadowed.m).ev.fifo.length = 1 := by rfl

/-- Refutes O57: the event ring of a port is found by any entry of its ring table, while the ring that is posted to is the table's first entry of
that number. With a ring 0 of no type listed before an event ring 0, the one entry stays in the FIFO though the event ring is enabled and has
room (the model's own writes list a ring once, but no premise says so). -/
theorem not_eventsArePostedInOrder : ¬ Obligations.EventsArePostedInOrder := by
  rintro ⟨-, hposts⟩
  obtain ⟨hring, hother, hroom⟩ := eventRingShadowed_has_room
  obtain ⟨m', hexec, hfifo, -⟩ := hposts .a 0 ⟨0, 0x0102, 0, 0, 0, 0, 0, false, false⟩ [] eventRingShadowed rfl hring hother hroom rfl rfl rfl
    (fun x hx => by simp at hx)
  have hm : m' = eventPost eventRingShadowed.m := module_of_exec rfl rfl hexec
  have hkept := eventPost_eventRingShadowed
  rw [← hm, hfifo] at hkept
  exact absurd hkept (by decide)

end Sys2Proof.Machine
end

