-- ==== Sys2Proof/Proofs/QueueSetUp.lean ====
section
/-! PROOFS. The set-up commands of the packet buffer service and of the counter pools (O45): a command with a source buffer, a table's entry, and the
runs of a pool that starts. -/
namespace Sys2Proof.Machine

open Sys2Proof.Stmt

/-! ### A command with a source buffer -/

theorem withSource_of_refused {h : AdminHdr} {c : AdminTag} {x : AdminWork} {w : Word64} {n : Nat} {run : Option (List Byte) → Mod → Mod} {m : Mod}
    (hbuf : bufOk m h.port w n = false) : withSource h c x w n run m = run none (bufRefuse h.port w n m) := by
  simp [withSource, hbuf]

theorem withSource_of_waiting {h : AdminHdr} {c : AdminTag} {x : AdminWork} {w : Word64} {n : Nat} {run : Option (List Byte) → Mod → Mod} {m : Mod}
    {ids : List Nat} {y : Mod} (hbuf : bufOk m h.port w n = true) (hreads : readRange (adminBy m h.port) w n m = (ids, y))
    (hwait : answered y ids = false ∨ objectBusy y c x = true) : withSource h c x w n run m = park c x ids y := by
  rcases hwait with hwait | hwait <;> simp [withSource, hbuf, hreads, hwait]

theorem withSource_of_answered {h : AdminHdr} {c : AdminTag} {x : AdminWork} {w : Word64} {n : Nat} {run : Option (List Byte) → Mod → Mod} {m : Mod}
    {ids : List Nat} {y : Mod} (hbuf : bufOk m h.port w n = true) (hreads : readRange (adminBy m h.port) w n m = (ids, y))
    (hhere : answered y ids = true) (hfree : objectBusy y c x = false) : withSource h c x w n run m =
      run (if anyBad y ids then none else some (rangeBytes y ids w n)) (dropAcc ids y) := by
  simp [withSource, hbuf, hreads, hhere, hfree, sourceBytes]

/-- A command that takes its entry from a source buffer is settled by what it makes of the bytes. -/
theorem setsFrom_of_admin {c : Instr} {h : AdminHdr} {op : BitVec 16} {ok : Bool} {work : AdminWork} {w : Word64} {n bad : Nat} {s : State}
    {P : List Byte → Mod → Mod → Prop} (run : AdminTag → Option (List Byte) → Mod → Mod)
    (hc : exec c s = .next (onMod (admin h op ok (fun t m => withSource h t work w n (run t) m)) s)) (hok : ok = true)
    (hnone : ∀ m, run (tagOf h op) none m = done (tagOf h op) bad m) (hsome : ∀ l x, P l x (run (tagOf h op) (some l) x)) :
    setsFrom c h op work w n bad s P := by
  intro ha b
  have hrun : ∀ {Q : Mod → Prop}, Q (withSource h (tagOf h op) work w n (run (tagOf h op)) b) → completes c s Q :=
    fun hQ => completes_of_inRange _ hc ha hok hQ
  refine ⟨fun hbuf => hrun ?_, fun hbuf ids x hreads => ⟨fun hwait => hrun ?_, fun hhere hfree => ⟨fun hbad => hrun ?_, fun hgood => hrun ?_⟩⟩⟩
  · rw [withSource_of_refused hbuf, hnone]
  · rw [withSource_of_waiting hbuf hreads hwait]
  · rw [withSource_of_answered hbuf hreads hhere hfree, if_pos hbad, hnone]
  · rw [withSource_of_answered hbuf hreads hhere hfree, if_neg (by simp [hgood])]
    exact hsome _ _

/-! ### The runs of a pool that starts (R345) -/

/-- A run in the state of reset, but for its being out of service. -/
def freed (r : Run) : Run := { initRun with dead := r.dead }

@[simp] theorem runAt_onRun_self (n : Nat) (f : Run → Run) (m : Mod) : runAt (onRun n f m) n = f (runAt m n) := by
  unfold onRun runAt
  by_cases h : f (tabGet initRun m.qs.runs n) = initRun
  · simp [h]
  · simp [h]

theorem runAt_onRun_of_ne {n j : Nat} (h : j ≠ n) (f : Run → Run) (m : Mod) : runAt (onRun n f m) j = runAt m j := by
  unfold onRun runAt
  by_cases hreset : f (tabGet initRun m.qs.runs n) = initRun
  · simp [hreset, tabGet_tabDel_of_ne _ _ _ h]
  · simp [hreset, tabGet_tabPut_of_ne _ _ _ _ h]

theorem foldl_wbDel_eq (l : List Nat) (m : Mod) : ∃ wbuf wbWait, l.foldl (fun m da => wbDel da m) m = { m with wbuf := wbuf, wbWait := wbWait } := by
  induction l generalizing m with
  | nil => exact ⟨m.wbuf, m.wbWait, rfl⟩
  | cons a l ih =>
    obtain ⟨wbuf, wbWait, h⟩ := ih (wbDel a m)
    exact ⟨wbuf, wbWait, h⟩

/-- A run that is freed takes its group writes, its place in the assembly and its reads with it. -/
theorem freeRun_eq (n : Nat) (m : Mod) : ∃ packs wbuf wbWait reads,
    freeRun n m = onRun n freed { m with packs := packs, wbuf := wbuf, wbWait := wbWait, qs := { m.qs with reads := reads } } := by
  unfold freeRun
  extract_lets a gone clear b
  have hclear : ∀ (pk : Pack) (x : Mod), ∃ packs wbuf wbWait, clear pk x = { x with packs := packs, wbuf := wbuf, wbWait := wbWait } := by
    intro pk x
    obtain ⟨wbuf, wbWait, h⟩ := foldl_wbDel_eq ((((x.packs[pk] : PackSt).queue ++ (x.packs[pk] : PackSt).waiting).filter gone).flatMap reqBatts) x
    exact ⟨_, wbuf, wbWait, by simp only [clear, h, onPack]; rfl⟩
  obtain ⟨packs, wbuf, wbWait, hfirst⟩ := hclear (daPack (a + 256)) m
  obtain ⟨packs', wbuf', wbWait', hsecond⟩ := hclear (daPack a) (clear (daPack (a + 256)) m)
  have hb : b = { m with packs := packs', wbuf := wbuf', wbWait := wbWait' } := hsecond.trans (by rw [hfirst])
  refine ⟨packs', wbuf', wbWait', m.qs.reads.filter (fun e => e.run != n), ?_⟩
  change onRun n freed { b with qs := { b.qs with reads := b.qs.reads.filter (fun e => e.run != n) } } = _
  rw [hb]

theorem runAt_of_runs_eq {m m' : Mod} (h : m'.qs.runs = m.qs.runs) (n : Nat) : runAt m' n = runAt m n := by
  rw [runAt, runAt, h]

@[simp] theorem freeRun_pools (n : Nat) (m : Mod) : (freeRun n m).qs.pools = m.qs.pools := by
  obtain ⟨_, _, _, _, h⟩ := freeRun_eq n m
  rw [h]
  rfl

@[simp] theorem freeRun_mem (n : Nat) (m : Mod) : (freeRun n m).mem = m.mem := by
  obtain ⟨_, _, _, _, h⟩ := freeRun_eq n m
  rw [h]
  rfl

theorem runAt_freeRun (n j : Nat) (m : Mod) : runAt (freeRun n m) j = if j = n then freed (runAt m j) else runAt m j := by
  obtain ⟨_, _, _, _, h⟩ := freeRun_eq n m
  rw [h]
  split
  next hj =>
    subst hj
    rw [runAt_onRun_self]
    exact congrArg freed (runAt_of_runs_eq rfl j)
  next hj =>
    rw [runAt_onRun_of_ne hj]
    exact runAt_of_runs_eq rfl j

@[simp] theorem freed_freed (r : Run) : freed (freed r) = freed r := rfl

/-- Runs freed one after the other: each of them is, the others stand. -/
theorem runAt_foldl_freeRun (l : List Nat) (j : Nat) (m : Mod) :
    runAt (l.foldl (fun m n => freeRun n m) m) j = if j ∈ l then freed (runAt m j) else runAt m j := by
  induction l generalizing m with
  | nil => rfl
  | cons n l ih =>
    rw [List.foldl_cons, ih, runAt_freeRun]
    by_cases hn : j = n <;> by_cases hl : j ∈ l <;> simp [hn, hl]

theorem foldl_freeRun_frame (l : List Nat) (m : Mod) : (l.foldl (fun m n => freeRun n m) m).qs.pools = m.qs.pools ∧
    (l.foldl (fun m n => freeRun n m) m).mem = m.mem := by
  induction l generalizing m with
  | nil => exact ⟨rfl, rfl⟩
  | cons n l ih =>
    obtain ⟨hpools, hmem⟩ := ih (freeRun n m)
    rw [List.foldl_cons]
    exact ⟨hpools.trans (freeRun_pools n m), hmem.trans (freeRun_mem n m)⟩

/-- A run that no table lists is free. -/
theorem runAt_of_unlisted {m : Mod} {n : Nat} (h : n ∉ m.qs.runs.map (·.1)) : runAt m n = initRun := by
  have hnone : m.qs.runs.find? (fun e => e.1 == n) = none :=
    List.find?_eq_none.mpr fun e he heq => h (List.mem_map.mpr ⟨e, he, by simpa using heq⟩)
  rw [runAt, tabGet, hnone]

/-- Freeing the listed runs of a pool frees every run of it. -/
theorem runAt_freed_poolRuns (p : CellPool) (m : Mod) (n : Nat) :
    runAt ((poolRuns m p (fun _ => true)).foldl (fun m n => freeRun n m) m) n =
      if p.runBase ≤ n ∧ n < p.runBase + p.runCount then freed (runAt m n) else runAt m n := by
  have hmem : n ∈ poolRuns m p (fun _ => true) ↔ n ∈ m.qs.runs.map (·.1) ∧ p.runBase ≤ n ∧ n < p.runBase + p.runCount := by
    simp only [poolRuns, List.mem_map, List.mem_filter, Bool.and_true, Bool.and_eq_true, decide_eq_true_eq]
    constructor
    · rintro ⟨e, ⟨he, hrange⟩, rfl⟩
      exact ⟨⟨e, he, rfl⟩, hrange⟩
    · rintro ⟨⟨e, he, rfl⟩, hrange⟩
      exact ⟨e, ⟨he, hrange⟩, rfl⟩
  rw [runAt_foldl_freeRun]
  by_cases hrange : p.runBase ≤ n ∧ n < p.runBase + p.runCount
  · rw [if_pos hrange]
    split
    next => rfl
    next hout =>
      rw [runAt_of_unlisted fun hlisted => hout (hmem.mpr ⟨hlisted, hrange⟩)]
      rfl
  · rw [if_neg hrange, if_neg fun hin => hrange (hmem.mp hin).2]

/-! ### Pools (R343, R344) -/

/-- An entry stands in the table of the cell pools. -/
def putPool (k : Nat) (p : CellPool) (m : Mod) : Mod := { m with qs := { m.qs with pools := tabPut m.qs.pools k p } }

theorem poolApply_of_starting {k : Nat} {p : CellPool} {m : Mod} (h : (p.enable && !(poolAt m k).enable) = true) : poolApply k p m =
    putPool k { p with posted := [] } ((poolRuns m p (fun _ => true)).foldl (fun m n => freeRun n m) m) := by
  simp only [poolApply, h, if_true]
  rfl

theorem poolApply_of_not_starting {k : Nat} {p : CellPool} {m : Mod} (h : (p.enable && !(poolAt m k).enable) = false) :
    poolApply k p m = putPool k p m := by
  simp only [poolApply, h, Bool.false_eq_true, if_false]
  rfl

theorem poolAt_putPool_of_ne {k j : Nat} (h : j ≠ k) (p : CellPool) (m : Mod) : poolAt (putPool k p m) j = poolAt m j :=
  tabGet_tabPut_of_ne _ _ _ _ h

@[simp] theorem poolAt_putPool_self (k : Nat) (p : CellPool) (m : Mod) : poolAt (putPool k p m) k = p := tabGet_tabPut_self ..

theorem poolAt_of_pools_eq {m m' : Mod} (h : m'.qs.pools = m.qs.pools) (k : Nat) : poolAt m' k = poolAt m k := by
  rw [poolAt, poolAt, h]

/-- A pool's entry is in force: it is what the table gives, the other pools stand, and the runs of one that starts are free. -/
theorem poolApply_spec (k : Nat) (p : CellPool) (x : Mod) :
    poolAt (poolApply k p x) k = (if p.enable && !(poolAt x k).enable then { p with posted := [] } else p) ∧
      (∀ j, j ≠ k → poolAt (poolApply k p x) j = poolAt x j) ∧ (poolApply k p x).mem = x.mem ∧
      ((p.enable && !(poolAt x k).enable) = false → poolApply k p x = { x with qs := { x.qs with pools := (poolApply k p x).qs.pools } }) ∧
      ((p.enable && !(poolAt x k).enable) = true → ∀ n, runAt (poolApply k p x) n =
        if p.runBase ≤ n ∧ n < p.runBase + p.runCount then freed (runAt x n) else runAt x n) := by
  by_cases h : (p.enable && !(poolAt x k).enable) = true
  · obtain ⟨hpools, hmem⟩ := foldl_freeRun_frame (poolRuns x p (fun _ => true)) x
    rw [poolApply_of_starting h, if_pos h]
    exact ⟨poolAt_putPool_self .., fun j hj => (poolAt_putPool_of_ne hj ..).trans (poolAt_of_pools_eq hpools j), hmem,
      fun hstays => absurd h (by simp [hstays]), fun _ n => (runAt_of_runs_eq rfl n).trans (runAt_freed_poolRuns p x n)⟩
  · rw [poolApply_of_not_starting (by simpa using h), if_neg h]
    exact ⟨poolAt_putPool_self .., fun j hj => poolAt_putPool_of_ne hj .., rfl, fun _ => rfl, fun hstarts => absurd hstarts h⟩

/-! ### Replication lists (R357) -/

/-- One word of a list is put into the table; a word of 0 is not listed. -/
def putWord (base : Nat) (t : List (Nat × Word32)) (x : Nat × Word32) : List (Nat × Word32) :=
  if x.2 = 0 then tabDel t (base + x.1) else tabPut t (base + x.1) x.2

theorem tabGet_putWord (base : Nat) (t : List (Nat × Word32)) (x : Nat × Word32) (j : Nat) :
    tabGet 0 (putWord base t x) j = if j = base + x.1 then x.2 else tabGet 0 t j := by
  unfold putWord
  by_cases hx : x.2 = 0
  · by_cases hj : j = base + x.1
    · rw [if_pos hx, if_pos hj, hj, tabGet_tabDel_self, hx]
    · rw [if_pos hx, if_neg hj, tabGet_tabDel_of_ne _ _ _ hj]
  · by_cases hj : j = base + x.1
    · rw [if_neg hx, if_pos hj, hj, tabGet_tabPut_self]
    · rw [if_neg hx, if_neg hj, tabGet_tabPut_of_ne _ _ _ _ hj]

theorem tabGet_foldl_putWord (base : Nat) (l : List (Nat × Word32)) (t : List (Nat × Word32)) (j : Nat) (v : Word32)
    (hv : ∀ x ∈ l, j = base + x.1 → x.2 = v) : tabGet 0 (l.foldl (putWord base) t) j = if ∃ x ∈ l, j = base + x.1 then v else tabGet 0 t j := by
  induction l generalizing t with
  | nil => simp
  | cons x l ih =>
    rw [List.foldl_cons, ih _ fun y hy => hv y (List.mem_cons_of_mem _ hy), tabGet_putWord]
    by_cases hx : j = base + x.1
    · simp [← hx, hv x List.mem_cons_self hx]
    · simp only [List.mem_cons, exists_eq_or_imp, hx, if_false, false_or]

/-- The words of a list, in their places. -/
def listWords (word : Nat → Word32) : List (Nat × Word32) := ((List.range 64).map word).mapIdx (fun i x => (i, x))

theorem mem_listWords {word : Nat → Word32} {x : Nat × Word32} : x ∈ listWords word ↔ x.1 < 64 ∧ x.2 = word x.1 := by
  simp only [listWords, List.mem_mapIdx, List.length_map, List.length_range, List.getElem_map, List.getElem_range]
  constructor
  · rintro ⟨i, hi, rfl⟩
    exact ⟨hi, rfl⟩
  · rintro ⟨hi, hx⟩
    exact ⟨x.1, hi, Prod.ext rfl hx.symm⟩

/-- A list in the table has its own words at its places and leaves the others. -/
theorem tabGet_listed (n : Nat) (word : Nat → Word32) (t : List (Nat × Word32)) :
    (∀ i < 64, tabGet 0 ((listWords word).foldl (putWord (n * 64)) t) (n * 64 + i) = word i) ∧
      (∀ j, j / 64 ≠ n → tabGet 0 ((listWords word).foldl (putWord (n * 64)) t) j = tabGet 0 t j) := by
  refine ⟨fun i hi => ?_, fun j hj => ?_⟩
  · rw [tabGet_foldl_putWord _ _ _ _ (word i), if_pos ⟨(i, word i), mem_listWords.mpr ⟨hi, rfl⟩, rfl⟩]
    intro x hx hplace
    rw [(mem_listWords.mp hx).2, Nat.add_left_cancel hplace]
  · rw [tabGet_foldl_putWord _ _ _ _ 0, if_neg]
    · rintro ⟨x, hx, rfl⟩
      have := (mem_listWords.mp hx).1
      omega
    · intro x hx hplace
      have := (mem_listWords.mp hx).1
      omega

/-! ### The five commands -/

theorem poolSet_some (c : AdminTag) (k : Nat) (l : List Byte) (m : Mod) :
    let old := poolAt m k
    let p := poolFrom l old
    poolSet c k (some l) m = if poolRanges l = false then done c 0x51 m else if poolPlaced m k p = false then done c 0x52 m
      else if tabHas m.qs.pools k = true ∧ sameGeometry old p = false ∧ (old.enable = true ∨ heldRuns m k (fun r => r.st != .free) ≠ []) then
        done c 0x53 m
      else done c 0x00 (poolApply k p m) :=
  if_congr (by simp) rfl (if_congr (by simp) rfl (if_congr (by simp [and_assoc]) rfl rfl))

/-- A queue with the parameters of its entry; a halted one stays halted. -/
def queueFrom (l : List Byte) (y : Queue) : Queue :=
  { y with limG := fld l 0 3, limY := fld l 3 3, limR := fld l 6 3, st := if y.st = 2 then 2 else fld l 9 1 }

theorem queueSet_some (c : AdminTag) (q : Nat) (l : List Byte) (m : Mod) : queueSet c q (some l) m =
    if 1 < fld l 9 1 ∨ fld l 10 6 ≠ 0 then done c 0x51 m else done c 0x00 (onQueue q (queueFrom l) m) := by
  by_cases hbad : 1 < fld l 9 1 ∨ fld l 10 6 ≠ 0
  · rw [if_pos hbad]
    exact if_pos (by simpa using hbad)
  · rw [if_neg hbad]
    refine (if_neg (by simpa using hbad)).trans ?_
    have hstate : (if (fld l 9 1 == 1) = true then 1 else 0) = fld l 9 1 := by
      have hle : ¬ 1 < fld l 9 1 := fun hlt => hbad (.inl hlt)
      rcases Nat.le_one_iff_eq_zero_or_eq_one.mp (Nat.not_lt.mp hle) with h | h <;> rw [h] <;> rfl
    simp only [hstate]
    rfl

theorem cpoolSet_some (c : AdminTag) (k : Nat) (l : List Byte) (m : Mod) :
    let old := cpoolAt m k
    let p : CounterPool := { old with cbase := fld l 0 4, ccount := fld l 4 4, dgran := fld l 8 2, mode := fld l 10 1, enable := fld l 11 1 == 1 }
    cpoolSet c k (some l) m = if cpoolRanges l = false then done c 0x71 m else if cpoolPlaced m k p = false then done c 0x72 m
      else if old.enable = true ∧ (p.cbase ≠ old.cbase ∨ p.ccount ≠ old.ccount ∨ p.dgran ≠ old.dgran) then done c 0x73 m
      else if old.enable = true ∧ p.enable = false then
        cpoolOff c k (flushSel (tileOf (p.dgran / 2 ^ 13)) (cpoolLine p) { m with cpools := tabPut m.cpools k p })
      else done c 0x00 { m with cpools := tabPut m.cpools k p } :=
  if_congr (by simp) rfl (if_congr (by simp) rfl (if_congr (by simp [or_assoc]) rfl (if_congr (by simp) rfl rfl)))

theorem replSet_some (c : AdminTag) (n : Nat) (l : List Byte) (m : Mod) :
    let word (i : Nat) : Word32 := BitVec.ofNat 32 (fld l (4 * i) 4)
    replSet c n (some l) m = if (List.range 64).any (fun i => bitsOf (word i) 18 13 != 0#13) then done c 0x51 m
      else done c 0x00 { m with qs := { m.qs with repl := (listWords word).foldl (putWord (n * 64)) m.qs.repl } } := by
  intro word
  simp only [replSet, List.any_map]
  rfl

/-- A word that is put into a table where 0 means that the key is not listed. -/
def putSparse (t : List (Nat × Word32)) (n : Nat) (v : Word32) : List (Nat × Word32) := if v = 0 then tabDel t n else tabPut t n v

theorem tabGet_putSparse_self (t : List (Nat × Word32)) (n : Nat) (v : Word32) : tabGet 0 (putSparse t n v) n = v := by
  unfold putSparse
  by_cases hv : v = 0
  · rw [if_pos hv, tabGet_tabDel_self, hv]
  · rw [if_neg hv, tabGet_tabPut_self]

theorem tabGet_putSparse_of_ne {j n : Nat} (h : j ≠ n) (t : List (Nat × Word32)) (v : Word32) : tabGet 0 (putSparse t n v) j = tabGet 0 t j := by
  unfold putSparse
  by_cases hv : v = 0
  · rw [if_pos hv, tabGet_tabDel_of_ne _ _ _ h]
  · rw [if_neg hv, tabGet_tabPut_of_ne _ _ _ _ h]

theorem eportSet_some (c : AdminTag) (n : Nat) (l : List Byte) (m : Mod) :
    let v : Word32 := BitVec.ofNat 32 (fld l 0 4)
    eportSet c n (some l) m = if bitsOf v 9 22 ≠ 0#22 then done c 0x51 m
      else done c 0x00 { m with qs := { m.qs with eports := putSparse m.qs.eports n v } } := rfl

/-- Settles O45: the five commands share the reading of their entry, and each is then the chain of its checks. -/
theorem setUpCommandsPutTheirEntryInForce : Obligations.SetUpCommandsPutTheirEntryInForce := by
  unfold Obligations.SetUpCommandsPutTheirEntryInForce
  refine ⟨?pool, ?queue, ?list, ?eport, ?cpool⟩
  case pool =>
    intro h k w s hk
    refine setsFrom_of_admin (fun t => poolSet t k) rfl (decide_eq_true hk) (fun _ => rfl) fun l x => ?_
    intro old p starts
    obtain ⟨hpool, hothers, hmem, hstays, hstarts⟩ := poolApply_spec k p x
    rw [poolSet_some]
    split
    next => rfl
    split
    next => rfl
    split
    next => rfl
    exact ⟨poolApply k p x, rfl, hpool, hothers, hmem, hstays, hstarts⟩
  case queue =>
    intro h q w s hq
    refine setsFrom_of_admin (fun t => queueSet t q) rfl (decide_eq_true hq) (fun _ => rfl) fun l x => ?_
    rw [queueSet_some]
    split <;> rfl
  case list =>
    intro h n w s hn
    refine setsFrom_of_admin (fun t => replSet t n) rfl (decide_eq_true hn) (fun _ => rfl) fun l x => ?_
    intro word
    rw [replSet_some]
    split
    next => rfl
    next =>
      obtain ⟨hwords, hothers⟩ := tabGet_listed n word x.qs.repl
      change ∃ y, done (tagOf h 0x0607) 0x00 { x with qs := { x.qs with repl := (listWords word).foldl (putWord (n * 64)) x.qs.repl } } = _ ∧ _
      generalize (listWords word).foldl (putWord (n * 64)) x.qs.repl = t at hwords hothers ⊢
      exact ⟨{ x with qs := { x.qs with repl := t } }, rfl, rfl, hwords, hothers⟩
  case eport =>
    intro h n w s hn
    refine setsFrom_of_admin (fun t => eportSet t n) rfl (decide_eq_true hn) (fun _ => rfl) fun l x => ?_
    intro v
    rw [eportSet_some]
    split
    next => rfl
    next => exact ⟨{ x with qs := { x.qs with eports := putSparse x.qs.eports n v } }, rfl, rfl, tabGet_putSparse_self ..,
      fun j hj => tabGet_putSparse_of_ne hj ..⟩
  case cpool =>
    intro h k w s hk
    refine setsFrom_of_admin (fun t => cpoolSet t k) rfl (decide_eq_true hk) (fun _ => rfl) fun l x => ?_
    intro old p y
    have hset : cpoolSet (tagOf h 0x0801) k (some l) x = if cpoolRanges l = false then _ else if cpoolPlaced x k p = false then _
        else if old.enable = true ∧ (p.cbase ≠ old.cbase ∨ p.ccount ≠ old.ccount ∨ p.dgran ≠ old.dgran) then _
        else if old.enable = true ∧ p.enable = false then _ else _ := cpoolSet_some ..
    rw [hset]
    split
    next => rfl
    split
    next => rfl
    split
    next => rfl
    exact ⟨⟨tabGet_tabPut_self .., fun j hj => tabGet_tabPut_of_ne _ _ _ _ hj⟩, rfl⟩

end Sys2Proof.Machine
end

