-- ==== Sys2Proof/Proofs/Runs.lean ====
section
/-! PROOFS. Runs of the packet buffer service (O47): a grant, a release, the hold sweeps and a cell write that waited. -/
namespace Sys2Proof.Machine

open Sys2Proof.Stmt

/-! ### The pools' table -/

theorem poolAt_onPool (k : Nat) (f : CellPool → CellPool) (m : Mod) (j : Nat) : poolAt (onPool k f m) j =
    if j = k ∧ tabHas m.qs.pools k = true then f (poolAt m k) else poolAt m j := by
  have hkey : ∀ l : List (Nat × CellPool), (l.map (fun e => if e.1 == k then (k, f e.2) else e)).find? (fun e => e.1 == j) =
      (l.find? (fun e => e.1 == j)).map (fun e => if e.1 == k then (k, f e.2) else e) := fun l => by
    rw [List.find?_map]
    congr 2
    funext e
    by_cases he : e.1 = k <;> simp [he]
  simp only [poolAt, onPool, tabGet, hkey]
  cases hfind : m.qs.pools.find? (fun e => e.1 == j) with
  | none =>
    have hout : ∀ e ∈ m.qs.pools, ¬ (e.1 == j) = true := List.find?_eq_none.mp hfind
    have hnot : ¬ (j = k ∧ tabHas m.qs.pools k = true) := by
      rintro ⟨rfl, hhas⟩
      obtain ⟨e, he, hej⟩ := List.any_eq_true.mp hhas
      exact hout e he hej
    rw [if_neg hnot]
    rfl
  | some e =>
    have hej : e.1 = j := by simpa using List.find?_some hfind
    by_cases hjk : j = k
    · subst hjk
      have hhas : tabHas m.qs.pools j = true := List.any_eq_true.mpr ⟨e, List.mem_of_find?_eq_some hfind, by simpa using hej⟩
      simp [hej, hhas, hfind]
    · simp [hej, hjk]

/-- A pool with an entry other than that of reset is listed. -/
theorem tabHas_of_poolAt_ne {m : Mod} {k : Nat} (h : poolAt m k ≠ default) : tabHas m.qs.pools k = true := by
  by_contra hnot
  have hnone : m.qs.pools.find? (fun e => e.1 == k) = none :=
    List.find?_eq_none.mpr fun e he hek => hnot (List.any_eq_true.mpr ⟨e, he, hek⟩)
  exact h (by rw [poolAt, tabGet, hnone])

theorem poolAt_onPool_of_listed {m : Mod} {k : Nat} (h : poolAt m k ≠ default) (f : CellPool → CellPool) :
    poolAt (onPool k f m) k = f (poolAt m k) := by
  rw [poolAt_onPool, if_pos ⟨rfl, tabHas_of_poolAt_ne h⟩]

theorem poolAt_ne_default_of {α : Type} {m : Mod} {k : Nat} (f : CellPool → α) (h : f (poolAt m k) ≠ f default) : poolAt m k ≠ default :=
  fun heq => h (by rw [heq])

/-- The pool that holds a run is listed. -/
theorem tabHas_of_poolHolding {m : Mod} {n : Nat} {e : Nat × CellPool} (h : poolHolding m n = some e) : tabHas m.qs.pools e.1 = true := by
  have hmem : e ∈ m.qs.pools := by
    unfold poolHolding at h
    split at h
    next e' he =>
      obtain rfl : e' = e := by simpa using h
      exact List.mem_of_find?_eq_some he
    next => exact List.mem_of_find?_eq_some h
  exact List.any_eq_true.mpr ⟨e, hmem, by simp⟩

@[simp] theorem runAt_onPool (k : Nat) (f : CellPool → CellPool) (m : Mod) (n : Nat) : runAt (onPool k f m) n = runAt m n := rfl

@[simp] theorem onRun_mem (n : Nat) (f : Run → Run) (m : Mod) : (onRun n f m).mem = m.mem := rfl
@[simp] theorem onRun_rings (n : Nat) (f : Run → Run) (m : Mod) : (onRun n f m).rings = m.rings := rfl
@[simp] theorem onRun_queues (n : Nat) (f : Run → Run) (m : Mod) : (onRun n f m).qs.queues = m.qs.queues := rfl
@[simp] theorem onRun_pools (n : Nat) (f : Run → Run) (m : Mod) : (onRun n f m).qs.pools = m.qs.pools := rfl

/-- Two changes that agree on the run as it stands are the same. -/
theorem onRun_congr {n : Nat} {f g : Run → Run} {m : Mod} (h : f (runAt m n) = g (runAt m n)) : onRun n f m = onRun n g m := by
  simp only [onRun, h]

@[simp] theorem freeRun_queues (n : Nat) (m : Mod) : (freeRun n m).qs.queues = m.qs.queues := by
  obtain ⟨_, _, _, _, h⟩ := freeRun_eq n m
  rw [h]
  rfl

@[simp] theorem freeRun_rings (n : Nat) (m : Mod) : (freeRun n m).rings = m.rings := by
  obtain ⟨_, _, _, _, h⟩ := freeRun_eq n m
  rw [h]
  rfl

/-! ### A run closes (R353) -/

/-- A cell group that goes to the write buffer leaves the packet buffer service's own state. -/
theorem groupPut_qs (cls : SlotClass) (label : BitVec 3) (da : Nat) (l : List (Batt × Bool)) (why : Purpose) (m : Mod) :
    (groupPut cls label da l why m).qs = m.qs := by
  unfold groupPut
  extract_lets t q x es a
  have hx : x.qs = m.qs := foldl_keep Mod.qs (fun m (y : Nat × Batt × Bool) => wbDel y.1 (hereWrite y.1 y.2.1 y.2.2 (scrubYields y.1 m)))
    (fun _ _ => rfl) ((reqBatts q).zip l) m
  split
  · exact hx
  · refine Eq.trans ?_ hx
    unfold awaitEntry
    split <;> rfl

/-- A run that closes: free without a reference, else closed; the other runs and the pools stand. -/
theorem closeRun_spec (n : Nat) (m : Mod) : (closeRun n m).qs.pools = m.qs.pools ∧ (∀ j, j ≠ n → runAt (closeRun n m) j = runAt m j) ∧
    ((runAt m n).st = .open_ → (runAt (closeRun n m) n).st = if (runAt m n).refs = 0 then .free else .closed) := by
  unfold closeRun
  extract_lets r cells y a half put
  split
  next hst => exact ⟨rfl, fun _ _ => rfl, fun hopen => absurd hopen hst⟩
  split
  next hrefs =>
    refine ⟨freeRun_pools n m, fun j hj => by rw [runAt_freeRun, if_neg hj], fun _ => ?_⟩
    rw [runAt_freeRun, if_pos rfl]
    rfl
  next hrefs =>
    have hput : ∀ o x, (put o x).qs = x.qs := fun o x => groupPut_qs ..
    have hqs : (if y.prot.stop.isSome = true then y else put 1 (put 0 y)).qs = y.qs := by
      split
      · rfl
      · rw [hput, hput]
    refine ⟨by rw [hqs]; rfl, fun j hj => ?_, fun _ => ?_⟩
    · rw [runAt_of_runs_eq (congrArg QueueSt.runs hqs)]
      exact runAt_onRun_of_ne hj ..
    · rw [runAt_of_runs_eq (congrArg QueueSt.runs hqs)]
      exact congrArg Run.st (runAt_onRun_self ..)

/-! ### Grants (R348, R349) -/

/-- A grant is posted of some free run of the bank whose turn it is. -/
theorem grantPost_spec {k bank next : Nat} {m : Mod} (hon : (poolAt m k).enable = true)
    (hroom : ringRoom m (poolAt m k).grantPort (poolAt m k).grantRing = true)
    (hty : cfgType (ringAt m (poolAt m k).grantPort (poolAt m k).grantRing).cfg = 1)
    (hbank : (bankOrder m (runTile (poolAt m k).runBase) (poolAt m k).grantPos).find? (fun b => !(bankList m (poolAt m k) b.1).isEmpty) =
      some (bank, next)) :
    ∃ n ∈ bankList m (poolAt m k) bank, grantPost k m =
        ringPost (poolAt m k).grantPort (poolAt m k).grantRing (grantEntry n k)
          (onPool k (fun p => { p with grantPos := next, posted := p.posted ++ [(n, ringKey p.grantPort p.grantRing,
              (ringAt m (poolAt m k).grantPort (poolAt m k).grantRing).midx)] })
            (onRun n (fun r => { r with st := .open_ }) { m with free := m.free + 1 })) := by
  have hsome : bankList m (poolAt m k) bank ≠ [] := by simpa using List.find?_some hbank
  have hpos : 0 < (bankList m (poolAt m k) bank).length := List.length_pos_iff.mpr hsome
  have hin := Nat.mod_lt (Config.grantPick m.free (bankList m (poolAt m k) bank).length) hpos
  refine ⟨(bankList m (poolAt m k) bank).getD (Config.grantPick m.free (bankList m (poolAt m k) bank).length % (bankList m (poolAt m k) bank).length) 0,
    ?_, ?_⟩
  · rw [List.getD_eq_getElem _ _ hin]
    exact List.getElem_mem hin
  · simp only [grantPost, hon, hroom, hty, hbank, Bool.not_true, bne_self_eq_false, Bool.or_self, Bool.false_eq_true, if_false]

/-! ### Releases (R363, R364) -/

/-- A run with one reference less. -/
def oneReleased (n f : Nat) (m : Mod) : Mod :=
  onRun n (fun r => { r with refs := r.refs - 1 }) (onRun n (fun r => { r with live := putBit r.live f false }) m)

/-- The release of a closed run's reference: one less, and the run is free with its last. -/
theorem releaseRefs_of_live {p : Port} {ref : Word32} {m : Mod} (hdead : (runAt m (refRun ref)).dead = false)
    (hclosed : (runAt m (refRun ref)).st = .closed) (hlive : (runAt m (refRun ref)).live.getLsbD (refFirst ref) = true)
    (hrepl : (runAt m (refRun ref)).repl = false) (hrefs : (runAt m (refRun ref)).refs ≠ 0) :
    releaseRefs p true [ref] m = if (runAt m (refRun ref)).refs = 1 then freeRun (refRun ref) (oneReleased (refRun ref) (refFirst ref) m)
      else oneReleased (refRun ref) (refFirst ref) m := by
  have hrelease : releaseRefs p true [ref] m = releaseRun p (refFirst ref) (refRun ref)
      (onRun (refRun ref) (fun r => { r with live := putBit r.live (refFirst ref) false }) m) := by
    simp only [releaseRefs, List.headD_cons, hdead, hclosed, hlive, hrepl]
    refine congrArg (releaseRun p (refFirst ref) (refRun ref)) ((if_pos rfl).trans (onRun_congr ?_))
    rw [hrepl]
    rfl
  rw [hrelease]
  simp only [releaseRun, runAt_onRun_self, hdead, hclosed, hrefs, Bool.false_eq_true, if_false, BEq.rfl, Bool.true_and, beq_iff_eq]
  exact if_congr (by omega) rfl rfl

/-- A release of what is not live counts in the pool that holds the run, and is reported. -/
theorem releaseRefs_of_dead {p : Port} {ref : Word32} {m : Mod} (hlive : (runAt m (refRun ref)).live.getLsbD (refFirst ref) = false) :
    ∃ x, releaseRefs p true [ref] m = doubleEvent p (refRun ref) (refFirst ref) 0 x ∧ x.qs.runs = m.qs.runs ∧
      ∀ k, (poolAt x k).double = if (poolHolding m (refRun ref)).map (·.1) = some k then min 0xFFFFFFFF ((poolAt m k).double + 1)
        else (poolAt m k).double := by
  cases hpool : poolHolding m (refRun ref) with
  | none => exact ⟨m, by simp [releaseRefs, hlive, hpool], rfl, fun k => by simp⟩
  | some e =>
    refine ⟨onPool e.1 (fun p => { p with double := satAdd 0xFFFF_FFFF p.double 1 }) m, by simp [releaseRefs, hlive, hpool], rfl, fun k => ?_⟩
    rw [poolAt_onPool, tabHas_of_poolHolding hpool]
    by_cases hk : k = e.1
    · simp [hk, satAdd]
    · simp [hk, Ne.symm hk]

/-- A release entry of one run, as the port takes it. -/
def releasing (p : Port) (rest : List (Nat × RawEntry)) (m : Mod) : Mod :=
  perfCount devPage (perfPlain 4 15) none (touch (onRings p (fun s => { s with rel := rest }) m))

@[simp] theorem releasing_qs (p : Port) (rest : List (Nat × RawEntry)) (m : Mod) : (releasing p rest m).qs = m.qs := by
  simp [releasing]

@[simp] theorem releasing_mem (p : Port) (rest : List (Nat × RawEntry)) (m : Mod) : (releasing p rest m).mem = m.mem := by
  simp [releasing]

@[simp] theorem releasing_rel (p : Port) (rest : List (Nat × RawEntry)) (m : Mod) : ((releasing p rest m).rings.get p).rel = rest := by
  simp [releasing]

section
variable {p : Port} {rest : List (Nat × RawEntry)} {n f : Nat} {m : Mod}

theorem releasing_one : runAt (oneReleased n f (releasing p rest m)) n =
      { runAt m n with refs := (runAt m n).refs - 1, live := putBit (runAt m n).live f false } ∧
    (∀ j, j ≠ n → runAt (oneReleased n f (releasing p rest m)) j = runAt m j) ∧ (oneReleased n f (releasing p rest m)).mem = m.mem ∧
    (oneReleased n f (releasing p rest m)).qs.queues = m.qs.queues ∧ (oneReleased n f (releasing p rest m)).qs.pools = m.qs.pools ∧
    ((oneReleased n f (releasing p rest m)).rings.get p).rel = rest := by
  have hrun : ∀ j, runAt (releasing p rest m) j = runAt m j := runAt_of_runs_eq (by rw [releasing_qs])
  refine ⟨?_, fun j hj => ?_, ?_, ?_, ?_, ?_⟩
  case refine_3 => rw [oneReleased, onRun_mem, onRun_mem, releasing_mem]
  case refine_4 => rw [oneReleased, onRun_queues, onRun_queues, releasing_qs]
  case refine_5 => rw [oneReleased, onRun_pools, onRun_pools, releasing_qs]
  case refine_6 => rw [oneReleased, onRun_rings, onRun_rings, releasing_rel]
  · rw [oneReleased, runAt_onRun_self, runAt_onRun_self, hrun]
  · rw [oneReleased, runAt_onRun_of_ne hj, runAt_onRun_of_ne hj, hrun]

theorem releasing_last (hdead : (runAt m n).dead = false) : runAt (freeRun n (oneReleased n f (releasing p rest m))) n = initRun ∧
    (∀ j, j ≠ n → runAt (freeRun n (oneReleased n f (releasing p rest m))) j = runAt m j) ∧
    (freeRun n (oneReleased n f (releasing p rest m))).mem = m.mem ∧
    (freeRun n (oneReleased n f (releasing p rest m))).qs.queues = m.qs.queues ∧
    (freeRun n (oneReleased n f (releasing p rest m))).qs.pools = m.qs.pools ∧
    ((freeRun n (oneReleased n f (releasing p rest m))).rings.get p).rel = rest := by
  obtain ⟨hself, hothers, hmem, hqueues, hpools, hrel⟩ := releasing_one (p := p) (rest := rest) (n := n) (f := f) (m := m)
  refine ⟨?_, fun j hj => ?_, by rwa [freeRun_mem], by rwa [freeRun_queues], by rwa [freeRun_pools], by rwa [freeRun_rings]⟩
  · rw [runAt_freeRun, if_pos rfl, hself, freed, hdead]
    rfl
  · rw [runAt_freeRun, if_neg hj, hothers j hj]

theorem poolHolding_releasing : poolHolding (releasing p rest m) n = poolHolding m n := by
  have hpools : (releasing p rest m).qs.pools = m.qs.pools := congrArg QueueSt.pools (releasing_qs ..)
  simp only [poolHolding, poolOfRun, hpools]

end

theorem completes_release {p : Port} {ring : Nat} {e : RawEntry} {rest : List (Nat × RawEntry)} {s : State} {P : Mod → Prop}
    (hp : s.fe.powered = true) (hcrit : s.m.therm.critical = false) (hentry : (s.m.rings.get p).rel = (ring, e) :: rest)
    (hone : (byteOf e 20).toNat = 1) (hP : P (releaseRefs p true [entRef e 0 0] (releasing p rest s.m))) : completes (.release p) s P := by
  refine completes_of_engine _ rfl hp hcrit ?_
  simp only [hentry, hone]
  exact hP

/-! ### Hold sweeps (R365, R366) -/

/-- A run of an age of 3 whose pool bounds how long a grant is held: it closes, with the pool's count and the event. -/
theorem expireOpen_spec {k n : Nat} {m : Mod} (hlisted : poolAt m k ≠ default) : ∃ x, expireOpen k n 0 m = event 0x0805 0 (n + k * 2 ^ 24) x ∧
    (poolAt x k).grantExp = min 0xFFFFFFFF ((poolAt m k).grantExp + 1) ∧ (∀ j, j ≠ n → runAt x j = runAt m j) ∧
    ((runAt m n).st = .open_ → (runAt x n).st = if (runAt m n).refs = 0 then .free else .closed) := by
  unfold expireOpen
  extract_lets clip y
  obtain ⟨hpools, hothers, hself⟩ := closeRun_spec n (onRun n clip m)
  have hpool : poolAt y k = poolAt m k := poolAt_of_pools_eq hpools k
  refine ⟨onPool k (fun p => { p with grantExp := satAdd 0xFFFF_FFFF p.grantExp 1 }) y, by simp, ?_, fun j hj => ?_, fun hopen => ?_⟩
  · rw [poolAt_onPool_of_listed (by rwa [hpool]), hpool]
    rfl
  · exact (runAt_onPool ..).trans ((hothers j hj).trans (runAt_onRun_of_ne hj ..))
  · rw [runAt_onRun_self] at hself
    exact (congrArg Run.st (runAt_onPool ..)).trans (hself hopen)

/-- A notified run of an age of 3 is free, with the pool's count. -/
theorem relExp_spec {k n : Nat} {m : Mod} (hlisted : poolAt m k ≠ default) :
    let x := onPool k (fun p => { p with relExp := satAdd 0xFFFF_FFFF p.relExp 1 }) (freeRun n m)
    runAt x n = { initRun with dead := (runAt m n).dead } ∧ (∀ j, j ≠ n → runAt x j = runAt m j) ∧
      (poolAt x k).relExp = min 0xFFFFFFFF ((poolAt m k).relExp + 1) := by
  intro x
  have hpool : poolAt (freeRun n m) k = poolAt m k := poolAt_of_pools_eq (freeRun_pools n m) k
  have hruns : ∀ j, runAt x j = runAt (freeRun n m) j := fun j => runAt_onPool ..
  refine ⟨?_, fun j hj => ?_, ?_⟩
  · rw [hruns, runAt_freeRun, if_pos rfl]
    rfl
  · rw [hruns, runAt_freeRun, if_neg hj]
  · rw [poolAt_onPool_of_listed (by rwa [hpool]), hpool]
    rfl

/-- One sweep over the taken OPEN runs of a pool that bounds how long a grant is held. -/
def grantSweep (k : Nat) (l : List Nat) (m : Mod) : Mod :=
  l.foldl (fun m n => if (runAt m n).age < 3 then onRun n (fun r => { r with age := r.age + 1 }) m else expireOpen k n 0 m) m

theorem exec_grantHoldSweep (k : Fin 64) (s : State) : exec (.grantHoldSweep k) s =
    engineStep (fun m => if (poolAt m k.val).grantHold = 0 then m
      else grantSweep k.val (heldRuns m k.val (fun r => r.st == .open_ && r.taken && !r.dead)) m) s := rfl

theorem grantSweep_of_young {k n : Nat} {m : Mod} (h : (runAt m n).age < 3) : grantSweep k [n] m = onRun n (fun r => { r with age := r.age + 1 }) m :=
  if_pos h

theorem grantSweep_of_old {k n : Nat} {m : Mod} (h : 3 ≤ (runAt m n).age) : grantSweep k [n] m = expireOpen k n 0 m :=
  if_neg (Nat.not_lt.mpr h)

/-- One sweep over the notified runs of a pool that bounds how long a release takes. -/
def releaseSweep (k : Nat) (l : List Nat) (m : Mod) : Mod :=
  l.foldl (fun m n => if (runAt m n).age < 3 then onRun n (fun r => { r with age := r.age + 1 }) m
    else event 0x0806 0 (n + k * 2 ^ 24) (onPool k (fun p => { p with relExp := satAdd 0xFFFF_FFFF p.relExp 1 }) (freeRun n m))) m

theorem exec_releaseHoldSweep (k : Fin 64) (s : State) : exec (.releaseHoldSweep k) s =
    engineStep (fun m => if (poolAt m k.val).relHold = 0 then m
      else releaseSweep k.val (heldRuns m k.val (fun r => r.st == .closed && 0 < r.refs && r.qrefs == 0 && !r.dead)) m) s := rfl

theorem releaseSweep_of_young {k n : Nat} {m : Mod} (h : (runAt m n).age < 3) :
    releaseSweep k [n] m = onRun n (fun r => { r with age := r.age + 1 }) m := if_pos h

theorem releaseSweep_of_old {k n : Nat} {m : Mod} (h : 3 ≤ (runAt m n).age) : releaseSweep k [n] m = event 0x0806 0 (n + k * 2 ^ 24)
    (onPool k (fun p => { p with relExp := satAdd 0xFFFF_FFFF p.relExp 1 }) (freeRun n m)) := if_neg (Nat.not_lt.mpr h)

/-! ### A cell write that waited (R351) -/

/-- The oldest cell write of a tile that waits goes on when an assembly entry is free, or when it needs none. -/
def resumeWrite (t : Tile) (m : Mod) : Mod :=
  match m.qs.writeWaits.findIdx? (fun q => runTile (wOff q.w / 2048) == t) with
  | none => m
  | some i =>
    let q := m.qs.writeWaits.getD i default
    let r := runAt m (wOff q.w / 2048)
    if r.st == .open_ && !r.dead && r.cells.isNone && 8192 ≤ assemblyUsed m t then m
    else cellWrite q { m with qs := { m.qs with writeWaits := m.qs.writeWaits.eraseIdx i } }

theorem resumeWrite_of_found {t : Tile} {i : Nat} {q : MReq} {m : Mod}
    (hi : m.qs.writeWaits.findIdx? (fun q => runTile (wOff q.w / 2048) == t) = some i) (hq : m.qs.writeWaits[i]? = some q) :
    resumeWrite t m = if (runAt m (wOff q.w / 2048)).st = .open_ ∧ (runAt m (wOff q.w / 2048)).dead = false ∧
        (runAt m (wOff q.w / 2048)).cells = none ∧ 8192 ≤ assemblyUsed m t then m
      else cellWrite q { m with qs := { m.qs with writeWaits := m.qs.writeWaits.eraseIdx i } } := by
  have hgot : m.qs.writeWaits.getD i default = q := by rw [List.getD_eq_getElem?_getD, hq]; rfl
  simp only [resumeWrite, hi, hgot]
  exact if_congr (by simp [and_assoc]) rfl rfl

theorem exec_cellWriteResume (t : Tile) (s : State) : exec (.cellWriteResume t) s = engineStep (resumeWrite t) s := rfl

theorem cellWrite_merges (q : MReq) (m : Mod) : cellMerged q m (cellWrite q m) := by
  unfold cellMerged
  intro n c r hopen hdead hnext hroom
  have hlate : (r.dead || r.st != .open_ || decide (c < r.nextCell)) = false := by simp [hdead, hopen, hnext]
  have hfits : (r.cells.isNone && decide (8192 ≤ assemblyUsed m (runTile n))) = false := by
    rcases hroom with hcells | hused
    · simp [Option.isNone_eq_false_iff.mpr hcells]
    · simp [Nat.not_le.mpr hused]
  refine ⟨onRun n (fun r' => { r' with
      cells := some (mergeCell (r.cells.getD (List.replicate 8 0)) c (wOff q.w / 64 % 4) q.data q.en)
      poison := if q.poison then putBit r.poison c true else r.poison, label := wLabel q.w }) m,
    ?_, ?_, ?_, ?_, fun j hj => runAt_onRun_of_ne hj .., rfl⟩
  · exact (if_neg (Bool.eq_false_iff.mp hlate)).trans (if_neg (Bool.eq_false_iff.mp hfits))
  all_goals rw [runAt_onRun_self]
  exact hopen

/-! ### The commands -/

/-- Settles O47: grants, releases, sweeps and waiting cell writes each by what its operation does of one run and of the pool that holds it. -/
theorem runsAreGrantedHeldAndReleased : Obligations.RunsAreGrantedHeldAndReleased := by
  unfold Obligations.RunsAreGrantedHeldAndReleased
  refine ⟨?grant, ?noGrant, ?release, ?noRelease, ?grantSweep, ?releaseSweep, ?noSweep, ?resume, ?noResume⟩
  case grant =>
    intro k bank next s hp hcrit p hon hroom hty hbank
    refine completes_of_engine (grantPost k.val) rfl hp hcrit ?_
    obtain ⟨n, hn, hgrant⟩ := grantPost_spec hon hroom hty hbank
    have hlisted : poolAt s.m k ≠ default := poolAt_ne_default_of CellPool.enable (by rw [hon]; decide)
    refine ⟨_, n, hn, hgrant, ?_, fun j hj => ?_, ?_, rfl⟩
    · rw [runAt_onPool, runAt_onRun_self]
      rfl
    · rw [runAt_onPool, runAt_onRun_of_ne hj]
      rfl
    · exact poolAt_onPool_of_listed (m := onRun n (fun r => { r with st := .open_ }) { s.m with free := s.m.free + 1 }) hlisted _
  case noGrant =>
    intro k s hoff
    exact engine_of_fixed (grantPost k.val) rfl (by simp [grantPost, hoff])
  case release =>
    intro p ring e rest s hp hcrit hentry hone n f r
    have hrun : ∀ j, runAt (releasing p rest s.m) j = runAt s.m j := runAt_of_runs_eq (by rw [releasing_qs])
    have hcompletes := @completes_release p ring e rest s
    refine ⟨fun hdead hclosed hlive hrepl hrefs => hcompletes hp hcrit hentry hone ?_,
      fun hdead hclosed hlive hrepl hrefs => hcompletes hp hcrit hentry hone ?_, fun hlive => hcompletes hp hcrit hentry hone ?_⟩
    · rw [releaseRefs_of_live (by rwa [hrun]) (by rwa [hrun]) (by rwa [hrun]) (by rwa [hrun]) (by rw [hrun, hrefs]; decide), if_pos (by rwa [hrun])]
      exact releasing_last hdead
    · rw [releaseRefs_of_live (by rwa [hrun]) (by rwa [hrun]) (by rwa [hrun]) (by rwa [hrun])
        (by rw [hrun]; exact Nat.ne_of_gt (Nat.zero_lt_of_lt hrefs)),
        if_neg (by rw [hrun]; exact Nat.ne_of_gt hrefs)]
      exact releasing_one
    · obtain ⟨x, hx, hruns, hpools⟩ := releaseRefs_of_dead (p := p) (ref := entRef e 0 0) (m := releasing p rest s.m) (by rwa [hrun])
      refine ⟨x, hx, hruns.trans (by rw [releasing_qs]), fun k => ?_⟩
      rw [hpools, poolHolding_releasing, poolAt_of_pools_eq (m := s.m) (by rw [releasing_qs])]
  case noRelease =>
    intro p s hnone
    exact engine_of_fixed _ rfl (by simp only [hnone])
  case grantSweep =>
    intro k s hp hcrit hhold held
    have hlisted : poolAt s.m k ≠ default := poolAt_ne_default_of CellPool.grantHold hhold
    refine ⟨fun hheld => engine_of_fixed _ (exec_grantHoldSweep k s) ?_,
      fun n hheld hage => completes_of_engine _ (exec_grantHoldSweep k s) hp hcrit ?_,
      fun n hheld hage => completes_of_engine _ (exec_grantHoldSweep k s) hp hcrit ?_⟩
    · rw [if_neg hhold, show heldRuns s.m k.val _ = [] from hheld]
      rfl
    · rw [if_neg hhold, show heldRuns s.m k.val _ = [n] from hheld]
      exact grantSweep_of_young hage
    · rw [if_neg hhold, show heldRuns s.m k.val _ = [n] from hheld, grantSweep_of_old hage]
      exact expireOpen_spec hlisted
  case releaseSweep =>
    intro k s hp hcrit hhold held
    have hlisted : poolAt s.m k ≠ default := poolAt_ne_default_of CellPool.relHold hhold
    refine ⟨fun hheld => engine_of_fixed _ (exec_releaseHoldSweep k s) ?_,
      fun n hheld hage => completes_of_engine _ (exec_releaseHoldSweep k s) hp hcrit ?_,
      fun n hheld hage => completes_of_engine _ (exec_releaseHoldSweep k s) hp hcrit ?_⟩
    · rw [if_neg hhold, show heldRuns s.m k.val _ = [] from hheld]
      rfl
    · rw [if_neg hhold, show heldRuns s.m k.val _ = [n] from hheld]
      exact releaseSweep_of_young hage
    · rw [if_neg hhold, show heldRuns s.m k.val _ = [n] from hheld, releaseSweep_of_old hage]
      exact ⟨_, rfl, relExp_spec hlisted⟩
  case noSweep =>
    intro k s hp
    refine ⟨fun hzero => completes_of_onMod _ (exec_grantHoldSweep k s) hp ?_, fun hzero => completes_of_onMod _ (exec_releaseHoldSweep k s) hp ?_⟩
    all_goals exact (congrArg (ite _ _) (if_pos hzero)).trans (ite_self _)
  case resume =>
    intro t i q s hp hcrit hi hq r x
    have hresume := resumeWrite_of_found hi hq
    refine ⟨fun hroom => completes_of_engine _ (exec_cellWriteResume t s) hp hcrit ?_,
      fun hfull hopen hdead hnone => engine_of_fixed _ (exec_cellWriteResume t s) ?_⟩
    · have hgoes : resumeWrite t s.m = cellWrite q x := by
        rw [hresume, if_neg]
        rintro ⟨hopen, hdead, hnone, hfull⟩
        rcases hroom with h | h | h | h
        · exact absurd hfull (Nat.not_le.mpr h)
        · exact h hopen
        · exact absurd (h.symm.trans hdead) (by decide)
        · exact absurd (h.symm.trans (congrArg Option.isSome hnone)) (by decide)
      rw [hgoes]
      exact ⟨rfl, cellWrite_merges q x⟩
    · rw [hresume, if_pos ⟨hopen, hdead, hnone, hfull⟩]
  case noResume =>
    intro t s hnone
    have hfind : s.m.qs.writeWaits.findIdx? (fun q => runTile (wOff q.w / 2048) == t) = none :=
      List.findIdx?_eq_none_iff.mpr fun q hq => by simpa using hnone q hq
    exact engine_of_fixed _ (exec_cellWriteResume t s) (by simp only [resumeWrite, hfind])

end Sys2Proof.Machine
end

