-- ==== Sys2Proof/Proofs/SchedulerTables.lean ====
section
/-! PROOFS. The egress scheduler's credits, timing wheels and parameter tables: the second half of O48. -/
namespace Sys2Proof.Machine

open Sys2Proof.Stmt

/-! ### Nodes -/

@[simp] theorem schedNode_onNode_self (k : Nat) (f : Node → Node) (m : Mod) : schedNode (onNode k f m) k = f (schedNode m k) :=
  tabGet_tabPut_self ..

theorem schedNode_onNode_of_ne {j k : Nat} (h : j ≠ k) (f : Node → Node) (m : Mod) : schedNode (onNode k f m) j = schedNode m j :=
  tabGet_tabPut_of_ne _ _ _ _ h

/-- A table whose values are changed without their keys gives the changed value, the default of a key that it does not list included. -/
theorem tabGet_map_values {α : Type} (d : α) (f : α → α) (hd : f d = d) (t : List (Nat × α)) (k : Nat) :
    tabGet d (t.map (fun e => (e.1, f e.2))) k = f (tabGet d t k) := by
  have hkey : (t.map (fun e => (e.1, f e.2))).find? (fun e => e.1 == k) = (t.find? (fun e => e.1 == k)).map (fun e => (e.1, f e.2)) :=
    List.find?_map ..
  rw [tabGet, tabGet, hkey]
  cases t.find? (fun e => e.1 == k) with
  | none => exact hd.symm
  | some e => rfl

/-! ### Credit entries (R386, R387) -/

/-- A credit entry, once its port has taken it. -/
def creditTaken (p : Port) (ring : Nat) (e : RawEntry) (y : Mod) : Mod :=
  let ep := (byteOf e 0).toNat
  let bytes := (bitsOf e 32 32).toNat
  if 128 ≤ ep then event 0x0902 0 (ep + p.num * 2 ^ 8 + ring * 2 ^ 9) y
  else
    let k := nodeKey 3 ep
    let sum : Int := (schedNode y k).txCredit + bytes
    if 0x7FFF_FFFF < sum then event 0x0901 0 (ep + p.num * 2 ^ 8 + ring * 2 ^ 9) (onNode k (fun n => { n with txCredit := 0x7FFF_FFFF }) y)
    else onNode k (fun n => { n with txCredit := sum }) y

theorem creditEntry_of_cons {p : Port} {ring : Nat} {e : RawEntry} {rest : List (Nat × RawEntry)} {m : Mod}
    (h : (m.rings.get p).cred = (ring, e) :: rest) : creditEntry p m = creditTaken p ring e (touch (onRings p (fun s => { s with cred := rest }) m)) := by
  simp only [creditEntry, h]
  rfl

/-- The credit of the node saturates. -/
theorem creditTaken_of_port {p : Port} {ring : Nat} {e : RawEntry} {y : Mod} (hep : ¬ 128 ≤ (byteOf e 0).toNat) :
    let k := nodeKey 3 (byteOf e 0).toNat
    let sum : Int := (schedNode y k).txCredit + ((bitsOf e 32 32).toNat : Int)
    let x := onNode k (fun n => { n with txCredit := min sum 0x7FFF_FFFF }) y
    creditTaken p ring e y = if 0x7FFF_FFFF < sum then event 0x0901 0 ((byteOf e 0).toNat + p.num * 2 ^ 8 + ring * 2 ^ 9) x else x := by
  intro k sum x
  rw [creditTaken, if_neg hep]
  by_cases hsat : (0x7FFF_FFFF : Int) < sum
  · have hx : x = onNode k (fun n => { n with txCredit := 0x7FFF_FFFF }) y := by simp only [x, min_eq_right hsat.le]
    rw [if_pos hsat, hx]
    exact (if_pos hsat).symm
  · have hx : x = onNode k (fun n => { n with txCredit := sum }) y := by simp only [x, min_eq_left (not_lt.mp hsat)]
    rw [if_neg hsat, hx]
    exact (if_neg hsat).symm

/-! ### Timing wheels (R382) -/

/-- Whether a node's place on the fine wheel has ended. -/
def wheelDue (now : Nat) (n : Node) : Bool := match n.wheel with
  | some (d, false) => (d + 31) / 32 * 32 ≤ now
  | _ => false

theorem wheelDue_of_fine {now d : Nat} {n : Node} (h : n.wheel = some (d, false)) : wheelDue now n = decide ((d + 31) / 32 * 32 ≤ now) := by
  rw [wheelDue, h]

/-- The fine-wheel places that have ended are served. -/
def serveWheel (m : Mod) : Mod :=
  (m.egress.nodes.filter (fun e => wheelDue (upTime m) e.2)).foldl (fun m e => resched e.1 (onNode e.1 (fun n => { n with wheel := none }) m)) m

theorem exec_wheelBucketEnd (s : State) : exec .wheelBucketEnd s = engineStep serveWheel s := rfl

theorem wheelDue_of_later {now : Nat} {n : Node} (h : ∀ d, n.wheel = some (d, false) → now < d) : wheelDue now n = false := by
  unfold wheelDue
  split
  next d hd =>
    have hlater := h d hd
    exact decide_eq_false (by omega)
  next => rfl

/-- A coarse place whose period has come moves to the fine wheel. -/
def wheelMoved (now : Nat) (n : Node) : Node := match n.wheel with
  | some (d, true) => if d / wheelSpan ≤ now / wheelSpan then { n with wheel := some (d, false) } else n
  | _ => n

theorem exec_coarseWheelPeriod (s : State) : exec .coarseWheelPeriod s =
    engineStep (fun m => onEgress (fun e => { e with nodes := e.nodes.map (fun x => (x.1, wheelMoved (upTime m) x.2)) }) m) s := rfl

/-! ### SCHED_COMMIT (R390 to R394) -/

/-- A commit, once its parameters have passed the checks: its entries are read, and it goes on when they are here. -/
def commitReading (h : AdminHdr) (c : AdminTag) (t first n good : Nat) (b : Mod) : Mod :=
  let r := accesses good (fun k m => access (adminBy m h.port) .memRd (rangeW (entryW m t (first + k)) 0) 0 0 false m)
    (if good = n then b else bufRefuse h.port (entryW b t (first + good)) 32 b)
  if answered r.2 r.1 && !objectBusy r.2 c (.schedCommit t first n good) then schedCommit c t first n good r.1 r.2
  else park c (.schedCommit t first n good) r.1 r.2

/-- What SCHED_COMMIT does of its own. -/
def commitOwn (h : AdminHdr) (t first n : Nat) (c : AdminTag) (b : Mod) : Mod :=
  if 4 < t || tableSize t < first + n then done c 0x62 b
  else if !(b.egress.tbase.toList.getD t 0).getLsbD 0 then done c 0x63 b
  else commitReading h c t first n ((List.range n).takeWhile (fun k => entryOk b h.port (entryW b t (first + k)))).length b

theorem exec_schedCommit (h : AdminHdr) (t first n : Nat) (s : State) : exec (.schedCommit h t first n) s =
    .next (onMod (admin h 0x0701 (decide (1 ≤ n) && decide (n ≤ 65536)) (commitOwn h t first n)) s) := rfl

theorem commitOwn_of_outside {h : AdminHdr} {t first n : Nat} {c : AdminTag} {b : Mod} (hout : 4 < t ∨ (t ≤ 4 ∧ tableSize t < first + n)) :
    commitOwn h t first n c b = done c 0x62 b := by
  refine if_pos ?_
  rcases hout with h | ⟨-, h⟩ <;> simp [h]

section
variable {h : AdminHdr} {t first n good : Nat} {c : AdminTag} {b : Mod}

theorem commitOwn_of_disabled (ht : t ≤ 4) (hin : first + n ≤ tableSize t) (hoff : (b.egress.tbase.toList.getD t 0).getLsbD 0 = false) :
    commitOwn h t first n c b = done c 0x63 b := by
  rw [commitOwn, if_neg (by simp [ht, hin]), if_pos (by rw [hoff]; rfl)]

theorem commitOwn_of_enabled (ht : t ≤ 4) (hin : first + n ≤ tableSize t) (hon : (b.egress.tbase.toList.getD t 0).getLsbD 0 = true) :
    commitOwn h t first n c b =
      commitReading h c t first n ((List.range n).takeWhile (fun k => entryOk b h.port (entryW b t (first + k)))).length b := by
  rw [commitOwn, if_neg (by simp [ht, hin]), if_neg (by rw [hon]; decide)]

variable {ids : List Nat} {x : Mod}
  (hreads : accesses good (fun k m => access (adminBy m h.port) .memRd (rangeW (entryW m t (first + k)) 0) 0 0 false m)
    (if good = n then b else bufRefuse h.port (entryW b t (first + good)) 32 b) = (ids, x))
include hreads

theorem commitReading_of_waiting (hwait : answered x ids = false ∨ objectBusy x c (.schedCommit t first n good) = true) :
    commitReading h c t first n good b = park c (.schedCommit t first n good) ids x := by
  rw [commitReading, hreads]
  refine if_neg ?_
  rcases hwait with hwait | hwait <;> simp [hwait]

theorem commitReading_of_answered (hhere : answered x ids = true) (hfree : objectBusy x c (.schedCommit t first n good) = false) :
    commitReading h c t first n good b = schedCommit c t first n good ids x := by
  rw [commitReading, hreads]
  exact if_pos (by simp [hhere, hfree])

end

section
variable {c : AdminTag} {t first n good : Nat} {ids : List Nat} {x : Mod}

theorem schedCommit_of_error {code i : Nat} (h : readEntries x t first good ids n 0 = .error (code, i)) :
    schedCommit c t first n good ids x = complete c code 0 (BitVec.ofNat 96 i) (dropAcc ids x) := by
  rw [schedCommit, h]

/-- One entry of a table is put in force. -/
def commitEntry (t : Nat) (m : Mod) (x : Nat × TableEntry) : Mod := match x.2 with
  | .node n => commitNode t x.1 n m
  | .pol p => onEgress (fun e => { e with policers := tabMod initPolicer e.policers x.1 (fun old => polMerge (upTime m) old p) }) m

theorem schedCommit_of_ok {l : List TableEntry} (h : readEntries x t first good ids n 0 = .ok l) :
    schedCommit c t first n good ids x = done c 0x00 ((l.mapIdx (fun i e => (first + i, e))).foldl (commitEntry t) (dropAcc ids x)) := by
  rw [schedCommit, h]
  rfl

theorem schedCommit_of_single {y : TableEntry} (h : readEntries x t first good ids n 0 = .ok [y]) :
    schedCommit c t first n good ids x = done c 0x00 (commitEntry t (dropAcc ids x) (first, y)) :=
  schedCommit_of_ok h

theorem schedCommit_of_node {y : Node} (h : readEntries x t first good ids n 0 = .ok [.node y]) :
    schedCommit c t first n good ids x = done c 0x00 (commitNode t first y (dropAcc ids x)) := by
  rw [schedCommit_of_single h, commitEntry]

theorem schedCommit_of_policer {y : Policer} (h : readEntries x t first good ids n 0 = .ok [.pol y]) :
    schedCommit c t first n good ids x = done c 0x00 (onEgress (fun e => { e with
      policers := tabMod initPolicer e.policers first (fun old => polMerge (upTime x) old y) }) (dropAcc ids x)) :=
  schedCommit_of_single h

end

/-! ### The second half of O48 -/

theorem schedulerTakesCreditsAndTables : SchedulerTakesCreditsAndTables := by
  unfold SchedulerTakesCreditsAndTables
  refine ⟨?credit, ?noCredit, ?wheelEarly, ?wheelDue, ?coarse, ?commit⟩
  case credit =>
    intro p ring e rest s hp hcrit hentry y ep old sum
    refine completes_of_engine (creditEntry p) rfl hp hcrit ?_
    rw [creditEntry_of_cons hentry]
    split
    next hep => exact if_pos hep
    next hep => exact ⟨onNode (nodeKey 3 ep) (fun n => { n with txCredit := min sum 0x7FFF_FFFF }) y, schedNode_onNode_self ..,
      fun j hj => schedNode_onNode_of_ne hj .., rfl, creditTaken_of_port hep⟩
  case noCredit =>
    intro p s hnone
    exact engine_of_fixed (creditEntry p) rfl (by simp only [creditEntry, hnone])
  case wheelEarly =>
    intro s hp hlater
    have hnone : s.m.egress.nodes.filter (fun e => wheelDue (upTime s.m) e.2) = [] :=
      List.filter_eq_nil_iff.mpr fun e he => by rw [wheelDue_of_later (hlater e he)]; decide
    refine completes_of_onMod _ (exec_wheelBucketEnd s) hp ?_
    rw [serveWheel, hnone, List.foldl_nil, ite_self]
  case wheelDue =>
    intro k d n s hp hcrit hnodes hwheel hdue
    refine completes_of_engine _ (exec_wheelBucketEnd s) hp hcrit ?_
    have hone : s.m.egress.nodes.filter (fun e => wheelDue (upTime s.m) e.2) = [(k, n)] := by
      rw [hnodes, List.filter_cons_of_pos (by rw [wheelDue_of_fine hwheel]; exact decide_eq_true hdue), List.filter_nil]
    rw [serveWheel, hone, List.foldl_cons, List.foldl_nil]
  case coarse =>
    intro s hp hcrit
    refine completes_of_engine _ (exec_coarseWheelPeriod s) hp hcrit ⟨rfl, fun k => ?_⟩
    exact (tabGet_map_values initNode (wheelMoved (upTime s.m)) rfl s.m.egress.nodes k).trans rfl
  case commit =>
    intro h t first n s ha hlow hhigh b tag good
    have hrange : (decide (1 ≤ n) && decide (n ≤ 65536)) = true := by simp [hlow, hhigh]
    have hrun : ∀ {P : Mod → Prop}, P (commitOwn h t first n tag b) → completes (.schedCommit h t first n) s P :=
      fun hP => completes_of_inRange _ (exec_schedCommit h t first n s) ha hrange hP
    refine ⟨fun hout => hrun (commitOwn_of_outside hout), fun ht hin hoff => hrun (commitOwn_of_disabled ht hin hoff),
      fun ht hin hon ids x hreads => ?_⟩
    intro busy
    have hown : commitOwn h t first n tag b = commitReading h tag t first n good b := commitOwn_of_enabled ht hin hon
    rw [hown] at hrun
    have hgoes : answered x ids = true → busy = false → commitReading h tag t first n good b = schedCommit tag t first n good ids x :=
      fun hhere hfree => commitReading_of_answered hreads hhere hfree
    refine ⟨fun hwait => hrun (commitReading_of_waiting hreads hwait), fun code i hhere hfree herr => hrun ?_,
      fun y _ hhere hfree hok => hrun ?_, fun y _ hhere hfree hok => hrun ?_⟩
    · rw [hgoes hhere hfree, schedCommit_of_error herr]
    · rw [hgoes hhere hfree, schedCommit_of_node hok]
    · rw [hgoes hhere hfree, schedCommit_of_policer hok]
      exact ⟨_, rfl, tabGet_tabPut_self .., fun j hj => tabGet_tabPut_of_ne _ _ _ _ hj, rfl⟩

end Sys2Proof.Machine
end

