-- ==== Sys2Proof/Proofs/EnqueueAndSelection.lean ====
section
/-! PROOFS. Enqueue and selection (O48): what the scheduler's examinations leave, an entry of one run, and the packet at the head of the chosen
queue. -/
namespace Sys2Proof.Machine

open Sys2Proof.Stmt

/-! ### What the scheduler leaves alone -/

/-- `m'` is `m` but for the scheduler. -/
def egressWork (m m' : Mod) : Prop := ∃ e, m' = { m with egress := e }

theorem egressWork_refl (m : Mod) : egressWork m m := ⟨m.egress, rfl⟩

theorem egressWork_trans (a b c : Mod) : egressWork a b → egressWork b c → egressWork a c := by
  rintro ⟨_, rfl⟩ ⟨e, rfl⟩
  exact ⟨e, rfl⟩

theorem egressWork.qs_eq {m m' : Mod} (h : egressWork m m') : m'.qs = m.qs := by
  obtain ⟨_, rfl⟩ := h
  rfl

theorem egressWork.beside {m m' : Mod} (h : egressWork m m') : m'.qs = m.qs ∧ m'.mem = m.mem ∧ m'.rings = m.rings := by
  obtain ⟨_, rfl⟩ := h
  exact ⟨rfl, rfl, rfl⟩

theorem onEgress_egressWork (f : EgressSt → EgressSt) (m : Mod) : egressWork m (onEgress f m) := ⟨f m.egress, rfl⟩

theorem onNode_egressWork (k : Nat) (f : Node → Node) (m : Mod) : egressWork m (onNode k f m) := onEgress_egressWork ..

theorem setRot_egressWork (k : Nat) (l : List Nat) (m : Mod) : egressWork m (setRot k l m) := onEgress_egressWork ..

theorem examine_egressWork (k : Nat) (m : Mod) : egressWork m (examine k m) := by
  unfold examine
  extract_lets now n base n' cur want n'' m' left
  have hnode : egressWork m m' := onNode_egressWork ..
  have hleft : egressWork m' left := by
    clear_value cur
    cases cur with
    | none => exact egressWork_refl _
    | some l => exact setRot_egressWork ..
  have hentered : egressWork left (match want with
      | some l => setRot l (rotList left l ++ [k]) left
      | none => left) := by
    clear_value want
    cases want with
    | none => exact egressWork_refl _
    | some l => exact setRot_egressWork ..
  split
  · exact onNode_egressWork ..
  split
  · exact hnode
  · exact egressWork_trans _ _ _ hnode (egressWork_trans _ _ _ hleft hentered)

theorem examineAll_egressWork (l : List Nat) (m : Mod) : egressWork m (examineAll l m) :=
  foldl_rel egressWork egressWork_refl egressWork_trans (fun m k => examine k m) (fun m k => examine_egressWork k m) l m

theorem resched_egressWork (k : Nat) (m : Mod) : egressWork m (resched k m) := examineAll_egressWork ..

theorem dwrr_egressWork (f : Nat) (l : List Nat) (m : Mod) : egressWork m (dwrr f l m).2 := by
  induction f generalizing l m with
  | zero => exact egressWork_refl _
  | succ f ih =>
    cases l with
    | nil => exact egressWork_refl _
    | cons h rest =>
      rw [dwrr]
      split
      · exact egressWork_refl _
      · exact egressWork_trans _ _ _ (onNode_egressWork ..) (ih ..)

theorem chooseChild_egressWork (k : Nat) (m : Mod) : egressWork m (chooseChild k m).2 := by
  unfold chooseChild
  split
  · exact egressWork_refl _
  · exact egressWork_trans _ _ _ (dwrr_egressWork ..) (setRot_egressWork ..)

/-! ### Run headers (R358, R367) -/

theorem hdrFetch_of_none_spilled {st : HdrWork} (h : st.2.qs.spilled = []) (ref : Nat) (keep : List Nat) : hdrFetch ref keep st = st := by
  simp [hdrFetch, h]

theorem hdrTrim_of_room {m : Mod} (h : m.qs.hdrs.length ≤ 8192) (keep : List Nat) : hdrTrim keep m = m := if_pos h

/-- Nothing asked for stands as it is. -/
theorem hdrSettle_of_none_used (label : BitVec 3) (m x : Mod) : hdrSettle label m ([], x) = (true, x) := rfl

theorem length_tabPut_le {α : Type} (t : List (Nat × α)) (k : Nat) (v : α) : (tabPut t k v).length ≤ t.length + 1 := by
  have hsplit : (t.filter (fun e => e.1 < k)).length + (t.filter (fun e => k < e.1)).length ≤ t.length := by
    induction t with
    | nil => exact Nat.le_refl 0
    | cons e t ih =>
      simp only [List.filter_cons, List.length_cons]
      split <;> split <;> simp_all <;> omega
  rw [tabPut, List.length_append, List.length_cons]
  omega

/-- A copy linked at the tail of a queue: the queue is longer by it, and beside the queue only headers and the pool's count of them change. -/
theorem linkTail_of_cached {k q : Nat} {label : BitVec 3} {h : RunHdr} {m : Mod} (hspilled : m.qs.spilled = []) (hroom : m.qs.hdrs.length < 8192) :
    ∃ (head : Queue → Word32) (tail : Word32) (pools : List (Nat × CellPool)) (hdrs : List (Nat × RunHdr)) (dirty : List (Nat × BitVec 3)) (free : Nat),
      linkTail k q label h ([], m) =
      ([], onQueue q (fun x => { x with head := head x, tail := tail, pkts := x.pkts + 1, cells := x.cells + cellsOf h.len, enq := x.enq + 1 })
        { m with free := free, qs := { m.qs with pools := pools, hdrs := hdrs, hdrDirty := dirty } }) := by
  unfold linkTail
  extract_lets st0 p free idx ref m1 m2 x last st m3 hdrs hdrs' qs3 m4
  have hst : st = ([], m2) := by
    simp only [st]
    rw [hdrFetch_of_none_spilled (st := ([], m2)) hspilled, hdrFetch_of_none_spilled (st := ([], m2)) hspilled]
  have hm3 : m3 = m2 := congrArg Prod.snd hst
  have hlen : hdrs'.length ≤ 8192 := by
    have hput : hdrs.length ≤ m.qs.hdrs.length + 1 := by
      simp only [hdrs, hm3]
      exact length_tabPut_le ..
    have hsame : hdrs'.length = hdrs.length := by
      simp only [hdrs']
      split
      · rfl
      · rw [List.length_map]
    omega
  have hm4 : m4 = { m3 with qs := { m3.qs with hdrs := hdrs', hdrDirty := m4.qs.hdrDirty } } := rfl
  rw [hm3] at hm4
  refine ⟨fun x => if x.pkts = 0 then BitVec.ofNat 32 ref else x.head, BitVec.ofNat 32 ref, m2.qs.pools, hdrs', m4.qs.hdrDirty, m.free + 1, ?_⟩
  have htrim : hdrTrim [ref / 64] m4 = m4 := hdrTrim_of_room (by rw [hm4]; exact hlen) _
  rw [htrim, hst]
  generalize m4.qs.hdrDirty = dirty at hm4 ⊢
  rw [hm4]
  rfl

/-! ### One copy (R356) -/

@[simp] theorem queueAt_onQueue_self (q : Nat) (f : Queue → Queue) (m : Mod) : queueAt (onQueue q f m) q = f (queueAt m q) := tabGet_tabPut_self ..

theorem queueAt_onQueue_of_ne {j q : Nat} (h : j ≠ q) (f : Queue → Queue) (m : Mod) : queueAt (onQueue q f m) j = queueAt m j :=
  tabGet_tabPut_of_ne _ _ _ _ h

theorem queueAt_of_queues_eq {m m' : Mod} (h : m'.qs.queues = m.qs.queues) (q : Nat) : queueAt m' q = queueAt m q := by
  rw [queueAt, queueAt, h]

/-- What one copy has made of the queues: `f` of its own, the others and the runs as before. -/
structure CopyPlaced (q : Nat) (f : Queue → Queue → Prop) (m x : Mod) : Prop where
  own : f (queueAt m q) (queueAt x q)
  others : ∀ j, j ≠ q → queueAt x j = queueAt m j
  runs : x.qs.runs = m.qs.runs

/-- The queue is longer by one copy of a packet. -/
def grown (len : Nat) (a b : Queue) : Prop := b.pkts = a.pkts + 1 ∧ b.cells = a.cells + cellsOf len ∧ b.enq = a.enq + 1

/-- The queue has dropped a copy because it is not in service. -/
def droppedHalted (a b : Queue) : Prop := b.dropHalt = min 0xFFFFFFFF (a.dropHalt + 1) ∧ b.pkts = a.pkts

section
variable {k c q : Nat} {label : BitVec 3} {h : RunHdr} {m : Mod}

theorem placeCopy_of_admitted (hspilled : m.qs.spilled = []) (hroom : m.qs.hdrs.length < 8192) (hst : (queueAt m q).st = 1)
    (hfloor : floorOf (poolAt m k) c ≤ freeRuns m (poolAt m k)) (hhdrs : (poolAt m k).hdrUsed.length < (poolAt m k).hdrCount)
    (hlimit : (queueAt m q).cells + cellsOf h.len ≤ limitOf (queueAt m q) c) :
    ∃ x, placeCopy k c label h (0, [], m) q = (1, [], x) ∧ CopyPlaced q (grown h.len) m x := by
  obtain ⟨head, tail, pools, hdrs, dirty, free, hlink⟩ := linkTail_of_cached (k := k) (q := q) (label := label) (h := h) hspilled hroom
  have hplaced : placeCopy k c label h (0, [], m) q =
      (0 + 1, (linkTail k q label h ([], m)).1, perfCount devPage (perfPlain 1 15) none (linkTail k q label h ([], m)).2) := by
    simp only [placeCopy, hst, ne_eq, not_true_eq_false, if_false, Nat.not_lt.mpr hfloor, Nat.not_le.mpr hhdrs, or_self, Nat.not_lt.mpr hlimit]
  rw [hlink] at hplaced
  refine ⟨_, hplaced, ?_, fun j hj => ?_, ?_⟩
  · rw [queueAt_of_queues_eq (congrArg QueueSt.queues (perfCount_qs ..)), queueAt_onQueue_self]
    exact ⟨rfl, rfl, rfl⟩
  · rw [queueAt_of_queues_eq (congrArg QueueSt.queues (perfCount_qs ..)), queueAt_onQueue_of_ne hj]
    rfl
  · rw [perfCount_qs]
    rfl

theorem placeCopy_of_halted (hst : (queueAt m q).st ≠ 1) :
    ∃ x, placeCopy k c label h (0, [], m) q = (0, [], x) ∧ CopyPlaced q droppedHalted m x := by
  refine ⟨perfCount devPage (perfPlain 2 15) none (onQueue q (fun x => { x with dropHalt := satAdd 0xFFFF_FFFF x.dropHalt 1 }) m), ?_, ?_,
    fun j hj => ?_, ?_⟩
  · simp only [placeCopy, hst, ne_eq, not_false_eq_true, if_true]
  · rw [queueAt_of_queues_eq (congrArg QueueSt.queues (perfCount_qs ..)), queueAt_onQueue_self]
    exact ⟨rfl, rfl⟩
  · rw [queueAt_of_queues_eq (congrArg QueueSt.queues (perfCount_qs ..)), queueAt_onQueue_of_ne hj]
  · rw [perfCount_qs]
    rfl

end

/-! ### An entry of one run (R355, R356) -/

/-- A run with the references of `n` copies, live from `first` where there is one. -/
def referenced (n run first : Nat) (list : Bool) (m : Mod) : Mod :=
  let y := onRun run (fun r => { r with refs := r.refs + n, qrefs := r.qrefs + n, repl := r.repl || list }) m
  if n = 0 then y else onRun run (fun r => { r with live := putBit r.live first true }) y

/-- The run of a packet of one run has given its cells. -/
def consumed (ref : Word32) (first c : Nat) (m : Mod) : Mod :=
  let y := onRun (refRun ref) (fun r => { r with nextCell := first + c }) m
  if first + c = 8 ∨ refClose ref = true then closeRun (refRun ref) y else y

theorem consumeCells_one (ref : Word32) (first c : Nat) (m : Mod) : consumeCells [ref] first c m = consumed ref first c m := rfl

theorem enqRefs_of_one {e : RawEntry} (h : runsOf (enqLen e) = 1) : enqRefs e = [entRef e 4 0] := by
  rw [enqRefs, h]
  rfl

/-- The header of the copies of an entry of one run. -/
def copyHdr (e : RawEntry) : RunHdr :=
  { next := 0xFFFF_FFFF, runs := [entRef e 4 0 &&& 0x7FFF_FFFF], len := enqLen e, colour := (bitsOf (enqPol e) 20 2).toNat, repl := false, bad := 0 }

theorem enqueueValid_of_one {label : BitVec 3} {e : RawEntry} {m : Mod} (hlist : (enqDest e).getLsbD 31 = false) (hone : runsOf (enqLen e) = 1)
    (hpol : (enqPol e).getLsbD 22 = false) :
    let q := (bitsOf (enqDest e) 0 18).toNat
    let n := refRun (entRef e 4 0)
    let f := refFirst (entRef e 4 0)
    let w := placeCopy ((poolOfRun m n).elim 0 (·.1)) (bitsOf (enqPol e) 20 2).toNat label (copyHdr e) (0, [], m) q
    enqueueValid label e m =
      (w.2.1, resched (nodeKey 0 q) (consumed (entRef e 4 0) f (cellsOf (enqLen e)) (referenced w.1 n f false w.2.2))) := by
  intro q n f w
  have hqueues : destQueues m (enqDest e) = [q] := by
    rw [destQueues, hlist]
    rfl
  have hcolour : colourOf false (bitsOf (enqPol e) 0 20).toNat (enqLen e) (bitsOf (enqPol e) 20 2).toNat m = ((bitsOf (enqPol e) 20 2).toNat, m) := rfl
  simp only [enqueueValid, enqRefs_of_one hone, hlist, hpol, hcolour, hqueues]
  rfl

/-- A run that closes leaves the queues, and keeps its references and its NEXTCELL while something refers to it. -/
theorem closeRun_keeps (n : Nat) (m : Mod) : (closeRun n m).qs.queues = m.qs.queues ∧ ((runAt m n).refs ≠ 0 →
    (runAt (closeRun n m) n).refs = (runAt m n).refs ∧ (runAt (closeRun n m) n).qrefs = (runAt m n).qrefs ∧
      (runAt (closeRun n m) n).nextCell = (runAt m n).nextCell) := by
  unfold closeRun
  extract_lets r cells y a half put
  split
  next => exact ⟨rfl, fun _ => ⟨rfl, rfl, rfl⟩⟩
  split
  next hnone => exact ⟨freeRun_queues n m, fun hrefs => absurd hnone hrefs⟩
  next =>
    have hput : ∀ o x, (put o x).qs = x.qs := fun o x => groupPut_qs ..
    have hqs : (if y.prot.stop.isSome = true then y else put 1 (put 0 y)).qs = y.qs := by
      split
      · rfl
      · rw [hput, hput]
    refine ⟨by rw [hqs]; rfl, fun _ => ?_⟩
    rw [runAt_of_runs_eq (congrArg QueueSt.runs hqs), runAt_onRun_self]
    exact ⟨rfl, rfl, rfl⟩

theorem consumed_queues (ref : Word32) (first c : Nat) (m : Mod) : (consumed ref first c m).qs.queues = m.qs.queues := by
  rw [consumed]
  split
  · exact (closeRun_keeps ..).1
  · rfl

theorem consumed_run {ref : Word32} {first c : Nat} {m : Mod} (hrefs : (runAt m (refRun ref)).refs ≠ 0) :
    (runAt (consumed ref first c m) (refRun ref)).refs = (runAt m (refRun ref)).refs ∧
      (runAt (consumed ref first c m) (refRun ref)).qrefs = (runAt m (refRun ref)).qrefs ∧
      (runAt (consumed ref first c m) (refRun ref)).nextCell = first + c := by
  rw [consumed]
  have hrun := runAt_onRun_self (refRun ref) (fun r => { r with nextCell := first + c }) m
  generalize onRun (refRun ref) (fun r => { r with nextCell := first + c }) m = y at hrun ⊢
  split
  · obtain ⟨-, hkeeps⟩ := closeRun_keeps (refRun ref) y
    obtain ⟨hkeptRefs, hkeptQrefs, hkeptCell⟩ := hkeeps (by rw [hrun]; exact hrefs)
    rw [hkeptRefs, hkeptQrefs, hkeptCell, hrun]
    exact ⟨rfl, rfl, rfl⟩
  · rw [hrun]
    exact ⟨rfl, rfl, rfl⟩

theorem referenced_queues (n run first : Nat) (list : Bool) (m : Mod) : (referenced n run first list m).qs.queues = m.qs.queues := by
  rw [referenced]
  split <;> rfl

theorem referenced_run (run first : Nat) (list : Bool) (m : Mod) :
    (runAt (referenced 1 run first list m) run).refs = (runAt m run).refs + 1 ∧
      (runAt (referenced 1 run first list m) run).qrefs = (runAt m run).qrefs + 1 := by
  rw [referenced, if_neg Nat.one_ne_zero, runAt_onRun_self, runAt_onRun_self]
  exact ⟨rfl, rfl⟩

/-- The end of an entry of one run: its references stand, its cells are given, its queue is examined. -/
def oneEnqueued (cnt q : Nat) (e : RawEntry) (x : Mod) : Mod :=
  resched (nodeKey 0 q) (consumed (entRef e 4 0) (refFirst (entRef e 4 0)) (cellsOf (enqLen e))
    (referenced cnt (refRun (entRef e 4 0)) (refFirst (entRef e 4 0)) false x))

theorem oneEnqueued_queue (cnt q : Nat) (e : RawEntry) (x : Mod) (j : Nat) : queueAt (oneEnqueued cnt q e x) j = queueAt x j := by
  have hqs := (resched_egressWork (nodeKey 0 q) (consumed (entRef e 4 0) (refFirst (entRef e 4 0)) (cellsOf (enqLen e))
    (referenced cnt (refRun (entRef e 4 0)) (refFirst (entRef e 4 0)) false x))).qs_eq
  exact queueAt_of_queues_eq ((congrArg QueueSt.queues hqs).trans ((consumed_queues ..).trans (referenced_queues ..))) j

theorem oneEnqueued_run (q : Nat) (e : RawEntry) (x : Mod) :
    let n := refRun (entRef e 4 0)
    (runAt (oneEnqueued 1 q e x) n).refs = (runAt x n).refs + 1 ∧ (runAt (oneEnqueued 1 q e x) n).qrefs = (runAt x n).qrefs + 1 ∧
      (runAt (oneEnqueued 1 q e x) n).nextCell = refFirst (entRef e 4 0) + cellsOf (enqLen e) := by
  intro n
  obtain ⟨hrefs, hqrefs⟩ := referenced_run n (refFirst (entRef e 4 0)) false x
  have hsome : (runAt (referenced 1 n (refFirst (entRef e 4 0)) false x) n).refs ≠ 0 := by rw [hrefs]; exact Nat.succ_ne_zero _
  obtain ⟨hkeptRefs, hkeptQrefs, hcell⟩ := consumed_run (first := refFirst (entRef e 4 0)) (c := cellsOf (enqLen e)) hsome
  have hqs := (resched_egressWork (nodeKey 0 q) (consumed (entRef e 4 0) (refFirst (entRef e 4 0)) (cellsOf (enqLen e))
    (referenced 1 n (refFirst (entRef e 4 0)) false x))).qs_eq
  rw [oneEnqueued, runAt_of_runs_eq (congrArg QueueSt.runs hqs), hkeptRefs, hkeptQrefs, hcell]
  exact ⟨hrefs, hqrefs, rfl⟩

/-! ### The oldest enqueue entry of a port -/

section
variable {p : Port} {ring : Nat} {e : RawEntry} {rest : List (Nat × RawEntry)} {m : Mod}

/-- The module in which a port has taken its oldest enqueue entry. -/
def enqTaken (p : Port) (rest : List (Nat × RawEntry)) (m : Mod) : Mod := touch (onRings p (fun s => { s with enq := rest }) m)

theorem enqueue_of_idle (h : m.prot.stop.isSome = true ∨ m.therm.critical = true ∨ (m.rings.get p).enq = []) : enqueue p m = m := by
  unfold enqueue
  split
  next => rfl
  next hentry =>
    refine if_pos ?_
    rcases h with h | h | h
    · simp [h]
    · simp [h]
    · exact absurd (hentry.symm.trans h) (by simp)

variable (hstop : m.prot.stop = none) (hcrit : m.therm.critical = false) (hentry : (m.rings.get p).enq = (ring, e) :: rest)
include hstop hcrit hentry

theorem enqueue_of_invalid (hcheck : enqueueCheck m e ≠ 0) :
    enqueue p m = fetchPump (enqueueInvalid p ring (enqueueCheck m e) e (enqTaken p rest m)) := by
  simp only [enqueue, hentry, hstop, hcrit, Option.isSome_none, Bool.or_self, Bool.false_eq_true, if_false, if_pos hcheck]
  rfl

theorem enqueue_of_valid (hcheck : enqueueCheck m e = 0) :
    let w := hdrSettle (queueLabel m ((destQueues m (enqDest e)).headD 0)) m (enqueueValid (cfgLabel (ringAt m p ring).cfg) e (enqTaken p rest m))
    enqueue p m = if w.1 = true then fetchPump w.2 else touch w.2 := by
  simp only [enqueue, hentry, hstop, hcrit, Option.isSome_none, Bool.or_self, Bool.false_eq_true, if_false, hcheck, ne_eq, not_true_eq_false]
  rfl

/-- An entry of one run whose copy uses no block in DRAM is done at once. -/
theorem enqueue_of_placed (hcheck : enqueueCheck m e = 0) (hlist : (enqDest e).getLsbD 31 = false) (hone : runsOf (enqLen e) = 1)
    (hpol : (enqPol e).getLsbD 22 = false) {n : Nat} {x : Mod}
    (hplaced : placeCopy ((poolOfRun m (refRun (entRef e 4 0))).elim 0 (·.1)) (bitsOf (enqPol e) 20 2).toNat (cfgLabel (ringAt m p ring).cfg)
      (copyHdr e) (0, [], enqTaken p rest m) (bitsOf (enqDest e) 0 18).toNat = (n, [], x)) :
    enqueue p m = fetchPump (oneEnqueued n (bitsOf (enqDest e) 0 18).toNat e x) := by
  rw [enqueue_of_valid hstop hcrit hentry hcheck, enqueueValid_of_one hlist hone hpol]
  have hpool : poolOfRun (enqTaken p rest m) (refRun (entRef e 4 0)) = poolOfRun m (refRun (entRef e 4 0)) := rfl
  rw [hpool, hplaced, hdrSettle_of_none_used, if_pos rfl, oneEnqueued]

end

/-! ### Selection (R361, R375, R377) -/

@[simp] theorem queueAt_freeHdr (ref : Nat) (m : Mod) (q : Nat) : queueAt (freeHdr ref m) q = queueAt m q := rfl

/-- The packet at the head of a queue has left it. -/
def popped (q ref : Nat) (h : RunHdr) (m : Mod) : Mod :=
  h.runs.foldl (fun m r => onRun (refRun r) (fun r => if r.st == .free then r else { r with age := 0 }) m) (popHead q ref h (touch m))

theorem popped_frame (q ref : Nat) (h : RunHdr) (m : Mod) : (popped q ref h m).qs.eports = m.qs.eports ∧ (popped q ref h m).egress = m.egress ∧
    (queueAt (popped q ref h m) q).pkts = (queueAt m q).pkts - 1 ∧ (popped q ref h m).mem = m.mem ∧ (popped q ref h m).rings = m.rings := by
  have hruns : ∀ {α : Type} (g : Mod → α), (∀ (n : Nat) (f : Run → Run) (x : Mod), g (onRun n f x) = g x) →
      g (popped q ref h m) = g (freeHdr ref (onQueue q (fun x => { x with
      head := if x.pkts ≤ 1 then 0xFFFF_FFFF else h.next
      tail := if x.pkts ≤ 1 then 0xFFFF_FFFF else x.tail
      pkts := x.pkts - 1
      cells := x.cells - cellsOf h.len }) (touch m))) := fun g hg =>
    (foldl_keep g (fun m (r : Word32) => onRun (refRun r) (fun r => if r.st == .free then r else { r with age := 0 }) m) (fun _ _ => hg ..) _ _).trans
      (foldl_keep g (fun m (r : Word32) => onRun (refRun r) (fun r => if r.st == .free then r else { r with qrefs := r.qrefs - 1 }) m) (fun _ _ => hg ..) _ _)
  refine ⟨hruns (·.qs.eports) fun _ _ _ => rfl, hruns (·.egress) fun _ _ _ => rfl, ?_,
    hruns (·.mem) fun _ _ _ => rfl, hruns (·.rings) fun _ _ _ => rfl⟩
  rw [queueAt_of_queues_eq (hruns (·.qs.queues) fun _ _ _ => rfl)]
  rw [queueAt_freeHdr, queueAt_onQueue_self]
  rfl

/-- The notification of a packet that has left its queue, and the charges of its path. -/
def notified (p q len : Nat) (h : RunHdr) (path : List Nat) (x : Mod) : Mod :=
  examineAll path (path.foldl (fun m a => chargeNode len a m) (perfCount devPage (perfPlain 3 15) none (perfCount devPage (perfPlain 5 15) none
    (ringPost (epPort (tabGet 0 x.qs.eports p)) (epRing (tabGet 0 x.qs.eports p)) (notifyEntry q p h) x))))

theorem selection_of_idle {m : Mod} (h : m.prot.stop.isSome = true ∨ m.therm.critical = true ∨ nextPort m = none) : selection m = m := by
  rw [selection]
  split
  next => rfl
  next hruns =>
    rcases h with h | h | h
    · exact absurd (by simp [h]) hruns
    · exact absurd (by simp [h]) hruns
    · rw [h]

section
variable {p g c k : Nat} {m m1 m2 m3 : Mod} (hstop : m.prot.stop = none) (hcrit : m.therm.critical = false) (hport : nextPort m = some p)
  (hgroup : chooseChild (nodeKey 3 p) { m with egress := { m.egress with lastPort := p } } = (some g, m1))
  (hclass : chooseChild g m1 = (some c, m2)) (hqueue : chooseChild c m2 = (some k, m3))
include hstop hcrit hport hgroup hclass hqueue

theorem selection_of_chosen :
    let q := keyNum k
    let ref := (queueAt m3 q).head.toNat
    let y := hdrSettle (queueLabel m3 q) m (hdrFetch ref [] ([], m3))
    let r := readHdr y.2 ref
    selection m = if !y.1 then y.2 else if r.2 ≠ 0 then haltQueue q r.2 y.2
      else notified p q r.1.len r.1 [k, c, g, nodeKey 3 p] (popped q ref r.1 y.2) := by
  have hgroup' : chooseChild (nodeKey 3 p) (onEgress (fun e => { e with lastPort := p }) m) = (some g, m1) := hgroup
  simp only [selection, hstop, hcrit, Option.isSome_none, Bool.or_self, Bool.false_eq_true, if_false, hport, hgroup', hclass, hqueue]
  rfl

/-- A header that no block in DRAM holds is read at once. -/
theorem selection_of_here (hspilled : m3.qs.spilled = []) :
    let q := keyNum k
    let ref := (queueAt m3 q).head.toNat
    let r := readHdr m3 ref
    selection m = if r.2 ≠ 0 then haltQueue q r.2 m3 else notified p q r.1.len r.1 [k, c, g, nodeKey 3 p] (popped q ref r.1 m3) := by
  intro q ref r
  have hfetch : hdrFetch ref [] ([], m3) = ([], m3) := hdrFetch_of_none_spilled hspilled ref []
  refine Eq.trans (selection_of_chosen hstop hcrit hport hgroup hclass hqueue) ?_
  change (if !(hdrSettle _ m (hdrFetch ref [] ([], m3))).1 then _ else _) = _
  rw [hfetch, hdrSettle_of_none_used]
  rfl

omit hstop hcrit hport in
/-- Choosing changes the scheduler alone. -/
theorem chosen_egressWork : egressWork m m3 := by
  have hfirst := chooseChild_egressWork (nodeKey 3 p) { m with egress := { m.egress with lastPort := p } }
  have hsecond := chooseChild_egressWork g m1
  have hthird := chooseChild_egressWork c m2
  rw [hgroup] at hfirst
  rw [hclass] at hsecond
  rw [hqueue] at hthird
  exact egressWork_trans _ _ _ (onEgress_egressWork (fun e => { e with lastPort := p }) m)
    (egressWork_trans _ _ _ hfirst (egressWork_trans _ _ _ hsecond hthird))

end

/-- A node below the egress port pays for a packet's charged length. -/
theorem deficit_chargeNode {len a : Nat} {m : Mod} (h : 3 ≠ keyLevel a) :
    (schedNode (chargeNode len a m) a).deficit = (schedNode m a).deficit - max ((len : Int) + (schedNode m a).ovh) 1 := by
  rw [chargeNode, schedNode_onNode_self]
  exact if_neg h.symm

/-! ### The first half of O48 -/

theorem packetsAreQueuedAndSelected : PacketsAreQueuedAndSelected := by
  unfold PacketsAreQueuedAndSelected
  refine ⟨?enqueue, ?noEnqueue, ?selection, ?noSelection⟩
  case enqueue =>
    intro p ring e rest s hp hstop hcrit hentry y
    have hrun : ∀ {P : Mod → Prop}, P (enqueue p s.m) → completes (.enqueue p) s P := fun hP => completes_of_onMod (enqueue p) rfl hp hP
    refine ⟨fun hcheck => hrun (enqueue_of_invalid hstop hcrit hentry hcheck), ?_, fun hcheck => hrun (enqueue_of_valid hstop hcrit hentry hcheck)⟩
    intro q n hcheck hlist hone hpol hspilled hhdrs k c
    refine ⟨fun hst hfloor hfree hlimit => hrun ?_, fun hst => hrun ?_⟩
    · obtain ⟨x, hplaced, hcopy⟩ := placeCopy_of_admitted (k := k) (c := c) (q := q) (label := cfgLabel (ringAt s.m p ring).cfg)
        (h := copyHdr e) (m := enqTaken p rest s.m) hspilled hhdrs hst hfloor hfree hlimit
      refine ⟨_, enqueue_of_placed hstop hcrit hentry hcheck hlist hone hpol hplaced, ?_⟩
      obtain ⟨hpkts, hcells, henq⟩ := hcopy.own
      obtain ⟨hrefs, hqrefs, hcell⟩ := oneEnqueued_run q e x
      have hsame : runAt x n = runAt s.m n := runAt_of_runs_eq hcopy.runs n
      rw [oneEnqueued_queue]
      exact ⟨hpkts, hcells, henq, fun j hj => (oneEnqueued_queue ..).trans (hcopy.others j hj), hrefs.trans (by rw [hsame]),
        hqrefs.trans (by rw [hsame]), hcell⟩
    · obtain ⟨x, hplaced, hcopy⟩ := placeCopy_of_halted (k := k) (c := c) (q := q) (label := cfgLabel (ringAt s.m p ring).cfg)
        (h := copyHdr e) (m := enqTaken p rest s.m) hst
      refine ⟨_, enqueue_of_placed hstop hcrit hentry hcheck hlist hone hpol hplaced, ?_⟩
      obtain ⟨hdrop, hpkts⟩ := hcopy.own
      rw [oneEnqueued_queue]
      exact ⟨hdrop, hpkts, fun j hj => (oneEnqueued_queue ..).trans (hcopy.others j hj)⟩
  case noEnqueue =>
    intro p s hidle
    exact exec_of_fixed (enqueue p) rfl (enqueue_of_idle hidle)
  case selection =>
    intro p g c k m1 m2 m3 s hp hstop hcrit hport hgroup hclass hqueue q ref y
    have hchosen := selection_of_chosen hstop hcrit hport hgroup hclass hqueue
    have hrun : ∀ {P : Mod → Prop}, P (selection s.m) → completes .selection s P := fun hP => completes_of_onMod selection rfl hp hP
    refine ⟨fun hwait => hrun ?_, fun hspilled => hrun ?_⟩
    · rw [hchosen]
      exact if_pos (by simpa using hwait)
    · obtain ⟨heports, hegress, hpkts, hmem, hrings⟩ := popped_frame q ref (readHdr m3 ref).1 m3
      obtain ⟨hqs, hmem3, hrings3⟩ := (chosen_egressWork hgroup hclass hqueue).beside
      rw [selection_of_here hstop hcrit hport hgroup hclass hqueue hspilled]
      by_cases hbad : (readHdr m3 ref).2 ≠ 0
      · rw [if_pos hbad]
        exact if_pos hbad
      · rw [if_neg hbad]
        refine ⟨popped q ref (readHdr m3 ref).1 m3, ⟨heports.trans (by rw [hqs]), hegress, hpkts, hmem.trans hmem3, hrings.trans hrings3⟩,
          (if_neg hbad).trans ?_, fun a ha => deficit_chargeNode ha⟩
        rw [notified, heports, hqs]
  case noSelection =>
    intro s hidle
    exact exec_of_fixed selection rfl (selection_of_idle hidle)

/-- Settles O48: its halves are the packets' way through queues and selection, and the scheduler's credits, wheels and tables. -/
theorem packetsAreQueuedScheduledAndPaid : Obligations.PacketsAreQueuedScheduledAndPaid :=
  ⟨packetsAreQueuedAndSelected, schedulerTakesCreditsAndTables⟩

end Sys2Proof.Machine
end

