-- ==== Sys2Proof/Proofs/GanglineTraining.lean ====
section
/-! PROOFS. The gangline's training and the opening of an epoch (O49), and what a received flit does before and after its message. -/
namespace Sys2Proof.Machine

open Sys2Proof.Stmt

/-! ### The region digest -/

theorem regionDigest_of_prot_eq {m m' : Mod} (h : m'.prot = m.prot) : regionDigest m' = regionDigest m := by
  rw [regionDigest, regionDigest, h]

@[simp] theorem regionDigest_onGang (f : GangSt → GangSt) (m : Mod) : regionDigest (onGang f m) = regionDigest m := regionDigest_of_prot_eq rfl

/-! ### A flit that is the next one expected (R431 to R434) -/

/-- The sixteenth accepted flit that no ACK covers is answered with an idle flit. -/
def flitEnded (m : Mod) : Mod := if 16 ≤ m.gang.unacked then gangPlain (.idle ((m.gang.expect + 4095) % 4096)) m else m

theorem flitTail_flitEnded (m : Mod) : flitTail m (flitEnded m) := rfl

theorem gangPump_of_none_waiting {m : Mod} (h : m.gang.txWait = []) : gangPump m = m := by
  rw [gangPump, h]
  rfl

/-- A header without an acknowledgement that frees nothing that waits to leave. -/
theorem gangHeader_of_plain {f : FlitHdr} {m : Mod} (hack : f.ackV = false) (hwait : m.gang.txWait = []) : gangHeader f m =
    gangSet m fun g => { g with barkAt := if f.bark then m.tb.now else g.barkAt, reqRet := f.cred % 1024 } := by
  have hpump : ∀ b : Bool, gangPump { m with gang := { (if b then { m.gang with barkAt := m.tb.now } else m.gang) with reqRet := f.cred % 1024 } } =
      gangSet m fun g => { g with barkAt := if b then m.tb.now else g.barkAt, reqRet := f.cred % 1024 } := fun b => by
    cases b <;> exact gangPump_of_none_waiting hwait
  simp only [gangHeader, hack, Bool.false_and, Bool.false_eq_true, if_false]
  exact hpump f.bark

theorem gangEpoch_of_expected {f : FlitHdr} {s : State} (h : expected f s) : gangEpoch f s.m = true := by
  obtain ⟨-, hlink, hepoch, -⟩ := h
  simp [gangEpoch, hlink, hepoch]

/-- The count of an accepted flit. -/
def flitCounted (m : Mod) : Mod := onGang (fun g => { g with expect := (g.expect + 1) % 4096, unacked := g.unacked + 1, ackV := true }) m

theorem gangRecv_of_next {f : FlitHdr} {m : Mod} (hepoch : gangEpoch f m = true) (hpar : m.gang.parity = false) (hnum : m.gang.rxNum = m.gang.expect)
    (payload : Mod → Mod) : gangRecv f payload m =
      flitEnded (payload (flitCounted (gangHeader f (onGang (fun g => { g with rxNum := (g.rxNum + 1) % 4096 }) m)))) := by
  simp only [gangRecv, hepoch, hpar, hnum, Bool.not_true, Bool.false_eq_true, if_false, bne_self_eq_false]
  rw [← flitCounted]
  generalize payload _ = y
  rfl

theorem gangRecv_of_expected {f : FlitHdr} {s : State} (h : expected f s) (payload : Mod → Mod) :
    gangRecv f payload s.m = flitEnded (payload (recvd f s.m)) := by
  have hepoch := gangEpoch_of_expected h
  obtain ⟨-, -, -, hpar, hnum, hwait, hack⟩ := h
  have hheader := gangHeader_of_plain (m := onGang (fun g => { g with rxNum := (g.rxNum + 1) % 4096 }) s.m) hack hwait
  rw [gangRecv_of_next hepoch hpar hnum, hheader]
  rfl

/-- An expected flit completes with what its message does, and the end of its service. -/
theorem completes_of_expected {c : Instr} {f : FlitHdr} {s : State} (payload : Mod → Mod) {x : Mod}
    (hc : exec c s = .next (onMod (gangRecv f payload) s)) (h : expected f s) (hpayload : payload (recvd f s.m) = x) :
    completes c s (flitTail x) :=
  completes_of_onMod _ hc h.1 (by rw [gangRecv_of_expected h, hpayload]; exact flitTail_flitEnded x)

/-- A flit of another epoch does nothing. -/
theorem gangRecv_of_other_epoch {f : FlitHdr} {m : Mod} (h : gangEpoch f m = false) (payload : Mod → Mod) : gangRecv f payload m = m := by
  rw [gangRecv, h]
  rfl

/-! ### HELLO (R424, R425, R437, R448) -/

section
variable {f : FlitHdr} {x : HelloMsg} {m : Mod}

theorem hello_of_deaf (h : m.gang.dead = true ∨ m.gang.link < 2) : hello f x m = m := if_pos (by simpa using h)

theorem hello_of_opening (hdead : m.gang.dead = false) (hlink : m.gang.link = 2) (hchange : m.gang.change = none) : hello f x m =
    if x.moduleId = Config.moduleId then event 0x0B01 0 1 (gangErr 7 (onGang (fun g => { g with dead := true, link := 1, peerId := x.moduleId }) m))
    else chooseSource x (openEpoch x m) := by
  simp only [hello, hdead, hlink, hchange, Bool.false_or, Nat.lt_irrefl, decide_false, Bool.false_eq_true, if_false, and_self, if_true]

/-- What a HELLO does that comes while the link is up. -/
def helloAgain (x : HelloMsg) (m : Mod) : Mod :=
  let y := onGang (fun g => { g with peer := some x }) m
  if x.digest ≠ regionDigest y then mismatch x.digest y else if y.gang.mirror = .mismatch then chooseSource x y else y

theorem hello_of_up (hdead : m.gang.dead = false) (hlink : m.gang.link = 3) : hello f x m = gangRecv f (helloAgain x) m := by
  simp only [hello, hdead, hlink, Bool.false_or, show ¬ (3 < 2) by decide, show ¬ (3 = 2) by decide, decide_false, Bool.false_eq_true, if_false,
    false_and]
  rfl

theorem chooseSource_of_equal (hdigest : x.digest = regionDigest m) : chooseSource x m =
    if m.gang.fresh && x.fresh then gangSet m fun g => { g with mirror := .mirroring }
    else if m.gang.fresh then startDest m
    else if x.fresh then startSource false m
    else if !m.gang.bitmap.isEmpty && x.dirty then gangSet m fun g => { g with mirror := .split }
    else if !m.gang.bitmap.isEmpty then startSource false m
    else if x.dirty then startDest m
    else if m.gang.primary then startSource true m
    else startDest m := by
  rw [chooseSource, if_neg (not_not.mpr hdigest)]
  refine if_congr (by simp) rfl (if_congr Iff.rfl rfl (if_congr Iff.rfl rfl (if_congr (by simp) rfl rfl)))

theorem chooseSource_of_different (hdigest : x.digest ≠ regionDigest m) : chooseSource x m = mismatch x.digest m := if_pos hdigest

end

/-- The digests differ and nothing is under way (R425). -/
theorem mismatch_of_idle {d : Word64} {m : Mod} (hidle : mirrorIdle m.gang) : mismatch d m =
    event 0x0B02 0 d.toNat { m with gang := unmirrored { m.gang with mirror := .mismatch, err := putBit m.gang.err 8 true } } := by
  obtain ⟨hwaits, hheld, -, hreading⟩ := hidle
  rw [mismatch, completeWaits_of_idle (m := gangErr 8 (onGang (fun g => { g with mirror := .mismatch }) m)) hwaits hheld hreading]
  rfl

@[simp] theorem openEpoch_prot (x : HelloMsg) (m : Mod) : (openEpoch x m).prot = m.prot := rfl

/-! ### Training (R423, R424) -/

theorem exec_gangTrainingTimeout (s : State) : exec .gangTrainingTimeout s = .next (onMod (onGang (fun g =>
    if g.link ≠ 2 ∨ g.change.isSome then g
    else if g.width < 2 then { g with width := g.width + 1 }
    else if g.rate = 0 then { g with width := 0, rate := 1 }
    else { g with link := 1, width := 0, rate := 0 })) s) := rfl

/-- The gangline trains again, where it may. -/
def retrained (m : Mod) : Mod :=
  if m.gang.link = 1 ∧ m.gang.dead = false ∧ m.proc.bootDone ∧ m.therm.critical = false ∧ m.power.state ≠ 3 then
    onGang (fun g => { g with link := 2, width := 0, rate := 0 }) m
  else m

theorem exec_gangTrainingRetry (s : State) : exec .gangTrainingRetry s = .next (onMod retrained s) := rfl

/-- HELLO at link-up goes out as flit 0, outside any epoch. -/
theorem sendHello_of_training {m : Mod} (h : m.gang.link ≠ 3) :
    let x : GangOut := .hello m.gang.topEpoch m.gang.fresh (!m.gang.bitmap.isEmpty) m.gang.needPar (regionDigest m)
    sendHello m = perfCount devPage (perfPlain 0x0B 15) none (send (.gang m.gang.epoch.toNat 0 x (gangFlit m.gang 0 x)) m) := if_neg h

theorem sendHello_frame {m : Mod} (h : m.gang.link ≠ 3) :
    let x : GangOut := .hello m.gang.topEpoch m.gang.fresh (!m.gang.bitmap.isEmpty) m.gang.needPar (regionDigest m)
    (sendHello m).gang = m.gang ∧ (sendHello m).out = .gang m.gang.epoch.toNat 0 x (gangFlit m.gang 0 x) :: m.out ∧
      sendHello m = { m with out := (sendHello m).out, perf := (sendHello m).perf } := by
  intro x
  obtain ⟨perf, hperf⟩ := perfCount_eq (send (.gang m.gang.epoch.toNat 0 x (gangFlit m.gang 0 x)) m) devPage (perfPlain 0x0B 15) none
  rw [sendHello_of_training h, hperf]
  exact ⟨rfl, rfl, rfl⟩

/-- Settles O49: training and the first HELLO act on the gangline alone; a HELLO in an epoch is a flit like any other. -/
theorem ganglineTrainsAndOpensAnEpoch : Obligations.GanglineTrainsAndOpensAnEpoch := by
  unfold Obligations.GanglineTrainsAndOpensAnEpoch
  refine ⟨?timeout, ?noTimeout, ?retry, ?noRetry, ?linkUp, ?opens, ?again, ?deaf⟩
  case timeout =>
    intro s hp hlink hchange
    refine completes_of_onMod _ (exec_gangTrainingTimeout s) hp ?_
    rw [onGang, if_neg (by simp [hlink, hchange])]
    rfl
  case noTimeout =>
    intro s hlink
    refine exec_of_fixed _ (exec_gangTrainingTimeout s) ?_
    rw [onGang, if_pos (.inl hlink)]
  case retry =>
    intro s hp hlink hdead hboot hcrit hpower
    exact completes_of_onMod _ (exec_gangTrainingRetry s) hp (if_pos ⟨hlink, hdead, hboot, hcrit, hpower⟩)
  case noRetry =>
    intro s hno
    refine exec_of_fixed _ (exec_gangTrainingRetry s) (if_neg ?_)
    rintro ⟨hlink, hdead, -⟩
    rcases hno with h | h
    · exact h hlink
    · exact absurd (h.symm.trans hdead) (by decide)
  case linkUp =>
    intro w r s hp hlink hchange
    refine completes_of_onMod (fun m => if m.gang.link = 2 ∧ m.gang.change = none then
      sendHello (onGang (fun g => { g with width := w.val, rate := r.val }) m) else m) rfl hp ?_
    have hnot : (onGang (fun g => { g with width := w.val, rate := r.val }) s.m).gang.link ≠ 3 := by
      intro h3
      exact absurd (hlink.symm.trans h3) (by decide)
    rw [if_pos ⟨hlink, hchange⟩]
    obtain ⟨hgang, hout, hrest⟩ := sendHello_frame hnot
    rw [regionDigest_onGang] at hout
    intro x
    rw [hgang]
    exact ⟨rfl, hout, hrest⟩
  case opens =>
    intro f x s hp hlink hchange hdead
    have hrun : ∀ {P : Mod → Prop}, P (hello f x s.m) → completes (.hello f x) s P := fun hP => completes_of_onMod (hello f x) rfl hp hP
    have hopening := hello_of_opening (f := f) (x := x) hdead hlink hchange
    refine ⟨fun hown => hrun ?_, fun hother hfresh hpeer hdigest => hrun ?_, fun hother hdigest => hrun ?_, fun hother hdigest hidle => hrun ?_⟩
    · rw [hopening, if_pos hown]
      rfl
    · rw [hopening, if_neg hother, chooseSource_of_equal (m := openEpoch x s.m) (hdigest.trans (regionDigest_of_prot_eq rfl).symm),
        if_pos (by rw [hpeer]; exact (Bool.and_true _).trans hfresh)]
      exact ⟨rfl, rfl, rfl, rfl, rfl, rfl, rfl, rfl, rfl, rfl, rfl, rfl, rfl, rfl⟩
    · rw [hopening, if_neg hother, chooseSource_of_equal (m := openEpoch x s.m) (hdigest.trans (regionDigest_of_prot_eq rfl).symm)]
      exact if_congr Iff.rfl rfl (if_congr Iff.rfl rfl (if_congr Iff.rfl rfl (if_congr Iff.rfl rfl (if_congr Iff.rfl rfl (if_congr Iff.rfl rfl
        (if_congr decide_eq_true_iff rfl rfl))))))
    · rw [hopening, if_neg hother, chooseSource_of_different (m := openEpoch x s.m) (by rwa [regionDigest_of_prot_eq (openEpoch_prot x s.m)]),
        mismatch_of_idle (m := openEpoch x s.m) hidle]
      exact ⟨_, rfl, rfl, (getLsbD_putBit _ 8 8 true (by decide)).trans (if_pos rfl), rfl, rfl⟩
  case again =>
    intro f x s hs hdead hdigest y
    have hup : s.m.gang.link = 3 := hs.2.1
    refine completes_of_onMod (hello f x) rfl hs.1 ?_
    rw [hello_of_up hdead hup, gangRecv_of_expected hs]
    have hequal : helloAgain x (recvd f s.m) = if s.m.gang.mirror = .mismatch then chooseSource x y else y :=
      if_neg (not_not.mpr (hdigest.trans (regionDigest_of_prot_eq rfl).symm))
    rw [hequal]
    exact flitTail_flitEnded _
  case deaf =>
    intro f x s hdeaf
    exact exec_of_fixed (hello f x) rfl (hello_of_deaf hdeaf)

end Sys2Proof.Machine
end

