-- ==== Sys2Proof/Proofs/GanglineLink.lean ====
section
/-! PROOFS. The gangline's link layer and its admin commands (O51): headers, markers, timers, changes of width and rate, and the ends of an epoch. -/
namespace Sys2Proof.Machine

open Sys2Proof.Stmt

/-! ### Epochs and changes -/

theorem linkUp_of_up {g : GangSt} (h : g.link = 3) : linkUp g := ⟨by omega, fun h2 => by omega⟩

theorem linkUp_of_changing {g : GangSt} (hlink : g.link = 2) (hchange : g.change.isSome = true) : linkUp g := ⟨hlink.ge, fun _ => hchange⟩

/-- The end of an epoch while the mirror engine has nothing under way and no lane test runs. -/
theorem epochOver_epochEnd {cause : Nat} {m : Mod} (hup : linkUp m.gang) (hidle : mirrorIdle m.gang) (htest : m.gang.laneTest = none) :
    epochOver cause m (epochEnd cause true m) := by
  refine ⟨{ m with gang := epochless true m.gang }, ?_, ?_, rfl, rfl, rfl, rfl, rfl, rfl, rfl, rfl, rfl⟩
  · rw [epochEnd_of_idle hup hidle, laneTestBroken, htest]
  · change (if true && !m.gang.dead then 2 else 1) = if m.gang.dead then 1 else 2
    cases m.gang.dead <;> rfl

theorem askChange_of_settled {w r : Nat} {m : Mod} (hlink : m.gang.link = 3) (hchange : m.gang.change = none) :
    changeAsked w r m (askChange w r m) := by
  simp [askChange, changeAsked, hlink, hchange, onGang, gangSet]

theorem askChange_of_down {w r : Nat} {m : Mod} (hlink : m.gang.link < 2) : askChange w r m = m := if_pos (by simp [hlink])

/-! ### Headers and markers (R431 to R434) -/

/-- What the header of a flit of the epoch leaves of the gangline. -/
def headered (f : FlitHdr) (now : Nat) (g : GangSt) : GangSt :=
  let acked := f.ackV && g.sent.any (fun x => x.seq == f.ack)
  { g with barkAt := if f.bark then now else g.barkAt, reqRet := f.cred % 1024
           sent := if acked then (g.sent.dropWhile (fun x => x.seq != f.ack)).drop 1 else g.sent
           expiries := if acked then 0 else g.expiries }

theorem gangHeader_of_none_waiting {f : FlitHdr} {m : Mod} (hwait : m.gang.txWait = []) : gangHeader f m = gangSet m (headered f m.tb.now) := by
  unfold gangHeader
  extract_lets g g1 g2 g3
  have hg1 : g1 = { g with barkAt := if f.bark then m.tb.now else g.barkAt } := by
    simp only [g1]
    cases f.bark <;> rfl
  have hg3 : g3 = headered f m.tb.now g := by
    simp only [g3, g2, hg1, headered]
    cases f.ackV && g.sent.any (fun x => x.seq == f.ack) <;> rfl
  rw [hg3]
  exact gangPump_of_none_waiting hwait

/-- What a marker does after its header. -/
def marked (n : Nat) (m : Mod) : Mod :=
  if 1024 < (m.gang.expect + 4096 - n) % 4096 then epochEnd 5 true (event 0x0B01 0 2 (gangErr 7 m)) else onGang (fun g => { g with rxNum := n }) m

theorem exec_idle (f : FlitHdr) (s : State) : exec (.idle f) s = .next (onMod (fun m => if gangEpoch f m then gangHeader f m else m) s) := rfl

theorem exec_replayMarker (f : FlitHdr) (n : Fin 4096) (s : State) :
    exec (.replayMarker f n) s = .next (onMod (fun m => if !gangEpoch f m then m else marked n.val (gangHeader f m)) s) := rfl

/-! ### Flits that fail their check (R431, R437) -/

/-- A failed flit is counted. -/
def crcCounted (m : Mod) : Mod :=
  gangErr 0 (onGang (fun g => { g with
    crcFail := satAdd 0xFFFF_FFFF g.crcFail 1
    crcAt := m.tb.now :: g.crcAt.filter (fun t => m.tb.now < t + 1000000) }) m)

/-- After sixteen failures within 1 ms the gangline asks for x4, or at x4 for the lower rate. -/
def crcLimited (m : Mod) : Mod :=
  if m.gang.crcAt.length < 16 ∨ m.gang.change ≠ none then m
  else if m.gang.width = 0 then askChange 1 m.gang.rate m
  else if m.gang.rate = 0 then askChange m.gang.width 1 m
  else m

theorem crcLimited_of_many {m : Mod} (hmany : 16 ≤ m.gang.crcAt.length) (hlink : m.gang.link = 3) (hchange : m.gang.change = none) :
    if m.gang.width = 0 then changeAsked 1 m.gang.rate m (crcLimited m)
    else if m.gang.rate = 0 then changeAsked m.gang.width 1 m (crcLimited m) else crcLimited m = m := by
  have hlimited : crcLimited m = if m.gang.width = 0 then askChange 1 m.gang.rate m
      else if m.gang.rate = 0 then askChange m.gang.width 1 m else m :=
    if_neg (not_or.mpr ⟨Nat.not_lt.mpr hmany, not_not.mpr hchange⟩)
  rw [hlimited]
  split_ifs
  · exact askChange_of_settled hlink hchange
  · exact askChange_of_settled hlink hchange
  · rfl

theorem exec_flitDiscard (flit : BitVec 1024) (s : State) : exec (.flitDiscard flit) s = .next (onMod (fun m =>
    if m.gang.link < 2 || (m.gang.link == 2 && m.gang.change.isNone) || flitPasses m.gang flit then m
    else if m.gang.parity then epochEnd 7 true (gangErr 3 m) else crcLimited (crcCounted m)) s) := rfl

theorem flitDiscards {m : Mod} {flit : BitVec 1024} (hlink : m.gang.link = 3 ∨ m.gang.link = 2 ∧ m.gang.change.isSome = true)
    (hfails : flitPasses m.gang flit = false) :
    ¬ (decide (m.gang.link < 2) || (m.gang.link == 2 && m.gang.change.isNone) || flitPasses m.gang flit) = true := by
  rcases hlink with h | ⟨h, hchange⟩
  · simp [h, hfails]
  · simp [h, hfails, Option.isNone_eq_false_iff.mpr hchange]

/-! ### Timers (R433, R435, R441, R442) -/

/-- The bytes of a flit show no more of the gangline than its header and its mode. -/
theorem gangFlit_congr {g g' : GangSt} (hexpect : g.expect = g'.expect) (hack : g.ackV = g'.ackV) (hcred : g.credRet = g'.credRet)
    (hepoch : g.epoch = g'.epoch) (hpar : g.parity = g'.parity) (hlink : g.link = g'.link) (hchange : g.change = g'.change) (seq : Nat) (x : GangOut) :
    gangFlit g seq x = gangFlit g' seq x := by
  have hheader : flitHeader g x = flitHeader g' x := by rw [flitHeader, flitHeader, hexpect, hack, hcred, hepoch]
  have hmode : inParity g = inParity g' := by rw [inParity, inParity, hpar, hlink, hchange]
  rw [gangFlit, gangFlit, hheader, hmode]

theorem gangFlit_acked (g : GangSt) (seq : Nat) (x : GangOut) : gangFlit { g with unacked := 0 } seq x = gangFlit g seq x :=
  gangFlit_congr rfl rfl rfl rfl rfl rfl rfl seq x

/-- A flit without a number goes out. -/
theorem gangPlain_sends {x : GangOut} {m : Mod} (hlink : m.gang.link = 3) : ∃ perf, gangPlain x m =
    { m with out := .gang m.gang.epoch.toNat 0 x (gangFlit m.gang 0 x) :: m.out, perf := perf, gang := { m.gang with unacked := 0 } } := by
  obtain ⟨perf, hperf⟩ := perfCount_eq (gangOutput 0 x (onGang (fun g => { g with unacked := 0 }) m)) devPage (perfPlain 0x0B 15) none
  refine ⟨perf, ?_⟩
  rw [gangPlain, if_pos hlink, hperf, ← gangFlit_acked m.gang 0 x]
  rfl

/-- A gangline that a replay timer's expiry has counted shows the same in its flits. -/
def replayCounted (g : GangSt) : GangSt :=
  { g with expiries := g.expiries + 1, replays := satAdd 0xFFFF_FFFF g.replays 1, err := putBit g.err 1 true }

theorem exec_replayTimer (s : State) : exec .replayTimer s = .next (onMod (fun m => if m.gang.link ≠ 3 ∨ m.gang.sent = [] then m
    else if 3 ≤ m.gang.expiries then epochEnd 3 true m else resend { m with gang := replayCounted m.gang }) s) := rfl

theorem exec_ackTimer (s : State) : exec .ackTimer s = .next (onMod (fun m => if m.gang.link = 3 ∧ m.gang.unacked ≠ 0 ∧ m.gang.parity = false then
    gangPlain (.idle ((m.gang.expect + 4095) % 4096)) m else m) s) := rfl

theorem exec_barkTimeout (s : State) : exec .barkTimeout s = .next (onMod (fun m =>
    if (m.gang.link = 3 ∨ m.gang.change ≠ none) ∧ m.gang.barkAt + 35000 ≤ m.tb.now then epochEnd 2 true (gangErr 5 m) else m) s) := rfl

/-- Flits that go out again, one after the other. -/
theorem foldl_resend (l : List Sent) (m : Mod) : ∃ perf,
    l.foldl (fun m y => perfCount devPage (perfPlain 0x0C 15) none (gangOutput y.seq y.msg m)) m = { m with
      out := (l.map (fun y => Out.gang m.gang.epoch.toNat y.seq y.msg (gangFlit m.gang y.seq y.msg))).reverse ++ m.out, perf := perf } := by
  induction l generalizing m with
  | nil => exact ⟨m.perf, rfl⟩
  | cons y l ih =>
    obtain ⟨perf, hperf⟩ := perfCount_eq (gangOutput y.seq y.msg m) devPage (perfPlain 0x0C 15) none
    rw [List.foldl_cons, hperf]
    obtain ⟨perf', hrest⟩ := ih { gangOutput y.seq y.msg m with perf := perf }
    refine ⟨perf', hrest.trans ?_⟩
    simp only [gangOutput, send, List.map_cons, List.reverse_cons, List.append_assoc, List.singleton_append]

/-- The marker and the flits that no acknowledgement covers. -/
theorem resend_of_some {m : Mod} (h : m.gang.sent ≠ []) :
    let first : GangOut := .marker ((m.gang.sent.map (·.seq)).headD 0)
    ∃ perf, resend m = { m with
      out := (m.gang.sent.map (fun y => Out.gang m.gang.epoch.toNat y.seq y.msg (gangFlit m.gang y.seq y.msg))).reverse ++
        .gang m.gang.epoch.toNat 0 first (gangFlit m.gang 0 first) :: m.out
      perf := perf, gang := { m.gang with unacked := 0 } } := by
  cases hsent : m.gang.sent with
  | nil => exact absurd hsent h
  | cons x rest =>
    intro first
    have hresend : resend m = (x :: rest).foldl (fun m y => perfCount devPage (perfPlain 0x0C 15) none (gangOutput y.seq y.msg m))
        (onGang (fun g => { g with unacked := 0 }) (gangOutput 0 (.marker x.seq) m)) := by
      simp only [resend, hsent]
    obtain ⟨perf, hflits⟩ := foldl_resend (x :: rest) (onGang (fun g => { g with unacked := 0 }) (gangOutput 0 (.marker x.seq) m))
    have hsame : (fun y : Sent => Out.gang m.gang.epoch.toNat y.seq y.msg (gangFlit { m.gang with unacked := 0 } y.seq y.msg)) =
        fun y => Out.gang m.gang.epoch.toNat y.seq y.msg (gangFlit m.gang y.seq y.msg) := by
      funext y
      rw [gangFlit_acked]
    refine ⟨perf, hresend.trans (hflits.trans ?_)⟩
    rw [← hsame]
    rfl

theorem resend_of_none {m : Mod} (h : m.gang.sent = []) : resend m = m := by
  simp only [resend, h]

/-! ### Lanes and changes (R438, R439, R442) -/

/-- A loss of lanes that are in use. -/
def lanesLost (lanes : BitVec 8) (m : Mod) : Mod :=
  if m.gang.link ≠ 3 ∨ lanes &&& activeLanes m.gang.width = 0 then m
  else if lanes &&& activeLanes m.gang.width = activeLanes m.gang.width then epochEnd 1 true m
  else askChange (reduced (lanes &&& activeLanes m.gang.width) m.gang).1 (reduced (lanes &&& activeLanes m.gang.width) m.gang).2 m

theorem exec_laneLoss (l : BitVec 8) (s : State) : exec (.laneLoss l) s = .next (onMod (lanesLost l) s) := rfl

theorem activeLanes_ne_zero (w : Nat) : activeLanes w ≠ 0 := by
  unfold activeLanes
  split_ifs <;> decide

/-- The retrain of a change ends at its width and rate, and what waited goes on. -/
def changeOver (next : Option (Nat × Nat × Bool)) (y : Mod) : Mod := match next with
  | some (w, r, true) => askChange w r (gangPump (resend y))
  | some (w, r, false) => peerChange w r (gangPump (resend y))
  | none => gangPump (resend y)

/-- The gangline at the end of a change's retrain. -/
def changed (w r : Nat) (g : GangSt) : GangSt :=
  { g with link := 3, width := w, rate := r, change := none, changeOwn := false, changeWait := none, crcAt := [] }

theorem exec_changeComplete (s : State) : exec .changeComplete s = .next (onMod (fun m => match m.gang.change with
    | none => m
    | some (w, r) => changeOver m.gang.changeWait (gangSet m (changed w r))) s) := rfl

theorem exec_changeTimeout (s : State) : exec .changeTimeout s =
    .next (onMod (fun m => if m.gang.change.isSome then epochEnd 4 true m else m) s) := rfl

/-- A second without error at a reduced setting. -/
def fullAgain (m : Mod) : Mod :=
  let w := if m.gang.keepX4 then m.gang.width else 0
  if m.gang.link = 3 ∧ (m.gang.width ≠ w ∨ m.gang.rate ≠ 0) ∧ m.gang.laneTest = none then askChange w 0 m else m

theorem exec_errorFreeTimer (s : State) : exec .errorFreeTimer s = .next (onMod fullAgain s) := rfl

theorem exec_linkLogicFault (b : Bool) (s : State) : exec (.linkLogicFault b) s = .next (onMod (fun m => if m.gang.link = 0 then m
    else epochEnd 6 true (onGang (fun g => { g with needPar := true }) (event 0x0B04 0 (if b then 1 else 0) (gangErr 4 m)))) s) := rfl

/-! ### The link layer (O51, its first half) -/

theorem ganglineFlitsTimersAndFaultsAct : GanglineFlitsTimersAndFaultsAct := by
  unfold GanglineFlitsTimersAndFaultsAct
  refine ⟨?idle, ?marker, ?otherEpoch, ?fails, ?passes, ?timers, ?lanes, ?noLanes, ?fault, ?noFault, ?change, ?noChange, ?errorFree⟩
  case idle =>
    intro f s hp hepoch hwait
    exact completes_of_onMod _ (exec_idle f s) hp ((if_pos hepoch).trans (gangHeader_of_none_waiting hwait))
  case marker =>
    intro f n s hp hepoch hwait hack back y
    have hheader : gangHeader f s.m = y := gangHeader_of_plain hack hwait
    have hrun : ∀ {P : Mod → Prop}, P (marked n.val y) → completes (.replayMarker f n) s P := fun hP =>
      completes_of_onMod _ (exec_replayMarker f n s) hp (by rw [hepoch, hheader]; exact hP)
    refine ⟨fun hnear => hrun (if_neg (Nat.not_lt.mpr hnear)), fun hfar hlink hidle htest => hrun ?_⟩
    have hends : marked n.val y = epochEnd 5 true (event 0x0B01 0 2 (gangErr 7 y)) := if_pos hfar
    rw [hends]
    exact epochOver_epochEnd (m := event 0x0B01 0 2 (gangErr 7 y)) (by rw [event_gang]; exact linkUp_of_up hlink) (by rw [event_gang]; exact hidle)
      (by rw [event_gang]; exact htest)
  case otherEpoch =>
    intro f n s hepoch
    exact ⟨exec_of_fixed _ (exec_idle f s) (if_neg (by rw [hepoch]; decide)), exec_of_fixed _ (exec_replayMarker f n s) (if_pos (by rw [hepoch]; rfl))⟩
  case fails =>
    intro flit s hp hlink hfails old y
    have hdiscards := flitDiscards hlink hfails
    have hrun : ∀ {P : Mod → Prop}, P (if s.m.gang.parity then epochEnd 7 true (gangErr 3 s.m) else crcLimited (crcCounted s.m)) →
        completes (.flitDiscard flit) s P := fun hP => completes_of_onMod _ (exec_flitDiscard flit s) hp (by rwa [if_neg hdiscards])
    have hcounted : crcCounted s.m = y := rfl
    have hlength : y.gang.crcAt.length = old.length + 1 := rfl
    refine ⟨fun hpar hfew => hrun ?_, fun hpar hmany hchange => hrun ?_, fun hpar hidle htest => hrun ?_⟩
    · rw [hpar, if_neg Bool.false_ne_true, hcounted]
      refine if_pos (hfew.imp (fun h => by omega) fun h hnone => ?_)
      exact absurd (h.symm.trans (congrArg Option.isSome hnone)) (by decide)
    · have hup : s.m.gang.link = 3 := hlink.resolve_right fun h => absurd (h.2.symm.trans (congrArg Option.isSome hchange)) (by decide)
      rw [hpar, if_neg Bool.false_ne_true, hcounted]
      exact crcLimited_of_many (m := y) (by omega) hup hchange
    · rw [hpar, if_pos rfl]
      have hup : linkUp s.m.gang := hlink.elim linkUp_of_up fun h => linkUp_of_changing h.1 h.2
      exact epochOver_epochEnd (m := gangErr 3 s.m) hup hidle htest
  case passes =>
    intro flit s hpasses
    refine exec_of_fixed _ (exec_flitDiscard flit s) (if_pos ?_)
    rcases hpasses with h | h <;> simp [h]
  case timers =>
    intro s hp hlink sends
    have hsends : ∀ x, sends x (gangPlain x s.m) := fun x => by
      obtain ⟨perf, hplain⟩ := gangPlain_sends (x := x) hlink
      rw [hplain]
      exact ⟨rfl, rfl⟩
    refine ⟨fun howed hpar => completes_of_onMod _ (exec_ackTimer s) hp ?_, completes_of_onMod (gangPlain .bark) rfl hp (hsends .bark),
      fun hsent hfew => completes_of_onMod _ (exec_replayTimer s) hp ?_,
      fun hidle htest => ⟨fun hsent hthird => completes_of_onMod _ (exec_replayTimer s) hp ?_,
        fun hquiet => completes_of_onMod _ (exec_barkTimeout s) hp ?_, fun l hall => completes_of_onMod _ (exec_laneLoss l s) hp ?_⟩⟩
    · rw [if_pos ⟨hlink, howed, hpar⟩]
      exact hsends _
    · rw [if_neg (not_or.mpr ⟨not_not.mpr hlink, hsent⟩), if_neg (Nat.not_le.mpr hfew)]
      obtain ⟨perf, hresend⟩ := resend_of_some (m := { s.m with gang := replayCounted s.m.gang }) hsent
      rw [hresend]
      have hflit : ∀ seq x, gangFlit (replayCounted s.m.gang) seq x = gangFlit s.m.gang seq x := gangFlit_congr rfl rfl rfl rfl rfl rfl rfl
      refine ⟨rfl, ?_, rfl⟩
      simp only [hflit]
      rfl
    · rw [if_neg (not_or.mpr ⟨not_not.mpr hlink, hsent⟩), if_pos hthird]
      exact epochOver_epochEnd (linkUp_of_up hlink) hidle htest
    · rw [if_pos ⟨.inl hlink, hquiet⟩]
      exact epochOver_epochEnd (m := gangErr 5 s.m) (linkUp_of_up hlink) hidle htest
    · rw [lanesLost, if_neg (not_or.mpr ⟨not_not.mpr hlink, by rw [hall]; exact activeLanes_ne_zero _⟩), if_pos hall]
      exact epochOver_epochEnd (linkUp_of_up hlink) hidle htest
  case lanes =>
    intro l s hp hlink hchange hwidth hsome hpart
    refine completes_of_onMod _ (exec_laneLoss l s) hp ?_
    have hact : l &&& activeLanes s.m.gang.width = l := by rw [hwidth]; exact BitVec.and_allOnes
    have hnotAll : ¬ l = activeLanes s.m.gang.width := by rw [hwidth]; exact hpart
    rw [lanesLost, hact, if_neg (not_or.mpr ⟨not_not.mpr hlink, hsome⟩), if_neg hnotAll, reduced]
    split_ifs
    · exact askChange_of_settled hlink hchange
    · exact askChange_of_settled hlink hchange
    · rw [hwidth]
      exact askChange_of_settled hlink hchange
  case noLanes =>
    intro l s hno
    exact exec_of_fixed _ (exec_laneLoss l s) (if_pos hno)
  case fault =>
    intro b s hp hlink hidle htest
    refine completes_of_onMod _ (exec_linkLogicFault b s) hp ?_
    have hon : ¬ s.m.gang.link = 0 := fun hoff => absurd (hlink.symm.trans hoff) (by decide)
    rw [if_neg hon]
    have hgang : (event 0x0B04 0 (if b then 1 else 0) (gangErr 4 s.m)).gang = (gangErr 4 s.m).gang := event_gang ..
    refine ⟨event 0x0B04 0 (if b then 1 else 0) (gangErr 4 s.m), rfl, ?_⟩
    generalize event 0x0B04 0 (if b then 1 else 0) (gangErr 4 s.m) = y at hgang
    refine epochOver_epochEnd (m := onGang (fun g => { g with needPar := true }) y) ?_ ?_ ?_
    · exact linkUp_of_up ((congrArg GangSt.link hgang).trans hlink)
    · obtain ⟨hwaits, hheld, hrx, hreading⟩ := hidle
      exact ⟨(congrArg GangSt.waits hgang).trans hwaits, (congrArg GangSt.held hgang).trans hheld,
        (congrArg GangSt.rxWait hgang).trans hrx, (congrArg GangSt.reading hgang).trans hreading⟩
    · exact (congrArg GangSt.laneTest hgang).trans htest
  case noFault =>
    intro s hlink b
    exact exec_of_fixed _ (exec_linkLogicFault b s) (if_pos hlink)
  case change =>
    intro w r s hp hlink hchange
    refine ⟨fun hidle htest => completes_of_onMod _ (exec_changeTimeout s) hp ?_, ?_⟩
    · have hsome : s.m.gang.change.isSome = true := by rw [hchange]; rfl
      rw [if_pos hsome]
      exact epochOver_epochEnd (linkUp_of_changing hlink hsome) hidle htest
    · intro y
      refine completes_of_onMod _ (exec_changeComplete s) hp ?_
      rw [hchange]
      refine ⟨fun hsent hwait hnext => ?_, ?_⟩
      · rw [hnext]
        have hstill : resend (gangSet s.m (changed w r)) = gangSet s.m (changed w r) := resend_of_none hsent
        exact (congrArg gangPump hstill).trans (gangPump_of_none_waiting hwait)
      · rcases s.m.gang.changeWait with _ | ⟨w', r', _ | _⟩ <;> rfl
  case noChange =>
    intro s hnone
    exact ⟨exec_of_fixed _ (exec_changeTimeout s) (if_neg (by rw [hnone]; decide)), exec_of_fixed _ (exec_changeComplete s) (by simp only [hnone])⟩
  case errorFree =>
    intro s hp hlink hchange hreduced htest hkeep
    refine completes_of_onMod _ (exec_errorFreeTimer s) hp ?_
    rw [fullAgain, hkeep, if_neg Bool.false_ne_true, if_pos ⟨hlink, hreduced, htest⟩]
    exact askChange_of_settled hlink hchange

/-! ### GANG_SOURCE and GANG_LANE_TEST (R448, R453) -/

/-- What GANG_SOURCE does of its own. -/
def sourceNamed (peer : Word64) (here : Bool) (c : AdminTag) (m : Mod) : Mod :=
  if m.gang.link ≠ 3 then done c 0x82 m
  else if m.gang.mirror ≠ .split then done c 0x81 m
  else if m.gang.peerId ≠ peer then done c 0x85 m
  else done c 0x80 (if here then splitSource m else splitDest m)

theorem exec_gangSource (h : AdminHdr) (peer : Word64) (here : Bool) (s : State) :
    exec (.gangSource h peer here) s = .next (onMod (admin h 0x0901 true (sourceNamed peer here)) s) := rfl

theorem splitSource_eq (m : Mod) : splitSource m = startSource false (gangSet { m with free := m.free + 1 } fun g =>
    { g with bitmap := (List.range (granCount m)).filter (fun i => g.bitmap.contains i ||
                         ((Config.peerBits m.free).filter (· < granCount m)).contains i) }) := rfl

theorem splitDest_eq (m : Mod) : splitDest m = gangSet (send (.gangBitmap m.gang.bitmap) m) fun g =>
    { g with mirror := .dest, rxGran := [], rxDiff := [], rxLast := false } := rfl

theorem sourceNamed_spec (peer : Word64) (here : Bool) (c : AdminTag) (m : Mod) :
    if m.gang.link ≠ 3 then sourceNamed peer here c m = done c 0x82 m
    else if m.gang.mirror ≠ .split then sourceNamed peer here c m = done c 0x81 m
    else if m.gang.peerId ≠ peer then sourceNamed peer here c m = done c 0x85 m
    else if here then sourceNamed peer here c m = done c 0x80 (splitSource m)
    else sourceNamed peer here c m = done c 0x80 (splitDest m) := by
  unfold sourceNamed
  split_ifs <;> rfl

/-- What GANG_LANE_TEST does of its own. -/
def laneTested (hi : Bool) (c : AdminTag) (m : Mod) : Mod :=
  if m.gang.change.isSome || m.gang.laneTest.isSome then done c 0x83 m
  else if m.gang.link ≠ 3 then done c 0x82 m
  else askChange (if hi then 1 else 2) m.gang.rate (onGang (fun g => { g with laneTest := some (c, hi) }) m)

theorem exec_gangLaneTest (h : AdminHdr) (hi : Bool) (ms : Nat) (s : State) : exec (.gangLaneTest h hi ms) s =
    .next (onMod (admin h 0x0902 (decide (1 ≤ ms) && decide (ms ≤ 1000)) (laneTested hi)) s) := rfl

theorem laneTested_spec (hi : Bool) (c : AdminTag) (m : Mod) :
    if m.gang.change.isSome ∨ m.gang.laneTest.isSome then laneTested hi c m = done c 0x83 m
    else if m.gang.link ≠ 3 then laneTested hi c m = done c 0x82 m
    else changeAsked (if hi then 1 else 2) m.gang.rate (gangSet m fun g => { g with laneTest := some (c, hi) }) (laneTested hi c m) := by
  by_cases hbusy : m.gang.change.isSome ∨ m.gang.laneTest.isSome
  · rw [if_pos hbusy]
    exact if_pos (by simpa using hbusy)
  by_cases hlink : m.gang.link ≠ 3
  · rw [if_neg hbusy, if_pos hlink, laneTested, if_neg (by simpa using hbusy), if_pos hlink]
  · have hasks : laneTested hi c m = askChange (if hi then 1 else 2) m.gang.rate (onGang (fun g => { g with laneTest := some (c, hi) }) m) :=
      (if_neg (by simpa using hbusy)).trans (if_neg hlink)
    rw [if_neg hbusy, if_neg hlink, hasks]
    have hchange : m.gang.change = none := by
      simpa using (not_or.mp hbusy).1
    exact askChange_of_settled (m := onGang (fun g => { g with laneTest := some (c, hi) }) m) (not_not.mp hlink) hchange

/-- The end of a lane test: the half that was tested comes back, or stays out with its failing lanes in the result. -/
def laneTestOver (c : AdminTag) (bad : BitVec 8) (m : Mod) : Mod :=
  let y := onGang (fun g => { g with laneTest := none, keepX4 := g.keepX4 || bad != 0 }) m
  if bad = 0 then askChange 0 0 (done c 0x80 y) else complete c 0x84 0 (bad.setWidth 96) y

theorem exec_gangLaneTestEnd (fails : BitVec 8) (s : State) : exec (.gangLaneTestEnd fails) s = .next (onMod (fun m => match m.gang.laneTest with
    | none => m
    | some (c, hi) => laneTestOver c (fails &&& (if hi then 0xF0 else 0x0F)) m) s) := rfl

theorem laneTestOver_of_good (c : AdminTag) (m : Mod) :
    laneTestOver c 0 m = askChange 0 0 (done c 0x80 (gangSet m fun g => { g with laneTest := none })) := by
  have hkeep : (m.gang.keepX4 || (0 : BitVec 8) != 0) = m.gang.keepX4 := by cases m.gang.keepX4 <;> rfl
  rw [laneTestOver, if_pos rfl, onGang, hkeep]
  rfl

theorem laneTestOver_of_bad {c : AdminTag} {bad : BitVec 8} {m : Mod} (hbad : bad ≠ 0) :
    laneTestOver c bad m = complete c 0x84 0 (bad.setWidth 96) (gangSet m fun g => { g with laneTest := none, keepX4 := true }) := by
  have hkeep : (m.gang.keepX4 || bad != 0) = true := by rw [bne_iff_ne.mpr hbad, Bool.or_true]
  rw [laneTestOver, if_neg hbad, onGang, hkeep]
  rfl

/-- A completion leaves the gangline. -/
theorem complete_gang (c : AdminTag) (code rused : Nat) (result : BitVec 96) (m : Mod) : (complete c code rused result m).gang = m.gang := by
  obtain ⟨_, _, _, _, _, _, h⟩ := complete_ringWork c code rused result m
  rw [h]

theorem done_gang (c : AdminTag) (code : Nat) (m : Mod) : (done c code m).gang = m.gang := complete_gang ..

theorem gangCommandsAct : GangCommandsAct := by
  unfold GangCommandsAct
  refine ⟨?source, ?test, ?testEnd, ?noTest⟩
  case source =>
    intro h peer here s ha b
    refine completes_of_accepted _ (exec_gangSource h peer here s) ha ?_
    have hspec := sourceNamed_spec peer here (tagOf h 0x0901) b
    rw [splitSource_eq, splitDest_eq] at hspec
    exact hspec
  case test =>
    intro h hi ms s ha hlow hhigh b
    exact completes_of_inRange _ (exec_gangLaneTest h hi ms s) ha (by simp [hlow, hhigh]) (laneTested_spec hi _ b)
  case testEnd =>
    intro fails c hi s hp htest bad y
    have hrun : ∀ {P : Mod → Prop}, P (laneTestOver c bad s.m) → completes (.gangLaneTestEnd fails) s P := fun hP =>
      completes_of_onMod _ (exec_gangLaneTestEnd fails s) hp (by rw [htest]; exact hP)
    refine ⟨fun hgood hdown => hrun ?_, fun hgood hlink hchange => hrun ?_, fun hbad => hrun (laneTestOver_of_bad hbad)⟩
    · rw [hgood, laneTestOver_of_good]
      exact askChange_of_down (by rw [done_gang]; exact hdown)
    · rw [hgood, laneTestOver_of_good]
      exact askChange_of_settled (m := y) ((congrArg GangSt.link (done_gang ..)).trans hlink) ((congrArg GangSt.change (done_gang ..)).trans hchange)
  case noTest =>
    intro fails s hnone
    exact exec_of_fixed _ (exec_gangLaneTestEnd fails s) (by simp only [hnone])

/-- Settles O51: its halves are the link layer with its timers and faults, and the admin commands. -/
theorem ganglineLinkAndCommandsAct : Obligations.GanglineLinkAndCommandsAct := ⟨ganglineFlitsTimersAndFaultsAct, gangCommandsAct⟩

end Sys2Proof.Machine
end

