-- ==== Sys2Proof/Proofs/Mirroring.lean ====
section
/-! PROOFS. Mirroring (O50): the requests of the mirror engine, and the responses and controls of an expected flit. -/
namespace Sys2Proof.Machine

open Sys2Proof.Stmt

/-! ### Received requests (R445, R449) -/

/-- An expected request flit: it wakes the module, its message is taken up, and the mirror engine goes on. -/
theorem completes_of_request {c : Instr} {f : FlitHdr} {s : State} (payload : Mod → Mod) {x : Mod}
    (hc : exec c s = .next (onMod (gangRequest f payload) s)) (h : expected f s) (hpayload : payload (wake 4 (touch (recvd f s.m))) = x) :
    completes c s (flitTail (mirrorGo x)) :=
  completes_of_expected (fun m => mirrorGo (payload (wake 4 (touch m)))) hc h (congrArg mirrorGo hpayload)

/-- A mirrored write is taken up. -/
def writeTaken (x : MirrorMsg) (data : Sector) (en : BitVec 64) (m : Mod) : Mod :=
  let off := x.sector.toNat * 64
  match mirrorRefuses m x.keyId off with
  | some st => gangCredit (sendMack x.tag st (if st = 1 then keyRefused true .a x.keyId m else m))
  | none =>
    let y := mirrorAccess false x.keyId off data en x.poison m
    rxPut (.write x.tag off) [y.1] y.2

/-- A sector of a resynchronisation is taken up. -/
def sectorTaken (x : MirrorMsg) (data : Sector) (m : Mod) : Mod :=
  let off := x.sector.toNat * 64
  match mirrorRefuses m x.keyId off with
  | some _ => rxPut (.sectors off 1) [] m
  | none =>
    let y := mirrorAccess true x.keyId off data (BitVec.allOnes 64) x.poison m
    rxPut (.sectors off 1) [y.1] y.2

/-- A page of zeros is taken up. -/
def pageTaken (x : MirrorMsg) (m : Mod) : Mod :=
  let off := x.sector.toNat * 64 / 4096 * 4096
  match regionOf m off, mirrorRefuses m ((regionOf m off).elim 0 engineKey) off with
  | some r, none =>
    if rgElastic r then rxPut (.page off) [] m
    else
      let y := accesses 64 (fun i m => mirrorAccess true (engineKey r) (off + 64 * i) 0 (BitVec.allOnes 64) false m) m
      rxPut (.sectors off 64) y.1 y.2
  | _, _ => rxPut (.sectors off 64) [] m

section
variable (f : FlitHdr) (x : MirrorMsg) (data : Sector) (s : State)

theorem exec_mwr : exec (.mwr f x data) s = .next (onMod (gangRequest f (writeTaken x data (BitVec.allOnes 64))) s) := rfl
theorem exec_mwrp (en : BitVec 64) : exec (.mwrp f x data en) s = .next (onMod (gangRequest f (writeTaken x data en)) s) := rfl
theorem exec_rsd : exec (.rsd f x data) s = .next (onMod (gangRequest f (fun m => sectorTaken x data (asDest m))) s) := rfl
theorem exec_zpg : exec (.zpg f x) s = .next (onMod (gangRequest f (fun m => pageTaken x (asDest m))) s) := rfl
theorem exec_rdig (n : Nat) (l : List Word64) : exec (.rdig f n l) s = .next (onMod (gangRequest f (fun m => startDigests l n (asDest m))) s) := rfl

end

section
variable {x : MirrorMsg} {data : Sector} {en : BitVec 64} {m : Mod}

theorem writeTaken_of_refused {st : Nat} (h : mirrorRefuses m x.keyId (x.sector.toNat * 64) = some st) :
    writeTaken x data en m = gangCredit (sendMack x.tag st (if st = 1 then keyRefused true .a x.keyId m else m)) := by
  simp only [writeTaken, h]

theorem writeTaken_of_stored {id : Nat} {y : Mod} (h : mirrorRefuses m x.keyId (x.sector.toNat * 64) = none)
    (haccess : mirrorAccess false x.keyId (x.sector.toNat * 64) data en x.poison m = (id, y)) :
    writeTaken x data en m = rxPut (.write x.tag (x.sector.toNat * 64)) [id] y := by
  simp only [writeTaken, h, haccess]

theorem sectorTaken_of_refused (h : mirrorRefuses m x.keyId (x.sector.toNat * 64) ≠ none) :
    sectorTaken x data m = rxPut (.sectors (x.sector.toNat * 64) 1) [] m := by
  obtain ⟨st, hst⟩ := Option.ne_none_iff_exists'.mp h
  simp only [sectorTaken, hst]

theorem sectorTaken_of_stored {id : Nat} {y : Mod} (h : mirrorRefuses m x.keyId (x.sector.toNat * 64) = none)
    (haccess : mirrorAccess true x.keyId (x.sector.toNat * 64) data (BitVec.allOnes 64) x.poison m = (id, y)) :
    sectorTaken x data m = rxPut (.sectors (x.sector.toNat * 64) 1) [id] y := by
  simp only [sectorTaken, h, haccess]

theorem pageTaken_of_unmapped (h : regionOf m (x.sector.toNat * 64 / 4096 * 4096) = none) :
    pageTaken x m = rxPut (.sectors (x.sector.toNat * 64 / 4096 * 4096) 64) [] m := by
  simp only [pageTaken, h]

theorem pageTaken_of_refused {r : BitVec 128} (h : regionOf m (x.sector.toNat * 64 / 4096 * 4096) = some r)
    (href : mirrorRefuses m (engineKey r) (x.sector.toNat * 64 / 4096 * 4096) ≠ none) :
    pageTaken x m = rxPut (.sectors (x.sector.toNat * 64 / 4096 * 4096) 64) [] m := by
  obtain ⟨st, hst⟩ := Option.ne_none_iff_exists'.mp href
  simp only [pageTaken, h, Option.elim_some, hst]

theorem pageTaken_of_elastic {r : BitVec 128} (h : regionOf m (x.sector.toNat * 64 / 4096 * 4096) = some r)
    (href : mirrorRefuses m (engineKey r) (x.sector.toNat * 64 / 4096 * 4096) = none) (helastic : rgElastic r = true) :
    pageTaken x m = rxPut (.page (x.sector.toNat * 64 / 4096 * 4096)) [] m := by
  simp only [pageTaken, h, Option.elim_some, href, helastic, if_true]

theorem pageTaken_of_plain {r : BitVec 128} {ids : List Nat} {y : Mod} (h : regionOf m (x.sector.toNat * 64 / 4096 * 4096) = some r)
    (href : mirrorRefuses m (engineKey r) (x.sector.toNat * 64 / 4096 * 4096) = none) (hplain : rgElastic r = false)
    (hwrites : accesses 64 (fun i m =>
      mirrorAccess true (engineKey r) (x.sector.toNat * 64 / 4096 * 4096 + 64 * i) 0 (BitVec.allOnes 64) false m) m = (ids, y)) :
    pageTaken x m = rxPut (.sectors (x.sector.toNat * 64 / 4096 * 4096) 64) ids y := by
  simp only [pageTaken, h, Option.elim_some, href, hplain, Bool.false_eq_true, if_false, hwrites]

end

/-! ### Digests (R449) -/

theorem startDigests_of_fresh {n : Nat} {w : Word64} {m : Mod} (h : m.gang.fresh = true) : startDigests [w] n m =
    destOver (gangCredit (gangTx false (.rack n (zeroDigest != w)) (gangSet m fun g =>
      { g with rxDiff := if zeroDigest != w then g.rxDiff ++ [n] else g.rxDiff, rxLast := g.rxLast || n + 1 == granCount m }))) := by
  rw [startDigests, if_pos h]
  rfl

theorem startDigests_of_used {n : Nat} {w : Word64} {ids : List Nat} {m y : Mod} (h : m.gang.fresh = false) (hreads : readGranule n m = (ids, y)) :
    startDigests [w] n m = rxPut (.digests n [w]) ids y := by
  rw [startDigests, if_neg (by rw [h]; decide), hreads]

theorem asDest_fresh (m : Mod) : (asDest m).gang.fresh = m.gang.fresh := by
  unfold asDest
  split <;> rfl

/-! ### Requests whose accesses are answered (R434, R445) -/

/-- With one request under way, the mirror engine serves it and then its own reads. -/
theorem mirrorGo_of_one {x : RxWait} {m : Mod} (h : m.gang.rxWait = [x]) (hhere : answered m x.ids = true) : mirrorGo m = granRead (rxDone x m) := by
  rw [mirrorGo, h, List.foldl_cons, List.foldl_nil, if_pos hhere]

theorem erase_of_one {x : RxWait} {m : Mod} (h : m.gang.rxWait = [x]) :
    onGang (fun g => { g with rxWait := g.rxWait.erase x }) m = gangSet m fun g => { g with rxWait := [] } := by
  rw [onGang, h, List.erase_cons_head]
  rfl

theorem rxDone_of_write {tag off : Nat} {ids : List Nat} {m : Mod} (h : m.gang.rxWait = [⟨.write tag off, ids⟩]) :
    let z := dropAcc ids (gangSet m fun g => { g with rxWait := [] })
    (anyBad m ids = false → rxDone ⟨.write tag off, ids⟩ m = mirrorRecall ((regionOf z off).elim 0 engineKey) off
      (gangCredit (gangTx false (.mack tag 0) (gangSet z fun g => { g with fresh := false })))) ∧
    (anyBad m ids = true → rxDone ⟨.write tag off, ids⟩ m = gangCredit (gangTx false (.mack tag (if m.prot.stop.isSome then 3 else 4)) z)) := by
  intro z
  refine ⟨fun hgood => ?_, fun hbad => ?_⟩
  · simp only [rxDone, hgood, Bool.not_false, if_true, erase_of_one h]
    rfl
  · simp only [rxDone, hbad, Bool.not_true, Bool.false_eq_true, if_false, erase_of_one h]
    have hcode : (if (dropAcc ids (gangSet m fun g => { g with rxWait := [] })).prot.stop.isSome = true then 3 else 4) ≠ 0 := by
      split <;> decide
    rw [if_neg hcode, sendMack, if_neg hcode]
    rfl

theorem rxDone_of_sectors {off n : Nat} {ids : List Nat} {m : Mod} (h : m.gang.rxWait = [⟨.sectors off n, ids⟩]) :
    rxDone ⟨.sectors off n, ids⟩ m = gangCredit (granArrive off n (dropAcc ids (gangSet m fun g => { g with rxWait := [] }))) := by
  simp only [rxDone, erase_of_one h]

/-! ### The first half of O50 -/

theorem mirrorRequestsAreServed : MirrorRequestsAreServed := by
  unfold MirrorRequestsAreServed
  refine ⟨?messages, ?write, ?sectors⟩
  case messages =>
    intro f s hs q d serves
    have hfresh : d.gang.fresh = s.m.gang.fresh := (asDest_fresh q).trans (congrArg GangSt.fresh (wake_gang (touch (recvd f s.m)) 4) :)
    refine ⟨?mwrRefused, ?mwr, ?mwrp, ?rsd, ?zpg, ?rdig, ?rdigFresh, ?rdigUsed⟩
    case mwrRefused =>
      intro x data en st href y
      exact ⟨completes_of_request _ (exec_mwr f x data s) hs (writeTaken_of_refused href),
        completes_of_request _ (exec_mwrp f x data s en) hs (writeTaken_of_refused href)⟩
    case mwr => exact fun x data id y href haccess => completes_of_request _ (exec_mwr f x data s) hs (writeTaken_of_stored href haccess)
    case mwrp => exact fun x data en id y href haccess => completes_of_request _ (exec_mwrp f x data s en) hs (writeTaken_of_stored href haccess)
    case rsd =>
      intro x data off
      exact ⟨fun href => completes_of_request _ (exec_rsd f x data s) hs (sectorTaken_of_refused href),
        fun id y href haccess => completes_of_request _ (exec_rsd f x data s) hs (sectorTaken_of_stored href haccess)⟩
    case zpg =>
      intro x off
      exact ⟨fun hnone => completes_of_request _ (exec_zpg f x s) hs (pageTaken_of_unmapped hnone),
        fun r hr href => completes_of_request _ (exec_zpg f x s) hs (pageTaken_of_refused hr href),
        fun r hr href helastic => completes_of_request _ (exec_zpg f x s) hs (pageTaken_of_elastic hr href helastic),
        fun r ids y hr href hplain hwrites => completes_of_request _ (exec_zpg f x s) hs (pageTaken_of_plain hr href hplain hwrites)⟩
    case rdig => exact fun n l => completes_of_request _ (exec_rdig f s n l) hs rfl
    case rdigFresh =>
      intro n w hnew
      exact completes_of_request _ (exec_rdig f s n [w]) hs (startDigests_of_fresh (hfresh.trans hnew))
    case rdigUsed =>
      intro n w ids y hused hreads
      exact completes_of_request _ (exec_rdig f s n [w]) hs (startDigests_of_used (hfresh.trans hused) hreads)
  case write =>
    intro tag off ids m hone hhere z
    obtain ⟨hgood, hbad⟩ := rxDone_of_write hone
    exact ⟨fun h => (mirrorGo_of_one hone hhere).trans (congrArg granRead (hgood h)),
      fun h => (mirrorGo_of_one hone hhere).trans (congrArg granRead (hbad h))⟩
  case sectors =>
    intro off n ids m hone hhere
    rw [mirrorGo_of_one hone hhere, rxDone_of_sectors hone]

/-! ### Responses and controls (R443 to R451) -/

/-- The effect of a MACK. -/
def mackTaken (tag : Nat) (status : Fin 5) (m : Mod) : Mod :=
  match m.gang.waits.find? (fun w => w.tag == tag) with
  | none => m
  | some w =>
    let y := onGang (fun g => { g with waits := g.waits.erase w, fresh := false }) m
    let z := if status = 0 then y else event 0x0B05 0 (status.val + w.off / 64 * 64) (gangErr 6 (setDirty w.off y))
    resyncOver (match w.req with
      | some q => sendNdr q .none z
      | none => z)

/-- The effect of a RACK. -/
def rackTaken (gran : Nat) (differed : Bool) (m : Mod) : Mod :=
  if m.gang.copying = some gran then
    resyncNext 4 (serveAll m.gang.held
      (onGang (fun g => { g with copying := none, held := [], donePass := gran :: g.donePass, bitmap := g.bitmap.filter (· != gran) }) m))
  else if m.gang.digOut.contains gran then
    let y := onGang (fun g => { g with digOut := g.digOut.filter (· != gran) }) m
    if differed then resyncNext 4 (onGang (fun g => { g with toCopy := g.toCopy ++ [gran] }) y)
    else resyncNext 4 (onGang (fun g => { g with donePass := gran :: g.donePass }) y)
  else m

/-- The effect of RESYNC_DONE. -/
def resyncDoneTaken (m : Mod) : Mod := if m.gang.mirror = .source then resyncOver (onGang (fun g => { g with rxDone := true }) m) else m

/-- The effect of SUSPEND and STOP. -/
def mirrorHalted (x : MirrorState) (m : Mod) : Mod := completeWaits (onGang (fun g => { g with mirror := x }) m)

/-- The effect of RESUME. -/
def resumeTaken (m : Mod) : Mod :=
  if m.gang.mirror ≠ .suspended then m
  else match m.gang.peer with
    | some x => if x.digest ≠ regionDigest m then mismatch x.digest m else startSource false m
    | none => m

/-- The effect of CHANGE. -/
def changeTaken (w r : Nat) (m : Mod) : Mod :=
  if m.gang.change.isNone then peerChange w r m
  else if !m.gang.changeOwn then onGang (fun g => { g with changeWait := some (w, r, false) }) m
  else if m.gang.primary then m
  else peerChange w r m

section
variable (f : FlitHdr) (s : State)

theorem exec_mack (tag : Nat) (st : Fin 5) : exec (.mack f tag st) s = .next (onMod (gangRecv f (mackTaken tag st)) s) := rfl
theorem exec_rack (n : Nat) (b : Bool) : exec (.rack f n b) s = .next (onMod (gangRecv f (rackTaken n b)) s) := rfl
theorem exec_resyncDone : exec (.resyncDone f) s = .next (onMod (gangRecv f resyncDoneTaken) s) := rfl
theorem exec_suspend : exec (.suspend f) s = .next (onMod (gangRecv f (mirrorHalted .suspended)) s) := rfl
theorem exec_stop : exec (.stop f) s = .next (onMod (gangRecv f (mirrorHalted .peerstop)) s) := rfl
theorem exec_resume : exec (.resume f) s = .next (onMod (gangRecv f resumeTaken) s) := rfl
theorem exec_change (w : Fin 3) (r : Fin 2) : exec (.change f w r) s = .next (onMod (gangRecv f (changeTaken w.val r.val)) s) := rfl

end

section
variable {m : Mod}

theorem mackTaken_of_unknown {tag : Nat} {st : Fin 5} (h : m.gang.waits.find? (fun w => w.tag == tag) = none) : mackTaken tag st m = m := by
  rw [mackTaken, h]

theorem mackTaken_of_known {tag : Nat} {w : MirrorWait} (h : m.gang.waits.find? (fun w => w.tag == tag) = some w) :
    let y := gangSet m fun g => { g with waits := g.waits.erase w, fresh := false }
    mackTaken tag 0 m = resyncOver (w.req.elim y (fun q => sendNdr q .none y)) ∧ ∀ st : Fin 5, st ≠ 0 →
      let z := event 0x0B05 0 (st.val + w.off / 64 * 64) (gangSet (setDirty w.off y) fun g => { g with err := putBit g.err 6 true })
      mackTaken tag st m = resyncOver (w.req.elim z (fun q => sendNdr q .none z)) := by
  intro y
  refine ⟨?_, fun st hst => ?_⟩
  · simp only [mackTaken, h, if_true]
    cases w.req <;> rfl
  · intro z
    simp only [mackTaken, h, if_neg hst]
    cases w.req <;> rfl

theorem rackTaken_of_copied {n : Nat} {b : Bool} (h : m.gang.copying = some n) : rackTaken n b m = resyncNext 4 (serveAll m.gang.held (gangSet m fun g =>
    { g with copying := none, held := [], donePass := n :: g.donePass, bitmap := g.bitmap.filter (· != n) })) := if_pos h

theorem rackTaken_of_compared {n : Nat} {b : Bool} (h : m.gang.copying ≠ some n) : rackTaken n b m =
    if m.gang.digOut.contains n then resyncNext 4 (gangSet m fun g =>
      { g with digOut := g.digOut.filter (· != n), toCopy := if b then g.toCopy ++ [n] else g.toCopy
               donePass := if b then g.donePass else n :: g.donePass }) else m := by
  rw [rackTaken, if_neg h]
  cases b <;> rfl

theorem mirrorHalted_of_idle {x : MirrorState} (h : mirrorIdle m.gang) : mirrorHalted x m = resyncEnded x m := by
  obtain ⟨hwaits, hheld, -, hreading⟩ := h
  exact (completeWaits_of_idle (m := onGang (fun g => { g with mirror := x }) m) hwaits hheld hreading).trans rfl

theorem resumeTaken_of_known {x : HelloMsg} (hmirror : m.gang.mirror = .suspended) (hpeer : m.gang.peer = some x) :
    resumeTaken m = if x.digest ≠ regionDigest m then mismatch x.digest m else startSource false m := by
  rw [resumeTaken, if_neg (not_not.mpr hmirror), hpeer]

theorem changeTaken_eq (w r : Nat) : changeTaken w r m =
    if m.gang.change = none then gangSet m fun g => { g with link := 2, change := some (w, r), changeOwn := false }
    else if m.gang.changeOwn = false then gangSet m fun g => { g with changeWait := some (w, r, false) }
    else if m.gang.primary then m
    else gangSet m fun g => { g with link := 2, change := some (w, r), changeOwn := false } :=
  if_congr Option.isNone_iff_eq_none rfl (if_congr (by simp) rfl rfl)

end

/-- Settles O50: the requests above, and the responses and controls, each as the payload of an expected flit; a flit of another epoch has none. -/
theorem mirrorMessagesAreServed : Obligations.MirrorMessagesAreServed := by
  unfold Obligations.MirrorMessagesAreServed
  refine ⟨mirrorRequestsAreServed, ?responses, ?others⟩
  case responses =>
    intro f s hs r
    refine ⟨?mack, ?noMack, ?rackCopied, ?rackCompared, ?done, ?notDone, ?notSuspended, ?resume, ?idle, ?change⟩
    case mack =>
      intro tag w hfind y
      obtain ⟨hgood, hbad⟩ := mackTaken_of_known (m := r) hfind
      exact ⟨completes_of_expected _ (exec_mack f s tag 0) hs hgood, fun st hst => completes_of_expected _ (exec_mack f s tag st) hs (hbad st hst)⟩
    case noMack => exact fun tag st hnone => completes_of_expected _ (exec_mack f s tag st) hs (mackTaken_of_unknown (m := r) hnone)
    case rackCopied => exact fun n b hcopy => completes_of_expected _ (exec_rack f s n b) hs (rackTaken_of_copied (m := r) hcopy)
    case rackCompared => exact fun n b hcopy => completes_of_expected _ (exec_rack f s n b) hs (rackTaken_of_compared (m := r) hcopy)
    case done => exact fun hsource => completes_of_expected _ (exec_resyncDone f s) hs (if_pos hsource)
    case notDone => exact fun hsource => completes_of_expected _ (exec_resyncDone f s) hs (if_neg hsource)
    case notSuspended => exact fun hmirror => completes_of_expected _ (exec_resume f s) hs (if_pos hmirror)
    case resume =>
      intro x hmirror hpeer hdigest
      refine completes_of_expected _ (exec_resume f s) hs ((resumeTaken_of_known (m := r) hmirror hpeer).trans (if_neg (not_not.mpr ?_)))
      exact hdigest.trans (regionDigest_of_prot_eq rfl).symm
    case idle =>
      intro hidle
      refine ⟨completes_of_expected _ (exec_suspend f s) hs (mirrorHalted_of_idle (m := r) hidle),
        completes_of_expected _ (exec_stop f s) hs (mirrorHalted_of_idle (m := r) hidle), fun x hmirror hpeer hdigest => ?_⟩
      have hdiffers : x.digest ≠ regionDigest r := fun h => hdigest (h.trans (regionDigest_of_prot_eq rfl))
      refine completes_of_expected _ (exec_resume f s) hs ((resumeTaken_of_known (m := r) hmirror hpeer).trans ((if_pos hdiffers).trans ?_))
      exact mismatch_of_idle (m := r) hidle
    case change =>
      intro w rt begins
      exact completes_of_expected _ (exec_change f s w rt) hs (changeTaken_eq (m := r) w.val rt.val)
  case others =>
    intro f x d en n l st b w rt s hepoch c hc
    have hrecv : ∀ payload, gangRecv f payload s.m = s.m := gangRecv_of_other_epoch hepoch
    simp only [List.mem_cons, List.not_mem_nil, or_false] at hc
    rcases hc with rfl | rfl | rfl | rfl | rfl | rfl | rfl | rfl | rfl | rfl | rfl | rfl
    · exact exec_of_fixed _ (exec_mwr f x d s) (hrecv _)
    · exact exec_of_fixed _ (exec_mwrp f x d s en) (hrecv _)
    · exact exec_of_fixed _ (exec_rsd f x d s) (hrecv _)
    · exact exec_of_fixed _ (exec_zpg f x s) (hrecv _)
    · exact exec_of_fixed _ (exec_rdig f s n l) (hrecv _)
    · exact exec_of_fixed _ (exec_mack f s n st) (hrecv _)
    · exact exec_of_fixed _ (exec_rack f s n b) (hrecv _)
    · exact exec_of_fixed _ (exec_suspend f s) (hrecv _)
    · exact exec_of_fixed _ (exec_resume f s) (hrecv _)
    · exact exec_of_fixed _ (exec_stop f s) (hrecv _)
    · exact exec_of_fixed _ (exec_change f s w rt) (hrecv _)
    · exact exec_of_fixed _ (exec_resyncDone f s) (hrecv _)

end Sys2Proof.Machine
end
